-- ==== Sys2Proof/Word.lean ====
section
/-! DEFINITION. The machine's word types and their plainest arithmetic: bytes, 32-bit words, 64-bit doublewords,
vector images of 64 lanes, and bit fields read as numbers. -/

namespace Sys2Proof

/-- A byte of memory (R5). -/
abbrev Byte := BitVec 8

/-- A 32-bit word: an instruction word, a lane of a vector register (R81, R176). -/
abbrev Word := BitVec 32

/-- A 64-bit scalar: an s or a register, a queue entry, an address (R32, R105, R142). -/
abbrev Dword := BitVec 64

/-- A 2048-bit vector image as 64 lanes of 32 bits, lane 0 in the low bits (R176). -/
abbrev VReg := Vector (BitVec 32) 64

/-- A mask register's 256 bits (R177). -/
abbrev Mask := BitVec 256

/-- The number in bits [lo + k - 1 : lo] of a word, where `m = 2 ^ k`, as an index below `m`. -/
def fld (m : Nat) [NeZero m] (w : Word) (lo : Nat) : Fin m := Fin.ofNat m (w.toNat / 2 ^ lo)

/-- One bit of a word. -/
def bitAt (w : Word) (i : Nat) : Bool := w.toNat / 2 ^ i % 2 == 1

/-- A Boolean as the digit 0 or 1. -/
def digit (b : Bool) : Nat := if b then 1 else 0

/-- A natural number read as a signed number of `w` bits. -/
def signedOf (w n : Nat) : Int :=
  let r := n % 2 ^ w
  if 2 * r < 2 ^ w then (r : Int) else (r : Int) - 2 ^ w

/-- A signed number as the two's-complement natural number of `w` bits. -/
def wrapTo (w : Nat) (v : Int) : Nat := (v % (2 ^ w : Int)).toNat

end Sys2Proof
end

