-- ==== Sys2Proof/Syntax.lean ====
section
/-! DEFINITION. The instruction set as syntax: operands, argument shapes, and the one inductive `Instr` with one
constructor per row of spec/opcode_table.json: 297 instruction words and prefixes, and 84 events. -/

namespace Sys2Proof

/-- The six engines, by the tag of their lines (R3, R82). -/
inductive Eng | c | a | v | m | d | g
deriving DecidableEq, Repr

/-- The predicate field of a word: a register and its negation (R88). -/
structure Pred where
  n : Bool
  p : Fin 8
deriving DecidableEq, Repr

/-- A port: a stream, a scalar queue or a vector queue (R87). -/
inductive Port
  | g (n : Fin 16)
  | q (n : Fin 16)
  | vq (n : Fin 4)
deriving DecidableEq, Repr

/-- A register or port operand of an R, K or I word (R87). -/
inductive Opd
  | reg (n : Fin 64)
  | port (p : Port)
deriving DecidableEq, Repr

/-- Rounding modes (R70). -/
inductive Rm | rne | rtz | rdn | rup | rna | rsto
deriving DecidableEq, Repr

/-- Scopes of an ordering (R54). -/
inductive Scope | strand | blk | grp | die | pkg | sys
deriving DecidableEq, Repr

/-- The content of an ORD field (R96). -/
structure Ord where
  rel : Bool
  acq : Bool
  scope : Scope
deriving DecidableEq, Repr

/-- The relations of integer comparisons (R109). -/
inductive Rel | eq | ne | lt | ge | gt | le | ltu | geu
deriving DecidableEq, Repr

/-- The types of `c.fcvt` (R111). -/
inductive CTy | fp32 | bf16 | fp16 | i32 | i64 | e4m3 | e5m2
deriving DecidableEq, Repr

/-- The types of `v.vcvt` (R185). -/
inductive VcTy | fp32 | bf16 | fp16 | i32 | i16 | e4m3 | e5m2 | i8
deriving DecidableEq, Repr

/-- The TYPE field of a wide vector form: 32-bit, 16-bit (i16 or bf16), fp16, i8 (R101). -/
inductive VTy | t32 | t16 | tH | t8
deriving DecidableEq, Repr

/-- Atomic operations (R117). -/
inductive AmoOp | add | band | bor | bxor | min | max | swap | cas | incw | fadd
deriving DecidableEq, Repr

/-- Operations of `vred` and `vscan` (R190). -/
inductive RedOp | add | band | bor | bxor | min | max | minu | maxu | fadd | fmin | fmax
deriving DecidableEq, Repr

/-- The CSRs by number (R128). -/
inductive Csr | blockid | dieid | coreid | slipw | status | trapcause | cycle | phase | scoutk | leave
deriving DecidableEq, Repr

/-- The count of a ring instruction: a 6-bit immediate or a queue to pop (R122). -/
inductive RCount
  | imm (n : Fin 64)
  | q (n : Fin 16)
deriving DecidableEq, Repr

/-- The exponent operand of `mclr` and `dclr` (R212, R221). -/
inductive EVal
  | imm (n : Fin 64)
  | q (n : Fin 16)
deriving DecidableEq, Repr

/-- A branch target word: a signed line offset and a word index (R89). -/
structure Target where
  loff : BitVec 28
  word : Fin 16
deriving DecidableEq, Repr

/-- Destination of a vote: a guard slot or a predicate of the v strand (R193). -/
inductive VoteDst
  | gs (n : Fin 16)
  | p (n : Fin 8)
deriving DecidableEq, Repr

/-- The borrower named by `v.blend` (R198). -/
inductive Borrower | m | d
deriving DecidableEq, Repr

/-- Access widths of the wide load and store (R116). -/
inductive Wid | b | h | w | d
deriving DecidableEq, Repr

/-- What the first word of every wide vector form shares in EXT (R101, R179). -/
structure VExt where
  ty : VTy
  rmv : Bool
  rm : Rm
  sat : Bool
  ftz : Bool
  mask : Fin 8
deriving DecidableEq, Repr

/-! Argument shapes, one structure per layout of the encoding tables (R86 to R102). -/

/-- Format R with three operands. -/
structure RArgs where
  pred : Pred
  d : Opd
  a : Opd
  b : Opd
deriving DecidableEq, Repr

/-- Format R with a destination and one source. -/
structure UArgs where
  pred : Pred
  d : Opd
  a : Opd
deriving DecidableEq, Repr

/-- Format K: destination, source, six-bit immediate. -/
structure KArgs where
  pred : Pred
  d : Opd
  a : Opd
  imm : BitVec 6
deriving DecidableEq, Repr

/-- A comparison: relation and destination predicate or mask in the split D field (R109). -/
structure CmpArgs where
  pred : Pred
  rel : Rel
  pd : Fin 8
  a : Opd
  b : Opd
deriving DecidableEq, Repr

/-- A comparison with an immediate. -/
structure CmpKArgs where
  pred : Pred
  rel : Rel
  pd : Fin 8
  a : Opd
  imm : BitVec 6
deriving DecidableEq, Repr

/-- `pand` and `por`. -/
structure P3Args where
  pred : Pred
  d : Fin 8
  a : Fin 8
  b : Fin 8
deriving DecidableEq, Repr

/-- `pnot`. -/
structure P2Args where
  pred : Pred
  d : Fin 8
  a : Fin 8
deriving DecidableEq, Repr

/-- `c.fcvt`. -/
structure CFcvtArgs where
  pred : Pred
  d : Opd
  a : Opd
  src : CTy
  dst : CTy
deriving DecidableEq, Repr

/-- `c.ptgt`, register form. -/
structure PtgtRArgs where
  pred : Pred
  b : Fin 4
  a : Opd
deriving DecidableEq, Repr

/-- `jt`. -/
structure JtArgs where
  pred : Pred
  b : Fin 4
deriving DecidableEq, Repr

/-- `jtl`. -/
structure JtlArgs where
  pred : Pred
  d : Opd
  b : Fin 4
deriving DecidableEq, Repr

/-- `fence`. -/
structure FenceArgs where
  pred : Pred
  ord : Ord
deriving DecidableEq, Repr

/-- `tkset`, `tkwait`, `tkclr`. -/
structure FlagArgs where
  pred : Pred
  f : Fin 64
deriving DecidableEq, Repr

/-- `gset`. -/
structure GsetArgs where
  pred : Pred
  gs : Fin 16
  p : Fin 8
deriving DecidableEq, Repr

/-- One source operand. -/
structure SrcArgs where
  pred : Pred
  a : Opd
deriving DecidableEq, Repr

/-- `csrr`. -/
structure CsrrArgs where
  pred : Pred
  d : Opd
  csr : Csr
deriving DecidableEq, Repr

/-- `csrw`. -/
structure CsrwArgs where
  pred : Pred
  csr : Csr
  b : Opd
deriving DecidableEq, Repr

/-- `rclaim`. -/
structure RclaimArgs where
  pred : Pred
  d : Opd
  ring : Fin 32
  n : RCount
deriving DecidableEq, Repr

/-- `rpub` and `rwait`. -/
structure ROrdArgs where
  pred : Pred
  ord : Ord
  ring : Fin 32
  n : RCount
deriving DecidableEq, Repr

/-- `rfree` and `rrel`. -/
structure RingArgs where
  pred : Pred
  ring : Fin 32
  n : RCount
deriving DecidableEq, Repr

/-- No operand. -/
structure NoArgs where
  pred : Pred
deriving DecidableEq, Repr

/-- Short load or store: value operand, base register, scaled six-bit offset (R116). -/
structure LdArgs where
  pred : Pred
  d : Opd
  a : Fin 64
  off : BitVec 6
deriving DecidableEq, Repr

/-- `accept`. -/
structure AcceptArgs where
  pred : Pred
  d : Opd
  tol : Bool
deriving DecidableEq, Repr

/-- `ctwr`. -/
structure CtwrArgs where
  pred : Pred
  ct : Fin 8
  a : Opd
deriving DecidableEq, Repr

/-- `ctswap`. -/
structure CtArgs where
  pred : Pred
  ct : Fin 8
deriving DecidableEq, Repr

/-- `li`. -/
structure LiArgs where
  pred : Pred
  d : Opd
  imm : Word
deriving DecidableEq, Repr

/-- `ptgt`, label form. -/
structure PtgtLArgs where
  pred : Pred
  b : Fin 4
  tgt : Target
deriving DecidableEq, Repr

/-- `loop`. -/
structure LoopArgs where
  pred : Pred
  lc : Fin 4
  a : Opd
  stop : Target
deriving DecidableEq, Repr

/-- `amo`. -/
structure AmoArgs where
  pred : Pred
  d : Fin 64
  a : Fin 64
  b : Fin 64
  op : AmoOp
  w64 : Bool
  ord : Ord
  off : BitVec 21
deriving DecidableEq, Repr

/-- `scout`. -/
structure ScoutArgs where
  pred : Pred
  a : Opd
  k : Fin 64
  guess : Target
deriving DecidableEq, Repr

/-- Wide load or store. -/
structure LdWArgs where
  pred : Pred
  d : Opd
  a : Fin 64
  wid : Wid
  off : BitVec 30
deriving DecidableEq, Repr

/-- `tkwait` with a timeout. -/
structure TkTArgs where
  pred : Pred
  pd : Fin 8
  f : Fin 64
  t : Word
deriving DecidableEq, Repr

/-- `sbind` and `sset` from a register. -/
structure SsetArgs where
  pred : Pred
  g : Fin 16
  a : Opd
deriving DecidableEq, Repr

/-- `ngo`: `k1` is the body length less one. -/
structure NgoArgs where
  pred : Pred
  k1 : Fin 8
deriving DecidableEq, Repr

/-- `nset`, short form. -/
structure NsetArgs where
  pred : Pred
  level : Fin 6
  x : Fin 32
  y : Fin 32
  step : BitVec 10
deriving DecidableEq, Repr

/-- `nset`, wide form. -/
structure NsetWArgs where
  pred : Pred
  level : Fin 6
  x : Fin 32
  y : Fin 32
  step : Word
deriving DecidableEq, Repr

/-- `sset` with an immediate. -/
structure SsetIArgs where
  pred : Pred
  g : Fin 16
  imm : Word
deriving DecidableEq, Repr

/-- An engine command's attribute index and three five-bit operands (R90). -/
structure CArgs where
  pred : Pred
  attr : Fin 32
  o1 : Fin 32
  o2 : Fin 32
  o3 : Fin 32
deriving DecidableEq, Repr

/-- EXT of the wide copy (R152); `kind` 0 memory to memory, 1 to a stream, 2 from a stream. -/
structure CopyExt where
  kind : Fin 3
  tr : Bool
  esz : Fin 4
  dom : Fin 32
  fd : Bool
  lk : Bool
  soff : BitVec 10
  doff : BitVec 10
deriving DecidableEq, Repr

/-- EXT of `copyb` (R160). -/
structure CopybExt where
  scatter : Bool
  imode : Fin 3
  add : Bool
  ex0 : Fin 13
  ex1 : Fin 13
  ex2 : Fin 13
  ex3 : Fin 13
  nidx : BitVec 12
deriving DecidableEq, Repr

/-- EXT of `mcast` (R162). -/
structure McastExt where
  group : Fin 256
  n : Fin 64
  ac : Bool
  sbc : BitVec 12
deriving DecidableEq, Repr

/-- `vsel`. -/
structure VselArgs where
  pred : Pred
  d : Opd
  a : Opd
  vm : Fin 8
deriving DecidableEq, Repr

/-- `vcvt`. -/
structure VcvtArgs where
  pred : Pred
  d : Opd
  a : Opd
  src : VcTy
  dst : VcTy
deriving DecidableEq, Repr

/-- EXT fields of the wide `vpack` (R186). -/
structure PackExt where
  df : Fin 16
  dfv : Bool
  hq : Fin 4
deriving DecidableEq, Repr

/-- `vunpk`. -/
structure VunpkArgs where
  pred : Pred
  d : Opd
  a : Opd
  chunk : Fin 16
  keep : Bool
deriving DecidableEq, Repr

/-- EXT fields of the wide `vunpk` (R188). -/
structure UnpkExt where
  sf : Fin 16
  sfv : Bool
deriving DecidableEq, Repr

/-- `vred`. -/
structure VredArgs where
  pred : Pred
  d : Opd
  a : Opd
  op : RedOp
deriving DecidableEq, Repr

/-- `vscan`. -/
structure VscanArgs where
  pred : Pred
  d : Opd
  a : Opd
  op : RedOp
  excl : Bool
deriving DecidableEq, Repr

/-- `vbcast` and `vext`: an element index. -/
structure IdxArgs where
  pred : Pred
  d : Opd
  a : Opd
  idx : Fin 256
deriving DecidableEq, Repr

/-- `viota`. -/
structure ViotaArgs where
  pred : Pred
  d : Opd
  vm : Fin 8
deriving DecidableEq, Repr

/-- `vany` and `vall`; `width` 0, 1, 2 for 64, 128, 256 elements. -/
structure VoteArgs where
  pred : Pred
  d : VoteDst
  vm : Fin 8
  width : Fin 3
deriving DecidableEq, Repr

/-- `blend`. -/
structure BlendArgs where
  pred : Pred
  bank : Fin 8
  who : Borrower
deriving DecidableEq, Repr

/-- `mclr`. -/
structure MclrArgs where
  pred : Pred
  tile : Fin 4
  e : EVal
deriving DecidableEq, Repr

/-- `mstat`. -/
structure MstatArgs where
  pred : Pred
  q : Fin 16
  tile : Fin 4
  ctl : Fin 3
deriving DecidableEq, Repr

/-- `bret`. -/
structure BretArgs where
  pred : Pred
  bank : Fin 8
deriving DecidableEq, Repr

/-- `mnorm` and `dnorm`. -/
structure NormArgs where
  pred : Pred
  attr : Fin 32
  tile : Fin 4
  k : Fin 40
deriving DecidableEq, Repr

/-- `mrd` and `mwr`. -/
structure MrdArgs where
  pred : Pred
  attr : Fin 32
  tile : Fin 4
  ring : Fin 32
  fmt : Fin 32
deriving DecidableEq, Repr

/-- `mexp`. -/
structure MexpArgs where
  pred : Pred
  attr : Fin 32
  tile : Fin 4
  bank : Fin 8
  r : Fin 8
deriving DecidableEq, Repr

/-- EXT of `mma` and `mmas` (R211). -/
structure MmaExt where
  fa : Fin 16
  fb : Fin 16
  acc : Fin 4
  ka : Bool
  kb : Bool
  cta : Fin 8
  ctb : Fin 8
deriving DecidableEq, Repr

/-- `dclr`: `nb1` is NB - 1. -/
structure DclrArgs where
  pred : Pred
  tile : Fin 2
  nb1 : Fin 8
  e : EVal
deriving DecidableEq, Repr

/-- `drd`. -/
structure DrdArgs where
  pred : Pred
  attr : Fin 32
  tile : Fin 2
  vq : Fin 4
  fmt : Fin 32
deriving DecidableEq, Repr

/-- `dmv`, `dqk`, `dpv` (R220): `nb1`, `nr1` are NB - 1 and NR - 1. -/
structure DmvArgs where
  pred : Pred
  attr : Fin 32
  g : Fin 16
  bank : Fin 8
  nb1 : Fin 8
  rf : Bool
  dacc : Fin 2
  nr1 : Fin 64
deriving DecidableEq, Repr

/-- `gcfg`. -/
structure GcfgArgs where
  pred : Pred
  gd : Fin 4
  q : Fin 16
deriving DecidableEq, Repr

/-- `gld` and `gsc`: `ln1` is LN - 1. -/
structure GldArgs where
  pred : Pred
  attr : Fin 32
  gd : Fin 4
  vqi : Fin 4
  vqo : Fin 4
  lb : Fin 32
  ln1 : Fin 32
deriving DecidableEq, Repr

/-! Arguments of events. -/

/-- A register window: a virtual function's, or the firmware's hub window. -/
inductive Window
  | vf (f : Fin 64)
  | hub
deriving DecidableEq, Repr

/-- Algorithms that an SPDM requester offers (R323). -/
structure SpdmAlgs where
  rsaPss4096 : Bool
  sha512 : Bool
  secp384r1 : Bool
  aes256gcm : Bool
deriving DecidableEq, Repr


/-- The instruction set: one constructor per row of spec/opcode_table.json. -/
inductive Instr
  /-- C_ADD (R106) -/
  | cAdd (x : RArgs)
  /-- C_SUB (R106) -/
  | cSub (x : RArgs)
  /-- C_MUL (R106) -/
  | cMul (x : RArgs)
  /-- C_MULH (R106) -/
  | cMulh (x : RArgs)
  /-- C_MULHU (R106) -/
  | cMulhu (x : RArgs)
  /-- C_DIV (R107) -/
  | cDiv (x : RArgs)
  /-- C_DIVU (R107) -/
  | cDivu (x : RArgs)
  /-- C_REM (R107) -/
  | cRem (x : RArgs)
  /-- C_REMU (R107) -/
  | cRemu (x : RArgs)
  /-- C_AND (R106) -/
  | cAnd (x : RArgs)
  /-- C_OR (R106) -/
  | cOr (x : RArgs)
  /-- C_XOR (R106) -/
  | cXor (x : RArgs)
  /-- C_ANDN (R106) -/
  | cAndn (x : RArgs)
  /-- C_SHL (R106) -/
  | cShl (x : RArgs)
  /-- C_SHR (R106) -/
  | cShr (x : RArgs)
  /-- C_SAR (R106) -/
  | cSar (x : RArgs)
  /-- C_ROT (R106) -/
  | cRot (x : RArgs)
  /-- C_MIN (R106) -/
  | cMin (x : RArgs)
  /-- C_MAX (R106) -/
  | cMax (x : RArgs)
  /-- C_MINU (R106) -/
  | cMinu (x : RArgs)
  /-- C_MAXU (R106) -/
  | cMaxu (x : RArgs)
  /-- C_SEL (R108) -/
  | cSel (x : RArgs)
  /-- C_BFX (R108) -/
  | cBfx (x : RArgs)
  /-- C_BFI (R108) -/
  | cBfi (x : RArgs)
  /-- C_CLZ (R108) -/
  | cClz (x : UArgs)
  /-- C_CTZ (R108) -/
  | cCtz (x : UArgs)
  /-- C_POPC (R108) -/
  | cPopc (x : UArgs)
  /-- C_SEXT (R108) -/
  | cSext (x : RArgs)
  /-- C_ZEXT (R108) -/
  | cZext (x : RArgs)
  /-- C_MOV (R108) -/
  | cMov (x : UArgs)
  /-- C_CMP (R109) -/
  | cCmp (x : CmpArgs)
  /-- C_PAND (R109) -/
  | cPand (x : P3Args)
  /-- C_POR (R109) -/
  | cPor (x : P3Args)
  /-- C_PNOT (R109) -/
  | cPnot (x : P2Args)
  /-- C_FADD (R110) -/
  | cFadd (x : RArgs)
  /-- C_FSUB (R110) -/
  | cFsub (x : RArgs)
  /-- C_FMUL (R110) -/
  | cFmul (x : RArgs)
  /-- C_FMA (R110) -/
  | cFma (x : RArgs)
  /-- C_FMIN (R110) -/
  | cFmin (x : RArgs)
  /-- C_FMAX (R110) -/
  | cFmax (x : RArgs)
  /-- C_FCVT (R111) -/
  | cFcvt (x : CFcvtArgs)
  /-- C_FCMP (R112) -/
  | cFcmp (x : CmpArgs)
  /-- C_PTGT (R113) -/
  | cPtgt (x : PtgtRArgs)
  /-- C_JT (R114) -/
  | cJt (x : JtArgs)
  /-- C_JTL (R114) -/
  | cJtl (x : JtlArgs)
  /-- C_FENCE (R118) -/
  | cFence (x : FenceArgs)
  /-- C_TKSET (R119) -/
  | cTkset (x : FlagArgs)
  /-- C_TKWAIT (R36) -/
  | cTkwait (x : FlagArgs)
  /-- C_TKCLR (R119) -/
  | cTkclr (x : FlagArgs)
  /-- C_GSET (R121) -/
  | cGset (x : GsetArgs)
  /-- C_GBAR (R124) -/
  | cGbar (x : SrcArgs)
  /-- C_CSRR (R128) -/
  | cCsrr (x : CsrrArgs)
  /-- C_CSRW (R128) -/
  | cCsrw (x : CsrwArgs)
  /-- C_RCLAIM (R122) -/
  | cRclaim (x : RclaimArgs)
  /-- C_RPUB (R122) -/
  | cRpub (x : ROrdArgs)
  /-- C_RWAIT (R122) -/
  | cRwait (x : ROrdArgs)
  /-- C_RFREE (R122) -/
  | cRfree (x : RingArgs)
  /-- C_RREL (R122) -/
  | cRrel (x : RingArgs)
  /-- C_RPOPN (R123) -/
  | cRpopn (x : RArgs)
  /-- C_TRAP (R129) -/
  | cTrap (x : SrcArgs)
  /-- C_HALT (R129) -/
  | cHalt (x : NoArgs)
  /-- C_NOP (R129) -/
  | cNop (x : NoArgs)
  /-- C_ADD_K (R106) -/
  | cAddK (x : KArgs)
  /-- C_SUB_K (R106) -/
  | cSubK (x : KArgs)
  /-- C_MUL_K (R106) -/
  | cMulK (x : KArgs)
  /-- C_MULH_K (R106) -/
  | cMulhK (x : KArgs)
  /-- C_MULHU_K (R106) -/
  | cMulhuK (x : KArgs)
  /-- C_DIV_K (R107) -/
  | cDivK (x : KArgs)
  /-- C_DIVU_K (R107) -/
  | cDivuK (x : KArgs)
  /-- C_REM_K (R107) -/
  | cRemK (x : KArgs)
  /-- C_REMU_K (R107) -/
  | cRemuK (x : KArgs)
  /-- C_AND_K (R106) -/
  | cAndK (x : KArgs)
  /-- C_OR_K (R106) -/
  | cOrK (x : KArgs)
  /-- C_XOR_K (R106) -/
  | cXorK (x : KArgs)
  /-- C_ANDN_K (R106) -/
  | cAndnK (x : KArgs)
  /-- C_SHL_K (R106) -/
  | cShlK (x : KArgs)
  /-- C_SHR_K (R106) -/
  | cShrK (x : KArgs)
  /-- C_SAR_K (R106) -/
  | cSarK (x : KArgs)
  /-- C_ROT_K (R106) -/
  | cRotK (x : KArgs)
  /-- C_MIN_K (R106) -/
  | cMinK (x : KArgs)
  /-- C_MAX_K (R106) -/
  | cMaxK (x : KArgs)
  /-- C_MINU_K (R106) -/
  | cMinuK (x : KArgs)
  /-- C_MAXU_K (R106) -/
  | cMaxuK (x : KArgs)
  /-- C_CMP_K (R109) -/
  | cCmpK (x : CmpKArgs)
  /-- C_LD_B (R116) -/
  | cLdB (x : LdArgs)
  /-- C_LD_H (R116) -/
  | cLdH (x : LdArgs)
  /-- C_LD_W (R116) -/
  | cLdW (x : LdArgs)
  /-- C_LD_D (R116) -/
  | cLdD (x : LdArgs)
  /-- C_ST_B (R116) -/
  | cStB (x : LdArgs)
  /-- C_ST_H (R116) -/
  | cStH (x : LdArgs)
  /-- C_ST_W (R116) -/
  | cStW (x : LdArgs)
  /-- C_ST_D (R116) -/
  | cStD (x : LdArgs)
  /-- C_KLAUNCH (R125) -/
  | cKlaunch (x : UArgs)
  /-- C_KXFER (R125) -/
  | cKxfer (x : UArgs)
  /-- C_PROG (R127) -/
  | cProg (x : SrcArgs)
  /-- C_PHADV (R256) -/
  | cPhadv (x : NoArgs)
  /-- C_PHADV_LATE (R259) -/
  | cPhadvLate (x : NoArgs)
  /-- C_PHSET (R261) -/
  | cPhset (x : SrcArgs)
  /-- C_PHWAIT (R260) -/
  | cPhwait (x : NoArgs)
  /-- C_SGRET (R135) -/
  | cSgret (x : NoArgs)
  /-- C_ACCEPT (R137) -/
  | cAccept (x : AcceptArgs)
  /-- C_SCOMMIT (R138) -/
  | cScommit (x : NoArgs)
  /-- C_SCLOSE (R138) -/
  | cSclose (x : NoArgs)
  /-- C_CTWR (R131) -/
  | cCtwr (x : CtwrArgs)
  /-- C_CTSWAP (R68) -/
  | cCtswap (x : CtArgs)
  /-- C_LI (R19) -/
  | cLi (x : LiArgs)
  /-- C_PTGT_LABEL (R113) -/
  | cPtgtLabel (x : PtgtLArgs)
  /-- C_LOOP (R115) -/
  | cLoop (x : LoopArgs)
  /-- C_AMO (R117) -/
  | cAmo (x : AmoArgs)
  /-- C_SCOUT (R134) -/
  | cScout (x : ScoutArgs)
  /-- C_LD_WIDE (R116) -/
  | cLdWide (x : LdWArgs)
  /-- C_ST_WIDE (R116) -/
  | cStWide (x : LdWArgs)
  /-- C_TKWAIT_TIMEOUT (R120) -/
  | cTkwaitTimeout (x : TkTArgs)
  /-- PFX (R92) -/
  | pfx (e : Eng) (rmv : Bool) (rm : Rm) (sat : Bool) (ftz : Bool)
  /-- PFXO (R92) -/
  | pfxo (e : Eng) (ord : Ord)
  /-- A_ADD (R142) -/
  | aAdd (x : RArgs)
  /-- A_SUB (R142) -/
  | aSub (x : RArgs)
  /-- A_MUL (R142) -/
  | aMul (x : RArgs)
  /-- A_SHL (R142) -/
  | aShl (x : RArgs)
  /-- A_SHR (R142) -/
  | aShr (x : RArgs)
  /-- A_MOV (R142) -/
  | aMov (x : UArgs)
  /-- A_CMP (R142) -/
  | aCmp (x : CmpArgs)
  /-- A_JT (R142) -/
  | aJt (x : JtArgs)
  /-- A_SBIND (R148) -/
  | aSbind (x : SsetArgs)
  /-- A_SSET (R148) -/
  | aSset (x : SsetArgs)
  /-- A_NGO (R166) -/
  | aNgo (x : NgoArgs)
  /-- A_NWAIT (R167) -/
  | aNwait (x : NoArgs)
  /-- A_NSET (R165) -/
  | aNset (x : NsetArgs)
  /-- A_COPY_MM (R153) -/
  | aCopyMm (x : CArgs)
  /-- A_COPY_MS (R153) -/
  | aCopyMs (x : CArgs)
  /-- A_COPY_SM (R153) -/
  | aCopySm (x : CArgs)
  /-- A_COPYL (R157) -/
  | aCopyl (x : CArgs)
  /-- A_SDRAIN (R150) -/
  | aSdrain (x : CArgs)
  /-- A_SCRUB (R173) -/
  | aScrub (x : CArgs)
  /-- A_LDT (R170) -/
  | aLdt (x : CArgs)
  /-- A_ADD_K (R142) -/
  | aAddK (x : KArgs)
  /-- A_SUB_K (R142) -/
  | aSubK (x : KArgs)
  /-- A_MUL_K (R142) -/
  | aMulK (x : KArgs)
  /-- A_SHL_K (R142) -/
  | aShlK (x : KArgs)
  /-- A_SHR_K (R142) -/
  | aShrK (x : KArgs)
  /-- A_CMP_K (R142) -/
  | aCmpK (x : CmpKArgs)
  /-- A_COPY_MM_LEN (R151) -/
  | aCopyMmLen (x : CArgs)
  /-- A_COPY_MS_LEN (R151) -/
  | aCopyMsLen (x : CArgs)
  /-- A_COPY_SM_LEN (R151) -/
  | aCopySmLen (x : CArgs)
  /-- A_LI (R142) -/
  | aLi (x : LiArgs)
  /-- A_PTGT (R142) -/
  | aPtgt (x : PtgtLArgs)
  /-- A_LOOP (R142) -/
  | aLoop (x : LoopArgs)
  /-- A_COPY_WIDE (R152) -/
  | aCopyWide (x : CArgs) (e : CopyExt)
  /-- A_COPYB (R160) -/
  | aCopyb (x : CArgs) (e : CopybExt)
  /-- A_MCAST (R163) -/
  | aMcast (x : CArgs) (e : McastExt)
  /-- A_NSET_WIDE (R165) -/
  | aNsetWide (x : NsetWArgs)
  /-- A_SSET_IMM (R148) -/
  | aSsetImm (x : SsetIArgs)
  /-- V_VADD (R180) -/
  | vVadd (x : RArgs)
  /-- V_VSUB (R180) -/
  | vVsub (x : RArgs)
  /-- V_VMUL (R180) -/
  | vVmul (x : RArgs)
  /-- V_VMAD (R180) -/
  | vVmad (x : RArgs)
  /-- V_VAND (R180) -/
  | vVand (x : RArgs)
  /-- V_VOR (R180) -/
  | vVor (x : RArgs)
  /-- V_VXOR (R180) -/
  | vVxor (x : RArgs)
  /-- V_VSHL (R180) -/
  | vVshl (x : RArgs)
  /-- V_VSHR (R180) -/
  | vVshr (x : RArgs)
  /-- V_VSAR (R180) -/
  | vVsar (x : RArgs)
  /-- V_VMIN (R180) -/
  | vVmin (x : RArgs)
  /-- V_VMAX (R180) -/
  | vVmax (x : RArgs)
  /-- V_VABS (R181) -/
  | vVabs (x : UArgs)
  /-- V_VCMP (R182) -/
  | vVcmp (x : CmpArgs)
  /-- V_VSEL (R182) -/
  | vVsel (x : VselArgs)
  /-- V_VFADD (R183) -/
  | vVfadd (x : RArgs)
  /-- V_VFSUB (R183) -/
  | vVfsub (x : RArgs)
  /-- V_VFMUL (R183) -/
  | vVfmul (x : RArgs)
  /-- V_VFMA (R183) -/
  | vVfma (x : RArgs)
  /-- V_VFMIN (R183) -/
  | vVfmin (x : RArgs)
  /-- V_VFMAX (R183) -/
  | vVfmax (x : RArgs)
  /-- V_VFCMP (R183) -/
  | vVfcmp (x : CmpArgs)
  /-- V_VRCP (R184) -/
  | vVrcp (x : UArgs)
  /-- V_VRSQ (R184) -/
  | vVrsq (x : UArgs)
  /-- V_VEXP2 (R184) -/
  | vVexp2 (x : UArgs)
  /-- V_VLOG2 (R184) -/
  | vVlog2 (x : UArgs)
  /-- V_VCVT (R185) -/
  | vVcvt (x : VcvtArgs)
  /-- V_VPACK (R186) -/
  | vVpack (x : RArgs)
  /-- V_VUNPK (R188) -/
  | vVunpk (x : VunpkArgs)
  /-- V_VSCALE (R189) -/
  | vVscale (x : RArgs)
  /-- V_VRED (R190) -/
  | vVred (x : VredArgs)
  /-- V_VSCAN (R191) -/
  | vVscan (x : VscanArgs)
  /-- V_VPERM (R192) -/
  | vVperm (x : RArgs)
  /-- V_VBCAST (R192) -/
  | vVbcast (x : IdxArgs)
  /-- V_VIOTA (R192) -/
  | vViota (x : ViotaArgs)
  /-- V_VEXT (R192) -/
  | vVext (x : IdxArgs)
  /-- V_VANY (R193) -/
  | vVany (x : VoteArgs)
  /-- V_VALL (R193) -/
  | vVall (x : VoteArgs)
  /-- V_VLD (R194) -/
  | vVld (x : UArgs)
  /-- V_VST (R194) -/
  | vVst (x : UArgs)
  /-- V_VLDX (R195) -/
  | vVldx (x : RArgs)
  /-- V_VSTX (R195) -/
  | vVstx (x : RArgs)
  /-- V_VAMO (R196) -/
  | vVamo (x : RArgs)
  /-- V_BLEND (R198) -/
  | vBlend (x : BlendArgs)
  /-- V_JT (R199) -/
  | vJt (x : JtArgs)
  /-- V_VADD_P1 (R180) -/
  | vVaddP1 (x : RArgs)
  /-- V_VSUB_P1 (R180) -/
  | vVsubP1 (x : RArgs)
  /-- V_VMUL_P1 (R180) -/
  | vVmulP1 (x : RArgs)
  /-- V_VMAD_P1 (R180) -/
  | vVmadP1 (x : RArgs)
  /-- V_VSHL_P1 (R180) -/
  | vVshlP1 (x : RArgs)
  /-- V_VSHR_P1 (R180) -/
  | vVshrP1 (x : RArgs)
  /-- V_VSAR_P1 (R180) -/
  | vVsarP1 (x : RArgs)
  /-- V_VMIN_P1 (R180) -/
  | vVminP1 (x : RArgs)
  /-- V_VMAX_P1 (R180) -/
  | vVmaxP1 (x : RArgs)
  /-- V_VABS_P1 (R181) -/
  | vVabsP1 (x : UArgs)
  /-- V_VCMP_P1 (R182) -/
  | vVcmpP1 (x : CmpArgs)
  /-- V_VSEL_P1 (R182) -/
  | vVselP1 (x : VselArgs)
  /-- V_VFADD_P1 (R183) -/
  | vVfaddP1 (x : RArgs)
  /-- V_VFSUB_P1 (R183) -/
  | vVfsubP1 (x : RArgs)
  /-- V_VFMUL_P1 (R183) -/
  | vVfmulP1 (x : RArgs)
  /-- V_VFMA_P1 (R183) -/
  | vVfmaP1 (x : RArgs)
  /-- V_VFMIN_P1 (R183) -/
  | vVfminP1 (x : RArgs)
  /-- V_VFMAX_P1 (R183) -/
  | vVfmaxP1 (x : RArgs)
  /-- V_VFCMP_P1 (R183) -/
  | vVfcmpP1 (x : CmpArgs)
  /-- V_VRCP_P1 (R184) -/
  | vVrcpP1 (x : UArgs)
  /-- V_VRSQ_P1 (R184) -/
  | vVrsqP1 (x : UArgs)
  /-- V_VEXP2_P1 (R184) -/
  | vVexp2P1 (x : UArgs)
  /-- V_VLOG2_P1 (R184) -/
  | vVlog2P1 (x : UArgs)
  /-- V_VUNPK_P1 (R188) -/
  | vVunpkP1 (x : VunpkArgs)
  /-- V_VRED_P1 (R190) -/
  | vVredP1 (x : VredArgs)
  /-- V_VSCAN_P1 (R191) -/
  | vVscanP1 (x : VscanArgs)
  /-- V_VPERM_P1 (R192) -/
  | vVpermP1 (x : RArgs)
  /-- V_VBCAST_P1 (R192) -/
  | vVbcastP1 (x : IdxArgs)
  /-- V_VIOTA_P1 (R192) -/
  | vViotaP1 (x : ViotaArgs)
  /-- V_VEXT_P1 (R192) -/
  | vVextP1 (x : IdxArgs)
  /-- V_VLD_P1 (R194) -/
  | vVldP1 (x : UArgs)
  /-- V_VST_P1 (R194) -/
  | vVstP1 (x : UArgs)
  /-- V_VLDX_P1 (R195) -/
  | vVldxP1 (x : RArgs)
  /-- V_VSTX_P1 (R195) -/
  | vVstxP1 (x : RArgs)
  /-- V_VAMO_P1 (R196) -/
  | vVamoP1 (x : RArgs)
  /-- V_VADD_W (R180) -/
  | vVaddW (x : RArgs) (e : VExt)
  /-- V_VSUB_W (R180) -/
  | vVsubW (x : RArgs) (e : VExt)
  /-- V_VMUL_W (R180) -/
  | vVmulW (x : RArgs) (e : VExt)
  /-- V_VMAD_W (R180) -/
  | vVmadW (x : RArgs) (e : VExt)
  /-- V_VAND_W (R180) -/
  | vVandW (x : RArgs) (e : VExt)
  /-- V_VOR_W (R180) -/
  | vVorW (x : RArgs) (e : VExt)
  /-- V_VXOR_W (R180) -/
  | vVxorW (x : RArgs) (e : VExt)
  /-- V_VSHL_W (R180) -/
  | vVshlW (x : RArgs) (e : VExt)
  /-- V_VSHR_W (R180) -/
  | vVshrW (x : RArgs) (e : VExt)
  /-- V_VSAR_W (R180) -/
  | vVsarW (x : RArgs) (e : VExt)
  /-- V_VMIN_W (R180) -/
  | vVminW (x : RArgs) (e : VExt)
  /-- V_VMAX_W (R180) -/
  | vVmaxW (x : RArgs) (e : VExt)
  /-- V_VABS_W (R181) -/
  | vVabsW (x : UArgs) (e : VExt)
  /-- V_VCMP_W (R182) -/
  | vVcmpW (x : CmpArgs) (e : VExt)
  /-- V_VSEL_W (R182) -/
  | vVselW (x : VselArgs) (e : VExt)
  /-- V_VFADD_W (R183) -/
  | vVfaddW (x : RArgs) (e : VExt)
  /-- V_VFSUB_W (R183) -/
  | vVfsubW (x : RArgs) (e : VExt)
  /-- V_VFMUL_W (R183) -/
  | vVfmulW (x : RArgs) (e : VExt)
  /-- V_VFMA_W (R183) -/
  | vVfmaW (x : RArgs) (e : VExt)
  /-- V_VFMIN_W (R183) -/
  | vVfminW (x : RArgs) (e : VExt)
  /-- V_VFMAX_W (R183) -/
  | vVfmaxW (x : RArgs) (e : VExt)
  /-- V_VFCMP_W (R183) -/
  | vVfcmpW (x : CmpArgs) (e : VExt)
  /-- V_VRCP_W (R184) -/
  | vVrcpW (x : UArgs) (e : VExt)
  /-- V_VRSQ_W (R184) -/
  | vVrsqW (x : UArgs) (e : VExt)
  /-- V_VEXP2_W (R184) -/
  | vVexp2W (x : UArgs) (e : VExt)
  /-- V_VLOG2_W (R184) -/
  | vVlog2W (x : UArgs) (e : VExt)
  /-- V_VCVT_W (R185) -/
  | vVcvtW (x : VcvtArgs) (e : VExt)
  /-- V_VPACK_W (R186) -/
  | vVpackW (x : RArgs) (e : VExt) (f : PackExt)
  /-- V_VUNPK_W (R188) -/
  | vVunpkW (x : VunpkArgs) (e : VExt) (f : UnpkExt)
  /-- V_VSCALE_W (R189) -/
  | vVscaleW (x : RArgs) (e : VExt)
  /-- V_VRED_W (R190) -/
  | vVredW (x : VredArgs) (e : VExt)
  /-- V_VSCAN_W (R191) -/
  | vVscanW (x : VscanArgs) (e : VExt)
  /-- V_VPERM_W (R192) -/
  | vVpermW (x : RArgs) (e : VExt)
  /-- V_VBCAST_W (R192) -/
  | vVbcastW (x : IdxArgs) (e : VExt)
  /-- V_VIOTA_W (R192) -/
  | vViotaW (x : ViotaArgs) (e : VExt)
  /-- V_VEXT_W (R192) -/
  | vVextW (x : IdxArgs) (e : VExt)
  /-- V_VLD_W (R194) -/
  | vVldW (x : UArgs) (e : VExt) (off : BitVec 16)
  /-- V_VST_W (R194) -/
  | vVstW (x : UArgs) (e : VExt) (off : BitVec 16)
  /-- V_VLDX_W (R195) -/
  | vVldxW (x : RArgs) (e : VExt) (off : BitVec 16)
  /-- V_VSTX_W (R195) -/
  | vVstxW (x : RArgs) (e : VExt) (off : BitVec 16)
  /-- V_VAMO_W (R196) -/
  | vVamoW (x : RArgs) (e : VExt) (op : AmoOp) (off : BitVec 12)
  /-- V_LOOP (R199) -/
  | vLoop (x : LoopArgs)
  /-- V_PTGT (R199) -/
  | vPtgt (x : PtgtLArgs)
  /-- M_MCLR (R212) -/
  | mMclr (x : MclrArgs)
  /-- M_MSTAT (R217) -/
  | mMstat (x : MstatArgs)
  /-- M_BRET (R218) -/
  | mBret (x : BretArgs)
  /-- M_MNORM_GROW (R213) -/
  | mMnormGrow (x : NormArgs)
  /-- M_MNORM_TIGHT (R213) -/
  | mMnormTight (x : NormArgs)
  /-- M_MRD (R214) -/
  | mMrd (x : MrdArgs)
  /-- M_MWR (R215) -/
  | mMwr (x : MrdArgs)
  /-- M_MEXP_GET (R216) -/
  | mMexpGet (x : MexpArgs)
  /-- M_MEXP_SET (R216) -/
  | mMexpSet (x : MexpArgs)
  /-- M_MMA (R211) -/
  | mMma (x : CArgs) (e : MmaExt)
  /-- M_MMAS (R209) -/
  | mMmas (x : CArgs) (e : MmaExt)
  /-- D_DCLR (R221) -/
  | dDclr (x : DclrArgs)
  /-- D_BRET (R218) -/
  | dBret (x : BretArgs)
  /-- D_DNORM_GROW (R222) -/
  | dDnormGrow (x : NormArgs)
  /-- D_DNORM_TIGHT (R222) -/
  | dDnormTight (x : NormArgs)
  /-- D_DRD (R222) -/
  | dDrd (x : DrdArgs)
  /-- D_DMV (R220) -/
  | dDmv (x : DmvArgs)
  /-- D_DQK (R220) -/
  | dDqk (x : DmvArgs)
  /-- D_DPV (R220) -/
  | dDpv (x : DmvArgs)
  /-- G_GCFG (R226) -/
  | gGcfg (x : GcfgArgs)
  /-- G_GLD (R228) -/
  | gGld (x : GldArgs)
  /-- G_GSC (R229) -/
  | gGsc (x : GldArgs)
  /-- REGISTER_WRITE (R5) -/
  | registerWrite (w : Window) (off : Nat) (val : Dword)
  /-- LQTAIL_WRITE (R266) -/
  | lqtailWrite (f : Fin 64) (n : Fin 8) (val : Dword)
  /-- LAUNCH_PACKET_READ (R271) -/
  | launchPacketRead (f : Fin 64) (n : Fin 8)
  /-- LAUNCH_ENTRY (R270) -/
  | launchEntry (t : Nat)
  /-- KLAUNCH_REMOTE_ENTRY (R270) -/
  | klaunchRemoteEntry (t : Nat) (die : Fin 8)
  /-- TRANSFER_RETIRE (R272) -/
  | transferRetire (t : Nat)
  /-- BLOCK_PLACE (R274) -/
  | blockPlace (die : Fin 8)
  /-- BLOCK_COMPLETE (R21) -/
  | blockComplete (u : Nat)
  /-- COMMAND_START (R144) -/
  | commandStart (u : Nat) (e : Eng)
  /-- COMMAND_COMPLETE (R34) -/
  | commandComplete (u : Nat) (e : Eng) (idx : Nat)
  /-- NEST_ISSUE (R166) -/
  | nestIssue (u : Nat)
  /-- LOOP_BACK_EDGE (R115) -/
  | loopBackEdge (u : Nat) (e : Eng)
  /-- TKWAIT_RETURN (R36) -/
  | tkwaitReturn (u : Nat)
  /-- TKWAIT_TIMEOUT (R120) -/
  | tkwaitTimeout (u : Nat)
  /-- MCAST_DELIVER (R163) -/
  | mcastDeliver (u : Nat) (idx : Nat) (m : Nat)
  /-- GBAR_COMPLETE (R124) -/
  | gbarComplete (t : Nat) (grp : Fin 256)
  /-- LEAVE_GRANT (R168) -/
  | leaveGrant (isl : Fin 32)
  /-- LDT_CUTOFF (R171) -/
  | ldtCutoff (u : Nat) (idx : Nat)
  /-- LDT_VECTOR_READY (R171) -/
  | ldtVectorReady (u : Nat) (idx : Nat)
  /-- MAINTENANCE_SLOT (R305) -/
  | maintenanceSlot (die : Fin 8) (slot : Nat)
  /-- REFRESH_DUE (R305) -/
  | refreshDue (die : Fin 8) (tract : Fin 4) (bank : Nat)
  /-- ACTIVATION_ALERT (R307) -/
  | activationAlert (die : Fin 8) (tract : Fin 4) (bank : Nat)
  /-- CA_PARITY_ERROR (R308) -/
  | caParityError (die : Fin 8) (tract : Fin 4) (ok : Bool)
  /-- LINK_READ_FAILURE (R235) -/
  | linkReadFailure (link : Fin 50) (u : Nat) (e : Eng) (idx : Nat)
  /-- SCRATCH_BANK_FAIL (R328) -/
  | scratchBankFail (die : Fin 8) (core : Nat) (bank : Nat)
  /-- BANK_REBUILD_DONE (R328) -/
  | bankRebuildDone (die : Fin 8) (core : Nat)
  /-- PORTER_GRANULE_MOVE (R253) -/
  | porterGranuleMove (cx : Nat) (i : Nat)
  /-- PHASE_SWITCH (R257) -/
  | phaseSwitch (cx : Nat)
  /-- GRANULE_LAND (R259) -/
  | granuleLand (cx : Nat) (i : Nat)
  /-- LATE_DATA_TIMEOUT (R259) -/
  | lateDataTimeout (u : Nat) (e : Eng)
  /-- PORTER_FAULT (R262) -/
  | porterFault (cx : Nat) (cause : Byte) (addr : Dword)
  /-- STRAND_STOP (R278) -/
  | strandStop (u : Nat) (e : Eng)
  /-- EVENT_RETRY (R285) -/
  | eventRetry (die : Fin 8)
  /-- EVHEAD_WRITE (R285) -/
  | evheadWrite (f : Fin 64) (val : Dword)
  /-- WATCHDOG_TRIP (R281) -/
  | watchdogTrip (u : Nat)
  /-- CTXCMD_STOP (R287) -/
  | ctxcmdStop (f : Fin 64) (k : Fin 16)
  /-- CTXCMD_RESUME (R288) -/
  | ctxcmdResume (f : Fin 64) (k : Fin 16)
  /-- CTXCMD_ABORT (R287) -/
  | ctxcmdAbort (f : Fin 64) (k : Fin 16)
  /-- CTXCMD_KILL (R287) -/
  | ctxcmdKill (f : Fin 64) (k : Fin 16)
  /-- KILL_ACCEPT (R256) -/
  | killAccept (f : Fin 64) (k : Fin 16)
  /-- CTXCFG_CREATE (R275) -/
  | ctxcfgCreate (f : Fin 64) (k : Fin 16) (val : Dword)
  /-- CTXCFG_DESTROY (R275) -/
  | ctxcfgDestroy (f : Fin 64) (k : Fin 16)
  /-- PREEMPT_DECISION (R289) -/
  | preemptDecision (die : Fin 8)
  /-- PREEMPT_RECHECK (R289) -/
  | preemptRecheck (die : Fin 8)
  /-- CHECKPOINT_SAVE (R293) -/
  | checkpointSave (u : Nat)
  /-- CHECKPOINT_TIMEOUT (R293) -/
  | checkpointTimeout (u : Nat)
  /-- FERRY_TRIGGER (R295) -/
  | ferryTrigger (u : Nat) (e : Eng)
  /-- FERRY_MOVE (R298) -/
  | ferryMove (u : Nat)
  /-- ATOMIC_RESPONSE_ERROR (R286) -/
  | atomicResponseError (u : Nat) (e : Eng)
  /-- SCOUT_RERUN (R140) -/
  | scoutRerun (u : Nat)
  /-- MAPCMD_GO (R301) -/
  | mapcmdGo (f : Fin 64) (k : Fin 16) (val : Dword)
  /-- MAP_COMMIT_DONE (R301) -/
  | mapCommitDone (f : Fin 64) (k : Fin 16)
  /-- TLBINV_GO (R304) -/
  | tlbinvGo (f : Fin 64) (val : Dword)
  /-- TLBINV_DONE (R304) -/
  | tlbinvDone (f : Fin 64)
  /-- SUMP_FILL (R312) -/
  | sumpFill (die : Fin 8)
  /-- SUMP_DEADLINE (R312) -/
  | sumpDeadline (die : Fin 8) (pos : Fin 16)
  /-- SUMPCMD_CONFIRM (R312) -/
  | sumpcmdConfirm (die : Fin 8) (pos : Fin 16)
  /-- SUMPCMD_VETO (R312) -/
  | sumpcmdVeto (die : Fin 8) (pos : Fin 16)
  /-- SUMPCMD_MOVE_HEAD (R312) -/
  | sumpcmdMoveHead (die : Fin 8) (pos : Fin 16)
  /-- SUMP_EXECUTE (R313) -/
  | sumpExecute (die : Fin 8)
  /-- DBGCTL_GO (R325) -/
  | dbgctlGo (f : Fin 64)
  /-- DBG_EXPIRY (R325) -/
  | dbgExpiry (p : Fin 32)
  /-- FENCECMD_CLEAR (R327) -/
  | fencecmdClear (val : Dword)
  /-- TELCLR (R330) -/
  | telclr (val : Dword)
  /-- PARTDIES_WRITE (R322) -/
  | partdiesWrite (p : Fin 32) (val : Dword)
  /-- QUAD_GRANT (R322) -/
  | quadGrant (die : Fin 8) (quad : Fin 4)
  /-- VFPART_WRITE (R324) -/
  | vfpartWrite (f : Fin 64) (val : Dword)
  /-- GET_VERSION (R323) -/
  | getVersion (h : Fin 2)
  /-- GET_CAPABILITIES (R323) -/
  | getCapabilities (h : Fin 2)
  /-- NEGOTIATE_ALGORITHMS (R323) -/
  | negotiateAlgorithms (h : Fin 2) (algs : SpdmAlgs)
  /-- GET_DIGESTS (R323) -/
  | getDigests (h : Fin 2)
  /-- GET_CERTIFICATE (R323) -/
  | getCertificate (h : Fin 2) (slot : Fin 8)
  /-- CHALLENGE (R323) -/
  | challenge (h : Fin 2) (slot : Fin 8)
  /-- GET_MEASUREMENTS (R323) -/
  | getMeasurements (h : Fin 2) (f : Fin 64) (index : Nat)
  /-- KEY_EXCHANGE (R323) -/
  | keyExchange (h : Fin 2) (slot : Fin 8)
  /-- FINISH (R323) -/
  | finish (h : Fin 2)
  /-- END_SESSION (R323) -/
  | endSession (h : Fin 2)
  /-- MODULE_RESET (R327) -/
  | moduleReset
  /-- ACCESS_RESPONSE (R104) -/
  | accessResponse (u : Nat) (e : Eng) (i : Nat)
  /-- EVCFG_WRITE (R284) -/
  | evcfgWrite (f : Fin 64) (val : Dword)
  /-- BAR_WRITE (R324) -/
  | barWrite (f : Fin 64)
  /-- TDI_CONFIG_LOCK (R324) -/
  | tdiConfigLock (f : Fin 64)
  /-- TDI_RUN (R324) -/
  | tdiRun (f : Fin 64)
  /-- ISLAND_GOVERNOR_SET (R329) -/
  | islandGovernorSet (isl : Fin 32) (mv : Nat)
deriving DecidableEq, Repr

/-- The engine whose strand executes an instruction word; none for events. -/
def Instr.eng : Instr → Option Eng
  | .cAdd _ => some .c
  | .cSub _ => some .c
  | .cMul _ => some .c
  | .cMulh _ => some .c
  | .cMulhu _ => some .c
  | .cDiv _ => some .c
  | .cDivu _ => some .c
  | .cRem _ => some .c
  | .cRemu _ => some .c
  | .cAnd _ => some .c
  | .cOr _ => some .c
  | .cXor _ => some .c
  | .cAndn _ => some .c
  | .cShl _ => some .c
  | .cShr _ => some .c
  | .cSar _ => some .c
  | .cRot _ => some .c
  | .cMin _ => some .c
  | .cMax _ => some .c
  | .cMinu _ => some .c
  | .cMaxu _ => some .c
  | .cSel _ => some .c
  | .cBfx _ => some .c
  | .cBfi _ => some .c
  | .cClz _ => some .c
  | .cCtz _ => some .c
  | .cPopc _ => some .c
  | .cSext _ => some .c
  | .cZext _ => some .c
  | .cMov _ => some .c
  | .cCmp _ => some .c
  | .cPand _ => some .c
  | .cPor _ => some .c
  | .cPnot _ => some .c
  | .cFadd _ => some .c
  | .cFsub _ => some .c
  | .cFmul _ => some .c
  | .cFma _ => some .c
  | .cFmin _ => some .c
  | .cFmax _ => some .c
  | .cFcvt _ => some .c
  | .cFcmp _ => some .c
  | .cPtgt _ => some .c
  | .cJt _ => some .c
  | .cJtl _ => some .c
  | .cFence _ => some .c
  | .cTkset _ => some .c
  | .cTkwait _ => some .c
  | .cTkclr _ => some .c
  | .cGset _ => some .c
  | .cGbar _ => some .c
  | .cCsrr _ => some .c
  | .cCsrw _ => some .c
  | .cRclaim _ => some .c
  | .cRpub _ => some .c
  | .cRwait _ => some .c
  | .cRfree _ => some .c
  | .cRrel _ => some .c
  | .cRpopn _ => some .c
  | .cTrap _ => some .c
  | .cHalt _ => some .c
  | .cNop _ => some .c
  | .cAddK _ => some .c
  | .cSubK _ => some .c
  | .cMulK _ => some .c
  | .cMulhK _ => some .c
  | .cMulhuK _ => some .c
  | .cDivK _ => some .c
  | .cDivuK _ => some .c
  | .cRemK _ => some .c
  | .cRemuK _ => some .c
  | .cAndK _ => some .c
  | .cOrK _ => some .c
  | .cXorK _ => some .c
  | .cAndnK _ => some .c
  | .cShlK _ => some .c
  | .cShrK _ => some .c
  | .cSarK _ => some .c
  | .cRotK _ => some .c
  | .cMinK _ => some .c
  | .cMaxK _ => some .c
  | .cMinuK _ => some .c
  | .cMaxuK _ => some .c
  | .cCmpK _ => some .c
  | .cLdB _ => some .c
  | .cLdH _ => some .c
  | .cLdW _ => some .c
  | .cLdD _ => some .c
  | .cStB _ => some .c
  | .cStH _ => some .c
  | .cStW _ => some .c
  | .cStD _ => some .c
  | .cKlaunch _ => some .c
  | .cKxfer _ => some .c
  | .cProg _ => some .c
  | .cPhadv _ => some .c
  | .cPhadvLate _ => some .c
  | .cPhset _ => some .c
  | .cPhwait _ => some .c
  | .cSgret _ => some .c
  | .cAccept _ => some .c
  | .cScommit _ => some .c
  | .cSclose _ => some .c
  | .cCtwr _ => some .c
  | .cCtswap _ => some .c
  | .cLi _ => some .c
  | .cPtgtLabel _ => some .c
  | .cLoop _ => some .c
  | .cAmo _ => some .c
  | .cScout _ => some .c
  | .cLdWide _ => some .c
  | .cStWide _ => some .c
  | .cTkwaitTimeout _ => some .c
  | .pfx e _ _ _ _ => some e
  | .pfxo e _ => some e
  | .aAdd _ => some .a
  | .aSub _ => some .a
  | .aMul _ => some .a
  | .aShl _ => some .a
  | .aShr _ => some .a
  | .aMov _ => some .a
  | .aCmp _ => some .a
  | .aJt _ => some .a
  | .aSbind _ => some .a
  | .aSset _ => some .a
  | .aNgo _ => some .a
  | .aNwait _ => some .a
  | .aNset _ => some .a
  | .aCopyMm _ => some .a
  | .aCopyMs _ => some .a
  | .aCopySm _ => some .a
  | .aCopyl _ => some .a
  | .aSdrain _ => some .a
  | .aScrub _ => some .a
  | .aLdt _ => some .a
  | .aAddK _ => some .a
  | .aSubK _ => some .a
  | .aMulK _ => some .a
  | .aShlK _ => some .a
  | .aShrK _ => some .a
  | .aCmpK _ => some .a
  | .aCopyMmLen _ => some .a
  | .aCopyMsLen _ => some .a
  | .aCopySmLen _ => some .a
  | .aLi _ => some .a
  | .aPtgt _ => some .a
  | .aLoop _ => some .a
  | .aCopyWide _ _ => some .a
  | .aCopyb _ _ => some .a
  | .aMcast _ _ => some .a
  | .aNsetWide _ => some .a
  | .aSsetImm _ => some .a
  | .vVadd _ => some .v
  | .vVsub _ => some .v
  | .vVmul _ => some .v
  | .vVmad _ => some .v
  | .vVand _ => some .v
  | .vVor _ => some .v
  | .vVxor _ => some .v
  | .vVshl _ => some .v
  | .vVshr _ => some .v
  | .vVsar _ => some .v
  | .vVmin _ => some .v
  | .vVmax _ => some .v
  | .vVabs _ => some .v
  | .vVcmp _ => some .v
  | .vVsel _ => some .v
  | .vVfadd _ => some .v
  | .vVfsub _ => some .v
  | .vVfmul _ => some .v
  | .vVfma _ => some .v
  | .vVfmin _ => some .v
  | .vVfmax _ => some .v
  | .vVfcmp _ => some .v
  | .vVrcp _ => some .v
  | .vVrsq _ => some .v
  | .vVexp2 _ => some .v
  | .vVlog2 _ => some .v
  | .vVcvt _ => some .v
  | .vVpack _ => some .v
  | .vVunpk _ => some .v
  | .vVscale _ => some .v
  | .vVred _ => some .v
  | .vVscan _ => some .v
  | .vVperm _ => some .v
  | .vVbcast _ => some .v
  | .vViota _ => some .v
  | .vVext _ => some .v
  | .vVany _ => some .v
  | .vVall _ => some .v
  | .vVld _ => some .v
  | .vVst _ => some .v
  | .vVldx _ => some .v
  | .vVstx _ => some .v
  | .vVamo _ => some .v
  | .vBlend _ => some .v
  | .vJt _ => some .v
  | .vVaddP1 _ => some .v
  | .vVsubP1 _ => some .v
  | .vVmulP1 _ => some .v
  | .vVmadP1 _ => some .v
  | .vVshlP1 _ => some .v
  | .vVshrP1 _ => some .v
  | .vVsarP1 _ => some .v
  | .vVminP1 _ => some .v
  | .vVmaxP1 _ => some .v
  | .vVabsP1 _ => some .v
  | .vVcmpP1 _ => some .v
  | .vVselP1 _ => some .v
  | .vVfaddP1 _ => some .v
  | .vVfsubP1 _ => some .v
  | .vVfmulP1 _ => some .v
  | .vVfmaP1 _ => some .v
  | .vVfminP1 _ => some .v
  | .vVfmaxP1 _ => some .v
  | .vVfcmpP1 _ => some .v
  | .vVrcpP1 _ => some .v
  | .vVrsqP1 _ => some .v
  | .vVexp2P1 _ => some .v
  | .vVlog2P1 _ => some .v
  | .vVunpkP1 _ => some .v
  | .vVredP1 _ => some .v
  | .vVscanP1 _ => some .v
  | .vVpermP1 _ => some .v
  | .vVbcastP1 _ => some .v
  | .vViotaP1 _ => some .v
  | .vVextP1 _ => some .v
  | .vVldP1 _ => some .v
  | .vVstP1 _ => some .v
  | .vVldxP1 _ => some .v
  | .vVstxP1 _ => some .v
  | .vVamoP1 _ => some .v
  | .vVaddW _ _ => some .v
  | .vVsubW _ _ => some .v
  | .vVmulW _ _ => some .v
  | .vVmadW _ _ => some .v
  | .vVandW _ _ => some .v
  | .vVorW _ _ => some .v
  | .vVxorW _ _ => some .v
  | .vVshlW _ _ => some .v
  | .vVshrW _ _ => some .v
  | .vVsarW _ _ => some .v
  | .vVminW _ _ => some .v
  | .vVmaxW _ _ => some .v
  | .vVabsW _ _ => some .v
  | .vVcmpW _ _ => some .v
  | .vVselW _ _ => some .v
  | .vVfaddW _ _ => some .v
  | .vVfsubW _ _ => some .v
  | .vVfmulW _ _ => some .v
  | .vVfmaW _ _ => some .v
  | .vVfminW _ _ => some .v
  | .vVfmaxW _ _ => some .v
  | .vVfcmpW _ _ => some .v
  | .vVrcpW _ _ => some .v
  | .vVrsqW _ _ => some .v
  | .vVexp2W _ _ => some .v
  | .vVlog2W _ _ => some .v
  | .vVcvtW _ _ => some .v
  | .vVpackW _ _ _ => some .v
  | .vVunpkW _ _ _ => some .v
  | .vVscaleW _ _ => some .v
  | .vVredW _ _ => some .v
  | .vVscanW _ _ => some .v
  | .vVpermW _ _ => some .v
  | .vVbcastW _ _ => some .v
  | .vViotaW _ _ => some .v
  | .vVextW _ _ => some .v
  | .vVldW _ _ _ => some .v
  | .vVstW _ _ _ => some .v
  | .vVldxW _ _ _ => some .v
  | .vVstxW _ _ _ => some .v
  | .vVamoW _ _ _ _ => some .v
  | .vLoop _ => some .v
  | .vPtgt _ => some .v
  | .mMclr _ => some .m
  | .mMstat _ => some .m
  | .mBret _ => some .m
  | .mMnormGrow _ => some .m
  | .mMnormTight _ => some .m
  | .mMrd _ => some .m
  | .mMwr _ => some .m
  | .mMexpGet _ => some .m
  | .mMexpSet _ => some .m
  | .mMma _ _ => some .m
  | .mMmas _ _ => some .m
  | .dDclr _ => some .d
  | .dBret _ => some .d
  | .dDnormGrow _ => some .d
  | .dDnormTight _ => some .d
  | .dDrd _ => some .d
  | .dDmv _ => some .d
  | .dDqk _ => some .d
  | .dDpv _ => some .d
  | .gGcfg _ => some .g
  | .gGld _ => some .g
  | .gGsc _ => some .g
  | .registerWrite _ _ _ => none
  | .lqtailWrite _ _ _ => none
  | .launchPacketRead _ _ => none
  | .launchEntry _ => none
  | .klaunchRemoteEntry _ _ => none
  | .transferRetire _ => none
  | .blockPlace _ => none
  | .blockComplete _ => none
  | .commandStart _ _ => none
  | .commandComplete _ _ _ => none
  | .nestIssue _ => none
  | .loopBackEdge _ _ => none
  | .tkwaitReturn _ => none
  | .tkwaitTimeout _ => none
  | .mcastDeliver _ _ _ => none
  | .gbarComplete _ _ => none
  | .leaveGrant _ => none
  | .ldtCutoff _ _ => none
  | .ldtVectorReady _ _ => none
  | .maintenanceSlot _ _ => none
  | .refreshDue _ _ _ => none
  | .activationAlert _ _ _ => none
  | .caParityError _ _ _ => none
  | .linkReadFailure _ _ _ _ => none
  | .scratchBankFail _ _ _ => none
  | .bankRebuildDone _ _ => none
  | .porterGranuleMove _ _ => none
  | .phaseSwitch _ => none
  | .granuleLand _ _ => none
  | .lateDataTimeout _ _ => none
  | .porterFault _ _ _ => none
  | .strandStop _ _ => none
  | .eventRetry _ => none
  | .evheadWrite _ _ => none
  | .watchdogTrip _ => none
  | .ctxcmdStop _ _ => none
  | .ctxcmdResume _ _ => none
  | .ctxcmdAbort _ _ => none
  | .ctxcmdKill _ _ => none
  | .killAccept _ _ => none
  | .ctxcfgCreate _ _ _ => none
  | .ctxcfgDestroy _ _ => none
  | .preemptDecision _ => none
  | .preemptRecheck _ => none
  | .checkpointSave _ => none
  | .checkpointTimeout _ => none
  | .ferryTrigger _ _ => none
  | .ferryMove _ => none
  | .atomicResponseError _ _ => none
  | .scoutRerun _ => none
  | .mapcmdGo _ _ _ => none
  | .mapCommitDone _ _ => none
  | .tlbinvGo _ _ => none
  | .tlbinvDone _ => none
  | .sumpFill _ => none
  | .sumpDeadline _ _ => none
  | .sumpcmdConfirm _ _ => none
  | .sumpcmdVeto _ _ => none
  | .sumpcmdMoveHead _ _ => none
  | .sumpExecute _ => none
  | .dbgctlGo _ => none
  | .dbgExpiry _ => none
  | .fencecmdClear _ => none
  | .telclr _ => none
  | .partdiesWrite _ _ => none
  | .quadGrant _ _ => none
  | .vfpartWrite _ _ => none
  | .getVersion _ => none
  | .getCapabilities _ => none
  | .negotiateAlgorithms _ _ => none
  | .getDigests _ => none
  | .getCertificate _ _ => none
  | .challenge _ _ => none
  | .getMeasurements _ _ _ => none
  | .keyExchange _ _ => none
  | .finish _ => none
  | .endSession _ => none
  | .moduleReset => none
  | .accessResponse _ _ _ => none
  | .evcfgWrite _ _ => none
  | .barWrite _ => none
  | .tdiConfigLock _ => none
  | .tdiRun _ => none
  | .islandGovernorSet _ _ => none

/-- How many words an instruction's encoding has, its prefix word not counted; 0 for events. -/
def Instr.words : Instr → Nat
  | .cAdd _ => 1
  | .cSub _ => 1
  | .cMul _ => 1
  | .cMulh _ => 1
  | .cMulhu _ => 1
  | .cDiv _ => 1
  | .cDivu _ => 1
  | .cRem _ => 1
  | .cRemu _ => 1
  | .cAnd _ => 1
  | .cOr _ => 1
  | .cXor _ => 1
  | .cAndn _ => 1
  | .cShl _ => 1
  | .cShr _ => 1
  | .cSar _ => 1
  | .cRot _ => 1
  | .cMin _ => 1
  | .cMax _ => 1
  | .cMinu _ => 1
  | .cMaxu _ => 1
  | .cSel _ => 1
  | .cBfx _ => 1
  | .cBfi _ => 1
  | .cClz _ => 1
  | .cCtz _ => 1
  | .cPopc _ => 1
  | .cSext _ => 1
  | .cZext _ => 1
  | .cMov _ => 1
  | .cCmp _ => 1
  | .cPand _ => 1
  | .cPor _ => 1
  | .cPnot _ => 1
  | .cFadd _ => 1
  | .cFsub _ => 1
  | .cFmul _ => 1
  | .cFma _ => 1
  | .cFmin _ => 1
  | .cFmax _ => 1
  | .cFcvt _ => 1
  | .cFcmp _ => 1
  | .cPtgt _ => 1
  | .cJt _ => 1
  | .cJtl _ => 1
  | .cFence _ => 1
  | .cTkset _ => 1
  | .cTkwait _ => 1
  | .cTkclr _ => 1
  | .cGset _ => 1
  | .cGbar _ => 1
  | .cCsrr _ => 1
  | .cCsrw _ => 1
  | .cRclaim _ => 1
  | .cRpub _ => 1
  | .cRwait _ => 1
  | .cRfree _ => 1
  | .cRrel _ => 1
  | .cRpopn _ => 1
  | .cTrap _ => 1
  | .cHalt _ => 1
  | .cNop _ => 1
  | .cAddK _ => 1
  | .cSubK _ => 1
  | .cMulK _ => 1
  | .cMulhK _ => 1
  | .cMulhuK _ => 1
  | .cDivK _ => 1
  | .cDivuK _ => 1
  | .cRemK _ => 1
  | .cRemuK _ => 1
  | .cAndK _ => 1
  | .cOrK _ => 1
  | .cXorK _ => 1
  | .cAndnK _ => 1
  | .cShlK _ => 1
  | .cShrK _ => 1
  | .cSarK _ => 1
  | .cRotK _ => 1
  | .cMinK _ => 1
  | .cMaxK _ => 1
  | .cMinuK _ => 1
  | .cMaxuK _ => 1
  | .cCmpK _ => 1
  | .cLdB _ => 1
  | .cLdH _ => 1
  | .cLdW _ => 1
  | .cLdD _ => 1
  | .cStB _ => 1
  | .cStH _ => 1
  | .cStW _ => 1
  | .cStD _ => 1
  | .cKlaunch _ => 1
  | .cKxfer _ => 1
  | .cProg _ => 1
  | .cPhadv _ => 1
  | .cPhadvLate _ => 1
  | .cPhset _ => 1
  | .cPhwait _ => 1
  | .cSgret _ => 1
  | .cAccept _ => 1
  | .cScommit _ => 1
  | .cSclose _ => 1
  | .cCtwr _ => 1
  | .cCtswap _ => 1
  | .cLi _ => 2
  | .cPtgtLabel _ => 2
  | .cLoop _ => 2
  | .cAmo _ => 2
  | .cScout _ => 2
  | .cLdWide _ => 2
  | .cStWide _ => 2
  | .cTkwaitTimeout _ => 2
  | .pfx _ _ _ _ _ => 1
  | .pfxo _ _ => 1
  | .aAdd _ => 1
  | .aSub _ => 1
  | .aMul _ => 1
  | .aShl _ => 1
  | .aShr _ => 1
  | .aMov _ => 1
  | .aCmp _ => 1
  | .aJt _ => 1
  | .aSbind _ => 1
  | .aSset _ => 1
  | .aNgo _ => 1
  | .aNwait _ => 1
  | .aNset _ => 1
  | .aCopyMm _ => 1
  | .aCopyMs _ => 1
  | .aCopySm _ => 1
  | .aCopyl _ => 1
  | .aSdrain _ => 1
  | .aScrub _ => 1
  | .aLdt _ => 1
  | .aAddK _ => 1
  | .aSubK _ => 1
  | .aMulK _ => 1
  | .aShlK _ => 1
  | .aShrK _ => 1
  | .aCmpK _ => 1
  | .aCopyMmLen _ => 1
  | .aCopyMsLen _ => 1
  | .aCopySmLen _ => 1
  | .aLi _ => 2
  | .aPtgt _ => 2
  | .aLoop _ => 2
  | .aCopyWide _ _ => 2
  | .aCopyb _ _ => 2
  | .aMcast _ _ => 2
  | .aNsetWide _ => 2
  | .aSsetImm _ => 2
  | .vVadd _ => 1
  | .vVsub _ => 1
  | .vVmul _ => 1
  | .vVmad _ => 1
  | .vVand _ => 1
  | .vVor _ => 1
  | .vVxor _ => 1
  | .vVshl _ => 1
  | .vVshr _ => 1
  | .vVsar _ => 1
  | .vVmin _ => 1
  | .vVmax _ => 1
  | .vVabs _ => 1
  | .vVcmp _ => 1
  | .vVsel _ => 1
  | .vVfadd _ => 1
  | .vVfsub _ => 1
  | .vVfmul _ => 1
  | .vVfma _ => 1
  | .vVfmin _ => 1
  | .vVfmax _ => 1
  | .vVfcmp _ => 1
  | .vVrcp _ => 1
  | .vVrsq _ => 1
  | .vVexp2 _ => 1
  | .vVlog2 _ => 1
  | .vVcvt _ => 1
  | .vVpack _ => 1
  | .vVunpk _ => 1
  | .vVscale _ => 1
  | .vVred _ => 1
  | .vVscan _ => 1
  | .vVperm _ => 1
  | .vVbcast _ => 1
  | .vViota _ => 1
  | .vVext _ => 1
  | .vVany _ => 1
  | .vVall _ => 1
  | .vVld _ => 1
  | .vVst _ => 1
  | .vVldx _ => 1
  | .vVstx _ => 1
  | .vVamo _ => 1
  | .vBlend _ => 1
  | .vJt _ => 1
  | .vVaddP1 _ => 1
  | .vVsubP1 _ => 1
  | .vVmulP1 _ => 1
  | .vVmadP1 _ => 1
  | .vVshlP1 _ => 1
  | .vVshrP1 _ => 1
  | .vVsarP1 _ => 1
  | .vVminP1 _ => 1
  | .vVmaxP1 _ => 1
  | .vVabsP1 _ => 1
  | .vVcmpP1 _ => 1
  | .vVselP1 _ => 1
  | .vVfaddP1 _ => 1
  | .vVfsubP1 _ => 1
  | .vVfmulP1 _ => 1
  | .vVfmaP1 _ => 1
  | .vVfminP1 _ => 1
  | .vVfmaxP1 _ => 1
  | .vVfcmpP1 _ => 1
  | .vVrcpP1 _ => 1
  | .vVrsqP1 _ => 1
  | .vVexp2P1 _ => 1
  | .vVlog2P1 _ => 1
  | .vVunpkP1 _ => 1
  | .vVredP1 _ => 1
  | .vVscanP1 _ => 1
  | .vVpermP1 _ => 1
  | .vVbcastP1 _ => 1
  | .vViotaP1 _ => 1
  | .vVextP1 _ => 1
  | .vVldP1 _ => 1
  | .vVstP1 _ => 1
  | .vVldxP1 _ => 1
  | .vVstxP1 _ => 1
  | .vVamoP1 _ => 1
  | .vVaddW _ _ => 2
  | .vVsubW _ _ => 2
  | .vVmulW _ _ => 2
  | .vVmadW _ _ => 2
  | .vVandW _ _ => 2
  | .vVorW _ _ => 2
  | .vVxorW _ _ => 2
  | .vVshlW _ _ => 2
  | .vVshrW _ _ => 2
  | .vVsarW _ _ => 2
  | .vVminW _ _ => 2
  | .vVmaxW _ _ => 2
  | .vVabsW _ _ => 2
  | .vVcmpW _ _ => 2
  | .vVselW _ _ => 2
  | .vVfaddW _ _ => 2
  | .vVfsubW _ _ => 2
  | .vVfmulW _ _ => 2
  | .vVfmaW _ _ => 2
  | .vVfminW _ _ => 2
  | .vVfmaxW _ _ => 2
  | .vVfcmpW _ _ => 2
  | .vVrcpW _ _ => 2
  | .vVrsqW _ _ => 2
  | .vVexp2W _ _ => 2
  | .vVlog2W _ _ => 2
  | .vVcvtW _ _ => 2
  | .vVpackW _ _ _ => 2
  | .vVunpkW _ _ _ => 2
  | .vVscaleW _ _ => 2
  | .vVredW _ _ => 2
  | .vVscanW _ _ => 2
  | .vVpermW _ _ => 2
  | .vVbcastW _ _ => 2
  | .vViotaW _ _ => 2
  | .vVextW _ _ => 2
  | .vVldW _ _ _ => 2
  | .vVstW _ _ _ => 2
  | .vVldxW _ _ _ => 2
  | .vVstxW _ _ _ => 2
  | .vVamoW _ _ _ _ => 2
  | .vLoop _ => 2
  | .vPtgt _ => 2
  | .mMclr _ => 1
  | .mMstat _ => 1
  | .mBret _ => 1
  | .mMnormGrow _ => 1
  | .mMnormTight _ => 1
  | .mMrd _ => 1
  | .mMwr _ => 1
  | .mMexpGet _ => 1
  | .mMexpSet _ => 1
  | .mMma _ _ => 2
  | .mMmas _ _ => 2
  | .dDclr _ => 1
  | .dBret _ => 1
  | .dDnormGrow _ => 1
  | .dDnormTight _ => 1
  | .dDrd _ => 1
  | .dDmv _ => 2
  | .dDqk _ => 2
  | .dDpv _ => 2
  | .gGcfg _ => 1
  | .gGld _ => 2
  | .gGsc _ => 2
  | .registerWrite _ _ _ => 0
  | .lqtailWrite _ _ _ => 0
  | .launchPacketRead _ _ => 0
  | .launchEntry _ => 0
  | .klaunchRemoteEntry _ _ => 0
  | .transferRetire _ => 0
  | .blockPlace _ => 0
  | .blockComplete _ => 0
  | .commandStart _ _ => 0
  | .commandComplete _ _ _ => 0
  | .nestIssue _ => 0
  | .loopBackEdge _ _ => 0
  | .tkwaitReturn _ => 0
  | .tkwaitTimeout _ => 0
  | .mcastDeliver _ _ _ => 0
  | .gbarComplete _ _ => 0
  | .leaveGrant _ => 0
  | .ldtCutoff _ _ => 0
  | .ldtVectorReady _ _ => 0
  | .maintenanceSlot _ _ => 0
  | .refreshDue _ _ _ => 0
  | .activationAlert _ _ _ => 0
  | .caParityError _ _ _ => 0
  | .linkReadFailure _ _ _ _ => 0
  | .scratchBankFail _ _ _ => 0
  | .bankRebuildDone _ _ => 0
  | .porterGranuleMove _ _ => 0
  | .phaseSwitch _ => 0
  | .granuleLand _ _ => 0
  | .lateDataTimeout _ _ => 0
  | .porterFault _ _ _ => 0
  | .strandStop _ _ => 0
  | .eventRetry _ => 0
  | .evheadWrite _ _ => 0
  | .watchdogTrip _ => 0
  | .ctxcmdStop _ _ => 0
  | .ctxcmdResume _ _ => 0
  | .ctxcmdAbort _ _ => 0
  | .ctxcmdKill _ _ => 0
  | .killAccept _ _ => 0
  | .ctxcfgCreate _ _ _ => 0
  | .ctxcfgDestroy _ _ => 0
  | .preemptDecision _ => 0
  | .preemptRecheck _ => 0
  | .checkpointSave _ => 0
  | .checkpointTimeout _ => 0
  | .ferryTrigger _ _ => 0
  | .ferryMove _ => 0
  | .atomicResponseError _ _ => 0
  | .scoutRerun _ => 0
  | .mapcmdGo _ _ _ => 0
  | .mapCommitDone _ _ => 0
  | .tlbinvGo _ _ => 0
  | .tlbinvDone _ => 0
  | .sumpFill _ => 0
  | .sumpDeadline _ _ => 0
  | .sumpcmdConfirm _ _ => 0
  | .sumpcmdVeto _ _ => 0
  | .sumpcmdMoveHead _ _ => 0
  | .sumpExecute _ => 0
  | .dbgctlGo _ => 0
  | .dbgExpiry _ => 0
  | .fencecmdClear _ => 0
  | .telclr _ => 0
  | .partdiesWrite _ _ => 0
  | .quadGrant _ _ => 0
  | .vfpartWrite _ _ => 0
  | .getVersion _ => 0
  | .getCapabilities _ => 0
  | .negotiateAlgorithms _ _ => 0
  | .getDigests _ => 0
  | .getCertificate _ _ => 0
  | .challenge _ _ => 0
  | .getMeasurements _ _ _ => 0
  | .keyExchange _ _ => 0
  | .finish _ => 0
  | .endSession _ => 0
  | .moduleReset => 0
  | .accessResponse _ _ _ => 0
  | .evcfgWrite _ _ => 0
  | .barWrite _ => 0
  | .tdiConfigLock _ => 0
  | .tdiRun _ => 0
  | .islandGovernorSet _ _ => 0

end Sys2Proof
end

