-- ==== Sys2Proof/WellFormed.lean ====
section
/-! DEFINITION. Well-formedness of instructions: the field values that R87, R97 and each instruction's own rule admit.
An instruction word that decodes to a term which is not well-formed raises trap 0x02. -/

namespace Sys2Proof

/-- N = 1 with P = 0 is reserved (R88). -/
def Pred.ok (p : Pred) : Bool := !(p.n && p.p == 0)

/-- The ports each engine accepts (R87). -/
def Port.ok (e : Eng) : Port → Bool
  | .g _ => e == .v || e == .d
  | .q _ => true
  | .vq _ => e == .v || e == .d || e == .g

/-- A register or port operand of engine `e`: a registers have 32 codes (R87). -/
def Opd.ok (e : Eng) : Opd → Bool
  | .reg n => e != .a || n.val < 32
  | .port p => p.ok e

def Opd.isPort : Opd → Bool
  | .reg _ => false
  | .port _ => true

/-- A scalar queue operand. -/
def Opd.isQ : Opd → Bool
  | .port (.q _) => true
  | _ => false

/-- A stream operand. -/
def Opd.isG : Opd → Bool
  | .port (.g _) => true
  | _ => false

/-- A 32-bit word names at most one port (R87). -/
def onePort (l : List Opd) : Bool := (l.filter Opd.isPort).length ≤ 1

/-- The patterns of ORD that R96 admits. -/
def Ord.ok (o : Ord) : Bool := (o.scope == .strand) == !(o.acq || o.rel)

/-- An ORD field that is all zero. -/
def Ord.none : Ord := { rel := false, acq := false, scope := .strand }

/-- Number of elements of a vector at a TYPE (R176). -/
def VTy.count : VTy → Nat
  | .t32 => 64
  | .t16 => 128
  | .tH => 128
  | .t8 => 256

/-- TYPE values of the integer class (R101, R176). -/
def VTy.int (t : VTy) : Bool := t != .tH

/-- TYPE values of the floating class. -/
def VTy.flt (t : VTy) : Bool := t != .t8

def CTy.isInt : CTy → Bool
  | .i32 => true
  | .i64 => true
  | _ => false

def VcTy.isInt : VcTy → Bool
  | .i32 => true
  | .i16 => true
  | .i8 => true
  | _ => false

def RedOp.isFloat : RedOp → Bool
  | .fadd => true
  | .fmin => true
  | .fmax => true
  | _ => false

/-- Relations 6 and 7 are barred in float comparisons (R112). -/
def Rel.fOk : Rel → Bool
  | .ltu => false
  | .geu => false
  | _ => true

def RCount.isQ : RCount → Bool
  | .q _ => true
  | .imm _ => false

/-- An immediate count of 0 is barred (R122). -/
def RCount.ok : RCount → Bool
  | .imm n => n.val != 0
  | .q _ => true

def RArgs.ok (e : Eng) (x : RArgs) : Bool :=
  x.pred.ok && x.d.ok e && x.a.ok e && x.b.ok e

/-- Narrow format R. -/
def RArgs.okN (e : Eng) (x : RArgs) : Bool := x.ok e && onePort [x.d, x.a, x.b]

def UArgs.ok (e : Eng) (x : UArgs) : Bool := x.pred.ok && x.d.ok e && x.a.ok e

def UArgs.okN (e : Eng) (x : UArgs) : Bool := x.ok e && onePort [x.d, x.a]

def KArgs.okN (e : Eng) (x : KArgs) : Bool :=
  x.pred.ok && x.d.ok e && x.a.ok e && onePort [x.d, x.a]

def CmpArgs.ok (e : Eng) (x : CmpArgs) : Bool := x.pred.ok && x.a.ok e && x.b.ok e

def CmpArgs.okN (e : Eng) (x : CmpArgs) : Bool := x.ok e && onePort [x.a, x.b]

def CmpKArgs.ok (e : Eng) (x : CmpKArgs) : Bool := x.pred.ok && x.a.ok e

/-- A stream register code is below 16 in a command field (R87). -/
def isStream (o : Fin 32) : Bool := o.val < 16

/-- SFMT's low half as `sset` with an immediate admits it (R148). -/
def sfmtLowOk (w : Word) : Bool :=
  w.toNat % 2 ^ 12 == 0 && w.toNat / 2 ^ 20 % 16 < 8 && w.toNat / 2 ^ 27 % 16 < 13

/-- EXT checks of the wide copy (R152). -/
def copyExtOk (x : CArgs) (e : CopyExt) : Bool :=
  let far := e.dom.val ≥ 16
  !(11 ≤ e.dom.val && e.dom.val < 16) && (!e.tr || (e.kind == 0 && !e.lk)) && (e.esz == 0 || e.tr)
    && (!e.lk || x.o3.val ≤ 24)
    && (e.kind != 1 || (isStream x.o1 && !(e.fd && far) && e.doff == 0))
    && (e.kind != 2 || (isStream x.o2 && !(!e.fd && far) && e.soff == 0))

/-- Destination formats of the wide `vpack` that the word alone can bar (R186): a DF of i32, fp32, o4, c4 or 13 to 15 also where DFV
is 0. -/
def packExtOk (d : Opd) (f : PackExt) : Bool :=
  if f.df == 2 || f.df == 3 || 11 ≤ f.df.val then false
  else if d.isG then !f.dfv && f.hq == 0
  else
    let fmt := if f.dfv then f.df.val else 4
    (fmt == 0 && f.hq.val ≤ 1) || (fmt == 1 && f.hq == 0) || (fmt == 4 && f.hq == 0) || (fmt == 5 && f.hq == 0)
      || (fmt == 6 && f.hq.val ≤ 1) || (fmt == 7 && f.hq.val ≤ 1) || fmt == 8

/-- Source formats of the wide `vunpk` that the word alone can bar (R188). An SF with SFV = 0 is accepted and ignored: R188 does not
say whether it is barred (DESIGN CHOICE, log 61). -/
def unpkExtOk (a : Opd) (ty : VTy) (f : UnpkExt) : Bool :=
  a.isG || !f.sfv || (f.sf.val ≤ 8 && (ty != .tH || f.sf.val ≥ 3))

/-- Types of the wide `vamo` (R196). -/
def vamoOk (op : AmoOp) (ty : VTy) : Bool :=
  match op with
  | .cas => false
  | .incw => false
  | .fadd => ty != .t8
  | .swap => true
  | _ => ty != .tH

/-- Types of the wide `vred` and `vscan` (R190). -/
def redOk (op : RedOp) (ty : VTy) : Bool := if op.isFloat then ty != .t8 else ty != .tH

/-- The value fields of a ring count and destination share one PS field (R122). -/
def rclaimOk (x : RclaimArgs) : Bool := x.pred.ok && x.d.ok .c && x.n.ok && !(x.n.isQ && x.d.isPort)


/-- Well-formed instructions (R97 item 5, and each instruction's own field limits). Events have no encoding. -/
def Instr.wf : Instr → Bool
  | .cAdd x => x.okN .c
  | .cSub x => x.okN .c
  | .cMul x => x.okN .c
  | .cMulh x => x.okN .c
  | .cMulhu x => x.okN .c
  | .cDiv x => x.okN .c
  | .cDivu x => x.okN .c
  | .cRem x => x.okN .c
  | .cRemu x => x.okN .c
  | .cAnd x => x.okN .c
  | .cOr x => x.okN .c
  | .cXor x => x.okN .c
  | .cAndn x => x.okN .c
  | .cShl x => x.okN .c
  | .cShr x => x.okN .c
  | .cSar x => x.okN .c
  | .cRot x => x.okN .c
  | .cMin x => x.okN .c
  | .cMax x => x.okN .c
  | .cMinu x => x.okN .c
  | .cMaxu x => x.okN .c
  | .cSel x => x.okN .c && !x.d.isPort
  | .cBfx x => x.okN .c
  | .cBfi x => x.okN .c && !x.d.isPort
  | .cClz x => x.okN .c
  | .cCtz x => x.okN .c
  | .cPopc x => x.okN .c
  | .cSext x => x.okN .c
  | .cZext x => x.okN .c
  | .cMov x => x.okN .c
  | .cCmp x => x.okN .c
  | .cPand x => x.pred.ok
  | .cPor x => x.pred.ok
  | .cPnot x => x.pred.ok
  | .cFadd x => x.okN .c
  | .cFsub x => x.okN .c
  | .cFmul x => x.okN .c
  | .cFma x => x.okN .c && !x.d.isPort
  | .cFmin x => x.okN .c
  | .cFmax x => x.okN .c
  | .cFcvt x => x.pred.ok && x.d.ok .c && x.a.ok .c && onePort [x.d, x.a] && !(x.src.isInt && x.dst.isInt)
  | .cFcmp x => x.okN .c && x.rel.fOk
  | .cPtgt x => x.pred.ok && x.a.ok .c
  | .cJt x => x.pred.ok
  | .cJtl x => x.pred.ok && x.d.ok .c
  | .cFence x => x.pred.ok && x.ord.ok
  | .cTkset x => x.pred.ok
  | .cTkwait x => x.pred.ok
  | .cTkclr x => x.pred.ok
  | .cGset x => x.pred.ok
  | .cGbar x => x.pred.ok && x.a.ok .c
  | .cCsrr x => x.pred.ok && x.d.ok .c
  | .cCsrw x => x.pred.ok && x.b.ok .c
  | .cRclaim x => rclaimOk x
  | .cRpub x => x.pred.ok && x.n.ok && x.ord.ok && !x.ord.acq
  | .cRwait x => x.pred.ok && x.n.ok && x.ord.ok && !x.ord.rel
  | .cRfree x => x.pred.ok && x.n.ok
  | .cRrel x => x.pred.ok && x.n.ok
  | .cRpopn x => x.okN .c && !x.d.isPort
  | .cTrap x => x.pred.ok && x.a.ok .c
  | .cHalt x => x.pred.ok
  | .cNop x => x.pred.ok
  | .cAddK x => x.okN .c
  | .cSubK x => x.okN .c
  | .cMulK x => x.okN .c
  | .cMulhK x => x.okN .c
  | .cMulhuK x => x.okN .c
  | .cDivK x => x.okN .c
  | .cDivuK x => x.okN .c
  | .cRemK x => x.okN .c
  | .cRemuK x => x.okN .c
  | .cAndK x => x.okN .c
  | .cOrK x => x.okN .c
  | .cXorK x => x.okN .c
  | .cAndnK x => x.okN .c
  | .cShlK x => x.okN .c
  | .cShrK x => x.okN .c
  | .cSarK x => x.okN .c
  | .cRotK x => x.okN .c
  | .cMinK x => x.okN .c
  | .cMaxK x => x.okN .c
  | .cMinuK x => x.okN .c
  | .cMaxuK x => x.okN .c
  | .cCmpK x => x.ok .c
  | .cLdB x => x.pred.ok && x.d.ok .c
  | .cLdH x => x.pred.ok && x.d.ok .c
  | .cLdW x => x.pred.ok && x.d.ok .c
  | .cLdD x => x.pred.ok && x.d.ok .c
  | .cStB x => x.pred.ok && x.d.ok .c
  | .cStH x => x.pred.ok && x.d.ok .c
  | .cStW x => x.pred.ok && x.d.ok .c
  | .cStD x => x.pred.ok && x.d.ok .c
  | .cKlaunch x => x.okN .c
  | .cKxfer x => x.okN .c
  | .cProg x => x.pred.ok && x.a.ok .c
  | .cPhadv x => x.pred.ok
  | .cPhadvLate x => x.pred.ok
  | .cPhset x => x.pred.ok && x.a.ok .c
  | .cPhwait x => x.pred.ok
  | .cSgret x => x.pred.ok
  | .cAccept x => x.pred.ok && x.d.ok .c
  | .cScommit x => x.pred.ok
  | .cSclose x => x.pred.ok
  | .cCtwr x => x.pred.ok && x.a.ok .c
  | .cCtswap x => x.pred.ok
  | .cLi x => x.pred.ok && x.d.ok .c
  | .cPtgtLabel x => x.pred.ok
  | .cLoop x => x.pred.ok && x.a.ok .c
  | .cAmo x => x.pred.ok && x.ord.ok && !(x.w64 && x.op == .fadd)
  | .cScout x => x.pred.ok && x.a.ok .c
  | .cLdWide x => x.pred.ok && x.d.ok .c
  | .cStWide x => x.pred.ok && x.d.ok .c
  | .cTkwaitTimeout x => x.pred.ok
  | .pfx _ rmv rm sat ftz => (rmv || sat || ftz) && (rmv || rm == .rne)
  | .pfxo _ ord => ord.ok && (ord.acq || ord.rel)
  | .aAdd x => x.okN .a
  | .aSub x => x.okN .a
  | .aMul x => x.okN .a
  | .aShl x => x.okN .a
  | .aShr x => x.okN .a
  | .aMov x => x.okN .a
  | .aCmp x => x.okN .a
  | .aJt x => x.pred.ok
  | .aSbind x => x.pred.ok && x.a.ok .a
  | .aSset x => x.pred.ok && x.a.ok .a
  | .aNgo x => x.pred.ok
  | .aNwait x => x.pred.ok
  | .aNset x => x.pred.ok
  | .aCopyMm x => x.pred.ok
  | .aCopyMs x => x.pred.ok && isStream x.o1
  | .aCopySm x => x.pred.ok && isStream x.o2
  | .aCopyl x => x.pred.ok
  | .aSdrain x => x.pred.ok && isStream x.o1 && x.o3 == 0
  | .aScrub x => x.pred.ok
  | .aLdt x => x.pred.ok && isStream x.o1
  | .aAddK x => x.okN .a
  | .aSubK x => x.okN .a
  | .aMulK x => x.okN .a
  | .aShlK x => x.okN .a
  | .aShrK x => x.okN .a
  | .aCmpK x => x.ok .a
  | .aCopyMmLen x => x.pred.ok && x.o3.val ≤ 24
  | .aCopyMsLen x => x.pred.ok && x.o3.val ≤ 24 && isStream x.o1
  | .aCopySmLen x => x.pred.ok && x.o3.val ≤ 24 && isStream x.o2
  | .aLi x => x.pred.ok && x.d.ok .a
  | .aPtgt x => x.pred.ok
  | .aLoop x => x.pred.ok && x.a.ok .a
  | .aCopyWide x e => x.pred.ok && copyExtOk x e
  | .aCopyb x e => x.pred.ok && (!e.add || e.scatter)
  | .aMcast x e => x.pred.ok && e.n != 0 && e.sbc != 0 && (e.ac || x.o3 == 0)
  | .aNsetWide x => x.pred.ok
  | .aSsetImm x => x.pred.ok && sfmtLowOk x.imm
  | .vVadd x => x.okN .v && !x.d.isQ
  | .vVsub x => x.okN .v && !x.d.isQ
  | .vVmul x => x.okN .v && !x.d.isQ
  | .vVmad x => x.okN .v && !x.d.isPort
  | .vVand x => x.okN .v && !x.d.isQ
  | .vVor x => x.okN .v && !x.d.isQ
  | .vVxor x => x.okN .v && !x.d.isQ
  | .vVshl x => x.okN .v && !x.d.isQ
  | .vVshr x => x.okN .v && !x.d.isQ
  | .vVsar x => x.okN .v && !x.d.isQ
  | .vVmin x => x.okN .v && !x.d.isQ
  | .vVmax x => x.okN .v && !x.d.isQ
  | .vVabs x => x.okN .v && !x.d.isQ
  | .vVcmp x => x.okN .v
  | .vVsel x => x.pred.ok && x.d.ok .v && x.a.ok .v && !x.d.isPort
  | .vVfadd x => x.okN .v && !x.d.isQ
  | .vVfsub x => x.okN .v && !x.d.isQ
  | .vVfmul x => x.okN .v && !x.d.isQ
  | .vVfma x => x.okN .v && !x.d.isPort
  | .vVfmin x => x.okN .v && !x.d.isQ
  | .vVfmax x => x.okN .v && !x.d.isQ
  | .vVfcmp x => x.okN .v && x.rel.fOk
  | .vVrcp x => x.okN .v && !x.d.isQ
  | .vVrsq x => x.okN .v && !x.d.isQ
  | .vVexp2 x => x.okN .v && !x.d.isQ
  | .vVlog2 x => x.okN .v && !x.d.isQ
  | .vVcvt x => x.pred.ok && x.d.ok .v && x.a.ok .v && onePort [x.d, x.a] && !x.d.isQ
  | .vVpack x => x.okN .v && !x.d.isQ
  | .vVunpk x => x.pred.ok && x.d.ok .v && x.a.ok .v && onePort [x.d, x.a] && !x.a.isQ && (!x.keep || x.a.isG) && !x.d.isQ
  | .vVscale x => x.okN .v && !x.d.isQ
  | .vVred x => x.pred.ok && x.d.ok .v && x.a.ok .v && onePort [x.d, x.a]
  | .vVscan x => x.pred.ok && x.d.ok .v && x.a.ok .v && onePort [x.d, x.a] && !x.d.isQ
  | .vVperm x => x.okN .v && !x.d.isQ
  | .vVbcast x => x.pred.ok && x.d.ok .v && x.a.ok .v && onePort [x.d, x.a] && !x.d.isQ && x.idx.val < 64
  | .vViota x => x.pred.ok && x.d.ok .v && !x.d.isQ
  | .vVext x => x.pred.ok && x.d.ok .v && x.a.ok .v && onePort [x.d, x.a] && x.d.isQ && x.idx.val < 64
  | .vVany x => x.pred.ok
  | .vVall x => x.pred.ok
  | .vVld x => x.okN .v && !x.d.isQ && !x.a.isG
  | .vVst x => x.okN .v && !x.a.isG
  | .vVldx x => x.okN .v && !x.d.isQ && !x.a.isG
  | .vVstx x => x.okN .v && !x.a.isG
  | .vVamo x => x.okN .v && !x.d.isQ && !x.a.isG
  | .vBlend x => x.pred.ok && x.bank != 0
  | .vJt x => x.pred.ok
  | .vVaddP1 x => x.okN .v && !x.d.isQ
  | .vVsubP1 x => x.okN .v && !x.d.isQ
  | .vVmulP1 x => x.okN .v && !x.d.isQ
  | .vVmadP1 x => x.okN .v && !x.d.isPort
  | .vVshlP1 x => x.okN .v && !x.d.isQ
  | .vVshrP1 x => x.okN .v && !x.d.isQ
  | .vVsarP1 x => x.okN .v && !x.d.isQ
  | .vVminP1 x => x.okN .v && !x.d.isQ
  | .vVmaxP1 x => x.okN .v && !x.d.isQ
  | .vVabsP1 x => x.okN .v && !x.d.isQ
  | .vVcmpP1 x => x.okN .v
  | .vVselP1 x => x.pred.ok && x.d.ok .v && x.a.ok .v && !x.d.isPort
  | .vVfaddP1 x => x.okN .v && !x.d.isQ
  | .vVfsubP1 x => x.okN .v && !x.d.isQ
  | .vVfmulP1 x => x.okN .v && !x.d.isQ
  | .vVfmaP1 x => x.okN .v && !x.d.isPort
  | .vVfminP1 x => x.okN .v && !x.d.isQ
  | .vVfmaxP1 x => x.okN .v && !x.d.isQ
  | .vVfcmpP1 x => x.okN .v && x.rel.fOk
  | .vVrcpP1 x => x.okN .v && !x.d.isQ
  | .vVrsqP1 x => x.okN .v && !x.d.isQ
  | .vVexp2P1 x => x.okN .v && !x.d.isQ
  | .vVlog2P1 x => x.okN .v && !x.d.isQ
  | .vVunpkP1 x => x.pred.ok && x.d.ok .v && x.a.ok .v && onePort [x.d, x.a] && !x.a.isQ && (!x.keep || x.a.isG) && !x.d.isQ
  | .vVredP1 x => x.pred.ok && x.d.ok .v && x.a.ok .v && onePort [x.d, x.a]
  | .vVscanP1 x => x.pred.ok && x.d.ok .v && x.a.ok .v && onePort [x.d, x.a] && !x.d.isQ
  | .vVpermP1 x => x.okN .v && !x.d.isQ
  | .vVbcastP1 x => x.pred.ok && x.d.ok .v && x.a.ok .v && onePort [x.d, x.a] && !x.d.isQ && x.idx.val < 64
  | .vViotaP1 x => x.pred.ok && x.d.ok .v && !x.d.isQ
  | .vVextP1 x => x.pred.ok && x.d.ok .v && x.a.ok .v && onePort [x.d, x.a] && x.d.isQ && x.idx.val < 64
  | .vVldP1 x => x.okN .v && !x.d.isQ && !x.a.isG
  | .vVstP1 x => x.okN .v && !x.a.isG
  | .vVldxP1 x => x.okN .v && !x.d.isQ && !x.a.isG
  | .vVstxP1 x => x.okN .v && !x.a.isG
  | .vVamoP1 x => x.okN .v && !x.d.isQ && !x.a.isG
  | .vVaddW x e => x.ok .v && !x.d.isQ && e.ty.int
  | .vVsubW x e => x.ok .v && !x.d.isQ && e.ty.int
  | .vVmulW x e => x.ok .v && !x.d.isQ && e.ty.int
  | .vVmadW x e => x.ok .v && !x.d.isPort && e.ty.int
  | .vVandW x e => x.ok .v && !x.d.isQ && e.ty == .t32
  | .vVorW x e => x.ok .v && !x.d.isQ && e.ty == .t32
  | .vVxorW x e => x.ok .v && !x.d.isQ && e.ty == .t32
  | .vVshlW x e => x.ok .v && !x.d.isQ && e.ty.int
  | .vVshrW x e => x.ok .v && !x.d.isQ && e.ty.int
  | .vVsarW x e => x.ok .v && !x.d.isQ && e.ty.int
  | .vVminW x e => x.ok .v && !x.d.isQ && e.ty.int
  | .vVmaxW x e => x.ok .v && !x.d.isQ && e.ty.int
  | .vVabsW x e => x.ok .v && !x.d.isQ && e.ty.int
  | .vVcmpW x e => x.ok .v && e.ty.int
  | .vVselW x _ => x.pred.ok && x.d.ok .v && x.a.ok .v && !x.d.isPort
  | .vVfaddW x e => x.ok .v && !x.d.isQ && e.ty.flt
  | .vVfsubW x e => x.ok .v && !x.d.isQ && e.ty.flt
  | .vVfmulW x e => x.ok .v && !x.d.isQ && e.ty.flt
  | .vVfmaW x e => x.ok .v && !x.d.isPort && e.ty.flt
  | .vVfminW x e => x.ok .v && !x.d.isQ && e.ty.flt
  | .vVfmaxW x e => x.ok .v && !x.d.isQ && e.ty.flt
  | .vVfcmpW x e => x.ok .v && x.rel.fOk && e.ty.flt
  | .vVrcpW x e => x.ok .v && !x.d.isQ && e.ty.flt
  | .vVrsqW x e => x.ok .v && !x.d.isQ && e.ty.flt
  | .vVexp2W x e => x.ok .v && !x.d.isQ && e.ty.flt
  | .vVlog2W x e => x.ok .v && !x.d.isQ && e.ty.flt
  | .vVcvtW x e => x.pred.ok && x.d.ok .v && x.a.ok .v && !x.d.isQ && e.ty == .t32
  | .vVpackW x e f => x.ok .v && !x.d.isQ && e.ty == .t32 && packExtOk x.d f
  | .vVunpkW x e f => x.pred.ok && x.d.ok .v && x.a.ok .v && !x.a.isQ && (!x.keep || x.a.isG) && !x.d.isQ && e.ty.flt && unpkExtOk x.a e.ty f
  | .vVscaleW x e => x.ok .v && !x.d.isQ && e.ty.flt
  | .vVredW x e => x.pred.ok && x.d.ok .v && x.a.ok .v && redOk x.op e.ty
  | .vVscanW x e => x.pred.ok && x.d.ok .v && x.a.ok .v && !x.d.isQ && redOk x.op e.ty
  | .vVpermW x _ => x.ok .v && !x.d.isQ
  | .vVbcastW x e => x.pred.ok && x.d.ok .v && x.a.ok .v && !x.d.isQ && x.idx.val < e.ty.count
  | .vViotaW x e => x.pred.ok && x.d.ok .v && !x.d.isQ && e.ty.int
  | .vVextW x e => x.pred.ok && x.d.ok .v && x.a.ok .v && x.d.isQ && x.idx.val < e.ty.count
  | .vVldW x _ _ => x.ok .v && !x.d.isQ && !x.a.isG
  | .vVstW x _ _ => x.ok .v && !x.a.isG
  | .vVldxW x e _ => x.ok .v && !x.d.isQ && !x.a.isG && e.ty != .t8
  | .vVstxW x e _ => x.ok .v && !x.a.isG && e.ty != .t8
  | .vVamoW x e op _ => x.ok .v && !x.d.isQ && !x.a.isG && vamoOk op e.ty
  | .vLoop x => x.pred.ok && x.a.ok .v && !x.a.isG
  | .vPtgt x => x.pred.ok
  | .mMclr x => x.pred.ok
  | .mMstat x => x.pred.ok
  | .mBret x => x.pred.ok && x.bank != 0
  | .mMnormGrow x => x.pred.ok
  | .mMnormTight x => x.pred.ok
  | .mMrd x => x.pred.ok
  | .mMwr x => x.pred.ok
  | .mMexpGet x => x.pred.ok && x.bank != 0
  | .mMexpSet x => x.pred.ok && x.bank != 0
  | .mMma x e => x.pred.ok && x.o1 != x.o2 && (e.cta == 0 || e.fa == 12) && (e.ctb == 0 || e.fb == 12)
  | .mMmas x e => x.pred.ok && x.o1 != x.o2 && (e.cta == 0 || e.fa == 12) && (e.ctb == 0 || e.fb == 12)
  | .dDclr x => x.pred.ok
  | .dBret x => x.pred.ok && x.bank != 0
  | .dDnormGrow x => x.pred.ok && x.tile.val < 2
  | .dDnormTight x => x.pred.ok && x.tile.val < 2
  | .dDrd x => x.pred.ok
  | .dDmv x => x.pred.ok && x.bank != 0
  | .dDqk x => x.pred.ok && x.bank != 0
  | .dDpv x => x.pred.ok && !x.rf && x.bank != 0
  | .gGcfg x => x.pred.ok
  | .gGld x => x.pred.ok
  | .gGsc x => x.pred.ok
  | .registerWrite _ _ _ => true
  | .lqtailWrite _ _ _ => true
  | .launchPacketRead _ _ => true
  | .launchEntry _ => true
  | .klaunchRemoteEntry _ _ => true
  | .transferRetire _ => true
  | .blockPlace _ => true
  | .blockComplete _ => true
  | .commandStart _ _ => true
  | .commandComplete _ _ _ => true
  | .nestIssue _ => true
  | .loopBackEdge _ _ => true
  | .tkwaitReturn _ => true
  | .tkwaitTimeout _ => true
  | .mcastDeliver _ _ _ => true
  | .gbarComplete _ _ => true
  | .leaveGrant _ => true
  | .ldtCutoff _ _ => true
  | .ldtVectorReady _ _ => true
  | .maintenanceSlot _ _ => true
  | .refreshDue _ _ _ => true
  | .activationAlert _ _ _ => true
  | .caParityError _ _ _ => true
  | .linkReadFailure _ _ _ _ => true
  | .scratchBankFail _ _ _ => true
  | .bankRebuildDone _ _ => true
  | .porterGranuleMove _ _ => true
  | .phaseSwitch _ => true
  | .granuleLand _ _ => true
  | .lateDataTimeout _ _ => true
  | .porterFault _ _ _ => true
  | .strandStop _ _ => true
  | .eventRetry _ => true
  | .evheadWrite _ _ => true
  | .watchdogTrip _ => true
  | .ctxcmdStop _ _ => true
  | .ctxcmdResume _ _ => true
  | .ctxcmdAbort _ _ => true
  | .ctxcmdKill _ _ => true
  | .killAccept _ _ => true
  | .ctxcfgCreate _ _ _ => true
  | .ctxcfgDestroy _ _ => true
  | .preemptDecision _ => true
  | .preemptRecheck _ => true
  | .checkpointSave _ => true
  | .checkpointTimeout _ => true
  | .ferryTrigger _ _ => true
  | .ferryMove _ => true
  | .atomicResponseError _ _ => true
  | .scoutRerun _ => true
  | .mapcmdGo _ _ _ => true
  | .mapCommitDone _ _ => true
  | .tlbinvGo _ _ => true
  | .tlbinvDone _ => true
  | .sumpFill _ => true
  | .sumpDeadline _ _ => true
  | .sumpcmdConfirm _ _ => true
  | .sumpcmdVeto _ _ => true
  | .sumpcmdMoveHead _ _ => true
  | .sumpExecute _ => true
  | .dbgctlGo _ => true
  | .dbgExpiry _ => true
  | .fencecmdClear _ => true
  | .telclr _ => true
  | .partdiesWrite _ _ => true
  | .quadGrant _ _ => true
  | .vfpartWrite _ _ => true
  | .getVersion _ => true
  | .getCapabilities _ => true
  | .negotiateAlgorithms _ _ => true
  | .getDigests _ => true
  | .getCertificate _ _ => true
  | .challenge _ _ => true
  | .getMeasurements _ _ _ => true
  | .keyExchange _ _ => true
  | .finish _ => true
  | .endSession _ => true
  | .moduleReset => true
  | .accessResponse _ _ _ => true
  | .evcfgWrite _ _ => true
  | .barWrite _ => true
  | .tdiConfigLock _ => true
  | .tdiRun _ => true
  | .islandGovernorSet _ _ => true

end Sys2Proof
end

