-- ==== Sys2Proof/Decode.lean ====
section
/-! DEFINITION. Decoding and encoding of instruction words (R84 to R102), prefix words and their acceptance (R92,
R93), and the encoder written from the same tables. Decoding is total: a word is an instruction, a reserved major
(`illegal`, trap 0x01) or a reserved field (`reserved`, trap 0x02). -/

namespace Sys2Proof

/-- What one decoding step answers (R97 items 4 and 5). -/
inductive DecRes
  | ok (i : Instr)
  | illegal
  | reserved
deriving DecidableEq, Repr

/-! The 32-bit formats (R86). -/

/-- Format R; formats K and I are readings of its fields. `l` is the length selector. -/
structure FR where
  ps : Fin 4
  b : Fin 64
  a : Fin 64
  d : Fin 64
  pred : Pred
  op : Fin 64
  l : Fin 4
deriving DecidableEq, Repr

/-- Format C. -/
structure FC where
  attr : Fin 32
  o1 : Fin 32
  o2 : Fin 32
  o3 : Fin 32
  pred : Pred
  op : Fin 64
  l : Fin 4
deriving DecidableEq, Repr

/-- Format S. -/
structure FS where
  imm : BitVec 10
  x : Fin 32
  y : Fin 32
  pred : Pred
  op : Fin 64
  l : Fin 4
deriving DecidableEq, Repr

def predOfWord (w : Word) : Pred := { n := bitAt w 11, p := fld 8 w 8 }

def FR.ofWord (w : Word) : FR :=
  { ps := fld 4 w 30, b := fld 64 w 24, a := fld 64 w 18, d := fld 64 w 12, pred := predOfWord w, op := fld 64 w 2,
    l := fld 4 w 0 }

def FC.ofWord (w : Word) : FC :=
  { attr := fld 32 w 27, o1 := fld 32 w 22, o2 := fld 32 w 17, o3 := fld 32 w 12, pred := predOfWord w,
    op := fld 64 w 2, l := fld 4 w 0 }

def FS.ofWord (w : Word) : FS :=
  { imm := BitVec.ofNat 10 (w.toNat / 2 ^ 22), x := fld 32 w 17, y := fld 32 w 12, pred := predOfWord w,
    op := fld 64 w 2, l := fld 4 w 0 }

/-- The bits [11:0] that all formats share. -/
def lowBits (l : Fin 4) (op : Fin 64) (p : Pred) : Nat := l.val + op.val * 2 ^ 2 + p.p.val * 2 ^ 8 + digit p.n * 2 ^ 11

def FR.toWord (f : FR) : Word :=
  BitVec.ofNat 32 (lowBits f.l f.op f.pred + f.d.val * 2 ^ 12 + f.a.val * 2 ^ 18 + f.b.val * 2 ^ 24 + f.ps.val * 2 ^ 30)

def FC.toWord (f : FC) : Word :=
  BitVec.ofNat 32 (lowBits f.l f.op f.pred + f.o3.val * 2 ^ 12 + f.o2.val * 2 ^ 17 + f.o1.val * 2 ^ 22 + f.attr.val * 2 ^ 27)

def FS.toWord (f : FS) : Word :=
  BitVec.ofNat 32 (lowBits f.l f.op f.pred + f.y.val * 2 ^ 12 + f.x.val * 2 ^ 17 + f.imm.toNat * 2 ^ 22)

/-! Codes of the field values. -/

def Rel.code : Rel → Nat
  | .eq => 0
  | .ne => 1
  | .lt => 2
  | .ge => 3
  | .gt => 4
  | .le => 5
  | .ltu => 6
  | .geu => 7

def Rel.ofCode : Nat → Option Rel
  | 0 => some .eq
  | 1 => some .ne
  | 2 => some .lt
  | 3 => some .ge
  | 4 => some .gt
  | 5 => some .le
  | 6 => some .ltu
  | 7 => some .geu
  | _ => none

def Rm.code : Rm → Nat
  | .rne => 0
  | .rtz => 1
  | .rdn => 2
  | .rup => 3
  | .rna => 4
  | .rsto => 5

def Rm.ofCode : Nat → Option Rm
  | 0 => some .rne
  | 1 => some .rtz
  | 2 => some .rdn
  | 3 => some .rup
  | 4 => some .rna
  | 5 => some .rsto
  | _ => none

def Scope.code : Scope → Nat
  | .strand => 0
  | .blk => 1
  | .grp => 2
  | .die => 3
  | .pkg => 4
  | .sys => 5

def Scope.ofCode : Nat → Option Scope
  | 0 => some .strand
  | 1 => some .blk
  | 2 => some .grp
  | 3 => some .die
  | 4 => some .pkg
  | 5 => some .sys
  | _ => none

def CTy.code : CTy → Nat
  | .fp32 => 0
  | .bf16 => 1
  | .fp16 => 2
  | .i32 => 3
  | .i64 => 4
  | .e4m3 => 5
  | .e5m2 => 6

def CTy.ofCode : Nat → Option CTy
  | 0 => some .fp32
  | 1 => some .bf16
  | 2 => some .fp16
  | 3 => some .i32
  | 4 => some .i64
  | 5 => some .e4m3
  | 6 => some .e5m2
  | _ => none

def VcTy.code : VcTy → Nat
  | .fp32 => 0
  | .bf16 => 1
  | .fp16 => 2
  | .i32 => 3
  | .i16 => 4
  | .e4m3 => 5
  | .e5m2 => 6
  | .i8 => 7

def VcTy.ofCode : Nat → Option VcTy
  | 0 => some .fp32
  | 1 => some .bf16
  | 2 => some .fp16
  | 3 => some .i32
  | 4 => some .i16
  | 5 => some .e4m3
  | 6 => some .e5m2
  | 7 => some .i8
  | _ => none

def VTy.code : VTy → Nat
  | .t32 => 0
  | .t16 => 1
  | .tH => 2
  | .t8 => 3

def VTy.ofCode : Nat → Option VTy
  | 0 => some .t32
  | 1 => some .t16
  | 2 => some .tH
  | 3 => some .t8
  | _ => none

def AmoOp.code : AmoOp → Nat
  | .add => 0
  | .band => 1
  | .bor => 2
  | .bxor => 3
  | .min => 4
  | .max => 5
  | .swap => 6
  | .cas => 7
  | .incw => 8
  | .fadd => 9

def AmoOp.ofCode : Nat → Option AmoOp
  | 0 => some .add
  | 1 => some .band
  | 2 => some .bor
  | 3 => some .bxor
  | 4 => some .min
  | 5 => some .max
  | 6 => some .swap
  | 7 => some .cas
  | 8 => some .incw
  | 9 => some .fadd
  | _ => none

def RedOp.code : RedOp → Nat
  | .add => 0
  | .band => 1
  | .bor => 2
  | .bxor => 3
  | .min => 4
  | .max => 5
  | .minu => 6
  | .maxu => 7
  | .fadd => 8
  | .fmin => 9
  | .fmax => 10

def RedOp.ofCode : Nat → Option RedOp
  | 0 => some .add
  | 1 => some .band
  | 2 => some .bor
  | 3 => some .bxor
  | 4 => some .min
  | 5 => some .max
  | 6 => some .minu
  | 7 => some .maxu
  | 8 => some .fadd
  | 9 => some .fmin
  | 10 => some .fmax
  | _ => none

def Csr.code : Csr → Nat
  | .blockid => 0
  | .dieid => 1
  | .coreid => 2
  | .slipw => 3
  | .status => 4
  | .trapcause => 5
  | .cycle => 6
  | .phase => 7
  | .scoutk => 8
  | .leave => 9

def Csr.ofCode : Nat → Option Csr
  | 0 => some .blockid
  | 1 => some .dieid
  | 2 => some .coreid
  | 3 => some .slipw
  | 4 => some .status
  | 5 => some .trapcause
  | 6 => some .cycle
  | 7 => some .phase
  | 8 => some .scoutk
  | 9 => some .leave
  | _ => none

def Wid.code : Wid → Nat
  | .b => 0
  | .h => 1
  | .w => 2
  | .d => 3

def Wid.ofCode : Nat → Option Wid
  | 0 => some .b
  | 1 => some .h
  | 2 => some .w
  | 3 => some .d
  | _ => none

/-- ORD (R96): bit 5 reserved, REL, ACQ, SCOPE. -/
def Ord.ofCode (n : Nat) : Option Ord :=
  if n / 32 % 2 = 1 then Option.none else
    match Scope.ofCode (n % 8) with
    | some s => some { rel := n / 16 % 2 == 1, acq := n / 8 % 2 == 1, scope := s }
    | Option.none => Option.none

def Ord.code (o : Ord) : Nat := digit o.rel * 16 + digit o.acq * 8 + o.scope.code

/-- A port code (R87). -/
def Port.ofCode (c : Fin 64) : Option Port :=
  if h : c.val < 16 then some (.g ⟨c.val, h⟩)
  else if c.val < 32 then some (.q (Fin.ofNat 16 (c.val - 16)))
  else if c.val < 36 then some (.vq (Fin.ofNat 4 (c.val - 32)))
  else none

def Port.code : Port → Fin 64
  | .g n => Fin.ofNat 64 n.val
  | .q n => Fin.ofNat 64 (n.val + 16)
  | .vq n => Fin.ofNat 64 (n.val + 32)

/-- A register or port field. -/
def Opd.ofCode (isPort : Bool) (c : Fin 64) : Option Opd :=
  if isPort then (Port.ofCode c).map .port else some (.reg c)

def Opd.code : Opd → Fin 64
  | .reg n => n
  | .port p => p.code

/-- The value of a field as an index below `m`, refused when it is too large. -/
def lim (m : Nat) {n : Nat} (v : Fin n) : Option (Fin m) := if h : v.val < m then some ⟨v.val, h⟩ else none

/-- A field value seen in a wider field. -/
def wid (m : Nat) [NeZero m] {n : Nat} (v : Fin n) : Fin m := Fin.ofNat m v.val

/-- PS of a narrow word (R87): at most one of D, A and B is a port. -/
def psOf (d a b : Bool) : Fin 4 := if d then 1 else if a then 2 else if b then 3 else 0

/-- A scalar queue code in a field. -/
def qOf (c : Fin 64) : Option (Fin 16) := if 16 ≤ c.val ∧ c.val < 32 then some (Fin.ofNat 16 (c.val - 16)) else none

def ringCount (ps : Fin 4) (b : Fin 64) : Option RCount := if ps = 3 then (qOf b).map .q else some (.imm b)

def RCount.code : RCount → Fin 64
  | .imm n => n
  | .q n => Fin.ofNat 64 (n.val + 16)

def EVal.code : EVal → Fin 64
  | .imm n => n
  | .q n => Fin.ofNat 64 (n.val + 16)

def EVal.isQ : EVal → Bool
  | .imm _ => false
  | .q _ => true

/-- The branch target in a second word (R89). -/
def Target.ofWord (x : Word) : Target := { loff := BitVec.ofNat 28 (x.toNat / 16), word := fld 16 x 0 }

def Target.toWord (t : Target) : Word := BitVec.ofNat 32 (t.loff.toNat * 16 + t.word.val)

/-! Readers of the argument shapes: `none` is a reserved field (R87, R97 item 5). -/

def rdR (f : FR) : Option RArgs := do
  let d ← Opd.ofCode (f.ps == 1) f.d
  let a ← Opd.ofCode (f.ps == 2) f.a
  let b ← Opd.ofCode (f.ps == 3) f.b
  some { pred := f.pred, d := d, a := a, b := b }

def rdU (f : FR) : Option UArgs :=
  if f.ps = 3 ∨ f.b ≠ 0 then none else do
    let d ← Opd.ofCode (f.ps == 1) f.d
    let a ← Opd.ofCode (f.ps == 2) f.a
    some { pred := f.pred, d := d, a := a }

def rdK (f : FR) : Option KArgs :=
  if f.ps = 3 then none else do
    let d ← Opd.ofCode (f.ps == 1) f.d
    let a ← Opd.ofCode (f.ps == 2) f.a
    some { pred := f.pred, d := d, a := a, imm := BitVec.ofNat 6 f.b.val }

def rdCmp (f : FR) : Option CmpArgs :=
  if f.ps = 1 then none else do
    let r ← Rel.ofCode (f.d.val / 8)
    let a ← Opd.ofCode (f.ps == 2) f.a
    let b ← Opd.ofCode (f.ps == 3) f.b
    some { pred := f.pred, rel := r, pd := Fin.ofNat 8 f.d.val, a := a, b := b }

def rdCmpK (f : FR) : Option CmpKArgs :=
  if f.ps = 1 ∨ f.ps = 3 then none else do
    let r ← Rel.ofCode (f.d.val / 8)
    let a ← Opd.ofCode (f.ps == 2) f.a
    some { pred := f.pred, rel := r, pd := Fin.ofNat 8 f.d.val, a := a, imm := BitVec.ofNat 6 f.b.val }

def rdP3 (f : FR) : Option P3Args :=
  if f.ps ≠ 0 then none else do
    let d ← lim 8 f.d
    let a ← lim 8 f.a
    let b ← lim 8 f.b
    some { pred := f.pred, d := d, a := a, b := b }

def rdP2 (f : FR) : Option P2Args :=
  if f.ps ≠ 0 ∨ f.b ≠ 0 then none else do
    let d ← lim 8 f.d
    let a ← lim 8 f.a
    some { pred := f.pred, d := d, a := a }

def rdCFcvt (f : FR) : Option CFcvtArgs :=
  if f.ps = 3 then none else do
    let d ← Opd.ofCode (f.ps == 1) f.d
    let a ← Opd.ofCode (f.ps == 2) f.a
    let s ← CTy.ofCode (f.b.val / 8)
    let t ← CTy.ofCode (f.b.val % 8)
    some { pred := f.pred, d := d, a := a, src := s, dst := t }

/-- The register form of `ptgt` (R113); A may be a queue, as R87 lets any scalar source be (log 58). -/
def rdPtgtR (f : FR) : Option PtgtRArgs :=
  if f.ps = 1 ∨ f.ps = 3 ∨ f.b ≠ 0 then none else do
    let b ← lim 4 f.d
    let a ← Opd.ofCode (f.ps == 2) f.a
    some { pred := f.pred, b := b, a := a }

def rdJt (f : FR) : Option JtArgs :=
  if f.ps ≠ 0 ∨ f.b ≠ 0 ∨ f.d ≠ 0 then none else (lim 4 f.a).map fun b => { pred := f.pred, b := b }

def rdJtl (f : FR) : Option JtlArgs :=
  if f.ps = 2 ∨ f.ps = 3 ∨ f.b ≠ 0 then none else do
    let d ← Opd.ofCode (f.ps == 1) f.d
    let b ← lim 4 f.a
    some { pred := f.pred, d := d, b := b }

def rdFence (f : FR) : Option FenceArgs :=
  if f.ps ≠ 0 ∨ f.a ≠ 0 ∨ f.b ≠ 0 then none else (Ord.ofCode f.d.val).map fun o => { pred := f.pred, ord := o }

def rdFlag (f : FR) : Option FlagArgs :=
  if f.ps ≠ 0 ∨ f.d ≠ 0 ∨ f.b ≠ 0 then none else some { pred := f.pred, f := f.a }

def rdGset (f : FR) : Option GsetArgs :=
  if f.ps ≠ 0 ∨ f.b ≠ 0 then none else do
    let g ← lim 16 f.d
    let p ← lim 8 f.a
    some { pred := f.pred, gs := g, p := p }

def rdSrc (f : FR) : Option SrcArgs :=
  if f.ps = 1 ∨ f.ps = 3 ∨ f.d ≠ 0 ∨ f.b ≠ 0 then none else
    (Opd.ofCode (f.ps == 2) f.a).map fun a => { pred := f.pred, a := a }

def rdCsrr (f : FR) : Option CsrrArgs :=
  if f.ps = 2 ∨ f.ps = 3 ∨ f.b ≠ 0 then none else do
    let d ← Opd.ofCode (f.ps == 1) f.d
    let c ← Csr.ofCode f.a.val
    some { pred := f.pred, d := d, csr := c }

def rdCsrw (f : FR) : Option CsrwArgs :=
  if f.ps = 1 ∨ f.ps = 2 ∨ f.d ≠ 0 then none else do
    let c ← Csr.ofCode f.a.val
    let b ← Opd.ofCode (f.ps == 3) f.b
    some { pred := f.pred, csr := c, b := b }

def rdRclaim (f : FR) : Option RclaimArgs :=
  if f.ps = 2 then none else do
    let d ← Opd.ofCode (f.ps == 1) f.d
    let r ← lim 32 f.a
    let n ← ringCount f.ps f.b
    some { pred := f.pred, d := d, ring := r, n := n }

def rdROrd (f : FR) : Option ROrdArgs :=
  if f.ps = 1 ∨ f.ps = 2 then none else do
    let o ← Ord.ofCode f.d.val
    let r ← lim 32 f.a
    let n ← ringCount f.ps f.b
    some { pred := f.pred, ord := o, ring := r, n := n }

def rdRing (f : FR) : Option RingArgs :=
  if f.ps = 1 ∨ f.ps = 2 ∨ f.d ≠ 0 then none else do
    let r ← lim 32 f.a
    let n ← ringCount f.ps f.b
    some { pred := f.pred, ring := r, n := n }

def rdNo (f : FR) : Option NoArgs :=
  if f.ps ≠ 0 ∨ f.a ≠ 0 ∨ f.b ≠ 0 ∨ f.d ≠ 0 then none else some { pred := f.pred }

def rdNoB1 (f : FR) : Option NoArgs :=
  if f.ps ≠ 0 ∨ f.a ≠ 0 ∨ f.b ≠ 1 ∨ f.d ≠ 0 then none else some { pred := f.pred }

def rdLd (f : FR) : Option LdArgs :=
  if f.ps = 2 ∨ f.ps = 3 then none else
    (Opd.ofCode (f.ps == 1) f.d).map fun d => { pred := f.pred, d := d, a := f.a, off := BitVec.ofNat 6 f.b.val }

def rdAccept (f : FR) : Option AcceptArgs :=
  if f.ps = 2 ∨ f.ps = 3 ∨ f.a ≠ 0 ∨ 2 ≤ f.b.val then none else
    (Opd.ofCode (f.ps == 1) f.d).map fun d => { pred := f.pred, d := d, tol := f.b == 1 }

def rdCtwr (f : FR) : Option CtwrArgs :=
  if f.ps = 1 ∨ f.ps = 3 ∨ f.b ≠ 0 then none else do
    let c ← lim 8 f.d
    let a ← Opd.ofCode (f.ps == 2) f.a
    some { pred := f.pred, ct := c, a := a }

def rdCt (f : FR) : Option CtArgs :=
  if f.ps ≠ 0 ∨ f.a ≠ 0 ∨ f.b ≠ 0 then none else (lim 8 f.d).map fun c => { pred := f.pred, ct := c }

def rdLi (f : FR) (x : Word) : Option LiArgs :=
  if f.ps = 2 ∨ f.ps = 3 ∨ f.a ≠ 0 ∨ f.b ≠ 0 then none else
    (Opd.ofCode (f.ps == 1) f.d).map fun d => { pred := f.pred, d := d, imm := x }

def rdPtgtL (f : FR) (x : Word) : Option PtgtLArgs :=
  if f.ps ≠ 0 ∨ f.a ≠ 0 ∨ f.b ≠ 0 then none else
    (lim 4 f.d).map fun b => { pred := f.pred, b := b, tgt := Target.ofWord x }

def rdLoop (f : FR) (x : Word) : Option LoopArgs :=
  if f.ps = 1 ∨ f.ps = 3 ∨ f.b ≠ 0 then none else do
    let lc ← lim 4 f.d
    let a ← Opd.ofCode (f.ps == 2) f.a
    some { pred := f.pred, lc := lc, a := a, stop := Target.ofWord x }

def rdAmo (f : FR) (x : Word) : Option AmoArgs :=
  if f.ps ≠ 0 then none else do
    let op ← AmoOp.ofCode (x.toNat / 2 ^ 28)
    let o ← Ord.ofCode (x.toNat / 2 ^ 21 % 64)
    some { pred := f.pred, d := f.d, a := f.a, b := f.b, op := op, w64 := bitAt x 27, ord := o,
           off := BitVec.ofNat 21 x.toNat }

def rdScout (f : FR) (x : Word) : Option ScoutArgs :=
  if f.ps = 1 ∨ f.ps = 3 ∨ f.b ≠ 0 then none else
    (Opd.ofCode (f.ps == 2) f.a).map fun a => { pred := f.pred, a := a, k := f.d, guess := Target.ofWord x }

def rdLdW (f : FR) (x : Word) : Option LdWArgs :=
  if f.ps = 2 ∨ f.ps = 3 ∨ f.b ≠ 0 then none else do
    let d ← Opd.ofCode (f.ps == 1) f.d
    let k ← Wid.ofCode (x.toNat / 2 ^ 30)
    some { pred := f.pred, d := d, a := f.a, wid := k, off := BitVec.ofNat 30 x.toNat }

def rdTkT (f : FR) (x : Word) : Option TkTArgs :=
  if f.ps ≠ 0 ∨ f.b ≠ 0 then none else (lim 8 f.d).map fun p => { pred := f.pred, pd := p, f := f.a, t := x }

def rdSset (f : FR) : Option SsetArgs :=
  if f.ps = 1 ∨ f.ps = 3 ∨ f.b ≠ 0 then none else do
    let g ← lim 16 f.d
    let a ← Opd.ofCode (f.ps == 2) f.a
    some { pred := f.pred, g := g, a := a }

def rdNgo (f : FR) : Option NgoArgs :=
  if f.ps ≠ 0 ∨ f.a ≠ 0 ∨ f.d ≠ 0 then none else (lim 8 f.b).map fun k => { pred := f.pred, k1 := k }

def rdNset (level : Fin 6) (f : FS) : Option NsetArgs :=
  some { pred := f.pred, level := level, x := f.x, y := f.y, step := f.imm }

def rdNsetW (f : FR) (x : Word) : Option NsetWArgs :=
  if f.ps ≠ 0 then none else do
    let l ← lim 6 f.d
    let a ← lim 32 f.a
    let b ← lim 32 f.b
    some { pred := f.pred, level := l, x := a, y := b, step := x }

def rdSsetI (f : FR) (x : Word) : Option SsetIArgs :=
  if f.ps ≠ 0 ∨ f.a ≠ 0 ∨ f.b ≠ 0 then none else (lim 16 f.d).map fun g => { pred := f.pred, g := g, imm := x }

def rdC (f : FC) : Option CArgs := some { pred := f.pred, attr := f.attr, o1 := f.o1, o2 := f.o2, o3 := f.o3 }

def rdCopyExt (x : Word) : Option CopyExt := do
  let k ← lim 3 (fld 4 x 30)
  some { kind := k, tr := bitAt x 29, esz := fld 4 x 27, dom := fld 32 x 22, fd := bitAt x 21, lk := bitAt x 20,
         soff := BitVec.ofNat 10 (x.toNat / 2 ^ 10), doff := BitVec.ofNat 10 x.toNat }

def rdCopybExt (x : Word) : Option CopybExt := do
  let m ← lim 3 (fld 4 x 29)
  let e0 ← lim 13 (fld 16 x 24)
  let e1 ← lim 13 (fld 16 x 20)
  let e2 ← lim 13 (fld 16 x 16)
  let e3 ← lim 13 (fld 16 x 12)
  some { scatter := bitAt x 31, imode := m, add := bitAt x 28, ex0 := e0, ex1 := e1, ex2 := e2, ex3 := e3,
         nidx := BitVec.ofNat 12 x.toNat }

def rdMcastExt (x : Word) : Option McastExt :=
  if x.toNat % 32 ≠ 0 then none else
    some { group := fld 256 x 24, n := fld 64 x 18, ac := bitAt x 17, sbc := BitVec.ofNat 12 (x.toNat / 32) }

def rdMmaExt (x : Word) : Option MmaExt :=
  if x.toNat % 2 ^ 14 ≠ 0 then none else
    some { fa := fld 16 x 28, fb := fld 16 x 24, acc := fld 4 x 22, ka := bitAt x 21, kb := bitAt x 20,
           cta := fld 8 x 17, ctb := fld 8 x 14 }

def rdVsel (f : FR) : Option VselArgs :=
  if f.ps = 3 then none else do
    let d ← Opd.ofCode (f.ps == 1) f.d
    let a ← Opd.ofCode (f.ps == 2) f.a
    let m ← lim 8 f.b
    some { pred := f.pred, d := d, a := a, vm := m }

def rdVcvt (f : FR) : Option VcvtArgs :=
  if f.ps = 3 then none else do
    let d ← Opd.ofCode (f.ps == 1) f.d
    let a ← Opd.ofCode (f.ps == 2) f.a
    let s ← VcTy.ofCode (f.b.val / 8)
    let t ← VcTy.ofCode (f.b.val % 8)
    some { pred := f.pred, d := d, a := a, src := s, dst := t }

def rdVunpk (f : FR) : Option VunpkArgs :=
  if f.ps = 3 ∨ f.b.val / 16 % 2 = 1 then none else do
    let d ← Opd.ofCode (f.ps == 1) f.d
    let a ← Opd.ofCode (f.ps == 2) f.a
    some { pred := f.pred, d := d, a := a, chunk := Fin.ofNat 16 f.b.val, keep := f.b.val / 32 == 1 }

def rdVred (f : FR) : Option VredArgs :=
  if f.ps = 3 then none else do
    let d ← Opd.ofCode (f.ps == 1) f.d
    let a ← Opd.ofCode (f.ps == 2) f.a
    let op ← RedOp.ofCode f.b.val
    some { pred := f.pred, d := d, a := a, op := op }

def rdVscan (f : FR) : Option VscanArgs :=
  if f.ps = 3 ∨ 32 ≤ f.b.val then none else do
    let d ← Opd.ofCode (f.ps == 1) f.d
    let a ← Opd.ofCode (f.ps == 2) f.a
    let op ← RedOp.ofCode (f.b.val % 16)
    some { pred := f.pred, d := d, a := a, op := op, excl := f.b.val / 16 == 1 }

def rdIdx (f : FR) : Option IdxArgs :=
  if f.ps = 3 then none else do
    let d ← Opd.ofCode (f.ps == 1) f.d
    let a ← Opd.ofCode (f.ps == 2) f.a
    some { pred := f.pred, d := d, a := a, idx := wid 256 f.b }

def rdViota (f : FR) : Option ViotaArgs :=
  if f.ps = 2 ∨ f.ps = 3 ∨ f.b ≠ 0 then none else do
    let d ← Opd.ofCode (f.ps == 1) f.d
    let m ← lim 8 f.a
    some { pred := f.pred, d := d, vm := m }

def rdVote (f : FR) : Option VoteArgs :=
  if f.ps ≠ 0 then none else do
    let d ← (if h : f.d.val < 16 then some (VoteDst.gs ⟨f.d.val, h⟩)
             else if f.d.val < 24 then some (VoteDst.p (Fin.ofNat 8 (f.d.val - 16))) else none)
    let m ← lim 8 f.a
    let k ← lim 3 f.b
    some { pred := f.pred, d := d, vm := m, width := k }

def VoteDst.code : VoteDst → Fin 64
  | .gs n => Fin.ofNat 64 n.val
  | .p n => Fin.ofNat 64 (n.val + 16)

def rdBlend (f : FR) : Option BlendArgs :=
  if f.ps ≠ 0 ∨ f.b ≠ 0 then none else do
    let k ← lim 8 f.d
    let t ← (if f.a = 3 then some Borrower.m else if f.a = 4 then some Borrower.d else none)
    some { pred := f.pred, bank := k, who := t }

def Borrower.code : Borrower → Fin 64
  | .m => 3
  | .d => 4

def rdEVal (ps : Fin 4) (b : Fin 64) : Option EVal :=
  if ps = 0 then some (.imm b) else if ps = 3 then (qOf b).map .q else none

def rdMclr (f : FR) : Option MclrArgs :=
  if f.a ≠ 0 then none else do
    let t ← lim 4 f.d
    let e ← rdEVal f.ps f.b
    some { pred := f.pred, tile := t, e := e }

def rdMstat (f : FR) : Option MstatArgs :=
  if f.ps ≠ 1 then none else do
    let q ← qOf f.d
    let t ← lim 4 f.a
    let c ← lim 3 f.b
    some { pred := f.pred, q := q, tile := t, ctl := c }

def rdBret (f : FR) : Option BretArgs :=
  if f.ps ≠ 0 ∨ f.a ≠ 0 ∨ f.b ≠ 0 then none else (lim 8 f.d).map fun k => { pred := f.pred, bank := k }

def rdNorm (tiles : Nat) (f : FC) : Option NormArgs :=
  if 4 ≤ f.o3.val ∨ tiles ≤ f.o1.val then none else do
    let t ← lim 4 f.o1
    let k ← (if h : f.o2.val + f.o3.val % 2 * 32 < 40 then some ⟨f.o2.val + f.o3.val % 2 * 32, h⟩ else none)
    some { pred := f.pred, attr := f.attr, tile := t, k := k }

def rdMrd (f : FC) : Option MrdArgs :=
  (lim 4 f.o1).map fun t => { pred := f.pred, attr := f.attr, tile := t, ring := f.o2, fmt := f.o3 }

def rdMexp (f : FC) : Option MexpArgs :=
  if 16 ≤ f.o3.val then none else do
    let t ← lim 4 f.o1
    let b ← lim 8 f.o2
    some { pred := f.pred, attr := f.attr, tile := t, bank := b, r := Fin.ofNat 8 f.o3.val }

def rdDclr (f : FR) : Option DclrArgs := do
  let t ← lim 2 f.d
  let n ← lim 8 f.a
  let e ← rdEVal f.ps f.b
  some { pred := f.pred, tile := t, nb1 := n, e := e }

def rdDrd (f : FC) : Option DrdArgs := do
  let t ← lim 2 f.o1
  let v ← lim 4 f.o2
  some { pred := f.pred, attr := f.attr, tile := t, vq := v, fmt := f.o3 }

def rdDmv (f : FC) (x : Word) : Option DmvArgs :=
  if f.o2 ≠ 0 ∨ f.o3 ≠ 0 ∨ x.toNat % 2 ^ 18 ≠ 0 ∨ (fld 8 x 29) = 0 then none else
    (lim 16 f.o1).map fun g =>
      { pred := f.pred, attr := f.attr, g := g, bank := fld 8 x 29, nb1 := fld 8 x 26, rf := bitAt x 25,
        dacc := fld 2 x 24, nr1 := fld 64 x 18 }

def rdGcfg (f : FR) : Option GcfgArgs :=
  if f.ps ≠ 3 ∨ f.a ≠ 0 then none else do
    let g ← lim 4 f.d
    let q ← qOf f.b
    some { pred := f.pred, gd := g, q := q }

def rdGld (f : FC) (x : Word) : Option GldArgs :=
  if x.toNat % 2 ^ 22 ≠ 0 then none else do
    let g ← lim 4 f.o1
    let i ← lim 4 f.o2
    let o ← lim 4 f.o3
    some { pred := f.pred, attr := f.attr, gd := g, vqi := i, vqo := o, lb := fld 32 x 27, ln1 := fld 32 x 22 }

/-! Wide vector forms (R101, R179): ports come from EXT, the word's PS is 0. -/

/-- The shared EXT fields. R101 gives RMV, RM, SAT and FTZ to every wide form; a form that uses none of them accepts and ignores them,
for R179 does not say that they are unused fields there (DESIGN CHOICE, log 61). -/
def rdVExt (x : Word) : Option VExt := do
  let t ← VTy.ofCode (x.toNat / 2 ^ 28)
  let r ← Rm.ofCode (x.toNat / 2 ^ 21 % 8)
  some { ty := t, rmv := bitAt x 24, rm := r, sat := bitAt x 20, ftz := bitAt x 19, mask := fld 8 x 16 }

def pxD (x : Word) : Bool := bitAt x 27
def pxA (x : Word) : Bool := bitAt x 26
def pxB (x : Word) : Bool := bitAt x 25

/-- EXT[15:0]. -/
def low16 (x : Word) : Nat := x.toNat % 2 ^ 16

def rdRW (f : FR) (x : Word) : Option RArgs :=
  if f.ps ≠ 0 then none else do
    let d ← Opd.ofCode (pxD x) f.d
    let a ← Opd.ofCode (pxA x) f.a
    let b ← Opd.ofCode (pxB x) f.b
    some { pred := f.pred, d := d, a := a, b := b }

def rdUW (f : FR) (x : Word) : Option UArgs :=
  if f.ps ≠ 0 ∨ f.b ≠ 0 ∨ pxB x then none else do
    let d ← Opd.ofCode (pxD x) f.d
    let a ← Opd.ofCode (pxA x) f.a
    some { pred := f.pred, d := d, a := a }

def rdCmpW (f : FR) (x : Word) : Option CmpArgs :=
  if f.ps ≠ 0 ∨ pxD x then none else do
    let r ← Rel.ofCode (f.d.val / 8)
    let a ← Opd.ofCode (pxA x) f.a
    let b ← Opd.ofCode (pxB x) f.b
    some { pred := f.pred, rel := r, pd := Fin.ofNat 8 f.d.val, a := a, b := b }

/-- D and A of a wide form that has no third register operand. -/
def daW (f : FR) (x : Word) : Option (Opd × Opd) :=
  if f.ps ≠ 0 ∨ pxB x then none else do
    let d ← Opd.ofCode (pxD x) f.d
    let a ← Opd.ofCode (pxA x) f.a
    some (d, a)

def rdVselW (f : FR) (x : Word) : Option VselArgs := do
  let (d, a) ← daW f x
  let m ← lim 8 f.b
  some { pred := f.pred, d := d, a := a, vm := m }

def rdVcvtW (f : FR) (x : Word) : Option VcvtArgs := do
  let (d, a) ← daW f x
  let s ← VcTy.ofCode (f.b.val / 8)
  let t ← VcTy.ofCode (f.b.val % 8)
  some { pred := f.pred, d := d, a := a, src := s, dst := t }

def rdVunpkW (f : FR) (x : Word) : Option VunpkArgs :=
  if f.b.val / 16 % 2 = 1 then none else do
    let (d, a) ← daW f x
    some { pred := f.pred, d := d, a := a, chunk := Fin.ofNat 16 f.b.val, keep := f.b.val / 32 == 1 }

def rdVredW (f : FR) (x : Word) : Option VredArgs := do
  let (d, a) ← daW f x
  let op ← RedOp.ofCode f.b.val
  some { pred := f.pred, d := d, a := a, op := op }

def rdVscanW (f : FR) (x : Word) : Option VscanArgs :=
  if 32 ≤ f.b.val then none else do
    let (d, a) ← daW f x
    let op ← RedOp.ofCode (f.b.val % 16)
    some { pred := f.pred, d := d, a := a, op := op, excl := f.b.val / 16 == 1 }

def rdIdxW (f : FR) (x : Word) : Option IdxArgs :=
  if f.b ≠ 0 ∨ 2 ^ 8 ≤ low16 x then none else do
    let (d, a) ← daW f x
    some { pred := f.pred, d := d, a := a, idx := fld 256 x 0 }

def rdViotaW (f : FR) (x : Word) : Option ViotaArgs :=
  if f.b ≠ 0 ∨ pxA x then none else do
    let (d, _) ← daW f x
    let m ← lim 8 f.a
    some { pred := f.pred, d := d, vm := m }

def rdPackExt (x : Word) : Option PackExt :=
  if x.toNat % 2 ^ 9 ≠ 0 then none else some { df := fld 16 x 12, dfv := bitAt x 11, hq := fld 4 x 9 }

def rdUnpkExt (x : Word) : Option UnpkExt :=
  if x.toNat % 2 ^ 11 ≠ 0 then none else some { sf := fld 16 x 12, sfv := bitAt x 11 }

/-- The answer for a read instruction: well-formed, or a reserved field. -/
def DecRes.of : Option Instr → DecRes
  | some i => if i.wf then .ok i else .reserved
  | none => .reserved


/-- The c engine's P0 map. -/
def decCP0 (w : Word) : DecRes :=
  let f := FR.ofWord w
  match (fld 64 w 2).val with
  | 0 => .of ((rdR f).map .cAdd)
  | 1 => .of ((rdR f).map .cSub)
  | 2 => .of ((rdR f).map .cMul)
  | 3 => .of ((rdR f).map .cMulh)
  | 4 => .of ((rdR f).map .cMulhu)
  | 5 => .of ((rdR f).map .cDiv)
  | 6 => .of ((rdR f).map .cDivu)
  | 7 => .of ((rdR f).map .cRem)
  | 8 => .of ((rdR f).map .cRemu)
  | 9 => .of ((rdR f).map .cAnd)
  | 10 => .of ((rdR f).map .cOr)
  | 11 => .of ((rdR f).map .cXor)
  | 12 => .of ((rdR f).map .cAndn)
  | 13 => .of ((rdR f).map .cShl)
  | 14 => .of ((rdR f).map .cShr)
  | 15 => .of ((rdR f).map .cSar)
  | 16 => .of ((rdR f).map .cRot)
  | 17 => .of ((rdR f).map .cMin)
  | 18 => .of ((rdR f).map .cMax)
  | 19 => .of ((rdR f).map .cMinu)
  | 20 => .of ((rdR f).map .cMaxu)
  | 21 => .of ((rdR f).map .cSel)
  | 22 => .of ((rdR f).map .cBfx)
  | 23 => .of ((rdR f).map .cBfi)
  | 24 => .of ((rdU f).map .cClz)
  | 25 => .of ((rdU f).map .cCtz)
  | 26 => .of ((rdU f).map .cPopc)
  | 27 => .of ((rdR f).map .cSext)
  | 28 => .of ((rdR f).map .cZext)
  | 29 => .of ((rdU f).map .cMov)
  | 30 => .of ((rdCmp f).map .cCmp)
  | 31 => .of ((rdP3 f).map .cPand)
  | 32 => .of ((rdP3 f).map .cPor)
  | 33 => .of ((rdP2 f).map .cPnot)
  | 34 => .of ((rdR f).map .cFadd)
  | 35 => .of ((rdR f).map .cFsub)
  | 36 => .of ((rdR f).map .cFmul)
  | 37 => .of ((rdR f).map .cFma)
  | 38 => .of ((rdR f).map .cFmin)
  | 39 => .of ((rdR f).map .cFmax)
  | 40 => .of ((rdCFcvt f).map .cFcvt)
  | 41 => .of ((rdCmp f).map .cFcmp)
  | 42 => .of ((rdPtgtR f).map .cPtgt)
  | 43 => .of ((rdJt f).map .cJt)
  | 44 => .of ((rdJtl f).map .cJtl)
  | 45 => .of ((rdFence f).map .cFence)
  | 46 => .of ((rdFlag f).map .cTkset)
  | 47 => .of ((rdFlag f).map .cTkwait)
  | 48 => .of ((rdFlag f).map .cTkclr)
  | 49 => .of ((rdGset f).map .cGset)
  | 50 => .of ((rdSrc f).map .cGbar)
  | 51 => .of ((rdCsrr f).map .cCsrr)
  | 52 => .of ((rdCsrw f).map .cCsrw)
  | 53 => .of ((rdRclaim f).map .cRclaim)
  | 54 => .of ((rdROrd f).map .cRpub)
  | 55 => .of ((rdROrd f).map .cRwait)
  | 56 => .of ((rdRing f).map .cRfree)
  | 57 => .of ((rdRing f).map .cRrel)
  | 58 => .of ((rdR f).map .cRpopn)
  | 59 => .of ((rdSrc f).map .cTrap)
  | 60 => .of ((rdNo f).map .cHalt)
  | 61 => .of ((rdNo f).map .cNop)
  | _ => .illegal

/-- The c engine's P1 map. -/
def decCP1 (w : Word) : DecRes :=
  let f := FR.ofWord w
  match (fld 64 w 2).val with
  | 0 => .of ((rdK f).map .cAddK)
  | 1 => .of ((rdK f).map .cSubK)
  | 2 => .of ((rdK f).map .cMulK)
  | 3 => .of ((rdK f).map .cMulhK)
  | 4 => .of ((rdK f).map .cMulhuK)
  | 5 => .of ((rdK f).map .cDivK)
  | 6 => .of ((rdK f).map .cDivuK)
  | 7 => .of ((rdK f).map .cRemK)
  | 8 => .of ((rdK f).map .cRemuK)
  | 9 => .of ((rdK f).map .cAndK)
  | 10 => .of ((rdK f).map .cOrK)
  | 11 => .of ((rdK f).map .cXorK)
  | 12 => .of ((rdK f).map .cAndnK)
  | 13 => .of ((rdK f).map .cShlK)
  | 14 => .of ((rdK f).map .cShrK)
  | 15 => .of ((rdK f).map .cSarK)
  | 16 => .of ((rdK f).map .cRotK)
  | 17 => .of ((rdK f).map .cMinK)
  | 18 => .of ((rdK f).map .cMaxK)
  | 19 => .of ((rdK f).map .cMinuK)
  | 20 => .of ((rdK f).map .cMaxuK)
  | 30 => .of ((rdCmpK f).map .cCmpK)
  | 32 => .of ((rdLd f).map .cLdB)
  | 33 => .of ((rdLd f).map .cLdH)
  | 34 => .of ((rdLd f).map .cLdW)
  | 35 => .of ((rdLd f).map .cLdD)
  | 36 => .of ((rdLd f).map .cStB)
  | 37 => .of ((rdLd f).map .cStH)
  | 38 => .of ((rdLd f).map .cStW)
  | 39 => .of ((rdLd f).map .cStD)
  | 40 => .of ((rdU f).map .cKlaunch)
  | 41 => .of ((rdU f).map .cKxfer)
  | 42 => .of ((rdSrc f).map .cProg)
  | 43 => .of (if f.b = 1 then ((rdNoB1 f).map .cPhadvLate) else ((rdNo f).map .cPhadv))
  | 44 => .of ((rdSrc f).map .cPhset)
  | 45 => .of ((rdNo f).map .cPhwait)
  | 46 => .of ((rdNo f).map .cSgret)
  | 47 => .of ((rdAccept f).map .cAccept)
  | 48 => .of ((rdNo f).map .cScommit)
  | 49 => .of ((rdNo f).map .cSclose)
  | 50 => .of ((rdCtwr f).map .cCtwr)
  | 51 => .of ((rdCt f).map .cCtswap)
  | _ => .illegal

/-- The c engine's W map. -/
def decCW (w x : Word) : DecRes :=
  let f := FR.ofWord w
  match (fld 64 w 2).val with
  | 0 => .of ((rdLi f x).map .cLi)
  | 1 => .of ((rdPtgtL f x).map .cPtgtLabel)
  | 2 => .of ((rdLoop f x).map .cLoop)
  | 3 => .of ((rdAmo f x).map .cAmo)
  | 4 => .of ((rdScout f x).map .cScout)
  | 5 => .of ((rdLdW f x).map .cLdWide)
  | 6 => .of ((rdLdW f x).map .cStWide)
  | 7 => .of ((rdTkT f x).map .cTkwaitTimeout)
  | _ => .illegal

/-- The a engine's P0 map. -/
def decAP0 (w : Word) : DecRes :=
  let f := FR.ofWord w
  let g := FC.ofWord w
  match (fld 64 w 2).val with
  | 0 => .of ((rdR f).map .aAdd)
  | 1 => .of ((rdR f).map .aSub)
  | 2 => .of ((rdR f).map .aMul)
  | 3 => .of ((rdR f).map .aShl)
  | 4 => .of ((rdR f).map .aShr)
  | 5 => .of ((rdU f).map .aMov)
  | 6 => .of ((rdCmp f).map .aCmp)
  | 7 => .of ((rdJt f).map .aJt)
  | 8 => .of ((rdSset f).map .aSbind)
  | 9 => .of ((rdSset f).map .aSset)
  | 10 => .of ((rdNgo f).map .aNgo)
  | 11 => .of ((rdNo f).map .aNwait)
  | 16 => .of ((rdNset 0 (FS.ofWord w)).map .aNset)
  | 17 => .of ((rdNset 1 (FS.ofWord w)).map .aNset)
  | 18 => .of ((rdNset 2 (FS.ofWord w)).map .aNset)
  | 19 => .of ((rdNset 3 (FS.ofWord w)).map .aNset)
  | 20 => .of ((rdNset 4 (FS.ofWord w)).map .aNset)
  | 21 => .of ((rdNset 5 (FS.ofWord w)).map .aNset)
  | 32 => .of ((rdC g).map .aCopyMm)
  | 33 => .of ((rdC g).map .aCopyMs)
  | 34 => .of ((rdC g).map .aCopySm)
  | 35 => .of ((rdC g).map .aCopyl)
  | 36 => .of ((rdC g).map .aSdrain)
  | 37 => .of ((rdC g).map .aScrub)
  | 38 => .of ((rdC g).map .aLdt)
  | _ => .illegal

/-- The a engine's P1 map. -/
def decAP1 (w : Word) : DecRes :=
  let f := FR.ofWord w
  let g := FC.ofWord w
  match (fld 64 w 2).val with
  | 0 => .of ((rdK f).map .aAddK)
  | 1 => .of ((rdK f).map .aSubK)
  | 2 => .of ((rdK f).map .aMulK)
  | 3 => .of ((rdK f).map .aShlK)
  | 4 => .of ((rdK f).map .aShrK)
  | 6 => .of ((rdCmpK f).map .aCmpK)
  | 32 => .of ((rdC g).map .aCopyMmLen)
  | 33 => .of ((rdC g).map .aCopyMsLen)
  | 34 => .of ((rdC g).map .aCopySmLen)
  | _ => .illegal

/-- The a engine's W map. -/
def decAW (w x : Word) : DecRes :=
  let f := FR.ofWord w
  let g := FC.ofWord w
  match (fld 64 w 2).val with
  | 0 => .of ((rdLi f x).map .aLi)
  | 1 => .of ((rdPtgtL f x).map .aPtgt)
  | 2 => .of ((rdLoop f x).map .aLoop)
  | 3 => .of (do let y ← rdC g; let e ← rdCopyExt x; some (.aCopyWide y e))
  | 4 => .of (do let y ← rdC g; let e ← rdCopybExt x; some (.aCopyb y e))
  | 5 => .of (do let y ← rdC g; let e ← rdMcastExt x; some (.aMcast y e))
  | 6 => .of ((rdNsetW f x).map .aNsetWide)
  | 7 => .of ((rdSsetI f x).map .aSsetImm)
  | _ => .illegal

/-- The v engine's P0 map. -/
def decVP0 (w : Word) : DecRes :=
  let f := FR.ofWord w
  match (fld 64 w 2).val with
  | 0 => .of ((rdR f).map .vVadd)
  | 1 => .of ((rdR f).map .vVsub)
  | 2 => .of ((rdR f).map .vVmul)
  | 3 => .of ((rdR f).map .vVmad)
  | 4 => .of ((rdR f).map .vVand)
  | 5 => .of ((rdR f).map .vVor)
  | 6 => .of ((rdR f).map .vVxor)
  | 7 => .of ((rdR f).map .vVshl)
  | 8 => .of ((rdR f).map .vVshr)
  | 9 => .of ((rdR f).map .vVsar)
  | 10 => .of ((rdR f).map .vVmin)
  | 11 => .of ((rdR f).map .vVmax)
  | 12 => .of ((rdU f).map .vVabs)
  | 13 => .of ((rdCmp f).map .vVcmp)
  | 14 => .of ((rdVsel f).map .vVsel)
  | 16 => .of ((rdR f).map .vVfadd)
  | 17 => .of ((rdR f).map .vVfsub)
  | 18 => .of ((rdR f).map .vVfmul)
  | 19 => .of ((rdR f).map .vVfma)
  | 20 => .of ((rdR f).map .vVfmin)
  | 21 => .of ((rdR f).map .vVfmax)
  | 22 => .of ((rdCmp f).map .vVfcmp)
  | 23 => .of ((rdU f).map .vVrcp)
  | 24 => .of ((rdU f).map .vVrsq)
  | 25 => .of ((rdU f).map .vVexp2)
  | 26 => .of ((rdU f).map .vVlog2)
  | 32 => .of ((rdVcvt f).map .vVcvt)
  | 33 => .of ((rdR f).map .vVpack)
  | 34 => .of ((rdVunpk f).map .vVunpk)
  | 35 => .of ((rdR f).map .vVscale)
  | 36 => .of ((rdVred f).map .vVred)
  | 37 => .of ((rdVscan f).map .vVscan)
  | 38 => .of ((rdR f).map .vVperm)
  | 39 => .of ((rdIdx f).map .vVbcast)
  | 40 => .of ((rdViota f).map .vViota)
  | 41 => .of ((rdIdx f).map .vVext)
  | 42 => .of ((rdVote f).map .vVany)
  | 43 => .of ((rdVote f).map .vVall)
  | 44 => .of ((rdU f).map .vVld)
  | 45 => .of ((rdU f).map .vVst)
  | 46 => .of ((rdR f).map .vVldx)
  | 47 => .of ((rdR f).map .vVstx)
  | 48 => .of ((rdR f).map .vVamo)
  | 49 => .of ((rdBlend f).map .vBlend)
  | 50 => .of ((rdJt f).map .vJt)
  | _ => .illegal

/-- The v engine's P1 map. -/
def decVP1 (w : Word) : DecRes :=
  let f := FR.ofWord w
  match (fld 64 w 2).val with
  | 0 => .of ((rdR f).map .vVaddP1)
  | 1 => .of ((rdR f).map .vVsubP1)
  | 2 => .of ((rdR f).map .vVmulP1)
  | 3 => .of ((rdR f).map .vVmadP1)
  | 7 => .of ((rdR f).map .vVshlP1)
  | 8 => .of ((rdR f).map .vVshrP1)
  | 9 => .of ((rdR f).map .vVsarP1)
  | 10 => .of ((rdR f).map .vVminP1)
  | 11 => .of ((rdR f).map .vVmaxP1)
  | 12 => .of ((rdU f).map .vVabsP1)
  | 13 => .of ((rdCmp f).map .vVcmpP1)
  | 14 => .of ((rdVsel f).map .vVselP1)
  | 16 => .of ((rdR f).map .vVfaddP1)
  | 17 => .of ((rdR f).map .vVfsubP1)
  | 18 => .of ((rdR f).map .vVfmulP1)
  | 19 => .of ((rdR f).map .vVfmaP1)
  | 20 => .of ((rdR f).map .vVfminP1)
  | 21 => .of ((rdR f).map .vVfmaxP1)
  | 22 => .of ((rdCmp f).map .vVfcmpP1)
  | 23 => .of ((rdU f).map .vVrcpP1)
  | 24 => .of ((rdU f).map .vVrsqP1)
  | 25 => .of ((rdU f).map .vVexp2P1)
  | 26 => .of ((rdU f).map .vVlog2P1)
  | 34 => .of ((rdVunpk f).map .vVunpkP1)
  | 36 => .of ((rdVred f).map .vVredP1)
  | 37 => .of ((rdVscan f).map .vVscanP1)
  | 38 => .of ((rdR f).map .vVpermP1)
  | 39 => .of ((rdIdx f).map .vVbcastP1)
  | 40 => .of ((rdViota f).map .vViotaP1)
  | 41 => .of ((rdIdx f).map .vVextP1)
  | 44 => .of ((rdU f).map .vVldP1)
  | 45 => .of ((rdU f).map .vVstP1)
  | 46 => .of ((rdR f).map .vVldxP1)
  | 47 => .of ((rdR f).map .vVstxP1)
  | 48 => .of ((rdR f).map .vVamoP1)
  | _ => .illegal

/-- The v engine's W map. -/
noncomputable def decVW (w x : Word) : DecRes :=
  let f := FR.ofWord w
  match (fld 64 w 2).val with
  | 0 => .of (if low16 x ≠ 0 then none else do let y ← rdRW f x; let e ← rdVExt x; some (.vVaddW y e))
  | 1 => .of (if low16 x ≠ 0 then none else do let y ← rdRW f x; let e ← rdVExt x; some (.vVsubW y e))
  | 2 => .of (if low16 x ≠ 0 then none else do let y ← rdRW f x; let e ← rdVExt x; some (.vVmulW y e))
  | 3 => .of (if low16 x ≠ 0 then none else do let y ← rdRW f x; let e ← rdVExt x; some (.vVmadW y e))
  | 4 => .of (if low16 x ≠ 0 then none else do let y ← rdRW f x; let e ← rdVExt x; some (.vVandW y e))
  | 5 => .of (if low16 x ≠ 0 then none else do let y ← rdRW f x; let e ← rdVExt x; some (.vVorW y e))
  | 6 => .of (if low16 x ≠ 0 then none else do let y ← rdRW f x; let e ← rdVExt x; some (.vVxorW y e))
  | 7 => .of (if low16 x ≠ 0 then none else do let y ← rdRW f x; let e ← rdVExt x; some (.vVshlW y e))
  | 8 => .of (if low16 x ≠ 0 then none else do let y ← rdRW f x; let e ← rdVExt x; some (.vVshrW y e))
  | 9 => .of (if low16 x ≠ 0 then none else do let y ← rdRW f x; let e ← rdVExt x; some (.vVsarW y e))
  | 10 => .of (if low16 x ≠ 0 then none else do let y ← rdRW f x; let e ← rdVExt x; some (.vVminW y e))
  | 11 => .of (if low16 x ≠ 0 then none else do let y ← rdRW f x; let e ← rdVExt x; some (.vVmaxW y e))
  | 12 => .of (if low16 x ≠ 0 then none else do let y ← rdUW f x; let e ← rdVExt x; some (.vVabsW y e))
  | 13 => .of (if low16 x ≠ 0 then none else do let y ← rdCmpW f x; let e ← rdVExt x; some (.vVcmpW y e))
  | 14 => .of (if low16 x ≠ 0 then none else do let y ← rdVselW f x; let e ← rdVExt x; some (.vVselW y e))
  | 16 => .of (if low16 x ≠ 0 then none else do let y ← rdRW f x; let e ← rdVExt x; some (.vVfaddW y e))
  | 17 => .of (if low16 x ≠ 0 then none else do let y ← rdRW f x; let e ← rdVExt x; some (.vVfsubW y e))
  | 18 => .of (if low16 x ≠ 0 then none else do let y ← rdRW f x; let e ← rdVExt x; some (.vVfmulW y e))
  | 19 => .of (if low16 x ≠ 0 then none else do let y ← rdRW f x; let e ← rdVExt x; some (.vVfmaW y e))
  | 20 => .of (if low16 x ≠ 0 then none else do let y ← rdRW f x; let e ← rdVExt x; some (.vVfminW y e))
  | 21 => .of (if low16 x ≠ 0 then none else do let y ← rdRW f x; let e ← rdVExt x; some (.vVfmaxW y e))
  | 22 => .of (if low16 x ≠ 0 then none else do let y ← rdCmpW f x; let e ← rdVExt x; some (.vVfcmpW y e))
  | 23 => .of (if low16 x ≠ 0 then none else do let y ← rdUW f x; let e ← rdVExt x; some (.vVrcpW y e))
  | 24 => .of (if low16 x ≠ 0 then none else do let y ← rdUW f x; let e ← rdVExt x; some (.vVrsqW y e))
  | 25 => .of (if low16 x ≠ 0 then none else do let y ← rdUW f x; let e ← rdVExt x; some (.vVexp2W y e))
  | 26 => .of (if low16 x ≠ 0 then none else do let y ← rdUW f x; let e ← rdVExt x; some (.vVlog2W y e))
  | 32 => .of (if low16 x ≠ 0 then none else do let y ← rdVcvtW f x; let e ← rdVExt x; some (.vVcvtW y e))
  | 33 => .of (do let y ← rdRW f x; let e ← rdVExt x; let p ← rdPackExt x; some (.vVpackW y e p))
  | 34 => .of (do let y ← rdVunpkW f x; let e ← rdVExt x; let p ← rdUnpkExt x; some (.vVunpkW y e p))
  | 35 => .of (if low16 x ≠ 0 then none else do let y ← rdRW f x; let e ← rdVExt x; some (.vVscaleW y e))
  | 36 => .of (if low16 x ≠ 0 then none else do let y ← rdVredW f x; let e ← rdVExt x; some (.vVredW y e))
  | 37 => .of (if low16 x ≠ 0 then none else do let y ← rdVscanW f x; let e ← rdVExt x; some (.vVscanW y e))
  | 38 => .of (if low16 x ≠ 0 then none else do let y ← rdRW f x; let e ← rdVExt x; some (.vVpermW y e))
  | 39 => .of (do let y ← rdIdxW f x; let e ← rdVExt x; some (.vVbcastW y e))
  | 40 => .of (if low16 x ≠ 0 then none else do let y ← rdViotaW f x; let e ← rdVExt x; some (.vViotaW y e))
  | 41 => .of (do let y ← rdIdxW f x; let e ← rdVExt x; some (.vVextW y e))
  | 44 => .of (do let y ← rdUW f x; let e ← rdVExt x; some (.vVldW y e (BitVec.ofNat 16 x.toNat)))
  | 45 => .of (do let y ← rdUW f x; let e ← rdVExt x; some (.vVstW y e (BitVec.ofNat 16 x.toNat)))
  | 46 => .of (do let y ← rdRW f x; let e ← rdVExt x; some (.vVldxW y e (BitVec.ofNat 16 x.toNat)))
  | 47 => .of (do let y ← rdRW f x; let e ← rdVExt x; some (.vVstxW y e (BitVec.ofNat 16 x.toNat)))
  | 48 => .of (do let y ← rdRW f x; let e ← rdVExt x; let op ← AmoOp.ofCode (low16 x / 2 ^ 12); some (.vVamoW y e op (BitVec.ofNat 12 x.toNat)))
  | 62 => .of ((rdLoop f x).map .vLoop)
  | 63 => .of ((rdPtgtL f x).map .vPtgt)
  | _ => .illegal

/-- The m engine's P0 map. -/
noncomputable def decMP0 (w : Word) : DecRes :=
  let f := FR.ofWord w
  let g := FC.ofWord w
  match (fld 64 w 2).val with
  | 0 => .of ((rdMclr f).map .mMclr)
  | 1 => .of ((rdMstat f).map .mMstat)
  | 2 => .of ((rdBret f).map .mBret)
  | 32 => .of (if g.o3.val / 2 % 2 = 1 then ((rdNorm 4 g).map .mMnormTight) else ((rdNorm 4 g).map .mMnormGrow))
  | 33 => .of ((rdMrd g).map .mMrd)
  | 34 => .of ((rdMrd g).map .mMwr)
  | 35 => .of (if g.o3.val / 8 % 2 = 1 then ((rdMexp g).map .mMexpSet) else ((rdMexp g).map .mMexpGet))
  | _ => .illegal

/-- The m engine's W map. -/
noncomputable def decMW (w x : Word) : DecRes :=
  let g := FC.ofWord w
  match (fld 64 w 2).val with
  | 0 => .of (do let y ← rdC g; let e ← rdMmaExt x; some (.mMma y e))
  | 1 => .of (do let y ← rdC g; let e ← rdMmaExt x; some (.mMmas y e))
  | _ => .illegal

/-- The d engine's P0 map. -/
noncomputable def decDP0 (w : Word) : DecRes :=
  let f := FR.ofWord w
  let g := FC.ofWord w
  match (fld 64 w 2).val with
  | 0 => .of ((rdDclr f).map .dDclr)
  | 2 => .of ((rdBret f).map .dBret)
  | 32 => .of (if g.o3.val / 2 % 2 = 1 then ((rdNorm 2 g).map .dDnormTight) else ((rdNorm 2 g).map .dDnormGrow))
  | 33 => .of ((rdDrd g).map .dDrd)
  | _ => .illegal

/-- The d engine's W map. -/
noncomputable def decDW (w x : Word) : DecRes :=
  let g := FC.ofWord w
  match (fld 64 w 2).val with
  | 0 => .of ((rdDmv g x).map .dDmv)
  | 1 => .of ((rdDmv g x).map .dDqk)
  | 2 => .of ((rdDmv g x).map .dDpv)
  | _ => .illegal

/-- The g engine's P0 map. -/
noncomputable def decGP0 (w : Word) : DecRes :=
  let f := FR.ofWord w
  match (fld 64 w 2).val with
  | 0 => .of ((rdGcfg f).map .gGcfg)
  | _ => .illegal

/-- The g engine's W map. -/
noncomputable def decGW (w x : Word) : DecRes :=
  let g := FC.ofWord w
  match (fld 64 w 2).val with
  | 0 => .of ((rdGld g x).map .gGld)
  | 1 => .of ((rdGld g x).map .gGsc)
  | _ => .illegal

/-- A prefix word of engine `e` (R92): `reserved` where its own fields break R92 or R96. -/
def decPrefix (e : Eng) (w : Word) : DecRes :=
  if w.toNat / 2 ^ 9 ≠ 0 then .reserved
  else if bitAt w 2 then .of ((Ord.ofCode (w.toNat / 2 ^ 3 % 64)).map (.pfxo e))
  else .of ((Rm.ofCode (w.toNat / 2 ^ 4 % 8)).map fun r => .pfx e (bitAt w 3) r (bitAt w 7) (bitAt w 8))

/-- One decoding step of engine `e` (R84): `w` begins it, `x` is the word after it, read by wide forms only. -/
noncomputable def decodeStep (e : Eng) (w x : Word) : DecRes :=
  match (fld 4 w 0).val, e with
  | 0, .c => decCP0 w
  | 1, .c => decCP1 w
  | 3, .c => decCW w x
  | 0, .a => decAP0 w
  | 1, .a => decAP1 w
  | 3, .a => decAW w x
  | 0, .v => decVP0 w
  | 1, .v => decVP1 w
  | 3, .v => decVW w x
  | 0, .m => decMP0 w
  | 3, .m => decMW w x
  | 0, .d => decDP0 w
  | 3, .d => decDW w x
  | 0, .g => decGP0 w
  | 3, .g => decGW w x
  | 2, e => decPrefix e w
  | _, _ => .illegal

/-! The encoder. -/

/-- A narrow word of format R. -/
def enc (l op : Nat) (p : Pred) (ps : Fin 4) (d a b : Fin 64) : Word :=
  FR.toWord { ps := ps, b := b, a := a, d := d, pred := p, op := Fin.ofNat 64 op, l := Fin.ofNat 4 l }

/-- A word of format C. -/
def encC (l op : Nat) (p : Pred) (attr o1 o2 o3 : Fin 32) : Word :=
  FC.toWord { attr := attr, o1 := o1, o2 := o2, o3 := o3, pred := p, op := Fin.ofNat 64 op, l := Fin.ofNat 4 l }

/-- The D field of a comparison (R109). -/
def cmpD (r : Rel) (pd : Fin 8) : Fin 64 := Fin.ofNat 64 (r.code * 8 + pd.val)

/-- The upper half of a wide vector form's EXT. -/
def vextBits (pd pa pb : Bool) (e : VExt) : Nat :=
  e.ty.code * 2 ^ 28 + digit pd * 2 ^ 27 + digit pa * 2 ^ 26 + digit pb * 2 ^ 25 + digit e.rmv * 2 ^ 24 +
    e.rm.code * 2 ^ 21 + digit e.sat * 2 ^ 20 + digit e.ftz * 2 ^ 19 + e.mask.val * 2 ^ 16

def encVX (pd pa pb : Bool) (e : VExt) (low : Nat) : Word := BitVec.ofNat 32 (vextBits pd pa pb e + low)

def CopyExt.toWord (e : CopyExt) : Word :=
  BitVec.ofNat 32 (e.kind.val * 2 ^ 30 + digit e.tr * 2 ^ 29 + e.esz.val * 2 ^ 27 + e.dom.val * 2 ^ 22 +
    digit e.fd * 2 ^ 21 + digit e.lk * 2 ^ 20 + e.soff.toNat * 2 ^ 10 + e.doff.toNat)

def CopybExt.toWord (e : CopybExt) : Word :=
  BitVec.ofNat 32 (digit e.scatter * 2 ^ 31 + e.imode.val * 2 ^ 29 + digit e.add * 2 ^ 28 + e.ex0.val * 2 ^ 24 +
    e.ex1.val * 2 ^ 20 + e.ex2.val * 2 ^ 16 + e.ex3.val * 2 ^ 12 + e.nidx.toNat)

def McastExt.toWord (e : McastExt) : Word :=
  BitVec.ofNat 32 (e.group.val * 2 ^ 24 + e.n.val * 2 ^ 18 + digit e.ac * 2 ^ 17 + e.sbc.toNat * 2 ^ 5)

def MmaExt.toWord (e : MmaExt) : Word :=
  BitVec.ofNat 32 (e.fa.val * 2 ^ 28 + e.fb.val * 2 ^ 24 + e.acc.val * 2 ^ 22 + digit e.ka * 2 ^ 21 +
    digit e.kb * 2 ^ 20 + e.cta.val * 2 ^ 17 + e.ctb.val * 2 ^ 14)

def AmoArgs.ext (x : AmoArgs) : Word :=
  BitVec.ofNat 32 (x.op.code * 2 ^ 28 + digit x.w64 * 2 ^ 27 + x.ord.code * 2 ^ 21 + x.off.toNat)

def LdWArgs.ext (x : LdWArgs) : Word := BitVec.ofNat 32 (x.wid.code * 2 ^ 30 + x.off.toNat)

def DmvArgs.ext (x : DmvArgs) : Word :=
  BitVec.ofNat 32 (x.bank.val * 2 ^ 29 + x.nb1.val * 2 ^ 26 + digit x.rf * 2 ^ 25 + x.dacc.val * 2 ^ 24 +
    x.nr1.val * 2 ^ 18)

def GldArgs.ext (x : GldArgs) : Word := BitVec.ofNat 32 (x.lb.val * 2 ^ 27 + x.ln1.val * 2 ^ 22)

def PackExt.bits (f : PackExt) : Nat := f.df.val * 2 ^ 12 + digit f.dfv * 2 ^ 11 + f.hq.val * 2 ^ 9

def UnpkExt.bits (f : UnpkExt) : Nat := f.sf.val * 2 ^ 12 + digit f.sfv * 2 ^ 11

def VunpkArgs.b (x : VunpkArgs) : Fin 64 := Fin.ofNat 64 (x.chunk.val + digit x.keep * 32)

def VscanArgs.b (x : VscanArgs) : Fin 64 := Fin.ofNat 64 (x.op.code + digit x.excl * 16)

/-- The words of an instruction, from the encoding tables (R86 to R102); events have none. -/
def encode : Instr → List Word
  | .cAdd x => [enc 0 0 x.pred (psOf x.d.isPort x.a.isPort x.b.isPort) x.d.code x.a.code x.b.code]
  | .cSub x => [enc 0 1 x.pred (psOf x.d.isPort x.a.isPort x.b.isPort) x.d.code x.a.code x.b.code]
  | .cMul x => [enc 0 2 x.pred (psOf x.d.isPort x.a.isPort x.b.isPort) x.d.code x.a.code x.b.code]
  | .cMulh x => [enc 0 3 x.pred (psOf x.d.isPort x.a.isPort x.b.isPort) x.d.code x.a.code x.b.code]
  | .cMulhu x => [enc 0 4 x.pred (psOf x.d.isPort x.a.isPort x.b.isPort) x.d.code x.a.code x.b.code]
  | .cDiv x => [enc 0 5 x.pred (psOf x.d.isPort x.a.isPort x.b.isPort) x.d.code x.a.code x.b.code]
  | .cDivu x => [enc 0 6 x.pred (psOf x.d.isPort x.a.isPort x.b.isPort) x.d.code x.a.code x.b.code]
  | .cRem x => [enc 0 7 x.pred (psOf x.d.isPort x.a.isPort x.b.isPort) x.d.code x.a.code x.b.code]
  | .cRemu x => [enc 0 8 x.pred (psOf x.d.isPort x.a.isPort x.b.isPort) x.d.code x.a.code x.b.code]
  | .cAnd x => [enc 0 9 x.pred (psOf x.d.isPort x.a.isPort x.b.isPort) x.d.code x.a.code x.b.code]
  | .cOr x => [enc 0 10 x.pred (psOf x.d.isPort x.a.isPort x.b.isPort) x.d.code x.a.code x.b.code]
  | .cXor x => [enc 0 11 x.pred (psOf x.d.isPort x.a.isPort x.b.isPort) x.d.code x.a.code x.b.code]
  | .cAndn x => [enc 0 12 x.pred (psOf x.d.isPort x.a.isPort x.b.isPort) x.d.code x.a.code x.b.code]
  | .cShl x => [enc 0 13 x.pred (psOf x.d.isPort x.a.isPort x.b.isPort) x.d.code x.a.code x.b.code]
  | .cShr x => [enc 0 14 x.pred (psOf x.d.isPort x.a.isPort x.b.isPort) x.d.code x.a.code x.b.code]
  | .cSar x => [enc 0 15 x.pred (psOf x.d.isPort x.a.isPort x.b.isPort) x.d.code x.a.code x.b.code]
  | .cRot x => [enc 0 16 x.pred (psOf x.d.isPort x.a.isPort x.b.isPort) x.d.code x.a.code x.b.code]
  | .cMin x => [enc 0 17 x.pred (psOf x.d.isPort x.a.isPort x.b.isPort) x.d.code x.a.code x.b.code]
  | .cMax x => [enc 0 18 x.pred (psOf x.d.isPort x.a.isPort x.b.isPort) x.d.code x.a.code x.b.code]
  | .cMinu x => [enc 0 19 x.pred (psOf x.d.isPort x.a.isPort x.b.isPort) x.d.code x.a.code x.b.code]
  | .cMaxu x => [enc 0 20 x.pred (psOf x.d.isPort x.a.isPort x.b.isPort) x.d.code x.a.code x.b.code]
  | .cSel x => [enc 0 21 x.pred (psOf x.d.isPort x.a.isPort x.b.isPort) x.d.code x.a.code x.b.code]
  | .cBfx x => [enc 0 22 x.pred (psOf x.d.isPort x.a.isPort x.b.isPort) x.d.code x.a.code x.b.code]
  | .cBfi x => [enc 0 23 x.pred (psOf x.d.isPort x.a.isPort x.b.isPort) x.d.code x.a.code x.b.code]
  | .cClz x => [enc 0 24 x.pred (psOf x.d.isPort x.a.isPort false) x.d.code x.a.code 0]
  | .cCtz x => [enc 0 25 x.pred (psOf x.d.isPort x.a.isPort false) x.d.code x.a.code 0]
  | .cPopc x => [enc 0 26 x.pred (psOf x.d.isPort x.a.isPort false) x.d.code x.a.code 0]
  | .cSext x => [enc 0 27 x.pred (psOf x.d.isPort x.a.isPort x.b.isPort) x.d.code x.a.code x.b.code]
  | .cZext x => [enc 0 28 x.pred (psOf x.d.isPort x.a.isPort x.b.isPort) x.d.code x.a.code x.b.code]
  | .cMov x => [enc 0 29 x.pred (psOf x.d.isPort x.a.isPort false) x.d.code x.a.code 0]
  | .cCmp x => [enc 0 30 x.pred (psOf false x.a.isPort x.b.isPort) (cmpD x.rel x.pd) x.a.code x.b.code]
  | .cPand x => [enc 0 31 x.pred 0 (wid 64 x.d) (wid 64 x.a) (wid 64 x.b)]
  | .cPor x => [enc 0 32 x.pred 0 (wid 64 x.d) (wid 64 x.a) (wid 64 x.b)]
  | .cPnot x => [enc 0 33 x.pred 0 (wid 64 x.d) (wid 64 x.a) 0]
  | .cFadd x => [enc 0 34 x.pred (psOf x.d.isPort x.a.isPort x.b.isPort) x.d.code x.a.code x.b.code]
  | .cFsub x => [enc 0 35 x.pred (psOf x.d.isPort x.a.isPort x.b.isPort) x.d.code x.a.code x.b.code]
  | .cFmul x => [enc 0 36 x.pred (psOf x.d.isPort x.a.isPort x.b.isPort) x.d.code x.a.code x.b.code]
  | .cFma x => [enc 0 37 x.pred (psOf x.d.isPort x.a.isPort x.b.isPort) x.d.code x.a.code x.b.code]
  | .cFmin x => [enc 0 38 x.pred (psOf x.d.isPort x.a.isPort x.b.isPort) x.d.code x.a.code x.b.code]
  | .cFmax x => [enc 0 39 x.pred (psOf x.d.isPort x.a.isPort x.b.isPort) x.d.code x.a.code x.b.code]
  | .cFcvt x => [enc 0 40 x.pred (psOf x.d.isPort x.a.isPort false) x.d.code x.a.code (Fin.ofNat 64 (x.src.code * 8 + x.dst.code))]
  | .cFcmp x => [enc 0 41 x.pred (psOf false x.a.isPort x.b.isPort) (cmpD x.rel x.pd) x.a.code x.b.code]
  | .cPtgt x => [enc 0 42 x.pred (psOf false x.a.isPort false) (wid 64 x.b) x.a.code 0]
  | .cJt x => [enc 0 43 x.pred 0 0 (wid 64 x.b) 0]
  | .cJtl x => [enc 0 44 x.pred (psOf x.d.isPort false false) x.d.code (wid 64 x.b) 0]
  | .cFence x => [enc 0 45 x.pred 0 (Fin.ofNat 64 x.ord.code) 0 0]
  | .cTkset x => [enc 0 46 x.pred 0 0 x.f 0]
  | .cTkwait x => [enc 0 47 x.pred 0 0 x.f 0]
  | .cTkclr x => [enc 0 48 x.pred 0 0 x.f 0]
  | .cGset x => [enc 0 49 x.pred 0 (wid 64 x.gs) (wid 64 x.p) 0]
  | .cGbar x => [enc 0 50 x.pred (psOf false x.a.isPort false) 0 x.a.code 0]
  | .cCsrr x => [enc 0 51 x.pred (psOf x.d.isPort false false) x.d.code (Fin.ofNat 64 x.csr.code) 0]
  | .cCsrw x => [enc 0 52 x.pred (psOf false false x.b.isPort) 0 (Fin.ofNat 64 x.csr.code) x.b.code]
  | .cRclaim x => [enc 0 53 x.pred (psOf x.d.isPort false x.n.isQ) x.d.code (wid 64 x.ring) x.n.code]
  | .cRpub x => [enc 0 54 x.pred (psOf false false x.n.isQ) (Fin.ofNat 64 x.ord.code) (wid 64 x.ring) x.n.code]
  | .cRwait x => [enc 0 55 x.pred (psOf false false x.n.isQ) (Fin.ofNat 64 x.ord.code) (wid 64 x.ring) x.n.code]
  | .cRfree x => [enc 0 56 x.pred (psOf false false x.n.isQ) 0 (wid 64 x.ring) x.n.code]
  | .cRrel x => [enc 0 57 x.pred (psOf false false x.n.isQ) 0 (wid 64 x.ring) x.n.code]
  | .cRpopn x => [enc 0 58 x.pred (psOf x.d.isPort x.a.isPort x.b.isPort) x.d.code x.a.code x.b.code]
  | .cTrap x => [enc 0 59 x.pred (psOf false x.a.isPort false) 0 x.a.code 0]
  | .cHalt x => [enc 0 60 x.pred 0 0 0 0]
  | .cNop x => [enc 0 61 x.pred 0 0 0 0]
  | .cAddK x => [enc 1 0 x.pred (psOf x.d.isPort x.a.isPort false) x.d.code x.a.code (Fin.ofNat 64 x.imm.toNat)]
  | .cSubK x => [enc 1 1 x.pred (psOf x.d.isPort x.a.isPort false) x.d.code x.a.code (Fin.ofNat 64 x.imm.toNat)]
  | .cMulK x => [enc 1 2 x.pred (psOf x.d.isPort x.a.isPort false) x.d.code x.a.code (Fin.ofNat 64 x.imm.toNat)]
  | .cMulhK x => [enc 1 3 x.pred (psOf x.d.isPort x.a.isPort false) x.d.code x.a.code (Fin.ofNat 64 x.imm.toNat)]
  | .cMulhuK x => [enc 1 4 x.pred (psOf x.d.isPort x.a.isPort false) x.d.code x.a.code (Fin.ofNat 64 x.imm.toNat)]
  | .cDivK x => [enc 1 5 x.pred (psOf x.d.isPort x.a.isPort false) x.d.code x.a.code (Fin.ofNat 64 x.imm.toNat)]
  | .cDivuK x => [enc 1 6 x.pred (psOf x.d.isPort x.a.isPort false) x.d.code x.a.code (Fin.ofNat 64 x.imm.toNat)]
  | .cRemK x => [enc 1 7 x.pred (psOf x.d.isPort x.a.isPort false) x.d.code x.a.code (Fin.ofNat 64 x.imm.toNat)]
  | .cRemuK x => [enc 1 8 x.pred (psOf x.d.isPort x.a.isPort false) x.d.code x.a.code (Fin.ofNat 64 x.imm.toNat)]
  | .cAndK x => [enc 1 9 x.pred (psOf x.d.isPort x.a.isPort false) x.d.code x.a.code (Fin.ofNat 64 x.imm.toNat)]
  | .cOrK x => [enc 1 10 x.pred (psOf x.d.isPort x.a.isPort false) x.d.code x.a.code (Fin.ofNat 64 x.imm.toNat)]
  | .cXorK x => [enc 1 11 x.pred (psOf x.d.isPort x.a.isPort false) x.d.code x.a.code (Fin.ofNat 64 x.imm.toNat)]
  | .cAndnK x => [enc 1 12 x.pred (psOf x.d.isPort x.a.isPort false) x.d.code x.a.code (Fin.ofNat 64 x.imm.toNat)]
  | .cShlK x => [enc 1 13 x.pred (psOf x.d.isPort x.a.isPort false) x.d.code x.a.code (Fin.ofNat 64 x.imm.toNat)]
  | .cShrK x => [enc 1 14 x.pred (psOf x.d.isPort x.a.isPort false) x.d.code x.a.code (Fin.ofNat 64 x.imm.toNat)]
  | .cSarK x => [enc 1 15 x.pred (psOf x.d.isPort x.a.isPort false) x.d.code x.a.code (Fin.ofNat 64 x.imm.toNat)]
  | .cRotK x => [enc 1 16 x.pred (psOf x.d.isPort x.a.isPort false) x.d.code x.a.code (Fin.ofNat 64 x.imm.toNat)]
  | .cMinK x => [enc 1 17 x.pred (psOf x.d.isPort x.a.isPort false) x.d.code x.a.code (Fin.ofNat 64 x.imm.toNat)]
  | .cMaxK x => [enc 1 18 x.pred (psOf x.d.isPort x.a.isPort false) x.d.code x.a.code (Fin.ofNat 64 x.imm.toNat)]
  | .cMinuK x => [enc 1 19 x.pred (psOf x.d.isPort x.a.isPort false) x.d.code x.a.code (Fin.ofNat 64 x.imm.toNat)]
  | .cMaxuK x => [enc 1 20 x.pred (psOf x.d.isPort x.a.isPort false) x.d.code x.a.code (Fin.ofNat 64 x.imm.toNat)]
  | .cCmpK x => [enc 1 30 x.pred (psOf false x.a.isPort false) (cmpD x.rel x.pd) x.a.code (Fin.ofNat 64 x.imm.toNat)]
  | .cLdB x => [enc 1 32 x.pred (psOf x.d.isPort false false) x.d.code x.a (Fin.ofNat 64 x.off.toNat)]
  | .cLdH x => [enc 1 33 x.pred (psOf x.d.isPort false false) x.d.code x.a (Fin.ofNat 64 x.off.toNat)]
  | .cLdW x => [enc 1 34 x.pred (psOf x.d.isPort false false) x.d.code x.a (Fin.ofNat 64 x.off.toNat)]
  | .cLdD x => [enc 1 35 x.pred (psOf x.d.isPort false false) x.d.code x.a (Fin.ofNat 64 x.off.toNat)]
  | .cStB x => [enc 1 36 x.pred (psOf x.d.isPort false false) x.d.code x.a (Fin.ofNat 64 x.off.toNat)]
  | .cStH x => [enc 1 37 x.pred (psOf x.d.isPort false false) x.d.code x.a (Fin.ofNat 64 x.off.toNat)]
  | .cStW x => [enc 1 38 x.pred (psOf x.d.isPort false false) x.d.code x.a (Fin.ofNat 64 x.off.toNat)]
  | .cStD x => [enc 1 39 x.pred (psOf x.d.isPort false false) x.d.code x.a (Fin.ofNat 64 x.off.toNat)]
  | .cKlaunch x => [enc 1 40 x.pred (psOf x.d.isPort x.a.isPort false) x.d.code x.a.code 0]
  | .cKxfer x => [enc 1 41 x.pred (psOf x.d.isPort x.a.isPort false) x.d.code x.a.code 0]
  | .cProg x => [enc 1 42 x.pred (psOf false x.a.isPort false) 0 x.a.code 0]
  | .cPhadv x => [enc 1 43 x.pred 0 0 0 0]
  | .cPhadvLate x => [enc 1 43 x.pred 0 0 0 1]
  | .cPhset x => [enc 1 44 x.pred (psOf false x.a.isPort false) 0 x.a.code 0]
  | .cPhwait x => [enc 1 45 x.pred 0 0 0 0]
  | .cSgret x => [enc 1 46 x.pred 0 0 0 0]
  | .cAccept x => [enc 1 47 x.pred (psOf x.d.isPort false false) x.d.code 0 (Fin.ofNat 64 (digit x.tol))]
  | .cScommit x => [enc 1 48 x.pred 0 0 0 0]
  | .cSclose x => [enc 1 49 x.pred 0 0 0 0]
  | .cCtwr x => [enc 1 50 x.pred (psOf false x.a.isPort false) (wid 64 x.ct) x.a.code 0]
  | .cCtswap x => [enc 1 51 x.pred 0 (wid 64 x.ct) 0 0]
  | .cLi x => [enc 3 0 x.pred (psOf x.d.isPort false false) x.d.code 0 0, x.imm]
  | .cPtgtLabel x => [enc 3 1 x.pred 0 (wid 64 x.b) 0 0, x.tgt.toWord]
  | .cLoop x => [enc 3 2 x.pred (psOf false x.a.isPort false) (wid 64 x.lc) x.a.code 0, x.stop.toWord]
  | .cAmo x => [enc 3 3 x.pred 0 x.d x.a x.b, x.ext]
  | .cScout x => [enc 3 4 x.pred (psOf false x.a.isPort false) x.k x.a.code 0, x.guess.toWord]
  | .cLdWide x => [enc 3 5 x.pred (psOf x.d.isPort false false) x.d.code x.a 0, x.ext]
  | .cStWide x => [enc 3 6 x.pred (psOf x.d.isPort false false) x.d.code x.a 0, x.ext]
  | .cTkwaitTimeout x => [enc 3 7 x.pred 0 (wid 64 x.pd) x.f 0, x.t]
  | .pfx _ rmv rm sat ftz => [BitVec.ofNat 32 (2 + digit rmv * 2 ^ 3 + rm.code * 2 ^ 4 + digit sat * 2 ^ 7 + digit ftz * 2 ^ 8)]
  | .pfxo _ ord => [BitVec.ofNat 32 (2 + 2 ^ 2 + ord.code * 2 ^ 3)]
  | .aAdd x => [enc 0 0 x.pred (psOf x.d.isPort x.a.isPort x.b.isPort) x.d.code x.a.code x.b.code]
  | .aSub x => [enc 0 1 x.pred (psOf x.d.isPort x.a.isPort x.b.isPort) x.d.code x.a.code x.b.code]
  | .aMul x => [enc 0 2 x.pred (psOf x.d.isPort x.a.isPort x.b.isPort) x.d.code x.a.code x.b.code]
  | .aShl x => [enc 0 3 x.pred (psOf x.d.isPort x.a.isPort x.b.isPort) x.d.code x.a.code x.b.code]
  | .aShr x => [enc 0 4 x.pred (psOf x.d.isPort x.a.isPort x.b.isPort) x.d.code x.a.code x.b.code]
  | .aMov x => [enc 0 5 x.pred (psOf x.d.isPort x.a.isPort false) x.d.code x.a.code 0]
  | .aCmp x => [enc 0 6 x.pred (psOf false x.a.isPort x.b.isPort) (cmpD x.rel x.pd) x.a.code x.b.code]
  | .aJt x => [enc 0 7 x.pred 0 0 (wid 64 x.b) 0]
  | .aSbind x => [enc 0 8 x.pred (psOf false x.a.isPort false) (wid 64 x.g) x.a.code 0]
  | .aSset x => [enc 0 9 x.pred (psOf false x.a.isPort false) (wid 64 x.g) x.a.code 0]
  | .aNgo x => [enc 0 10 x.pred 0 0 0 (wid 64 x.k1)]
  | .aNwait x => [enc 0 11 x.pred 0 0 0 0]
  | .aNset x => [FS.toWord { imm := x.step, x := x.x, y := x.y, pred := x.pred, op := Fin.ofNat 64 (16 + x.level.val), l := 0 }]
  | .aCopyMm x => [encC 0 32 x.pred x.attr x.o1 x.o2 x.o3]
  | .aCopyMs x => [encC 0 33 x.pred x.attr x.o1 x.o2 x.o3]
  | .aCopySm x => [encC 0 34 x.pred x.attr x.o1 x.o2 x.o3]
  | .aCopyl x => [encC 0 35 x.pred x.attr x.o1 x.o2 x.o3]
  | .aSdrain x => [encC 0 36 x.pred x.attr x.o1 x.o2 x.o3]
  | .aScrub x => [encC 0 37 x.pred x.attr x.o1 x.o2 x.o3]
  | .aLdt x => [encC 0 38 x.pred x.attr x.o1 x.o2 x.o3]
  | .aAddK x => [enc 1 0 x.pred (psOf x.d.isPort x.a.isPort false) x.d.code x.a.code (Fin.ofNat 64 x.imm.toNat)]
  | .aSubK x => [enc 1 1 x.pred (psOf x.d.isPort x.a.isPort false) x.d.code x.a.code (Fin.ofNat 64 x.imm.toNat)]
  | .aMulK x => [enc 1 2 x.pred (psOf x.d.isPort x.a.isPort false) x.d.code x.a.code (Fin.ofNat 64 x.imm.toNat)]
  | .aShlK x => [enc 1 3 x.pred (psOf x.d.isPort x.a.isPort false) x.d.code x.a.code (Fin.ofNat 64 x.imm.toNat)]
  | .aShrK x => [enc 1 4 x.pred (psOf x.d.isPort x.a.isPort false) x.d.code x.a.code (Fin.ofNat 64 x.imm.toNat)]
  | .aCmpK x => [enc 1 6 x.pred (psOf false x.a.isPort false) (cmpD x.rel x.pd) x.a.code (Fin.ofNat 64 x.imm.toNat)]
  | .aCopyMmLen x => [encC 1 32 x.pred x.attr x.o1 x.o2 x.o3]
  | .aCopyMsLen x => [encC 1 33 x.pred x.attr x.o1 x.o2 x.o3]
  | .aCopySmLen x => [encC 1 34 x.pred x.attr x.o1 x.o2 x.o3]
  | .aLi x => [enc 3 0 x.pred (psOf x.d.isPort false false) x.d.code 0 0, x.imm]
  | .aPtgt x => [enc 3 1 x.pred 0 (wid 64 x.b) 0 0, x.tgt.toWord]
  | .aLoop x => [enc 3 2 x.pred (psOf false x.a.isPort false) (wid 64 x.lc) x.a.code 0, x.stop.toWord]
  | .aCopyWide x e => [encC 3 3 x.pred x.attr x.o1 x.o2 x.o3, e.toWord]
  | .aCopyb x e => [encC 3 4 x.pred x.attr x.o1 x.o2 x.o3, e.toWord]
  | .aMcast x e => [encC 3 5 x.pred x.attr x.o1 x.o2 x.o3, e.toWord]
  | .aNsetWide x => [enc 3 6 x.pred 0 (wid 64 x.level) (wid 64 x.x) (wid 64 x.y), x.step]
  | .aSsetImm x => [enc 3 7 x.pred 0 (wid 64 x.g) 0 0, x.imm]
  | .vVadd x => [enc 0 0 x.pred (psOf x.d.isPort x.a.isPort x.b.isPort) x.d.code x.a.code x.b.code]
  | .vVsub x => [enc 0 1 x.pred (psOf x.d.isPort x.a.isPort x.b.isPort) x.d.code x.a.code x.b.code]
  | .vVmul x => [enc 0 2 x.pred (psOf x.d.isPort x.a.isPort x.b.isPort) x.d.code x.a.code x.b.code]
  | .vVmad x => [enc 0 3 x.pred (psOf x.d.isPort x.a.isPort x.b.isPort) x.d.code x.a.code x.b.code]
  | .vVand x => [enc 0 4 x.pred (psOf x.d.isPort x.a.isPort x.b.isPort) x.d.code x.a.code x.b.code]
  | .vVor x => [enc 0 5 x.pred (psOf x.d.isPort x.a.isPort x.b.isPort) x.d.code x.a.code x.b.code]
  | .vVxor x => [enc 0 6 x.pred (psOf x.d.isPort x.a.isPort x.b.isPort) x.d.code x.a.code x.b.code]
  | .vVshl x => [enc 0 7 x.pred (psOf x.d.isPort x.a.isPort x.b.isPort) x.d.code x.a.code x.b.code]
  | .vVshr x => [enc 0 8 x.pred (psOf x.d.isPort x.a.isPort x.b.isPort) x.d.code x.a.code x.b.code]
  | .vVsar x => [enc 0 9 x.pred (psOf x.d.isPort x.a.isPort x.b.isPort) x.d.code x.a.code x.b.code]
  | .vVmin x => [enc 0 10 x.pred (psOf x.d.isPort x.a.isPort x.b.isPort) x.d.code x.a.code x.b.code]
  | .vVmax x => [enc 0 11 x.pred (psOf x.d.isPort x.a.isPort x.b.isPort) x.d.code x.a.code x.b.code]
  | .vVabs x => [enc 0 12 x.pred (psOf x.d.isPort x.a.isPort false) x.d.code x.a.code 0]
  | .vVcmp x => [enc 0 13 x.pred (psOf false x.a.isPort x.b.isPort) (cmpD x.rel x.pd) x.a.code x.b.code]
  | .vVsel x => [enc 0 14 x.pred (psOf x.d.isPort x.a.isPort false) x.d.code x.a.code (wid 64 x.vm)]
  | .vVfadd x => [enc 0 16 x.pred (psOf x.d.isPort x.a.isPort x.b.isPort) x.d.code x.a.code x.b.code]
  | .vVfsub x => [enc 0 17 x.pred (psOf x.d.isPort x.a.isPort x.b.isPort) x.d.code x.a.code x.b.code]
  | .vVfmul x => [enc 0 18 x.pred (psOf x.d.isPort x.a.isPort x.b.isPort) x.d.code x.a.code x.b.code]
  | .vVfma x => [enc 0 19 x.pred (psOf x.d.isPort x.a.isPort x.b.isPort) x.d.code x.a.code x.b.code]
  | .vVfmin x => [enc 0 20 x.pred (psOf x.d.isPort x.a.isPort x.b.isPort) x.d.code x.a.code x.b.code]
  | .vVfmax x => [enc 0 21 x.pred (psOf x.d.isPort x.a.isPort x.b.isPort) x.d.code x.a.code x.b.code]
  | .vVfcmp x => [enc 0 22 x.pred (psOf false x.a.isPort x.b.isPort) (cmpD x.rel x.pd) x.a.code x.b.code]
  | .vVrcp x => [enc 0 23 x.pred (psOf x.d.isPort x.a.isPort false) x.d.code x.a.code 0]
  | .vVrsq x => [enc 0 24 x.pred (psOf x.d.isPort x.a.isPort false) x.d.code x.a.code 0]
  | .vVexp2 x => [enc 0 25 x.pred (psOf x.d.isPort x.a.isPort false) x.d.code x.a.code 0]
  | .vVlog2 x => [enc 0 26 x.pred (psOf x.d.isPort x.a.isPort false) x.d.code x.a.code 0]
  | .vVcvt x => [enc 0 32 x.pred (psOf x.d.isPort x.a.isPort false) x.d.code x.a.code (Fin.ofNat 64 (x.src.code * 8 + x.dst.code))]
  | .vVpack x => [enc 0 33 x.pred (psOf x.d.isPort x.a.isPort x.b.isPort) x.d.code x.a.code x.b.code]
  | .vVunpk x => [enc 0 34 x.pred (psOf x.d.isPort x.a.isPort false) x.d.code x.a.code x.b]
  | .vVscale x => [enc 0 35 x.pred (psOf x.d.isPort x.a.isPort x.b.isPort) x.d.code x.a.code x.b.code]
  | .vVred x => [enc 0 36 x.pred (psOf x.d.isPort x.a.isPort false) x.d.code x.a.code (Fin.ofNat 64 x.op.code)]
  | .vVscan x => [enc 0 37 x.pred (psOf x.d.isPort x.a.isPort false) x.d.code x.a.code x.b]
  | .vVperm x => [enc 0 38 x.pred (psOf x.d.isPort x.a.isPort x.b.isPort) x.d.code x.a.code x.b.code]
  | .vVbcast x => [enc 0 39 x.pred (psOf x.d.isPort x.a.isPort false) x.d.code x.a.code (wid 64 x.idx)]
  | .vViota x => [enc 0 40 x.pred (psOf x.d.isPort false false) x.d.code (wid 64 x.vm) 0]
  | .vVext x => [enc 0 41 x.pred (psOf x.d.isPort x.a.isPort false) x.d.code x.a.code (wid 64 x.idx)]
  | .vVany x => [enc 0 42 x.pred 0 x.d.code (wid 64 x.vm) (wid 64 x.width)]
  | .vVall x => [enc 0 43 x.pred 0 x.d.code (wid 64 x.vm) (wid 64 x.width)]
  | .vVld x => [enc 0 44 x.pred (psOf x.d.isPort x.a.isPort false) x.d.code x.a.code 0]
  | .vVst x => [enc 0 45 x.pred (psOf x.d.isPort x.a.isPort false) x.d.code x.a.code 0]
  | .vVldx x => [enc 0 46 x.pred (psOf x.d.isPort x.a.isPort x.b.isPort) x.d.code x.a.code x.b.code]
  | .vVstx x => [enc 0 47 x.pred (psOf x.d.isPort x.a.isPort x.b.isPort) x.d.code x.a.code x.b.code]
  | .vVamo x => [enc 0 48 x.pred (psOf x.d.isPort x.a.isPort x.b.isPort) x.d.code x.a.code x.b.code]
  | .vBlend x => [enc 0 49 x.pred 0 (wid 64 x.bank) x.who.code 0]
  | .vJt x => [enc 0 50 x.pred 0 0 (wid 64 x.b) 0]
  | .vVaddP1 x => [enc 1 0 x.pred (psOf x.d.isPort x.a.isPort x.b.isPort) x.d.code x.a.code x.b.code]
  | .vVsubP1 x => [enc 1 1 x.pred (psOf x.d.isPort x.a.isPort x.b.isPort) x.d.code x.a.code x.b.code]
  | .vVmulP1 x => [enc 1 2 x.pred (psOf x.d.isPort x.a.isPort x.b.isPort) x.d.code x.a.code x.b.code]
  | .vVmadP1 x => [enc 1 3 x.pred (psOf x.d.isPort x.a.isPort x.b.isPort) x.d.code x.a.code x.b.code]
  | .vVshlP1 x => [enc 1 7 x.pred (psOf x.d.isPort x.a.isPort x.b.isPort) x.d.code x.a.code x.b.code]
  | .vVshrP1 x => [enc 1 8 x.pred (psOf x.d.isPort x.a.isPort x.b.isPort) x.d.code x.a.code x.b.code]
  | .vVsarP1 x => [enc 1 9 x.pred (psOf x.d.isPort x.a.isPort x.b.isPort) x.d.code x.a.code x.b.code]
  | .vVminP1 x => [enc 1 10 x.pred (psOf x.d.isPort x.a.isPort x.b.isPort) x.d.code x.a.code x.b.code]
  | .vVmaxP1 x => [enc 1 11 x.pred (psOf x.d.isPort x.a.isPort x.b.isPort) x.d.code x.a.code x.b.code]
  | .vVabsP1 x => [enc 1 12 x.pred (psOf x.d.isPort x.a.isPort false) x.d.code x.a.code 0]
  | .vVcmpP1 x => [enc 1 13 x.pred (psOf false x.a.isPort x.b.isPort) (cmpD x.rel x.pd) x.a.code x.b.code]
  | .vVselP1 x => [enc 1 14 x.pred (psOf x.d.isPort x.a.isPort false) x.d.code x.a.code (wid 64 x.vm)]
  | .vVfaddP1 x => [enc 1 16 x.pred (psOf x.d.isPort x.a.isPort x.b.isPort) x.d.code x.a.code x.b.code]
  | .vVfsubP1 x => [enc 1 17 x.pred (psOf x.d.isPort x.a.isPort x.b.isPort) x.d.code x.a.code x.b.code]
  | .vVfmulP1 x => [enc 1 18 x.pred (psOf x.d.isPort x.a.isPort x.b.isPort) x.d.code x.a.code x.b.code]
  | .vVfmaP1 x => [enc 1 19 x.pred (psOf x.d.isPort x.a.isPort x.b.isPort) x.d.code x.a.code x.b.code]
  | .vVfminP1 x => [enc 1 20 x.pred (psOf x.d.isPort x.a.isPort x.b.isPort) x.d.code x.a.code x.b.code]
  | .vVfmaxP1 x => [enc 1 21 x.pred (psOf x.d.isPort x.a.isPort x.b.isPort) x.d.code x.a.code x.b.code]
  | .vVfcmpP1 x => [enc 1 22 x.pred (psOf false x.a.isPort x.b.isPort) (cmpD x.rel x.pd) x.a.code x.b.code]
  | .vVrcpP1 x => [enc 1 23 x.pred (psOf x.d.isPort x.a.isPort false) x.d.code x.a.code 0]
  | .vVrsqP1 x => [enc 1 24 x.pred (psOf x.d.isPort x.a.isPort false) x.d.code x.a.code 0]
  | .vVexp2P1 x => [enc 1 25 x.pred (psOf x.d.isPort x.a.isPort false) x.d.code x.a.code 0]
  | .vVlog2P1 x => [enc 1 26 x.pred (psOf x.d.isPort x.a.isPort false) x.d.code x.a.code 0]
  | .vVunpkP1 x => [enc 1 34 x.pred (psOf x.d.isPort x.a.isPort false) x.d.code x.a.code x.b]
  | .vVredP1 x => [enc 1 36 x.pred (psOf x.d.isPort x.a.isPort false) x.d.code x.a.code (Fin.ofNat 64 x.op.code)]
  | .vVscanP1 x => [enc 1 37 x.pred (psOf x.d.isPort x.a.isPort false) x.d.code x.a.code x.b]
  | .vVpermP1 x => [enc 1 38 x.pred (psOf x.d.isPort x.a.isPort x.b.isPort) x.d.code x.a.code x.b.code]
  | .vVbcastP1 x => [enc 1 39 x.pred (psOf x.d.isPort x.a.isPort false) x.d.code x.a.code (wid 64 x.idx)]
  | .vViotaP1 x => [enc 1 40 x.pred (psOf x.d.isPort false false) x.d.code (wid 64 x.vm) 0]
  | .vVextP1 x => [enc 1 41 x.pred (psOf x.d.isPort x.a.isPort false) x.d.code x.a.code (wid 64 x.idx)]
  | .vVldP1 x => [enc 1 44 x.pred (psOf x.d.isPort x.a.isPort false) x.d.code x.a.code 0]
  | .vVstP1 x => [enc 1 45 x.pred (psOf x.d.isPort x.a.isPort false) x.d.code x.a.code 0]
  | .vVldxP1 x => [enc 1 46 x.pred (psOf x.d.isPort x.a.isPort x.b.isPort) x.d.code x.a.code x.b.code]
  | .vVstxP1 x => [enc 1 47 x.pred (psOf x.d.isPort x.a.isPort x.b.isPort) x.d.code x.a.code x.b.code]
  | .vVamoP1 x => [enc 1 48 x.pred (psOf x.d.isPort x.a.isPort x.b.isPort) x.d.code x.a.code x.b.code]
  | .vVaddW x e => [enc 3 0 x.pred 0 x.d.code x.a.code x.b.code, encVX x.d.isPort x.a.isPort x.b.isPort e 0]
  | .vVsubW x e => [enc 3 1 x.pred 0 x.d.code x.a.code x.b.code, encVX x.d.isPort x.a.isPort x.b.isPort e 0]
  | .vVmulW x e => [enc 3 2 x.pred 0 x.d.code x.a.code x.b.code, encVX x.d.isPort x.a.isPort x.b.isPort e 0]
  | .vVmadW x e => [enc 3 3 x.pred 0 x.d.code x.a.code x.b.code, encVX x.d.isPort x.a.isPort x.b.isPort e 0]
  | .vVandW x e => [enc 3 4 x.pred 0 x.d.code x.a.code x.b.code, encVX x.d.isPort x.a.isPort x.b.isPort e 0]
  | .vVorW x e => [enc 3 5 x.pred 0 x.d.code x.a.code x.b.code, encVX x.d.isPort x.a.isPort x.b.isPort e 0]
  | .vVxorW x e => [enc 3 6 x.pred 0 x.d.code x.a.code x.b.code, encVX x.d.isPort x.a.isPort x.b.isPort e 0]
  | .vVshlW x e => [enc 3 7 x.pred 0 x.d.code x.a.code x.b.code, encVX x.d.isPort x.a.isPort x.b.isPort e 0]
  | .vVshrW x e => [enc 3 8 x.pred 0 x.d.code x.a.code x.b.code, encVX x.d.isPort x.a.isPort x.b.isPort e 0]
  | .vVsarW x e => [enc 3 9 x.pred 0 x.d.code x.a.code x.b.code, encVX x.d.isPort x.a.isPort x.b.isPort e 0]
  | .vVminW x e => [enc 3 10 x.pred 0 x.d.code x.a.code x.b.code, encVX x.d.isPort x.a.isPort x.b.isPort e 0]
  | .vVmaxW x e => [enc 3 11 x.pred 0 x.d.code x.a.code x.b.code, encVX x.d.isPort x.a.isPort x.b.isPort e 0]
  | .vVabsW x e => [enc 3 12 x.pred 0 x.d.code x.a.code 0, encVX x.d.isPort x.a.isPort false e 0]
  | .vVcmpW x e => [enc 3 13 x.pred 0 (cmpD x.rel x.pd) x.a.code x.b.code, encVX false x.a.isPort x.b.isPort e 0]
  | .vVselW x e => [enc 3 14 x.pred 0 x.d.code x.a.code (wid 64 x.vm), encVX x.d.isPort x.a.isPort false e 0]
  | .vVfaddW x e => [enc 3 16 x.pred 0 x.d.code x.a.code x.b.code, encVX x.d.isPort x.a.isPort x.b.isPort e 0]
  | .vVfsubW x e => [enc 3 17 x.pred 0 x.d.code x.a.code x.b.code, encVX x.d.isPort x.a.isPort x.b.isPort e 0]
  | .vVfmulW x e => [enc 3 18 x.pred 0 x.d.code x.a.code x.b.code, encVX x.d.isPort x.a.isPort x.b.isPort e 0]
  | .vVfmaW x e => [enc 3 19 x.pred 0 x.d.code x.a.code x.b.code, encVX x.d.isPort x.a.isPort x.b.isPort e 0]
  | .vVfminW x e => [enc 3 20 x.pred 0 x.d.code x.a.code x.b.code, encVX x.d.isPort x.a.isPort x.b.isPort e 0]
  | .vVfmaxW x e => [enc 3 21 x.pred 0 x.d.code x.a.code x.b.code, encVX x.d.isPort x.a.isPort x.b.isPort e 0]
  | .vVfcmpW x e => [enc 3 22 x.pred 0 (cmpD x.rel x.pd) x.a.code x.b.code, encVX false x.a.isPort x.b.isPort e 0]
  | .vVrcpW x e => [enc 3 23 x.pred 0 x.d.code x.a.code 0, encVX x.d.isPort x.a.isPort false e 0]
  | .vVrsqW x e => [enc 3 24 x.pred 0 x.d.code x.a.code 0, encVX x.d.isPort x.a.isPort false e 0]
  | .vVexp2W x e => [enc 3 25 x.pred 0 x.d.code x.a.code 0, encVX x.d.isPort x.a.isPort false e 0]
  | .vVlog2W x e => [enc 3 26 x.pred 0 x.d.code x.a.code 0, encVX x.d.isPort x.a.isPort false e 0]
  | .vVcvtW x e => [enc 3 32 x.pred 0 x.d.code x.a.code (Fin.ofNat 64 (x.src.code * 8 + x.dst.code)), encVX x.d.isPort x.a.isPort false e 0]
  | .vVpackW x e f => [enc 3 33 x.pred 0 x.d.code x.a.code x.b.code, encVX x.d.isPort x.a.isPort x.b.isPort e f.bits]
  | .vVunpkW x e f => [enc 3 34 x.pred 0 x.d.code x.a.code x.b, encVX x.d.isPort x.a.isPort false e f.bits]
  | .vVscaleW x e => [enc 3 35 x.pred 0 x.d.code x.a.code x.b.code, encVX x.d.isPort x.a.isPort x.b.isPort e 0]
  | .vVredW x e => [enc 3 36 x.pred 0 x.d.code x.a.code (Fin.ofNat 64 x.op.code), encVX x.d.isPort x.a.isPort false e 0]
  | .vVscanW x e => [enc 3 37 x.pred 0 x.d.code x.a.code x.b, encVX x.d.isPort x.a.isPort false e 0]
  | .vVpermW x e => [enc 3 38 x.pred 0 x.d.code x.a.code x.b.code, encVX x.d.isPort x.a.isPort x.b.isPort e 0]
  | .vVbcastW x e => [enc 3 39 x.pred 0 x.d.code x.a.code 0, encVX x.d.isPort x.a.isPort false e x.idx.val]
  | .vViotaW x e => [enc 3 40 x.pred 0 x.d.code (wid 64 x.vm) 0, encVX x.d.isPort false false e 0]
  | .vVextW x e => [enc 3 41 x.pred 0 x.d.code x.a.code 0, encVX x.d.isPort x.a.isPort false e x.idx.val]
  | .vVldW x e off => [enc 3 44 x.pred 0 x.d.code x.a.code 0, encVX x.d.isPort x.a.isPort false e off.toNat]
  | .vVstW x e off => [enc 3 45 x.pred 0 x.d.code x.a.code 0, encVX x.d.isPort x.a.isPort false e off.toNat]
  | .vVldxW x e off => [enc 3 46 x.pred 0 x.d.code x.a.code x.b.code, encVX x.d.isPort x.a.isPort x.b.isPort e off.toNat]
  | .vVstxW x e off => [enc 3 47 x.pred 0 x.d.code x.a.code x.b.code, encVX x.d.isPort x.a.isPort x.b.isPort e off.toNat]
  | .vVamoW x e op off => [enc 3 48 x.pred 0 x.d.code x.a.code x.b.code, encVX x.d.isPort x.a.isPort x.b.isPort e (op.code * 2 ^ 12 + off.toNat)]
  | .vLoop x => [enc 3 62 x.pred (psOf false x.a.isPort false) (wid 64 x.lc) x.a.code 0, x.stop.toWord]
  | .vPtgt x => [enc 3 63 x.pred 0 (wid 64 x.b) 0 0, x.tgt.toWord]
  | .mMclr x => [enc 0 0 x.pred (psOf false false x.e.isQ) (wid 64 x.tile) 0 x.e.code]
  | .mMstat x => [enc 0 1 x.pred 1 (Fin.ofNat 64 (x.q.val + 16)) (wid 64 x.tile) (wid 64 x.ctl)]
  | .mBret x => [enc 0 2 x.pred 0 (wid 64 x.bank) 0 0]
  | .mMnormGrow x => [encC 0 32 x.pred x.attr (wid 32 x.tile) (Fin.ofNat 32 x.k.val) (Fin.ofNat 32 (x.k.val / 32))]
  | .mMnormTight x => [encC 0 32 x.pred x.attr (wid 32 x.tile) (Fin.ofNat 32 x.k.val) (Fin.ofNat 32 (x.k.val / 32 + 2))]
  | .mMrd x => [encC 0 33 x.pred x.attr (wid 32 x.tile) x.ring x.fmt]
  | .mMwr x => [encC 0 34 x.pred x.attr (wid 32 x.tile) x.ring x.fmt]
  | .mMexpGet x => [encC 0 35 x.pred x.attr (wid 32 x.tile) (wid 32 x.bank) (wid 32 x.r)]
  | .mMexpSet x => [encC 0 35 x.pred x.attr (wid 32 x.tile) (wid 32 x.bank) (Fin.ofNat 32 (x.r.val + 8))]
  | .mMma x e => [encC 3 0 x.pred x.attr x.o1 x.o2 x.o3, e.toWord]
  | .mMmas x e => [encC 3 1 x.pred x.attr x.o1 x.o2 x.o3, e.toWord]
  | .dDclr x => [enc 0 0 x.pred (psOf false false x.e.isQ) (wid 64 x.tile) (wid 64 x.nb1) x.e.code]
  | .dBret x => [enc 0 2 x.pred 0 (wid 64 x.bank) 0 0]
  | .dDnormGrow x => [encC 0 32 x.pred x.attr (wid 32 x.tile) (Fin.ofNat 32 x.k.val) (Fin.ofNat 32 (x.k.val / 32))]
  | .dDnormTight x => [encC 0 32 x.pred x.attr (wid 32 x.tile) (Fin.ofNat 32 x.k.val) (Fin.ofNat 32 (x.k.val / 32 + 2))]
  | .dDrd x => [encC 0 33 x.pred x.attr (wid 32 x.tile) (wid 32 x.vq) x.fmt]
  | .dDmv x => [encC 3 0 x.pred x.attr (wid 32 x.g) 0 0, x.ext]
  | .dDqk x => [encC 3 1 x.pred x.attr (wid 32 x.g) 0 0, x.ext]
  | .dDpv x => [encC 3 2 x.pred x.attr (wid 32 x.g) 0 0, x.ext]
  | .gGcfg x => [enc 0 0 x.pred 3 (wid 64 x.gd) 0 (Fin.ofNat 64 (x.q.val + 16))]
  | .gGld x => [encC 3 0 x.pred x.attr (wid 32 x.gd) (wid 32 x.vqi) (wid 32 x.vqo), x.ext]
  | .gGsc x => [encC 3 1 x.pred x.attr (wid 32 x.gd) (wid 32 x.vqi) (wid 32 x.vqo), x.ext]
  | .registerWrite _ _ _ => []
  | .lqtailWrite _ _ _ => []
  | .launchPacketRead _ _ => []
  | .launchEntry _ => []
  | .klaunchRemoteEntry _ _ => []
  | .transferRetire _ => []
  | .blockPlace _ => []
  | .blockComplete _ => []
  | .commandStart _ _ => []
  | .commandComplete _ _ _ => []
  | .nestIssue _ => []
  | .loopBackEdge _ _ => []
  | .tkwaitReturn _ => []
  | .tkwaitTimeout _ => []
  | .mcastDeliver _ _ _ => []
  | .gbarComplete _ _ => []
  | .leaveGrant _ => []
  | .ldtCutoff _ _ => []
  | .ldtVectorReady _ _ => []
  | .maintenanceSlot _ _ => []
  | .refreshDue _ _ _ => []
  | .activationAlert _ _ _ => []
  | .caParityError _ _ _ => []
  | .linkReadFailure _ _ _ _ => []
  | .scratchBankFail _ _ _ => []
  | .bankRebuildDone _ _ => []
  | .porterGranuleMove _ _ => []
  | .phaseSwitch _ => []
  | .granuleLand _ _ => []
  | .lateDataTimeout _ _ => []
  | .porterFault _ _ _ => []
  | .strandStop _ _ => []
  | .eventRetry _ => []
  | .evheadWrite _ _ => []
  | .watchdogTrip _ => []
  | .ctxcmdStop _ _ => []
  | .ctxcmdResume _ _ => []
  | .ctxcmdAbort _ _ => []
  | .ctxcmdKill _ _ => []
  | .killAccept _ _ => []
  | .ctxcfgCreate _ _ _ => []
  | .ctxcfgDestroy _ _ => []
  | .preemptDecision _ => []
  | .preemptRecheck _ => []
  | .checkpointSave _ => []
  | .checkpointTimeout _ => []
  | .ferryTrigger _ _ => []
  | .ferryMove _ => []
  | .atomicResponseError _ _ => []
  | .scoutRerun _ => []
  | .mapcmdGo _ _ _ => []
  | .mapCommitDone _ _ => []
  | .tlbinvGo _ _ => []
  | .tlbinvDone _ => []
  | .sumpFill _ => []
  | .sumpDeadline _ _ => []
  | .sumpcmdConfirm _ _ => []
  | .sumpcmdVeto _ _ => []
  | .sumpcmdMoveHead _ _ => []
  | .sumpExecute _ => []
  | .dbgctlGo _ => []
  | .dbgExpiry _ => []
  | .fencecmdClear _ => []
  | .telclr _ => []
  | .partdiesWrite _ _ => []
  | .quadGrant _ _ => []
  | .vfpartWrite _ _ => []
  | .getVersion _ => []
  | .getCapabilities _ => []
  | .negotiateAlgorithms _ _ => []
  | .getDigests _ => []
  | .getCertificate _ _ => []
  | .challenge _ _ => []
  | .getMeasurements _ _ _ => []
  | .keyExchange _ _ => []
  | .finish _ => []
  | .endSession _ => []
  | .moduleReset => []
  | .accessResponse _ _ _ => []
  | .evcfgWrite _ _ => []
  | .barWrite _ => []
  | .tdiConfigLock _ => []
  | .tdiRun _ => []
  | .islandGovernorSet _ _ => []

def RCount.opds : RCount → List Opd
  | .imm _ => []
  | .q n => [.port (.q n)]

def EVal.opds : EVal → List Opd
  | .imm _ => []
  | .q n => [.port (.q n)]


/-! Prefix acceptance (R93). -/

/-- The register and port operands of an instruction, ring counts and exponents from queues included. -/
def Instr.operands : Instr → List Opd
  | .cAdd x => [x.d, x.a, x.b]
  | .cSub x => [x.d, x.a, x.b]
  | .cMul x => [x.d, x.a, x.b]
  | .cMulh x => [x.d, x.a, x.b]
  | .cMulhu x => [x.d, x.a, x.b]
  | .cDiv x => [x.d, x.a, x.b]
  | .cDivu x => [x.d, x.a, x.b]
  | .cRem x => [x.d, x.a, x.b]
  | .cRemu x => [x.d, x.a, x.b]
  | .cAnd x => [x.d, x.a, x.b]
  | .cOr x => [x.d, x.a, x.b]
  | .cXor x => [x.d, x.a, x.b]
  | .cAndn x => [x.d, x.a, x.b]
  | .cShl x => [x.d, x.a, x.b]
  | .cShr x => [x.d, x.a, x.b]
  | .cSar x => [x.d, x.a, x.b]
  | .cRot x => [x.d, x.a, x.b]
  | .cMin x => [x.d, x.a, x.b]
  | .cMax x => [x.d, x.a, x.b]
  | .cMinu x => [x.d, x.a, x.b]
  | .cMaxu x => [x.d, x.a, x.b]
  | .cSel x => [x.d, x.a, x.b]
  | .cBfx x => [x.d, x.a, x.b]
  | .cBfi x => [x.d, x.a, x.b]
  | .cClz x => [x.d, x.a]
  | .cCtz x => [x.d, x.a]
  | .cPopc x => [x.d, x.a]
  | .cSext x => [x.d, x.a, x.b]
  | .cZext x => [x.d, x.a, x.b]
  | .cMov x => [x.d, x.a]
  | .cCmp x => [x.a, x.b]
  | .cFadd x => [x.d, x.a, x.b]
  | .cFsub x => [x.d, x.a, x.b]
  | .cFmul x => [x.d, x.a, x.b]
  | .cFma x => [x.d, x.a, x.b]
  | .cFmin x => [x.d, x.a, x.b]
  | .cFmax x => [x.d, x.a, x.b]
  | .cFcvt x => [x.d, x.a]
  | .cFcmp x => [x.a, x.b]
  | .cPtgt x => [x.a]
  | .cJtl x => [x.d]
  | .cGbar x => [x.a]
  | .cCsrr x => [x.d]
  | .cCsrw x => [x.b]
  | .cRclaim x => x.d :: x.n.opds
  | .cRpub x => x.n.opds
  | .cRwait x => x.n.opds
  | .cRfree x => x.n.opds
  | .cRrel x => x.n.opds
  | .cRpopn x => [x.d, x.a, x.b]
  | .cTrap x => [x.a]
  | .cAddK x => [x.d, x.a]
  | .cSubK x => [x.d, x.a]
  | .cMulK x => [x.d, x.a]
  | .cMulhK x => [x.d, x.a]
  | .cMulhuK x => [x.d, x.a]
  | .cDivK x => [x.d, x.a]
  | .cDivuK x => [x.d, x.a]
  | .cRemK x => [x.d, x.a]
  | .cRemuK x => [x.d, x.a]
  | .cAndK x => [x.d, x.a]
  | .cOrK x => [x.d, x.a]
  | .cXorK x => [x.d, x.a]
  | .cAndnK x => [x.d, x.a]
  | .cShlK x => [x.d, x.a]
  | .cShrK x => [x.d, x.a]
  | .cSarK x => [x.d, x.a]
  | .cRotK x => [x.d, x.a]
  | .cMinK x => [x.d, x.a]
  | .cMaxK x => [x.d, x.a]
  | .cMinuK x => [x.d, x.a]
  | .cMaxuK x => [x.d, x.a]
  | .cCmpK x => [x.a]
  | .cLdB x => [x.d]
  | .cLdH x => [x.d]
  | .cLdW x => [x.d]
  | .cLdD x => [x.d]
  | .cStB x => [x.d]
  | .cStH x => [x.d]
  | .cStW x => [x.d]
  | .cStD x => [x.d]
  | .cKlaunch x => [x.d, x.a]
  | .cKxfer x => [x.d, x.a]
  | .cProg x => [x.a]
  | .cPhset x => [x.a]
  | .cAccept x => [x.d]
  | .cCtwr x => [x.a]
  | .cLi x => [x.d]
  | .cLoop x => [x.a]
  | .cScout x => [x.a]
  | .cLdWide x => [x.d]
  | .cStWide x => [x.d]
  | .aAdd x => [x.d, x.a, x.b]
  | .aSub x => [x.d, x.a, x.b]
  | .aMul x => [x.d, x.a, x.b]
  | .aShl x => [x.d, x.a, x.b]
  | .aShr x => [x.d, x.a, x.b]
  | .aMov x => [x.d, x.a]
  | .aCmp x => [x.a, x.b]
  | .aSbind x => [x.a]
  | .aSset x => [x.a]
  | .aAddK x => [x.d, x.a]
  | .aSubK x => [x.d, x.a]
  | .aMulK x => [x.d, x.a]
  | .aShlK x => [x.d, x.a]
  | .aShrK x => [x.d, x.a]
  | .aCmpK x => [x.a]
  | .aLi x => [x.d]
  | .aLoop x => [x.a]
  | .vVadd x => [x.d, x.a, x.b]
  | .vVsub x => [x.d, x.a, x.b]
  | .vVmul x => [x.d, x.a, x.b]
  | .vVmad x => [x.d, x.a, x.b]
  | .vVand x => [x.d, x.a, x.b]
  | .vVor x => [x.d, x.a, x.b]
  | .vVxor x => [x.d, x.a, x.b]
  | .vVshl x => [x.d, x.a, x.b]
  | .vVshr x => [x.d, x.a, x.b]
  | .vVsar x => [x.d, x.a, x.b]
  | .vVmin x => [x.d, x.a, x.b]
  | .vVmax x => [x.d, x.a, x.b]
  | .vVabs x => [x.d, x.a]
  | .vVcmp x => [x.a, x.b]
  | .vVsel x => [x.d, x.a]
  | .vVfadd x => [x.d, x.a, x.b]
  | .vVfsub x => [x.d, x.a, x.b]
  | .vVfmul x => [x.d, x.a, x.b]
  | .vVfma x => [x.d, x.a, x.b]
  | .vVfmin x => [x.d, x.a, x.b]
  | .vVfmax x => [x.d, x.a, x.b]
  | .vVfcmp x => [x.a, x.b]
  | .vVrcp x => [x.d, x.a]
  | .vVrsq x => [x.d, x.a]
  | .vVexp2 x => [x.d, x.a]
  | .vVlog2 x => [x.d, x.a]
  | .vVcvt x => [x.d, x.a]
  | .vVpack x => [x.d, x.a, x.b]
  | .vVunpk x => [x.d, x.a]
  | .vVscale x => [x.d, x.a, x.b]
  | .vVred x => [x.d, x.a]
  | .vVscan x => [x.d, x.a]
  | .vVperm x => [x.d, x.a, x.b]
  | .vVbcast x => [x.d, x.a]
  | .vViota x => [x.d]
  | .vVext x => [x.d, x.a]
  | .vVld x => [x.d, x.a]
  | .vVst x => [x.d, x.a]
  | .vVldx x => [x.d, x.a, x.b]
  | .vVstx x => [x.d, x.a, x.b]
  | .vVamo x => [x.d, x.a, x.b]
  | .vVaddP1 x => [x.d, x.a, x.b]
  | .vVsubP1 x => [x.d, x.a, x.b]
  | .vVmulP1 x => [x.d, x.a, x.b]
  | .vVmadP1 x => [x.d, x.a, x.b]
  | .vVshlP1 x => [x.d, x.a, x.b]
  | .vVshrP1 x => [x.d, x.a, x.b]
  | .vVsarP1 x => [x.d, x.a, x.b]
  | .vVminP1 x => [x.d, x.a, x.b]
  | .vVmaxP1 x => [x.d, x.a, x.b]
  | .vVabsP1 x => [x.d, x.a]
  | .vVcmpP1 x => [x.a, x.b]
  | .vVselP1 x => [x.d, x.a]
  | .vVfaddP1 x => [x.d, x.a, x.b]
  | .vVfsubP1 x => [x.d, x.a, x.b]
  | .vVfmulP1 x => [x.d, x.a, x.b]
  | .vVfmaP1 x => [x.d, x.a, x.b]
  | .vVfminP1 x => [x.d, x.a, x.b]
  | .vVfmaxP1 x => [x.d, x.a, x.b]
  | .vVfcmpP1 x => [x.a, x.b]
  | .vVrcpP1 x => [x.d, x.a]
  | .vVrsqP1 x => [x.d, x.a]
  | .vVexp2P1 x => [x.d, x.a]
  | .vVlog2P1 x => [x.d, x.a]
  | .vVunpkP1 x => [x.d, x.a]
  | .vVredP1 x => [x.d, x.a]
  | .vVscanP1 x => [x.d, x.a]
  | .vVpermP1 x => [x.d, x.a, x.b]
  | .vVbcastP1 x => [x.d, x.a]
  | .vViotaP1 x => [x.d]
  | .vVextP1 x => [x.d, x.a]
  | .vVldP1 x => [x.d, x.a]
  | .vVstP1 x => [x.d, x.a]
  | .vVldxP1 x => [x.d, x.a, x.b]
  | .vVstxP1 x => [x.d, x.a, x.b]
  | .vVamoP1 x => [x.d, x.a, x.b]
  | .vVaddW x _ => [x.d, x.a, x.b]
  | .vVsubW x _ => [x.d, x.a, x.b]
  | .vVmulW x _ => [x.d, x.a, x.b]
  | .vVmadW x _ => [x.d, x.a, x.b]
  | .vVandW x _ => [x.d, x.a, x.b]
  | .vVorW x _ => [x.d, x.a, x.b]
  | .vVxorW x _ => [x.d, x.a, x.b]
  | .vVshlW x _ => [x.d, x.a, x.b]
  | .vVshrW x _ => [x.d, x.a, x.b]
  | .vVsarW x _ => [x.d, x.a, x.b]
  | .vVminW x _ => [x.d, x.a, x.b]
  | .vVmaxW x _ => [x.d, x.a, x.b]
  | .vVabsW x _ => [x.d, x.a]
  | .vVcmpW x _ => [x.a, x.b]
  | .vVselW x _ => [x.d, x.a]
  | .vVfaddW x _ => [x.d, x.a, x.b]
  | .vVfsubW x _ => [x.d, x.a, x.b]
  | .vVfmulW x _ => [x.d, x.a, x.b]
  | .vVfmaW x _ => [x.d, x.a, x.b]
  | .vVfminW x _ => [x.d, x.a, x.b]
  | .vVfmaxW x _ => [x.d, x.a, x.b]
  | .vVfcmpW x _ => [x.a, x.b]
  | .vVrcpW x _ => [x.d, x.a]
  | .vVrsqW x _ => [x.d, x.a]
  | .vVexp2W x _ => [x.d, x.a]
  | .vVlog2W x _ => [x.d, x.a]
  | .vVcvtW x _ => [x.d, x.a]
  | .vVpackW x _ _ => [x.d, x.a, x.b]
  | .vVunpkW x _ _ => [x.d, x.a]
  | .vVscaleW x _ => [x.d, x.a, x.b]
  | .vVredW x _ => [x.d, x.a]
  | .vVscanW x _ => [x.d, x.a]
  | .vVpermW x _ => [x.d, x.a, x.b]
  | .vVbcastW x _ => [x.d, x.a]
  | .vViotaW x _ => [x.d]
  | .vVextW x _ => [x.d, x.a]
  | .vVldW x _ _ => [x.d, x.a]
  | .vVstW x _ _ => [x.d, x.a]
  | .vVldxW x _ _ => [x.d, x.a, x.b]
  | .vVstxW x _ _ => [x.d, x.a, x.b]
  | .vVamoW x _ _ _ => [x.d, x.a, x.b]
  | .vLoop x => [x.a]
  | .mMclr x => x.e.opds
  | .mMstat x => [.port (.q x.q)]
  | .dDclr x => x.e.opds
  | .gGcfg x => [.port (.q x.q)]
  | _ => []

/-- RMV and RM (R132, R200, R223). -/
def Instr.takesRm : Instr → Bool
  | .cFadd _ => true
  | .cFsub _ => true
  | .cFmul _ => true
  | .cFma _ => true
  | .cFcvt _ => true
  | .vVfadd _ => true
  | .vVfsub _ => true
  | .vVfmul _ => true
  | .vVfma _ => true
  | .vVrcp _ => true
  | .vVrsq _ => true
  | .vVexp2 _ => true
  | .vVlog2 _ => true
  | .vVcvt _ => true
  | .vVpack _ => true
  | .vVunpk _ => true
  | .vVscale _ => true
  | .vVred x => x.op.isFloat
  | .vVscan x => x.op.isFloat
  | .vVfaddP1 _ => true
  | .vVfsubP1 _ => true
  | .vVfmulP1 _ => true
  | .vVfmaP1 _ => true
  | .vVrcpP1 _ => true
  | .vVrsqP1 _ => true
  | .vVexp2P1 _ => true
  | .vVlog2P1 _ => true
  | .vVunpkP1 _ => true
  | .vVredP1 x => x.op.isFloat
  | .vVscanP1 x => x.op.isFloat
  | .mMrd _ => true
  | .dDrd _ => true
  | _ => false

/-- SAT (R132, R200, R223). -/
def Instr.takesSat : Instr → Bool
  | .cAdd _ => true
  | .cSub _ => true
  | .cMul _ => true
  | .cDiv _ => true
  | .cFadd _ => true
  | .cFsub _ => true
  | .cFmul _ => true
  | .cFma _ => true
  | .cFcvt _ => true
  | .cAddK _ => true
  | .cSubK _ => true
  | .cMulK _ => true
  | .cDivK _ => true
  | .vVadd _ => true
  | .vVsub _ => true
  | .vVmul _ => true
  | .vVmad _ => true
  | .vVabs _ => true
  | .vVfadd _ => true
  | .vVfsub _ => true
  | .vVfmul _ => true
  | .vVfma _ => true
  | .vVrcp _ => true
  | .vVrsq _ => true
  | .vVexp2 _ => true
  | .vVlog2 _ => true
  | .vVcvt _ => true
  | .vVpack _ => true
  | .vVunpk _ => true
  | .vVscale _ => true
  | .vVred x => (x.op.isFloat || x.op == .add)
  | .vVscan x => (x.op.isFloat || x.op == .add)
  | .vVaddP1 _ => true
  | .vVsubP1 _ => true
  | .vVmulP1 _ => true
  | .vVmadP1 _ => true
  | .vVabsP1 _ => true
  | .vVfaddP1 _ => true
  | .vVfsubP1 _ => true
  | .vVfmulP1 _ => true
  | .vVfmaP1 _ => true
  | .vVrcpP1 _ => true
  | .vVrsqP1 _ => true
  | .vVexp2P1 _ => true
  | .vVlog2P1 _ => true
  | .vVunpkP1 _ => true
  | .vVredP1 x => (x.op.isFloat || x.op == .add)
  | .vVscanP1 x => (x.op.isFloat || x.op == .add)
  | .mMrd _ => true
  | .dDrd _ => true
  | _ => false

/-- FTZ (R132, R200, R223). -/
def Instr.takesFtz : Instr → Bool
  | .cFadd _ => true
  | .cFsub _ => true
  | .cFmul _ => true
  | .cFma _ => true
  | .cFmin _ => true
  | .cFmax _ => true
  | .cFcvt _ => true
  | .cFcmp _ => true
  | .vVfadd _ => true
  | .vVfsub _ => true
  | .vVfmul _ => true
  | .vVfma _ => true
  | .vVfmin _ => true
  | .vVfmax _ => true
  | .vVfcmp _ => true
  | .vVrcp _ => true
  | .vVrsq _ => true
  | .vVexp2 _ => true
  | .vVlog2 _ => true
  | .vVcvt x => (!x.src.isInt || !x.dst.isInt)
  | .vVpack _ => true
  | .vVunpk _ => true
  | .vVscale _ => true
  | .vVred x => x.op.isFloat
  | .vVscan x => x.op.isFloat
  | .vVfaddP1 _ => true
  | .vVfsubP1 _ => true
  | .vVfmulP1 _ => true
  | .vVfmaP1 _ => true
  | .vVfminP1 _ => true
  | .vVfmaxP1 _ => true
  | .vVfcmpP1 _ => true
  | .vVrcpP1 _ => true
  | .vVrsqP1 _ => true
  | .vVexp2P1 _ => true
  | .vVlog2P1 _ => true
  | .vVunpkP1 _ => true
  | .vVredP1 x => x.op.isFloat
  | .vVscanP1 x => x.op.isFloat
  | .mMrd _ => true
  | .mMwr _ => true
  | .dDrd _ => true
  | _ => false

/-- Instructions that accept ORD whatever their fields hold: memory accesses, and `gcfg` (R132, R197, R223, R230). -/
def Instr.takesOrdAlways : Instr → Bool
  | .gGcfg _ => true
  | .cLdB _ => true
  | .cLdH _ => true
  | .cLdW _ => true
  | .cLdD _ => true
  | .cStB _ => true
  | .cStH _ => true
  | .cStW _ => true
  | .cStD _ => true
  | .cLdWide _ => true
  | .cStWide _ => true
  | .vVld _ => true
  | .vVst _ => true
  | .vVldx _ => true
  | .vVstx _ => true
  | .vVamo _ => true
  | .vVldP1 _ => true
  | .vVstP1 _ => true
  | .vVldxP1 _ => true
  | .vVstxP1 _ => true
  | .vVamoP1 _ => true
  | .vVldW _ _ _ => true
  | .vVstW _ _ _ => true
  | .vVldxW _ _ _ => true
  | .vVstxW _ _ _ => true
  | .vVamoW _ _ _ _ => true
  | _ => false

/-- Instructions that take no prefix although they may name a port (R132, R261). -/
def Instr.barsOrd : Instr → Bool
  | .cFence _ => true
  | .cRpub _ => true
  | .cRwait _ => true
  | .cPhadv _ => true
  | .cPhadvLate _ => true
  | .cPhset _ => true
  | .cPhwait _ => true
  | .cAmo _ => true
  | .cScout _ => true
  | _ => false

/-- Whether an instruction accepts ORD (R93, R132, R143, R197, R200, R223, R230). -/
def Instr.takesOrd (i : Instr) : Bool := !i.barsOrd && (i.takesOrdAlways || i.operands.any Opd.isPort)

/-- Whether instruction `i` accepts prefix `p` (R93). -/
def Instr.accepts (p i : Instr) : Bool :=
  match p with
  | .pfx _ rmv _ sat ftz => (!rmv || i.takesRm) && (!sat || i.takesSat) && (!ftz || i.takesFtz)
  | .pfxo _ _ => i.takesOrd
  | _ => false

/-- Whether an instruction is a prefix word. -/
def Instr.isPrefix : Instr → Bool
  | .pfx _ _ _ _ _ => true
  | .pfxo _ _ => true
  | _ => false

/-- The engines in tag order (R82). -/
def engines : List Eng := [.c, .a, .v, .m, .d, .g]

def firstOk : List DecRes → Option Instr
  | [] => none
  | .ok i :: _ => some i
  | _ :: r => firstOk r

/-- The instruction whose words are the bits `w`: the first engine in tag order whose space assigns them, since the
engine is named by the line's tag and not by the word (R82, R84; log 8). -/
noncomputable def decodeTableWord (nbits w : Nat) : Option Instr :=
  let v := w % 2 ^ nbits
  firstOk (engines.map fun e => decodeStep e (BitVec.ofNat 32 v) (BitVec.ofNat 32 (v / 2 ^ 32)))

end Sys2Proof
end

