-- ==== Sys2Proof/Config.lean ====
section
/-! DEFINITION. What an implementation fixes and the free values. Every `opaque` constant has no body: nothing can
be proved about its value (log 2, log 4, log 5). -/

namespace Sys2Proof.Config

/-- A fresh value the spec leaves open, drawn by the state's free counter (log 2). Draw `k` has the words and truth values
numbered 2k and 2k + 1, the vectors from 64·k on and the bytes from 1024·k on, so no two draws share one. -/
opaque freeWord : Nat → BitVec 32

/-- A vector image the spec leaves open: v registers at block start (log 4). -/
opaque freeVec : Nat → Vector (BitVec 32) 64

/-- A byte read under a key other than its writer's (R321): unspecified (log 12). -/
opaque freeByte : Nat → BitVec 8

/-- What a byte at an address reads as under a key, stored by a writer under another key in a unit with these bytes (R321):
unspecified (log 12). -/
opaque garbled : Nat → Nat → Nat → List (BitVec 8) → BitVec 8

/-- Which tract of its die holds a physical address (R305 names tracts, not their addresses; log 13). -/
opaque tractOf : Nat → Nat

/-- Which of its H-die's three CXL ports serves a 64-byte unit of a device (R235 and R327 do not say; log 13). -/
opaque cxlPortOf : Nat → Nat

/-- Which H-die serves a function's events (R285 names one, not which; log 13). -/
opaque hdieOf : Nat → Nat

/-- The fused current limit of an island, in units of 100 mA (R326, R329; log 14). -/
opaque ilim : Nat → Nat

/-- The current units an operation requests (R329 gives no figure; log 14). -/
opaque leaveUnits : Nat → Nat

/-- The clock, in MHz, that a governor's voltage supports on an island (R329; log 14). -/
opaque clockOf : Nat → Nat → Nat

/-- SHA-512 (R323, R325): the digest of a byte string, as an uninterpreted function (log 15). -/
opaque sha512 : List (BitVec 8) → List (BitVec 8)

/-- RSASSA-PSS verification over RSA-4096 (R325): exponent, modulus, message, signature (log 15). -/
opaque rsaVerify : List (BitVec 8) → List (BitVec 8) → List (BitVec 8) → List (BitVec 8) → Bool

/-- Bytes of SPDM responses whose content the spec leaves to SPDM 1.3 (R323; log 15). -/
opaque spdmBytes : Nat → Nat → List (BitVec 8)

/-- The nonces DBGNONCE shows, by load attempt (R325; log 5). -/
opaque nonce : Nat → BitVec 128

/-- The order in which a race the spec leaves open falls (log 7). -/
opaque freeBool : Nat → Bool

end Sys2Proof.Config
end

