-- ==== Sys2Proof/Machine/State.lean ====
section
/-! DEFINITION. The machine's state as plain data, the reasons a step can stop, and the state after reset. Every
piece of state that spec/ names has one field here; INVENTORY.md lists them with their rules and reset values.
Fields marked "model" are the model's own bookkeeping. -/

namespace Sys2Proof.Machine

/-- Why the machine stops with a fault. -/
inductive Fault
  /-- Raised by an access whose frame, page-table leaf or base register names a physical address that no memory of the
  module has, or a leaf that names no compute die's memory, which R303 rules out (log 9). Safe: the machine stops where the
  spec names no location. -/
  | noSuchMemory (addr : Nat)
deriving DecidableEq, Repr

/-- Why a step is refused. -/
inductive Refusal
  /-- Raised by Dispatch for an instruction without a meaning. Safe: nothing is claimed of it. -/
  | notModelled (mnemonic : String)
deriving DecidableEq, Repr

/-! ## Strands -/

/-- A fetched line held by a strand (R314): its address and sixteen words. -/
structure LineBuf where
  addr : Dword
  words : Vector Word 16
deriving DecidableEq, Repr

/-- A latched prefix word (R92, R93). -/
inductive Latch
  | none
  | fp (rmv : Bool) (rm : Rm) (sat ftz : Bool)
  | ord (o : Ord)
deriving DecidableEq, Repr

/-- An armed loop (R115): counter, address of the body's last instruction, first body instruction, the restart line of
R292, and its place in arming order. -/
structure Arm where
  lc : Fin 4
  stop : Dword
  body : Dword
  rline : Dword
  seq : Nat
deriving DecidableEq, Repr

/-- A loop forced to end by a checkpoint request (R292). -/
structure Forced where
  lc : Fin 4
  rem : Word
  rline : Dword
  seq : Nat
deriving DecidableEq, Repr

/-- A bound token wait (R36, R120): flag, target, remaining ac as of a CYCLE value for the timeout form, the
predicate it writes, and whether its last ac has passed with the flag not set up to the target (R234). -/
structure TkBind where
  flag : Fin 64
  n : Nat
  timed : Bool
  rem : Nat
  since : Nat
  pd : Fin 8
  expired : Bool := false
deriving DecidableEq, Repr

/-- An atomic whose response is awaited (R117, R196, R286): destination, old value, home die and address. -/
structure AtomicWait where
  dst : Opd
  old : VReg
  home : Nat
  addr : Nat
deriving DecidableEq, Repr

/-- Why a strand waits (R30). -/
inductive Wait
  /-- not waiting -/
  | run
  /-- the instruction at pc found its condition unmet and issues again (R30) -/
  | blocked
  /-- stalled on the scoreboard for a result in progress: not blocked under R30 -/
  | stalled
  /-- stalled on the forwarding mark of an address since a time, which R259 limits -/
  | mark (since : Nat) (va : Nat)
  /-- stalled at a phase freeze or behind a restore (R257, R311) -/
  | freeze
  /-- an `m.bret` or `d.bret` of a bank that has issued and waits (R40) -/
  | bret (bank : Fin 8)
  /-- a bound `tkwait` -/
  | tk (b : TkBind)
  /-- arrived at a group barrier; the queue that the completion pops, if A is one -/
  | gbar (grp : Nat) (q : Option (Fin 16))
  /-- arrived at a phase barrier; the queue that the completion pops, if A is one -/
  | phase (q : Option (Fin 16))
  /-- an `ngo` waiting for leave since a CYCLE value -/
  | leave (since : Nat)
  /-- an atomic awaiting its response -/
  | atomic (w : AtomicWait)
  /-- waiting at the entry of a line whose engine the core lacks (R295) -/
  | ferry
  /-- stopped at a Ferry point by a gather or a checkpoint request (R292, R296) -/
  | gathered
deriving DecidableEq, Repr

/-- What a stopped strand records (R280, R282); `written` is the Cairn as the hardware wrote it. -/
structure StopRec where
  cause : Byte
  pc : Dword
  caddr : Dword
  faddr : Dword
  aux : Dword
  sub : Byte
  cidx : BitVec 16
  precise : Bool
  written : List Byte
deriving DecidableEq, Repr

/-- A strand (R23): the control state that each engine's chain has. `edge` is the address of a completed last body
instruction whose back-edge decision is still to come, and whether the chain ended there. `again` says that, after a
checkpoint that came to nothing, the strand goes back for its forced loops at its next stopping point (R293). `since` is
when the strand's present wait began (R281). -/
structure Strand where
  chain : Bool
  entry : Dword
  pc : Dword
  entering : Bool
  finished : Bool
  line : Option LineBuf
  preds : Vector Bool 8
  b : Vector Dword 4
  lc : Vector Word 4
  arms : List Arm
  slots : Nat
  branch : Option Dword
  edge : Option (Dword × Bool)
  pfx : Latch
  wait : Wait
  stop : Option StopRec
  fpLine : Dword
  forced : List Forced
  forcedFlag : Bool
  again : Bool
  since : Nat
deriving DecidableEq, Repr

/-! ## Engine commands -/

/-- Leave of a command (R168, R205): a grant holds current units of an island until the command completes (R329). -/
inductive LeaveSt
  | none
  | waiting (since : Nat)
  | granted (units : Nat) (isl : Fin 32)
deriving DecidableEq, Repr

/-- One multicast target (R163). -/
inductive McTarget
  | todo
  | claimed (at_ : Word)
  | done
  | failed (cause : Byte)
  | failedClaim (at_ : Word) (cause : Byte)
deriving DecidableEq, Repr

/-- What an engine command is: its instruction and operand fields (R90). -/
inductive CmdOp
  | copyMm (x : CArgs)
  | copyMs (x : CArgs)
  | copySm (x : CArgs)
  | copyl (x : CArgs)
  | sdrain (x : CArgs)
  | scrub (x : CArgs)
  | ldt (x : CArgs)
  | copyMmLen (x : CArgs)
  | copyMsLen (x : CArgs)
  | copySmLen (x : CArgs)
  | copyWide (x : CArgs) (e : CopyExt)
  | copyb (x : CArgs) (e : CopybExt)
  | mcast (x : CArgs) (e : McastExt)
  | mma (x : CArgs) (e : MmaExt)
  | mmas (x : CArgs) (e : MmaExt)
  | mnormGrow (x : NormArgs)
  | mnormTight (x : NormArgs)
  | mrd (x : MrdArgs)
  | mwr (x : MrdArgs)
  | mexpGet (x : MexpArgs)
  | mexpSet (x : MexpArgs)
  | dnormGrow (x : NormArgs)
  | dnormTight (x : NormArgs)
  | drd (x : DrdArgs)
  | dmv (x : DmvArgs)
  | dqk (x : DmvArgs)
  | dpv (x : DmvArgs)
  | gld (x : GldArgs)
  | gsc (x : GldArgs)
deriving DecidableEq, Repr

/-- An engine command (R90, R144, R203) with everything captured at issue and its progress: `ovf` when an element clamped with trap
0x11 enabled; `tries` counts retries of a read that fails at a link (R235); `rd` and `wr` hold the physical ranges that its acquire
reads and its release covers (R57, R153); `adds` is the last atomic add the command made, its old value, address and home, and
`failed` the error-log entry of an add whose response failed (R286). -/
structure Cmd where
  op : CmdOp
  addr : Dword
  idx : BitVec 16
  regs : List Dword
  flag : Option (Fin 64 × Nat)
  guard : Option (Fin 16 × Bool)
  ord : Ord
  pfx : Latch
  nest : Bool
  issued : Nat
  pos : Word
  slotAt : Nat
  served : Bool
  count : Nat
  prog : Nat
  gens : List (Fin 8 × Word)
  leave : LeaveSt
  targets : List McTarget
  data : List Byte
  held : List VReg
  waits : Wait
  stuck : Bool
  ovf : Bool
  tries : Nat
  rd : List (Nat × Nat)
  wr : List (Nat × Nat)
  adds : Option (VReg × Nat × Nat)
  failed : Option (Fin 8 × Nat) := none
deriving DecidableEq, Repr

/-- The command queue, the commands in progress and the index counter of an engine (R32, R144, R280). -/
structure EngQ where
  queue : List Cmd
  prog : List Cmd
  next : BitVec 16
  last : Option Nat
deriving DecidableEq, Repr

/-! ## Block state -/

/-- A token flag (R34): push count, and the ordinals issued and not completed. -/
structure Flag where
  p : Word
  pend : List Nat
deriving DecidableEq, Repr

/-- A ring (R48). -/
structure Ring where
  base : Dword
  cap : Word
  slot : Word
  head : Word
  tail : Word
  claimed : Word
deriving DecidableEq, Repr

/-- A stream register (R146), the next position that a copy or `ldt` reserves, the next position of an in stream that a
reading command reserves (R149), and the positions landed or taken out of order. -/
structure Stream where
  sbind : Dword
  sfmt : Dword
  rd : Word
  wr : Word
  rsv : Word
  rrsv : Word
  early : List Word
deriving DecidableEq, Repr

/-- A code table (R67, R68): sixteen bf16 entries in each copy. -/
structure CodeTable where
  live : Vector (BitVec 16) 16
  shadow : Vector (BitVec 16) 16
  kept : Vector (BitVec 16) 16
  gen : Word
deriving DecidableEq, Repr

/-- An accumulator element (R75): X is G and M joined, and the class T. -/
structure Elem where
  x : BitVec 40
  t : Fin 4
deriving DecidableEq, Repr

/-- A matrix tile (R207). -/
structure Tile where
  e : Vector (BitVec 16) 64
  el : Vector (Vector Elem 64) 64
deriving DecidableEq, Repr

/-- A decode tile (R207). -/
structure DTile where
  nb : Nat
  e : Vector (BitVec 16) 8
  el : Vector (Vector Elem 64) 8
deriving DecidableEq, Repr

/-- A latched grotto descriptor (R224, R226): its address, its entry's limit and its 256 bytes. -/
structure GDesc where
  base : Dword
  limit : Dword
  bytes : List Byte
deriving DecidableEq, Repr

/-- The holder of a register bank (R40). -/
inductive Holder | v | m | d
deriving DecidableEq, Repr

/-- One level of a nest (R165): its count, its count register and up to two stepped registers with their steps. -/
structure NestLevel where
  count : Word
  creg : Fin 32
  steps : List (Fin 32 × Dword)
deriving DecidableEq, Repr

/-- One captured body command (R166): the command, its predicate's value and address. -/
structure NestCmd where
  op : CmdOp
  on : Bool
  addr : Dword
deriving DecidableEq, Repr

/-- The live nest (R166); its leave is `units` of island `isl` (R329). -/
structure LiveNest where
  levels : List (Fin 6 × NestLevel)
  body : List NestCmd
  regs : Vector Dword 32
  index : Vector Word 6
  at_ : Nat
  allIssued : Bool
  units : Nat
  isl : Fin 32
deriving DecidableEq, Repr

/-- The loop nest of the a engine. -/
structure Nest where
  shadow : List (Fin 6 × NestLevel)
  live : Option LiveNest
deriving DecidableEq, Repr

/-- A result in flight on the scoreboard (R104), and the number of its read where that may still take effect later than the load
issued (R53). -/
structure Inflight where
  eng : Eng
  dst : Opd
  sval : Dword
  vval : VReg
  late : Option Nat := none
deriving DecidableEq, Repr

/-- The state a round mark holds (R140, R265). -/
structure Mark where
  strands : Vector Strand 6
  s : Vector Dword 64
  a : Vector Dword 32
  v : Vector VReg 64
  vm : Vector Mask 8
  q : Vector (List Dword) 16
  vq : Vector (List VReg) 4
  pops : Vector Nat 20
  rings : Vector Ring 32
  streams : Vector Stream 16
  gs : Vector (Option Bool) 16
  ps : Vector Word 64
  holders : Vector Holder 8
  nest : Nest
  nexts : Vector (BitVec 16) 4
  inflight : List Inflight
deriving DecidableEq, Repr

/-- Where a scouted round stands (R135). -/
inductive RoundSt
  /-- no scouted loop -/
  | closed
  /-- in the guess call, to return to a point -/
  | guess (ret : Dword)
  /-- in the body of a round -/
  | body
  /-- after this round's `accept` -/
  | accepted
  /-- discarded, to run again from its mark, serially or at its declared K (R140) -/
  | rerun (serial : Bool)
deriving DecidableEq, Repr

/-- A buffered store of a slot (R136): virtual address and bytes. -/
structure BufSt where
  addr : Dword
  bytes : List Byte
deriving DecidableEq, Repr

/-- The scout unit (R133 to R140) and the fields of SCOUTK (R128). -/
structure Scout where
  round : RoundSt
  desc : Dword
  carries : Nat
  cin : Fin 4
  cout : Fin 4
  regions : List (Dword × Word)
  tol : Word
  carry : Dword
  guess : Dword
  target : Dword
  ret : Dword
  iter : Word
  acc : Nat
  kr : Nat
  k : Nat
  failed : List Nat
  bufs : Vector (List BufSt) 8
  cins : List VReg
  mark : Option Mark
deriving DecidableEq, Repr

/-- Ferry of a block (R295, R296). -/
inductive FerrySt
  | none
  | gather (e : Eng)
deriving DecidableEq, Repr

/-- A checkpoint request (R292) and when it was made; while a phase change of the context is pending, it waits for the switch
(R256). -/
inductive CkptSt
  | none
  | asked (since : Nat)
  | waiting
deriving DecidableEq, Repr

/-- A block on a core, or the free core in the model's focus when `placed` is false (R23 to R26). `pops` counts the entries
popped from q0 to q15 and then from vq0 to vq3 (model, log 7). `stood` says that the block stands gathered for a Ferry or a
checkpoint: no strand of it goes on and no command starts (R292, R296). `tables` is what the loading of its attribute tables waits
for while it has not started (R90). -/
structure Block where
  uid : Nat
  placed : Bool
  started : Bool
  task : Nat
  ctx : Nat
  part : Nat
  bidx : BitVec 24
  die : Fin 8
  core : Nat
  image : Dword
  scratch : Word
  ferryMask : BitVec 16
  slotFlag : Bool
  slot : Option Nat
  strands : Vector Strand 6
  s : Vector Dword 64
  a : Vector Dword 32
  v : Vector VReg 64
  vm : Vector Mask 8
  holders : Vector Holder 8
  rsto : Vector Word 193
  acc : Vector Tile 4
  dacc : Vector DTile 2
  gd : Vector (Option GDesc) 4
  q : Vector (List Dword) 16
  vq : Vector (List VReg) 4
  pops : Vector Nat 20
  engs : Vector EngQ 4
  attrs : Vector (Vector Word 32) 4
  flags : Vector Flag 64
  gs : Vector (Option Bool) 16
  rings : Vector Ring 32
  streams : Vector Stream 16
  cts : Vector CodeTable 8
  slipw : Byte
  status : BitVec 6
  trapcause : Byte
  cyc : Nat
  cycFrac : Nat
  grants : Word
  stall : Word
  trapen : Bool
  inflight : List Inflight
  nest : Nest
  scout : Scout
  ferry : FerrySt
  ckpt : CkptSt
  stood : Bool
  tables : Wait
  idle : Nat
deriving DecidableEq, Repr

/-! ## Contexts and functions -/

/-- A map store entry (R249, R300): one region in one phase. -/
structure MapEntry where
  base : Dword
  limit : Dword
  kind : Byte
  perm : Byte
  kspec : List Byte
  state : Word
  frames : List Dword
deriving DecidableEq, Repr

/-- A phase change under way (R251 to R259): `pending` is false for early work of PRE. `moved` are the granules that have been copied,
by region and number, and `filled` those that have been zero-filled. -/
structure Change where
  target : Nat
  late : Bool
  pending : Bool
  arrived : List Nat
  moved : List (Nat × Nat)
  filled : List (Nat × Nat) := []
deriving DecidableEq, Repr

/-- A forwarding mark (R259): region, granule, and the physical source or none for zeros. -/
structure FwdMark where
  region : Nat
  granule : Nat
  src : Option Nat
deriving DecidableEq, Repr

/-- Arrivals of one generation of a barrier group (R124). -/
structure Bar where
  task : Nat
  grp : Nat
  arrived : List Nat
deriving DecidableEq, Repr

/-- A context slot: its registers (R275, R287, R301, R332), its peer table, which names a package and a port for each index
(R8), and what the hardware keeps for it; `porterDown` says that a Porter's own fault has stopped the work on its marks (R259). -/
structure Ctx where
  cmd : Fin 16
  arg : Dword
  st : Fin 4
  first : Byte
  valid : Bool
  acctrap : Bool
  latelim : BitVec 14
  mapbase : Dword
  mapn : BitVec 10
  mappm1 : Fin 16
  mapst : Fin 4
  mapcode : Fin 64
  mapentry : Word
  ptroot : Dword
  seovf : Vector Dword 8
  phases : Nat
  regions : Nat
  pre : BitVec 16
  store : List MapEntry
  phase : Fin 16
  change : Option Change
  marks : List FwdMark
  bars : List Bar
  porterDown : Bool
  peers : Vector (Nat × Fin 16) 16
deriving DecidableEq, Repr

/-- A launch queue's registers (R266). -/
structure LaunchQ where
  base : Dword
  cbase : Dword
  en : Bool
  ctx : Fin 16
  log2n : BitVec 5
  tail : Word
  head : Word
  done : Word
deriving DecidableEq, Repr

/-- TDISP state of a function (R324). -/
inductive Tdi | unlocked | locked | run | error
deriving DecidableEq, Repr

/-- A virtual function's registers (R266, R284, R304, R325) and its TDI. -/
structure Vf where
  lq : Vector LaunchQ 8
  evbase : Dword
  even : Bool
  evlog : BitVec 5
  evtail : Word
  evhead : Word
  evlost : Bool
  evcount : Word
  tlbgo : Bool
  tlbctx : Fin 16
  tlbva : Dword
  tlbnum : BitVec 12
  nonce : BitVec 128
  dbgload : List Byte
  dbgres : Fin 4
  tdi : Tdi
  ide : Bool
deriving DecidableEq, Repr

/-! ## Tasks -/

/-- A launch packet (R268). -/
structure Packet where
  taskid : Dword
  dies : BitVec 16
  ferry : BitVec 16
  blocks : Word
  image : Dword
  entries : Vector Word 6
  scratch : Word
  tok : Byte
  flags : Byte
  slip : Byte
  kind : Byte
  est : Word
  param : Dword
  gtab : Dword
  rings : Dword
  strms : Dword
  deps : Vector (BitVec 16) 4
  done : Dword
deriving DecidableEq, Repr

/-- A stream-transfer descriptor (R272). -/
structure Xfer where
  dst : Dword
  src : Dword
  len : Word
  id : BitVec 16
  dom : Byte
  fd : Byte
  done : Dword
deriving DecidableEq, Repr

/-- A group-table entry with its member list (R27). -/
structure Group where
  index : Nat
  kind : Nat
  members : List Nat
deriving DecidableEq, Repr

/-- A ring descriptor (R269). -/
structure RingDesc where
  base : Dword
  cap : Word
  slot : Word
deriving DecidableEq, Repr

/-- Where a task came from: a host queue or a block. -/
inductive Source
  | host (f : Nat) (n : Nat)
  | block (uid : Nat)
deriving DecidableEq, Repr

/-- A task or transfer (R23, R270, R274). `key` numbers tasks; `held` and `want` are the physical dies whose scoreboard
entry it holds or still waits for; `doneIdx` are the completed blocks, and `drains` the dies on which it is drained, each
with the task drained for (R291). `sees` are the writes that a device-side launch makes known to the child's strands, none for a
host's launch, before which everything is ordered (R126, R275), and `clock` is the clock of that release (R56). `stall` is what a
transfer waits for (R259). -/
structure Task where
  key : Nat
  ctx : Nat
  src : Source
  pkt : Packet
  xfer : Option Xfer
  groups : List Group
  rings : List RingDesc
  strms : List (Dword × Dword)
  held : List Nat
  want : List Nat
  entered : Nat
  est : Word
  doneIdx : List Nat
  drains : List (Nat × Nat)
  sees : Option (List Nat)
  clock : Vector Dword 10
  stall : Wait := .run
deriving DecidableEq, Repr

/-- The retirement of a context's transfers of one id: when the last one was, and the writes that a dependent task's blocks acquire
with it (R273). -/
structure Retired where
  ctx : Nat
  id : BitVec 16
  at_ : Nat
  ids : List Nat
deriving DecidableEq, Repr

/-- A checkpointed block in a save frame (R293, R294); `sdie` says that it needs an S-die. -/
structure Saved where
  part : Nat
  frame : Nat
  sdie : Bool
  block : Block
deriving DecidableEq, Repr

/-! ## Dies, hub and telemetry -/

/-- A cached leaf (R304): context, first page address, size exponent, frame and permissions. -/
structure TlbEnt where
  ctx : Nat
  va : Nat
  log2 : Nat
  frame : Nat
  perm : Nat
deriving DecidableEq, Repr

/-- An event on its way (R284). -/
structure Event where
  vf : Nat
  typ : Byte
  cause : Byte
  die : Byte
  core : Byte
  ctx : Word
  addr : Dword
  aux : Dword
  time : Dword
deriving DecidableEq, Repr

/-- A Sump entry (R312): pool's context and region, page, confirmed, and when it expires. -/
structure SumpEnt where
  ctx : Nat
  rgn : Nat
  page : Nat
  cf : Bool
  expiry : Nat
deriving DecidableEq, Repr

/-- An error-log entry (R286). -/
structure LogEnt where
  index : Nat
  ctx : Nat
  uid : Nat
  eng : Eng
  old : VReg
  addr : Nat
  die : Nat
  core : Nat
deriving DecidableEq, Repr

/-- Refresh work of one bank (R305, R307): owed, the rotation in which a refresh fell due, the rotations whose alerts await
their answer, and whether an alert found 8 owed, which are then issued first. -/
structure BankSt where
  tract : Nat
  bank : Nat
  owed : Nat
  due : Option Nat
  alerts : List Nat
  back : Bool
deriving DecidableEq, Repr

/-- A row's activation counter and whether its check bits hold (R306). -/
structure RowCtr where
  tract : Nat
  bank : Nat
  row : Nat
  count : Nat
  good : Bool
deriving DecidableEq, Repr

/-- A compute die: clocks (R56), TLB (R304), event buffer with its coalescing count and the function of the last event
coalesced (R285), Sump (R312), error log (R286), refresh, row counters, the log of failed counters and replays (R305 to R308), core
slots that a rotation gives to refresh (R305, R307), the scrub slots used in this rotation (R305), the contexts and phases that
its shadow range registers hold (R301) and when its controller last decided a pre-emption (R291). -/
structure Die where
  clock : Vector Dword 10
  tlb : List TlbEnt
  evbuf : List Event
  coal : Nat
  coalVf : Nat
  sump : List SumpEnt
  sumpIrq : Bool
  sumpdl : BitVec 10
  vetoed : List (Nat × Nat × Nat × Word)
  errlog : List LogEnt
  banks : List BankSt
  rows : List RowCtr
  tq : List (Nat × Nat × Nat)
  replays : Vector Nat 4
  actth : BitVec 16
  decided : Option Nat
  scrubs : Nat
  rowlog : List (Nat × Nat × Nat)
  taken : List (Nat × Nat)
  shadow : List (Nat × Nat)
deriving DecidableEq, Repr

/-- Per-core telemetry (R330), the slice's failed banks (R328), and whether the core stands zeroed since its quad was granted
(R322). -/
structure CoreTel where
  slips : Nat
  ferry : Nat
  scovf : Nat
  rebuilds : Nat
  fenced : Bool
  failed : List Nat
  rebuilding : Bool
  zeroed : Bool
deriving DecidableEq, Repr

/-- Per-tract telemetry (R330). -/
structure TractTel where
  fenced : Bool
  replay : Nat
  abslip : Nat
  corr : Nat
  uncor : Nat
deriving DecidableEq, Repr

/-- Per-link telemetry (R330). -/
structure LinkTel where
  fenced : Bool
  retry : Nat
deriving DecidableEq, Repr

/-- A request for leave (R168, R205): the block, the engine, the command's index or none for an `ngo`. -/
structure LeaveReq where
  uid : Nat
  eng : Eng
  cmd : Option (BitVec 16)
  units : Nat
  since : Nat
deriving DecidableEq, Repr

/-- An island's governor (R329, R330). -/
structure Isl where
  vmv : Nat
  fmhz : Nat
  iuse : Nat
  grants : Nat
  stall : Nat
  reqs : List LeaveReq
deriving DecidableEq, Repr

/-- An SPDM responder (R323): how far its connection has come. -/
inductive SpdmSt | start | version | caps | negotiated | exchanged | session
deriving DecidableEq, Repr

/-- An H-die: held events (R285), launches waiting for room (R270), the SPDM responder with its last response, and the clock of
the host's and the tier's writes (R56). -/
structure HDie where
  clock : Dword
  held : List Event
  spdm : SpdmSt
  response : List Byte
deriving DecidableEq, Repr

/-- The hub controller's registers by partition, function and unit (R287, R293, R319, R325, R327), and the memory that the
firmware has assigned to each partition, as ranges of physical addresses (R317). -/
structure Hub where
  partdies : Vector Word 32
  vfpart : Vector (BitVec 6) 64
  dbgen : Vector (BitVec 4) 32
  cairnbase : Vector Dword 32
  savebase : Vector Dword 32
  savecnt : Vector (BitVec 16) 32
  keys : Vector Nat 32
  nextKey : Nat
  digest : Vector (List Byte) 32
  expiry : Vector Dword 32
  frames : Vector (List (Nat × Nat)) 32
  zeroing : List (Nat × Nat × Nat)
  fenceIdx : BitVec 9
  fenceUnit : Fin 16
  fenceRefused : Bool
deriving DecidableEq, Repr

/-! ## What is known of writes (R52 to R60) -/

/-- One who reads and writes memory (R53): a strand; what a strand hands on to the commands it issues; a command; every strand
and engine of a block; a transfer, or what a task's completed blocks have come to (R272, R275). -/
inductive Party
  | strand (uid : Nat) (e : Eng)
  | issue (uid : Nat) (e : Eng)
  | cmd (uid : Nat) (e : Eng) (idx : BitVec 16)
  | block (uid : Nat)
  | task (key : Nat)
deriving DecidableEq, Repr

/-- Whose access is being made, the bytes of its single-copy-atomic unit (R47), and, for an atomic, the writes that its own goes under
in coherence order (R52). -/
structure Actor where
  party : Party
  unit : Nat
  under : Option (List Nat) := none
deriving DecidableEq, Repr

/-- The read of a load in flight that is not settled (R53): its number, whose it is, the bytes of each access, and of each place read
its virtual and physical address and the elements of the result that it gives. -/
structure LateRead where
  id : Nat
  party : Party
  unit : Nat
  parts : List (Nat × Nat × List Nat)
deriving DecidableEq, Repr

/-- A unit that a write has overwritten: its number, address and bytes before in coherence order, who can no longer read these (R52),
the commands whose acquire has gone before the write, which do not read it (R57), and whether the write is a read-modify-write's,
which nothing parts from what it read (R52). -/
structure Old where
  id : Nat
  addr : Nat
  bytes : List Byte
  known : List Party
  barred : List Party
  rmw : Bool := false
deriving DecidableEq, Repr

/-- What releases and acquires meet at (R49, R55, R57): the bytes of an access, a token flag's ordinal, a queue's entry by its
number since reset, the head or the tail of a ring, a barrier group. -/
inductive SyncObj
  | loc (a n : Nat)
  | flag (uid : Nat) (n : Fin 64) (k : Nat)
  | q (uid : Nat) (n : Fin 16) (k : Nat)
  | vq (uid : Nat) (n : Fin 4) (k : Nat)
  | ring (uid : Nat) (n : Fin 32) (head : Bool)
  | bar (task : Nat) (grp : Nat)
deriving DecidableEq, Repr

/-- A release that acquires may synchronise with (R55, R56): where, the write that it is, the later writes there that are no
read-modify-writes on it, by which block and with what scope, its die's clock, and the writes it carries. -/
structure Released where
  obj : SyncObj
  own : List Nat
  cover : List Nat
  uid : Nat
  part : Nat
  die : Fin 8
  task : Nat
  bidx : Nat
  scope : Scope
  clock : Vector Dword 10
  carries : List Nat
deriving DecidableEq, Repr

/-! ## The module -/

/-- What acts next (model, log 1): a strand's next instruction; an event; a read of a register window, or of memory by the
firmware; or an error that a stored unit of main memory suffers, which its code can correct or not. -/
inductive Act
  | strand (uid : Nat) (e : Eng)
  | event (i : Instr)
  | busRead (w : Window) (off : Nat)
  | hubRead (addr n : Nat)
  | hubRegs (die : Fin 8) (core : Nat)
  | upset (unit : Nat) (bad : Bool)
deriving DecidableEq, Repr

/-- One entry of the agenda: the time that passes, in 1/90 ns, and the act (model, log 1). -/
structure Turn where
  dt : Nat
  act : Act
deriving DecidableEq, Repr

/-- The whole module. `blk` is the block in focus and `others` the rest; `agenda` says which agent acts next, and `eng` which strand
of the focused block acts when the agenda is empty (model, log 1). `free` counts the free values drawn (model, log 2). `mem` holds
the newest write of every byte; `olds` are the overwritten units that someone may still read, `rels` the releases that carry writes,
`lates` the reads of loads in flight that are not settled, `corrected` the units whose correction an instruction that reads them
more than once has counted (R309), and `actor` whose access is being made, where none is one that sees every write (model, log 7).
`upsets` are stored units of main memory with an error that their code corrects at every read (model, log 38), and `bus` is what the
last read of a window or by the firmware answered (model, log 55). -/
structure State where
  blk : Block
  others : List Block
  eng : Eng
  agenda : List Turn
  free : Nat
  time : Nat
  nextUid : Nat
  nextKey : Nat
  mem : List Host.Cell
  poison : List Nat
  unitKeys : List (Nat × Nat)
  tasks : List Task
  waiting : List Task
  retired : List Retired := []
  saved : List Saved
  ctxs : Vector Ctx 1024
  vfs : Vector Vf 64
  dies : Vector Die 8
  cores : Vector CoreTel 320
  tracts : Vector TractTel 32
  links : Vector LinkTel 50
  isls : Vector Isl 32
  hdies : Vector HDie 2
  hub : Hub
  olds : List Old
  nextOld : Nat
  rels : List Released
  lates : List LateRead := []
  corrected : Option (List Nat) := none
  actor : Option Actor
  upsets : List Nat
  bus : List Byte
deriving DecidableEq, Repr

/-! ## Reset -/

def Strand.reset : Strand :=
  { chain := false, entry := 0, pc := 0, entering := true, finished := false, line := none,
    preds := (Vector.replicate 8 false).set 0 true, b := Vector.replicate 4 0, lc := Vector.replicate 4 0, arms := [],
    slots := 0, branch := none, edge := none, pfx := .none, wait := .run, stop := none, fpLine := 0, forced := [],
    forcedFlag := false, again := false, since := 0 }

def EngQ.reset : EngQ := { queue := [], prog := [], next := 0, last := none }

def Ring.reset : Ring := { base := 0, cap := 0, slot := 0, head := 0, tail := 0, claimed := 0 }

/-- SBIND's reset value (R146): CAP 16 and BASE = (slice size - 80 KiB + 5 KiB·g) / 64. -/
def sbindReset (slice g : Nat) : Dword :=
  BitVec.ofNat 64 (16 * 2 ^ 48 + ((slice - 81920 + 5120 * g) / 64) * 2 ^ 6)

/-- SFMT's reset value (R146): VB 7, every other field 0. -/
def sfmtReset : Dword := BitVec.ofNat 64 (7 * 2 ^ 20)

/-- The slice of a core of die `d` (R1, R43). -/
def sliceSize (d : Nat) : Nat := if d < 4 then 3 * 2 ^ 20 else 4 * 2 ^ 20

def Stream.reset (slice g : Nat) : Stream :=
  { sbind := sbindReset slice g, sfmt := sfmtReset, rd := 0, wr := 0, rsv := 0, rrsv := 0,
    early := [] }

def CodeTable.reset : CodeTable :=
  { live := Vector.replicate 16 0, shadow := Vector.replicate 16 0, kept := Vector.replicate 16 0, gen := 0 }

def Elem.zero : Elem := { x := 0, t := 0 }

def Tile.reset : Tile := { e := Vector.replicate 64 0, el := Vector.replicate 64 (Vector.replicate 64 Elem.zero) }

def DTile.reset : DTile :=
  { nb := 8, e := Vector.replicate 8 0, el := Vector.replicate 8 (Vector.replicate 64 Elem.zero) }

def Scout.reset : Scout :=
  { round := .closed, desc := 0, carries := 0, cin := 0, cout := 0, regions := [], tol := 0, carry := 0, guess := 0,
    target := 0, ret := 0, iter := 0, acc := 0, kr := 0, k := 0, failed := [], bufs := Vector.replicate 8 [], cins := [],
    mark := none }

/-- The seed of stochastic generator `n` of the block with index `idx` (R71). -/
def rstoSeed (idx n : Nat) : Word :=
  let x := (idx * 0x9E3779B9 + n * 0x85EBCA6B + 1) % 2 ^ 32
  if x = 0 then 1 else BitVec.ofNat 32 x

/-- A vector of zeros. -/
def vzero : VReg := Vector.replicate 64 0

/-- A core of die `d` with the block state of R25 and nothing placed on it. -/
def Block.reset (d : Fin 8) : Block :=
  { uid := 0, placed := false, started := false, task := 0, ctx := 0, part := 0, bidx := 0, die := d, core := 0, image := 0,
    scratch := 0, ferryMask := 0, slotFlag := false, slot := none, strands := Vector.replicate 6 Strand.reset,
    s := Vector.replicate 64 0, a := Vector.replicate 32 0, v := Vector.replicate 64 vzero,
    vm := (Vector.replicate 8 0).set 0 (BitVec.allOnes 256), holders := Vector.replicate 8 .v,
    rsto := Vector.ofFn fun n => rstoSeed 0 n.val, acc := Vector.replicate 4 Tile.reset,
    dacc := Vector.replicate 2 DTile.reset, gd := Vector.replicate 4 none, q := Vector.replicate 16 [],
    vq := Vector.replicate 4 [], pops := Vector.replicate 20 0, engs := Vector.replicate 4 EngQ.reset,
    attrs := Vector.replicate 4 (Vector.replicate 32 0), flags := Vector.replicate 64 { p := 0, pend := [] },
    gs := Vector.replicate 16 none, rings := Vector.replicate 32 Ring.reset,
    streams := Vector.ofFn fun g => Stream.reset (sliceSize d.val) g.val, cts := Vector.replicate 8 CodeTable.reset,
    slipw := 64, status := 0, trapcause := 0, cyc := 0, cycFrac := 0, grants := 0, stall := 0, trapen := false,
    inflight := [], nest := { shadow := [], live := none }, scout := Scout.reset, ferry := .none, ckpt := .none,
    stood := false, tables := .run, idle := 0 }

def Ctx.reset : Ctx :=
  { cmd := 0, arg := 0, st := 0, first := 0, valid := false, acctrap := false, latelim := 100, mapbase := 0, mapn := 0,
    mappm1 := 0, mapst := 0, mapcode := 0, mapentry := 0, ptroot := 0, seovf := Vector.replicate 8 0, phases := 1,
    regions := 0, pre := 0, store := [], phase := 0, change := none, marks := [], bars := [], porterDown := false,
    peers := Vector.ofFn fun i => (i.val, i) }

def LaunchQ.reset : LaunchQ :=
  { base := 0, cbase := 0, en := false, ctx := 0, log2n := 4, tail := 0, head := 0, done := 0 }

def Vf.reset : Vf :=
  { lq := Vector.replicate 8 LaunchQ.reset, evbase := 0, even := false, evlog := 6, evtail := 0, evhead := 0,
    evlost := false, evcount := 0, tlbgo := false, tlbctx := 0, tlbva := 0, tlbnum := 0, nonce := 0,
    dbgload := [], dbgres := 0, tdi := .unlocked, ide := false }

def Die.reset : Die :=
  { clock := Vector.replicate 10 0, tlb := [], evbuf := [], coal := 0, coalVf := 0, sump := [], sumpIrq := false, sumpdl := 50,
    vetoed := [], errlog := [], banks := [], rows := [], tq := [], replays := Vector.replicate 4 0, actth := 4096,
    decided := none, scrubs := 0, rowlog := [], taken := [], shadow := [] }

/-- The nominal clock of an island in MHz (R1, R7, R329); H-dies and PHY islands have no arithmetic clock. -/
def nominalMhz (i : Nat) : Nat := if i < 16 then 3600 else if i < 28 then 3000 else 0

def Hub.reset : Hub :=
  { partdies := Vector.replicate 32 0, vfpart := Vector.replicate 64 0, dbgen := Vector.replicate 32 0,
    cairnbase := Vector.replicate 32 0, savebase := Vector.replicate 32 0, savecnt := Vector.replicate 32 0,
    keys := Vector.replicate 32 0, nextKey := 1, digest := Vector.replicate 32 [], expiry := Vector.replicate 32 0,
    frames := Vector.replicate 32 [], zeroing := [], fenceIdx := 0, fenceUnit := 0, fenceRefused := false }

/-- The module right after reset: the registers of the hub and function windows at their stated values, no task, no
context, memory with nothing listed, and no block placed. -/
def State.reset : State :=
  { blk := Block.reset 0, others := [], eng := .c, agenda := [], free := 0, time := 0, nextUid := 1, nextKey := 1, mem := [],
    poison := [], unitKeys := [], tasks := [], waiting := [], saved := [], ctxs := Vector.replicate 1024 Ctx.reset,
    vfs := Vector.ofFn fun f => { Vf.reset with nonce := Config.nonce f.val }, dies := Vector.replicate 8 Die.reset,
    cores := Vector.replicate 320
      { slips := 0, ferry := 0, scovf := 0, rebuilds := 0, fenced := false, failed := [], rebuilding := false, zeroed := false },
    tracts := Vector.replicate 32 { fenced := false, replay := 0, abslip := 0, corr := 0, uncor := 0 },
    links := Vector.replicate 50 { fenced := false, retry := 0 },
    isls := Vector.ofFn fun i =>
      { vmv := 400, fmhz := nominalMhz i.val, iuse := 0, grants := 0, stall := 0, reqs := [] },
    hdies := Vector.replicate 2 { clock := 0, held := [], spdm := .start, response := [] }, hub := Hub.reset,
    olds := [], nextOld := 0, rels := [], actor := none, upsets := [], bus := [] }

end Sys2Proof.Machine
end

