-- ==== Sys2Proof/Machine/Mem.lean ====
section
/-! DEFINITION. Memory as one list of (address, byte) cells in canonical form, and the module's physical address map
(log 9): which keys hold the memories of the dies, the tier, the scratch slices, the engines' SRAM and peer packages. -/

namespace Sys2Proof.Machine

/-- What an unlisted byte reads as (log 10). -/
def Mem.unlisted : Byte := 0

/-- The canonical form: addresses strictly rising, no entry equal to what an unlisted address reads as. -/
def Mem.wf (m : List Host.Cell) : Bool :=
  decide (m.Pairwise fun x y => x.1 < y.1) && m.all fun c => c.2 != Mem.unlisted

/-- The byte at an address. -/
def Mem.read : List Host.Cell → Nat → Byte
  | [], _ => Mem.unlisted
  | c :: r, a => if c.1 = a then c.2 else Mem.read r a

/-- The cells below an address. -/
def Mem.below (m : List Host.Cell) (a : Nat) : List Host.Cell := m.filter fun c => c.1 < a

/-- The cells at or above an address. -/
def Mem.above (m : List Host.Cell) (a : Nat) : List Host.Cell := m.filter fun c => a ≤ c.1

/-- The cells that hold bytes from an address upward. -/
def Mem.cells : Nat → List Byte → List Host.Cell
  | _, [] => []
  | a, b :: r => if b = Mem.unlisted then Mem.cells (a + 1) r else (a, b) :: Mem.cells (a + 1) r

/-- Bytes written from an address upward. -/
def Mem.write (m : List Host.Cell) (a : Nat) (bs : List Byte) : List Host.Cell :=
  Mem.below m a ++ Mem.cells a bs ++ Mem.above m (a + bs.length)

/-- `n` bytes from an address upward. -/
def Mem.readN (m : List Host.Cell) (a n : Nat) : List Byte := (List.range n).map fun i => Mem.read m (a + i)

/-- `n` bytes copied from one place to another as one act; the source is read before the destination is written. -/
def Mem.copy (m : List Host.Cell) (src dst n : Nat) : List Host.Cell :=
  Mem.below m dst ++ ((m.filter fun c => src ≤ c.1 && c.1 < src + n).map fun c => (c.1 - src + dst, c.2)) ++
    Mem.above m (dst + n)

/-- `n` bytes set to zero. -/
def Mem.zero (m : List Host.Cell) (a n : Nat) : List Host.Cell := Mem.below m a ++ Mem.above m (a + n)

/-- Little-endian number of bytes (R5). -/
def leNat : List Byte → Nat
  | [] => 0
  | b :: r => b.toNat + 256 * leNat r

/-- The `n` little-endian bytes of a number. -/
def leBytes : Nat → Nat → List Byte
  | 0, _ => []
  | n + 1, v => BitVec.ofNat 8 v :: leBytes n (v / 256)

/-! The physical map (log 9). -/

/-- Memory of compute die `d` (R1, R4). -/
def dieMemSize (d : Nat) : Nat := if d < 4 then 32 * 2 ^ 30 else 192 * 2 ^ 30

def dieMemBase (d : Nat) : Nat := d * 2 ^ 40

/-- The tier behind H-die `h` (0 for d8, 1 for d9). -/
def tierBase (h : Nat) : Nat := 2 ^ 44 * (1 + h)

/-- The memory of the tier behind one H-die: half of R4's 8 TiB (log 9). -/
def tierSize : Nat := 2 ^ 42

/-- The slice of core `c` of physical die `d`. -/
def scratchBase (d c : Nat) : Nat := 2 ^ 50 + (40 * d + c) * 2 ^ 22

/-- The synchronisation engine's SRAM of physical die `d`. -/
def seBase (d : Nat) : Nat := 2 ^ 51 + d * 2 ^ 23

/-- Address 0 of peer package `n`. -/
def farBase (n : Nat) : Nat := 2 ^ 60 + n * 2 ^ 57

/-- Kinds of physical memory. -/
inductive PhysKind
  | dram (d : Nat)
  | tier (h : Nat)
  | scratch (d c : Nat)
  | se (d : Nat)
  | far (n : Nat)
  | none
deriving DecidableEq, Repr

/-- What holds a physical address. -/
def physKind (p : Nat) : PhysKind :=
  if p < 2 ^ 43 then (if p % 2 ^ 40 < dieMemSize (p / 2 ^ 40) then .dram (p / 2 ^ 40) else .none)
  else if p < 2 ^ 44 then .none
  else if p < 3 * 2 ^ 44 then (if p % 2 ^ 44 < tierSize then .tier (p / 2 ^ 44 - 1) else .none)
  else if p < 2 ^ 50 then .none
  else if p < 2 ^ 50 + 320 * 2 ^ 22 then
    (let k := (p - 2 ^ 50) / 2 ^ 22; if (p - 2 ^ 50) % 2 ^ 22 < sliceSize (k / 40) then .scratch (k / 40) (k % 40) else .none)
  else if p < 2 ^ 51 then .none
  else if p < 2 ^ 51 + 8 * 2 ^ 23 then .se ((p - 2 ^ 51) / 2 ^ 23)
  else if p < 2 ^ 60 then .none
  else .far ((p - 2 ^ 60) / 2 ^ 57)

/-- Whether an address is in memory encrypted per unit and covered by poison (R309, R321). -/
def isDram (p : Nat) : Bool :=
  match physKind p with
  | .dram _ => true
  | .tier _ => true
  | _ => false

/-- The home of a physical address (R51): 0 to 7 for compute dies, 8 and 9 for H-dies, 10 for peer packages. -/
def homeOf (p : Nat) : Nat :=
  match physKind p with
  | .dram d => d
  | .tier h => 8 + h
  | .scratch d _ => d
  | .se d => d
  | _ => 10

/-! Links (R2, R327, R330). -/

/-- The compute dies that an open ring link or bridge joins to die `d`. -/
def dieNext (links : Vector LinkTel 50) (d : Nat) : List Nat :=
  (if (links[Fin.ofNat 50 (38 + d % 8)]).fenced then [] else [(d + 1) % 8]) ++
    (if (links[Fin.ofNat 50 (38 + (d + 7) % 8)]).fenced then [] else [(d + 7) % 8]) ++
    (if (links[Fin.ofNat 50 (46 + d % 4)]).fenced then [] else [(d + 4) % 8])

/-- The dies reached from some dies over `n` hops more. -/
def dieSpread (links : Vector LinkTel 50) : Nat → List Nat → List Nat
  | 0, l => l
  | n + 1, l => dieSpread links n (l ++ (l.flatMap (dieNext links)).eraseDups.filter fun d => !l.contains d)

/-- Whether compute die `d` has a path to compute die `t` over ring links and bridges (R2, R327). -/
def dieReach (links : Vector LinkTel 50) (d t : Nat) : Bool := d == t || (dieSpread links 7 [d]).contains t

/-- Whether compute die `d` has a path to H-die `h`. -/
def hubReach (links : Vector LinkTel 50) (d h : Nat) : Bool :=
  (List.range 8).any fun x => dieReach links d x && !(links[Fin.ofNat 50 (22 + 2 * x + h)]).fenced

/-- Whether compute die `d` has a path to a peer port, and the port is open (R327). Ports 0 to 7 are on H-die d8, ports 8 to 15 on d9
(R2 and R330 do not say; log 53). -/
def portOpen (links : Vector LinkTel 50) (d : Nat) (k : Fin 16) : Bool :=
  hubReach links d (k.val / 8) && !(links[Fin.ofNat 50 k.val]).fenced

/-- Whether a physical address of this package is reachable from die `d` (R327). -/
def pathOpen (links : Vector LinkTel 50) (d p : Nat) : Bool :=
  match physKind p with
  | .dram t => dieReach links d t
  | .scratch t _ => dieReach links d t
  | .se t => dieReach links d t
  | .tier h =>
    hubReach links d h && !(links[Fin.ofNat 50 (16 + 3 * h + Config.cxlPortOf (p / 64) % 3)]).fenced
  | .far _ => true
  | .none => true

/-- The links over which traffic to H-die `h` can go: those to it, the ring and the bridges. -/
def hubLinks (h k : Nat) : Bool := (22 ≤ k && k < 38 && k % 2 == h) || 38 ≤ k

/-- Whether traffic to a peer port can go over link `k` (R330's numbers). -/
def portOver (j : Fin 16) (k : Nat) : Bool := k == j.val || hubLinks (j.val / 8) k

/-- Whether traffic from die `d` to a physical address of this package can go over link `k`: the port that it ends at, the links to
that port's H-die, the ring and the bridges. -/
def goesOver (d p k : Nat) : Bool :=
  match physKind p with
  | .dram t => t != d && 38 ≤ k
  | .scratch t _ => t != d && 38 ≤ k
  | .se t => t != d && 38 ≤ k
  | .tier h => k == 16 + 3 * h + Config.cxlPortOf (p / 64) % 3 || hubLinks h k
  | .far _ => false
  | .none => false

/-! Partitions' virtual numbering (R317, R318). -/

/-- The quads that a PARTDIES value holds on physical die `d`, ascending. -/
def quadsOf (w : Word) (d : Nat) : List Nat := (List.range 4).filter fun q => w.toNat / 2 ^ (4 * d + q) % 2 == 1

/-- The physical die behind a virtual die. -/
def physDie (w : Word) (vd : Nat) : Option Nat :=
  let m := (List.range 8).filter fun d => !(quadsOf w d).isEmpty
  if vd < 4 then (m.filter fun d => d < 4)[vd]?
  else if vd < 8 then (m.filter fun d => 4 ≤ d)[vd - 4]?
  else none

/-- Cores in one quad of a physical die. -/
def quadCores (d : Nat) : Nat := if d < 4 then 10 else 6

/-- The physical core behind a virtual core of a physical die. -/
def physCore (w : Word) (d vc : Nat) : Option Nat :=
  (quadsOf w d)[vc / quadCores d]?.map fun q => q * quadCores d + vc % quadCores d

/-- The virtual number of a physical die. -/
def virtDie (w : Word) (d : Nat) : Nat :=
  let lo := if d < 4 then 0 else 4
  lo + ((List.range d).filter fun x => lo ≤ x && !(quadsOf w x).isEmpty).length

/-- The virtual number of a physical core of die `d`. -/
def virtCore (w : Word) (d c : Nat) : Nat :=
  ((quadsOf w d).filter fun q => q < c / quadCores d).length * quadCores d + c % quadCores d

end Sys2Proof.Machine
end

