-- ==== Sys2Proof/Machine/Num.lean ====
section
/-! DEFINITION. Exact values, the element formats and the one rounding of R61 to R73: a value is formed exactly and
rounded once to its destination. -/

namespace Sys2Proof.Machine

/-- An exact value: NaN, an infinity, or (-1)^neg · m · 2^e. -/
inductive Val
  | nan
  | inf (neg : Bool)
  | fin (neg : Bool) (m : Nat) (e : Int)
deriving DecidableEq, Repr

/-- A floating-point element format (R62): exponent and fraction widths, bias, whether it has infinities, the largest
finite code, and its canonical NaN (0 where it has none). -/
structure Fmt where
  ew : Nat
  fw : Nat
  bias : Nat
  hasInf : Bool
  maxCode : Nat
  nan : Nat
deriving DecidableEq, Repr

def Fmt.fp32 : Fmt := { ew := 8, fw := 23, bias := 127, hasInf := true, maxCode := 0x7F7FFFFF, nan := 0x7FC00000 }
def Fmt.bf16 : Fmt := { ew := 8, fw := 7, bias := 127, hasInf := true, maxCode := 0x7F7F, nan := 0x7FC0 }
def Fmt.fp16 : Fmt := { ew := 5, fw := 10, bias := 15, hasInf := true, maxCode := 0x7BFF, nan := 0x7E00 }
def Fmt.e4m3 : Fmt := { ew := 4, fw := 3, bias := 7, hasInf := false, maxCode := 0x7E, nan := 0x7F }
def Fmt.e5m2 : Fmt := { ew := 5, fw := 2, bias := 15, hasInf := true, maxCode := 0x7B, nan := 0x7E }
def Fmt.e2m1 : Fmt := { ew := 2, fw := 1, bias := 1, hasInf := false, maxCode := 0x7, nan := 0 }

/-- Width of a format in bits. -/
def Fmt.width (f : Fmt) : Nat := 1 + f.ew + f.fw

/-- The value of an element code (R62); with `ftz`, a subnormal reads as zero of its sign (R72). -/
def Fmt.value (f : Fmt) (ftz : Bool) (bits : Nat) : Val :=
  let neg := bits / 2 ^ (f.ew + f.fw) % 2 == 1
  let ex := bits / 2 ^ f.fw % 2 ^ f.ew
  let fr := bits % 2 ^ f.fw
  let mag := bits % 2 ^ (f.ew + f.fw)
  if f.maxCode < mag then
    if f.hasInf && fr == 0 then .inf neg else .nan
  else if ex = 0 then .fin neg (if ftz then 0 else fr) (1 - (f.bias : Int) - f.fw)
  else .fin neg (2 ^ f.fw + fr) ((ex : Int) - f.bias - f.fw)

/-- Number of significant bits of a natural number. -/
def bitLen (n : Nat) : Nat := if n = 0 then 0 else Nat.log2 n + 1

/-- m · 2^e cut at 2^q: the integer part and the fraction as a pair numerator and denominator. -/
def cutAt (m : Nat) (e q : Int) : Nat × Nat × Nat :=
  if q ≤ e then (m * 2 ^ (e - q).toNat, 0, 1)
  else
    let d := 2 ^ (q - e).toNat
    (m / d, m % d, d)

/-- Whether a magnitude moves away from zero (R70, R71): `t` the truncated integer, `r / d` the fraction, `g` the
generator's value. -/
def roundsUp (rm : Rm) (neg : Bool) (t r d g : Nat) : Bool :=
  match rm with
  | .rne => d < 2 * r || (2 * r == d && t % 2 == 1)
  | .rtz => false
  | .rdn => neg && r != 0
  | .rup => !neg && r != 0
  | .rna => d ≤ 2 * r
  | .rsto => 2 ^ 32 ≤ r * 2 ^ 32 / d + g

/-- Whether the mode directs a magnitude of this sign toward zero (R69). -/
def towardZero (rm : Rm) (neg : Bool) : Bool :=
  match rm with
  | .rtz => true
  | .rdn => !neg
  | .rup => neg
  | _ => false

/-- Positions of the sticky bits in STATUS (R128). -/
def stSCX : Nat := 0
def stOVF : Nat := 1
def stSAT : Nat := 2
def stNANS : Nat := 3
def stFMT : Nat := 4
def stLATE : Nat := 5

/-- The stochastic generators and the sticky bits that arithmetic changes. -/
structure NumSt where
  rsto : Vector Word 193
  st : BitVec 6
deriving DecidableEq, Repr

/-- Set one sticky bit. -/
def NumSt.flag (a : NumSt) (i : Nat) : NumSt := { a with st := a.st ||| BitVec.ofNat 6 (2 ^ i) }

/-- One advance of a generator (R71). -/
def rstoNext (x : Word) : Word :=
  let x1 := x ^^^ (x <<< 13)
  let x2 := x1 ^^^ (x1 >>> 17)
  x2 ^^^ (x2 <<< 5)

/-- Rounding mode, saturation and flush-to-zero of an instruction. -/
structure FpCtl where
  rm : Rm
  sat : Bool
  ftz : Bool
deriving DecidableEq, Repr

/-- The value used of generator `n`, advanced once under rsto (R71); 0 in other modes. -/
def NumSt.draw (a : NumSt) (rm : Rm) (n : Nat) : Nat × NumSt :=
  if rm = .rsto then
    let g := rstoNext (a.rsto[Fin.ofNat 193 n])
    (g.toNat, { a with rsto := a.rsto.set (Fin.ofNat 193 n) g })
  else (0, a)

/-- The sign bit of a format. -/
def Fmt.signBit (f : Fmt) (neg : Bool) : Nat := if neg then 2 ^ (f.ew + f.fw) else 0

/-- The code of an infinity. -/
def Fmt.infCode (f : Fmt) : Nat := f.maxCode + 1

/-- The code that an overflow or an infinite value delivers (R69), and whether SAT is set. -/
def Fmt.overflow (f : Fmt) (c : FpCtl) (neg : Bool) : Nat × Bool :=
  if f.hasInf && !c.sat then (f.signBit neg + f.infCode, false) else (f.signBit neg + f.maxCode, true)

/-- The magnitude code of m · 2^e rounded to a format, which may lie above `maxCode` (R69). -/
def Fmt.magCode (f : Fmt) (rm : Rm) (neg : Bool) (m : Nat) (e : Int) (g : Nat) : Nat :=
  let qmin : Int := 1 - (f.bias : Int) - f.fw
  let q : Int := max ((bitLen m : Int) + e - 1 - f.fw) qmin
  let (t, r, d) := cutAt m e q
  let t' := if roundsUp rm neg t r d g then t + 1 else t
  (q - qmin).toNat * 2 ^ f.fw + t'

/-- A value rounded once to a floating-point format (R69, R72), with the sticky bits it sets. -/
def Fmt.round (f : Fmt) (c : FpCtl) (g : Nat) (v : Val) (a : NumSt) : Nat × NumSt :=
  match v with
  | .nan => (f.nan, a.flag stNANS)
  | .inf neg =>
    let (b, s) := f.overflow c neg
    (b, if s then a.flag stSAT else a)
  | .fin neg m e =>
    if m = 0 then (f.signBit neg, a)
    else
      let code := f.magCode c.rm neg m e g
      if f.maxCode < code then
        if towardZero c.rm neg then (f.signBit neg + f.maxCode, a)
        else
          let (b, s) := f.overflow c neg
          (b, if s then a.flag stSAT else a)
      else if c.ftz && code < 2 ^ f.fw then (f.signBit neg, a)
      else (f.signBit neg + code, a)

/-- A value delivered in a format: generator `n` is drawn, the value rounded once (R69, R71). -/
def Fmt.deliver (f : Fmt) (c : FpCtl) (n : Nat) (v : Val) (a : NumSt) : Nat × NumSt :=
  let (g, a) := a.draw c.rm n
  f.round c g v a

/-- A value rounded to an integer in a mode. -/
def roundInt (rm : Rm) (g : Nat) (neg : Bool) (m : Nat) (e : Int) : Int :=
  let (t, r, d) := cutAt m e 0
  let t' := if roundsUp rm neg t r d g then t + 1 else t
  if neg then -(t' : Int) else t'

/-- A signed integer clamped to `w` bits; SAT where it is clamped (R61). -/
def clampInt (w : Nat) (v : Int) (a : NumSt) : Int × NumSt :=
  let hi : Int := 2 ^ (w - 1) - 1
  let lo : Int := -(2 ^ (w - 1))
  if hi < v then (hi, a.flag stSAT) else if v < lo then (lo, a.flag stSAT) else (v, a)

/-- A value converted to a signed integer of `w` bits, clamped (R69). -/
def deliverInt (w : Nat) (c : FpCtl) (n : Nat) (v : Val) (a : NumSt) : Int × NumSt :=
  let (g, a) := a.draw c.rm n
  match v with
  | .nan => (0, a.flag stNANS)
  | .inf neg => (if neg then -(2 ^ (w - 1)) else 2 ^ (w - 1) - 1, a.flag stSAT)
  | .fin neg m e => clampInt w (roundInt c.rm g neg m e) a

/-- The exact value of an integer. -/
def Val.ofInt (v : Int) : Val := .fin (v < 0) v.natAbs 0

/-! Exact arithmetic (R63). -/

/-- A sign as a factor. -/
def signed (neg : Bool) (m : Nat) : Int := if neg then -(m : Int) else m

/-- Exact sum; an exact zero of opposite signs is -0 only under rdn (R63). -/
def Val.add (rm : Rm) (x y : Val) : Val :=
  match x, y with
  | .nan, _ => .nan
  | _, .nan => .nan
  | .inf s, .inf t => if s = t then .inf s else .nan
  | .inf s, .fin _ _ _ => .inf s
  | .fin _ _ _, .inf t => .inf t
  | .fin s m e, .fin t n f =>
    let q := min e f
    let v := signed s (m * 2 ^ (e - q).toNat) + signed t (n * 2 ^ (f - q).toNat)
    if v = 0 then .fin (if s = t then s else rm == .rdn) 0 0 else .fin (v < 0) v.natAbs q

def Val.neg : Val → Val
  | .nan => .nan
  | .inf s => .inf (!s)
  | .fin s m e => .fin (!s) m e

/-- Exact product. -/
def Val.mul (x y : Val) : Val :=
  match x, y with
  | .nan, _ => .nan
  | _, .nan => .nan
  | .inf s, .inf t => .inf (s != t)
  | .inf s, .fin t n _ => if n = 0 then .nan else .inf (s != t)
  | .fin s m _, .inf t => if m = 0 then .nan else .inf (s != t)
  | .fin s m e, .fin t n f => .fin (s != t) (m * n) (e + f)

/-- The sign and integer that order finite values: compares m · 2^e, zeros equal. -/
def Val.lt (x y : Val) : Bool :=
  match x, y with
  | .nan, _ => false
  | _, .nan => false
  | .inf s, .inf t => s && !t
  | .inf s, .fin _ _ _ => s
  | .fin _ _ _, .inf t => !t
  | .fin s m e, .fin t n f =>
    let q := min e f
    signed s (m * 2 ^ (e - q).toNat) < signed t (n * 2 ^ (f - q).toNat)

def Val.isNan : Val → Bool
  | .nan => true
  | _ => false

/-- Numeric equality: -0 equals +0, NaN equals nothing. -/
def Val.eq (x y : Val) : Bool := !x.isNan && !y.isNan && !x.lt y && !y.lt x

/-- The sign of a value. -/
def Val.isNeg : Val → Bool
  | .nan => false
  | .inf s => s
  | .fin s _ _ => s

/-- `fmin` and `fmax` (R63): NaN yields the other operand; -0 lies below +0. -/
def Val.pickMin (x y : Val) : Val :=
  if x.isNan then y else if y.isNan then x
  else if x.lt y then x else if y.lt x then y else if x.isNeg then x else y

def Val.pickMax (x y : Val) : Val :=
  if x.isNan then y else if y.isNan then x
  else if x.lt y then y else if y.lt x then x else if x.isNeg then y else x

/-- A float relation (R63, R112): NaN gives false but for `ne`. -/
def Val.rel (r : Rel) (x y : Val) : Bool :=
  match r with
  | .eq => x.eq y
  | .ne => !x.eq y
  | .lt => x.lt y
  | .ge => !x.isNan && !y.isNan && !x.lt y
  | .gt => y.lt x
  | .le => !x.isNan && !y.isNan && !y.lt x
  | .ltu => false
  | .geu => false

/-- x · 2^k (R189). -/
def Val.scale (k : Int) : Val → Val
  | .fin s m e => .fin s m (e + k)
  | v => v

/-- Round to an fp32 code with round to nearest even, used by fp32 arithmetic outside the vector engine. -/
def ctlRne : FpCtl := { rm := .rne, sat := false, ftz := false }

/-- Sum of two codes of a format, rounded to nearest even, NaN canonical, subnormals kept (R117, R196). -/
def Fmt.addRne (f : Fmt) (x y : Nat) : Nat :=
  let z : NumSt := { rsto := Vector.replicate 193 1, st := 0 }
  (f.round ctlRne 0 ((f.value false x).add .rne (f.value false y)) z).1

/-- A value rounded to nearest even in a format. -/
def Fmt.rne (f : Fmt) (v : Val) : Nat :=
  (f.round ctlRne 0 v { rsto := Vector.replicate 193 1, st := 0 }).1

/-- The value of a value rounded to nearest even in a format. -/
def Fmt.rneVal (f : Fmt) (v : Val) : Val := f.value false (f.rne v)

end Sys2Proof.Machine
end

