-- ==== Sys2Proof/Machine/Ops.lean ====
section
/-! DEFINITION. The shared operations: the monad in which meanings are written, the block in focus and its strands,
registers and queues, taking an exception (one operation), stopping, waiting, and the advance to the next
instruction. -/

namespace Sys2Proof.Machine

/-- What a trap records (R280): the cause, the failing address, the cause-specific value, the underlying cause, and an
address other than the instruction's own where the rule names one. -/
structure TrapInfo where
  cause : Nat
  faddr : Dword
  aux : Dword
  sub : Nat
  pc : Option Dword
deriving DecidableEq, Repr

/-- Why an instruction or a unit of a command does not go through. -/
inductive Stop
  | trap (t : TrapInfo)
  | blocked
  | stalled
  | mark (va : Nat)
  | freeze
  | bret (bank : Fin 8)
  | overflow
  | fault (f : Fault)
deriving DecidableEq, Repr

/-- A meaning: it answers with the next state, or stops and leaves no effect. -/
abbrev M := StateT State (Except Stop)

def stopWith {α : Type} (x : Stop) : M α := fun _ => .error x

/-- A trap with no recorded values but its cause. -/
def trap {α : Type} (cause : Nat) : M α := stopWith (.trap { cause := cause, faddr := 0, aux := 0, sub := 0, pc := none })

/-- A trap with a failing address. -/
def trapAt {α : Type} (cause : Nat) (addr : Nat) : M α :=
  stopWith (.trap { cause := cause, faddr := BitVec.ofNat 64 addr, aux := 0, sub := 0, pc := none })

def trapAux {α : Type} (cause : Nat) (aux : Nat) : M α :=
  stopWith (.trap { cause := cause, faddr := 0, aux := BitVec.ofNat 64 aux, sub := 0, pc := none })

def waitUntil (b : Bool) : M Unit := if b then pure () else stopWith .blocked

def trapIf (b : Bool) (cause : Nat) : M Unit := if b then trap cause else pure ()

/-- Run `x`; a trap is answered as a value and undoes what `x` did. -/
def attempt {α : Type} (x : M α) : M (Except TrapInfo α) := fun s =>
  match x s with
  | .ok (a, t) => .ok (.ok a, t)
  | .error (.trap t) => .ok (.error t, s)
  | .error e => .error e

/-- Run `x` for its answer alone: what it does to the state is undone. -/
def aside {α : Type} (x : M α) : M α := fun s =>
  match x s with
  | .ok (a, _) => .ok (a, s)
  | .error e => .error e

/-- Of two faults the one at the lower address. -/
def TrapInfo.lower (x y : TrapInfo) : TrapInfo := if y.faddr.toNat < x.faddr.toNat then y else x

/-- Make the accesses of a list, and answer beside their results the fault at the lowest address. -/
def tryEach {α β : Type} (f : α → M β) : List α → M (List β × Option TrapInfo)
  | [] => pure ([], none)
  | x :: r => do
    match ← attempt (f x) with
    | .ok y => do
      let (l, t) ← tryEach f r
      return (y :: l, t)
    | .error t => do
      let (l, u) ← tryEach f r
      return (l, some ((u.map t.lower).getD t))

/-- Make the accesses of a list as one: a fault of any undoes all, and that at the lowest address is raised (R263). -/
def each {α β : Type} (f : α → M β) (l : List α) : M (List β) := do
  match ← tryEach f l with
  | (r, none) => pure r
  | (_, some t) => stopWith (.trap t)

/-! ## The block in focus -/

/-- Number of an engine's strand, which is its tag (R82). -/
def engIdx : Eng → Fin 6
  | .c => 0
  | .a => 1
  | .v => 2
  | .m => 3
  | .d => 4
  | .g => 5

/-- Number of an engine that has a command queue (R90): a, m, d, g. -/
def cmdIdx : Eng → Fin 4
  | .m => 1
  | .d => 2
  | .g => 3
  | _ => 0

def getBlk : M Block := fun s => .ok (s.blk, s)

def modBlk (f : Block → Block) : M Unit := fun s => .ok ((), { s with blk := f s.blk })

def getS : M State := fun s => .ok (s, s)

def modS (f : State → State) : M Unit := fun s => .ok ((), f s)

def Block.str (b : Block) (e : Eng) : Strand := b.strands[engIdx e]

def Block.modStr (b : Block) (e : Eng) (f : Strand → Strand) : Block :=
  { b with strands := b.strands.set (engIdx e) (f (b.strands[engIdx e])) }

def State.str (s : State) (e : Eng) : Strand := s.blk.str e

def State.modStr (s : State) (e : Eng) (f : Strand → Strand) : State := { s with blk := s.blk.modStr e f }

def getStr (e : Eng) : M Strand := do return (← getBlk).str e

def modStr (e : Eng) (f : Strand → Strand) : M Unit := modBlk fun b => b.modStr e f

/-- The context of the block in focus. -/
def State.cx (s : State) : Ctx := s.ctxs[Fin.ofNat 1024 s.blk.ctx]

def State.modCtx (s : State) (n : Nat) (f : Ctx → Ctx) : State :=
  { s with ctxs := s.ctxs.set (Fin.ofNat 1024 n) (f (s.ctxs[Fin.ofNat 1024 n])) }

def State.ctxAt (s : State) (n : Nat) : Ctx := s.ctxs[Fin.ofNat 1024 n]

/-- Whether a core of physical die `d` has engine `e` (R3, R98). -/
def hasEng (d : Fin 8) : Eng → Bool
  | .m => d.val < 4
  | .d => 4 ≤ d.val
  | .g => 4 ≤ d.val
  | _ => true

/-- A fresh value of the free counter (log 2). -/
def drawFree : M Nat := fun s => .ok (s.free, { s with free := s.free + 1 })

/-! ## Status and time -/

/-- Set a sticky bit of STATUS (R74, R128). -/
def Block.setSt (b : Block) (i : Nat) : Block := { b with status := b.status ||| BitVec.ofNat 6 (2 ^ i) }

def setSt (i : Nat) : M Unit := modBlk fun b => b.setSt i

/-- Run arithmetic that draws generators and sets sticky bits (R71, R74). -/
def numeric {α : Type} (f : NumSt → α × NumSt) : M α := do
  let b ← getBlk
  let (x, n) := f { rsto := b.rsto, st := b.status }
  modBlk fun b => { b with rsto := n.rsto, status := n.st }
  return x

/-- The island of a core (R329). -/
def islandOf (d : Fin 8) (c : Nat) : Fin 32 :=
  if d.val < 4 then Fin.ofNat 32 (4 * d.val + c / 10) else Fin.ofNat 32 (16 + 3 * (d.val - 4) + c / 12)

/-- Time units in a nanosecond (model): time is in 1/90 ns, so that one ac of an M-die at 3.6 GHz is 25 and one of an
S-die at 3.0 GHz is 30 (R7), and a slot is 144 or 288 (R169). -/
def nsUnits : Nat := 90

/-- Whether the flag stands set up to ordinal `n`. -/
def Flag.setTo (f : Flag) (n : Nat) : Bool := f.pend.all fun k => n < k

/-- The count of a timed wait has run out where its last ac has passed and the flag does not stand set up to the target: what comes
later comes too late, and in the last ac itself the flag may still come to stand set (R120, R234). -/
def Block.countOut (b : Block) : Block :=
  match (b.str .c).wait with
  | .tk k =>
    if k.timed && k.since + k.rem < b.cyc && (b.str .c).stop.isNone && !(b.flags[k.flag]).setTo k.n then
      b.modStr .c fun st => { st with wait := .tk { k with expired := true } }
    else b
  | _ => b

/-- One block's cycle counter after `dt` time units at its island's clock (R128, R329). -/
def Block.tick (isls : Vector Isl 32) (dt : Nat) (b : Block) : Block :=
  if b.placed then
    let t := b.cycFrac + dt * (isls[islandOf b.die b.core]).fmhz
    Block.countOut { b with cyc := b.cyc + t / 90000, cycFrac := t % 90000 }
  else b

/-- Time passes for the whole module. -/
def State.pass (s : State) (dt : Nat) : State :=
  { s with time := s.time + dt, blk := s.blk.tick s.isls dt, others := s.others.map (Block.tick s.isls dt) }

/-- Nominal time of one ac on a die. -/
def acUnits (d : Fin 8) : Nat := if d.val < 4 then 25 else 30

/-- Put the block `u` into focus, if some block has that number. -/
def State.focus (s : State) (u : Nat) : State :=
  if s.blk.uid = u then s
  else
    match s.others.find? fun b => b.uid == u with
    | some b => { s with blk := b, others := s.blk :: s.others.filter fun x => x.uid != u }
    | none => s

/-- Every block on a core. -/
def State.blocks (s : State) : List Block := s.blk :: s.others

/-- Change every block. -/
def State.mapBlocks (s : State) (f : Block → Block) : State := { s with blk := f s.blk, others := s.others.map f }

/-- The block numbered `u`. -/
def State.blockAt (s : State) (u : Nat) : Option Block := s.blocks.find? fun b => b.uid == u && b.placed

/-! ## Registers (R105, R142, R177) -/

/-- A scalar register; s63 reads zero. -/
def Block.sreg (b : Block) (n : Fin 64) : Dword := if n = 63 then 0 else b.s[n]

/-- Write a scalar register; writes to s63 are discarded. -/
def Block.setSreg (b : Block) (n : Fin 64) (x : Dword) : Block := if n = 63 then b else { b with s := b.s.set n x }

/-- An address register. -/
def Block.areg (b : Block) (n : Fin 64) : Dword := b.a[Fin.ofNat 32 n.val]

def Block.setAreg (b : Block) (n : Fin 64) (x : Dword) : Block := { b with a := b.a.set (Fin.ofNat 32 n.val) x }

/-- A mask; vm0 reads all ones. -/
def Block.mask (b : Block) (n : Fin 8) : Mask := if n = 0 then BitVec.allOnes 256 else b.vm[n]

/-- Write a mask; writes to vm0 are discarded. -/
def Block.setMask (b : Block) (n : Fin 8) (x : Mask) : Block := if n = 0 then b else { b with vm := b.vm.set n x }

/-- A predicate of a strand: p0 is always true (R16). -/
def Strand.pred (st : Strand) (n : Fin 8) : Bool := if n = 0 then true else st.preds[n]

/-- Write a predicate; writes to p0 are discarded. -/
def Strand.setPred (st : Strand) (n : Fin 8) (x : Bool) : Strand :=
  if n = 0 then st else { st with preds := st.preds.set n x }

/-- The value of an instruction's predicate field (R88). -/
def Strand.holds (st : Strand) (p : Pred) : Bool := st.pred p.p != p.n

/-! ## Queues (R32) -/

/-- The number of a queue among all. -/
def qIdx (n : Fin 16) : Fin 20 := Fin.ofNat 20 n.val
def vqIdx (n : Fin 4) : Fin 20 := Fin.ofNat 20 (16 + n.val)

/-- One more entry popped from a queue. -/
def Block.countPop (b : Block) (i : Fin 20) : Block := { b with pops := b.pops.set i (b.pops[i] + 1) }

/-- Pop the head entry of a scalar queue. -/
def popQ (n : Fin 16) : M Dword := do
  match (← getBlk).q[n] with
  | [] => stopWith .blocked
  | x :: r =>
    modBlk fun b => { b with q := b.q.set n r }.countPop (qIdx n)
    return x

/-- Append an entry to a scalar queue, whatever its length. -/
def Block.pushQ (b : Block) (n : Fin 16) (x : Dword) : Block := { b with q := b.q.set n (b.q[n] ++ [x]) }

/-- Append an entry to a vector queue. -/
def Block.pushVq (b : Block) (n : Fin 4) (x : VReg) : Block := { b with vq := b.vq.set n (b.vq[n] ++ [x]) }

/-- Whether a result in flight of this engine still has to reach an operand (R104, R175). -/
def Block.pending (b : Block) (e : Eng) (d : Opd) : Bool := b.inflight.any fun x => x.eng == e && x.dst == d

/-- Stall on the scoreboard while an operand awaits a result (R104). -/
def scoreboard (e : Eng) (d : Opd) : M Unit := do
  if (← getBlk).pending e d then stopWith .stalled else pure ()

/-- Pushes of results that are in flight hold their place, so a queue has room only beyond them. -/
def Block.inflightTo (b : Block) (d : Opd) : Nat := (b.inflight.filter fun x => x.dst == d).length

/-- A push stalls behind those in flight that precede it: to the same queue, and of the v strand to any port (R104, R175). -/
def portTurn (e : Eng) (d : Opd) : M Unit := do
  let b ← getBlk
  if b.inflight.any fun x => x.eng == e && x.dst.isPort && (e == .v || x.dst == d) then stopWith .stalled else pure ()

def pushQ (e : Eng) (n : Fin 16) (x : Dword) : M Unit := do
  portTurn e (.port (.q n))
  let b ← getBlk
  waitUntil ((b.q[n]).length + b.inflightTo (.port (.q n)) < 16)
  modBlk fun b => b.pushQ n x

def popVq (n : Fin 4) : M VReg := do
  match (← getBlk).vq[n] with
  | [] => stopWith .blocked
  | x :: r =>
    modBlk fun b => { b with vq := b.vq.set n r }.countPop (vqIdx n)
    return x

def pushVq (e : Eng) (n : Fin 4) (x : VReg) : M Unit := do
  portTurn e (.port (.vq n))
  let b ← getBlk
  waitUntil ((b.vq[n]).length + b.inflightTo (.port (.vq n)) < 4)
  modBlk fun b => b.pushVq n x

/-! ## Lines and the next instruction (R81 to R84, R114, R115) -/

def linkTag (w : Word) : Nat := w.toNat / 2 ^ 28
def linkCount (w : Word) : Nat := w.toNat / 2 ^ 24 % 16
def linkFp (w : Word) : Bool := bitAt w 23
def linkNext (w : Word) : Int := signedOf 22 w.toNat

/-- The line address of a code address. -/
def lineOf (a : Dword) : Dword := a - BitVec.ofNat 64 (a.toNat % 64)

/-- The word index of a code address. -/
def wordOf (a : Dword) : Nat := a.toNat % 64 / 4

/-- The link word of the held line; 0 when none is held. -/
def Strand.link (st : Strand) : Word :=
  match st.line with
  | some l => l.words[0]
  | none => 0

/-- The address of the instruction that follows one of `k` words at `a` in a line with this link word, and whether it
is in another line; none at the end of the chain (R84). -/
def following (a : Dword) (link : Word) (k : Nat) : Option (Dword × Bool) :=
  if wordOf a + k ≤ linkCount link then some (a + BitVec.ofNat 64 (4 * k), false)
  else if linkNext link = 0 then none
  else some (lineOf a + BitVec.ofInt 64 (64 * linkNext link) + 4, true)

/-- Words of the instruction with a latched prefix. -/
def Strand.span (st : Strand) (n : Nat) : Nat := if st.pfx = .none then n else n + 1

/-- Whether an armed loop ends at an address. -/
def Strand.endsAt (st : Strand) (a : Dword) : Bool := st.arms.any fun x => x.stop == a

/-- Whether an address lies in the held line (R314). -/
def Strand.holdsLine (st : Strand) (a : Dword) : Bool :=
  match st.line with
  | some l => l.addr == lineOf a
  | none => false

/-- Transfer to an address: leaving the held line is a fetch. -/
def Strand.transfer (st : Strand) (t : Dword) : Strand :=
  { st with pc := t, entering := !st.holdsLine t, slots := 0, branch := none, edge := none }

/-- The restart line of the earliest-armed forced loop (R293). -/
def Strand.rline (st : Strand) : Option Dword :=
  (st.forced.foldl (fun (x : Option Forced) f => match x with
    | some y => if f.seq < y.seq then some f else x
    | none => some f) none).map fun f => f.rline

/-- Back to the restart line of the forced loops, whose counts the next `loop`s take from REM (R293). -/
def Strand.backToRline (st : Strand) : Strand :=
  let st := { st with again := false, forcedFlag := false }
  match st.rline with
  | none => st
  | some a => { st.transfer (a + 4) with entering := true, finished := false, wait := .run, arms := [] }

/-- The strand has completed its last instruction (R21). -/
def Strand.finish (st : Strand) : Strand := if st.again then st.backToRline else { st with finished := true }

/-- Go on after the instruction at pc: `nx` is what follows it in the chain. A pending taken branch transfers after its
second slot, or at once where the chain ends (R114); an armed loop that ends here asks for its back-edge decision,
unless such a branch is pending (R115). -/
def Strand.goOn (st : Strand) (nx : Option (Dword × Bool)) : Strand :=
  let edge := if st.branch = none && st.endsAt st.pc then some (st.pc, nx.isNone) else none
  match nx, st.branch with
  | none, some t => st.transfer t
  | none, none => if edge.isSome then { st with slots := 0, edge := edge } else { st with slots := 0 }.finish
  | some (p, en), some t =>
    if st.slots ≤ 1 then st.transfer t else { st with slots := st.slots - 1, pc := p, entering := en }
  | some (p, en), none => { st with slots := st.slots - 1, pc := p, entering := en, edge := edge }

/-- How an instruction hands on control. -/
inductive Flow
  /-- to the next instruction -/
  | go
  /-- a branch, taken or not: two delay slots follow -/
  | slots (t : Option Dword)
  /-- to an address, without delay slots -/
  | transfer (t : Dword)
  /-- on after the instruction at `e`, whose line is given and which has `k` words (a loop with count 0) -/
  | past (e : Dword) (l : LineBuf) (k : Nat)
  /-- the instruction waits -/
  | wait (w : Wait)
  /-- the strand finishes -/
  | halt
  /-- its effects stand, and it takes a trap: a user trap, after which it has completed, or another, after which it has
  not -/
  | user (t : TrapInfo)
deriving DecidableEq, Repr

/-- A strand after its instruction of `n` words completed. A taken branch that is itself the last instruction of an armed body runs its
delay slots and transfers: its transfer wins, as R115 says of a branch whose delay slot is the last (log 44). -/
def Strand.complete (st : Strand) (n : Nat) (f : Flow) : Strand :=
  let nx := following st.pc st.link (st.span n)
  let st1 := { st with pfx := .none, wait := .run }
  match f with
  | .go => st1.goOn nx
  | .slots t =>
    match nx, t with
    | none, some a => st1.transfer a
    | _, _ =>
      let st2 := st1.goOn nx
      { st2 with slots := if nx.isNone then 0 else 2, branch := t, edge := if t.isSome then none else st2.edge }
  | .transfer t => st1.transfer t
  | .past e l k => { st1 with pc := e, branch := none, slots := 0 }.goOn
      ((following e (l.words[0]) k).map fun (x : Dword × Bool) => (x.1, !st.holdsLine x.1))
  | .wait w => { st with wait := w }
  | .halt => { st1 with slots := 0, branch := none }.finish
  | .user _ => st1.goOn nx

/-- The strand of the block in focus completes its instruction, which is progress for the watchdog (R281); a wait that it begins
begins now. -/
def State.complete (s : State) (e : Eng) (n : Nat) (f : Flow) : State :=
  { s with blk := { s.blk.modStr e (fun st => { st.complete n f with since := s.time }) with idle := s.time } }

/-! ## The loop unit (R115, R292) -/

/-- Whether a checkpoint asks the loop units to end loops early (R292). -/
def Block.forcing (b : Block) : Bool :=
  match b.ckpt with
  | .asked _ => true
  | _ => false

/-- A back-edge decision at a completed address `a`: each armed loop that ends there, most recent first. Answers the
back-edge's target, if one is taken. -/
def edgeDecision (forcing : Bool) (a : Dword) (st : Strand) : List Arm → Strand × Option Dword
  | [] => (st, none)
  | x :: r =>
    if x.stop ≠ a then edgeDecision forcing a st r
    else
      let n := st.lc[x.lc]
      let out := { st with arms := st.arms.filter fun y => y.lc != x.lc }
      if forcing && n ≠ 0 && n ≠ 1 then
        edgeDecision forcing a
          { out with lc := st.lc.set x.lc 0, forcedFlag := true,
                     forced := st.forced ++ [{ lc := x.lc, rem := n - 1, rline := x.rline, seq := x.seq }] } r
      else if n - 1 ≠ 0 then ({ st with lc := st.lc.set x.lc (n - 1) }, some x.body)
      else edgeDecision forcing a { out with lc := st.lc.set x.lc 0 } r

/-- A strand that goes on past the end of its loops: the two positions after a `jt` stay delay slots (R114). -/
def Strand.pastEdge (st : Strand) (ended : Bool) : Strand :=
  if ended then { st with edge := none }.finish else { st with edge := none }

/-- A strand whose pending back-edge decision is made as it stops, so that pc is its next instruction (R280). -/
def Strand.settle (st : Strand) (forcing : Bool) : Strand :=
  match st.edge with
  | none => st
  | some (a, ended) =>
    match edgeDecision forcing a st st.arms with
    | (st1, some b) => st1.transfer b
    | (st1, none) => st1.pastEdge ended

/-- The address of a strand's next instruction (R280). -/
def State.nextPc (s : State) (e : Eng) : Dword := ((s.str e).settle s.blk.forcing).pc

/-! ## Taking an exception (R244, R277, R280) -/

/-- The halt line reaches a context (R262, R277, R287): the earliest cause of the latest stop is FIRST, and a change whose freeze has
not begun is abandoned. -/
def Ctx.halt (c : Ctx) (cause : Byte) : Ctx :=
  if c.st = 0 then { c with st := 1, first := cause, change := c.change.filter fun h => !h.pending }
  else if c.st = 1 && c.first = 0 then { c with first := cause }
  else c

/-- Record a stop in a strand of the block in focus and raise the halt line of its context: the earliest cause of the latest stop is
FIRST, and the context is stopping (R277, R287). A strand that already stopped records nothing more. -/
def State.recordStop (s : State) (e : Eng) (r : StopRec) : State :=
  if (s.str e).stop.isSome then s
  else
    let s := s.modStr e fun st => { st.settle s.blk.forcing with stop := some r, pfx := .none }
    s.modCtx s.blk.ctx fun c => c.halt r.cause

/-- Whether every strand of a block that has a chain has written its Cairn. -/
def Block.allWritten (b : Block) : Bool :=
  b.strands.all fun st => !st.chain || (match st.stop with
    | some r => !r.written.isEmpty
    | none => false)

/-- A stall on a mark seen from the other side of a stop: for since when it lasts, how long it has lasted, and from that again since
when. Time during which the context stands stopped does not count (R259). -/
def Wait.turned (now : Nat) : Wait → Wait
  | .mark t va => .mark (now - t) va
  | w => w

/-- What stalls without a strand or a command, over a stop or a resumption of a context: the loading of a block's tables, and a
transfer. -/
def State.turnStalls (s : State) (cx : Nat) : State :=
  let t := s.mapBlocks fun b => if b.ctx = cx && !b.started then { b with tables := b.tables.turned s.time } else b
  { t with tasks := s.tasks.map fun k => if k.ctx = cx then { k with stall := k.stall.turned s.time } else k }

/-- A stopping context stands stopped once every strand of its blocks has written its Cairn (R282, R287). -/
def State.stopDone (s : State) (cx : Nat) : State :=
  if (s.ctxAt cx).st = 1 && s.blocks.all fun b => !b.placed || b.ctx != cx || b.allWritten then
    (s.turnStalls cx).modCtx cx fun c => { c with st := 2 }
  else s

/-- TAKING A TRAP, precise at an instruction of strand `e` (R244, R280): the strand stops with the instruction's
address as PC and CADDR, nothing of the instruction takes effect, and the halt line is raised. After a user trap the
instruction has completed, and the PC is the next instruction (R288). -/
def State.takeTrap (s : State) (e : Eng) (t : TrapInfo) : State :=
  let st := s.str e
  let here := t.pc.getD st.pc
  s.recordStop e
    { cause := BitVec.ofNat 8 t.cause, pc := if t.cause = 0x50 then s.nextPc e else here, caddr := here, faddr := t.faddr,
      aux := t.aux, sub := BitVec.ofNat 8 t.sub, cidx := 0, precise := true, written := [] }

/-- A trap at a command (R145, R280): PC is the strand's next instruction, CADDR and CIDX name the command. -/
def State.takeCmdTrap (s : State) (e : Eng) (c : Cmd) (t : TrapInfo) : State :=
  s.recordStop e
    { cause := BitVec.ofNat 8 t.cause, pc := s.nextPc e, caddr := c.addr, faddr := t.faddr, aux := t.aux,
      sub := BitVec.ofNat 8 t.sub, cidx := c.idx, precise := false, written := [] }

/-- Whether the block is inside a round that has a mark and is not a serial re-run (R139, R140). -/
def Scout.parallel (x : Scout) : Bool :=
  x.kr != 1 && (match x.round with
    | .body => true
    | .accepted => true
    | _ => false)

/-- Whether a round is open for the instructions that R139 bars, guess call included (R264). -/
def Scout.open_ (x : Scout) : Bool :=
  match x.round with
  | .closed => false
  | _ => true

/-- Whether the round stands discarded. -/
def Scout.discarded (x : Scout) : Bool :=
  match x.round with
  | .rerun _ => true
  | _ => false

/-- Discard the round, to be run again (R139, R140). -/
def State.discardRound (s : State) (serial : Bool) : State :=
  { s with blk := { s.blk with scout := { s.blk.scout with round := .rerun serial } } }

/-- A trap of an instruction: trap 0x28 is delivered at once; any other trap in a parallel round discards the round
(R139). -/
def State.raise (s : State) (e : Eng) (t : TrapInfo) : State :=
  if s.blk.scout.parallel && t.cause != 0x28 then s.discardRound true else s.takeTrap e t

/-- The waiting state of what stalls on the forwarding mark of a granule: a stall on the same granule goes on, one on another
begins (R259). -/
def Wait.onMark (w : Wait) (now va : Nat) : Wait :=
  match w with
  | .mark t a => .mark (if a / 65536 = va / 65536 then t else now) va
  | _ => .mark now va

/-- Whether a stall on a mark has lasted LATELIM, in µs (R259, R275). -/
def Ctx.late (c : Ctx) (now since : Nat) : Bool := since + c.latelim.toNat * 1000 * nsUnits ≤ now

/-- An instruction stalls on a forwarding mark: since when, and STATUS.LATE (R259). -/
def State.onMark (s : State) (e : Eng) (va : Nat) : State :=
  let s := { s with blk := s.blk.setSt stLATE }
  s.modStr e fun st => { st with
    wait := st.wait.onMark s.time va, pfx := .none, since := match st.wait with
      | .mark _ _ => st.since
      | _ => s.time }

/-- The strand waits, from now unless it waited so already. -/
def Strand.hold (st : Strand) (w : Wait) (now : Nat) : Strand :=
  { st with wait := w, pfx := .none, since := if st.wait = w then st.since else now }

/-- A slot's buffer overflows: counted as trap 0x29, and the round re-runs serially (R140). A serial run whose slot 0 overflows again
runs again: R140 does not say what ends it (DESIGN CHOICE, log 61). -/
def State.overflowRound (s : State) : State :=
  let k := Fin.ofNat 320 (40 * s.blk.die.val + s.blk.core)
  { s.discardRound true with cores := s.cores.set k { s.cores[k] with scovf := min 65535 ((s.cores[k]).scovf + 1) } }

/-- What the machine does when an instruction of strand `e` does not go through: it has no effect but this. -/
def State.stopped (s : State) (e : Eng) : Stop → Host.Outcome State Fault Refusal
  | .trap t => .next (s.raise e t)
  | .blocked => .next (s.modStr e fun st => st.hold .blocked s.time)
  | .stalled => .next (s.modStr e fun st => st.hold .stalled s.time)
  | .mark va => .next (s.onMark e va)
  | .freeze => .next (s.modStr e fun st => st.hold .freeze s.time)
  | .bret k => .next (s.modStr e fun st => st.hold (.bret k) s.time)
  | .overflow => .next s.overflowRound
  | .fault f => .fault f

/-- Whether strand `e` stands in a delay slot (R114). -/
def State.inSlot (s : State) (e : Eng) : Bool := (s.str e).slots != 0

/-- Run an instruction of strand `e` with `n` words: `bar` says that it may not stand in a delay slot (R114, and R139
where a round is open), `off` is what it does under a false predicate (R39), `on` what it does under a true one. -/
def issue (e : Eng) (n : Nat) (p : Pred) (bar : Bool) (off on : M Flow) (s : State) :
    Host.Outcome State Fault Refusal :=
  if bar && s.inSlot e then .next (s.raise e { cause := 1, faddr := 0, aux := 0, sub := 0, pc := none })
  else
    match (if (s.str e).holds p then on else off) s with
    | .ok (.user x, t) => .next ((if x.cause = 0x50 then t.complete e n (.user x) else t).raise e x)
    | .ok (f, t) => .next (t.complete e n f)
    | .error x => s.stopped e x

/-- Nothing under a false predicate. -/
def skip : M Flow := pure .go

/-- Run an effect and go on. -/
def thenGo (x : M Unit) : M Flow := do
  x
  return .go

/-- The latched prefix of the instruction that strand `e` executes. -/
def latch (e : Eng) : M Latch := do return (← getStr e).pfx

/-- Rounding, saturation and flush-to-zero from a prefix (R92), rne without one. -/
def Latch.ctl : Latch → FpCtl
  | .fp rmv rm sat ftz => { rm := if rmv then rm else .rne, sat := sat, ftz := ftz }
  | _ => ctlRne

/-- The ordering of a prefix (R92). -/
def Latch.order : Latch → Ord
  | .ord o => o
  | _ => Ord.none

end Sys2Proof.Machine
end

