-- ==== Sys2Proof/Machine/Flags.lean ====
section
/-! DEFINITION. Flag computations: the token flags f0 to f63 (R34 to R37), the guard slots gs0 to gs15 (R38), the
current lines that R31 and R36 compare, and the predicates and sticky bits that instructions set. -/

namespace Sys2Proof.Machine

/-! ## Token flags (R34) -/

/-- The bound of a push count: 2^32 - 1. -/
def flagMax : Nat := 2 ^ 32 - 1

/-- The flag after a setter issued: its ordinal is P + 1. -/
def Flag.add (f : Flag) : Flag := { p := f.p + 1, pend := f.pend ++ [f.p.toNat + 1] }

/-- The flag after a setter that completes at once issued. -/
def Flag.vacuous (f : Flag) : Flag := { f with p := f.p + 1 }

/-- The flag after the setter with ordinal `n` completed. -/
def Flag.done (f : Flag) (n : Nat) : Flag := { f with pend := f.pend.filter (· != n) }

/-- Whether the flag stands set up to its P. -/
def Flag.full (f : Flag) : Bool := f.setTo f.p.toNat

def Block.modFlag (b : Block) (n : Fin 64) (g : Flag → Flag) : Block := { b with flags := b.flags.set n (g (b.flags[n])) }

/-- Issue a setter of a flag and answer its ordinal; trap 0x34 where P stands at its bound. -/
def setter (n : Fin 64) : M Nat := do
  let f := (← getBlk).flags[n]
  trapIf (f.p.toNat == flagMax) 0x34
  modBlk fun b => b.modFlag n Flag.add
  return f.p.toNat + 1

/-- Issue a setter that completes at once (R39): trap 0x34 where P stands at its bound. -/
def vacuousSetter (n : Fin 64) : M Unit := do
  let f := (← getBlk).flags[n]
  trapIf (f.p.toNat == flagMax) 0x34
  modBlk fun b => b.modFlag n Flag.vacuous

/-! ## Guard slots (R38) -/

def Block.setGuard (b : Block) (n : Fin 16) (x : Bool) : Block := { b with gs := b.gs.set n (some x) }

/-! ## Commands of an engine (R32, R40) -/

/-- The queue and commands of an engine. -/
def Block.eng (b : Block) (e : Eng) : EngQ := b.engs[cmdIdx e]

/-- Commands of an engine issued and not completed. -/
def EngQ.all (q : EngQ) : List Cmd := q.queue ++ q.prog

/-- The bank that a command names. -/
def Cmd.bank (c : Cmd) : Option (Fin 8) :=
  match c.op with
  | .mexpGet x => some x.bank
  | .mexpSet x => some x.bank
  | .dmv x => some x.bank
  | .dqk x => some x.bank
  | .dpv x => some x.bank
  | _ => none

/-- Whether an issued command that has not completed names a bank. -/
def Block.bankBusy (b : Block) (e : Eng) (k : Fin 8) : Bool := (b.eng e).all.any fun c => c.bank == some k

/-! ## Current lines (R30, R31, R36) -/

/-- Whether a strand's wait is one that R30 names. -/
def Strand.blocked (st : Strand) : Bool :=
  match st.wait with
  | .blocked => true
  | .mark _ _ => true
  | .freeze => true
  | .tk _ => true
  | .gbar _ _ => true
  | .phase _ => true
  | .leave _ => true
  | .bret _ => true
  | _ => false

/-- Whether a bound token wait still waits: its count has not run out, and its flag does not stand set (R36, R120). -/
def Block.tkWaits (b : Block) (k : TkBind) : Bool := !k.expired && !(b.flags[k.flag]).setTo k.n

/-- Whether a strand is blocked (R30): what it waits for has not come yet. -/
def Block.waits (b : Block) (e : Eng) : Bool :=
  match (b.str e).wait with
  | .tk k => b.tkWaits k
  | .bret k => b.bankBusy e k
  | _ => (b.str e).blocked

/-- Whether a strand runs, or still will: it has a chain that it has not finished. -/
def Strand.unfinished (st : Strand) : Bool := st.chain && !st.finished

/-- The index of the line that holds a strand's next instruction, below the image by a negative number (R22, R30). -/
def Block.lineIndex (b : Block) (a : Dword) : Int := (((lineOf a).toNat : Int) - b.image.toNat) / 64

/-- The lines of the block's other strands that are neither finished nor blocked. -/
def Block.otherLines (b : Block) (e : Eng) (out : Eng → Bool) : List Int :=
  (engines.filter fun x => x != e).filterMap fun x =>
    if (b.str x).unfinished && !out x then some (b.lineIndex (b.str x).pc) else none

/-- Whether a strand cannot advance: blocked, or stopped at a line entry for Ferry or a checkpoint. The slip rule holds
a fetch only for strands that are able to advance (R31; log 17). -/
def Block.held (b : Block) (e : Eng) : Bool := b.waits e || (b.str e).wait == .ferry || (b.str e).wait == .gathered

/-- Whether the slip rule lets a strand fetch the line of an address (R31). -/
def Block.mayFetch (b : Block) (e : Eng) (a : Dword) : Bool :=
  (b.otherLines e b.held).all fun l => b.lineIndex a ≤ l + b.slipw.toNat

/-- Whether a token wait of strand `e` may bind now (R36). -/
def Block.mayBind (b : Block) (e : Eng) : Bool :=
  (b.otherLines e b.waits).all fun l => b.lineIndex (b.str e).pc ≤ l

/-! ## Gathering (R292, R296) -/

/-- Whether a strand stands as a checkpoint or a gather asks: finished, or stopped at a line. -/
def Strand.stands (st : Strand) : Bool := !st.unfinished || st.wait == .gathered || st.wait == .ferry

/-- Whether the block gathers, for a Ferry or a checkpoint. -/
def Block.gathering (b : Block) : Bool :=
  b.forcing || match b.ferry with
    | .gather _ => true
    | .none => false

/-- A blocked strand's stop, when every unfinished strand of its gathering block is stopped or blocked: it issues its instruction
again later, a wait for leave among them; a bound token wait and an arrival go on. -/
def Strand.stand (st : Strand) : Strand :=
  match st.wait with
  | .leave _ => { st with wait := .blocked }
  | _ => st

/-- The block comes to stand where every unfinished strand of it is stopped or blocked while it gathers. -/
def Block.comeToStand (b : Block) : Block :=
  if b.placed && b.started && b.gathering && !b.scout.discarded && !b.stood && engines.all fun e =>
      (b.str e).stop.isNone && (b.str e).edge.isNone && ((b.str e).stands || b.waits e) then
    { b with stood := true, strands := b.strands.map Strand.stand }
  else b

/-! ## Relations of integer comparisons (R109) -/

/-- A relation on `w`-bit values. -/
def relHolds {w : Nat} (r : Rel) (x y : BitVec w) : Bool :=
  match r with
  | .eq => x == y
  | .ne => x != y
  | .lt => x.slt y
  | .ge => y.sle x
  | .gt => y.slt x
  | .le => x.sle y
  | .ltu => x.ult y
  | .geu => y.ule x

/-- An exact integer result in `w` bits: with SAT clamped to the nearest bound, which sets STATUS.SAT (R61, R107). -/
def satResult (w : Nat) (sat : Bool) (v : Int) : BitVec w × Bool :=
  let hi : Int := 2 ^ (w - 1) - 1
  let lo : Int := -(2 ^ (w - 1))
  if sat && hi < v then (BitVec.ofInt w hi, true)
  else if sat && v < lo then (BitVec.ofInt w lo, true)
  else (BitVec.ofInt w v, false)

/-- The result of `satResult` with its sticky bit set. -/
def satStore (w : Nat) (sat : Bool) (v : Int) : M (BitVec w) := do
  let (x, f) := satResult w sat v
  if f then setSt stSAT
  return x

end Sys2Proof.Machine
end

