-- ==== Sys2Proof/Machine/Views.lean ====
section
/-! DEFINITION. What each strand and command knows of the writes of others (R52 to R60, R331): reads of bytes that a write has
overwritten and that the reader may still see, releases and acquires, and the vector clocks of R56. -/

namespace Sys2Proof.Machine

/-! ## Who knows which write -/

/-- The block of a party; 0, which numbers none, for a task. -/
def Party.uid : Party → Nat
  | .strand u _ => u
  | .issue u _ => u
  | .cmd u _ _ => u
  | .block u => u
  | .task _ => 0

/-- Whether a party can no longer read the bytes that a write has overwritten. -/
def Old.knownTo (o : Old) (p : Party) : Bool := o.known.contains p || o.known.contains (.block p.uid)

/-- Whether a write's unit meets a range. -/
def Old.meets (o : Old) (a n : Nat) : Bool := o.addr < a + n && a < o.addr + o.bytes.length

/-- The writes that a party knows. -/
def State.knownTo (s : State) (p : Party) : List Nat := (s.olds.filter fun o => o.knownTo p).map fun o => o.id

/-- A party learns of some writes. -/
def State.learn (s : State) (p : Party) (ids : List Nat) : State :=
  { s with olds := s.olds.map fun o =>
      if ids.contains o.id && !o.knownTo p then { o with known := p :: o.known } else o }

/-- A party learns of every write. -/
def State.learnAll (s : State) (p : Party) : State := s.learn p (s.olds.map fun o => o.id)

/-- A strand learns of some writes, for itself and for the commands that it will issue (R53). -/
def State.learnStrand (s : State) (u : Nat) (e : Eng) (ids : List Nat) : State :=
  (s.learn (.strand u e) ids).learn (.issue u e) ids

/-- Everything that the parties of a block know is known to another. -/
def State.learnFrom (s : State) (p : Party) (u : Nat) : State :=
  s.learn p ((s.olds.filter fun o => o.known.any fun q => q.uid == u).map fun o => o.id)

/-- One who has ended is forgotten. -/
def State.forget (s : State) (p : Party) : State :=
  { s with olds := s.olds.map fun o => { o with known := o.known.filter (· != p), barred := o.barred.filter (· != p) } }

/-- The loads in flight of a party have taken effect (R53): their reads are those that they made. -/
def State.settleAll (s : State) (p : Party) : State := { s with lates := s.lates.filter fun l => l.party != p }

/-- A part of a read settled where an access meets its bytes. -/
def LateRead.settle (l : LateRead) (a n : Nat) : LateRead :=
  { l with parts := l.parts.filter fun x => a + n ≤ x.2.1 || x.2.1 + l.unit ≤ a }

/-- An access to some bytes comes after the party's earlier ones that meet them (R53). -/
def State.settleAt (s : State) (p : Party) (a n : Nat) : State :=
  { s with lates := s.lates.map fun l => if l.party = p then l.settle a n else l }

/-- What a command of a strand knows at its issue (R53): with an acquire everything that the strand knows, and after all its
accesses, else what the strand's acquires have handed on. -/
def State.cmdSees (s : State) (u : Nat) (e : Eng) (idx : BitVec 16) (acq : Bool) : State :=
  ((if acq then s.settleAll (.strand u e) else s).forget (.cmd u e idx)).learn (.cmd u e idx)
    (s.knownTo (.issue u e) ++ if acq then s.knownTo (.strand u e) else [])

/-! ## Reads (R52, R60) -/

/-- Make the accesses of `x` those of an actor. -/
def acting {α : Type} (a : Option Actor) (x : M α) : M α := fun s =>
  match x { s with actor := a } with
  | .ok (v, t) => .ok (v, { t with actor := s.actor })
  | .error e => .error e

/-- The actor of a strand's accesses of `n` bytes each. -/
def byStrand {α : Type} (e : Eng) (n : Nat) (x : M α) : M α := fun s =>
  acting (some { party := .strand s.blk.uid e, unit := n }) x s

/-- Bytes under reading: the byte, and whether older writes no longer count for it. -/
abbrev Seen := List (Byte × Bool)

/-- Reading past a write, newest first: where the reader does not see it, the bytes before it show, unless a newer write that
the reader has seen settles them. -/
def Seen.past (l : Seen) (at_ : Nat) (o : Old) (sees : Bool) : Seen :=
  l.zipIdx.map fun x =>
    let a := at_ + x.2
    if a < o.addr || o.addr + o.bytes.length ≤ a || x.1.2 then x.1
    else if sees then (x.1.1, true)
    else (o.bytes[a - o.addr]?.getD x.1.1, false)

/-- Whether a write's unit holds another's. -/
def Old.within (o x : Old) : Bool := x.addr ≤ o.addr && o.addr + o.bytes.length ≤ x.addr + x.bytes.length

/-- The writes that a party reads past, newest first, each seen or, by a free value, not seen: the bytes, the writes that it has
now seen, with the older ones that these settle, and the number of values drawn. -/
def readPast (p : Party) (at_ : Nat) : List Old → Nat → Seen → List Nat → Seen × List Nat × Nat
  | [], k, l, ids => (l, ids, k)
  | o :: r, k, l, ids =>
    if o.knownTo p || ids.contains o.id then readPast p at_ r k (l.past at_ o true) ids
    else
      let hidden := o.barred.contains p || Config.freeBool (2 * k)
      readPast p at_ r (k + 1) (l.past at_ o (!hidden))
        (if hidden then ids else o.id :: (r.filter fun x => x.within o).map (fun x => x.id) ++ ids)

/-- The lowest of some writes, newest first, that holds a byte. -/
def lowest (l : List Old) (x : Nat) : Option Old := l.reverse.find? fun o => o.addr ≤ x && x < o.addr + o.bytes.length

/-- A byte below some writes in coherence order. -/
def State.byteUnder (s : State) (l : List Old) (x : Nat) : Byte :=
  match lowest l x with
  | some o => o.bytes[x - o.addr]?.getD 0
  | none => Mem.read s.mem x

/-- Those of all writes that are named. -/
def State.oldsNamed (s : State) (ids : List Nat) : List Old := s.olds.filter fun o => ids.contains o.id

/-- `n` bytes of memory as the actor sees them (R52): of a write that neither happens before the read nor was read already, a
free value says whether it shows. A read that shows it can no longer be followed by one that does not. An atomic reads what its own
write goes over. -/
def seeBytes (a n : Nat) : M (List Byte) := fun s =>
  let now := Mem.readN s.mem a n
  match s.actor with
  | none => .ok (now, s)
  | some x =>
    match x.under with
    | some ids => .ok ((List.range n).map fun i => s.byteUnder (s.oldsNamed ids) (a + i), s.settleAt x.party a n)
    | none =>
      let os := s.olds.filter fun o => o.meets a n
      let (l, ids, k) := readPast x.party a os s.free (now.map fun b => (b, false)) []
      .ok (l.map fun y => y.1, (({ s with free := k }.settleAt x.party a n).learn x.party ids))

/-! ## Writes: where they go in coherence order (R52, R53) -/

/-- The units of a write. -/
def unitsOf (unit a : Nat) : Nat → List Byte → List (Nat × List Byte)
  | 0, _ => []
  | f + 1, bs =>
    if bs.isEmpty then []
    else
      let k := max unit 1
      (a, bs.take k) :: unitsOf unit (a + k) f (bs.drop k)

/-- The newest writes at some bytes that a party does not know: of all writes there, these alone can follow one of its own in
coherence order. -/
def State.unseen (s : State) (p : Party) (a n : Nat) : List Old :=
  (s.olds.filter fun o => o.meets a n).takeWhile fun o => !o.knownTo p

/-- Whether the bytes of a write in a range are overwritten by another. -/
def Old.under (o x : Old) (a n : Nat) : Bool :=
  x.addr ≤ max o.addr a && min (o.addr + o.bytes.length) (a + n) ≤ x.addr + x.bytes.length

/-- Whether a write may go under some others, newest first: between no atomic's write and the one that it has read (R52). -/
def mayUnder (a n : Nat) : List Old → Bool
  | [] => true
  | o :: r => (!o.rmw || r.any fun x => o.under x a n) && mayUnder a n r

/-- How far a write goes under the newest that its party does not know: free values say it (R52, R53). -/
def goesUnder (a n k : Nat) (l : List Old) : List Old :=
  let m := ((List.range l.length).takeWhile fun i => Config.freeBool (2 * (k + i))).length
  ((((List.range (m + 1)).reverse).map fun i => l.take i).find? (mayUnder a n)).getD []

/-- Whether a place holds bytes of a range. -/
def SyncObj.overlaps (o : SyncObj) (a n : Nat) : Bool :=
  match o with
  | .loc x k => x < a + n && a < x + k
  | _ => false

/-- A release whose bytes a later write covers: a read of that write does not read the release (R55). -/
def Released.coverBy (r : Released) (a n : Nat) (ids : List Nat) : Released :=
  if r.obj.overlaps a n then { r with cover := ids ++ r.cover } else r

/-- Bytes that the hardware itself writes: every reader sees them (log 7). -/
def State.put (s : State) (a : Nat) (bs : List Byte) : State :=
  { s with mem := Mem.write s.mem a bs, olds := s.olds.filter fun o => !o.meets a bs.length,
           rels := s.rels.filter fun r => !r.obj.overlaps a bs.length }

/-- The block whose core holds a slice, which sees each command's tile in it whole (R47, R59). -/
def State.sliceParty (s : State) (a : Nat) : List Party :=
  match physKind a with
  | .scratch d c => ((s.blocks.filter fun b => b.placed && b.die.val == d && b.core == c).take 1).map fun b => .block b.uid
  | _ => []

/-- The writes that an actor's write of some bytes goes under, and the free values that this took. -/
def State.underFor (s : State) (x : Actor) (a n : Nat) : List Old × Nat :=
  match x.under with
  | some ids => (s.oldsNamed ids, s.free)
  | none => let l := s.unseen x.party a n; (goesUnder a n s.free l, s.free + l.length)

/-- Some writes with their bytes below replaced where a write that has gone under them is what they now overwrite. -/
def Old.overWrite (top : List Old) (a : Nat) (bs : List Byte) (o : Old) : Old :=
  { o with bytes := o.bytes.zipIdx.map fun y =>
      let x := o.addr + y.2
      if a ≤ x && x < a + bs.length && (lowest top x).map (fun v => v.id) == some o.id then bs[x - a]?.getD y.1 else y.1 }

/-- A write put into a list of writes, newest first, under as many as are named. -/
def putUnder (new : Old) : List Nat → List Old → List Old
  | [], l => new :: l
  | _, [] => [new]
  | ids, o :: r => o :: putUnder new (ids.filter (· != o.id)) r

/-- One unit of a write takes its place in coherence order: the bytes that stand in memory after it, and what readers may see. A
release whose bytes it goes over is covered (R55). -/
def State.place (s : State) (x : Actor) (known : List Party) (a : Nat) (bs : List Byte) : List Byte × State :=
  let n := bs.length
  let (top, k) := s.underFor x a n
  let ids := top.map fun o => o.id
  let new : Old := { id := s.nextOld, addr := a, bytes := (List.range n).map fun i => s.byteUnder top (a + i), known := known,
                     barred := [] }
  (bs.zipIdx.map fun y => if (lowest top (a + y.2)).isSome then Mem.read s.mem (a + y.2) else y.1,
    { s with
      free := k, nextOld := s.nextOld + 1,
      rels := s.rels.map fun r => if r.own.any ids.contains then r else r.coverBy a n [s.nextOld],
      olds := putUnder new ids (s.olds.map fun o => if ids.contains o.id then o.overWrite top a bs else o) })

/-- The units of a write placed one after another. -/
def State.placeAll (x : Actor) (known : List Party) : List (Nat × List Byte) → State → List Byte × State
  | [], s => ([], s)
  | (a, bs) :: r, s =>
    let (l, s) := s.place x known a bs
    let (m, s) := State.placeAll x known r s
    (l ++ m, s)

/-- A WRITE of bytes by the actor, as ONE operation: the hardware's own every reader sees; another's goes, unit by unit, over every
write that it knows, and over or under each newer one. -/
def State.store (s : State) (a : Nat) (bs : List Byte) : State :=
  match s.actor with
  | none => s.put a bs
  | some x =>
    let own := match x.party with
      | .cmd _ _ _ => s.sliceParty a
      | _ => []
    let (l, t) := State.placeAll x (x.party :: own) (unitsOf x.unit a bs.length bs) (s.settleAt x.party a bs.length)
    { t with mem := Mem.write t.mem a l }

/-- A place inside a range of bytes that has moved elsewhere. -/
def SyncObj.carried (o : SyncObj) (src dst n : Nat) : Option SyncObj :=
  match o with
  | .loc a k => if src ≤ a && a + k ≤ src + n then some (.loc (a - src + dst) k) else none
  | _ => none

/-- What readers may still see, and acquires meet, at bytes that the hardware has copied elsewhere (R252): the copy is no write in
their order. -/
def State.carryOlds (s : State) (src dst n : Nat) : State :=
  { s with
    olds := s.olds.filter (fun o => !o.meets dst n) ++
      ((s.olds.filter fun o => src ≤ o.addr && o.addr + o.bytes.length ≤ src + n).map fun o =>
        { o with addr := o.addr - src + dst }),
    rels := s.rels.filter (fun r => !r.obj.overlaps dst n) ++
      (s.rels.filterMap fun r => (r.obj.carried src dst n).map fun o => { r with obj := o }) }

/-- The write of a read-modify-write: the releases at its place begin a chain that it carries on, and nothing parts it from what it
has read (R52, R55). -/
def chained {α : Type} (x : M α) : M α := fun s =>
  match x s with
  | .ok (v, t) => .ok (v, { t with rels := s.rels, olds := t.olds.map fun o => if s.nextOld ≤ o.id then { o with rmw := true } else o })
  | .error e => .error e

/-- Make an atomic's accesses of `n` bytes at a place: they go under some of the newest writes that its actor does not know, and the
actor knows all that they go over (R52). -/
def atomically {α : Type} (a n : Nat) (x : M α) : M α := fun s =>
  match s.actor with
  | none => x s
  | some y =>
    let (top, k) := s.underFor y a n
    let ids := top.map fun o => o.id
    let below := (s.olds.filter fun o => o.meets a n && !ids.contains o.id).map fun o => o.id
    let t : State := { s with free := k }
    acting (some { y with under := some ids }) x (t.learn y.party below)

/-! ## Vector clocks (R56) -/

/-- A performed release raises its die's own clock entry (R56). -/
def State.clockUp (s : State) (d : Fin 8) : State :=
  let x : Die := s.dies[d]
  let i : Fin 10 := Fin.ofNat 10 d.val
  let now : Dword := x.clock[i]
  { s with dies := s.dies.set d { x with clock := x.clock.set i (now + 1) } }

/-- The greater of two clocks entry by entry. -/
def mergeClock (x y : Vector Dword 10) : Vector Dword 10 :=
  Vector.ofFn fun i => if (x[i]).toNat < (y[i]).toNat then y[i] else x[i]

/-- A clock merged into a die's. -/
def State.mergeIn (s : State) (d : Fin 8) (y : Vector Dword 10) : State :=
  let x : Die := s.dies[d]
  { s with dies := s.dies.set d { x with clock := mergeClock x.clock y } }

/-- A clock in which only the entry of H-die `h` counts, at that H-die's value: what the host's and the tier's writes carry. -/
def State.hostClock (s : State) (h : Fin 2) : Vector Dword 10 :=
  (Vector.replicate 10 (0 : Dword)).set (Fin.ofNat 10 (8 + h.val)) (s.hdies[h]).clock

/-- A release by the host or an H-die raises the entry of that H-die. -/
def State.hostUp (s : State) (h : Fin 2) : State :=
  { s with hdies := s.hdies.set h { s.hdies[h] with clock := (s.hdies[h]).clock + 1 } }

/-! ## Scopes (R54) -/

/-- The groups of a block's task that hold it. -/
def Task.groupsOf (t : Task) (i : Nat) : List Group := t.groups.filter fun g => g.members.contains i

def State.taskAt (s : State) (k : Nat) : Option Task := s.tasks.find? fun t => t.key == k

/-- Whether a block, by number, partition, die, task and index, lies among the observers of a scope of another (R54). -/
def State.observes (s : State) (sc : Scope) (u1 p1 d1 t1 i1 u2 p2 d2 t2 i2 : Nat) : Bool :=
  match sc with
  | .strand => false
  | .blk => u1 == u2
  | .grp => u1 == u2 || (t1 == t2 && match s.taskAt t1 with
    | none => false
    | some t => (t.groupsOf i1).any fun g => g.members.contains i2)
  | .die => d1 == d2
  | .pkg => p1 == p2
  | .sys => true

/-! ## Releases and acquires (R55 to R57) -/

/-- What an access of `n` bytes at a physical address synchronises at. -/
def locOf (p n : Nat) : SyncObj := .loc p n

/-- Whether an acquire at one place meets a release at another: at bytes that both hold; at a flag it meets the releases of the
ordinals up to its own. -/
def SyncObj.meets (a r : SyncObj) : Bool :=
  match a, r with
  | .loc x n, _ => r.overlaps x n
  | .flag u n k, .flag v m j => u == v && n == m && j ≤ k
  | _, _ => a == r

/-- Whether a queue's entry that a release is has left the queue. -/
def SyncObj.left (b : Block) : SyncObj → Bool
  | .q u n k => u == b.uid && k + 1 < b.pops[qIdx n]
  | .vq u n k => u == b.uid && k + 1 < b.pops[vqIdx n]
  | _ => false

/-- Whether a write lies among the bytes of a place. -/
def SyncObj.holds (x : SyncObj) (o : Old) : Bool :=
  match x with
  | .loc a n => o.meets a n
  | _ => false

/-- The writes of a place that a party knows. -/
def State.seenAt (s : State) (p : Party) (x : SyncObj) : List Nat :=
  (s.olds.filter fun o => x.holds o && o.knownTo p).map fun o => o.id

/-- Of writes, newest first, those that a newer one does not overwrite in a range. -/
def topmost (a n : Nat) : List Old → List Old → List Old
  | _, [] => []
  | newer, o :: r => (if newer.any fun x => o.under x a n then [] else [o]) ++ topmost a n (o :: newer) r

/-- The writes that a release by a party is, at a place. -/
def State.ownAt (s : State) (p : Party) : SyncObj → List Nat
  | .loc a n => (topmost a n [] (s.olds.filter fun o => o.meets a n && o.knownTo p)).map fun o => o.id
  | _ => []

/-- The writes at a place that have gone over those of a party. -/
def State.overAt (s : State) (p : Party) (x : SyncObj) : List Nat :=
  ((s.olds.filter x.holds).takeWhile fun o => !o.knownTo p).map fun o => o.id

/-- Whether a place is in memory, where each release is a write of its own. -/
def SyncObj.inMem : SyncObj → Bool
  | .loc _ _ => true
  | _ => false

/-- What a release by a party of block `b` leaves at a place for acquires: what the party knows goes with it (R55). At a flag, a queue,
a ring or a barrier an acquire meets every earlier release of the block as well. -/
def State.publish (s : State) (b : Block) (p : Party) (o : SyncObj) (sc : Scope) : State :=
  let mine := fun r : Released => !o.inMem && r.obj == o && r.uid == b.uid && r.scope == sc
  let known := s.knownTo p
  let before := ((s.rels.filter mine).flatMap fun r => r.carries).filter fun i => !known.contains i
  { s with rels :=
      { obj := o, own := s.ownAt p o, cover := s.overAt p o, uid := b.uid, part := b.part, die := b.die, task := b.task,
        bidx := b.bidx.toNat, scope := sc, clock := (s.dies[b.die]).clock, carries := known ++ before } ::
      s.rels.filter fun r => !mine r && !r.obj.left b }

/-- A RELEASE by a party of block `b`, as ONE operation: its die's clock rises, and acquires may meet it at each of its places
(R55, R56). The party's loads in flight come before it (R53). -/
def State.releaseOf (s : State) (b : Block) (p : Party) (l : List SyncObj) (sc : Scope) : State :=
  l.foldl (fun s o => s.publish b p o sc) ((s.clockUp b.die).settleAll p)

/-- A release by a party of the block in focus at one place. -/
def State.release (s : State) (p : Party) (o : SyncObj) (sc : Scope) : State := s.releaseOf s.blk p [o] sc

/-- Whether a party has read, at a place, the write that a release is, or a chain on it: it knows that write and none that covers
it. -/
def State.hasRead (s : State) (p : Party) (r : Released) (x : SyncObj) : Bool :=
  !(s.olds.any fun o => x.holds o && ((r.own.contains o.id && !o.knownTo p) || (r.cover.contains o.id && o.knownTo p)))

/-- Whether a release lies at the place of an acquire by block `b`, and each among the observers of the other's scope. -/
def State.faces (s : State) (b : Block) (r : Released) (o : SyncObj) (sc : Scope) : Bool :=
  o.meets r.obj &&
    s.observes r.scope r.uid r.part r.die.val r.task r.bidx b.uid b.part b.die.val b.task b.bidx.toNat &&
    s.observes sc b.uid b.part b.die.val b.task b.bidx.toNat r.uid r.part r.die.val r.task r.bidx

/-- The releases that an acquire of a party of block `b` synchronises with: it has read them there (R55). -/
def State.met (s : State) (b : Block) (p : Party) (o : SyncObj) (sc : Scope) : List Released :=
  s.rels.filter fun r => s.faces b r o sc && s.hasRead p r o

/-- The clocks of some releases merged into a die's. -/
def State.mergeRels (s : State) (d : Fin 8) (l : List Released) : State := l.foldl (fun s r => s.mergeIn d r.clock) s

/-- AN ACQUIRE by a strand of block `b` at a place, as ONE operation: it learns what the releases there carry, and their clocks are
merged (R55, R56). -/
def State.acquireOf (s : State) (b : Block) (e : Eng) (o : SyncObj) (sc : Scope) : State :=
  let p := Party.strand b.uid e
  let l := s.met b p o sc
  (s.mergeRels b.die l).learnStrand b.uid e (s.seenAt p o ++ l.flatMap fun r => r.carries)

/-- An acquire by a strand of the block in focus. -/
def State.acquire (s : State) (e : Eng) (o : SyncObj) (sc : Scope) : State := s.acquireOf s.blk e o sc

/-- An acquire by a command at a place that it has read. -/
def State.acquireCmd (s : State) (p : Party) (sc : Scope) (o : SyncObj) : State :=
  let l := s.met s.blk p o sc
  (s.mergeRels s.blk.die l).learn p (l.flatMap fun r => r.carries)

/-- A command's acquire goes before its reads (R57): of the releases at a place that it is about to read, each is one whose write
it reads, and with which it synchronises, or, by a free value, one whose write it does not read. -/
def State.foresee (s : State) (p : Party) (r : Released) (o : SyncObj) : State :=
  let new := fun x : Old => o.holds x && r.own.contains x.id && !x.knownTo p
  if !s.olds.any new then s
  else
    let t := { s with free := s.free + 1 }
    if Config.freeBool (2 * s.free) then
      { t with olds := t.olds.map fun x => if new x then { x with barred := p :: x.barred } else x }
    else t.learn p ((s.olds.filter new).map fun x => x.id)

/-- The acquire of a command before its first read of a place. -/
def State.acquireFirst (s : State) (p : Party) (sc : Scope) (o : SyncObj) : State :=
  ((s.rels.filter fun r => s.faces s.blk r o sc).foldl (fun s r => s.foresee p r o) s).acquireCmd p sc o

end Sys2Proof.Machine
end

