-- ==== Sys2Proof/Machine/Translate.lean ====
section
/-! DEFINITION. Virtual addresses (R42 to R47, R300 to R304, R310, R311): translation through the windows, the range
entries of the current phase and the page tables, the checks of R308, R309, R321 and R327 on the physical side, and
the reads and writes that every access goes through. -/

namespace Sys2Proof.Machine

/-- The kind of an access, for permissions (R45). -/
inductive Acc | read | write | atomic
deriving DecidableEq, Repr

/-- The permission bit an access needs: 1 read, 2 write, 4 atomic. -/
def Acc.bit : Acc → Nat
  | .read => 1
  | .write => 2
  | .atomic => 4

def permits (perm : Nat) (k : Acc) : Bool := perm / k.bit % 2 == 1

/-! ## Map entries -/

def MapEntry.st (e : MapEntry) : Nat := e.state.toNat % 4
def MapEntry.dies (e : MapEntry) : List Nat := (List.range 10).filter fun d => e.state.toNat / 2 ^ (2 + d) % 2 == 1
def MapEntry.granule (e : MapEntry) : Nat := 2 ^ (16 + e.state.toNat / 2 ^ 12 % 16)
def MapEntry.covers (e : MapEntry) (va : Nat) : Bool := e.base.toNat ≤ va && va < e.limit.toNat
def MapEntry.size (e : MapEntry) : Nat := e.limit.toNat - e.base.toNat

/-- `n` bytes of KSPEC from region byte `at_` (20 to 31) as a number (R302). -/
def MapEntry.spec (e : MapEntry) (at_ n : Nat) : Nat := leNat ((e.kspec.drop (at_ - 20)).take n)

def MapEntry.npages (e : MapEntry) : Nat := e.spec 20 3
def MapEntry.nframes (e : MapEntry) : Nat := e.spec 23 3
def MapEntry.wmark (e : MapEntry) : Nat := e.spec 26 2
def MapEntry.tierReg (e : MapEntry) : Nat := e.spec 28 2
def MapEntry.offc (e : MapEntry) : Nat := e.spec 30 1
def MapEntry.recc (e : MapEntry) : Nat := e.spec 31 1

/-- REXP of an exact-sum entry (R225). -/
def MapEntry.rexp (e : MapEntry) : Int := signedOf 16 (e.spec 20 2)

/-- The entries of a context in a phase. -/
def Ctx.entries (c : Ctx) (phase : Nat) : List MapEntry := (c.store.drop (phase * c.regions)).take c.regions

/-- The index and entry that cover an address in the current phase. -/
def Ctx.find (c : Ctx) (va : Nat) : Option (Nat × MapEntry) :=
  ((c.entries c.phase.val).zipIdx.find? fun x => x.1.covers va).map fun x => (x.2, x.1)

/-- Physical address of byte `off` of an entry's location (R248, R300); `w` is the partition's PARTDIES value. -/
def MapEntry.phys (e : MapEntry) (off : Nat) : Nat :=
  let ds := e.dies
  let k := off / e.granule
  let i := k % max ds.length 1
  let loc := (k / max ds.length 1) * e.granule + off % e.granule
  let fr := (e.frames[i]?.getD 0).toNat
  let d := ds[i]?.getD 0
  if 8 ≤ d then tierBase (d - 8) + fr + loc else fr + loc

/-! ## The physical side -/

/-- The partition of the block in focus. -/
def State.partWord (s : State) : Word := s.hub.partdies[Fin.ofNat 32 s.blk.part]

/-- The key under which the block in focus reads and writes (R321). -/
def State.key (s : State) : Nat := s.hub.keys[Fin.ofNat 32 s.blk.part]

def State.unitKey (s : State) (u : Nat) : Option Nat := (s.unitKeys.find? fun x => x.1 == u).map (·.2)

/-- Whether the tract that holds a physical address is fenced (R308, R327). -/
def State.tractFenced (s : State) (p : Nat) : Bool :=
  match physKind p with
  | .dram d =>
    ((List.range 4).any fun k => (s.tracts[Fin.ofNat 32 (4 * d + k)]).fenced) &&
      (s.tracts[Fin.ofNat 32 (4 * d + Config.tractOf p % (if d < 4 then 4 else 3))]).fenced
  | _ => false

/-- Free bytes that a read under a foreign key returns (R321). -/
def freeBytes (n : Nat) : M (List Byte) := do
  let k ← drawFree
  return (List.range n).map fun i => Config.freeByte (1024 * k + i)

/-- The peer package and the port at an index of the context's peer table (R8). -/
def State.peer (s : State) (n : Nat) : Nat × Fin 16 := s.cx.peers[Fin.ofNat 16 n]

/-- Checks on a physical access from die `d` (R308, R327); `va` is the address the trap reports. -/
def physCheck (d va p : Nat) : M Unit := do
  let s ← getS
  match physKind p with
  | .none => stopWith (.fault (.noSuchMemory p))
  | _ => pure ()
  if s.tractFenced p then trapAt 0x41 va
  if !pathOpen s.links d p then trapAt 0x42 va

/-- A counter of 16 bits that stays at its maximum (R330). -/
def sat16 (n k : Nat) : Nat := min 65535 (n + k)

/-- The telemetry of the tract that holds a unit, corrected or found uncorrectable (R309, R330). -/
def State.countUnit (s : State) (p : Nat) (bad : Bool) : State :=
  match physKind p with
  | .dram d =>
    let k := Fin.ofNat 32 (4 * d + Config.tractOf p % (if d < 4 then 4 else 3))
    let x := s.tracts[k]
    { s with tracts := s.tracts.set k (if bad then { x with uncor := sat16 x.uncor 1 } else { x with corr := sat16 x.corr 1 }) }
  | _ => s

/-- A read of a unit of main memory corrects an error of it, and counts the correction (R309): once for each unit that one instruction
reads together. -/
def State.ecc (s : State) (p : Nat) : State :=
  if !s.upsets.contains (p / 64) then s
  else
    match s.corrected with
    | none => s.countUnit p false
    | some l => if l.contains (p / 64) then s else { s.countUnit p false with corrected := some (p / 64 :: l) }

/-- Make reads that count each unit's correction once (R309, R330). -/
def readTogether {α : Type} (x : M α) : M α := fun s =>
  match x { s with corrected := some [] } with
  | .ok (v, t) => .ok (v, { t with corrected := s.corrected })
  | .error e => .error e

/-- Whether a key shows the bytes of a unit (R321). -/
def State.shows (s : State) (key u : Nat) : Bool :=
  match s.unitKey u with
  | some k => k == key
  | none => true

/-- Whether the bytes of a unit are those that the key of the block in focus shows (R321). -/
def State.inKey (s : State) (u : Nat) : Bool := s.shows s.key u

/-- A byte of main memory as a key shows it (R321). -/
def State.byteIn (s : State) (key a : Nat) : Byte :=
  if s.shows key (a / 64) then Mem.read s.mem a
  else Config.garbled ((s.unitKey (a / 64)).getD 0) key a (Mem.readN s.mem (a / 64 * 64) 64)

/-- `n` bytes of main memory as a key shows them. -/
def State.bytesIn (s : State) (key a n : Nat) : List Byte := (List.range n).map fun i => s.byteIn key (a + i)

/-- A unit of main memory under a key: what the key showed of it is now stored under it (R321). -/
def State.rekeyUnit (s : State) (key u : Nat) : State :=
  let s := if s.shows key u then s else s.put (64 * u) (s.bytesIn key (64 * u) 64)
  { s with unitKeys := if s.unitKey u = some key then s.unitKeys else (u, key) :: s.unitKeys.filter (fun x => x.1 != u) }

/-- Bytes that the hardware writes to main memory under a key: the rest of each unit that they meet goes under it as well, and an error
of it is gone. -/
def State.putIn (s : State) (key a : Nat) (bs : List Byte) : State :=
  let us := (List.range ((a % 64 + bs.length + 63) / 64)).map fun i => a / 64 + i
  let t := (us.foldl (fun s u => s.rekeyUnit key u) s).put a bs
  { t with upsets := t.upsets.filter fun u => !us.contains u }

/-- Read `n` bytes inside one 64-byte unit, as the actor sees them. Every read of a slice that has been fenced may raise trap 0x40 (R47,
R328), that of a stream port and of `vamo` too, for which R201 does not list it (DESIGN CHOICE, log 61). -/
def readUnit (d va p n : Nat) : M (List Byte) := do
  physCheck d va p
  let s ← getS
  match physKind p with
  | .scratch x c =>
    if (s.cores[Fin.ofNat 320 (40 * x + c)]).fenced then
      let k ← drawFree
      if Config.freeBool (2 * k) then trapAt 0x40 va
    seeBytes p n
  | _ =>
    if isDram p then
      modS fun s => s.ecc p
      let s ← getS
      if s.poison.contains (p / 64) then trapAt 0x41 va
      if s.inKey (p / 64) then seeBytes p n else freeBytes n
    else seeBytes p n

/-- Write bytes inside one 64-byte unit (R309, R321). -/
def writeUnit (d va p : Nat) (bs : List Byte) : M Unit := do
  physCheck d va p
  let s ← getS
  let u := p / 64
  if isDram p then
    let whole := bs.length = 64
    if !s.inKey u then
      let g ← freeBytes 64
      modS fun s => { s with mem := Mem.write s.mem (64 * u) g, olds := s.olds.filter fun o => !o.meets (64 * u) 64 }
    modS fun s =>
      let t := s.store p bs
      { t with poison := if whole then t.poison.filter (· != u) else t.poison,
               upsets := t.upsets.filter (· != u),
               unitKeys := if t.unitKey u = some t.key then t.unitKeys
                           else (u, t.key) :: t.unitKeys.filter (fun x => x.1 != u) }
  else modS fun s => s.store p bs

/-! ## Page tables (R303, R304) -/

def pteFrame (e : Nat) : Nat := e / 2 ^ 12 % 2 ^ 40 * 2 ^ 12
def pteBad (e : Nat) : Bool := 2 ^ 52 ≤ e || e / 2 ^ 8 % 16 != 0 || e / 2 ^ 4 % 4 != 0
def ptePresent (e : Nat) : Bool := e % 2 == 1
def pteLeaf (e : Nat) : Bool := e / 2 ^ 6 % 2 == 1
def pteSz64 (e : Nat) : Bool := e / 2 ^ 7 % 2 == 1

/-- Read one table entry. -/
def readPte (d va p : Nat) : M Nat := do return leNat (← readUnit d va p 8)

/-- The level-0 entry that serves an address (R303): the group's first entry where it or the address's own says that the group
is one 64 KiB page. A first entry that cannot be read decides nothing where the address's own is a 4 KiB page. -/
def leafEntry (d va t : Nat) : M (Nat × Bool) := do
  let i := va / 2 ^ 12 % 512
  let e ← readPte d va (t + 8 * i)
  if pteSz64 e then return (← readPte d va (t + 8 * (i - i % 16)), true)
  else
    match ← attempt (readPte d va (t + 8 * (i - i % 16))) with
    | .ok g => return if ptePresent g && pteSz64 g then (g, true) else (e, false)
    | .error x => if ptePresent e then return (e, false) else stopWith (.trap x)

/-- Walk from level `l` with the table at `t`: the page's size exponent, frame and permissions. -/
def walk (d va : Nat) : Nat → Nat → M (Nat × Nat × Nat)
  | 0, t => do
    let (x, big) ← leafEntry d va t
    if !ptePresent x || pteBad x || pteLeaf x then trapAt 0x31 va
    return (if big then 16 else 12, pteFrame x, x / 2 % 8)
  | l + 1, t => do
    let i := va / 2 ^ (12 + 9 * (l + 1)) % 512
    let e ← readPte d va (t + 8 * i)
    if !ptePresent e || pteBad e then trapAt 0x31 va
    if pteLeaf e then
      if l + 1 = 1 then return (21, pteFrame e, e / 2 % 8)
      else if l + 1 = 2 then return (30, pteFrame e, e / 2 % 8)
      else trapAt 0x31 va
    else walk d va l (pteFrame e)

/-- A leaf from the die's TLB, or by a walk that then fills it (R304). -/
def leafOf (va : Nat) : M (Nat × Nat × Nat) := do
  let s ← getS
  let d := s.blk.die
  match (s.dies[d]).tlb.find? fun t => t.ctx == s.blk.ctx && t.va == va / 2 ^ t.log2 * 2 ^ t.log2 with
  | some t => return (t.log2, t.frame, t.perm)
  | none =>
    let (l, f, p) ← acting none (walk d.val va 4 (s.cx.ptroot.toNat / 2 ^ 12 * 2 ^ 12))
    let ent : TlbEnt := { ctx := s.blk.ctx, va := va / 2 ^ l * 2 ^ l, log2 := l, frame := f, perm := p }
    modS fun s => { s with dies := s.dies.set d { s.dies[d] with tlb := (ent :: (s.dies[d]).tlb).take 8192 } }
    return (l, f, p)

/-- A main-memory address through the page tables (R45). -/
def pageAddr (k : Acc) (va : Nat) : M Nat := do
  let (l, f, p) ← leafOf va
  if !permits p k then trapAt 0x32 va
  let pa := f / 2 ^ l * 2 ^ l + va % 2 ^ l
  match physKind pa with
  | .dram _ => return pa
  | _ => stopWith (.fault (.noSuchMemory pa))

/-! ## The KV pool (R310, R311) -/

/-- Pages that hold the metadata (R310). -/
def MapEntry.metaPages (e : MapEntry) : Nat := (64 + 20 * e.npages + 65535) / 65536

/-- Physical base of a pool: FRAME0. -/
def MapEntry.frame0 (e : MapEntry) : Nat := (e.frames[0]?.getD 0).toNat

/-- Physical address of word `w` of page `p`'s state. -/
def MapEntry.pageWord (e : MapEntry) (p w : Nat) : Nat := e.frame0 + 64 + 4 * e.npages + 16 * p + 4 * w

/-- The key under which a home reads and writes a pool's metadata (R321): that of the partition that holds the memory. -/
def State.homeKey (s : State) (a : Nat) : Nat :=
  match s.hub.frames.toList.zipIdx.find? fun x => x.1.any fun r => r.1 ≤ a && a < r.1 + r.2 with
  | some x => s.hub.keys[Fin.ofNat 32 x.2]
  | none => s.key

/-- A 32-bit word of metadata. -/
def State.metaWord (s : State) (a : Nat) : Nat := leNat (s.bytesIn (s.homeKey a) a 4)

/-- A home reads metadata for an access at `va`: errors are corrected and counted, and poison raises trap 0x41 (R309). -/
def metaRead (va a n : Nat) : M Unit := do
  let us := (List.range ((a % 64 + n + 63) / 64)).map fun i => a / 64 + i
  modS fun s => us.foldl (fun s u => s.ecc (64 * u)) s
  if us.any (← getS).poison.contains then trapAt 0x41 va

/-- A write at physical address `p` of a pool region under the current map marks an already copied granule again (R255): a
pool's granules are its frames. -/
def State.remarkFrame (s : State) (cx rgn : Nat) (e : MapEntry) (p : Nat) : State :=
  s.modCtx cx fun c => { c with change := c.change.map fun h =>
    { h with moved := h.moved.filter fun x => !(x.1 == rgn && x.2 == (p - e.frame0) / 65536) } }

/-- Writes of a pool's metadata by its home mark the metadata granules again (R255). -/
def State.remarkMeta (s : State) (cx rgn : Nat) (e : MapEntry) : State :=
  s.modCtx cx fun c => { c with change := c.change.map fun h =>
    { h with moved := h.moved.filter fun x => !(x.1 == rgn && x.2 < e.metaPages) } }

/-- The home writes a word of a pool's metadata (R310). -/
def State.setMeta (s : State) (a v : Nat) : State := s.putIn (s.homeKey a) a (leBytes 4 v)

/-- Module time in µs. -/
def State.micros (s : State) : Nat := s.time / (1000 * nsUnits)

/-- Remove a page's Sump entry wherever it is listed (R311, R312). -/
def State.unlist (s : State) (cx rgn page : Nat) : State :=
  { s with dies := s.dies.map fun d =>
      { d with sump := d.sump.filter fun x => !(x.ctx == cx && x.rgn == rgn && x.page == page) } }

/-- The SUMP bit of a page state word 3 cleared. -/
def clearSump (w : Nat) : Nat := if w / 4 % 2 = 1 then w - 4 else w

/-- An access to a resident page: its stamp, at most once per µs, and the withdrawal of its Sump entry (R311). -/
def State.touch (s : State) (cx rgn : Nat) (e : MapEntry) (page : Nat) : State :=
  let now := s.micros % 2 ^ 32
  let s := if s.metaWord (e.pageWord page 1) = now then s
    else (s.setMeta (e.pageWord page 1) now).remarkFrame cx rgn e (e.pageWord page 1)
  let w3 := s.metaWord (e.pageWord page 3)
  if w3 / 4 % 2 = 1 then
    ((s.setMeta (e.pageWord page 3) (clearSump w3)).unlist cx rgn page).remarkFrame cx rgn e (e.pageWord page 3)
  else s

/-- Whether a region's granule carries a forwarding mark (R259). -/
def Ctx.marked (c : Ctx) (rgn granule : Nat) : Bool := c.marks.any fun m => m.region == rgn && m.granule == granule

/-- A stall while a granule carries a forwarding mark (R259). -/
def onMarkOf (rgn granule va : Nat) : M Unit := do
  if (← getS).cx.marked rgn granule then stopWith (.mark va)

/-- A home's stall while any granule that holds one of some addresses of a pool carries a forwarding mark (R259). -/
def onMarksAt (rgn va : Nat) (e : MapEntry) (l : List Nat) : M Unit :=
  ((l.map fun a => (a - e.frame0) / 65536).eraseDups).forM fun g => onMarkOf rgn g va

/-- Physical address of byte `off` of a pool region (R310, R311): an access to a page that is not resident raises
trap 0x31, one to a page being restored waits. The granules that marks name are the pool's frames (R259; log 28). -/
def poolAddr (rgn : Nat) (e : MapEntry) (va off : Nat) : M Nat := do
  let page := off / 65536
  if page < e.metaPages then
    onMarkOf rgn page va
    return e.frame0 + off
  else
    onMarkOf rgn ((e.pageWord page 3 - e.frame0) / 65536) va
    metaRead va (e.pageWord page 0) 16
    let s ← getS
    let w3 := s.metaWord (e.pageWord page 3)
    if w3 / 8 % 2 = 1 then stopWith .freeze
    if w3 % 4 ≠ 0 then trapAt 0x31 va
    onMarkOf rgn (w3 / 256) va
    modS fun s => s.touch s.blk.ctx rgn e page
    return e.frame0 + w3 / 256 * 65536 + off % 65536

/-! ## Translation (R42 to R45) -/

/-- Bases of the fixed windows (R42). -/
def scratchWin : Nat := 0x00F0000000000000
def seWin : Nat := 0x00F8000000000000

/-- Whether a quad stands between the fence and the grant of its move (R322): accesses to it are to a hole. -/
def State.quadShut (s : State) (d q : Nat) : Bool := s.hub.zeroing.any fun z => z.1 == d && z.2.1 == q

/-- A scratch-window address (R43, R322). -/
def scratchAddr (va : Nat) : M Nat := do
  let s ← getS
  let w := s.partWord
  let o := va - scratchWin
  match physDie w (o / 2 ^ 28) with
  | none => trapAt 0x31 va
  | some d =>
    match physCore w d (o % 2 ^ 28 / 2 ^ 22) with
    | none => trapAt 0x31 va
    | some c => if o % 2 ^ 22 < sliceSize d && !s.quadShut d (c / quadCores d) then return scratchBase d c + o % 2 ^ 22 else trapAt 0x31 va

/-- A synchronisation-engine-window address (R44, R322, R332). -/
def seAddr (va : Nat) : M Nat := do
  let s ← getS
  let o := va - seWin
  let vd := o / 2 ^ 24
  match physDie s.partWord vd with
  | none => trapAt 0x31 va
  | some d =>
    let x : Nat := o % 2 ^ 24
    if x < 2 ^ 23 then
      match (quadsOf s.partWord d)[x / 2 ^ 21]? with
      | some q => if s.quadShut d q then trapAt 0x31 va else return seBase d + q * 2 ^ 21 + x % 2 ^ 21
      | none => trapAt 0x31 va
    else
      let r : Nat := (s.cx.seovf[Fin.ofNat 8 vd]).toNat
      let len : Nat := min (r % 16) 8 * 2 ^ 20
      if x - 2 ^ 23 < len then return r / 2 ^ 20 * 2 ^ 20 + (x - 2 ^ 23) else trapAt 0x31 va

/-- A main-memory address (R45): `exact` says that the operation is one R225 permits on exact-sum entries. -/
def mainAddr (k : Acc) (exact : Bool) (va : Nat) : M Nat := do
  let s ← getS
  match s.cx.find va with
  | none => pageAddr k va
  | some (i, e) =>
    if e.st = 0 then trapAt 0x30 va
    else if !permits e.perm.toNat k then trapAt 0x32 va
    else if e.kind = 5 && !exact then trapAt 0x32 va
    else
      let off := va - e.base.toNat
      if e.kind = 2 then poolAddr i e va off
      else
        onMarkOf i (off / 65536) va
        return e.phys off

/-- Translate one address. `se` says that the access may address the synchronisation-engine window (R44). -/
def translate (k : Acc) (se exact : Bool) (va : Nat) : M Nat :=
  if 2 ^ 57 ≤ va then trapAt 0x31 va
  else if va < scratchWin then mainAddr k exact va
  else if va < scratchWin + 10 * 2 ^ 28 then scratchAddr va
  else if va < seWin then trapAt 0x31 va
  else if va < seWin + 10 * 2 ^ 24 then (if se then seAddr va else trapAt 0x32 va)
  else trapAt 0x31 va

/-- Whether a virtual address is main memory. -/
def isMain (va : Nat) : Bool := va < scratchWin

/-! ## Reads and writes of any length -/

/-- Pieces of a range that lie in one 64-byte unit each: address and length. -/
def pieces : Nat → Nat → Nat → List (Nat × Nat)
  | 0, _, _ => []
  | f + 1, a, n =>
    if n = 0 then []
    else
      let k := min n (64 - a % 64)
      (a, k) :: pieces f (a + k) (n - k)

def piecesOf (a n : Nat) : List (Nat × Nat) := pieces (n / 64 + 2) a n

/-- Read a virtual range piece by piece. -/
def readPieces (se exact : Bool) : List (Nat × Nat) → M (List Byte)
  | [] => pure []
  | (a, n) :: r => do
    let p ← translate .read se exact a
    let d := (← getBlk).die
    let x ← readUnit d.val a p n
    let y ← readPieces se exact r
    return x ++ y

/-- Read `n` bytes at a virtual address with the permissions of a load. -/
def readVirt (se : Bool) (va n : Nat) : M (List Byte) := readPieces se true (piecesOf va n)

/-- Words 2 of pool page states: the only metadata that stores may write, and of it only TOK (R310). -/
def MapEntry.tokAt (e : MapEntry) (off : Nat) : Bool :=
  let b := 64 + 4 * e.npages
  b ≤ off && off < b + 16 * e.npages && 8 ≤ (off - b) % 16 && (off - b) % 16 < 12

/-- Check a write into pool metadata (R310), and answer which of its bytes are stored. -/
def metaWrite (e : MapEntry) (va off n : Nat) : M (Nat → Bool) :=
  if (List.range n).all fun i => e.tokAt (off + i) then
    return fun i => (off + i - (64 + 4 * e.npages)) % 4 < 2
  else trapAt 0x32 va

/-- A write at `va`, physical address `p`, under the current map marks an already copied granule again (R255). -/
def State.remark (s : State) (va p : Nat) : State :=
  match s.cx.find va with
  | none => s
  | some (i, e) =>
    if !isMain va then s
    else if e.kind = 2 then s.remarkFrame s.blk.ctx i e p
    else s.modCtx s.blk.ctx fun c =>
      { c with change := c.change.map fun h =>
          { h with moved := h.moved.filter fun x => !(x.1 == i && x.2 == (va - e.base.toNat) / 65536) } }

/-- Translate one piece of a write, with its checks (R45, R310). -/
def transPiece (se : Bool) (a n : Nat) : M Nat := do
  let p ← translate .write se true a
  match (← getS).cx.find a with
  | some (_, e) =>
    if isMain a && e.kind = 2 && (a - e.base.toNat) / 65536 < e.metaPages then
      let _ ← metaWrite e a (a - e.base.toNat) n
  | none => pure ()
  return p

/-- Translate and check every piece of a write before any byte is written. -/
def checkWrite (se : Bool) : List (Nat × Nat) → M (List Nat)
  | [] => pure []
  | (a, n) :: r => do
    let p ← transPiece se a n
    physCheck (← getBlk).die.val a p
    let y ← checkWrite se r
    return p :: y

/-- Write one piece: pool metadata keeps its read-only bytes (R310). -/
def writePiece (va p : Nat) (bs : List Byte) : M Unit := do
  let s ← getS
  let d := s.blk.die.val
  match s.cx.find va with
  | some (_, e) =>
    if isMain va && e.kind = 2 && (va - e.base.toNat) / 65536 < e.metaPages then
      let keep ← metaWrite e va (va - e.base.toNat) bs.length
      let old := s.bytesIn (s.homeKey p) p bs.length
      let new := (bs.zip old).zipIdx.map fun x => if keep x.2 then x.1.1 else x.1.2
      writeUnit d va p new
    else writeUnit d va p bs
    modS fun s => s.remark va p
  | none => writeUnit d va p bs

def writePieces : List (Nat × Nat) → List Nat → List Byte → M Unit
  | (a, n) :: r, p :: q, bs => do
    writePiece a p (bs.take n)
    writePieces r q (bs.drop n)
  | _, _, _ => pure ()

/-- Write bytes at a virtual address: every check comes before the first byte. Answers the physical address of the
first byte. -/
def writeVirt (se : Bool) (va : Nat) (bs : List Byte) : M Nat := do
  let ps := piecesOf va bs.length
  let qs ← checkWrite se ps
  writePieces ps qs bs
  return qs[0]?.getD 0

/-! ## Scouted rounds (R136) -/

/-- Who writes or reads, for the buffering of R136: a c instruction, a v lane group, or an engine. -/
inductive Who
  | c
  | lanes (k : Nat)
  | engine
deriving DecidableEq, Repr

/-- The slot of an agent. -/
def Who.slot : Who → Option Nat
  | .c => some 0
  | .lanes k => some k
  | .engine => none

/-- Bytes of a slot's buffered stores laid over bytes read at `va`. -/
def overlay (bufs : List BufSt) (va : Nat) (bs : List Byte) : List Byte :=
  bs.zipIdx.map fun x =>
    bufs.foldl (fun b y =>
      let i := va + x.2
      if y.addr.toNat ≤ i && i < y.addr.toNat + y.bytes.length then y.bytes[i - y.addr.toNat]?.getD b else b) x.1

/-- The append window an address lies in, if any (R136). -/
def Scout.window (x : Scout) (va : Nat) : Option Nat :=
  (List.range x.k).find? fun k => x.regions.any fun r =>
    r.1.toNat + k * r.2.toNat ≤ va && va < r.1.toNat + (k + 1) * r.2.toNat

/-- Whether stores are buffered now: in the body of a round (R136, R264). -/
def Scout.buffering (x : Scout) : Bool :=
  match x.round with
  | .body => true
  | .accepted => true
  | _ => false

/-- Make the accesses of `x`, of `n` bytes each, those of an agent: an engine's are its command's already. -/
def byWho {α : Type} (w : Who) (n : Nat) (x : M α) : M α :=
  match w with
  | .c => byStrand .c n x
  | .lanes _ => byStrand .v n x
  | .engine => x

/-- Load bytes as an agent sees them: main memory under its slot's buffer. -/
def loadAs (w : Who) (se : Bool) (va n : Nat) : M (List Byte) := do
  let bs ← byWho w n (readVirt se va n)
  let x := (← getBlk).scout
  match w.slot with
  | some k => return if x.buffering && isMain va then overlay (x.bufs[Fin.ofNat 8 k]) va bs else bs
  | none => return bs

/-- Bytes held in a slot's buffer. -/
def bufLen (l : List BufSt) : Nat := (l.map fun y => y.bytes.length).sum

/-- Whether a store at an address is performed at once, and not buffered (R136). -/
def Scout.direct (x : Scout) (w : Who) (va : Nat) : Bool :=
  !(x.buffering && isMain va) || (match w with
    | .lanes _ => (x.window va).isSome
    | _ => false)

/-- Store bytes as an agent: in a round, main-memory stores of the c strand and of v lanes outside append windows are
buffered (R136), and a buffer of more than 16 KiB discards the round (R140). Answers the physical address. -/
def storeAs (w : Who) (se : Bool) (va : Nat) (bs : List Byte) : M Nat := do
  let x := (← getBlk).scout
  match w.slot with
  | some k =>
    if x.direct w va then byWho w bs.length (writeVirt se va bs)
    else
      let qs ← checkWrite se (piecesOf va bs.length)
      let i := Fin.ofNat 8 k
      if 16384 < bufLen (x.bufs[i]) + bs.length then stopWith .overflow
      modBlk fun b =>
        { b with scout := { b.scout with
            bufs := b.scout.bufs.set i (b.scout.bufs[i] ++ [{ addr := BitVec.ofNat 64 va, bytes := bs }]) } }
      return qs[0]?.getD 0
  | none => writeVirt se va bs

/-! ## Scopes (R54, R58) -/

/-- The dies on which blocks run that share a group with the block in focus (R54). -/
def State.groupDies (s : State) : List Nat :=
  match s.taskAt s.blk.task with
  | none => []
  | some t =>
    let gs := t.groupsOf s.blk.bidx.toNat
    (s.blocks.filter fun b => b.placed && b.task == s.blk.task && gs.any fun g => g.members.contains b.bidx.toNat).map
      fun b => b.die.val

/-- Whether a scope holds the home of a physical address (R54, R58). -/
def State.inScope (s : State) (sc : Scope) (p : Nat) : Bool :=
  match sc with
  | .strand => false
  | .blk => physKind p == .scratch s.blk.die.val s.blk.core
  | .grp => s.groupDies.contains (homeOf p)
  | .die => homeOf p == s.blk.die.val
  | .pkg => (match physKind p with
    | .tier _ => true
    | .far _ => false
    | _ => !(quadsOf s.partWord (homeOf p)).isEmpty)
  | .sys => true

/-- The acquire or release of a strand's access of `n` bytes to a physical address: dropped, with STATUS.SCX, where the scope does
not hold its home (R58). -/
def order (e : Eng) (o : Ord) (p n : Nat) : M Unit := do
  if o.acq || o.rel then
    let s ← getS
    if s.inScope o.scope p then
      if o.acq then modS fun s => s.acquire e (locOf p n) o.scope
      if o.rel then modS fun s => s.release (.strand s.blk.uid e) (locOf p n) o.scope
    else setSt stSCX

/-- The ordering of a load, which can acquire, and of a store, which can release (R55). -/
def loadOrd (o : Ord) : Ord := { o with rel := false }
def storeOrd (o : Ord) : Ord := { o with acq := false }

/-- The number under which the read of a load is kept that may still take effect later than it was issued, with its parts (R53): not in
a round, of an acquire, or where there is no part. -/
def keepRead (e : Eng) (o : Ord) (unit : Nat) (parts : List (Nat × Nat × List Nat)) : M (Option Nat) := do
  let s ← getS
  if s.blk.scout.buffering || o.acq || parts.isEmpty then return none
  let l : LateRead := { id := s.nextOld, party := .strand s.blk.uid e, unit := unit, parts := parts }
  modS fun s => { s with nextOld := s.nextOld + 1, lates := l :: s.lates }
  return some l.id

/-- A part of a kept read taken again: its bytes, where its place is still the same and can be read; free values say whether it is
(R53). -/
def readAgain (l : LateRead) (x : Nat × Nat × List Nat) : M (Option (List Byte)) := fun s =>
  let t := { s with free := s.free + 1 }
  let same := match translate .read true true x.1 s with
    | .ok (p, _) => p == x.2.1
    | .error _ => false
  if !Config.freeBool (2 * s.free) || !same || s.poison.contains (x.2.1 / 64) || (isDram x.2.1 && !s.inKey (x.2.1 / 64)) then
    .ok (none, t)
  else
    match acting (some { party := l.party, unit := l.unit }) (seeBytes x.2.1 l.unit) t with
    | .ok (bs, t) => .ok (some bs, t)
    | .error _ => .ok (none, t)

/-- The parts of a kept read that are taken again as its response comes, with the elements of the result that each gives. -/
def lateParts (l : LateRead) : List (Nat × Nat × List Nat) → M (List (List Nat × Nat))
  | [] => pure []
  | x :: r => do
    let y ← readAgain l x
    let z ← lateParts l r
    return (match y with
      | some bs => (x.2.2, leNat bs) :: z
      | none => z)

/-- The kept read with a number, and it is kept no longer. -/
def takeLate (n : Option Nat) : M (List (List Nat × Nat)) := do
  match (← getS).lates.find? fun l => some l.id == n with
  | none => return []
  | some l =>
    modS fun s => { s with lates := s.lates.filter fun y => y.id != l.id }
    lateParts l l.parts

/-- Whether the block's own slice holds a physical address (R104). -/
def State.ownSlice (s : State) (p : Nat) : Bool := physKind p == .scratch s.blk.die.val s.blk.core

/-- Inside a round, an acquire or release wider than block raises trap 0x28 (R139). -/
def roundScope (o : Ord) : M Unit := do
  let x := (← getBlk).scout
  trapIf (x.open_ && (o.acq || o.rel) && o.scope != .blk) 0x28

/-- Inside a round, the instructions that R139 lists raise trap 0x28. -/
def barRound : M Unit := do
  let x := (← getBlk).scout
  trapIf x.open_ 0x28

end Sys2Proof.Machine
end

