-- ==== Sys2Proof/Machine/Fetch.lean ====
section
/-! DEFINITION. Fetching a line and finding the next instruction (R31, R81 to R85, R93, R97, R98, R314), the target check
of taken branches (R94, R245), and what an agent of the block does in its turn. -/

namespace Sys2Proof.Machine

/-- Answer a trap with changed records. -/
def retrap {α : Type} (f : TrapInfo → TrapInfo) (x : M α) : M α := fun s =>
  match x s with
  | .error (.trap t) => .error (.trap (f t))
  | r => r

/-- The engine's line tag (R82). -/
def tagOf (e : Eng) : Nat := (engIdx e).val

/-- The line that sixty-four bytes hold (R81). -/
def lineOfBytes (a : Dword) (bs : List Byte) : LineBuf :=
  { addr := a, words := Vector.ofFn fun k => BitVec.ofNat 32 (leNat ((bs.drop (4 * k.val)).take 4)) }

/-- Whether words that carry this link word name an engine the strand can execute: the checks of R83 on the link word
in their order, answering the trap's cause. -/
def linkFault (e : Eng) (link : Word) : Option Nat :=
  if linkTag link ≠ tagOf e then some 0x03
  else if linkCount link = 0 || bitAt link 22 then some 0x02
  else none

/-- Fetch the line at `a` and check its link word; every trap is precise at its word 0 (R83). -/
def fetchLine (e : Eng) (a : Dword) : M LineBuf :=
  retrap (fun t => { t with pc := some a }) do
    let l := lineOfBytes a (← readVirt false a.toNat 64)
    match linkFault e (l.words[0]) with
    | some c => trap c
    | none => return l

/-- The line of an address: the held one, or fetched (R314). -/
def lineAt (e : Eng) (a : Dword) : M LineBuf := do
  match (← getStr e).line with
  | some l => if l.addr = lineOf a then return l else fetchLine e (lineOf a)
  | none => fetchLine e (lineOf a)

/-! ## Decoding steps in a line (R84, R94) -/

/-- The length selector of a word. -/
def selector (w : Word) : Nat := w.toNat % 4

/-- Words of the decoding step that a word begins. -/
def stepLen (w : Word) : Nat := if selector w = 3 then 2 else 1

/-- Word `k` of a line; 0 above its end. -/
def LineBuf.word (l : LineBuf) (k : Nat) : Word := l.words[k]?.getD 0

/-- What stands at word `k` when decoding from word `i`, the previous step being a prefix or not: `none` when no step
begins there, else whether a prefix directly precedes it. `f` bounds the walk. -/
def stepAt (l : LineBuf) (k : Nat) : Nat → Nat → Bool → Option Bool
  | 0, _, _ => none
  | f + 1, i, pre =>
    if i = k then some pre
    else if k < i then none
    else stepAt l k f (i + stepLen (l.word i)) (selector (l.word i) == 2)

/-- The target check of a taken branch, jump or back-edge (R94, R245): trap 0x01 or 0x05 carries the target as the
failing address. -/
def checkTarget (e : Eng) (t : Dword) : M Unit := do
  let l ← lineAt e t
  let k := wordOf t
  let bad := fun c : Nat => (trapAt c t.toNat : M Unit)
  if k = 0 || linkCount (l.words[0]) < k then bad 0x01
  else
    match stepAt l k 16 1 false with
    | none => bad 0x01
    | some true => bad 0x05
    | some false => pure ()

/-! ## The instruction at pc -/

/-- A word whose register and predicate fields are cleared: the instruction that its major, and its operation codes in
B, stand for, by which R93 is judged before the fields are (R97). -/
def bareWord (w : Word) : Word := BitVec.ofNat 32 (w.toNat / 2 ^ 24 % 2 ^ 6 * 2 ^ 24 + w.toNat % 2 ^ 8)

/-- Fields of the two words, one of which is legal for every major: a count or a bank of 1, a borrower, a queue that is named, a
bank or a count in EXT (R122, R162, R178, R198, R209 to R226). -/
def fillers : List (Nat × Nat) :=
  [(0, 0), (2 ^ 24, 0), (2 ^ 12, 0), (2 ^ 12 + 3 * 2 ^ 18, 0), (2 ^ 30 + 16 * 2 ^ 12, 0), (3 * 2 ^ 30 + 16 * 2 ^ 24, 0),
    (0, 2 ^ 29), (16 * 2 ^ 12, 2 ^ 27), (0, 2 ^ 18 + 2 ^ 5)]

/-- The instruction that a step with a reserved field stands for. -/
noncomputable def standsFor (e : Eng) (w x : Word) : Option Instr :=
  firstOk (decodeStep e (bareWord w) x ::
    fillers.map fun f => decodeStep e (BitVec.ofNat 32 (w.toNat % 2 ^ 8 + f.1)) (BitVec.ofNat 32 f.2))

/-- Whether a word is an engine command's first word (R90). -/
def isCmdWord (e : Eng) (w : Word) : Bool :=
  let op := w.toNat / 4 % 64
  match e, selector w with
  | .c, _ => false
  | .v, _ => false
  | .a, 3 => 3 ≤ op && op ≤ 5
  | _, 3 => true
  | _, _ => 32 ≤ op

/-- Whether a word is an `nset` in format S, which has no PS (R86, R100). -/
def isShortNset (e : Eng) (w : Word) : Bool :=
  e == .a && selector w == 0 && 16 ≤ w.toNat / 4 % 64 && w.toNat / 4 % 64 < 22

/-- Whether a step's fields name a port: PS, or PXD, PXA and PXB of a wide vector form; a command has ATTR there, and an `nset` its
step (R86, R87, R101). -/
def namesPort (e : Eng) (w x : Word) : Bool :=
  if isCmdWord e w || isShortNset e w then false
  else if e = .v && selector w = 3 && w.toNat / 4 % 64 < 62 then x.toNat / 2 ^ 25 % 8 != 0
  else w.toNat / 2 ^ 30 != 0

/-- Whether the step after a prefix accepts it (R93), judged also where a field of the step is reserved; a major that no
instruction has raises its own trap. -/
noncomputable def acceptsStep (p : Instr) (e : Eng) (w x : Word) : Bool :=
  match decodeStep e w x with
  | .ok i => Instr.accepts p i
  | .illegal => true
  | .reserved =>
    match standsFor e w x with
    | some i =>
      (match p with
      | .pfxo _ _ => !i.barsOrd && (i.takesOrdAlways || namesPort e w x)
      | _ => Instr.accepts p i)
    | none => false

/-- What a strand finds at a word of its line. -/
inductive Found
  | run (p : Option Instr) (i : Instr)
  | fault (cause : Nat)
deriving DecidableEq, Repr

/-- One decoding step, its encoding traps in the order of R97 items 4 and 5. -/
noncomputable def findStep (e : Eng) (p : Option Instr) (w x : Word) : Found :=
  match decodeStep e w x with
  | .ok i => if i.wf then .run p i else .fault 0x02
  | .illegal => .fault 0x01
  | .reserved => .fault 0x02

/-- The instruction at word `k` of a line, or the encoding trap it raises (R85, R93, R97). -/
noncomputable def findAt (e : Eng) (l : LineBuf) (k : Nat) : Found :=
  let n := linkCount (l.words[0])
  let w := l.word k
  if k = 0 || n < k then .fault 0x01
  else if selector w = 2 then
    let w1 := l.word (k + 1)
    let x1 := l.word (k + 2)
    if k + 1 = n && selector w1 = 3 then .fault 0x04
    else
      match decPrefix e w with
      | .ok p =>
        if !p.wf then .fault 0x02
        else if n < k + 1 || selector w1 = 2 || !acceptsStep p e w1 x1 then .fault 0x06
        else findStep e (some p) w1 x1
      | _ => .fault 0x02
  else if selector w = 3 && k = n then .fault 0x04
  else findStep e none w (l.word (k + 1))

/-! ## Entering a line -/

/-- Whether a strand that enters a Ferry-point line stops there: for a Ferry that gathers, or for a checkpoint request
while it has no armed loop (R292, R296). -/
def Block.stopsAtFp (b : Block) (st : Strand) : Bool :=
  (match b.ferry with
  | .gather _ => true
  | .none => false) ||
  (b.forcing && st.arms.isEmpty)

/-- A strand with a line just fetched: FP remembered, and stopped there if a gather or a checkpoint asks for it. -/
def Block.enter (b : Block) (e : Eng) (l : LineBuf) : Block :=
  b.modStr e fun st =>
    let fp := linkFp (l.words[0])
    let st := { st with line := some l, entering := false, wait := .run, fpLine := if fp then l.addr else st.fpLine }
    if fp && st.again && st.arms.isEmpty then st.backToRline
    else if fp && b.stopsAtFp st then { st with wait := .gathered } else st

/-! ## A strand's turn -/

/-- What a strand is to do in its turn. -/
inductive Turned
  /-- nothing: it does not run, waits for an event, or R31 refuses its fetch -/
  | idle
  /-- the pending back-edge decision of R115 -/
  | edge
  /-- a line of an engine that the core lacks (R295) -/
  | ferry
  /-- it does not go through -/
  | stop (x : Stop)
  /-- it runs an instruction, with its prefix -/
  | run (p : Option Instr) (i : Instr)
deriving DecidableEq, Repr

/-- Whether a strand of the block in focus may act at all. -/
def State.live (s : State) (e : Eng) : Bool :=
  let st := s.str e
  s.blk.placed && s.blk.started && !s.blk.stood && st.chain && !st.finished && st.stop.isNone && s.cx.st == 0 &&
    !s.blk.scout.discarded &&
    (match st.wait with
    | .tk _ => false
    | .gbar _ _ => false
    | .phase _ => false
    | .leave _ => false
    | .atomic _ => false
    | .ferry => false
    | .gathered => false
    | _ => true)

/-- The strand's line is to be fetched. -/
def Strand.mustFetch (st : Strand) : Bool := st.entering || st.line.isNone

/-- The turn of a strand up to its instruction: the slip rule, Ferry, the fetch with its checks, and decoding. -/
noncomputable def State.turn (s : State) (e : Eng) : Turned × State :=
  let st := s.str e
  if !s.live e then (.idle, s)
  else if st.edge.isSome then (.edge, s)
  else if st.mustFetch then
    if !s.blk.mayFetch e st.pc then (.idle, s.modStr e fun x => { x with wait := .run })
    else if !hasEng s.blk.die e then (.ferry, s)
    else
      match fetchLine e (lineOf st.pc) s with
      | .error x => (.stop x, s)
      | .ok (l, t) =>
        let t := { t with blk := t.blk.enter e l }
        if (t.str e).wait = .gathered || (t.str e).entering then (.idle, t)
        else
          match findAt e l (wordOf st.pc) with
          | .run p i => (.run p i, t)
          | .fault c => (.stop (.trap { cause := c, faddr := 0, aux := 0, sub := 0, pc := none }), t)
  else
    match st.line with
    | none => (.idle, s)
    | some l =>
      match findAt e l (wordOf st.pc) with
      | .run p i => (.run p i, s)
      | .fault c => (.stop (.trap { cause := c, faddr := 0, aux := 0, sub := 0, pc := none }), s)

end Sys2Proof.Machine
end

