-- ==== Sys2Proof/Machine/Stream.lean ====
section
/-! DEFINITION. Stream registers and their buffers (R50, R146 to R149): the fields of SBIND and SFMT, reading the next
element vector, appending one, and the waits of R148 between the a strand and the v and d strands. -/

namespace Sys2Proof.Machine

/-! ## Fields (R146) -/

def Stream.cap (x : Stream) : Nat := x.sbind.toNat / 2 ^ 48
def Stream.base (x : Stream) : Nat := x.sbind.toNat / 2 ^ 6 % 2 ^ 16
def Stream.soff (x : Stream) : Int := signedOf 32 (x.sfmt.toNat / 2 ^ 32)
def Stream.out (x : Stream) : Bool := x.sfmt.toNat / 2 ^ 31 % 2 == 1
def Stream.format (x : Stream) : Nat := x.sfmt.toNat / 2 ^ 27 % 16
def Stream.ct (x : Stream) : Fin 8 := Fin.ofNat 8 (x.sfmt.toNat / 2 ^ 24)
def Stream.vbytes (x : Stream) : Nat := 32 * (x.sfmt.toNat / 2 ^ 20 % 16 + 1)
def Stream.sstr (x : Stream) : Nat := x.sfmt.toNat / 2 ^ 12 % 256

/-- SPOS as its two halves show it. -/
def Stream.spos (x : Stream) : Dword := BitVec.ofNat 64 (x.rd.toNat * 2 ^ 32 + x.wr.toNat)

/-- Vectors that may be read, modulo 2^32 (R147). -/
def Stream.filled (x : Stream) : Nat := (x.wr - x.rd).toNat

/-- Bits of an element in a stream of a FORMAT (R66, R67, R146). -/
def fmtBits (f : Nat) : Nat :=
  match f with
  | 0 => 8
  | 1 => 16
  | 2 => 32
  | 3 => 32
  | 4 => 16
  | 5 => 16
  | 6 => 8
  | 7 => 8
  | 8 => 4
  | 9 => 4
  | 10 => 8
  | 11 => 4
  | _ => 4

/-- Bytes of scale or header per block of 32 elements (R147). -/
def scaleBytes (f : Nat) : Nat :=
  match f with
  | 9 => 1
  | 10 => 1
  | 11 => 2
  | 12 => 1
  | _ => 0

/-- Whether a format carries scales. -/
def fmtScaled (f : Nat) : Bool := scaleBytes f != 0

/-- Element bytes of one block of a scaled format (R147). -/
def blockBytes (f : Nat) : Nat := 4 * fmtBits f

/-- Blocks in one element vector of a scaled stream. -/
def Stream.blocks (x : Stream) : Nat := x.vbytes / blockBytes x.format

/-- Physical base of the slice of the block in focus. -/
def Block.slice (b : Block) : Nat := scratchBase b.die.val b.core

/-- Physical address of the entry of a vector position (R147). -/
def Block.entryAt (b : Block) (g : Fin 16) (pos : Word) : Nat :=
  let x := b.streams[g]
  b.slice + 64 * x.base + pos.toNat % x.cap * 320

def Block.modStream (b : Block) (g : Fin 16) (f : Stream → Stream) : Block :=
  { b with streams := b.streams.set g (f (b.streams[g])) }

/-- Read physical bytes piece by piece. -/
def readPhysPieces (d va : Nat) : List (Nat × Nat) → M (List Byte)
  | [] => pure []
  | (a, n) :: r => do
    let x ← readUnit d va a n
    let y ← readPhysPieces d va r
    return x ++ y

/-- Read `n` physical bytes from the block's die, as the hardware reads them; `va` is the address a trap reports. -/
def readPhys (va p n : Nat) : M (List Byte) := do acting none (readPhysPieces (← getBlk).die.val va (piecesOf p n))

def writePhysPieces (d va : Nat) : List (Nat × Nat) → List Byte → M Unit
  | [], _ => pure ()
  | (a, n) :: r, bs => do
    writeUnit d va a (bs.take n)
    writePhysPieces d va r (bs.drop n)

/-- Write physical bytes from the block's die, as the hardware writes them: every reader sees them (log 7). -/
def writePhys (va p : Nat) (bs : List Byte) : M Unit := do
  acting none (writePhysPieces (← getBlk).die.val va (piecesOf p bs.length) bs)

/-- The virtual address of a byte of the block's slice, which a trap reports. -/
def State.sliceVa (s : State) (off : Nat) : Nat :=
  scratchWin + virtDie s.partWord s.blk.die.val * 2 ^ 28 + virtCore s.partWord s.blk.die.val s.blk.core * 2 ^ 22 + off

/-- The 320 bytes of a stream entry. -/
def readEntry (g : Fin 16) (pos : Word) : M (List Byte) := do
  let s ← getS
  let p := s.blk.entryAt g pos
  readPhys (s.sliceVa (p - s.blk.slice)) p 320

/-! ## The order of R148 -/

/-- Whether an operand field of a v word names stream `g`. -/
def vNames (g : Nat) (w x : Word) : Bool :=
  let dd := w.toNat / 2 ^ 12 % 64
  let aa := w.toNat / 2 ^ 18 % 64
  let bb := w.toNat / 2 ^ 24 % 64
  if selector w = 3 then
    let op := w.toNat / 4 % 64
    op != 0x3E && op != 0x3F &&
      ((bitAt x 27 && dd == g) || (bitAt x 26 && aa == g) || (bitAt x 25 && bb == g))
  else
    match w.toNat / 2 ^ 30 with
    | 1 => dd == g
    | 2 => aa == g
    | 3 => bb == g
    | _ => false

/-- Whether a d word is a command that reads stream `g`. -/
def dNames (g : Nat) (w _x : Word) : Bool := selector w == 3 && w.toNat / 4 % 64 < 3 && w.toNat / 2 ^ 22 % 32 == g

/-- Whether an a word is `sbind` or `sset` of stream `g`. -/
def aSets (g : Nat) (w _x : Word) : Bool :=
  let op := w.toNat / 4 % 64
  w.toNat / 2 ^ 12 % 64 == g && ((selector w == 0 && (op == 8 || op == 9)) || (selector w == 3 && op == 7))

/-- Whether a decoding step of a line from word `k`, at an address below `stop`, satisfies `f`. -/
def lineHas (f : Word → Word → Bool) (l : LineBuf) (stop : Nat) : Nat → Nat → Bool
  | 0, _ => false
  | n + 1, k =>
    if linkCount (l.words[0]) < k || stop ≤ l.addr.toNat + 4 * k then false
    else f (l.word k) (l.word (k + 1)) || lineHas f l stop n (k + stepLen (l.word k))

/-- The line at an address as the strand's chain has it, without any effect of reading it. -/
def State.peekLine (s : State) (st : Strand) (a : Dword) : Option LineBuf :=
  match st.line with
  | some l => if l.addr = lineOf a then some l else
      (match readVirt false (lineOf a).toNat 64 s with
      | .ok (bs, _) => some (lineOfBytes (lineOf a) bs)
      | .error _ => none)
  | none =>
      (match readVirt false (lineOf a).toNat 64 s with
      | .ok (bs, _) => some (lineOfBytes (lineOf a) bs)
      | .error _ => none)

/-- Whether a strand's text from its next instruction, in shared order, up to an address holds a step that satisfies
`f` (R22, R148; log 18). -/
def State.textHas (s : State) (st : Strand) (f : Word → Word → Bool) (stop : Nat) : Nat → Dword → Bool
  | 0, _ => false
  | n + 1, a =>
    if stop ≤ a.toNat then false
    else
      match s.peekLine st a with
      | none => false
      | some l =>
        lineHas f l stop 16 (wordOf a) ||
          (if linkNext (l.words[0]) ≤ 0 then false
           else s.textHas st f stop n (l.addr + BitVec.ofInt 64 (64 * linkNext (l.words[0])) + 4))

/-- Whether a word of strand `e` is a `jt` of `b`: P0 0x32 on v (R199), P0 0x07 on a (R142). The d strand has none. -/
def jumpsTo (e : Eng) (b : Fin 4) (w _x : Word) : Bool :=
  selector w == 0 && w.toNat / 2 ^ 18 % 64 == b.val &&
    match e with
    | .v => w.toNat / 4 % 64 == 0x32
    | .a => w.toNat / 4 % 64 == 0x07
    | _ => false

/-- Where strand `e` goes on, or may go back to: its next instruction, the target of a branch it has taken, the bodies of armed loops
with rounds to come, and the targets of the `jt`s that it has before it (R148; log 18). -/
def State.resumes (s : State) (e : Eng) (st : Strand) : List Dword :=
  st.pc :: st.branch.toList ++ (st.arms.filter fun x => st.lc[x.lc] != 1).map (fun x => x.body) ++
    ((List.finRange 4).filter fun b => s.textHas st (jumpsTo e b) (2 ^ 64) 256 st.pc).map fun b => st.b[b]

/-- Whether strand `e` still has, before an address in shared order, a step that satisfies `f`, the rounds of its loops
included. -/
def State.toCome (s : State) (e : Eng) (f : Word → Word → Bool) (stop : Nat) : Bool :=
  let st := s.str e
  st.unfinished && (s.resumes e st).any fun a => s.textHas st f stop 256 a

/-- A v or d access of a stream waits for every earlier `sbind` or `sset` of it in shared order (R148). R30 lists only the waits of
`sbind` and `sset` themselves, so the strand that waits here is stalled, and not blocked (log 18). -/
def afterSets (g : Fin 16) (at_ : Dword) : M Unit := do
  if (← getS).toCome .a (aSets g.val) at_.toNat then stopWith .stalled else pure ()

/-! ## Reading and appending (R147, R178) -/

/-- Whether a command instruction is an `sdrain` of stream `g`, or a copy out of or into it. -/
def Cmd.stream (c : Cmd) : Option (Fin 16) :=
  let f := fun o : Fin 32 => some (Fin.ofNat 16 o.val)
  match c.op with
  | .sdrain x => f x.o1
  | .copyMs x => f x.o1
  | .copySm x => f x.o2
  | .copyMsLen x => f x.o1
  | .copySmLen x => f x.o2
  | .copyWide x e => if e.kind = 1 then f x.o1 else if e.kind = 2 then f x.o2 else none
  | .ldt x => f x.o1
  | .dmv x => some x.g
  | .dqk x => some x.g
  | .dpv x => some x.g
  | _ => none

/-- Take the next landed vector of an in stream, once no reading command holds it (R149): its 320 bytes. -/
def takeStream (g : Fin 16) (keep : Bool) : M (List Byte) := do
  let b ← getBlk
  let x := b.streams[g]
  waitUntil (x.filled != 0 && x.rrsv == x.rd)
  let bs ← readEntry g x.rd
  if !keep then modBlk fun b => b.modStream g fun x => { x with rd := x.rd + 1, rrsv := x.rrsv + 1 }
  return bs

/-- Read the next element vector of a stream as a strand's instruction: trap 0x34 for an out stream (R178). -/
def readStream (e : Eng) (g : Fin 16) (keep : Bool) : M (List Byte) := do
  afterSets g (← getStr e).pc
  trapIf ((← getBlk).streams[g]).out 0x34
  takeStream g keep

/-- Take the next vector without reading it, under a false predicate (R39). -/
def skipStream (e : Eng) (g : Fin 16) (keep : Bool) : M Unit := do
  afterSets g (← getStr e).pc
  let x := (← getBlk).streams[g]
  waitUntil (x.filled != 0 && x.rrsv == x.rd)
  if !keep then modBlk fun b => b.modStream g fun x => { x with rd := x.rd + 1, rrsv := x.rrsv + 1 }

/-- A stream that a strand's instruction is to append to: trap 0x34 for an in stream (R178). -/
def checkAppend (e : Eng) (g : Fin 16) : M Unit := do
  afterSets g (← getStr e).pc
  trapIf (!((← getBlk).streams[g]).out) 0x34

/-- Append element bytes and scales to an out stream (R147, R178), as no party: R59 would let other cores see the vector piecewise
(log 7). -/
def appendStream (e : Eng) (g : Fin 16) (bs scales : List Byte) : M Unit := do
  checkAppend e g
  portTurn e (.port (.g g))
  let s ← getS
  let x := s.blk.streams[g]
  waitUntil (x.filled < x.cap)
  let p := s.blk.entryAt g x.wr
  let va := s.sliceVa (p - s.blk.slice)
  writePhys va p (bs.take x.vbytes)
  writePhys va (p + 256) scales
  modBlk fun b => b.modStream g fun x => { x with wr := x.wr + 1 }

end Sys2Proof.Machine
end

