-- ==== Sys2Proof/Machine/Operands.lean ====
section
/-! DEFINITION. Operand forms (R87, R105, R142, R176 to R178): registers and ports as sources and destinations of the c,
a and v strands, their discarding under a false predicate (R39), lent banks (R40), and vectors as lists of elements. -/

namespace Sys2Proof.Machine

/-! ## Scalar operands of the c and a strands -/

/-- A register of the c or the a strand. -/
def Block.scalar (b : Block) (e : Eng) (n : Fin 64) : Dword := if e = .a then b.areg n else b.sreg n

def Block.setScalar (b : Block) (e : Eng) (n : Fin 64) (x : Dword) : Block :=
  if e = .a then b.setAreg n x else b.setSreg n x

/-- Read a register or pop a queue (R105). -/
def readS (e : Eng) : Opd → M Dword
  | .reg n => do
    scoreboard e (.reg n)
    return (← getBlk).scalar e n
  | .port (.q n) => popQ n
  | .port _ => trap 0x02

/-- Write a register or push a queue. -/
def writeS (e : Eng) (o : Opd) (x : Dword) : M Unit :=
  match o with
  | .reg n => do
    scoreboard e (.reg n)
    modBlk fun b => b.setScalar e n x
  | .port (.q n) => pushQ e n x
  | .port _ => trap 0x02

/-! ## Under a false predicate (R39) -/

/-- A source operand of an instruction that does not act: a queue is popped, a stream read. -/
def dropSrc (e : Eng) : Opd → M Unit
  | .reg _ => pure ()
  | .port (.q n) => do
    let _ ← popQ n
  | .port (.vq n) => do
    let _ ← popVq n
  | .port (.g n) => skipStream e n false

/-- A destination operand of an instruction that does not act: a queue gets an all-zero entry. -/
def dropDst (e : Eng) : Opd → M Unit
  | .reg _ => pure ()
  | .port (.q n) => pushQ e n 0
  | .port (.vq n) => pushVq e n vzero
  | .port (.g _) => pure ()

/-- What sources in their order and destinations do under a false predicate. -/
def dropAll (e : Eng) (src dst : List Opd) : M Flow := do
  src.forM (dropSrc e)
  dst.forM (dropDst e)
  return .go

/-- The entry that a queue has popped last but `k`, and the one that was pushed last, as the places that they are for `pfxo`
(R57). -/
def Block.popped (b : Block) (k : Nat) : Opd → List SyncObj
  | .port (.q n) => [.q b.uid n (b.pops[qIdx n] - 1 - k)]
  | .port (.vq n) => [.vq b.uid n (b.pops[vqIdx n] - 1 - k)]
  | _ => []

def Block.pushed (b : Block) (o : Opd) : List SyncObj :=
  match o with
  | .port (.q n) => [.q b.uid n (b.pops[qIdx n] + (b.q[n]).length + b.inflightTo o - 1)]
  | .port (.vq n) => [.vq b.uid n (b.pops[vqIdx n] + (b.vq[n]).length + b.inflightTo o - 1)]
  | _ => []

/-- The entries that an instruction's sources have popped: of one queue named twice, its last two. -/
def Block.poppedAll (b : Block) (src : List Opd) : List SyncObj :=
  src.zipIdx.flatMap fun x => b.popped ((src.drop (x.2 + 1)).count x.1) x.1

/-- The pops of an instruction with a `pfxo` acquire at block scope, whatever scope is written (R57). Streams order nothing (R50). -/
def portAcquire (e : Eng) (src : List Opd) : M Unit := do
  if (← latch e).order.acq then modS fun s => (s.blk.poppedAll src).foldl (fun s x => s.acquire e x .blk) s

/-- The pushes of an instruction with a `pfxo` release at block scope (R57). -/
def portRelease (e : Eng) (dst : List Opd) : M Unit := do
  if (← latch e).order.rel then
    modS fun s => (dst.flatMap s.blk.pushed).foldl (fun s x => s.release (.strand s.blk.uid e) x .blk) s

/-- The ordering that a `pfxo` gives the ports among the sources and destinations of an instruction that makes no access between its
pops and its pushes. -/
def portOrder (e : Eng) (src dst : List Opd) : M Unit := do
  portAcquire e src
  portRelease e dst

/-! ## Instruction shapes of the c and a strands -/

/-- Format R: a value from A and B into D. -/
def execR (e : Eng) (x : RArgs) (f : Dword → Dword → M Dword) (s : State) : Host.Outcome State Fault Refusal :=
  issue e 1 x.pred false (dropAll e [x.a, x.b] [x.d]) (thenGo do
    let a ← readS e x.a
    let b ← readS e x.b
    writeS e x.d (← f a b)
    portOrder e [x.a, x.b] [x.d]) s

/-- Format R with D read as well as written. -/
def execRD (e : Eng) (x : RArgs) (f : Dword → Dword → Dword → M Dword) (s : State) :
    Host.Outcome State Fault Refusal :=
  issue e 1 x.pred false (dropAll e [x.a, x.b] [x.d]) (thenGo do
    let a ← readS e x.a
    let b ← readS e x.b
    let d ← readS e x.d
    writeS e x.d (← f a b d)
    portOrder e [x.a, x.b, x.d] [x.d]) s

/-- A value from A into D. -/
def execU (e : Eng) (x : UArgs) (f : Dword → M Dword) (s : State) : Host.Outcome State Fault Refusal :=
  issue e 1 x.pred false (dropAll e [x.a] [x.d]) (thenGo do
    let a ← readS e x.a
    writeS e x.d (← f a)
    portOrder e [x.a] [x.d]) s

/-- Format K: a value from A and the immediate, read as `imm` gives it, into D. -/
def execK (e : Eng) (x : KArgs) (imm : BitVec 6 → Dword) (f : Dword → Dword → M Dword) (s : State) :
    Host.Outcome State Fault Refusal :=
  issue e 1 x.pred false (dropAll e [x.a] [x.d]) (thenGo do
    let a ← readS e x.a
    writeS e x.d (← f a (imm x.imm))
    portOrder e [x.a] [x.d]) s

/-- IMM6 sign-extended, and read unsigned (R106). -/
def imm6s (i : BitVec 6) : Dword := i.signExtend 64
def imm6u (i : BitVec 6) : Dword := i.setWidth 64

/-- A comparison that writes a predicate of the strand. -/
def execCmp (e : Eng) (x : CmpArgs) (f : Dword → Dword → Bool) (s : State) : Host.Outcome State Fault Refusal :=
  issue e 1 x.pred false (dropAll e [x.a, x.b] []) (thenGo do
    let a ← readS e x.a
    let b ← readS e x.b
    modStr e fun st => st.setPred x.pd (f a b)
    portOrder e [x.a, x.b] []) s

/-- A comparison with an immediate. -/
def execCmpK (e : Eng) (x : CmpKArgs) (f : Dword → Dword → Bool) (s : State) : Host.Outcome State Fault Refusal :=
  issue e 1 x.pred false (dropAll e [x.a] []) (thenGo do
    let a ← readS e x.a
    modStr e fun st => st.setPred x.pd (f a (imm6s x.imm))
    portOrder e [x.a] []) s

/-- `li`: IMM32 sign-extended (R19). -/
def execLi (e : Eng) (x : LiArgs) (s : State) : Host.Outcome State Fault Refusal :=
  issue e 2 x.pred false (dropAll e [] [x.d]) (thenGo do
    writeS e x.d (x.imm.signExtend 64)
    portOrder e [] [x.d]) s

/-! ## Lent banks (R40) -/

/-- The bank of a vector register. -/
def bankOf (n : Fin 64) : Fin 8 := Fin.ofNat 8 (n.val / 8)

/-- Whether a strand waits at its `bret` of a bank. -/
def Block.returning (b : Block) (k : Fin 8) : Bool :=
  (b.str .m).wait == .bret k || (b.str .d).wait == .bret k

/-- A register of a bank that the v strand does not hold: the instruction stalls for a return that has issued, and
raises trap 0x0A otherwise. -/
def bankHeld (n : Fin 64) : M Unit := do
  let b ← getBlk
  if b.holders[bankOf n] = .v then pure ()
  else if b.returning (bankOf n) then stopWith .stalled
  else trap 0x0A

/-- The registers among operands are checked together, before any port moves. -/
def banksHeld (l : List Opd) : M Unit :=
  l.forM fun o => match o with
    | .reg n => bankHeld n
    | .port _ => pure ()

/-! ## Elements (R64, R176) -/

/-- Element `e` of width `w` in a vector image. -/
def elem (w : Nat) (v : VReg) (e : Nat) : Nat := (v[e * w / 32]?.getD 0).toNat / 2 ^ (e * w % 32) % 2 ^ w

/-- The elements of a vector image, element 0 first. -/
def elems (w : Nat) (v : VReg) : List Nat :=
  v.toList.flatMap fun x => (List.range (32 / w)).map fun j => x.toNat / 2 ^ (j * w) % 2 ^ w

/-- The lanes that hold a list of elements. -/
def packLanes (w : Nat) : Nat → List Nat → List Word
  | 0, _ => []
  | n + 1, l =>
    let k := 32 / w
    BitVec.ofNat 32 ((l.take k).foldr (fun x acc => x % 2 ^ w + 2 ^ w * acc) 0) :: packLanes w n (l.drop k)

/-- The vector image of a list of lanes, zero above its end. -/
def ofLanes (l : List Word) : VReg := Vector.ofFn fun i => l[i.val]?.getD 0

/-- The vector image of a list of elements. -/
def ofElems (w : Nat) (l : List Nat) : VReg := ofLanes (packLanes w 64 l)

/-- Elements in a vector. -/
def elemCount (w : Nat) : Nat := 2048 / w

/-- The bytes of a vector image, lane 0 first, little-endian. -/
def vecBytes (v : VReg) : List Byte := v.toList.flatMap fun x => leBytes 4 x.toNat

def lanesOfBytes : Nat → List Byte → List Word
  | 0, _ => []
  | n + 1, bs => BitVec.ofNat 32 (leNat (bs.take 4)) :: lanesOfBytes n (bs.drop 4)

/-- The vector image of bytes, zero above their end. -/
def vecOfBytes (bs : List Byte) : VReg := ofLanes (lanesOfBytes 64 bs)

/-- The image of a scalar queue entry as a source: its low `w` bits in every element (R178). -/
def spread (w : Nat) (x : Dword) : VReg := ofElems w (List.replicate (elemCount w) (x.toNat % 2 ^ w))

/-! ## Vector operands (R178) -/

/-- Read a vector source. -/
def readV (w : Nat) : Opd → M VReg
  | .reg n => do
    bankHeld n
    scoreboard .v (.reg n)
    return (← getBlk).v[n]
  | .port (.vq n) => popVq n
  | .port (.q n) => do return spread w (← popQ n)
  | .port (.g n) => do
    let x := (← getBlk).streams[n]
    return vecOfBytes ((← readStream .v n false).take x.vbytes)

/-- Old and new elements merged: where a bit of the mask is clear, the old one stays. -/
def mergeElems (act : Mask) (old new : List Nat) : List Nat :=
  (old.zip new).zipIdx.map fun x => if act.getLsbD x.2 then x.1.2 else x.1.1

/-- Deliver a vector result: inactive elements keep their values in a register and are zero in a port (R177). -/
def writeV (w : Nat) (act : Mask) (o : Opd) (new : List Nat) : M Unit :=
  match o with
  | .reg n => do
    bankHeld n
    scoreboard .v (.reg n)
    modBlk fun b => { b with v := b.v.set n (ofElems w (mergeElems act (elems w b.v[n]) new)) }
  | .port p =>
    let img := ofElems w (mergeElems act (List.replicate (elemCount w) 0) new)
    match p with
    | .vq n => pushVq .v n img
    | .q _ => trap 0x02
    | .g n => appendStream .v n (vecBytes img) []

/-- Deliver a whole vector image. -/
def writeVec (o : Opd) (img : VReg) : M Unit :=
  match o with
  | .reg n => do
    bankHeld n
    scoreboard .v (.reg n)
    modBlk fun b => { b with v := b.v.set n img }
  | .port (.vq n) => pushVq .v n img
  | .port (.q _) => trap 0x02
  | .port (.g n) => appendStream .v n (vecBytes img) []

/-- Write a mask: bits of active elements are written, those of inactive ones stay, and bits from `k` up are cleared
(R177). -/
def writeMask (k : Nat) (act : Mask) (m : Fin 8) (bits : List Bool) : M Unit :=
  modBlk fun b =>
    let old := b.mask m
    let new := bits.zipIdx.foldl (fun acc x =>
      if x.2 < k then
        if (if act.getLsbD x.2 then x.1 else old.getLsbD x.2) then acc + 2 ^ x.2 else acc
      else acc) 0
    b.setMask m (BitVec.ofNat 256 new)

end Sys2Proof.Machine
end

