-- ==== Sys2Proof/Machine/CFlow.lean ====
section
/-! DEFINITION. Control flow of every strand and the c strand's tokens, guard slots, group barriers, CSRs and ending
(R92, R113 to R121, R124, R127 to R129), with the events of the loop unit and of waits. -/

namespace Sys2Proof.Machine

/-! ## Prefix words (R92, R93) -/

/-- `pfx`: its fields hold for the step that follows. -/
def execPfx (e : Eng) (rmv : Bool) (rm : Rm) (sat : Bool) (ftz : Bool) (s : State) : Host.Outcome State Fault Refusal :=
  .next (s.modStr e fun st => { st with pfx := .fp rmv rm sat ftz })

/-- `pfxo`: its ordering holds for the step that follows. -/
def execPfxo (e : Eng) (ord : Ord) (s : State) : Host.Outcome State Fault Refusal :=
  .next (s.modStr e fun st => { st with pfx := .ord ord })

/-! ## Branch targets (R89, R113) -/

/-- The address that a branch target word of an instruction at `pc` names (R89). -/
def targetAddr (pc : Dword) (t : Target) : Dword :=
  lineOf pc + BitVec.ofInt 64 (64 * t.loff.toInt) + BitVec.ofNat 64 (4 * t.word.val)

/-- The label form of `ptgt`. -/
def execPtgtL (e : Eng) (x : PtgtLArgs) (s : State) : Host.Outcome State Fault Refusal :=
  issue e 2 x.pred false skip (thenGo (modStr e fun st => { st with b := st.b.set x.b (targetAddr st.pc x.tgt) })) s

/-- `c.ptgt` label form (R113). -/
def execCPtgtLabel (x : PtgtLArgs) (s : State) : Host.Outcome State Fault Refusal := execPtgtL .c x s

/-- `c.ptgt` register form (R89, R113): bits [56:2] of the register, and trap 0x33 for a misaligned one. -/
def execCPtgt (x : PtgtRArgs) (s : State) : Host.Outcome State Fault Refusal :=
  issue .c 1 x.pred false (dropAll .c [x.a] []) (thenGo do
    let a ← readS .c x.a
    trapIf (a.toNat % 4 != 0) 0x33
    modStr .c fun st => { st with b := st.b.set x.b (BitVec.ofNat 64 (a.toNat % 2 ^ 57)) }
    portOrder .c [x.a] []) s

/-! ## Branches (R114) -/

/-- `jt`: a taken branch checks its target before anything else happens. -/
def execJt (e : Eng) (x : JtArgs) (s : State) : Host.Outcome State Fault Refusal :=
  issue e 1 x.pred true (pure (.slots none)) (do
    let t := (← getStr e).b[x.b]
    checkTarget e t
    return .slots (some t)) s

/-- `c.jt` (R114). -/
def execCJt (x : JtArgs) (s : State) : Host.Outcome State Fault Refusal := execJt .c x s

/-- Words of the instruction at word `k` of a line: a prefix and its instruction count as one (R93). -/
def LineBuf.span (l : LineBuf) (k : Nat) : Nat :=
  if selector (l.word k) = 2 then 1 + stepLen (l.word (k + 1)) else stepLen (l.word k)

/-- The instruction `n` instructions after the one at `a`, whose line is held or fetched; none at the end of the chain. -/
def nthAfter (e : Eng) : Nat → Dword → M (Option Dword)
  | 0, a => pure (some a)
  | n + 1, a => do
    let l ← lineAt e a
    match following a (l.words[0]) (l.span (wordOf a)) with
    | none => return none
    | some (p, _) => nthAfter e n p

/-- The address of the instruction after the second delay slot of the branch at `pc`; 0 where the chain ends first (R114). Where
a line on the way cannot be fetched, it is free: the delay slot there raises the line's trap (log 20). -/
def linkValue (e : Eng) : M Dword := do
  match ← attempt (nthAfter e 3 (← getStr e).pc) with
  | .ok a => return a.getD 0
  | .error _ =>
    let k ← drawFree
    return Config.freeWord (2 * k) ++ Config.freeWord (2 * k + 1)

/-- `c.jtl` (R114). -/
def execCJtl (x : JtlArgs) (s : State) : Host.Outcome State Fault Refusal :=
  issue .c 1 x.pred true (do
    dropDst .c x.d
    return .slots none) (do
    let t := (← getStr .c).b[x.b]
    checkTarget .c t
    writeS .c x.d (← linkValue .c)
    portOrder .c [] [x.d]
    return .slots (some t)) s

/-! ## Loops (R115, R292) -/

/-- Arm a loop counter: most recent first, and a counter armed again leaves its older loop. -/
def Strand.arm (st : Strand) (x : Arm) : Strand := { st with arms := x :: st.arms.filter fun y => y.lc != x.lc }

/-- A number above those of the strand's armed and forced loops. -/
def Strand.nextSeq (st : Strand) : Nat := (st.arms.map (·.seq) ++ st.forced.map (·.seq)).foldl max 0 + 1

/-- The count that a `loop` takes: REM where a restored checkpoint forced this counter (R293). -/
def Strand.loopCount (st : Strand) (lc : Fin 4) (n : Word) : Word :=
  if st.forcedFlag then n
  else
    match st.forced.find? fun f => f.lc == lc with
    | some f => f.rem
    | none => n

/-- `loop` with a count: with 0 the strand goes on after the body's last instruction. -/
def loopWith (e : Eng) (x : LoopArgs) (count : Word) : M Flow := do
  let st ← getStr e
  let n := st.loopCount x.lc count
  let stop := targetAddr st.pc x.stop
  let forced := if st.forcedFlag then st.forced else st.forced.filter fun f => f.lc != x.lc
  if n = 0 then
    let l ← lineAt e stop
    let k := wordOf stop
    modStr e fun st =>
      { st with lc := st.lc.set x.lc 0, forced := forced, arms := st.arms.filter fun y => y.lc != x.lc }
    return .past stop l (l.span k)
  else
    let body := match following st.pc st.link (st.span 2) with
      | some (p, _) => p
      | none => 0
    modStr e fun st =>
      { st with lc := st.lc.set x.lc n, forced := forced }.arm
        { lc := x.lc, stop := stop, body := body, rline := st.fpLine, seq := st.nextSeq }
    return .go

/-- `c.loop` (R115). -/
def execCLoop (x : LoopArgs) (s : State) : Host.Outcome State Fault Refusal :=
  issue .c 2 x.pred true (dropAll .c [x.a] []) (do
    let a ← readS .c x.a
    portOrder .c [x.a] []
    loopWith .c x (a.setWidth 32)) s

/-- `a.loop` (R142). -/
def execALoop (x : LoopArgs) (s : State) : Host.Outcome State Fault Refusal :=
  issue .a 2 x.pred true (dropAll .a [x.a] []) (do
    let a ← readS .a x.a
    portOrder .a [x.a] []
    loopWith .a x (a.setWidth 32)) s

/-- `v.loop` (R199): a vector register's count is its lane 0. -/
def execVLoop (x : LoopArgs) (s : State) : Host.Outcome State Fault Refusal :=
  issue .v 2 x.pred true (dropAll .v [x.a] []) (do
    let v ← readV 32 x.a
    portOrder .v [x.a] []
    loopWith .v x (v[0])) s

/-- A back-edge whose target fails its check traps, and stays to be decided: on resume it is decided and checked again (R245). -/
def State.raiseEdge (s : State) (e : Eng) (x : TrapInfo) : State :=
  let t := s.raise e x
  if (t.str e).stop.isSome then t.modStr e fun st => { s.str e with stop := st.stop, pfx := .none } else t

/-- LOOP_BACK_EDGE (R115, R94): the loop unit of a strand whose armed loop's last instruction completed decides. A target
that fails R94 traps at that instruction, with the target as failing address. -/
def execLoopBackEdge (u : Nat) (e : Eng) (s : State) : Host.Outcome State Fault Refusal :=
  match s.blockAt u with
  | none => .next s
  | some _ =>
    let t := s.focus u
    let st := t.str e
    match st.edge with
    | none => .next s
    | some (a, ended) =>
      if st.stop.isSome || t.cx.st.val > 1 || t.blk.scout.discarded then .next s
      else
        let (st1, tgt) := edgeDecision t.blk.forcing a st st.arms
        match tgt with
        | some b =>
          match checkTarget e b t with
          | .ok (_, t1) => .next (t1.modStr e fun _ => st1.transfer b)
          | .error (.trap x) => .next (t.raiseEdge e { x with pc := some (x.pc.getD a) })
          | .error x => t.stopped e x
        | none =>
          .next (t.modStr e fun _ => st1.pastEdge ended)

/-! ## Ending and doing nothing (R129) -/

/-- `c.trap`: the instruction has completed, its port popped, when trap 0x50 stops the strand. -/
def execCTrap (x : SrcArgs) (s : State) : Host.Outcome State Fault Refusal :=
  issue .c 1 x.pred true (dropAll .c [x.a] []) (do
    let a ← readS .c x.a
    let pc := (← getStr .c).pc
    portOrder .c [x.a] []
    return .user { cause := 0x50, faddr := 0, aux := BitVec.ofNat 64 (a.toNat % 2 ^ 32), sub := 0, pc := some pc }) s

/-- `c.halt`. -/
def execCHalt (x : NoArgs) (s : State) : Host.Outcome State Fault Refusal := issue .c 1 x.pred true skip (pure .halt) s

/-- `c.nop`. -/
def execCNop (x : NoArgs) (s : State) : Host.Outcome State Fault Refusal := issue .c 1 x.pred false skip skip s

/-! ## Fences, tokens and guard slots (R118 to R121) -/

/-- The engines that have strands. -/
def strandEngs : List Eng := [.c, .a, .v, .m, .d, .g]

/-- What a fence hands on (R55, R118): the strand's loads before it are performed (log 7); with a release the commands that the
block issues later know what the strand knows, and its die's clock rises; with an acquire those that the strand itself issues. -/
def State.fence (s : State) (o : Ord) : State :=
  let u := s.blk.uid
  let ids := s.knownTo (.strand u .c)
  let s := s.settleAll (.strand u .c)
  let s := if o.rel then strandEngs.foldl (fun s e => s.learn (.issue u e) ids) (s.clockUp s.blk.die) else s
  if o.acq then s.learn (.issue u .c) ids else s

/-- `c.fence` (R118). -/
def execCFence (x : FenceArgs) (s : State) : Host.Outcome State Fault Refusal :=
  issue .c 1 x.pred false skip (thenGo do
    roundScope x.ord
    modS fun s => s.fence x.ord) s

/-- `c.tkset` (R119): a setter that completes at once, since every access before it is performed; a block-scope
release. -/
def execCTkset (x : FlagArgs) (s : State) : Host.Outcome State Fault Refusal :=
  issue .c 1 x.pred false (thenGo (vacuousSetter x.f)) (thenGo do
    vacuousSetter x.f
    modS fun s => s.release (.strand s.blk.uid .c) (.flag s.blk.uid x.f (s.blk.flags[x.f]).p.toNat) .blk) s

/-- Binding of a token wait (R36): the target ordinal. -/
def bindWait (f : Fin 64) : M Nat := do
  let b ← getBlk
  waitUntil (b.mayBind .c)
  let n := (b.flags[f]).p.toNat
  trapIf (n == 0) 0x20
  return n

/-- A token wait that ends is an acquire at block scope (R35). -/
def State.tkAcquire (s : State) (f : Fin 64) (n : Nat) : State := s.acquire .c (.flag s.blk.uid f n) .blk

/-- `c.tkwait` (R36, R120). -/
def execCTkwait (x : FlagArgs) (s : State) : Host.Outcome State Fault Refusal :=
  issue .c 1 x.pred false skip (do
    let n ← bindWait x.f
    let b ← getBlk
    if (b.flags[x.f]).setTo n then
      modS fun s => s.tkAcquire x.f n
      return .go
    return .wait (.tk { flag := x.f, n := n, timed := false, rem := 0, since := b.cyc, pd := 0 })) s

/-- `c.tkwait` with a timeout (R120). -/
def execCTkwaitTimeout (x : TkTArgs) (s : State) : Host.Outcome State Fault Refusal :=
  issue .c 2 x.pred false skip (do
    let n ← bindWait x.f
    let b ← getBlk
    let full := (b.flags[x.f]).setTo n
    if full || x.t = 0 then
      if full then modS fun s => s.tkAcquire x.f n
      modStr .c fun st => st.setPred x.pd full
      return .go
    return .wait (.tk { flag := x.f, n := n, timed := true, rem := x.t.toNat, since := b.cyc, pd := x.pd })) s

/-- The end of a bound token wait: an acquire where the flag stands set; the timeout form writes its predicate. -/
def State.endWait (s : State) (b : TkBind) (set : Bool) : State :=
  let s := if set then s.tkAcquire b.flag b.n else s
  (if b.timed then s.modStr .c fun st => st.setPred b.pd set else s).complete .c (if b.timed then 2 else 1) .go

/-- Whether the c strand of the block in focus may end a wait: neither it nor its context has stopped, nor does its block stand
gathered. -/
def State.mayEnd (s : State) (e : Eng) : Bool := s.blk.placed && !s.blk.stood && (s.str e).stop.isNone && s.cx.st == 0

/-- TKWAIT_RETURN (R36, R120, R234): the flag stands set up to the bound ordinal, and came to before the count ran out. -/
def execTkwaitReturn (u : Nat) (s : State) : Host.Outcome State Fault Refusal :=
  match s.blockAt u with
  | none => .next s
  | some _ =>
    let t := s.focus u
    match (t.str .c).wait with
    | .tk b => if t.mayEnd .c && !b.expired && (t.blk.flags[b.flag]).setTo b.n then .next (t.endWait b true) else .next s
    | _ => .next s

/-- TKWAIT_TIMEOUT (R120, R234): the count has run out and the flag does not stand set. -/
def execTkwaitTimeout (u : Nat) (s : State) : Host.Outcome State Fault Refusal :=
  match s.blockAt u with
  | none => .next s
  | some _ =>
    let t := s.focus u
    match (t.str .c).wait with
    | .tk b =>
      if t.mayEnd .c && b.expired then .next (t.endWait b false) else .next s
    | _ => .next s

/-- `c.tkclr` (R119). -/
def execCTkclr (x : FlagArgs) (s : State) : Host.Outcome State Fault Refusal :=
  issue .c 1 x.pred false skip (thenGo do
    let b ← getBlk
    waitUntil (b.flags[x.f]).full
    modBlk fun b => b.modFlag x.f fun _ => { p := 0, pend := [] }) s

/-- `c.gset` (R121). -/
def execCGset (x : GsetArgs) (s : State) : Host.Outcome State Fault Refusal :=
  issue .c 1 x.pred false skip (thenGo do
    let v := (← getStr .c).pred x.p
    modBlk fun b => b.setGuard x.gs v) s

/-! ## Group barriers (R124) -/

/-- The value of an operand that is read but not yet popped; blocks on an empty queue. -/
def peekS (e : Eng) : Opd → M Dword
  | .reg n => do return (← getBlk).scalar e n
  | .port (.q n) => do
    match (← getBlk).q[n] with
    | [] => stopWith .blocked
    | x :: _ => return x
  | .port _ => trap 0x02

/-- The queue that an operand names. -/
def opdQ : Opd → Option (Fin 16)
  | .port (.q n) => some n
  | _ => none

/-- Drop the head of the queue that a completed wait names. -/
def Block.dropHead (b : Block) : Option (Fin 16) → Block
  | none => b
  | some n => { b with q := b.q.set n (b.q[n].drop 1) }.countPop (qIdx n)

/-- The barrier group of an index that holds the block (R124). -/
def Task.barrierOf (t : Task) (i idx : Nat) : Option Group :=
  t.groups.find? fun g => g.index == idx && g.kind == 1 && g.members.contains i

/-- One arrival at a group barrier of a task. -/
def Ctx.arrive (c : Ctx) (task grp i : Nat) : Ctx :=
  if c.bars.any fun b => b.task == task && b.grp == grp then
    { c with bars := c.bars.map fun b =>
        if b.task == task && b.grp == grp then { b with arrived := i :: b.arrived.filter (· != i) } else b }
  else { c with bars := { task := task, grp := grp, arrived := [i] } :: c.bars }

/-- `c.gbar` (R124): trap 0x34 for an index that is no barrier group of the block; then an arrival, a release at group
scope. -/
def execCGbar (x : SrcArgs) (s : State) : Host.Outcome State Fault Refusal :=
  issue .c 1 x.pred false (dropAll .c [x.a] []) (do
    barRound
    scoreboard .c x.a
    let a ← peekS .c x.a
    let s ← getS
    let grp := a.toNat % 256
    let i := s.blk.bidx.toNat
    match (s.taskAt s.blk.task).bind fun t => t.barrierOf i grp with
    | none => trap 0x34
    | some _ =>
      modS fun s => (s.release (.strand s.blk.uid .c) (.bar s.blk.task grp) .grp).modCtx s.blk.ctx fun c =>
        c.arrive s.blk.task grp i
      return .wait (.gbar grp (opdQ x.a))) s

/-- Whether every member of a barrier group has arrived; a block that completed counts as arrived. -/
def State.barFull (s : State) (t : Task) (g : Group) : Bool :=
  let arr := match (s.ctxAt t.ctx).bars.find? fun b => b.task == t.key && b.grp == g.index with
    | some b => b.arrived
    | none => []
  g.members.all fun i => arr.contains i || t.doneIdx.contains i

/-- Whether a block waits at a group's barrier. -/
def Block.atBar (task grp : Nat) (b : Block) : Bool :=
  match (b.str .c).wait with
  | .gbar g _ => b.placed && b.task == task && g == grp
  | _ => false

/-- The completion of a group barrier is an acquire at group scope by the c strand of each member that waits there. -/
def State.barAcquire (s : State) (task grp : Nat) : State :=
  (s.blocks.filter (Block.atBar task grp)).foldl (fun s b => s.acquireOf b .c (.bar task grp) .grp) s

/-- A block of a task that waits at a group's barrier goes on. -/
def Block.leaveBar (task grp now : Nat) (b : Block) : Block :=
  match (b.str .c).wait with
  | .gbar g q =>
    if b.placed && b.task == task && g == grp then
      { (b.dropHead q).modStr .c (fun st => st.complete 1 .go) with idle := now }
    else b
  | _ => b

/-- GBAR_COMPLETE (R124): every member has arrived, and every waiting member goes on; none does while a member stands gathered
(R292, R296). -/
def execGbarComplete (t : Nat) (grp : Fin 256) (s : State) : Host.Outcome State Fault Refusal :=
  match s.taskAt t with
  | none => .next s
  | some k =>
    match k.groups.find? fun g => g.index == grp.val && g.kind == 1 with
    | none => .next s
    | some g =>
      if (s.ctxAt k.ctx).st = 0 && s.barFull k g && !(s.blocks.any fun b => b.atBar k.key grp.val && b.stood) then
        .next (((s.barAcquire k.key grp.val).mapBlocks (Block.leaveBar k.key grp.val s.time)).modCtx k.ctx fun c =>
          { c with bars := c.bars.filter fun b => !(b.task == k.key && b.grp == grp.val) })
      else .next s

/-! ## The estimate and CSRs (R26, R127, R128) -/

/-- `c.prog` (R127). -/
def execCProg (x : SrcArgs) (s : State) : Host.Outcome State Fault Refusal :=
  issue .c 1 x.pred false (dropAll .c [x.a] []) (thenGo do
    let a ← readS .c x.a
    portOrder .c [x.a] []
    modS fun s => { s with tasks := s.tasks.map fun t =>
      if t.key == s.blk.task then { t with est := a.setWidth 32 } else t }) s

/-- SCOUTK (R128). -/
def Scout.csr (x : Scout) : Dword :=
  BitVec.ofNat 64 (x.iter.toNat * 2 ^ 32 + x.acc % 16 * 2 ^ 12 + x.kr % 16 * 2 ^ 8 + x.k % 16)

/-- A CSR as `csrr` reads it (R26, R128). -/
def State.csr (s : State) : Csr → Dword
  | .blockid => s.blk.bidx.setWidth 64
  | .dieid => BitVec.ofNat 64 (virtDie s.partWord s.blk.die.val)
  | .coreid => BitVec.ofNat 64 (virtCore s.partWord s.blk.die.val s.blk.core)
  | .slipw => s.blk.slipw.setWidth 64
  | .status => s.blk.status.setWidth 64
  | .trapcause => s.blk.trapcause.setWidth 64
  | .cycle => BitVec.ofNat 64 s.blk.cyc
  | .phase => BitVec.ofNat 64 s.cx.phase.val
  | .scoutk => s.blk.scout.csr
  | .leave => BitVec.ofNat 64 (s.blk.grants.toNat * 2 ^ 32 + s.blk.stall.toNat)

/-- `c.csrr` (R128). -/
def execCCsrr (x : CsrrArgs) (s : State) : Host.Outcome State Fault Refusal :=
  issue .c 1 x.pred false (dropAll .c [] [x.d]) (thenGo do
    writeS .c x.d ((← getS).csr x.csr)
    portOrder .c [] [x.d]) s

/-- A CSR written (R26, R128): W of SLIPW, where 0 stores 1; the sticky bits of STATUS, where 1 clears. -/
def Block.csrWrite (b : Block) (c : Csr) (v : Dword) : Block :=
  match c with
  | .slipw => { b with slipw := if v.toNat % 256 = 0 then 1 else v.setWidth 8 }
  | .status => { b with status := b.status &&& ~~~(v.setWidth 6) }
  | _ => b

/-- `c.csrw` (R128). -/
def execCCsrw (x : CsrwArgs) (s : State) : Host.Outcome State Fault Refusal :=
  issue .c 1 x.pred false (dropAll .c [x.b] []) (thenGo do
    let v ← readS .c x.b
    modBlk fun b => b.csrWrite x.csr v
    portOrder .c [x.b] []) s

end Sys2Proof.Machine
end

