-- ==== Sys2Proof/Machine/CInt.lean ====
section
/-! DEFINITION. The c strand's integer, bit, move, predicate and scalar floating-point instructions (R106 to R112). -/

namespace Sys2Proof.Machine

/-! ## Integer results (R106, R107) -/

/-- An exact result of `add`, `sub` or `mul`, wrapped or saturated by the prefix. -/
def exactOp (f : Int → Int → Int) (a b : Dword) : M Dword := do
  satStore 64 (← latch .c).ctl.sat (f a.toInt b.toInt)

def addOp (a b : Dword) : M Dword := exactOp (· + ·) a b
def subOp (a b : Dword) : M Dword := exactOp (· - ·) a b
def mulOp (a b : Dword) : M Dword := exactOp (· * ·) a b
def mulhOp (a b : Dword) : M Dword := return BitVec.ofInt 64 (a.toInt * b.toInt / 2 ^ 64)
def mulhuOp (a b : Dword) : M Dword := return BitVec.ofNat 64 (a.toNat * b.toNat / 2 ^ 64)

/-- Signed quotient: -1 for a zero divisor; the one overflow wraps, or saturates under SAT. -/
def divOp (a b : Dword) : M Dword := do
  if b = 0 then return BitVec.allOnes 64
  satStore 64 (← latch .c).ctl.sat (a.toInt.tdiv b.toInt)

def divuOp (a b : Dword) : M Dword :=
  return if b = 0 then BitVec.allOnes 64 else BitVec.ofNat 64 (a.toNat / b.toNat)

/-- Signed remainder with the sign of A; A for a zero divisor. -/
def remOp (a b : Dword) : M Dword := return if b = 0 then a else BitVec.ofInt 64 (a.toInt.tmod b.toInt)

def remuOp (a b : Dword) : M Dword := return if b = 0 then a else BitVec.ofNat 64 (a.toNat % b.toNat)
def andOp (a b : Dword) : M Dword := return a &&& b
def orOp (a b : Dword) : M Dword := return a ||| b
def xorOp (a b : Dword) : M Dword := return a ^^^ b
def andnOp (a b : Dword) : M Dword := return a &&& ~~~b
def shlOp (a b : Dword) : M Dword := return a <<< (b.toNat % 64)
def shrOp (a b : Dword) : M Dword := return a >>> (b.toNat % 64)
def sarOp (a b : Dword) : M Dword := return a.sshiftRight (b.toNat % 64)
def rotOp (a b : Dword) : M Dword := return a.rotateRight (b.toNat % 64)
def minOp (a b : Dword) : M Dword := return if b.slt a then b else a
def maxOp (a b : Dword) : M Dword := return if a.slt b then b else a
def minuOp (a b : Dword) : M Dword := return if b.ult a then b else a
def maxuOp (a b : Dword) : M Dword := return if a.ult b then b else a

/-- `c.add` (R106): A + B. -/
def execCAdd (x : RArgs) (s : State) : Host.Outcome State Fault Refusal := execR .c x addOp s

/-- `c.sub` (R106): A - B. -/
def execCSub (x : RArgs) (s : State) : Host.Outcome State Fault Refusal := execR .c x subOp s

/-- `c.mul` (R106): low 64 bits of A·B. -/
def execCMul (x : RArgs) (s : State) : Host.Outcome State Fault Refusal := execR .c x mulOp s

/-- `c.mulh` (R106): high 64 bits of the signed product. -/
def execCMulh (x : RArgs) (s : State) : Host.Outcome State Fault Refusal := execR .c x mulhOp s

/-- `c.mulhu` (R106): high 64 bits of the unsigned product. -/
def execCMulhu (x : RArgs) (s : State) : Host.Outcome State Fault Refusal := execR .c x mulhuOp s

/-- `c.div` (R106): signed quotient toward zero. -/
def execCDiv (x : RArgs) (s : State) : Host.Outcome State Fault Refusal := execR .c x divOp s

/-- `c.divu` (R106): unsigned quotient. -/
def execCDivu (x : RArgs) (s : State) : Host.Outcome State Fault Refusal := execR .c x divuOp s

/-- `c.rem` (R106): signed remainder. -/
def execCRem (x : RArgs) (s : State) : Host.Outcome State Fault Refusal := execR .c x remOp s

/-- `c.remu` (R106): unsigned remainder. -/
def execCRemu (x : RArgs) (s : State) : Host.Outcome State Fault Refusal := execR .c x remuOp s

/-- `c.and` (R106): A and B. -/
def execCAnd (x : RArgs) (s : State) : Host.Outcome State Fault Refusal := execR .c x andOp s

/-- `c.or` (R106): A or B. -/
def execCOr (x : RArgs) (s : State) : Host.Outcome State Fault Refusal := execR .c x orOp s

/-- `c.xor` (R106): A xor B. -/
def execCXor (x : RArgs) (s : State) : Host.Outcome State Fault Refusal := execR .c x xorOp s

/-- `c.andn` (R106): A and not B. -/
def execCAndn (x : RArgs) (s : State) : Host.Outcome State Fault Refusal := execR .c x andnOp s

/-- `c.shl` (R106): A shifted left by B[5:0]. -/
def execCShl (x : RArgs) (s : State) : Host.Outcome State Fault Refusal := execR .c x shlOp s

/-- `c.shr` (R106): A shifted right by B[5:0]. -/
def execCShr (x : RArgs) (s : State) : Host.Outcome State Fault Refusal := execR .c x shrOp s

/-- `c.sar` (R106): A shifted right by B[5:0], sign in. -/
def execCSar (x : RArgs) (s : State) : Host.Outcome State Fault Refusal := execR .c x sarOp s

/-- `c.rot` (R106): A rotated right by B[5:0]. -/
def execCRot (x : RArgs) (s : State) : Host.Outcome State Fault Refusal := execR .c x rotOp s

/-- `c.min` (R106): signed minimum. -/
def execCMin (x : RArgs) (s : State) : Host.Outcome State Fault Refusal := execR .c x minOp s

/-- `c.max` (R106): signed maximum. -/
def execCMax (x : RArgs) (s : State) : Host.Outcome State Fault Refusal := execR .c x maxOp s

/-- `c.minu` (R106): unsigned minimum. -/
def execCMinu (x : RArgs) (s : State) : Host.Outcome State Fault Refusal := execR .c x minuOp s

/-- `c.maxu` (R106): unsigned maximum. -/
def execCMaxu (x : RArgs) (s : State) : Host.Outcome State Fault Refusal := execR .c x maxuOp s

/-- `c.add` with an immediate (R106): A + B. -/
def execCAddK (x : KArgs) (s : State) : Host.Outcome State Fault Refusal := execK .c x imm6s addOp s

/-- `c.sub` with an immediate (R106): A - B. -/
def execCSubK (x : KArgs) (s : State) : Host.Outcome State Fault Refusal := execK .c x imm6s subOp s

/-- `c.mul` with an immediate (R106): low 64 bits of A·B. -/
def execCMulK (x : KArgs) (s : State) : Host.Outcome State Fault Refusal := execK .c x imm6s mulOp s

/-- `c.mulh` with an immediate (R106): high 64 bits of the signed product. -/
def execCMulhK (x : KArgs) (s : State) : Host.Outcome State Fault Refusal := execK .c x imm6s mulhOp s

/-- `c.mulhu` with an immediate (R106): high 64 bits of the unsigned product. -/
def execCMulhuK (x : KArgs) (s : State) : Host.Outcome State Fault Refusal := execK .c x imm6s mulhuOp s

/-- `c.div` with an immediate (R106): signed quotient toward zero. -/
def execCDivK (x : KArgs) (s : State) : Host.Outcome State Fault Refusal := execK .c x imm6s divOp s

/-- `c.divu` with an immediate (R106): unsigned quotient. -/
def execCDivuK (x : KArgs) (s : State) : Host.Outcome State Fault Refusal := execK .c x imm6s divuOp s

/-- `c.rem` with an immediate (R106): signed remainder. -/
def execCRemK (x : KArgs) (s : State) : Host.Outcome State Fault Refusal := execK .c x imm6s remOp s

/-- `c.remu` with an immediate (R106): unsigned remainder. -/
def execCRemuK (x : KArgs) (s : State) : Host.Outcome State Fault Refusal := execK .c x imm6s remuOp s

/-- `c.and` with an immediate (R106): A and B. -/
def execCAndK (x : KArgs) (s : State) : Host.Outcome State Fault Refusal := execK .c x imm6s andOp s

/-- `c.or` with an immediate (R106): A or B. -/
def execCOrK (x : KArgs) (s : State) : Host.Outcome State Fault Refusal := execK .c x imm6s orOp s

/-- `c.xor` with an immediate (R106): A xor B. -/
def execCXorK (x : KArgs) (s : State) : Host.Outcome State Fault Refusal := execK .c x imm6s xorOp s

/-- `c.andn` with an immediate (R106): A and not B. -/
def execCAndnK (x : KArgs) (s : State) : Host.Outcome State Fault Refusal := execK .c x imm6s andnOp s

/-- `c.shl` with an immediate (R106): A shifted left by B[5:0]. -/
def execCShlK (x : KArgs) (s : State) : Host.Outcome State Fault Refusal := execK .c x imm6u shlOp s

/-- `c.shr` with an immediate (R106): A shifted right by B[5:0]. -/
def execCShrK (x : KArgs) (s : State) : Host.Outcome State Fault Refusal := execK .c x imm6u shrOp s

/-- `c.sar` with an immediate (R106): A shifted right by B[5:0], sign in. -/
def execCSarK (x : KArgs) (s : State) : Host.Outcome State Fault Refusal := execK .c x imm6u sarOp s

/-- `c.rot` with an immediate (R106): A rotated right by B[5:0]. -/
def execCRotK (x : KArgs) (s : State) : Host.Outcome State Fault Refusal := execK .c x imm6u rotOp s

/-- `c.min` with an immediate (R106): signed minimum. -/
def execCMinK (x : KArgs) (s : State) : Host.Outcome State Fault Refusal := execK .c x imm6s minOp s

/-- `c.max` with an immediate (R106): signed maximum. -/
def execCMaxK (x : KArgs) (s : State) : Host.Outcome State Fault Refusal := execK .c x imm6s maxOp s

/-- `c.minu` with an immediate (R106): unsigned minimum. -/
def execCMinuK (x : KArgs) (s : State) : Host.Outcome State Fault Refusal := execK .c x imm6s minuOp s

/-- `c.maxu` with an immediate (R106): unsigned maximum. -/
def execCMaxuK (x : KArgs) (s : State) : Host.Outcome State Fault Refusal := execK .c x imm6s maxuOp s

/-! ## Bits and moves (R108) -/

/-- Position and width of a bit field from B. -/
def fieldPos (b : Dword) : Nat := b.toNat % 64
def fieldWidth (b : Dword) : Nat := min (b.toNat / 2 ^ 8 % 128) (64 - fieldPos b)

/-- A width in B where 0 and values above 64 mean 64. -/
def extWidth (b : Dword) : Nat := if b.toNat % 128 = 0 || 64 < b.toNat % 128 then 64 else b.toNat % 128

/-- Leading zeros of the low `n` bits. -/
def leadZeros (a : Dword) : Nat → Nat
  | 0 => 0
  | n + 1 => if a.getLsbD n then 0 else leadZeros a n + 1

/-- Trailing zeros counted from bit `i`. -/
def trailZeros (a : Dword) : Nat → Nat → Nat
  | 0, _ => 0
  | n + 1, i => if a.getLsbD i then 0 else trailZeros a n (i + 1) + 1

/-- Ones in a doubleword. -/
def onesIn (a : Dword) : Nat := ((List.range 64).filter fun i => a.getLsbD i).length

/-- `c.sel` (R108): A where s_d is not zero, else B. -/
def execCSel (x : RArgs) (s : State) : Host.Outcome State Fault Refusal :=
  execRD .c x (fun a b d => return if d = 0 then b else a) s

/-- `c.bfx` (R108): a bit field of A. -/
def execCBfx (x : RArgs) (s : State) : Host.Outcome State Fault Refusal :=
  execR .c x (fun a b => return BitVec.ofNat 64 (a.toNat / 2 ^ fieldPos b % 2 ^ fieldWidth b)) s

/-- `c.bfi` (R108): the low bits of A inserted into s_d. -/
def execCBfi (x : RArgs) (s : State) : Host.Outcome State Fault Refusal :=
  execRD .c x (fun a b d =>
    let m : Dword := BitVec.ofNat 64 ((2 ^ fieldWidth b - 1) * 2 ^ fieldPos b)
    return (d &&& ~~~m) ||| ((a <<< fieldPos b) &&& m)) s

/-- `c.clz` (R108). -/
def execCClz (x : UArgs) (s : State) : Host.Outcome State Fault Refusal :=
  execU .c x (fun a => return BitVec.ofNat 64 (leadZeros a 64)) s

/-- `c.ctz` (R108). -/
def execCCtz (x : UArgs) (s : State) : Host.Outcome State Fault Refusal :=
  execU .c x (fun a => return BitVec.ofNat 64 (trailZeros a 64 0)) s

/-- `c.popc` (R108). -/
def execCPopc (x : UArgs) (s : State) : Host.Outcome State Fault Refusal :=
  execU .c x (fun a => return BitVec.ofNat 64 (onesIn a)) s

/-- `c.sext` (R108). -/
def execCSext (x : RArgs) (s : State) : Host.Outcome State Fault Refusal :=
  execR .c x (fun a b => return BitVec.ofInt 64 (signedOf (extWidth b) a.toNat)) s

/-- `c.zext` (R108). -/
def execCZext (x : RArgs) (s : State) : Host.Outcome State Fault Refusal :=
  execR .c x (fun a b => return BitVec.ofNat 64 (a.toNat % 2 ^ extWidth b)) s

/-- `c.mov` (R108). -/
def execCMov (x : UArgs) (s : State) : Host.Outcome State Fault Refusal := execU .c x (fun a => return a) s

/-- `c.li` (R19, R108). -/
def execCLi (x : LiArgs) (s : State) : Host.Outcome State Fault Refusal := execLi .c x s

/-! ## Predicates (R109) -/

/-- `c.cmp` (R109). -/
def execCCmp (x : CmpArgs) (s : State) : Host.Outcome State Fault Refusal := execCmp .c x (fun a b => relHolds x.rel a b) s

/-- `c.cmp` with an immediate (R109). -/
def execCCmpK (x : CmpKArgs) (s : State) : Host.Outcome State Fault Refusal :=
  execCmpK .c x (fun a b => relHolds x.rel a b) s

/-- A predicate computed from predicates of the c strand. -/
def execP (p : Pred) (d : Fin 8) (f : Strand → Bool) (s : State) : Host.Outcome State Fault Refusal :=
  issue .c 1 p false skip (thenGo (modStr .c fun st => st.setPred d (f st))) s

/-- `c.pand` (R109). -/
def execCPand (x : P3Args) (s : State) : Host.Outcome State Fault Refusal :=
  execP x.pred x.d (fun st => st.pred x.a && st.pred x.b) s

/-- `c.por` (R109). -/
def execCPor (x : P3Args) (s : State) : Host.Outcome State Fault Refusal :=
  execP x.pred x.d (fun st => st.pred x.a || st.pred x.b) s

/-- `c.pnot` (R109). -/
def execCPnot (x : P2Args) (s : State) : Host.Outcome State Fault Refusal := execP x.pred x.d (fun st => !st.pred x.a) s

/-! ## Scalar floating point (R110 to R112) -/

/-- The generator of the c strand (R71). -/
def cGen : Nat := 192

/-- The fp32 value in bits [31:0]. -/
def fp32Of (ftz : Bool) (a : Dword) : Val := Fmt.fp32.value ftz (a.toNat % 2 ^ 32)

/-- An fp32 result rounded once in the prefix's mode, bits [63:32] cleared. -/
def fp32Result (f : FpCtl → Val) : M Dword := do
  let c := (← latch .c).ctl
  let r ← numeric (Fmt.fp32.deliver c cGen (f c))
  return BitVec.ofNat 64 r

/-- Two fp32 operands into an fp32 result. -/
def fpOp (f : Rm → Val → Val → Val) (a b : Dword) : M Dword :=
  fp32Result fun c => f c.rm (fp32Of c.ftz a) (fp32Of c.ftz b)

/-- `c.fadd` (R110). -/
def execCFadd (x : RArgs) (s : State) : Host.Outcome State Fault Refusal := execR .c x (fpOp Val.add) s

/-- `c.fsub` (R110). -/
def execCFsub (x : RArgs) (s : State) : Host.Outcome State Fault Refusal :=
  execR .c x (fpOp fun rm a b => a.add rm b.neg) s

/-- `c.fmul` (R110). -/
def execCFmul (x : RArgs) (s : State) : Host.Outcome State Fault Refusal := execR .c x (fpOp fun _ a b => a.mul b) s

/-- `c.fma` (R110): A·B + s_d with one rounding. -/
def execCFma (x : RArgs) (s : State) : Host.Outcome State Fault Refusal :=
  execRD .c x (fun a b d => fp32Result fun c =>
    ((fp32Of c.ftz a).mul (fp32Of c.ftz b)).add c.rm (fp32Of c.ftz d)) s

/-- `c.fmin` (R110). -/
def execCFmin (x : RArgs) (s : State) : Host.Outcome State Fault Refusal := execR .c x (fpOp fun _ a b => a.pickMin b) s

/-- `c.fmax` (R110). -/
def execCFmax (x : RArgs) (s : State) : Host.Outcome State Fault Refusal := execR .c x (fpOp fun _ a b => a.pickMax b) s

/-- The format of a floating type of `c.fcvt`; fp32 for the integer types. -/
def ctyFmt : CTy → Fmt
  | .fp32 => .fp32
  | .bf16 => .bf16
  | .fp16 => .fp16
  | .e4m3 => .e4m3
  | .e5m2 => .e5m2
  | .i32 => .fp32
  | .i64 => .fp32

/-- The value that a source of `c.fcvt` holds (R111). -/
def ctyRead (t : CTy) (ftz : Bool) (a : Dword) : Val :=
  match t with
  | .i32 => .ofInt (signedOf 32 a.toNat)
  | .i64 => .ofInt a.toInt
  | _ => (ctyFmt t).value ftz (a.toNat % 2 ^ (ctyFmt t).width)

/-- A value delivered as a type of `c.fcvt` (R111). -/
def ctyWrite (t : CTy) (c : FpCtl) (v : Val) (n : NumSt) : Dword × NumSt :=
  match t with
  | .i32 => let (r, n) := deliverInt 32 c cGen v n; (BitVec.ofInt 64 r, n)
  | .i64 => let (r, n) := deliverInt 64 c cGen v n; (BitVec.ofInt 64 r, n)
  | _ => let (r, n) := (ctyFmt t).deliver c cGen v n; (BitVec.ofNat 64 r, n)

/-- `c.fcvt` (R111). -/
def execCFcvt (x : CFcvtArgs) (s : State) : Host.Outcome State Fault Refusal :=
  execU .c { pred := x.pred, d := x.d, a := x.a } (fun a => do
    let c := (← latch .c).ctl
    numeric (ctyWrite x.dst c (ctyRead x.src c.ftz a))) s

/-- `c.fcmp` (R112). -/
def execCFcmp (x : CmpArgs) (s : State) : Host.Outcome State Fault Refusal :=
  let z := (s.str .c).pfx.ctl.ftz
  execCmp .c x (fun a b => (fp32Of z a).rel x.rel (fp32Of z b)) s

end Sys2Proof.Machine
end

