-- ==== Sys2Proof/Machine/Pool.lean ====
section
/-! DEFINITION. The KV pool's page states and free ring as the home synchronisation engine changes them (R310, R311,
R313), and the atomic read-modify-writes of R117, R196, R225 and R310. -/

namespace Sys2Proof.Machine

/-! ## The metadata (R310) -/

/-- FREEN and LOOSE. -/
def State.freeN (s : State) (e : MapEntry) : Nat := s.metaWord e.frame0
def State.loose (s : State) (e : MapEntry) : Nat := s.metaWord (e.frame0 + 4)

/-- Address of entry `i` of the free ring, its head at 0. -/
def MapEntry.ringAt (e : MapEntry) (i : Nat) : Nat := e.frame0 + 64 + 4 * i

/-- The pages on the free ring, head first. -/
def State.freeRing (s : State) (e : MapEntry) : List Nat := (List.range (s.freeN e)).map fun i => s.metaWord (e.ringAt i)

def State.pageRef (s : State) (e : MapEntry) (p : Nat) : Nat := s.metaWord (e.pageWord p 0)
def State.pageStamp (s : State) (e : MapEntry) (p : Nat) : Nat := s.metaWord (e.pageWord p 1)
def State.pageTok (s : State) (e : MapEntry) (p : Nat) : Nat := s.metaWord (e.pageWord p 2)
def State.pageW3 (s : State) (e : MapEntry) (p : Nat) : Nat := s.metaWord (e.pageWord p 3)
def State.pageTier (s : State) (e : MapEntry) (p : Nat) : Nat := s.pageW3 e p % 4
def State.pageRst (s : State) (e : MapEntry) (p : Nat) : Bool := s.pageW3 e p / 8 % 2 == 1
def State.pageSump (s : State) (e : MapEntry) (p : Nat) : Bool := s.pageW3 e p / 4 % 2 == 1
def State.pageFrame (s : State) (e : MapEntry) (p : Nat) : Nat := s.pageW3 e p / 256

/-- Word 3 of a page state. -/
def pageWord3 (frame : Nat) (rst sump : Bool) (tier : Nat) : Nat := frame * 256 + digit rst * 8 + digit sump * 4 + tier

/-- A page appended to the free ring's tail. -/
def State.pushFree (s : State) (e : MapEntry) (p : Nat) : State :=
  let n := s.freeN e
  (s.setMeta (e.ringAt n) p).setMeta e.frame0 (n + 1)

/-- The head page taken from a free ring that is not empty: the entries behind it move up, the freed place reads 0. -/
def State.takeFree (s : State) (e : MapEntry) : State :=
  let n := s.freeN e
  let key := s.homeKey e.frame0
  let s := s.putIn key (e.ringAt 0) (s.bytesIn key (e.ringAt 1) (4 * (n - 1)))
  (s.setMeta (e.ringAt (n - 1)) 0).setMeta e.frame0 (n - 1)

/-- The lowest unbacked page. -/
def State.lowestUnbacked (s : State) (e : MapEntry) : Option Nat :=
  (List.range e.npages).find? fun p => e.metaPages ≤ p && s.pageTier e p == 3

/-- A frame that becomes free: it attaches to the lowest unbacked page, which becomes resident and free, or counts as
loose (R311). -/
def State.freeFrame (s : State) (e : MapEntry) (frame : Nat) : State :=
  match s.lowestUnbacked e with
  | some p =>
    ((s.setMeta (e.pageWord p 3) (pageWord3 frame false false 0)).setMeta (e.pageWord p 0) 0).pushFree e p
  | none => s.setMeta (e.frame0 + 4) (s.loose e + 1)

/-- The lowest frame that no page holds: which loose frame is taken, the spec does not say (log 21). -/
def State.looseFrame (s : State) (e : MapEntry) : Nat :=
  ((List.range e.nframes).find? fun f =>
    e.metaPages ≤ f && !((List.range e.npages).any fun p =>
      e.metaPages ≤ p && (s.pageTier e p == 0 || s.pageRst e p) && s.pageFrame e p == f)).getD 0

/-- A page becomes unbacked; with loose frames, one attaches (R311). -/
def State.unback (s : State) (e : MapEntry) (p : Nat) : State :=
  let f := s.looseFrame e
  let s := s.setMeta (e.pageWord p 3) (pageWord3 0 false false 3)
  if s.loose e = 0 then s else (s.setMeta (e.frame0 + 4) (s.loose e - 1)).freeFrame e f

/-- REF of a page became 0 (R311). -/
def State.refZero (s : State) (cx rgn : Nat) (e : MapEntry) (p : Nat) : State :=
  match s.pageTier e p with
  | 0 =>
    let s := if s.pageSump e p then (s.setMeta (e.pageWord p 3) (clearSump (s.pageW3 e p))).unlist cx rgn p else s
    s.pushFree e p
  | 3 => s
  | _ => s.unback e p

/-- Units that the hardware zeroes under a key: their old bytes, poison and errors are gone (R309, R310, R321, R322). -/
def State.zeroUnits (s : State) (key a n : Nat) : State :=
  let here := fun u : Nat => a ≤ 64 * u && 64 * u < a + n
  { s with
    mem := Mem.zero s.mem a n, olds := s.olds.filter (fun o => !o.meets a n), rels := s.rels.filter (fun r => !r.obj.overlaps a n),
    poison := s.poison.filter (fun u => !here u), upsets := s.upsets.filter (fun u => !here u),
    unitKeys := s.unitKeys.filter (fun x => !here x.1) ++ (List.range (n / 64)).map fun i => (a / 64 + i, key) }

/-- The state that a pool region has when it is entered fresh or first committed, under its partition's key (R310, R321). -/
def State.initPool (s : State) (key : Nat) (e : MapEntry) : State :=
  let h := e.metaPages
  let s := s.zeroUnits key e.frame0 (h * 65536)
  let s := (List.range e.npages).foldl (fun s p =>
    s.setMeta (e.pageWord p 3) (if p < e.nframes then pageWord3 p false false 0 else 3)) s
  ((List.range e.nframes).filter fun p => h ≤ p).foldl (fun s p => s.pushFree e p) s

/-- `rpopn`'s take of one page (R123, R311): REF 1, STAMP now, TOK 0; answers the page. -/
def State.takePage (s : State) (e : MapEntry) : Nat × State :=
  let p := s.metaWord (e.ringAt 0)
  let s := s.takeFree e
  (p, ((s.setMeta (e.pageWord p 0) 1).setMeta (e.pageWord p 1) (s.micros % 2 ^ 32)).setMeta (e.pageWord p 2) 0)

/-- `n` pages taken from a free ring that holds at least so many. -/
def State.takePages (e : MapEntry) : Nat → State → List Nat × State
  | 0, s => ([], s)
  | n + 1, s =>
    let (p, s) := s.takePage e
    let (l, s) := State.takePages e n s
    (p :: l, s)

/-- Atomics on pool metadata: only a 32-bit `amo.add` on the REF word of a KV page that is neither free nor unbacked,
with a result in 0 to 65535 (R310). Answers the old word. -/
def refAdd (rgn : Nat) (e : MapEntry) (va off operand : Nat) : M Nat := do
  let b := 64 + 4 * e.npages
  let p := (off - b) / 16
  metaRead va (e.frame0 + off) 4
  let s ← getS
  if off < b || (off - b) % 16 ≠ 0 || e.npages ≤ p || p < e.metaPages || s.pageTier e p = 3
      || (s.freeRing e).contains p then trapAt 0x32 va
  let old := s.pageRef e p
  let new : Int := (old : Int) + signedOf 32 operand
  if new < 0 || 65535 < new then trapAt 0x32 va
  modS fun s => s.setMeta (e.pageWord p 0) new.toNat
  if new = 0 then
    metaRead va e.frame0 8
    modS fun s => s.refZero s.blk.ctx rgn e p
  modS fun s => s.remarkMeta s.blk.ctx rgn e
  return old

/-! ## Read-modify-write (R117) -/

/-- The new value of an atomic operation on `w`-bit values; `x` is what `cas` expects. -/
def amoNew (op : AmoOp) (w old b x : Nat) : Nat :=
  match op with
  | .add => (old + b) % 2 ^ w
  | .band => old &&& b
  | .bor => old ||| b
  | .bxor => old ^^^ b
  | .min => if signedOf w b < signedOf w old then b else old
  | .max => if signedOf w old < signedOf w b then b else old
  | .swap => b
  | .cas => if old = x then b else old
  | .incw => if b ≤ old then 0 else old + 1
  | .fadd => if w = 16 then Fmt.addRne .bf16 old b else Fmt.addRne .fp32 old b

/-- An exact-sum add, clamped to 64 bits at the home, which sets STATUS.OVF where it clamps (R225). -/
def exactAdd (old b : Nat) : Nat × Bool :=
  let v := signedOf 64 old + signedOf 64 b
  if (2 : Int) ^ 63 - 1 < v then (2 ^ 63 - 1, true)
  else if v < -(2 : Int) ^ 63 then (2 ^ 63, true)
  else (wrapTo 64 v, false)

/-- The range entry of a main-memory address in the current phase. -/
def State.entryOf (s : State) (va : Nat) : Option (Nat × MapEntry) := if isMain va then s.cx.find va else none

/-- Whether an address lies in a pool's metadata pages. -/
def MapEntry.inMeta (e : MapEntry) (va : Nat) : Bool := e.kind == 2 && (va - e.base.toNat) / 65536 < e.metaPages

/-- The write of a read-modify-write, which carries on its chain (R52, R55). -/
def rmwWrite (d va p : Nat) (bs : List Byte) : M Unit := do
  chained (writeUnit d va p bs)
  modS fun s => s.remark va p

/-- One read-modify-write at the home of `va` of `n` bytes: the old value and the physical address (R117, R225, R310). `se` says that
it may address the synchronisation-engine window (R44), `exact` that the operation is a 64-bit `amo.add` or a `gsc` add. -/
def rmw (se : Bool) (va n : Nat) (exact : Bool) (add32 : Bool) (f : Nat → Nat) (operand : Nat) : M (Nat × Nat) := do
  let p ← translate .atomic se exact va
  atomically p n do
  let s ← getS
  let d := s.blk.die.val
  let old := leNat (← readUnit d va p n)
  match s.entryOf va with
  | some (i, e) =>
    if e.inMeta va then
      if !add32 then trapAt 0x32 va
      let o ← refAdd i e va (va - e.base.toNat) operand
      return (o, p)
    else if e.kind = 5 then
      let (v, c) := exactAdd old operand
      rmwWrite d va p (leBytes n v)
      if c then setSt stOVF
      return (old, p)
    else
      rmwWrite d va p (leBytes n (f old))
      return (old, p)
  | none =>
    rmwWrite d va p (leBytes n (f old))
    return (old, p)

/-- A NaN that an add at a home leaves in memory sets STATUS.NANS (R74). -/
def noteNan (g : Fmt) (n : Nat) : M Unit := if (g.value false n).isNan then setSt stNANS else pure ()

/-- An fp32 add of an engine command at the home of `va` (R161, R229): the old value and the physical address. -/
def homeAdd (va v : Nat) : M (Nat × Nat) := do
  let (old, p) ← rmw false va 4 false false (fun old => amoNew .fadd 32 old v 0) v
  noteNan .fp32 (amoNew .fadd 32 old v 0)
  return (old, p)

end Sys2Proof.Machine
end

