-- ==== Sys2Proof/Machine/CMem.lean ====
section
/-! DEFINITION. The c strand's loads, stores, atomics, rings, `rpopn` and code tables (R104, R116, R117, R122, R123,
R131), and the responses to accesses (R104, R286). -/

namespace Sys2Proof.Machine

/-! ## Loads and stores (R116) -/

/-- A result that is still in flight, with its place in its destination held; s63 discards it. -/
def defer (x : Inflight) : M Unit :=
  match x.dst with
  | .reg n => if x.eng = .c ∧ n = 63 then pure () else do
      scoreboard x.eng x.dst
      modBlk fun b => { b with inflight := b.inflight ++ [x] }
  | .port (.q n) => do
    portTurn x.eng x.dst
    let b ← getBlk
    waitUntil ((b.q[n]).length + b.inflightTo x.dst < 16)
    modBlk fun b => { b with inflight := b.inflight ++ [x] }
  | .port (.vq n) => do
    portTurn x.eng x.dst
    let b ← getBlk
    waitUntil ((b.vq[n]).length + b.inflightTo x.dst < 4)
    modBlk fun b => { b with inflight := b.inflight ++ [x] }
  | .port (.g _) => trap 0x02

/-- The effective address of base and signed offset; misaligned to `n` bytes it raises trap 0x33 (R47, R116). -/
def effAddr (base : Fin 64) (off : Int) (n : Nat) : M Nat := do
  scoreboard .c (.reg base)
  let ea := ((← getBlk).sreg base + BitVec.ofInt 64 off).toNat
  if ea % n ≠ 0 then trapAt 0x33 ea
  return ea

/-- A load of `n` bytes: from the block's own slice its result is written at once, from elsewhere on response (R104), and its read may
take effect then (R53). -/
def execLd (words n : Nat) (p : Pred) (d : Opd) (base : Fin 64) (off : Int) (s : State) :
    Host.Outcome State Fault Refusal :=
  issue .c words p false (dropAll .c [] [d]) (thenGo do
    let o := (← latch .c).order
    roundScope o
    let ea ← effAddr base off n
    scoreboard .c d
    let v := BitVec.ofNat 64 (leNat (← loadAs .c true ea n))
    let pa ← aside (translate .read true true ea)
    order .c (loadOrd o) pa n
    if (← getS).ownSlice pa then writeS .c d v
    else
      let l ← keepRead .c o n [(ea, pa, [0])]
      defer { eng := .c, dst := d, sval := v, vval := vzero, late := l }
    portRelease .c [d]) s

/-- A store of `n` bytes. -/
def execSt (words n : Nat) (p : Pred) (d : Opd) (base : Fin 64) (off : Int) (s : State) :
    Host.Outcome State Fault Refusal :=
  issue .c words p false (dropAll .c [d] []) (thenGo do
    let o := (← latch .c).order
    roundScope o
    let ea ← effAddr base off n
    let v ← readS .c d
    portAcquire .c [d]
    let pa ← storeAs .c true ea (leBytes n v.toNat)
    order .c (storeOrd o) pa n) s

/-- IMM6 as an offset scaled by the width (R116). -/
def scaled (i : BitVec 6) (n : Nat) : Int := i.toInt * n

/-- `c.ld.b` (R116). -/
def execCLdB (x : LdArgs) (s : State) : Host.Outcome State Fault Refusal := execLd 1 1 x.pred x.d x.a (scaled x.off 1) s

/-- `c.ld.h` (R116). -/
def execCLdH (x : LdArgs) (s : State) : Host.Outcome State Fault Refusal := execLd 1 2 x.pred x.d x.a (scaled x.off 2) s

/-- `c.ld.w` (R116). -/
def execCLdW (x : LdArgs) (s : State) : Host.Outcome State Fault Refusal := execLd 1 4 x.pred x.d x.a (scaled x.off 4) s

/-- `c.ld.d` (R116). -/
def execCLdD (x : LdArgs) (s : State) : Host.Outcome State Fault Refusal := execLd 1 8 x.pred x.d x.a (scaled x.off 8) s

/-- `c.st.b` (R116). -/
def execCStB (x : LdArgs) (s : State) : Host.Outcome State Fault Refusal := execSt 1 1 x.pred x.d x.a (scaled x.off 1) s

/-- `c.st.h` (R116). -/
def execCStH (x : LdArgs) (s : State) : Host.Outcome State Fault Refusal := execSt 1 2 x.pred x.d x.a (scaled x.off 2) s

/-- `c.st.w` (R116). -/
def execCStW (x : LdArgs) (s : State) : Host.Outcome State Fault Refusal := execSt 1 4 x.pred x.d x.a (scaled x.off 4) s

/-- `c.st.d` (R116). -/
def execCStD (x : LdArgs) (s : State) : Host.Outcome State Fault Refusal := execSt 1 8 x.pred x.d x.a (scaled x.off 8) s

/-- Bytes of an access width. -/
def widBytes : Wid → Nat
  | .b => 1
  | .h => 2
  | .w => 4
  | .d => 8

/-- `c.ld`, wide form (R116). -/
def execCLdWide (x : LdWArgs) (s : State) : Host.Outcome State Fault Refusal :=
  execLd 2 (widBytes x.wid) x.pred x.d x.a x.off.toInt s

/-- `c.st`, wide form (R116). -/
def execCStWide (x : LdWArgs) (s : State) : Host.Outcome State Fault Refusal :=
  execSt 2 (widBytes x.wid) x.pred x.d x.a x.off.toInt s

/-! ## Atomics (R117) -/

/-- `c.amo` (R117): the read-modify-write takes place at the home, and the strand waits for its response. -/
def execCAmo (x : AmoArgs) (s : State) : Host.Outcome State Fault Refusal :=
  issue .c 2 x.pred false skip (do
    barRound
    let n := if x.w64 then 8 else 4
    let ea ← effAddr x.a x.off.toInt n
    scoreboard .c (.reg x.b)
    scoreboard .c (.reg x.d)
    let b ← getBlk
    let w := 8 * n
    let y := (b.sreg x.b).toNat % 2 ^ w
    let f := fun old => amoNew x.op w old y ((b.sreg x.d).toNat % 2 ^ w)
    let (old, pa) ← byStrand .c n (rmw true ea n (x.op == .add && x.w64) (x.op == .add && !x.w64) f y)
    if x.op = .fadd then noteNan .fp32 (f old)
    order .c x.ord pa n
    return .wait (.atomic { dst := .reg x.d, old := vzero.set 0 (BitVec.ofNat 32 old) |>.set 1 (BitVec.ofNat 32 (old / 2 ^ 32)),
                            home := homeOf pa, addr := ea })) s

/-- The scalar in lanes 0 and 1 of a vector image. -/
def laneDword (v : VReg) : Dword := BitVec.ofNat 64 ((v[0]).toNat + (v[1]).toNat * 2 ^ 32)

/-- A strand's atomic delivers its old value and completes; a push of it orders as its prefix says (R57). -/
def deliverAtomic (e : Eng) (w : AtomicWait) (old : VReg) : M Unit := do
  if e = .c then writeS .c w.dst (laneDword old) else writeVec w.dst old
  portRelease e [w.dst]

/-- Elements of a vector image replaced. -/
def VReg.putElems (v : VReg) (w : Nat) (l : List (List Nat × Nat)) : VReg :=
  ofElems w ((elems w v).zipIdx.map fun x => match l.find? fun y => y.1.contains x.2 with
    | some y => y.2
    | none => x.1)

/-- A result in flight with the parts of its read that have been taken again. -/
def Inflight.again (x : Inflight) (w : Nat) (l : List (List Nat × Nat)) : Inflight :=
  match l with
  | [] => x
  | y :: _ => if x.eng = .c then { x with sval := BitVec.ofNat 64 y.2 } else { x with vval := VReg.putElems x.vval w l }

/-- A result in flight as its response brings it: its read may have taken effect later than it issued (R53). -/
def State.arrive (s : State) (x : Inflight) : Inflight × State :=
  match s.lates.find? fun l => some l.id == x.late with
  | none => (x, s)
  | some l =>
    match takeLate x.late s with
    | .ok (y, t) => (x.again (8 * l.unit) y, t)
    | .error _ => (x, s)

/-- A value that was in flight reaches its destination. -/
def Block.land (b : Block) (x : Inflight) : Block :=
  match x.dst with
  | .reg n => if x.eng = .v then { b with v := b.v.set n x.vval } else b.setScalar x.eng n x.sval
  | .port (.q n) => b.pushQ n x.sval
  | .port (.vq n) => b.pushVq n x.vval
  | .port (.g _) => b

/-- The first entry of a list that satisfies `f` removed. -/
def dropFirst {α : Type} (f : α → Bool) : List α → List α
  | [] => []
  | x :: r => if f x then r else x :: dropFirst f r

/-- Words of the atomic instruction that a strand waits in: 2 for the wide forms. -/
def Strand.waitWords (st : Strand) : Nat :=
  match st.line with
  | some l =>
    let w := l.word (wordOf st.pc)
    stepLen (if selector w = 2 then l.word (wordOf st.pc + 1) else w)
  | none => 1

/-- Words that `Strand.complete` is to add a latched prefix to: the prefix of a waiting instruction is part of it. -/
def Strand.waitSpan (st : Strand) : Nat :=
  match st.line with
  | some l => if selector (l.word (wordOf st.pc)) = 2 && st.pfx = .none then st.waitWords + 1 else st.waitWords
  | none => 1

/-- ACCESS_RESPONSE (R104, R117): the response to result `i` in flight of strand `e` arrives; with no such result, the
response to the atomic it waits for. -/
def execAccessResponse (u : Nat) (e : Eng) (i : Nat) (s : State) : Host.Outcome State Fault Refusal :=
  match s.blockAt u with
  | none => .next s
  | some _ =>
    let t := s.focus u
    match (t.blk.inflight.filter fun x => x.eng == e)[i]? with
    | some x =>
      let (y, t) := t.arrive x
      .next { t with blk := { t.blk.land y with inflight := dropFirst (fun y => y == x) t.blk.inflight } }
    | none =>
      match (t.str e).wait, (t.str e).stop with
      | .atomic w, none =>
        match deliverAtomic e w w.old t with
        | .ok (_, t1) => .next (t1.complete e (t.str e).waitSpan .go)
        | .error _ => .next s
      | _, _ => .next s

/-- The first error-log index that commands may take: below it there is one for each c and v strand of the module, which always
receives an entry (R286; log 23). -/
def logKept : Nat := 512

/-- The lowest error-log index of a die, from `lo` up, that holds no entry, if one is free (R286). -/
def Die.freeLog (d : Die) (lo : Nat) : Option Nat :=
  ((List.range 1024).drop lo).find? fun i => !(d.errlog.any fun x => x.index == i)

/-- The die whose synchronisation engine serves a home: an H-die's entries are kept by die 7 (log 23). -/
def logDie (home : Nat) : Fin 8 := if h : home < 8 then ⟨home, h⟩ else 7

/-- An entry written to the home's error log; answers AUX: the index, or 0xFFFF, and the home (R286). -/
def State.logError (s : State) (e : Eng) (old : VReg) (addr home : Nat) : Dword × State :=
  let d := logDie home
  match (s.dies[d]).freeLog (if e = .c ∨ e = .v then 0 else logKept) with
  | none => (BitVec.ofNat 64 (0xFFFF + home * 2 ^ 16), s)
  | some i =>
    let x : LogEnt := { index := i, ctx := s.blk.ctx, uid := s.blk.uid, eng := e, old := old, addr := addr,
                        die := s.blk.die.val, core := s.blk.core }
    (BitVec.ofNat 64 (i + home * 2 ^ 16),
      { s with dies := s.dies.set d { s.dies[d] with errlog := x :: (s.dies[d]).errlog } })

/-! ## Rings (R48, R49, R122) -/

def Ring.filled (r : Ring) : Nat := (r.tail - r.head).toNat
def Ring.free (r : Ring) : Nat := r.cap.toNat - (r.claimed - r.head).toNat

/-- Address of the slot with a count. -/
def Ring.slotAt (r : Ring) (i : Word) : Dword :=
  r.base + BitVec.ofNat 64 (i.toNat % max r.cap.toNat 1 * r.slot.toNat)

def Block.modRing (b : Block) (n : Fin 32) (f : Ring → Ring) : Block := { b with rings := b.rings.set n (f (b.rings[n])) }

/-- The count of a ring instruction: an immediate, or the low 32 bits of a popped entry. -/
def ringN : RCount → M Nat
  | .imm n => pure n.val
  | .q n => do return (← popQ n).toNat % 2 ^ 32

/-- The ports of a ring count. -/
def ringPorts : RCount → List Opd
  | .imm _ => []
  | .q n => [.port (.q n)]

/-- A ring instruction: a popped count of 0 completes with no change. -/
def execRing (p : Pred) (n : RCount) (dst : List Opd) (f : Nat → M Unit) (s : State) : Host.Outcome State Fault Refusal :=
  issue .c 1 p false (dropAll .c (ringPorts n) dst) (thenGo do
    let k ← ringN n
    portAcquire .c (ringPorts n)
    if k ≠ 0 then
      f k
      portRelease .c dst) s

/-- The scope of a ring instruction: the written one, else block (R49). -/
def ringScope (o : Ord) : Scope := if o.acq || o.rel then o.scope else .blk

/-- What a strand makes known through a ring's tail or head, and what it learns there (R49, R331). -/
def ringRelease (r : Fin 32) (head : Bool) (sc : Scope) : M Unit :=
  modS fun s => s.release (.strand s.blk.uid .c) (.ring s.blk.uid r head) sc

def ringAcquire (r : Fin 32) (head : Bool) (sc : Scope) : M Unit := modS fun s => s.acquire .c (.ring s.blk.uid r head) sc

/-- `c.rclaim` (R49, R122): it sees the slots that `rrel` and matrix pops freed (R331). -/
def execCRclaim (x : RclaimArgs) (s : State) : Host.Outcome State Fault Refusal :=
  execRing x.pred x.n [x.d] (fun n => do
    let r := (← getBlk).rings[x.ring]
    trapIf (r.cap.toNat < n) 0x34
    waitUntil (n ≤ r.free)
    modBlk fun b => b.modRing x.ring fun r => { r with claimed := r.claimed + BitVec.ofNat 32 n }
    ringAcquire x.ring true .blk
    writeS .c x.d (r.slotAt r.claimed)) s

/-- `c.rpub` (R49, R122): a release at the written scope, else block. -/
def execCRpub (x : ROrdArgs) (s : State) : Host.Outcome State Fault Refusal :=
  execRing x.pred x.n [] (fun n => do
    let r := (← getBlk).rings[x.ring]
    trapIf ((r.claimed - r.tail).toNat < n) 0x34
    modBlk fun b => b.modRing x.ring fun r => { r with tail := r.tail + BitVec.ofNat 32 n }
    ringRelease x.ring false (ringScope x.ord)) s

/-- `c.rwait` (R49, R122): an acquire at the written scope, else block. -/
def execCRwait (x : ROrdArgs) (s : State) : Host.Outcome State Fault Refusal :=
  execRing x.pred x.n [] (fun n => do
    let r := (← getBlk).rings[x.ring]
    trapIf (r.cap.toNat < n) 0x34
    waitUntil (n ≤ r.filled)
    ringAcquire x.ring false (ringScope x.ord)) s

/-- `c.rfree` (R49, R122): it sees the slots that were freed (R331). -/
def execCRfree (x : RingArgs) (s : State) : Host.Outcome State Fault Refusal :=
  execRing x.pred x.n [] (fun n => do
    let r := (← getBlk).rings[x.ring]
    trapIf (r.cap.toNat < n) 0x34
    waitUntil (n ≤ r.free)
    ringAcquire x.ring true .blk) s

/-- `c.rrel` (R49, R122): a block-scope release. -/
def execCRrel (x : RingArgs) (s : State) : Host.Outcome State Fault Refusal :=
  execRing x.pred x.n [] (fun n => do
    let r := (← getBlk).rings[x.ring]
    trapIf (r.filled < n) 0x34
    modBlk fun b => b.modRing x.ring fun r => { r with head := r.head + BitVec.ofNat 32 n }
    ringRelease x.ring true .blk) s

/-- Translate every piece of a write and check its permissions, without the checks that the store itself makes. -/
def transWrite : List (Nat × Nat) → M Unit
  | [] => pure ()
  | (a, n) :: r => do
    let _ ← transPiece false a n
    transWrite r

/-- The take of `rpopn` is an acquire at package scope of what was released at the reference counts of the pages (R123). -/
def takeAcquire (e : MapEntry) (m : Nat) : M Unit :=
  modS fun s => ((s.freeRing e).take m).foldl (fun s p => s.acquire .c (locOf (e.pageWord p 0) 4) .pkg) s

/-- What the home reads and writes of a pool's metadata when `n` pages are taken: FREEN, the free ring and the pages' states. -/
def State.takeAddrs (s : State) (e : MapEntry) (n : Nat) : List Nat :=
  e.frame0 :: ((List.range (s.freeN e)).map e.ringAt ++ ((s.freeRing e).take n).map fun p => e.pageWord p 0)

/-- The queues of a block as they stood before an instruction that traps has popped them. -/
def Block.unpop (b old : Block) : Block := { b with q := old.q, pops := old.pops }

/-- `c.rpopn` (R123): the checks in their order, the take, and the array. A store that fails after the take leaves the
pages taken; the trap is precise, so what was popped is not. -/
def execCRpopn (x : RArgs) (s : State) : Host.Outcome State Fault Refusal :=
  issue .c 1 x.pred false (dropAll .c [x.a, x.b] [x.d]) (do
    barRound
    let b ← getBlk
    let a ← readS .c x.a
    let arr ← readS .c x.b
    let d ← readS .c x.d
    let n := d.toNat % 2 ^ 32
    trapIf (n == 0 || 1024 < n) 0x34
    let s ← getS
    match s.entryOf a.toNat with
    | none => trapAt 0x32 a.toNat
    | some (i, e) =>
      if e.kind ≠ 2 then trapAt 0x32 a.toNat
      if e.st = 0 then trapAt 0x30 a.toNat
      if !permits e.perm.toNat .read then trapAt 0x32 a.toNat
      if arr.toNat % 4 ≠ 0 then trapAt 0x33 arr.toNat
      transWrite (piecesOf arr.toNat (4 * n))
      let s ← getS
      onMarksAt i a.toNat e (s.takeAddrs e n)
      (s.takeAddrs e n).forM fun p => metaRead a.toNat p 4
      let m := min n (s.freeN e)
      portAcquire .c [x.a, x.b]
      takeAcquire e m
      let pages ← (fun s => .ok (State.takePages e m s) : M (List Nat))
      modS fun s => s.remarkMeta s.blk.ctx i e
      match ← attempt (byStrand .c 4 (writeVirt false arr.toNat (pages.flatMap fun p => leBytes 4 p))) with
      | .error t =>
        modBlk fun y => y.unpop b
        return .user { t with pc := none }
      | .ok _ =>
        writeS .c x.d (BitVec.ofNat 64 m)
        return .go) s

/-! ## Code tables (R68, R131) -/

/-- `c.ctwr` (R131): thirty-two bytes into the shadow copy. -/
def execCCtwr (x : CtwrArgs) (s : State) : Host.Outcome State Fault Refusal :=
  issue .c 1 x.pred false (dropAll .c [x.a] []) (thenGo do
    let a ← readS .c x.a
    if a.toNat % 32 ≠ 0 then trapAt 0x33 a.toNat
    portAcquire .c [x.a]
    let bs ← loadAs .c false a.toNat 32
    let t : Vector (BitVec 16) 16 := Vector.ofFn fun i => BitVec.ofNat 16 (leNat ((bs.drop (2 * i.val)).take 2))
    modBlk fun b => { b with cts := b.cts.set x.ct { b.cts[x.ct] with shadow := t } }) s

/-- Whether an issued command still holds the retained generation of a table (R68). -/
def Block.retained (b : Block) (t : Fin 8) : Bool :=
  let g := (b.cts[t]).gen - 1
  b.engs.toList.any fun q => (q.queue ++ q.prog).any fun c => c.gens.any fun x => x.1 == t && x.2 == g

/-- A table after `ctswap`: live becomes the retained copy, the shadow becomes live, the generation rises. -/
def CodeTable.swap (t : CodeTable) : CodeTable := { t with kept := t.live, live := t.shadow, gen := t.gen + 1 }

/-- `c.ctswap` (R68, R131). -/
def execCCtswap (x : CtArgs) (s : State) : Host.Outcome State Fault Refusal :=
  issue .c 1 x.pred false skip (thenGo do
    waitUntil (!(← getBlk).retained x.ct)
    modBlk fun b => { b with cts := b.cts.set x.ct (b.cts[x.ct]).swap }) s

end Sys2Proof.Machine
end

