-- ==== Sys2Proof/Machine/Cmd.lean ====
section
/-! DEFINITION. Engine commands in general (R57, R58, R90, R91, R144, R145, R149, R203): attributes, issue into a command
queue, what a command's acquire and release cover, leave (R168, R205, R329), landing and taking stream vectors, completion,
and traps at a command. What a command does unit by unit is in the files of its engine. -/

namespace Sys2Proof.Machine

/-! ## Attribute entries (R90, R91) -/

def attrScope (w : Word) : Nat := w.toNat / 2 ^ 19 % 8
def attrRel (w : Word) : Bool := bitAt w 18
def attrAcq (w : Word) : Bool := bitAt w 17
def attrFv (w : Word) : Bool := bitAt w 16
def attrFlag (w : Word) : Fin 64 := fld 64 w 10
def attrGv (w : Word) : Bool := bitAt w 9
def attrGneg (w : Word) : Bool := bitAt w 8
def attrGs (w : Word) : Fin 16 := fld 16 w 4

/-- Whether an entry has one of the faults of R91. -/
def attrBad (w : Word) : Bool :=
  w.toNat / 2 ^ 22 != 0 || w.toNat % 16 != 0 || 6 ≤ attrScope w ||
    (attrScope w != 0 && !attrAcq w && !attrRel w) || ((attrAcq w || attrRel w) && attrScope w == 0) ||
    (!attrFv w && attrFlag w != 0) || (!attrGv w && (attrGneg w || attrGs w != 0))

/-- The completion flag of an entry. -/
def attrSets (w : Word) : Option (Fin 64) := if attrFv w then some (attrFlag w) else none

/-- The guard of an entry: slot, and whether it is negated. -/
def attrGuard (w : Word) : Option (Fin 16 × Bool) := if attrGv w then some (attrGs w, attrGneg w) else none

/-- The ordering of an entry. -/
def attrOrd (w : Word) : Ord := { rel := attrRel w, acq := attrAcq w, scope := (Scope.ofCode (attrScope w)).getD .strand }

/-- The entry that a command's ATTR field takes: entry 0 reads as no flag, no guard and no ordering (R90). -/
def Block.attr (b : Block) (e : Eng) (n : Fin 32) : Word := if n = 0 then 0 else (b.attrs[cmdIdx e])[n]

/-! ## Command queues (R32, R90, R144) -/

def Block.modEng (b : Block) (e : Eng) (f : EngQ → EngQ) : Block :=
  { b with engs := b.engs.set (cmdIdx e) (f (b.engs[cmdIdx e])) }

def modEng (e : Eng) (f : EngQ → EngQ) : M Unit := modBlk fun b => b.modEng e f

/-- A command with nothing captured but its instruction and address. -/
def Cmd.new (i : CmdOp) (addr : Dword) : Cmd :=
  { op := i, addr := addr, idx := 0, regs := [], flag := none, guard := none, ord := Ord.none, pfx := .none,
    nest := false, issued := 0, pos := 0, slotAt := 0, served := false, count := 0, prog := 0, gens := [], leave := .none,
    targets := [], data := [], held := [], waits := .run, stuck := false, ovf := false, tries := 0, rd := [], wr := [],
    adds := none }

/-- Command register `k` of O1 to O3 as captured. -/
def Cmd.reg (c : Cmd) (k : Nat) : Nat := (c.regs[k]?.getD 0).toNat

/-- The ordinal of a command's flag, the flag issued as a setter (R34). -/
def issueSetter (w : Word) : M (Option (Fin 64 × Nat)) := do
  match attrSets w with
  | some f => return some (f, ← setter f)
  | none => return none

/-- A vacuous setter of an entry's flag (R39). -/
def issueVacuous (w : Word) : M Unit :=
  match attrSets w with
  | some f => vacuousSetter f
  | none => pure ()

/-- The next index of an engine's commands (R280). -/
def takeIndex (e : Eng) : M (BitVec 16) := do
  let n := ((← getBlk).eng e).next
  modEng e fun q => { q with next := q.next + 1 }
  return n

/-- A command as one who reads and writes (R53). -/
def Block.cmdParty (b : Block) (e : Eng) (idx : BitVec 16) : Party := .cmd b.uid e idx

/-- Make accesses, of `n` bytes each, those of a command. -/
def asCmd {α : Type} (e : Eng) (idx : BitVec 16) (n : Nat) (x : M α) : M α := fun s =>
  acting (some { party := s.blk.cmdParty e idx, unit := n }) x s

/-- Put a command into its engine's queue, which blocks while 32 are queued; it knows what its issue hands on (R53). -/
def enqueue (e : Eng) (w : Word) (c : Cmd) : M Unit := do
  let s ← getS
  waitUntil ((s.blk.eng e).queue.length < 32)
  let flag ← issueSetter w
  let idx ← takeIndex e
  modS fun s => s.cmdSees s.blk.uid e idx (attrAcq w)
  modEng e fun q =>
    { q with queue := q.queue ++ [{ c with idx := idx, flag := flag, guard := attrGuard w, ord := attrOrd w, issued := s.time }] }

/-- A command instruction (R39, R90, R91, R139): the faults of its entry come first, whatever the predicate; under a
false predicate it issues a vacuous setter and drops `src`. `pre` is what its own rules check at issue, `regs` are the
registers that the command captures. -/
def issueCmd (e : Eng) (words : Nat) (p : Pred) (attr : Fin 32) (src : List Opd) (pre : M Unit) (i : CmdOp)
    (regs : Block → List Dword) (s : State) : Host.Outcome State Fault Refusal :=
  let w := s.blk.attr e attr
  issue e words p false (do
      trapIf (attrBad w) 0x02
      src.forM (dropSrc e)
      issueVacuous w
      return .go)
    (thenGo do
      trapIf (attrBad w) 0x02
      roundScope (attrOrd w)
      pre
      let st ← getStr e
      let b ← getBlk
      enqueue e w { Cmd.new i st.pc with regs := regs b, pfx := st.pfx }) s

/-! ## Rounds (R136, R139, R140) -/

/-- Whether a command was issued after the round mark. -/
def Block.ofRound (b : Block) (e : Eng) (idx : BitVec 16) : Bool :=
  match b.scout.mark with
  | some m => b.scout.open_ && (idx - m.nexts[cmdIdx e]).toNat < 2 ^ 15
  | none => false

/-- Whether ranges lie wholly inside one slot's append windows (R136). -/
def Scout.inWindow (x : Scout) (l : List (Nat × Nat)) : Bool :=
  (List.range x.k).any fun k => l.all fun y => x.regions.any fun r =>
    r.1.toNat + k * r.2.toNat ≤ y.1 && y.1 + y.2 ≤ r.1.toNat + (k + 1) * r.2.toNat

/-- Whether the writes of a command are those of a round, which may stand discarded already (R136, R140). -/
def Block.writesRound (b : Block) (e : Eng) (idx : BitVec 16) : Bool :=
  b.ofRound e idx && (b.scout.buffering || b.scout.discarded)

/-- Writes of a command of the round into main memory lie wholly inside one slot's append window, or raise trap 0x28 (R136). -/
def roundWrites (e : Eng) (idx : BitVec 16) (l : List (Nat × Nat)) : M Unit := do
  let b ← getBlk
  let l := l.filter fun x => isMain x.1 && x.2 != 0
  trapIf (b.writesRound e idx && !l.isEmpty && !b.scout.inWindow l) 0x28

/-- A command of the round that writes to a peer package (R136, R140). -/
def roundFar (e : Eng) (idx : BitVec 16) : M Unit := do trapIf ((← getBlk).writesRound e idx) 0x28

/-- A command of the round that writes one range. -/
def roundCopy (e : Eng) (idx : BitVec 16) (va n : Nat) : M Unit := roundWrites e idx [(va, n)]

/-! ## What a command's ordering covers (R57, R58, R153) -/

/-- A range added to a list, newest first, that joins what follows on. -/
def addRange (l : List (Nat × Nat)) (x : Nat × Nat) : List (Nat × Nat) :=
  match l with
  | [] => [x]
  | y :: r => if y.1 + y.2 = x.1 then (y.1, y.2 + x.2) :: r else x :: y :: r

/-- Physical ranges of the 4 KiB pages of a virtual range. -/
def physRanges (k : Acc) (va : Nat) : Nat → Nat → M (List (Nat × Nat))
  | 0, _ => pure []
  | f + 1, n =>
    if n = 0 then pure []
    else do
      let p ← translate k true true va
      let m := min n (4096 - va % 4096)
      let r ← physRanges k (va + m) f (n - m)
      return (p, m) :: r

/-- The bytes that a command has written join those that its release covers. -/
def Cmd.wrote (c : Cmd) (k : Acc) (va n : Nat) : M Cmd := do
  if !c.ord.rel then return c
  return { c with wr := (← physRanges k va (n / 4096 + 2) n).foldl addRange c.wr }

/-- Bytes written at a physical place. -/
def Cmd.wroteP (c : Cmd) (p n : Nat) : Cmd := if c.ord.rel then { c with wr := addRange c.wr (p, n) } else c

/-- Physical address of an address in the space of the peer package at an index (R8). -/
def State.farAt (s : State) (n va : Nat) : Nat := farBase (s.peer n).1 + va

/-- A range that a command reads: the index of the peer package that holds it, or none, its address and its length. -/
abbrev ReadAt := Option Nat × Nat × Nat

/-- Physical ranges of one side of a command's access. -/
def sideRanges (k : Acc) (far : Option Nat) (va n : Nat) : M (List (Nat × Nat)) :=
  match far with
  | none => physRanges k va (n / 4096 + 2) n
  | some p => do
    let s ← getS
    return if n = 0 then [] else [(s.farAt p va, n)]

/-- Physical ranges of what a command reads. -/
def rangesOf : List ReadAt → M (List (Nat × Nat))
  | [] => pure []
  | (far, a, n) :: r => do
    let x ← sideRanges .read far a n
    let y ← rangesOf r
    return x ++ y

/-- What a command is going to read, without any effect of finding it: nothing where it cannot be told. -/
def peek {α : Type} (x : M (List α)) : M (List α) := fun s =>
  match x s with
  | .ok (l, _) => .ok (l, s)
  | .error _ => .ok ([], s)

/-- The acquire of a command, before its first read: of every byte that it is going to read, or dropped, with STATUS.SCX, where
its scope does not hold the home of each (R57, R58, R153). A read of a stream or a ring is none of memory. -/
def Cmd.acquireAt (c : Cmd) (e : Eng) (reads : M (List ReadAt)) : M Cmd := do
  if !c.ord.acq then return c
  let l ← peek do rangesOf (← reads)
  let s ← getS
  if l.all fun x => s.inScope c.ord.scope x.1 then
    modS fun s => l.foldl (fun s x => s.acquireFirst (s.blk.cmdParty e c.idx) c.ord.scope (locOf x.1 x.2)) s
    return { c with rd := l }
  else
    setSt stSCX
    return c

/-- What a command has read since is read by its acquire. -/
def State.acquireRead (s : State) (e : Eng) (c : Cmd) : State :=
  c.rd.foldl (fun s x => s.acquireCmd (s.blk.cmdParty e c.idx) c.ord.scope (locOf x.1 x.2)) s

/-- The release of a command after its last write, dropped, with STATUS.SCX, where its scope does not hold the home of every byte
written (R57, R58, R153). -/
def State.releaseCmd (s : State) (e : Eng) (c : Cmd) : State :=
  if !c.ord.rel then s
  else if c.wr.all fun x => s.inScope c.ord.scope x.1 then
    s.releaseOf s.blk (s.blk.cmdParty e c.idx) (c.wr.map fun x => locOf x.1 x.2) c.ord.scope
  else { s with blk := s.blk.setSt stSCX }

/-! ## Leave (R168, R205, R329) -/

/-- Kinds of operation that ask leave, as `Config.leaveUnits` numbers them: `copyl`, `ngo`, the d commands, the g
commands. -/
def leaveCopyl : Nat := 0
def leaveNgo : Nat := 1
def leaveD : Nat := 2
def leaveG : Nat := 3

def State.modIsl (s : State) (i : Fin 32) (f : Isl → Isl) : State := { s with isls := s.isls.set i (f (s.isls[i])) }

/-- The island of the block in focus. -/
def State.island (s : State) : Fin 32 := islandOf s.blk.die s.blk.core

/-- A request for leave enters its island's list, in arrival order. -/
def State.askLeave (s : State) (e : Eng) (cmd : Option (BitVec 16)) (kind : Nat) : State :=
  s.modIsl s.island fun i =>
    { i with reqs := i.reqs ++ [{ uid := s.blk.uid, eng := e, cmd := cmd, units := Config.leaveUnits kind,
                                  since := s.time }] }

/-- Current returned to the island that granted it. -/
def State.returnLeave (s : State) (isl : Fin 32) (n : Nat) : State := s.modIsl isl fun i => { i with iuse := i.iuse - n }

/-! ## Positions of streams (R50, R149) -/

/-- Positions taken from `early` while they follow the counter. -/
def advanceBy : Nat → Word → List Word → Word × List Word
  | 0, w, l => (w, l)
  | n + 1, w, l => if l.contains w then advanceBy n (w + 1) (l.filter (· != w)) else (w, l)

/-- A position of an in stream has landed. -/
def Stream.land (x : Stream) (p : Word) : Stream :=
  let (w, l) := advanceBy (x.early.length + 1) x.wr (p :: x.early)
  { x with wr := w, early := l }

/-- A position of an out stream has been taken. -/
def Stream.take (x : Stream) (p : Word) : Stream :=
  let (w, l) := advanceBy (x.early.length + 1) x.rd (p :: x.early)
  { x with rd := w, early := l }

/-- Whether the entry of a position to be filled is free. -/
def Stream.roomAt (x : Stream) (p : Word) : Bool := (p - x.rd).toNat < x.cap

/-- Whether a position to be taken has been appended or has landed. -/
def Stream.hasAt (x : Stream) (p : Word) : Bool := (p - x.rd).toNat < x.filled

/-- Fill a position: element bytes and scales, which every reader then sees whole; that another core sees no mixture is the model's
choice (R59; log 7). -/
def fillAt (g : Fin 16) (p : Word) (bs scales : List Byte) : M Unit := do
  let s ← getS
  let x := s.blk.streams[g]
  let a := s.blk.entryAt g p
  let va := s.sliceVa (a - s.blk.slice)
  writePhys va a (bs.take x.vbytes)
  writePhys va (a + 256) scales
  modBlk fun b => b.modStream g fun x => x.land p

/-- Reserve `n` positions that a copy fills or takes. -/
def reserveCopy (g : Fin 16) (n : Nat) : M Word := do
  let p := ((← getBlk).streams[g]).rsv
  modBlk fun b => b.modStream g fun x => { x with rsv := x.rsv + BitVec.ofNat 32 n }
  return p

/-- Reserve `n` positions of an in stream that a command reads. -/
def reserveRead (g : Fin 16) (n : Nat) : M Word := do
  let p := ((← getBlk).streams[g]).rrsv
  modBlk fun b => b.modStream g fun x => { x with rrsv := x.rrsv + BitVec.ofNat 32 n }
  return p

/-- Take the landed vector of an in stream that a command reserved, when it is the next. -/
def takeReserved (g : Fin 16) (p : Word) : M (List Byte) := do
  let x := (← getBlk).streams[g]
  waitUntil (x.filled != 0 && x.rd == p)
  let bs ← readEntry g p
  modBlk fun b => b.modStream g fun x => { x with rd := x.rd + 1 }
  return bs

/-! ## Completion and traps -/

/-- Whether a command passes through its engine's arithmetic pipe, one at a time in start order (R203). -/
def Cmd.piped (c : Cmd) : Bool :=
  match c.op with
  | .mma _ _ => true
  | .mmas _ _ => true
  | .dmv _ => true
  | .dqk _ => true
  | .dpv _ => true
  | .gld _ => true
  | .gsc _ => true
  | _ => false

/-- The progress of a command in its engine's list. -/
def EngQ.put (q : EngQ) (c : Cmd) : EngQ := { q with prog := q.prog.map fun x => if x.idx = c.idx then c else x }

def EngQ.drop (q : EngQ) (idx : BitVec 16) : EngQ := { q with prog := q.prog.filter fun x => x.idx != idx }

/-- The flag of a command becomes complete. -/
def Block.flagDone (b : Block) (c : Cmd) : Block :=
  match c.flag with
  | some (f, n) => b.modFlag f fun g => g.done n
  | none => b

/-- The live nest ends when every instance has been issued and has completed; its leave is returned (R167, R329). -/
def State.nestDone (s : State) : State :=
  match s.blk.nest.live with
  | some l =>
    if l.allIssued && !((s.blk.eng .a).prog.any fun c => c.nest) then
      { s with blk := { s.blk with nest := { s.blk.nest with live := none } } }.returnLeave l.isl l.units
    else s
  | none => s

/-- The completion of a command's flag is a release: the command's writes happen before it (R57). -/
def State.flagRelease (s : State) (e : Eng) (c : Cmd) : State :=
  match c.flag with
  | some (f, n) => s.release (s.blk.cmdParty e c.idx) (.flag s.blk.uid f n) .blk
  | none => s

/-- A completed command leaves its engine: its flag completes, its leave is returned. -/
def State.retire (s : State) (e : Eng) (c : Cmd) : State :=
  let s := s.flagRelease e c
  let b := { s.blk with idle := s.time }.flagDone c
  let s := { s with blk := b.modEng e fun q => { q.drop c.idx with last := if c.piped then some s.time else q.last } }
  (match c.leave with
  | .granted n i => s.returnLeave i n
  | _ => s).nestDone

/-- What the steps of a command answer: its progress and whether it has finished. -/
abbrev Prog := Cmd × Bool

def moreOf (c : Cmd) : M Prog := pure (c, false)
def doneOf (c : Cmd) : M Prog := pure (c, true)

/-- A command that needs leave: it has it, or it asks once and waits (R168). -/
def Cmd.leaveFirst (c : Cmd) (e : Eng) (kind : Nat) (k : M Prog) : M Prog :=
  match c.leave with
  | .granted _ _ => k
  | .waiting _ => stopWith .blocked
  | .none => do
    let t := (← getBlk).cyc
    modS fun s => s.askLeave e (some c.idx) kind
    return ({ c with leave := .waiting t }, false)

/-- How running a command ended. -/
inductive RunEnd
  | finished
  | open_
  | stop (x : Stop)
deriving DecidableEq, Repr

/-- Run a command's units until it finishes, waits or traps; each unit that goes through stands. -/
def runUnits (unit : Cmd → M Prog) : Nat → Cmd → State → Cmd × RunEnd × State
  | 0, c, s => (c, .open_, s)
  | n + 1, c, s =>
    match unit c s with
    | .error x => (c, .stop x, s)
    | .ok ((c, true), t) => (c, .finished, t)
    | .ok ((c, false), t) => runUnits unit n c t

/-- A command leaves its engine without completing: its leave is returned. -/
def State.abandon (s : State) (e : Eng) (c : Cmd) : State :=
  let s := { s with blk := s.blk.modEng e fun q => q.drop c.idx }
  match c.leave with
  | .granted n i => s.returnLeave i n
  | _ => s

/-- Whether the block's round stands discarded. -/
def Block.rerunning (b : Block) : Bool := b.scout.discarded

/-- A trap at a command (R139, R145, R280): it stays in progress until a resume; in a round that can be discarded, the
round is discarded instead and the command goes with it. -/
def State.raiseCmd (s : State) (e : Eng) (c : Cmd) (t : TrapInfo) : State :=
  if s.blk.ofRound e c.idx && s.blk.rerunning then s.abandon e c
  else if s.blk.ofRound e c.idx && s.blk.scout.parallel && t.cause != 0x28 then (s.abandon e c).discardRound true
  else ({ s with blk := s.blk.modEng e fun q => q.put { c with stuck := true, waits := .run } }).takeCmdTrap e c t

/-- A command that stalls on a forwarding mark: since when, and STATUS.LATE (R259). -/
def Cmd.onMark (c : Cmd) (now va : Nat) : Cmd := { c with waits := c.waits.onMark now va }

/-- A command completes with its last unit: what its acquire has read is read, its release is made, and it leaves its engine. -/
def State.completeCmd (s : State) (e : Eng) (c : Cmd) : State := ((s.acquireRead e c).releaseCmd e c).retire e c

/-- Carry a command in progress as far as its waits allow; with its last unit it completes, after its release. -/
def State.runCmd (s : State) (e : Eng) (unit : Cmd → M Prog) (c : Cmd) : Host.Outcome State Fault Refusal :=
  match runUnits unit (2 ^ 32) { c with waits := .run, tries := 0 } s with
  | (c1, .finished, t) => .next (t.completeCmd e c1)
  | (c1, .open_, t) => .next { (t.acquireRead e c1) with blk := (t.acquireRead e c1).blk.modEng e fun q => q.put c1 }
  | (c1, .stop x, t) =>
    let t := t.acquireRead e c1
    let moved := decide (c1 ≠ { c with waits := .run, tries := 0 })
    let keep := fun w : Cmd =>
      { t with blk := { t.blk with idle := if moved then t.time else t.blk.idle }.modEng e fun q => q.put w }
    match x with
    | .trap i => .next (t.raiseCmd e c1 i)
    | .mark va => .next (let u := keep ({ c1 with waits := c.waits }.onMark t.time va); { u with blk := u.blk.setSt stLATE })
    | .freeze => .next (keep { c1 with waits := .freeze })
    | .fault f => .fault f
    | _ => .next (keep { c1 with waits := .blocked })

end Sys2Proof.Machine
end

