-- ==== Sys2Proof/Machine/ACopy.lean ====
section
/-! DEFINITION. Copies and copy lists of the a engine (R150 to R157, R173, R311): what each command does, unit by unit. -/

namespace Sys2Proof.Machine

/-! ## Copy parameters (R151, R152) -/

/-- A copy in memory: `dom` is the DOM code and `fd` says that it applies to the destination. -/
structure CopyMm where
  dst : Nat
  src : Nat
  len : Nat
  dom : Nat
  fd : Bool
deriving DecidableEq, Repr

/-- The peer index of a DOM code (R8). -/
def farOf (dom : Nat) : Option Nat := if 16 ≤ dom then some (dom - 16) else none

def CopyMm.farSrc (x : CopyMm) : Option Nat := if x.fd then none else farOf x.dom
def CopyMm.farDst (x : CopyMm) : Option Nat := if x.fd then farOf x.dom else none

/-- Physical address of an address in the space of the peer at an index, behind its port (R8, R42, R153, R327). -/
def farAddr (n va : Nat) : M Nat := do
  let s ← getS
  if 2 ^ 57 ≤ va then trapAt 0x31 va
  if !portOpen s.links s.blk.die.val (s.peer n).2 then trapAt 0x42 va
  return s.farAt n va

/-- Read one side of a copy. -/
def readSide (far : Option Nat) (va n : Nat) : M (List Byte) :=
  match far with
  | none => readVirt false va n
  | some k => do readPhys va (← farAddr k va) n

/-- Write one side of a copy. -/
def writeSide (far : Option Nat) (va : Nat) (bs : List Byte) : M Unit :=
  match far with
  | none => do
    let _ ← writeVirt false va bs
  | some k => do writePhys va (← farAddr k va) bs

/-- A side has been written. -/
def wroteSide (c : Cmd) (far : Option Nat) (va n : Nat) : M Cmd :=
  match far with
  | none => c.wrote .write va n
  | some p => do
    let s ← getS
    return if n = 0 then c else c.wroteP (s.farAt p va) n

/-- Accesses whose single-copy-atomic unit is `n` bytes (R47, R153). -/
def inUnits {α : Type} (n : Nat) (x : M α) : M α := fun s =>
  acting (s.actor.map fun (a : Actor) => { a with unit := n }) x s

/-- A copy of the round that writes some ranges (R136); no window lies in a peer package. -/
def CopyMm.inRound (x : CopyMm) (e : Eng) (idx : BitVec 16) (l : List (Nat × Nat)) : M Unit :=
  if x.farDst.isSome then roundFar e idx else roundWrites e idx l

/-- An address of a copy: register plus a signed offset. -/
def offAddr (r : Nat) (off : Int) : Nat := (BitVec.ofNat 64 r + BitVec.ofInt 64 off).toNat

/-- Low 32 bits. -/
def low32 (r : Nat) : Nat := r % 2 ^ 32

/-- The kinds of copy that a command instruction names: memory to memory, transposed, into and out of a stream. -/
inductive CopyKind
  | mm (x : CopyMm)
  | tr (x : CopyMm) (rows cols esz : Nat)
  | ms (g : Fin 16) (x : CopyMm)
  | sm (g : Fin 16) (x : CopyMm)
deriving DecidableEq, Repr

/-- A stream number of an O field. -/
def oStream (o : Fin 32) : Fin 16 := Fin.ofNat 16 o.val

/-- The copy that a command stands for (R151, R152, R154). -/
def Cmd.copyKind (c : Cmd) : Option CopyKind :=
  let r1 := c.reg 0
  let r2 := c.reg 1
  let r3 := low32 (c.reg 2)
  let mm := fun n : Nat => CopyMm.mk r1 r2 n 0 false
  match c.op with
  | .copyMm _ => some (.mm (mm r3))
  | .copyMs x => some (.ms (oStream x.o1) (mm r3))
  | .copySm x => some (.sm (oStream x.o2) (mm r3))
  | .copyMmLen x => some (.mm (mm (2 ^ x.o3.val)))
  | .copyMsLen x => some (.ms (oStream x.o1) (mm (2 ^ x.o3.val)))
  | .copySmLen x => some (.sm (oStream x.o2) (mm (2 ^ x.o3.val)))
  | .copyWide x e =>
    let n := if e.lk then 2 ^ x.o3.val else r3
    let y := CopyMm.mk (offAddr r1 e.doff.toInt) (offAddr r2 e.soff.toInt) n e.dom.val e.fd
    if e.kind = 1 then some (.ms (oStream x.o1) y)
    else if e.kind = 2 then some (.sm (oStream x.o2) y)
    else if e.tr then some (.tr y (r3 % 2 ^ 16) (r3 / 2 ^ 16) (2 ^ e.esz.val))
    else some (.mm y)
  | _ => none

/-! ## Memory to memory (R151 to R155) -/

/-- Bytes up to the next 64 KiB granule boundary of the destination (R145). -/
def granuleRest (a n : Nat) : Nat := min n (65536 - a % 65536)

/-- The page of a pool that a copy restores (R311): exactly a whole offloaded or dropped page with a reference, not being
restored already. -/
def restorePage (x : CopyMm) : M (Option (Nat × MapEntry × Nat)) := do
  let s ← getS
  if x.len ≠ 65536 || x.dst % 65536 ≠ 0 || x.farDst.isSome then return none
  match s.entryOf x.dst with
  | none => return none
  | some (i, e) =>
    let p := (x.dst - e.base.toNat) / 65536
    if e.kind = 2 && e.st != 0 && permits e.perm.toNat .write && e.metaPages ≤ p && p < e.npages &&
        (s.pageTier e p == 1 || s.pageTier e p == 2) && s.pageRef e p != 0 then return some (i, e, p)
    else return none

/-- The start of a restore: a loose frame, or the frame of the free ring's head page, which becomes unbacked; with neither,
trap 0x31 (R311). It waits for the marks of the granules that it uses (R259). -/
def startRestore (rgn : Nat) (e : MapEntry) (p va : Nat) : M Unit := do
  let s ← getS
  let used := e.pageWord p 0 :: s.takeAddrs e 1
  onMarksAt rgn va e used
  used.forM fun a => metaRead va a 4
  let s ← getS
  let t := s.pageTier e p
  if s.loose e ≠ 0 then
    let f := s.looseFrame e
    onMarkOf rgn f va
    modS fun s => (s.setMeta (e.frame0 + 4) (s.loose e - 1)).setMeta (e.pageWord p 3) (pageWord3 f true false t)
  else if s.freeN e ≠ 0 then
    let h := s.metaWord (e.ringAt 0)
    let f := s.pageFrame e h
    onMarkOf rgn f va
    modS fun s => ((s.takeFree e).setMeta (e.pageWord h 3) (pageWord3 0 false false 3)).setMeta (e.pageWord p 3)
      (pageWord3 f true false t)
  else trapAt 0x31 va

/-- Bytes of a restore from byte `at_`, into the frame that the page has taken, once the marks of this and of the page's state have
cleared (R259). -/
def restoreWrite (rgn : Nat) (e : MapEntry) (p va at_ : Nat) (bs : List Byte) : M Nat := do
  onMarksAt rgn va e [e.pageWord p 0]
  onMarkOf rgn ((← getS).pageFrame e p) va
  let a := e.frame0 + (← getS).pageFrame e p * 65536 + at_
  writePhys va a bs
  modS fun s => s.remarkFrame s.blk.ctx rgn e a
  return a

/-- The completion of a restore. -/
def finishRestore (rgn : Nat) (e : MapEntry) (p : Nat) : M Unit :=
  modS fun s => (s.setMeta (e.pageWord p 3) (pageWord3 (s.pageFrame e p) false false 0)).remarkMeta s.blk.ctx rgn e

/-- The page that a copy restores, taken when it starts: `started` says that this copy's restore has taken its frame. Answers the
page, and whether it has just been taken. -/
def restoring (e : Eng) (c : Cmd) (x : CopyMm) (started : Bool) : M (Option (Nat × MapEntry × Nat) × Bool) := do
  match ← restorePage x with
  | none => return (none, false)
  | some (i, m, p) =>
    if started then return (some (i, m, p), false)
    else if (← getS).pageRst m p then stopWith .freeze
    else
      x.inRound e c.idx [(x.dst, x.len)]
      startRestore i m p x.dst
      modS fun s => s.remarkMeta s.blk.ctx i m
      return (some (i, m, p), true)

/-- One unit of a copy in memory from byte `at_`: the next granule, or one of a restore's two steps; `rd` reads bytes of the
source. Answers the bytes done, and whether a restore has begun. -/
def copyUnit (e : Eng) (c : Cmd) (x : CopyMm) (rd : Nat → Nat → M (List Byte)) (at_ : Nat) (started : Bool) :
    M (Cmd × Nat × Bool) := do
  let r ← if at_ = 0 then restoring e c x started else pure (none, false)
  match r with
  | (some _, true) => return (c, 0, true)
  | (some (i, m, p), false) =>
    let a ← restoreWrite i m p x.dst 0 (← rd 0 x.len)
    finishRestore i m p
    return (c.wroteP a x.len, x.len, false)
  | (none, _) =>
    let n := granuleRest (x.dst + at_) (x.len - at_)
    if at_ = 0 then x.inRound e c.idx [(x.dst, x.len)]
    writeSide x.farDst (x.dst + at_) (← rd at_ n)
    return (← wroteSide c x.farDst (x.dst + at_) n, at_ + n, false)

/-- Bytes of a copy's source. -/
def CopyMm.read (x : CopyMm) (at_ n : Nat) : M (List Byte) := readSide x.farSrc (x.src + at_) n

/-- A memory-to-memory copy: `count` counts the bytes done. -/
def copyMmUnit (c : Cmd) (x : CopyMm) : M Prog := do
  if x.len ≤ c.count then return (c, true)
  let (c, n, st) ← copyUnit .a c x x.read c.count c.served
  return ({ c with count := n, served := st }, x.len ≤ n)

/-- Bytes of the transposed source: element `q` of the destination is element (`q` mod ROWS, `q` / ROWS) of the source (R154). -/
def readTransposed (x : CopyMm) (rows cols esz n q : Nat) : M (List Byte) := do
  let l ← each (fun k => readSide x.farSrc (x.src + (k % rows * cols + k / rows) * esz) esz)
    ((List.range n).map fun i => q + i)
  return l.flatten

/-- A transposing copy (R154), in the order of its destination; `count` counts the bytes done. -/
def copyTrUnit (c : Cmd) (x : CopyMm) (rows cols esz : Nat) : M Prog := do
  let x := { x with len := rows * cols * esz }
  if x.len ≤ c.count then return (c, true)
  if x.src % esz ≠ 0 then trapAt 0x33 x.src
  if x.dst % esz ≠ 0 then trapAt 0x33 x.dst
  let (c, n, st) ← copyUnit .a c x (fun a n => readTransposed x rows cols esz (n / esz) (a / esz)) c.count c.served
  return ({ c with count := n, served := st }, x.len ≤ n)

/-! ## Streams (R147, R149, R153, R155) -/

/-- Alignment that a stream copy asks of its memory side. -/
def streamAlign (f : Nat) : Nat := if fmtBits f = 4 then 16 else fmtBits f / 8

/-- The checks of a stream copy on its memory side and length, and the direction it needs. -/
def checkStreamCopy (g : Fin 16) (out : Bool) (va len : Nat) : M Unit := do
  let x := (← getBlk).streams[g]
  if va % streamAlign x.format ≠ 0 then trapAt 0x33 va
  trapIf (x.out != out || len % x.vbytes != 0) 0x34

/-- Address of the scale of block `b` (R153). -/
def Stream.scaleAt (x : Stream) (va b : Nat) : Nat := offAddr va (x.soff + b * x.sstr)

/-- Read the scales of `n` blocks from block `b`. -/
def readScales (x : Stream) (far : Option Nat) (va : Nat) : Nat → Nat → M (List Byte)
  | 0, _ => pure []
  | n + 1, b => do
    let y ← inUnits (scaleBytes x.format) (readSide far (x.scaleAt va b) (scaleBytes x.format))
    let r ← readScales x far va n (b + 1)
    return y ++ r

/-- Write scales of blocks from block `b`. -/
def writeScales (x : Stream) (far : Option Nat) (va : Nat) (bs : List Byte) : Nat → Nat → M Unit
  | 0, _ => pure ()
  | n + 1, b => do
    inUnits (scaleBytes x.format) (writeSide far (x.scaleAt va b) (bs.take (scaleBytes x.format)))
    writeScales x far va (bs.drop (scaleBytes x.format)) n (b + 1)

/-- The scales of `n` blocks have been written. -/
def wroteScales (x : Stream) (far : Option Nat) (va : Nat) : Nat → Nat → Cmd → M Cmd
  | 0, _, c => pure c
  | n + 1, b, c => do
    let c ← wroteSide c far (x.scaleAt va b) (scaleBytes x.format)
    wroteScales x far va n (b + 1) c

/-- The virtual ranges of the scales of `n` blocks. -/
def Stream.scaleRanges (x : Stream) (va n : Nat) : List (Nat × Nat) :=
  (List.range n).map fun b => (x.scaleAt va b, scaleBytes x.format)

/-- Blocks with a scale in one vector of a stream. -/
def Stream.nscales (x : Stream) : Nat := if fmtScaled x.format then x.blocks else 0

/-- Whether vector `i` of a command's positions has been moved already: landed, or taken (R145). -/
def Cmd.moved (c : Cmd) (x : Stream) (counter : Word) (i : Nat) : Bool :=
  let p := c.pos + BitVec.ofNat 32 i
  x.early.contains p || 2 ^ 31 ≤ (p - counter).toNat

/-- A copy into a stream: one vector; `prog` counts vectors. -/
def copyMsUnit (c : Cmd) (g : Fin 16) (y : CopyMm) : M Prog := do
  if c.prog = 0 then checkStreamCopy g false y.src y.len
  let x := (← getBlk).streams[g]
  let n := y.len / x.vbytes
  if n ≤ c.prog then return (c, true)
  let i := c.prog
  let p := c.pos + BitVec.ofNat 32 i
  if c.moved x x.wr i then return ({ c with prog := i + 1 }, n ≤ i + 1)
  waitUntil (x.roomAt p)
  let bs ← readSide y.farSrc (y.src + i * x.vbytes) x.vbytes
  let k := x.nscales
  let sc ← readScales x y.farSrc y.src k (i * k)
  fillAt g p bs sc
  return ({ c.wroteP ((← getBlk).entryAt g p) x.vbytes with prog := i + 1 }, n ≤ i + 1)

/-- A copy out of a stream: one vector, into the frame of the page that the copy restores where it restores one (R311). -/
def copySmUnit (c : Cmd) (g : Fin 16) (y : CopyMm) : M Prog := do
  if c.prog = 0 then checkStreamCopy g true y.dst y.len
  let x := (← getBlk).streams[g]
  let n := y.len / x.vbytes
  if n ≤ c.prog then return (c, true)
  let k := x.nscales
  if c.prog = 0 then
    y.inRound .a c.idx ((y.dst, y.len) :: x.scaleRanges y.dst (n * k))
  let i := c.prog
  let p := c.pos + BitVec.ofNat 32 i
  let (r, new) ← if i = 0 || c.served then restoring .a c y c.served else pure (none, false)
  if new then return ({ c with served := true }, false)
  if !c.moved x x.rd i then
    waitUntil (x.hasAt p)
    let bs ← readEntry g p
    match r with
    | some (j, m, q) =>
      let _ ← restoreWrite j m q y.dst (i * x.vbytes) (bs.take x.vbytes)
    | none => writeSide y.farDst (y.dst + i * x.vbytes) (bs.take x.vbytes)
    writeScales x y.farDst y.dst (bs.drop 256) k (i * k)
    modBlk fun b => b.modStream g fun x => x.take p
  match r with
  | some (j, m, q) => if n ≤ i + 1 then finishRestore j m q
  | none => pure ()
  let c ← match r with
    | some (_, m, q) => pure (c.wroteP (m.frame0 + (← getS).pageFrame m q * 65536 + i * x.vbytes) x.vbytes)
    | none => wroteSide c y.farDst (y.dst + i * x.vbytes) x.vbytes
  let c ← wroteScales x y.farDst y.dst k (i * k) c
  return ({ c with prog := i + 1 }, n ≤ i + 1)

/-- The positions that a copy reserves at its start, none where its length is no whole number of vectors (R149). -/
def reserveStream (g : Fin 16) (c : Cmd) (out : Bool) (len : Nat) : M Cmd := do
  let x := (← getBlk).streams[g]
  if x.out != out || len % x.vbytes != 0 then return c
  let p ← reserveCopy g (len / x.vbytes)
  return { c with pos := p }

/-- `sdrain` (R150): one vector of an in stream as it lands, or of an out stream as it is appended. -/
def sdrainUnit (c : Cmd) (g : Fin 16) : M Prog := do
  let n := low32 (c.reg 1)
  if n ≤ c.prog then return (c, true)
  let x := (← getBlk).streams[g]
  let p := c.pos + BitVec.ofNat 32 c.prog
  if x.out then
    if !c.moved x x.rd c.prog then
      waitUntil (x.hasAt p)
      modBlk fun b => b.modStream g fun x => x.take p
  else
    waitUntil (x.filled != 0 && x.rd == p)
    modBlk fun b => b.modStream g fun x => { x with rd := x.rd + 1 }
  return ({ c with prog := c.prog + 1 }, n ≤ c.prog + 1)

/-! ## What a copy reads (R57, R153) -/

/-- The largest of 8, 4, 2 and 1 bytes that divides both addresses and the length (R153). -/
def CopyMm.unit (x : CopyMm) : Nat :=
  match [8, 4, 2].find? fun k => x.dst % k == 0 && x.src % k == 0 && x.len % k == 0 with
  | some k => k
  | none => 1

/-- The single-copy-atomic unit of a copy command's elements (R153, R154). -/
def Cmd.copyAtom (c : Cmd) (b : Block) : Nat :=
  match c.copyKind with
  | some (.mm x) => x.unit
  | some (.tr _ _ _ esz) => esz
  | some (.ms g _) => max 1 (fmtBits (b.streams[g]).format / 8)
  | some (.sm g _) => max 1 (fmtBits (b.streams[g]).format / 8)
  | none => 8

/-- What a copy in memory reads from byte `k` on. -/
def CopyMm.rest (x : CopyMm) (k : Nat) : ReadAt := (x.farSrc, x.src + k, x.len - k)

/-- What a copy command has still to read in memory; a stream is none. -/
def Cmd.copyReads (c : Cmd) : M (List ReadAt) := do
  match c.copyKind with
  | some (.mm x) => return [x.rest c.count]
  | some (.tr x rows cols esz) => return [({ x with len := rows * cols * esz } : CopyMm).rest 0]
  | some (.ms g x) =>
    let y := (← getBlk).streams[g]
    return x.rest (c.prog * y.vbytes) ::
      ((y.scaleRanges x.src (x.len / y.vbytes * y.nscales)).drop (c.prog * y.nscales)).map fun r => (x.farSrc, r)
  | _ => return []

/-- One unit of a copy command. -/
def copyCmdUnit (c : Cmd) : M Prog := do
  inUnits (c.copyAtom (← getBlk)) <| match c.copyKind with
  | some (.mm x) => copyMmUnit c x
  | some (.tr x rows cols esz) => copyTrUnit c x rows cols esz
  | some (.ms g x) => copyMsUnit c g x
  | some (.sm g x) => copySmUnit c g x
  | none => pure (c, true)

/-! ## Copy lists (R156, R157) -/

/-- The fields of a list entry; none where one is out of range. -/
def listEntry (bs : List Byte) : Option CopyMm :=
  let f := fun a n : Nat => leNat ((bs.drop a).take n)
  let dom := f 20 1
  if 2 ^ 24 < f 16 4 || 32 ≤ dom || (11 ≤ dom && dom < 16) || 1 < f 21 1 || f 22 10 != 0 then none
  else some { dst := f 0 8, src := f 8 8, len := f 16 4, dom := dom, fd := f 21 1 == 1 }

/-- Any trap within entry `i` becomes trap 0x3A with the underlying cause. -/
def inEntry {α : Type} (i : Nat) (x : M α) : M α :=
  retrap (fun t => { t with cause := 0x3A, aux := BitVec.ofNat 64 i, sub := t.cause }) x

/-- What a copy list reads for the entry that it stands at (R157). -/
def Cmd.entryReads (c : Cmd) : M (List ReadAt) := do
  let at_ := c.reg 0 + 32 * (low32 (c.reg 2) + c.prog)
  return (none, at_, 32) :: (match listEntry (← readVirt false at_ 32) with
    | some x => [x.rest c.count]
    | none => [])

/-- What a copy list reads from entry `i` on: its entries and their sources, the first of them from byte `k` on. -/
def listReads (base : Nat) : Nat → Nat → Nat → M (List ReadAt)
  | 0, _, _ => pure []
  | n + 1, i, k => do
    let y := match listEntry (← readVirt false (base + 32 * i) 32) with
      | some x => [x.rest k]
      | none => []
    let r ← listReads base n (i + 1) 0
    return (none, base + 32 * i, 32) :: y ++ r

/-- What a copy list has still to read. -/
def Cmd.listReads (c : Cmd) : M (List ReadAt) :=
  let i := low32 (c.reg 2) + c.prog
  Machine.listReads (c.reg 0) (low32 (c.reg 1) - i) i c.count

/-- A trap at a command: of a list, at the entry that it stands at (R157). -/
def Cmd.causeIn (c : Cmd) (t : TrapInfo) : TrapInfo :=
  match c.op with
  | .copyl _ => if t.cause = 0x3A then t
      else { t with cause := 0x3A, aux := BitVec.ofNat 64 (low32 (c.reg 2) + c.prog), sub := t.cause }
  | _ => t

/-- `copyl`: entries in index order; `prog` counts entries done, `count` the bytes done of the next one. -/
def copylUnit (c : Cmd) : M Prog := do
  let base := c.reg 0
  let n := low32 (c.reg 1)
  let i := low32 (c.reg 2) + c.prog
  if base % 32 ≠ 0 then trapAt 0x33 base
  if n ≤ i then return (c, true)
  let body : M Prog := inEntry i do
    match listEntry (← readVirt false (base + 32 * i) 32) with
    | none => trapAt 0x02 (base + 32 * i)
    | some x =>
      if x.len = 0 then return ({ c with prog := c.prog + 1, count := 0, served := false }, n ≤ i + 1)
      let (c, k, st) ← inUnits (x.unit) (copyUnit .a c x x.read c.count c.served)
      if x.len ≤ k then return ({ c with prog := c.prog + 1, count := 0, served := false }, n ≤ i + 1)
      return ({ c with count := k, served := st }, false)
  if 16 < n - low32 (c.reg 2) then c.leaveFirst .a leaveCopyl body else body

end Sys2Proof.Machine
end

