-- ==== Sys2Proof/Machine/ABlock.lean ====
section
/-! DEFINITION. Tensor descriptors, block gathers and scatters, multicasts and scrubs of the a engine (R158 to R164, R173,
R305). -/

namespace Sys2Proof.Machine

/-! ## Tensor descriptors (R158, R159) -/

/-- One dimension of a descriptor: extent, stride, mode (0 none, 1 block, 2 cyclic) and count. -/
structure TDim where
  size : Nat
  stride : Nat
  mode : Nat
  count : Nat
deriving DecidableEq, Repr

/-- A tensor descriptor. -/
structure Tensor where
  base : Nat
  shstride : Nat
  rank : Nat
  esz : Nat
  dims : List TDim
deriving DecidableEq, Repr

/-- The descriptor that 64 bytes hold; none where R158 rejects it, or where ESZ is above 3, which it gives no meaning (log 61). -/
def tensorOf (bs : List Byte) : Option Tensor :=
  let f := fun a n : Nat => leNat ((bs.drop a).take n)
  let dim := fun d : Nat => TDim.mk (f (16 + 4 * d) 4) (f (32 + 4 * d) 4) (f (58 + d) 1 / 64) (f (58 + d) 1 % 16 + 1)
  let rank := f 56 1
  let dims := (List.range rank).map dim
  if rank < 1 || 4 < rank then none
  else if (List.range 4).any fun d => rank ≤ d && (f (16 + 4 * d) 4 != 0 || f (32 + 4 * d) 4 != 0 || f (58 + d) 1 != 0) then none
  else if dims.any fun x => x.size == 0 || x.mode == 3 || (x.mode == 0 && x.count != 1) then none
  else if 16 < (dims.map fun x => x.count).foldl (· * ·) 1 then none
  else if f 57 1 > 3 || f 62 2 != 0 || ((List.range 4).any fun d => f (58 + d) 1 / 16 % 4 != 0) then none
  else if (List.range 16).any fun s => 10 ≤ f 48 8 / 16 ^ s % 16 && f 48 8 / 16 ^ s % 16 < 15 then none
  else some { base := f 0 8, shstride := f 8 8, rank := rank, esz := 2 ^ f 57 1, dims := dims }

/-- Shard number and offset of a coordinate: `w` is the product of the counts before. -/
def locateIn : List TDim → List Nat → Nat → Nat → Nat → Nat × Nat
  | t :: ts, x :: xs, s, w, off =>
    let b := (t.size + t.count - 1) / t.count
    let q := if t.mode = 1 then x / b else if t.mode = 2 then x % t.count else 0
    let l := if t.mode = 1 then x % b else if t.mode = 2 then x / t.count else x
    locateIn ts xs (s + q * w) (w * t.count) (off + l * t.stride)
  | _, _, s, _, off => (s, off)

/-- `locate` of R159: the element's address. The home hint selects a path only. -/
def Tensor.locate (t : Tensor) (x : List Nat) : Nat :=
  let (s, off) := locateIn t.dims x 0 1 0
  (t.base + s * t.shstride + off) % 2 ^ 64

/-! ## Block gathers and scatters (R160, R161) -/

/-- Extent exponents of the four dimensions. -/
def CopybExts (e : CopybExt) : List Nat := [e.ex0.val, e.ex1.val, e.ex2.val, e.ex3.val]

/-- Block positions of a dimension. -/
def blockSpan (size ex : Nat) : Nat := (size + 2 ^ ex - 1) / 2 ^ ex

/-- A block coordinate after IMODE: none for a fault. -/
def blockCoord (imode : Nat) (span : Nat) (k : Int) : Option Nat :=
  if 0 ≤ k && k < span then some k.toNat
  else if imode = 0 then none
  else if imode = 1 then some (if k < 0 then 0 else span - 1)
  else some (k % (span : Int)).toNat

/-- The coordinates of block element `j`, dimension 0 fastest. -/
def blockElem : List Nat → List Nat → Nat → List Nat
  | ex :: es, k :: ks, j => (k * 2 ^ ex + j % 2 ^ ex) :: blockElem es ks (j / 2 ^ ex)
  | _, _, _ => []

/-- Whether a coordinate lies inside the tensor. -/
def Tensor.inside (t : Tensor) (x : List Nat) : Bool := (t.dims.zip x).all fun y => y.2 < y.1.size

/-- Addresses of a block's elements; none outside the tensor. -/
def Tensor.blockAddrs (t : Tensor) (exts ks : List Nat) (n : Nat) : List (Option Nat) :=
  (List.range n).map fun j =>
    let x := blockElem exts ks j
    if t.inside x then some (t.locate x) else none

/-- The block coordinates of index entry `i`: trap 0x34 with the entry for one that IMODE 0 refuses. -/
def entryCoords (t : Tensor) (exts : List Nat) (imode idx i : Nat) : M (List Nat) := do
  let bs ← readVirt false (idx + 4 * t.rank * i) (4 * t.rank)
  let ks := (List.range t.rank).map fun d => signedOf 32 (leNat ((bs.drop (4 * d)).take 4))
  let cs := (ks.zip (t.dims.zip exts)).map fun x => blockCoord imode (blockSpan x.2.1.size x.2.2) x.1
  if cs.any Option.isNone then trapAux 0x34 i
  return cs.map fun c => c.getD 0

/-- Read elements, each once (R161). -/
def readElems (esz : Nat) (l : List Nat) : M (List (Nat × List Byte)) :=
  each (fun va => do return (va, ← readVirt false va esz)) l

/-- A gathered block of elements read: those outside the tensor are zero. -/
def gatherBlock (esz : Nat) (got : List (Nat × List Byte)) (l : List (Option Nat)) : List Byte :=
  l.flatMap fun a => match a with
    | some va => ((got.find? fun x => x.1 == va).map fun x => x.2).getD (List.replicate esz 0)
    | none => List.replicate esz 0

/-- The elements of a scattered block with their bytes. -/
def blockWrites (esz : Nat) : List (Option Nat) → List Byte → List (Nat × List Byte)
  | [], _ => []
  | a :: r, bs => (match a with
    | some va => [(va, bs.take esz)]
    | none => []) ++ blockWrites esz r (bs.drop esz)

/-- Write scattered elements in their order (R161). -/
def scatterElems (l : List (Nat × List Byte)) : M Unit := do
  let _ ← each (fun y => writeVirt false y.1 y.2) l

/-- Contributions to tensor elements in the order of their first appearance, summed in ascending entry order (R161). -/
def addContrib (l : List (Nat × Nat)) (va x : Nat) : List (Nat × Nat) :=
  if l.any fun y => y.1 == va then l.map fun y => if y.1 = va then (va, Fmt.addRne .fp32 y.2 x) else y else l ++ [(va, x)]

/-- The contributions of one block's elements. -/
def contribBlock (l : List (Nat × Nat)) : List (Option Nat) → List Byte → List (Nat × Nat)
  | [], _ => l
  | a :: r, bs =>
    contribBlock (match a with
      | some va => addContrib l va (leNat (bs.take 4))
      | none => l) r (bs.drop 4)

/-- The descriptor of a `copyb`, with the checks of R158 and R160. -/
def copybTensor (c : Cmd) (x : CopybExt) : M Tensor := do
  let a := c.reg 1
  if a % 64 ≠ 0 then trapAt 0x33 a
  match tensorOf (← readVirt false a 64) with
  | none => trap 0x34
  | some t =>
    trapIf (x.add && t.esz != 4) 0x02
    trapIf (((CopybExts x).drop t.rank).any fun k => k != 0) 0x02
    trapIf (2 ^ 20 < 2 ^ (CopybExts x).sum * t.esz) 0x34
    if c.reg 2 % 4 ≠ 0 then trapAt 0x33 (c.reg 2)
    return t

/-- The element addresses of index entries from entry `i`, each with its entry. -/
def entryAddrs (c : Cmd) (x : CopybExt) (t : Tensor) : Nat → Nat → M (List (Nat × List (Option Nat)))
  | 0, _ => pure []
  | n + 1, i => do
    let ks ← entryCoords t (CopybExts x) x.imode.val (c.reg 2) i
    let r ← entryAddrs c x t n (i + 1)
    return (i, t.blockAddrs (CopybExts x) ks (2 ^ (CopybExts x).sum)) :: r

/-- Bytes of a block, and the address of entry `i`'s block on the packed side. -/
def blockLen (x : CopybExt) (t : Tensor) : Nat := 2 ^ (CopybExts x).sum * t.esz
def packedAt (c : Cmd) (x : CopybExt) (t : Tensor) (i : Nat) : Nat := c.reg 0 + i * blockLen x t

/-- Elements of the tensor that entries name. -/
def namedElems (l : List (Nat × List (Option Nat))) : List Nat := l.flatMap fun y => y.2.filterMap id

/-- The blocks of a scatter's packed side, in ascending entry order. -/
def packedBlocks (c : Cmd) (x : CopybExt) (t : Tensor) (l : List (Nat × List (Option Nat))) :
    M (List (List (Option Nat) × List Byte)) :=
  each (fun y => do return (y.2, ← readVirt false (packedAt c x t y.1) (blockLen x t))) l

/-- Element after element joins what the release covers. -/
def wroteElems (k : Acc) (esz : Nat) : List Nat → Cmd → M Cmd
  | [], c => pure c
  | va :: r, c => do wroteElems k esz r (← c.wrote k va esz)

/-- The packed adds of a scatter; the last one's old value, address and home are kept for a response that fails (R286). -/
def sendSums : List (Nat × Nat) → Cmd → M Cmd
  | [], c => pure c
  | y :: r, c => do
    let (old, p) ← homeAdd y.1 y.2
    sendSums r { c with adds := some (vecOfBytes (leBytes 4 old), y.1, homeOf p) }

/-- `copyb` as one unit: a trap leaves nothing of it, and its reissue starts again (R145, R160, R161). Inside a round all that it
writes lies in one slot's append windows (R136). -/
def copybUnit (c : Cmd) (x : CopybExt) : M Prog := do
  let t ← copybTensor c x
  let n := x.nidx.toNat + 1
  let l ← entryAddrs c x t n 0
  let els := namedElems l
  inUnits t.esz <| do
  if !x.scatter then
    let dst := c.reg 0
    roundWrites .a c.idx [(dst, n * blockLen x t)]
    let got ← readElems t.esz els.eraseDups
    let _ ← writeVirt false dst (l.flatMap fun y => gatherBlock t.esz got y.2)
    return (← c.wrote .write dst (n * blockLen x t), true)
  else
    roundWrites .a c.idx (els.map fun va => (va, t.esz))
    let bs ← packedBlocks c x t l
    if !x.add then scatterElems (bs.flatMap fun y => blockWrites t.esz y.1 y.2)
    let c ← sendSums (if x.add then bs.foldl (fun l y => contribBlock l y.1 y.2) [] else []) c
    return (← wroteElems (if x.add then .atomic else .write) t.esz els c, true)

/-- What a `copyb` reads: its descriptor, its index list, and the packed side or the elements that it gathers. -/
def copybReads (c : Cmd) (x : CopybExt) : M (List ReadAt) := do
  let t ← copybTensor c x
  let n := x.nidx.toNat + 1
  let l ← entryAddrs c x t n 0
  return (none, c.reg 1, 64) :: (none, c.reg 2, 4 * t.rank * n) ::
    if x.scatter then [(none, c.reg 0, n * blockLen x t)] else (namedElems l).map fun va => (none, va, t.esz)

/-! ## Multicast (R162 to R164) -/

/-- The multicast group of an index. -/
def Task.mcastGroup (t : Task) (n : Nat) : Option Group := t.groups.find? fun g => g.index == n && g.kind == 2

/-- The arrival counter of a command: a 4-byte-aligned word of the synchronisation-engine window. -/
def checkCounter (va : Nat) : M Unit := do
  if va % 4 ≠ 0 then trapAt 0x33 va
  if va < seWin || seWin + 10 * 2 ^ 24 ≤ va then trapAt 0x31 va
  let _ ← seAddr va

/-- Whether a target has published or failed. -/
def McTarget.final : McTarget → Bool
  | .todo => false
  | .claimed _ => false
  | _ => true

/-- The cause of a failed target. -/
def McTarget.cause : McTarget → Option Byte
  | .failed x => some x
  | .failedClaim _ x => some x
  | _ => none

/-- The mask of failed targets and the cause at the lowest. -/
def mcFailures (l : List McTarget) : Nat × Nat :=
  let fs := l.zipIdx.filterMap fun x => x.1.cause.map fun k => (x.2, k.toNat)
  ((fs.map fun x => 2 ^ x.1).sum, (fs[0]?.map fun x => x.2).getD 0)

/-- `mcast` (R162, R163): its checks and the one read of its source; then it waits for its targets. -/
def mcastUnit (c : Cmd) (x : McastExt) : M Prog := do
  if c.served then
    waitUntil (c.targets.all McTarget.final)
    return (c, true)
  let s ← getS
  match (s.taskAt s.blk.task).bind fun t => t.mcastGroup x.group.val with
  | none => trap 0x34
  | some g =>
    trapIf (64 < g.members.length) 0x34
    if x.ac then checkCounter (c.reg 2)
    let n := x.n.val * 64 * x.sbc.toNat
    let bs ← readVirt false (c.reg 1) n
    return ({ c with served := true, data := bs, targets := List.replicate g.members.length .todo }, false)

/-- The slots of a claim: slot by slot from a count. -/
def writeSlots (r : Ring) (at_ : Word) (sz : Nat) : Nat → List Byte → M Unit
  | 0, _ => pure ()
  | n + 1, bs => do
    let _ ← writeVirt false (r.slotAt at_).toNat (bs.take sz)
    writeSlots r (at_ + 1) sz n (bs.drop sz)

/-- Change a block of the module. -/
def State.modBlock (s : State) (u : Nat) (f : Block → Block) : State :=
  s.mapBlocks fun b => if b.uid = u && b.placed then f b else b

/-- Change a ring of a target, and in the round mark that the target holds unless the change is its own round's (R140). -/
def Block.modRingAt (b : Block) (own : Bool) (n : Fin 32) (f : Ring → Ring) : Block :=
  let b := b.modRing n f
  if own then b
  else
    { b with scout := { b.scout with mark := b.scout.mark.map fun m => { m with rings := m.rings.set n (f (m.rings[n])) } } }

/-- Whether a change that a command makes to block `u` belongs to that block's open round. -/
def State.ownRound (s : State) (c : Cmd) (u : Nat) : Bool := u == s.blk.uid && s.blk.ofRound .a c.idx

/-- The block of a task with an index. -/
def State.memberBlock (s : State) (task i : Nat) : Option Block :=
  s.blocks.find? fun b => b.placed && b.task == task && b.bidx.toNat == i

/-- The unpublished multicast claims on a ring of block `u`, by the count that each has claimed (R163). -/
def State.claimsOn (s : State) (u : Nat) (ring : Fin 32) : List Word :=
  s.blocks.flatMap fun b => (b.eng .a).prog.flatMap fun c => match c.op with
    | .mcast x e =>
      let g := ((s.taskAt b.task).bind fun t => t.mcastGroup e.group.val).map fun g => g.members
      if x.o1 != ring then []
      else c.targets.zipIdx.filterMap fun y =>
        if ((g.bind fun l => l[y.2]?).bind fun i => s.memberBlock b.task i).map (fun z => z.uid) != some u then none
        else match y.1 with
          | .claimed a => some a
          | .failedClaim a _ => some a
          | _ => none
    | _ => []

/-- Whether a claim waits for an earlier multicast claim of its ring that is unpublished. -/
def State.behindClaim (s : State) (u : Nat) (ring : Fin 32) (at_ : Word) : Bool :=
  (s.claimsOn u ring).any fun a => a != at_ && (at_ - a).toNat < 2 ^ 31

/-- Claim and write at a target whose block is `t`: the target's new standing (R163, R164). Where the target's ring lies in main
memory and a block of the transfer is in a round, R136 names no source for the write: it is performed at once and not barred
(DESIGN CHOICE, log 61). -/
def mcClaim (c : Cmd) (x : McastExt) (ring : Fin 32) (t : Block) : M McTarget := do
  let r := t.rings[ring]
  let n := x.n.val
  if r.slot.toNat ≠ 64 * x.sbc.toNat || r.cap.toNat < n then return .failed 0x34
  waitUntil (n ≤ r.free)
  let own := (← getS).ownRound c t.uid
  modS fun s => s.modBlock t.uid fun b => b.modRingAt own ring fun r => { r with claimed := r.claimed + BitVec.ofNat 32 n }
  match ← attempt (writeSlots r r.claimed (64 * x.sbc.toNat) n c.data) with
  | .error e => return .failedClaim r.claimed (BitVec.ofNat 8 e.cause)
  | .ok _ => return .claimed r.claimed

/-- Publish a claim once every earlier multicast claim of the ring has published: a release at the command's scope, which no
home of a slot drops (R49), the tail, then the arrival counter. A fault of the counter's add changes nothing else (R163 does not say
what it does; log 61). -/
def mcPublish (c : Cmd) (x : McastExt) (ring : Fin 32) (t : Block) (at_ : Word) : M McTarget := do
  waitUntil (!(← getS).behindClaim t.uid ring at_)
  if c.ord.rel then modS fun s => s.release (s.blk.cmdParty .a c.idx) (.ring t.uid ring false) c.ord.scope
  let own := (← getS).ownRound c t.uid
  modS fun s => s.modBlock t.uid fun b => b.modRingAt own ring fun r => { r with tail := r.tail + BitVec.ofNat 32 x.n.val }
  if x.ac then
    let _ ← attempt (rmw true (c.reg 2) 4 false false (fun old => (old + 1) % 2 ^ 32) 1)
  return .done

/-- One target of a multicast goes on: none where it has to wait. -/
def mcDeliver (c : Cmd) (x : McastExt) (ring : Fin 32) (m : Nat) : M Cmd := do
  let s ← getS
  let task := s.taskAt s.blk.task
  let i := ((task.bind fun t => t.mcastGroup x.group.val).bind fun g => g.members[m]?).getD 0
  let ended := match task with
    | some t => t.doneIdx.contains i
    | none => true
  let put := fun t : McTarget => { c with targets := c.targets.set m t }
  match c.targets[m]?, s.memberBlock s.blk.task i with
  | some .todo, none => if ended then return put (.failed 0x34) else stopWith .blocked
  | some .todo, some b =>
    match ← mcClaim c x ring b with
    | .claimed a =>
      let s ← getS
      match s.memberBlock s.blk.task i with
      | some b => if s.behindClaim b.uid ring a then return put (.claimed a) else return put (← mcPublish c x ring b a)
      | none => return put (.claimed a)
    | t => return put t
  | some (.claimed a), some b => return put (← mcPublish c x ring b a)
  | _, _ => stopWith .blocked

/-! ## Scrub (R173, R305) -/

/-- Bytes of one scrub group, and of a Timetable slot, of a die (R169, R305). -/
def slotBytes (d : Nat) : Nat := if d < 4 then 4096 else 16384

/-- Any translation trap of a scrub is trap 0x32 (R173, R174). -/
def scrubTrap {α : Type} (x : M α) : M α :=
  retrap (fun t => if t.cause = 0x33 || t.cause = 0x34 || t.cause = 0x35 then t else { t with cause := 0x32 }) x

/-- Physical address of a unit to be scrubbed: memory of a die's controllers, which the context may read and write (R173 does not say
which permission it needs; log 61). -/
def scrubAddr (va : Nat) : M Nat := scrubTrap do
  let p ← translate .read false true va
  let _ ← translate .write false true va
  match physKind p with
  | .dram _ => return p
  | _ => trapAt 0x32 va

/-- What a unit shows: 0 nothing, 1 an error that its code corrects, which is written back corrected, 2 one that cannot be
corrected, which is written back poisoned (R173, R309). -/
def scrubOne (va : Nat) : M Nat := do
  let u := (← scrubAddr va) / 64
  let s ← getS
  if s.poison.contains u then return 2
  if !s.upsets.contains u then return 0
  modS fun s => { s.countUnit (64 * u) false with upsets := s.upsets.filter (· != u) }
  return 1

/-- Scrub units from `va`. -/
def scrubUnits : Nat → Nat → M (List Byte)
  | 0, _ => pure []
  | n + 1, va => do
    let x ← scrubOne va
    let r ← scrubUnits n (va + 64)
    return BitVec.ofNat 8 x :: r

/-- The die whose maintenance slots serve the next group of a scrub. -/
def scrubDie (c : Cmd) : M Nat := do
  let p ← scrubAddr (c.reg 0 + c.prog)
  return homeOf p

/-- One scrub group in a maintenance slot: `prog` counts bytes done. -/
def scrubGroup (c : Cmd) : M Cmd := do
  let len := c.reg 1
  let d ← scrubDie c
  let n := min (slotBytes d) (len - c.prog)
  let x ← scrubUnits (n / 64) (c.reg 0 + c.prog)
  return { c with prog := c.prog + n, data := c.data ++ x }

/-- The bitmap of the units that showed any error. -/
def scrubBitmap (units : List Byte) : List Byte :=
  (List.range ((units.length + 7) / 8)).map fun i =>
    BitVec.ofNat 8 (((units.drop (8 * i)).take 8).zipIdx.map fun x => if x.1 = 0 then 0 else 2 ^ x.2).sum

/-- The result block of R173. -/
def scrubResult (units : List Byte) : List Byte :=
  leBytes 4 (units.filter fun x => x == 1).length ++ leBytes 4 (units.filter fun x => x == 2).length ++ scrubBitmap units

/-- Check that every unit of a scrub's range is memory of a die's controllers. -/
def scrubRange : Nat → Nat → M Unit
  | 0, _ => pure ()
  | n + 1, va => do
    let _ ← scrubAddr va
    scrubRange n (va + 4096)

/-- `scrub`: its checks first; its groups run in maintenance slots; then the result block. -/
def scrubUnit (c : Cmd) : M Prog := do
  let base := c.reg 0
  let len := c.reg 1
  if !c.served then
    if base % 64 ≠ 0 then trapAt 0x33 base
    trapIf (len % 64 != 0 || len < 64 || 2 ^ 24 < len) 0x34
    if c.reg 2 % 8 ≠ 0 then trapAt 0x33 (c.reg 2)
    scrubRange ((len + base % 4096 + 4095) / 4096) (base - base % 4096)
    return ({ c with served := true }, false)
  waitUntil (len ≤ c.prog)
  let _ ← scrubTrap (writeVirt false (c.reg 2) (scrubResult c.data))
  let c ← c.wrote .write base len
  return (← c.wrote .write (c.reg 2) (scrubResult c.data).length, true)

end Sys2Proof.Machine
end

