-- ==== Sys2Proof/Machine/Ldt.lean ====
section
/-! DEFINITION. The Timetable (R169 to R172): slots, the slot that an `ldt` takes, its slips, and when its vectors become
readable. Time is in 1/90 ns. -/

namespace Sys2Proof.Machine

/-- Slot length and rotation of a die (R169). -/
def slotLen (d : Nat) : Nat := if d < 4 then 288 else 144
def rotation (d : Nat) : Nat := if d < 4 then 23040 else 18432

/-- 40 ns: the distance of a cut-off from its slot (R171). -/
def cutLead : Nat := 40 * nsUnits

/-- The slot number of a core's ordinal; none where it has no such slot (R169, R170). -/
def Block.slotNo (b : Block) (j : Nat) : Option Nat :=
  if b.die.val < 4 then
    if j = 0 then some b.core else if j = 1 then b.slot else none
  else if j < 4 then some (b.core + 32 * j) else none

/-- The first start of slot `n` at or after `t`. -/
def slotFrom (d n t : Nat) : Nat :=
  let a := n * slotLen d
  a + (t - a + rotation d - 1) / rotation d * rotation d

/-- The first target slot of an `ldt`: the first at least 40 ns after its issue. -/
def Block.firstSlot (b : Block) (c : Cmd) (j : Nat) : Nat := slotFrom b.die.val ((b.slotNo j).getD 0) (c.issued + cutLead)

/-- The target slot of an `ldt`: a later one where it has slipped, else the first. -/
def Block.ldtSlot (b : Block) (c : Cmd) (j : Nat) : Nat := if c.slotAt ≠ 0 then c.slotAt else b.firstSlot c j

/-- Element vectors of one slot. -/
def ldtVectors (d : Nat) (x : Stream) : Nat := slotBytes d / x.vbytes

/-- When vector `i` of `n` becomes readable after the slot's start: the numerator over n - 1 (R171). -/
def readyAfter (d i n : Nat) : Nat :=
  let t0 := if d < 4 then 360 * nsUnits else 512 * nsUnits
  let t1 := if d < 4 then 380 * nsUnits else 544 * nsUnits
  t0 * (n - 1) + (t1 - t0) * i

/-- The checks of an `ldt` (R170). A slot that is no whole number of vectors counts as a partial vector (log 25). -/
def ldtCheck (c : Cmd) (x : CArgs) : M Unit := do
  let s ← getS
  let b := s.blk
  let d := b.die.val
  let g := b.streams[oStream x.o1]
  let va := c.reg 1
  trapIf ((b.slotNo x.o3.val).isNone || g.out || fmtScaled g.format || slotBytes d % g.vbytes != 0 ||
    g.cap < ldtVectors d g) 0x34
  if va % slotBytes d ≠ 0 then trapAt 0x33 va
  match s.entryOf va with
  | none => trapAt 0x32 va
  | some (_, e) =>
    if e.st = 0 then trapAt 0x30 va
    if !(e.dies.length == 1 && homeOf (e.phys (va - e.base.toNat)) == d) || !permits e.perm.toNat .read then trapAt 0x32 va

/-- The granules of a pool that an access to byte `off` of it waits for: its metadata and its frame (R259, R310). -/
def State.poolGranules (s : State) (e : MapEntry) (off : Nat) : List Nat :=
  let page := off / 65536
  if page < e.metaPages then [page] else [(e.pageWord page 3 - e.frame0) / 65536, s.pageFrame e page]

/-- Whether an access to an address waits for a granule that carries a forwarding mark (R259). -/
def State.vaMarked (s : State) (va : Nat) : Bool :=
  match s.entryOf va with
  | some (i, e) =>
    let off := va - e.base.toNat
    (if e.kind = 2 then s.poolGranules e off else [off / 65536]).any fun g => s.cx.marked i g
  | none => false

/-- Whether every entry that an `ldt` reserved is free, or holds its vector already (R145). -/
def Block.ldtRoom (b : Block) (c : Cmd) (g : Fin 16) : Bool :=
  let x := b.streams[g]
  (List.range (ldtVectors b.die.val x)).all fun i => c.moved x x.wr i || x.roomAt (c.pos + BitVec.ofNat 32 i)

/-- Count slips of a core (R172, R330). -/
def State.countSlips (s : State) (n : Nat) : State :=
  let k := Fin.ofNat 320 (40 * s.blk.die.val + s.blk.core)
  { s with cores := s.cores.set k { s.cores[k] with slips := sat16 (s.cores[k]).slips n } }

/-- Rotations by which a slot at `at_` must move so that its cut-off lies at or after `t`. -/
def slipsTo (d at_ t : Nat) : Nat := (t + cutLead - at_ + rotation d - 1) / rotation d

/-- `ldt` in its command's own steps: its checks, then it waits until its vectors have landed. -/
def ldtUnit (c : Cmd) (x : CArgs) : M Prog := do
  let b ← getBlk
  if c.served && ldtVectors b.die.val b.streams[oStream x.o1] ≤ c.prog then return (c, true)
  if !c.served then ldtCheck c x
  stopWith .blocked

/-- The start of an `ldt`: it reserves its positions, and cut-offs passed before it started have been missed. -/
def ldtStart (c : Cmd) (x : CArgs) : M Cmd := do
  let s ← getS
  let d := s.blk.die.val
  let g := oStream x.o1
  let y := s.blk.streams[g]
  if y.out || slotBytes d % y.vbytes ≠ 0 || y.cap < ldtVectors d y then return c
  let p ← reserveCopy g (ldtVectors d y)
  let a := s.blk.ldtSlot c x.o3.val
  let k := slipsTo d a s.time
  modS fun s => s.countSlips k
  return { c with pos := p, slotAt := a + k * rotation d, count := s.time }

/-- The core slots of a die that refresh has taken, by number and the start of their rotation (R305, R307). -/
def State.slotTaken (s : State) (d : Fin 8) (n at_ : Nat) : Bool :=
  (s.dies[d]).taken.contains (n, at_ / rotation d.val * rotation d.val)

/-- The `ldt` moves on by one rotation of its slot; `counts` says that it has missed this one, and not one more behind the
same mark (R172). -/
def ldtSlip (c : Cmd) (counts : Bool) (w : Wait) : M Cmd := do
  let d := (← getBlk).die.val
  if counts then modS fun s => s.countSlips 1
  return { c with slotAt := c.slotAt + rotation d, served := false, waits := w }

/-- LDT_CUTOFF for a command that has started (R171, R172): it is served, or slips: for want of a free entry, for refresh that
has taken its slot, or behind a forwarding mark until the first cut-off after the granule has landed. -/
def ldtCut (c : Cmd) (x : CArgs) : M Cmd := do
  ldtCheck c x
  let s ← getS
  let behind := match c.waits with
    | .mark _ _ => true
    | _ => false
  if s.vaMarked (c.reg 1) then
    setSt stLATE
    ldtSlip c (!behind) (.mark (s.blk.firstSlot c x.o3.val) (c.reg 1))
  else if s.slotTaken s.blk.die ((s.blk.slotNo x.o3.val).getD 0) c.slotAt then ldtSlip c true .run
  else if s.blk.ldtRoom c (oStream x.o1) then return { c with served := true, waits := .run }
  else ldtSlip c true .run

/-- A read for an `ldt`: none where it has to slip behind a mark; a page that is not resident is no memory of the
region for it, trap 0x32 (R170, R174; log 25). -/
def ldtRead (va n : Nat) : M (Option (List Byte)) := fun s =>
  match retrap (fun t => if t.cause = 0x31 then { t with cause := 0x32 } else t) (readVirt false va n) s with
  | .ok (bs, t) => .ok (some bs, t)
  | .error (.mark _) => .ok (none, { s with blk := s.blk.setSt stLATE })
  | .error .freeze => .ok (none, s)
  | .error e => .error e

/-- At its slot a served `ldt` reads all of it; where a granule carries a mark by then, the whole `ldt` slips (R172). A mark set
later finds the slot read. -/
def ldtTake (c : Cmd) (x : CArgs) : M Cmd := do
  let y := (← getBlk).streams[oStream x.o1]
  match ← asCmd .a c.idx (max 1 (fmtBits y.format / 8)) (ldtRead (c.reg 1) (slotBytes (← getBlk).die.val)) with
  | none => ldtSlip c true (.mark ((← getBlk).firstSlot c x.o3.val) (c.reg 1))
  | some bs => return { c with data := bs }

/-- LDT_VECTOR_READY (R171): the next vector lands. -/
def ldtReady (c : Cmd) (x : CArgs) : M Cmd := do
  let g := oStream x.o1
  let y := (← getBlk).streams[g]
  let p := c.pos + BitVec.ofNat 32 c.prog
  if c.moved y y.wr c.prog then return { c with prog := c.prog + 1 }
  fillAt g p ((c.data.drop (c.prog * y.vbytes)).take y.vbytes) []
  return { c.wroteP ((← getBlk).entryAt g p) y.vbytes with prog := c.prog + 1 }

/-- A slip of one rotation of a served `ldt`, or of one still to be served (R172, R305, R307, R308): what it has read counts no
more. -/
def Cmd.slipRotation (c : Cmd) (d : Nat) : Cmd := { c with slotAt := c.slotAt + rotation d, data := [] }

/-! ## What is due (R171) -/

/-- The time at which an `ldt` in its engine comes to its next point: its cut-off, its slot, or the ac edge at which its next vector
becomes readable. -/
def Cmd.ldtDue (b : Block) (c : Cmd) (x : CArgs) : Option Nat :=
  let n := ldtVectors b.die.val b.streams[oStream x.o1]
  if c.stuck then none
  else if !c.served then some (b.ldtSlot c x.o3.val - cutLead)
  else if n ≤ c.prog then none
  else if c.data.isEmpty then some c.slotAt
  else
    let k := max 1 (n - 1)
    let t := (c.slotAt * (n - 1) + readyAfter b.die.val c.prog n + k - 1) / k
    some ((t + acUnits b.die - 1) / acUnits b.die * acUnits b.die)

end Sys2Proof.Machine
end

