-- ==== Sys2Proof/Machine/ACmd.lean ====
section
/-! DEFINITION. The a strand (R142 to R150, R165 to R168): its own instructions, the issue of its commands, and the loop
nest. -/

namespace Sys2Proof.Machine

/-! ## ALU and control (R142) -/

/-- `a.add` (R142). -/
def execAAdd (x : RArgs) (s : State) : Host.Outcome State Fault Refusal := execR .a x (fun a b => return a + b) s

/-- `a.sub` (R142). -/
def execASub (x : RArgs) (s : State) : Host.Outcome State Fault Refusal := execR .a x (fun a b => return a - b) s

/-- `a.mul` (R142). -/
def execAMul (x : RArgs) (s : State) : Host.Outcome State Fault Refusal := execR .a x (fun a b => return a * b) s

/-- `a.shl` (R142). -/
def execAShl (x : RArgs) (s : State) : Host.Outcome State Fault Refusal := execR .a x shlOp s

/-- `a.shr` (R142). -/
def execAShr (x : RArgs) (s : State) : Host.Outcome State Fault Refusal := execR .a x shrOp s

/-- `a.mov` (R142). -/
def execAMov (x : UArgs) (s : State) : Host.Outcome State Fault Refusal := execU .a x (fun a => return a) s

/-- `a.cmp` (R142). -/
def execACmp (x : CmpArgs) (s : State) : Host.Outcome State Fault Refusal := execCmp .a x (relHolds x.rel) s

/-- `a.add` with an immediate (R142). -/
def execAAddK (x : KArgs) (s : State) : Host.Outcome State Fault Refusal := execK .a x imm6s (fun a b => return a + b) s

/-- `a.sub` with an immediate (R142). -/
def execASubK (x : KArgs) (s : State) : Host.Outcome State Fault Refusal := execK .a x imm6s (fun a b => return a - b) s

/-- `a.mul` with an immediate (R142). -/
def execAMulK (x : KArgs) (s : State) : Host.Outcome State Fault Refusal := execK .a x imm6s (fun a b => return a * b) s

/-- `a.shl` with an immediate (R142). -/
def execAShlK (x : KArgs) (s : State) : Host.Outcome State Fault Refusal := execK .a x imm6u shlOp s

/-- `a.shr` with an immediate (R142). -/
def execAShrK (x : KArgs) (s : State) : Host.Outcome State Fault Refusal := execK .a x imm6u shrOp s

/-- `a.cmp` with an immediate (R142). -/
def execACmpK (x : CmpKArgs) (s : State) : Host.Outcome State Fault Refusal := execCmpK .a x (relHolds x.rel) s

/-- `a.li` (R142). -/
def execALi (x : LiArgs) (s : State) : Host.Outcome State Fault Refusal := execLi .a x s

/-- `a.jt` (R142). -/
def execAJt (x : JtArgs) (s : State) : Host.Outcome State Fault Refusal := execJt .a x s

/-- `a.ptgt` (R142). -/
def execAPtgt (x : PtgtLArgs) (s : State) : Host.Outcome State Fault Refusal := execPtgtL .a x s

/-! ## Stream registers (R146, R148) -/

/-- Whether a command that has been issued and has not completed names a stream. -/
def Block.named (b : Block) (g : Fin 16) : Bool :=
  b.engs.toList.any fun q => (q.queue ++ q.prog).any fun c => c.stream == some g

/-- The waits of R148: earlier commands that name the stream, and earlier v and d accesses of it. -/
def afterUses (g : Fin 16) : M Unit := do
  let s ← getS
  let pc := (s.str .a).pc.toNat
  waitUntil (!s.blk.named g && !s.toCome .v (vNames g.val) pc && !s.toCome .d (dNames g.val) pc)

/-- The checks of a new SBIND value. -/
def checkSbind (v : Dword) (slice : Nat) : M Unit := do
  let cap := v.toNat / 2 ^ 48
  trapIf (v.toNat % 64 != 0 || v.toNat / 2 ^ 22 % 2 ^ 26 != 0) 0x02
  trapIf (cap == 0 || slice < 64 * (v.toNat / 64 % 2 ^ 16) + 320 * cap) 0x34

/-- A stream with a new SBIND: its positions start again. -/
def Stream.bind (x : Stream) (v : Dword) : Stream :=
  { x with sbind := v, rd := 0, wr := 0, rsv := 0, rrsv := 0, early := [] }

/-- The checks of a new SFMT value. -/
def checkSfmt (x : Stream) : M Unit := do
  trapIf (x.sfmt.toNat % 2 ^ 12 != 0 || 13 ≤ x.format || 8 ≤ x.sfmt.toNat / 2 ^ 20 % 16) 0x02
  trapIf ((fmtScaled x.format && x.sstr < scaleBytes x.format) ||
    (!fmtScaled x.format && (x.soff != 0 || x.sstr != 0))) 0x34

/-- `a.sbind` (R148). -/
def execASbind (x : SsetArgs) (s : State) : Host.Outcome State Fault Refusal :=
  issue .a 1 x.pred false (dropAll .a [x.a] []) (thenGo do
    let v ← readS .a x.a
    checkSbind v (sliceSize (← getBlk).die.val)
    afterUses x.g
    modBlk fun b => b.modStream x.g fun y => y.bind v
    portOrder .a [x.a] []) s

/-- Set SFMT after its checks and waits. -/
def setSfmt (g : Fin 16) (f : Stream → Dword) : M Unit := do
  let y := (← getBlk).streams[g]
  let z := { y with sfmt := f y }
  checkSfmt z
  afterUses g
  modBlk fun b => b.modStream g fun y => { y with sfmt := f y }

/-- `a.sset` from a register (R148). -/
def execASset (x : SsetArgs) (s : State) : Host.Outcome State Fault Refusal :=
  issue .a 1 x.pred false (dropAll .a [x.a] []) (thenGo do
    let v ← readS .a x.a
    setSfmt x.g fun _ => v
    portOrder .a [x.a] []) s

/-- `a.sset` with an immediate (R148): SOFF becomes 0. -/
def execASsetImm (x : SsetIArgs) (s : State) : Host.Outcome State Fault Refusal :=
  issue .a 2 x.pred false skip (thenGo (setSfmt x.g fun _ => x.imm.setWidth 64)) s

/-! ## Commands (R144, R150, R151, R157, R160, R162, R170, R173) -/

/-- The registers that O1 to O3 name, from a register file. -/
def cRegs (a : Vector Dword 32) (x : CArgs) : List Dword := [a[x.o1], a[x.o2], a[x.o3]]

/-- Issue an a command. -/
def issueA (words : Nat) (x : CArgs) (i : CmdOp) (s : State) : Host.Outcome State Fault Refusal :=
  issueCmd .a words x.pred x.attr [] (pure ()) i (fun b => cRegs b.a x) s

/-- `a.copy`, memory to memory (R151). -/
def execACopyMm (x : CArgs) (s : State) : Host.Outcome State Fault Refusal := issueA 1 x (.copyMm x) s

/-- `a.copy`, memory to stream (R151). -/
def execACopyMs (x : CArgs) (s : State) : Host.Outcome State Fault Refusal := issueA 1 x (.copyMs x) s

/-- `a.copy`, stream to memory (R151). -/
def execACopySm (x : CArgs) (s : State) : Host.Outcome State Fault Refusal := issueA 1 x (.copySm x) s

/-- `a.copyl` (R157). -/
def execACopyl (x : CArgs) (s : State) : Host.Outcome State Fault Refusal := issueA 1 x (.copyl x) s

/-- `a.sdrain` (R150). -/
def execASdrain (x : CArgs) (s : State) : Host.Outcome State Fault Refusal := issueA 1 x (.sdrain x) s

/-- `a.scrub` (R173). -/
def execAScrub (x : CArgs) (s : State) : Host.Outcome State Fault Refusal := issueA 1 x (.scrub x) s

/-- `a.ldt` (R170). -/
def execALdt (x : CArgs) (s : State) : Host.Outcome State Fault Refusal := issueA 1 x (.ldt x) s

/-- `a.copy`, memory to memory with a length code (R151). -/
def execACopyMmLen (x : CArgs) (s : State) : Host.Outcome State Fault Refusal := issueA 1 x (.copyMmLen x) s

/-- `a.copy`, memory to stream with a length code (R151). -/
def execACopyMsLen (x : CArgs) (s : State) : Host.Outcome State Fault Refusal := issueA 1 x (.copyMsLen x) s

/-- `a.copy`, stream to memory with a length code (R151). -/
def execACopySmLen (x : CArgs) (s : State) : Host.Outcome State Fault Refusal := issueA 1 x (.copySmLen x) s

/-- `a.copy`, wide form (R151, R152). -/
def execACopyWide (x : CArgs) (e : CopyExt) (s : State) : Host.Outcome State Fault Refusal :=
  issueA 2 x (.copyWide x e) s

/-- `a.copyb` (R160). -/
def execACopyb (x : CArgs) (e : CopybExt) (s : State) : Host.Outcome State Fault Refusal := issueA 2 x (.copyb x e) s

/-- `a.mcast` (R162). -/
def execAMcast (x : CArgs) (e : McastExt) (s : State) : Host.Outcome State Fault Refusal := issueA 2 x (.mcast x e) s

/-- The engine command that an a instruction is, with its operand fields; none for another instruction. -/
def aCmdArgs : Instr → Option (CmdOp × CArgs)
  | .aCopyMm x => some (.copyMm x, x)
  | .aCopyMs x => some (.copyMs x, x)
  | .aCopySm x => some (.copySm x, x)
  | .aCopyl x => some (.copyl x, x)
  | .aSdrain x => some (.sdrain x, x)
  | .aScrub x => some (.scrub x, x)
  | .aLdt x => some (.ldt x, x)
  | .aCopyMmLen x => some (.copyMmLen x, x)
  | .aCopyMsLen x => some (.copyMsLen x, x)
  | .aCopySmLen x => some (.copySmLen x, x)
  | .aCopyWide x e => some (.copyWide x e, x)
  | .aCopyb x e => some (.copyb x e, x)
  | .aMcast x e => some (.mcast x e, x)
  | _ => none

/-- The operand fields of an a command. -/
def CmdOp.cargs : CmdOp → Option CArgs
  | .copyMm x => some x
  | .copyMs x => some x
  | .copySm x => some x
  | .copyl x => some x
  | .sdrain x => some x
  | .scrub x => some x
  | .ldt x => some x
  | .copyMmLen x => some x
  | .copyMsLen x => some x
  | .copySmLen x => some x
  | .copyWide x _ => some x
  | .copyb x _ => some x
  | .mcast x _ => some x
  | _ => none

/-- What an a command has still to read in memory. -/
def aReads (c : Cmd) : M (List ReadAt) :=
  match c.op with
  | .copyl _ => c.listReads
  | .sdrain _ => pure []
  | .scrub _ => pure [(none, c.reg 0 + c.prog, c.reg 1 - c.prog)]
  | .ldt _ => do return [(none, c.reg 1, slotBytes (← getBlk).die.val)]
  | .copyb _ e => copybReads c e
  | .mcast _ e => pure (if c.served then [] else [(none, c.reg 1, e.n.val * 64 * e.sbc.toNat)])
  | _ => c.copyReads

/-- What an a command does when it starts: it reserves stream positions (R149), and its acquire goes before its first read. -/
def aStart (c : Cmd) : M Cmd := do
  let c ← c.acquireAt .a (aReads c)
  match c.op with
  | .sdrain x => do
    let n := low32 (c.reg 1)
    let g := oStream x.o1
    let p ← if ((← getBlk).streams[g]).out then reserveCopy g n else reserveRead g n
    return { c with pos := p }
  | .ldt x => ldtStart c x
  | _ =>
    match c.copyKind with
    | some (.ms g y) => reserveStream g c false y.len
    | some (.sm g y) => reserveStream g c true y.len
    | _ => pure c

/-- One unit of an a command in progress. -/
def aUnit (c : Cmd) : M Prog :=
  match c.op with
  | .copyl _ => copylUnit c
  | .sdrain x => sdrainUnit c (oStream x.o1)
  | .scrub _ => scrubUnit c
  | .ldt x => ldtUnit c x
  | .copyb _ e => copybUnit c e
  | .mcast _ e => mcastUnit c e
  | _ => copyCmdUnit c

/-! ## The loop nest (R165 to R168) -/

/-- `nset` of a level of the shadow set. -/
def nsetLevel (l : Fin 6) (x y : Fin 32) (step : Dword) : M Unit := do
  let b ← getBlk
  match b.nest.shadow.find? fun z => z.1 == l with
  | none =>
    let lv : NestLevel := { count := (b.a[x]).setWidth 32, creg := x, steps := [(y, step)] }
    modBlk fun b => { b with nest := { b.nest with shadow := b.nest.shadow ++ [(l, lv)] } }
  | some (_, lv) =>
    trapIf (2 ≤ lv.steps.length || lv.creg != x) 0x02
    modBlk fun b => { b with nest := { b.nest with
      shadow := b.nest.shadow.map fun z => if z.1 = l then (l, { lv with steps := lv.steps ++ [(y, step)] }) else z } }

/-- `a.nset` (R165). -/
def execANset (x : NsetArgs) (s : State) : Host.Outcome State Fault Refusal :=
  issue .a 1 x.pred false skip (thenGo (nsetLevel x.level x.x x.y (x.step.signExtend 64))) s

/-- `a.nset` with a wide step (R165). -/
def execANsetWide (x : NsetWArgs) (s : State) : Host.Outcome State Fault Refusal :=
  issue .a 2 x.pred false skip (thenGo (nsetLevel x.level x.x x.y (x.step.signExtend 64))) s

/-- The instruction at a word of an a line, by length selector. -/
def aWord (l : LineBuf) (k : Nat) : DecRes :=
  let w := l.word k
  match selector w with
  | 0 => decAP0 w
  | 1 => decAP1 w
  | 3 => decAW w (l.word (k + 1))
  | _ => .illegal

/-- Record a trap at an address. -/
def trapHere {α : Type} (a : Dword) (x : M α) : M α := retrap (fun t => { t with pc := some a }) x

/-- One body command, or its trap. A major that is no engine command's raises trap 0x01 at the `ngo`, with the instruction's address
(R166); the encoding faults of a command, its entry's among them, are recorded at its own word, and so is the bar of a round (R85,
R91, R97, R139; log 44). -/
def bodyCmd (a : Dword) (l : LineBuf) : M NestCmd := do
  let k := wordOf a
  if !isCmdWord .a (l.word k) then trapAt 0x01 a.toNat
  if selector (l.word k) = 3 && linkCount (l.words[0]) ≤ k then trapHere a (trap 0x04)
  match aWord l k with
  | .illegal => trapAt 0x01 a.toNat
  | .reserved => trapHere a (trap 0x02)
  | .ok i =>
    match aCmdArgs i with
    | none => trapAt 0x01 a.toNat
    | some (o, x) =>
      let w := (← getBlk).attr .a x.attr
      trapHere a (trapIf (!i.wf || attrBad w) 0x02)
      let on := (← getStr .a).holds x.pred
      if on then trapHere a (roundScope (attrOrd w))
      return { op := o, on := on, addr := a }

/-- The next `n` instructions of the chain after the one of `len` words at `a`: the body, and where the last stands. -/
def bodyFrom : Nat → Dword → LineBuf → Nat → M (List NestCmd × Dword × LineBuf × Nat)
  | 0, a, l, len => pure ([], a, l, len)
  | n + 1, a, l, len =>
    match following a (l.words[0]) len with
    | none => trapAt 0x01 0
    | some (p, en) => do
      let m ← if en then fetchLine .a (lineOf p) else pure l
      let c ← bodyCmd p m
      let (r, q, k, w) ← bodyFrom n p m (stepLen (m.word (wordOf p)))
      return (c :: r, q, k, w)

/-- The body of an `ngo` (R166). -/
def captureBody (k : Nat) : M (List NestCmd × Dword × LineBuf × Nat) := do
  let st ← getStr .a
  match st.line with
  | none => return ([], st.pc, { addr := 0, words := Vector.replicate 16 0 }, 1)
  | some l => bodyFrom k st.pc l 1

/-- `a.ngo` (R166): its body is checked first; then it waits for the live nest to end, and asks leave. -/
def execANgo (x : NgoArgs) (s : State) : Host.Outcome State Fault Refusal :=
  issue .a 1 x.pred true skip (do
    let _ ← captureBody (x.k1.val + 1)
    waitUntil ((← getBlk).nest.live.isNone)
    let t := (← getBlk).cyc
    modS fun s => s.askLeave .a none leaveNgo
    return .wait (.leave t)) s

/-- The shadow set goes live with leave for `units` of an island: the a strand goes on after the body (R166). -/
def ngoLive (k units : Nat) (isl : Fin 32) : M Flow := do
  let (body, a, l, w) ← captureBody k
  let b ← getBlk
  let live : LiveNest :=
    { levels := b.nest.shadow, body := body, regs := b.a, index := Vector.replicate 6 0, at_ := 0,
      allIssued := b.nest.shadow.any fun z => z.2.count == 0, units := units, isl := isl }
  modBlk fun b => { b with nest := { shadow := [], live := some live } }
  modS State.nestDone
  return .past a l w

/-- `a.nwait` (R167). -/
def execANwait (x : NoArgs) (s : State) : Host.Outcome State Fault Refusal :=
  issue .a 1 x.pred false skip (thenGo do waitUntil ((← getBlk).nest.live.isNone)) s

/-- The registers of an instance: those at `ngo`, stepped by the index vector. -/
def LiveNest.regsNow (l : LiveNest) : Vector Dword 32 :=
  l.levels.foldl (fun r z => z.2.steps.foldl (fun r y =>
    r.set y.1 (r[y.1] + (l.index[z.1]).setWidth 64 * y.2)) r) l.regs

/-- The count of a level, 1 where it is not set. -/
def LiveNest.countOf (l : LiveNest) (k : Nat) : Word := ((l.levels.find? fun z => z.1.val == k).map fun z => z.2.count).getD 1

/-- The next index vector, level 0 innermost; none after the last. -/
def LiveNest.bump (l : LiveNest) : Nat → Nat → Option (Vector Word 6)
  | 0, _ => none
  | n + 1, k =>
    let i := Fin.ofNat 6 k
    if l.index[i] + 1 = l.countOf k then
      (LiveNest.bump l n (k + 1)).map fun v => v.set i 0
    else some (l.index.set i (l.index[i] + 1))

/-- The live nest after one instance. -/
def LiveNest.next (l : LiveNest) : LiveNest :=
  if l.at_ + 1 < l.body.length then { l with at_ := l.at_ + 1 }
  else
    match l.bump 6 0 with
    | some v => { l with at_ := 0, index := v }
    | none => { l with at_ := 0, allIssued := true }

/-- The nest moves on by one instance. -/
def nestNext : M Unit := do
  modBlk fun b => { b with nest := { b.nest with live := b.nest.live.map LiveNest.next } }
  modS State.nestDone

/-- Issue one instance of the live nest (R166): its guard resolves here; a round that has opened since bars what it bars (R139). -/
def issueInstance (n : NestCmd) (l : LiveNest) (x : CArgs) : M Unit := do
  let s ← getS
  let w := s.blk.attr .a x.attr
  if !n.on then
    issueVacuous w
    nestNext
  else
    roundScope (attrOrd w)
    waitUntil ((s.blk.eng .a).prog.length < 16)
    let go ← match attrGuard w with
      | none => pure true
      | some (g, neg) =>
        match s.blk.gs[g] with
        | none => stopWith .blocked
        | some v => pure (v != neg)
    let flag ← issueSetter w
    let idx ← takeIndex .a
    modS fun s => s.cmdSees s.blk.uid .a idx (attrAcq w)
    let c := { Cmd.new n.op n.addr with
                regs := cRegs l.regsNow x, idx := idx, flag := flag, ord := attrOrd w, issued := s.time, nest := true }
    if go then
      let c ← aStart c
      modEng .a fun q => { q with prog := q.prog ++ [c] }
    else modBlk fun b => b.flagDone c
    nestNext

end Sys2Proof.Machine
end

