-- ==== Sys2Proof/Machine/Events.lean ====
section
/-! DEFINITION. The event rings (R284, R285): how an event reaches its function's ring, the H-dies' and dies' buffers, and
acting for a context without a block. -/

namespace Sys2Proof.Machine

/-! ## Acting for a context -/

/-- Run an action with the map, the partition and the place of an agent other than the block in focus: an H-die, a stream
controller or a Porter. -/
def asAgent {α : Type} (d : Fin 8) (ctx part : Nat) (x : M α) : M α := fun s =>
  match x { s with blk := { Block.reset d with ctx := ctx, part := part } } with
  | .ok (a, t) => .ok (a, { t with blk := s.blk })
  | .error e => .error e

/-- The partition that a function is assigned to: V and PART of its VFPART (R319). -/
def State.vfPart (s : State) (f : Nat) : Option (Fin 32) :=
  let v := s.hub.vfpart[Fin.ofNat 64 f]
  if v.getLsbD 5 then some (Fin.ofNat 32 v.toNat) else none

/-- The function of a context. -/
def ctxVf (cx : Nat) : Nat := cx / 16

/-- The partition of a context; 0 where its function has none. -/
def State.ctxPart (s : State) (cx : Nat) : Nat := ((s.vfPart (ctxVf cx)).map fun p => p.val).getD 0

/-- The physical compute dies of a partition. -/
def partDies (w : Word) : List Nat := (List.range 8).filter fun d => !(quadsOf w d).isEmpty

/-- A die from which a partition's H-die work is checked for fenced links: its lowest. -/
def State.partDie (s : State) (p : Nat) : Fin 8 := Fin.ofNat 8 ((partDies (s.hub.partdies[Fin.ofNat 32 p])).headD 0)

/-- Run an action as the H-die does for a context. -/
def asHub {α : Type} (cx : Nat) (x : M α) : M α := fun s =>
  asAgent (s.partDie (s.ctxPart cx)) cx (s.ctxPart cx) x s

/-- Write bytes at a physical address for a partition; a write that fails has no effect. -/
def State.putPhys (s : State) (part p : Nat) (bs : List Byte) : State :=
  match asAgent (s.partDie part) 0 part (writePhys p p bs) s with
  | .ok (_, t) => t
  | .error _ => s

/-- Whether a function is fenced: its TDI is in ERROR, in which the writes to its window are dropped and no packet of it is
read (R324). -/
def State.vfFenced (s : State) (f : Nat) : Bool := (s.vfs[Fin.ofNat 64 f]).tdi == .error

/-! ## Records (R284) -/

/-- The 32 bytes of a record. -/
def Event.bytes (e : Event) : List Byte :=
  [e.typ, e.cause, e.die, e.core] ++ leBytes 4 e.ctx.toNat ++ leBytes 8 e.addr.toNat ++ leBytes 8 e.aux.toNat ++
    leBytes 8 e.time.toNat

/-- Records that a function's ring holds and can hold. -/
def Vf.evRoom (v : Vf) : Bool := v.even && (v.evtail - v.evhead).toNat < 2 ^ v.evlog.toNat

def State.modVf (s : State) (f : Nat) (g : Vf → Vf) : State :=
  { s with vfs := s.vfs.set (Fin.ofNat 64 f) (g (s.vfs[Fin.ofNat 64 f])) }

def State.modDie (s : State) (d : Fin 8) (g : Die → Die) : State := { s with dies := s.dies.set d (g (s.dies[d])) }

/-- The H-die that serves a function (log 13). -/
def hdieFor (f : Nat) : Fin 2 := Fin.ofNat 2 (Config.hdieOf f)

/-- A memory request for a function, by its H-die: dropped while the function is fenced (R324); `rel` makes it a release, which
raises that H-die's clock entry (R56). -/
def State.vfPut (s : State) (f p : Nat) (bs : List Byte) (rel : Bool) : State :=
  if s.vfFenced f then s
  else
    let t := s.putPhys (((s.vfPart f).map fun p => p.val).getD 0) p bs
    if rel then t.hostUp (hdieFor f) else t

/-- Write a record into a ring that has room, with a release at system scope (R284). -/
def State.writeEvent (s : State) (e : Event) : State :=
  let v := s.vfs[Fin.ofNat 64 e.vf]
  let a := v.evbase.toNat + v.evtail.toNat % 2 ^ v.evlog.toNat * 32
  (s.vfPut e.vf a e.bytes true).modVf e.vf fun v => { v with evtail := v.evtail + 1 }

/-- An H-die takes an event, if it can: into the ring, or among the 64 that it holds. -/
def State.hubTake (s : State) (e : Event) : Option State :=
  let h := hdieFor e.vf
  let held := (s.hdies[h]).held
  if (s.vfs[Fin.ofNat 64 e.vf]).evRoom && !(held.any fun x => x.vf == e.vf) then some (s.writeEvent e)
  else if held.length < 64 then
    some { s with hdies := s.hdies.set h { s.hdies[h] with held := held ++ [e] } }
  else none

/-- An event is coalesced: LOST is set and counted. -/
def State.loseEvent (s : State) (e : Event) : State :=
  s.modVf e.vf fun v => { v with evlost := true, evcount := if v.evcount.toNat = 2 ^ 32 - 1 then v.evcount else v.evcount + 1 }

/-- An event of a compute die (R285). -/
def State.dieEvent (s : State) (d : Fin 8) (e : Event) : State :=
  let x := s.dies[d]
  match if x.evbuf.isEmpty then s.hubTake e else none with
  | some t => t
  | none =>
    if x.evbuf.length < 32 then s.modDie d fun x => { x with evbuf := x.evbuf ++ [e] }
    else (s.modDie d fun x => { x with coal := x.coal + 1, coalVf := e.vf }).loseEvent e

/-- An event of an H-die; one that it cannot take is coalesced. -/
def State.hubEvent (s : State) (e : Event) : State := (s.hubTake e).getD (s.loseEvent e)

/-- Module time in ns. -/
def State.nanos (s : State) : Nat := s.time / nsUnits

/-- An event of a context raised at a physical die and core (R284). -/
def State.mkEvent (s : State) (cx : Nat) (typ cause : Nat) (d : Fin 8) (core : Nat) (addr aux : Dword) : Event :=
  let w := s.hub.partdies[Fin.ofNat 32 (s.ctxPart cx)]
  { vf := ctxVf cx, typ := BitVec.ofNat 8 typ, cause := BitVec.ofNat 8 cause, die := BitVec.ofNat 8 (virtDie w d.val),
    core := BitVec.ofNat 8 (virtCore w d.val core), ctx := BitVec.ofNat 32 (cx % 16), addr := addr, aux := aux,
    time := BitVec.ofNat 64 s.nanos }

/-- Two fresh words as one (log 2). -/
def State.freeDword (s : State) : Dword × State :=
  ((Config.freeWord (2 * s.free)) ++ (Config.freeWord (2 * s.free + 1)), { s with free := s.free + 1 })

/-- A link event (type 4) for a function: the spec gives it no address and no AUX, which are free (log 26). -/
def State.linkEvent (s : State) (f : Nat) (cause : Nat) (d : Fin 8) : State :=
  let (a, s) := s.freeDword
  let (x, s) := s.freeDword
  s.dieEvent d { s.mkEvent (16 * f) 4 cause d 0 a x with ctx := 0 }

/-- The function that a fence's event goes to: the lowest one whose partition holds a quad of the die (log 26). -/
def State.fenceVf (s : State) (d : Fin 8) : Option Nat :=
  (List.range 64).find? fun f => match s.vfPart f with
    | some p => !(quadsOf (s.hub.partdies[p]) d.val).isEmpty
    | none => false

/-- The event of a fence (R327). -/
def State.fenceEvent (s : State) (d : Fin 8) : State :=
  match s.fenceVf d with
  | some f => s.linkEvent f 0 d
  | none => s

/-! ## Draining (R285) -/

/-- Held events of a function go into its ring while it has room, in order. -/
def State.drainHeld (f : Nat) : Nat → State → State
  | 0, s => s
  | n + 1, s =>
    let h := hdieFor f
    match (s.hdies[h]).held.find? fun e => e.vf == f with
    | some e =>
      if (s.vfs[Fin.ofNat 64 f]).evRoom then
        State.drainHeld f n ({ s with hdies := s.hdies.set h { s.hdies[h] with
          held := dropFirst (fun x => x.vf == f) (s.hdies[h]).held } }.writeEvent e)
      else s
    | none => s

/-- A die's buffered events go to their H-dies, in order, while these take them. -/
def State.retryEvents (d : Fin 8) : Nat → State → State
  | 0, s => s
  | n + 1, s =>
    match (s.dies[d]).evbuf with
    | [] => s
    | e :: r =>
      match s.hubTake e with
      | some t => State.retryEvents d n (t.modDie d fun x => { x with evbuf := r })
      | none => s

/-- EVENT_RETRY (R285): the buffer empties in order; with room, one type-5 record carries the coalescing count. -/
def execEventRetry (die : Fin 8) (s : State) : Host.Outcome State Fault Refusal :=
  let t := State.retryEvents die 32 s
  let x := t.dies[die]
  if x.coal ≠ 0 ∧ x.evbuf.length < 32 then
    let e := t.mkEvent (16 * x.coalVf) 5 0 die 0 0 (BitVec.ofNat 64 x.coal)
    .next ((t.modDie die fun x => { x with coal := 0 }).dieEvent die { e with ctx := 0 })
  else .next t

/-- EVHEAD_WRITE (R284, R285): the driver has consumed records. -/
def execEvheadWrite (f : Fin 64) (val : Dword) (s : State) : Host.Outcome State Fault Refusal :=
  if s.vfFenced f.val then .next s else
  .next (State.drainHeld f.val 64 (s.modVf f.val fun v => { v with evhead := val.setWidth 32 }))

/-- EVCFG_WRITE (R284): EN and LOG2N, where a value outside 4 to 16 stores 16. -/
def execEvcfgWrite (f : Fin 64) (val : Dword) (s : State) : Host.Outcome State Fault Refusal :=
  if s.vfFenced f.val then .next s else
  let n := val.toNat % 32
  .next (State.drainHeld f.val 64 (s.modVf f.val fun v =>
    { v with even := bitAt (val.setWidth 32) 31, evlog := BitVec.ofNat 5 (if 4 ≤ n && n ≤ 16 then n else 16) }))

end Sys2Proof.Machine
end

