-- ==== Sys2Proof/Machine/Formats.lean ====
section
/-! DEFINITION. Source formats (R62 to R67, R146): the exact values of packed elements, of block-scaled, o4 and c4 blocks,
and of a code table's entries. -/

namespace Sys2Proof.Machine

/-- The floating-point element format of a FORMAT code; none for the integer and block codes. -/
def codeFmt : Nat → Option Fmt
  | 3 => some .fp32
  | 4 => some .bf16
  | 5 => some .fp16
  | 6 => some .e4m3
  | 7 => some .e5m2
  | 8 => some .e2m1
  | _ => none

/-- Whether a FORMAT code is an integer format. -/
def codeInt (f : Nat) : Bool := f < 3

/-- The codes of `w`-bit elements in bytes, element 0 first (R64). -/
def unpackCodes (w : Nat) (bs : List Byte) : List Nat :=
  if w = 4 then bs.flatMap fun b => [b.toNat % 16, b.toNat / 16]
  else if w = 8 then bs.map BitVec.toNat
  else if w = 16 then
    (List.range (bs.length / 2)).map fun i => leNat ((bs.drop (2 * i)).take 2)
  else (List.range (bs.length / 4)).map fun i => leNat ((bs.drop (4 * i)).take 4)

/-- The bytes of `w`-bit codes, element 0 first (R64). -/
def packCodes (w : Nat) : List Nat → List Byte
  | [] => []
  | [x] => if w = 4 then [BitVec.ofNat 8 (x % 16)] else leBytes (w / 8) x
  | x :: y :: r =>
    if w = 4 then BitVec.ofNat 8 (x % 16 + 16 * (y % 16)) :: packCodes w r
    else leBytes (w / 8) x ++ leBytes (w / 8) y ++ packCodes w r

/-- A value times an e8m0 scale; NaN where the code is 0xFF (R65). -/
def scaleBy (e : Nat) (v : Val) : Val := if e = 255 then .nan else v.scale ((e : Int) - 127)

/-- A four-bit two's-complement slot (R66). -/
def sint4 (x : Nat) : Val := .ofInt (signedOf 4 x)

/-- The slots of an o4 block, pair by pair (R66): `cand` counts the markers met so far, and the answer says whether the
block is malformed. -/
def o4Pairs (ftz : Bool) (hdr sc : Nat) : Nat → List Nat → List Val × Bool
  | cand, lo :: hi :: r =>
    let zero : Val := .fin false 0 0
    if lo = 8 ∧ hi = 8 then
      let (l, _) := o4Pairs ftz hdr sc cand r
      (scaleBy sc zero :: scaleBy sc zero :: l, true)
    else if lo = 8 ∨ hi = 8 then
      let nb := if lo = 8 then hi else lo
      let (m, n, bad) :=
        if cand + 1 ≤ 2 then
          let h := if cand + 1 = 1 then hdr / 16 % 16 else hdr % 16
          (scaleBy sc (Fmt.e4m3.value ftz (h * 16 + nb)), scaleBy sc zero, false)
        else (scaleBy sc zero, scaleBy sc (sint4 nb), true)
      let (l, b) := o4Pairs ftz hdr sc (cand + 1) r
      ((if lo = 8 then m :: n :: l else n :: m :: l), bad || b)
    else
      let (l, b) := o4Pairs ftz hdr sc cand r
      (scaleBy sc (sint4 lo) :: scaleBy sc (sint4 hi) :: l, b)
  | _, _ => ([], false)

/-- The values of one block of 32 codes with its scale or header; the flag says that an o4 block is malformed. -/
def blockValues (f : Nat) (ftz : Bool) (tbl : Vector (BitVec 16) 16) (sc : Nat) (codes : List Nat) : List Val × Bool :=
  if f = 9 then (codes.map fun c => scaleBy sc (Fmt.e2m1.value ftz c), false)
  else if f = 10 then (codes.map fun c => scaleBy sc (Fmt.e4m3.value ftz c), false)
  else if f = 11 then o4Pairs ftz (sc % 256) (sc / 256) 0 codes
  else (codes.map fun c => scaleBy sc (Fmt.bf16.value ftz (tbl[Fin.ofNat 16 c]).toNat), false)

/-- The values of `n` blocks of codes, with their scales in block order. -/
def blocksValues (f : Nat) (ftz : Bool) (tbl : Vector (BitVec 16) 16) : Nat → List Nat → List Byte → List Val × Bool
  | 0, _, _ => ([], false)
  | n + 1, codes, scales =>
    let k := scaleBytes f
    let (x, b) := blockValues f ftz tbl (leNat (scales.take k)) (codes.take 32)
    let (y, c) := blocksValues f ftz tbl n (codes.drop 32) (scales.drop k)
    (x ++ y, b || c)

/-- The values of the elements in bytes of a FORMAT code (R62 to R67); the flag says that an o4 block is malformed. -/
def formatValues (f : Nat) (ftz : Bool) (tbl : Vector (BitVec 16) 16) (bs scales : List Byte) : List Val × Bool :=
  let codes := unpackCodes (fmtBits f) bs
  if fmtScaled f then blocksValues f ftz tbl (codes.length / 32) codes scales
  else
    match codeFmt f with
    | some g => (codes.map fun c => g.value ftz c, false)
    | none => (codes.map fun c => .ofInt (signedOf (fmtBits f) c), false)

/-- The contents of a code table's generation: the live copy, or the retained one (R68). -/
def CodeTable.at_ (t : CodeTable) (gen : Word) : Vector (BitVec 16) 16 := if t.gen = gen then t.live else t.kept

end Sys2Proof.Machine
end

