-- ==== Sys2Proof/Machine/Acc.lean ====
section
/-! DEFINITION. The block-floating accumulator (R75 to R80, R212, R213, R217): one accumulating step of an element,
normalising, reading out, and the rules that the m, d and g engines share (R203 to R205). -/

namespace Sys2Proof.Machine

/-! ## Elements (R75 to R77) -/

/-- Bounds of X. -/
def accMax : Int := 2 ^ 39 - 1
def accMin : Int := -(2 ^ 39)

/-- X clamped to 40 bits, and whether it was. -/
def clampX (v : Int) : BitVec 40 × Bool :=
  if accMax < v then (BitVec.ofInt 40 accMax, true)
  else if v < accMin then (BitVec.ofInt 40 accMin, true)
  else (BitVec.ofInt 40 v, false)

/-- round_ne(v / 2^e) of a finite value. -/
def quantize (e : Int) : Val → Int
  | .fin s m x => roundInt .rne 0 s m (x - e)
  | _ => 0

/-- The class code of a value that is not finite: 1, 2 or 3; 0 for a finite one (R75). -/
def valClass : Val → Nat
  | .nan => 3
  | .inf s => if s then 2 else 1
  | .fin _ _ _ => 0

/-- The combination of classes (R77). -/
def classSum (l : List Nat) : Nat :=
  if l.contains 3 || (l.contains 1 && l.contains 2) then 3
  else if l.contains 1 then 1
  else if l.contains 2 then 2
  else 0

/-- What an accumulating step sets beside the element: OVF, and NANS. -/
structure AccSt where
  ovf : Bool
  nans : Bool
deriving DecidableEq, Repr

/-- One accumulating step of an element in a row with exponent `e` (R76). -/
def Elem.accumulate (x : Elem) (e : Int) (ps : List Val) (a : AccSt) : Elem × AccSt :=
  let cs := ps.map valClass
  if x.t = 0 && cs.all (· == 0) then
    let (v, c) := clampX (x.x.toInt + (ps.map (quantize e)).sum)
    ({ x with x := v }, { a with ovf := a.ovf || c })
  else
    let t := classSum (x.t.val :: cs)
    ({ x with t := Fin.ofNat 4 t }, { a with nans := a.nans || t == 3 })

/-- Sticky bits of accumulating steps; trap 0x11 is due where an element clamped and the trap is enabled (R76). -/
def accSticky (a : AccSt) : M Bool := do
  if a.ovf then setSt stOVF
  if a.nans then setSt stNANS
  return a.ovf && (← getBlk).trapen

/-- The value an element reads as (R75, R80). -/
def Elem.val (x : Elem) (e : Int) : Val :=
  if x.t = 0 then (if x.x = 0 then .fin false 0 0 else .fin (x.x.toInt < 0) x.x.toInt.natAbs e)
  else if x.t = 1 then .inf false
  else if x.t = 2 then .inf true
  else .nan

/-! ## Rows (R79) -/

/-- Grow k of one row: exponent, elements and OVF. -/
def growRow (k : Nat) (e : BitVec 16) (l : Vector Elem 64) : BitVec 16 × Vector Elem 64 × Bool :=
  if 32767 < e.toInt + k then (e, l, true)
  else (BitVec.ofInt 16 (e.toInt + k),
    l.map fun x => if x.t = 0 then { x with x := BitVec.ofInt 40 (quantize k (.ofInt x.x.toInt)) } else x, false)

/-- Tight k of one row. -/
def tightRow (k : Nat) (e : BitVec 16) (l : Vector Elem 64) : BitVec 16 × Vector Elem 64 × Bool :=
  if e.toInt - k < -32768 then (e, l, true)
  else (BitVec.ofInt 16 (e.toInt - k),
    l.map fun x => if x.t = 0 then { x with x := (clampX (x.x.toInt * 2 ^ k)).1 } else x,
    l.any fun x => x.t = 0 && (clampX (x.x.toInt * 2 ^ k)).2)

/-- A row read out: each element rounded once, column `j` drawing generator `gen + j` (R80). -/
def readRow (g : Fmt) (c : FpCtl) (gen : Nat) (e : Int) : Nat → List Elem → NumSt → List Nat × NumSt
  | _, [], a => ([], a)
  | j, x :: r, a =>
    let (v, a) := g.deliver c (gen + j) (x.val e) a
    let (l, a) := readRow g c gen e (j + 1) r a
    (v :: l, a)

/-- Rows read out in ascending order. -/
def readRows (g : Fmt) (c : FpCtl) (gen : Nat) : List (Int × List Elem) → NumSt → List Nat × NumSt
  | [], a => ([], a)
  | (e, x) :: r, a =>
    let (v, a) := readRow g c gen e 0 x a
    let (l, a) := readRows g c gen r a
    (v ++ l, a)

/-- The read-out format of a code: fp32, bf16, fp16, e4m3 or e5m2; another raises trap 0x10 (R214, R222). -/
def readFmt (n : Nat) : M Fmt :=
  if n < 3 || 7 < n then trap 0x10
  else
    match codeFmt n with
    | some g => pure g
    | none => trap 0x10

/-- An exponent operand: a signed 6-bit immediate, or bits [15:0] of a popped entry (R212). -/
def readE : EVal → M (BitVec 16)
  | .imm n => pure (BitVec.ofInt 16 (signedOf 6 n.val))
  | .q n => do return (← popQ n).setWidth 16

/-- The ports of an exponent operand. -/
def ePorts : EVal → List Opd
  | .imm _ => []
  | .q n => [.port (.q n)]

/-! ## Commands of the m, d and g engines (R203 to R205) -/

/-- Elements of one vector of a stream. -/
def Stream.elems (x : Stream) : Nat := x.vbytes * 8 / fmtBits x.format

/-- What a command names: tiles by number, or a grotto slot. A `dpv` writes the second tile as well where its rows are longer than
64 elements (R220). -/
def Block.names (b : Block) (c : Cmd) : List Nat :=
  match c.op with
  | .mma _ e => [e.acc.val]
  | .mmas _ e => [e.acc.val]
  | .mnormGrow x => [x.tile.val]
  | .mnormTight x => [x.tile.val]
  | .mrd x => [x.tile.val]
  | .mwr x => [x.tile.val]
  | .mexpGet x => [x.tile.val]
  | .mexpSet x => [x.tile.val]
  | .dnormGrow x => [x.tile.val]
  | .dnormTight x => [x.tile.val]
  | .drd x => [x.tile.val]
  | .dmv x => [x.dacc.val]
  | .dqk x => [x.dacc.val]
  | .dpv x => if x.dacc = 0 && 64 < (b.streams[x.g]).elems then [0, 1] else [x.dacc.val]
  | .gld x => [x.gd.val]
  | .gsc x => [x.gd.val]
  | _ => []

/-- Commands in progress that started before one. -/
def EngQ.before (q : EngQ) (idx : BitVec 16) : List Cmd := q.prog.takeWhile fun c => c.idx != idx

/-- A command waits for earlier ones that name the same tile or slot, and a piped one for the pipe (R203). -/
def inTurn (e : Eng) (c : Cmd) : M Unit := do
  let b ← getBlk
  waitUntil (((b.eng e).before c.idx).all fun x => !(c.piped && x.piped) && (b.names x).all fun n => !(b.names c).contains n)

/-- Whether an issued command that has not completed names a tile or slot. -/
def Block.tileBusy (b : Block) (e : Eng) (n : Nat) : Bool := (b.eng e).all.any fun c => (b.names c).contains n

/-- 256 ac: the gap after which a streaming command asks leave again (R205). -/
def burstGap (d : Fin 8) : Nat := 256 * acUnits d

/-- The leave that a streaming command has when it starts: within a burst it needs none (R205). A burst holds the commands that
started before it, for one whose start trapped starts again in its place (R288). -/
def burstStart (e : Eng) (c : Cmd) : M Cmd := do
  let s ← getS
  let q := s.blk.eng e
  let near := (q.before c.idx).any Cmd.piped || (match q.last with
    | some t => s.time ≤ t + burstGap s.blk.die
    | none => false)
  return if near then { c with leave := .granted 0 s.island } else c

/-- `bret` of a bank (R40, R218). -/
def execBret (e : Eng) (h : Holder) (x : BretArgs) (s : State) : Host.Outcome State Fault Refusal :=
  issue e 1 x.pred false skip (thenGo do
    let b ← getBlk
    trapIf (b.holders[x.bank] != h) 0x0A
    if b.bankBusy e x.bank then stopWith (.bret x.bank)
    modBlk fun b => { b with holders := b.holders.set x.bank .v }) s

/-- Raise a due trap 0x11 (R76, R280). -/
def ovfTrap (c : Cmd) : M Unit := trapIf c.ovf 0x11

/-- The holder of a bank must be the command's strand, or trap 0x0A is raised (R40). -/
def bankOwned (h : Holder) (k : Fin 8) : M Unit := do
  trapIf ((← getBlk).holders[k] != h) 0x0A

/-! ## Rings of the engines (R204) -/

/-- The checks of a ring that an engine reads or writes: unused 0x34, outside the own slice 0x32, slots too small 0x10. -/
def checkRing (n : Fin 32) (bytes : Nat) : M Unit := do
  let s ← getS
  let r := s.blk.rings[n]
  trapIf (r.cap == 0) 0x34
  let lo := s.sliceVa 0
  if r.base.toNat < lo || lo + sliceSize s.blk.die.val < r.base.toNat + r.cap.toNat * r.slot.toNat then
    trapAt 0x32 r.base.toNat
  trapIf (r.slot.toNat < bytes) 0x10

/-- A block-scope acquire at the tail of a ring by the command that acts (R49, R204). -/
def acquireSlot (n : Fin 32) : M Unit :=
  modS fun s => match s.actor with
    | some a => s.acquireCmd a.party .blk (.ring s.blk.uid n false)
    | none => s

/-- A release at the head or the tail of a ring by the command that acts. -/
def releaseSlot (n : Fin 32) (head : Bool) (sc : Scope) : M Unit :=
  modS fun s => match s.actor with
    | some a => s.release a.party (.ring s.blk.uid n head) sc
    | none => s.clockUp s.blk.die

/-- Read slot head + i once it is filled: an acquire. -/
def readSlot (n : Fin 32) (i bytes : Nat) : M (List Byte) := do
  let r := (← getBlk).rings[n]
  waitUntil (i + 1 ≤ r.filled)
  acquireSlot n
  readVirt false (r.slotAt (r.head + BitVec.ofNat 32 i)).toNat bytes

/-- Free slots that an engine has read: a block-scope release (R49). -/
def popSlots (n : Fin 32) (k : Nat) : M Unit := do
  modBlk fun b => b.modRing n fun r => { r with head := r.head + BitVec.ofNat 32 k }
  releaseSlot n true .blk

/-- Claim a slot, write a tile into it and publish it: a release at the entry's scope, or at block scope (R204). Its checks
have kept the ring in the own slice, whose bytes a round does not buffer (R136). -/
def publishSlot (c : Cmd) (n : Fin 32) (bs : List Byte) : M Cmd := do
  let r := (← getBlk).rings[n]
  waitUntil (1 ≤ r.free)
  let _ ← writeVirt false (r.slotAt r.claimed).toNat bs
  modBlk fun b => b.modRing n fun r => { r with claimed := r.claimed + 1, tail := r.tail + 1 }
  releaseSlot n false (if c.ord.rel then c.ord.scope else .blk)
  return { c with ord := { c.ord with rel := false } }

/-- The ranges of the rings that a command reads. -/
def ringReads (l : List (Fin 32)) : M (List ReadAt) := do
  let b ← getBlk
  return l.map fun n => (none, (b.rings[n]).base.toNat, (b.rings[n]).cap.toNat * (b.rings[n]).slot.toNat)

end Sys2Proof.Machine
end

