-- ==== Sys2Proof/Machine/Matrix.lean ====
section
/-! DEFINITION. The matrix engine (R207 to R218): operand tiles, `mma` and `mmas` step by step, and the m strand's other
instructions and commands. -/

namespace Sys2Proof.Machine

/-! ## Operand tiles (R208 to R210) -/

/-- The class of a format: 16, 8 or 4 bits; none where it is no operand format. -/
def operandBits (f : Nat) : Option Nat :=
  if f = 4 || f = 5 then some 16
  else if f = 6 || f = 7 || f = 10 then some 8
  else if f = 8 || f = 9 || f = 11 || f = 12 then some 4
  else none

/-- K of a pair of formats (R208); none for an illegal pair. -/
def pairK (fa fb : Nat) : Option Nat :=
  match operandBits fa, operandBits fb with
  | some 16, some 16 => some 64
  | some 8, some 8 => some 128
  | some 4, some 4 => some 256
  | some 8, some 4 => some 128
  | some 4, some 8 => some 128
  | _, _ => none

/-- Element bytes and scale bytes of 64 vectors of `k` elements. -/
def tileElemBytes (f k : Nat) : Nat := 64 * k * fmtBits f / 8
def tileScaleBytes (f k : Nat) : Nat := if fmtScaled f then 64 * (k / 32) * scaleBytes f else 0

/-- Bytes of an operand tile; `sparse` adds the 2:4 metadata of an A tile. -/
def tileBytes (f k : Nat) (sparse : Bool) : Nat :=
  tileElemBytes f k + tileScaleBytes f k + if sparse then 16 * k else 0

/-- A list cut into rows of `k`. -/
def rowsOf {α : Type} (k : Nat) : Nat → List α → List (List α)
  | 0, _ => []
  | n + 1, l => l.take k :: rowsOf k n (l.drop k)

/-- The 64 vectors of a tile as exact values, and whether an o4 block is malformed. -/
def tileValues (f k : Nat) (tbl : Vector (BitVec 16) 16) (bs : List Byte) : List (List Val) × Bool :=
  let (vs, bad) := formatValues f false tbl (bs.take (tileElemBytes f k)) ((bs.drop (tileElemBytes f k)).take (tileScaleBytes f k))
  (rowsOf k 64 vs, bad)

/-- One row of a 2:4 sparse operand spread to its logical depth: two stored elements a group, placed by the group's nibble. What
is not stored is none, and adds nothing whatever stands opposite it; so is a group with a malformed nibble (R76, R209; log 56). -/
def spreadRow : List Val → List Nat → List (Option Val) × Bool
  | x :: y :: r, n :: m =>
    let (l, b) := spreadRow r m
    let p := n % 4
    let q := n / 4 % 4
    if p < q then
      ((List.range 4).map (fun i => if i = p then some x else if i = q then some y else none) ++ l, b)
    else (none :: none :: none :: none :: l, true)
  | _, _ => ([], false)

/-- A sparse A tile at its logical depth. -/
def spreadTile (k : Nat) (rows : List (List Val)) (metas : List Byte) : List (List (Option Val)) × Bool :=
  let ns := rowsOf (k / 2) 64 (unpackCodes 4 metas)
  let x := (rows.zip ns).map fun y => spreadRow y.1 y.2
  (x.map (·.1), x.any (·.2))

/-! ## Steps (R76, R211) -/

/-- The products of one element in a step. -/
def products (a : List (Option Val)) (b : List Val) : List Val := (a.zip b).filterMap fun x => x.1.map fun v => v.mul x.2

/-- One row of a step: every column accumulates. -/
def stepRow (e : Int) (a : List (Option Val)) : List (Elem × List Val) → AccSt → List Elem × AccSt
  | [], s => ([], s)
  | (x, b) :: r, s =>
    let (y, s) := x.accumulate e (products a b) s
    let (l, s) := stepRow e a r s
    (y :: l, s)

/-- The elements of a row as a vector. -/
def rowVec (l : List Elem) : Vector Elem 64 := Vector.ofFn fun j => l[j.val]?.getD Elem.zero

/-- Every row of a step. -/
def stepRows (bt : List (List Val)) : List (BitVec 16 × Vector Elem 64 × List (Option Val)) → AccSt → List (Vector Elem 64) × AccSt
  | [], s => ([], s)
  | (e, x, a) :: r, s =>
    let (y, s) := stepRow e.toInt a (x.toList.zip bt) s
    let (l, s) := stepRows bt r s
    (rowVec y :: l, s)

/-- A tile after one step. -/
def Tile.step (t : Tile) (at_ : List (List (Option Val))) (bt : List (List Val)) (s : AccSt) : Tile × AccSt :=
  let (rows, s) := stepRows bt (t.e.toList.zip (t.el.toList.zip at_)) s
  ({ t with el := Vector.ofFn fun i => rows[i.val]?.getD t.el[i] }, s)

/-- The count queue of a command's O3 code. -/
def countQ (x : CArgs) : Option (Fin 16) := if x.o3.val < 16 then none else some (Fin.ofNat 16 (x.o3.val - 16))

/-- The table copy that a command latched for a c4 operand. -/
def Block.latched (b : Block) (c : Cmd) (t : Fin 8) : Vector (BitVec 16) 16 :=
  match c.gens.find? fun g => g.1 == t with
  | some g => (b.cts[t]).at_ g.2
  | none => (b.cts[t]).live

/-- One unit of `mma` or `mmas`: the checks, then one step at a time, then the pops. `prog` counts steps. -/
def mmaUnit (sparse : Bool) (c : Cmd) (x : CArgs) (e : MmaExt) : M Prog := do
  ovfTrap c
  let ra := Fin.ofNat 32 x.o1.val
  let rb := Fin.ofNat 32 x.o2.val
  match pairK e.fa.val e.fb.val with
  | none => trap 0x10
  | some k =>
    trapIf (sparse && (e.fa == 11 || e.fa == 12)) 0x10
    if c.count = 0 then return (c, true)
    let kb := if sparse then 2 * k else k
    let b ← getBlk
    if c.prog = 0 then
      checkRing ra (tileBytes e.fa.val k sparse)
      checkRing rb (tileBytes e.fb.val kb false)
      trapIf ((b.rings[ra]).cap.toNat < c.count || (b.rings[rb]).cap.toNat < c.count) 0x34
    inTurn .m c
    if c.count ≤ c.prog then
      if !e.ka then popSlots ra c.count
      if !e.kb then popSlots rb c.count
      return (c, true)
    let ab ← readSlot ra c.prog (tileBytes e.fa.val k sparse)
    let bb ← readSlot rb c.prog (tileBytes e.fb.val kb false)
    let (at0, m1) := tileValues e.fa.val k (b.latched c e.cta) ab
    let (at1, m2) :=
      if sparse then spreadTile k at0 (ab.drop (tileElemBytes e.fa.val k + tileScaleBytes e.fa.val k))
      else (at0.map fun r => r.map some, false)
    let (bt, m3) := tileValues e.fb.val kb (b.latched c e.ctb) bb
    if m1 || m2 || m3 then setSt stFMT
    let (t, s) := (b.acc[e.acc]).step at1 bt { ovf := false, nans := false }
    modBlk fun b => { b with acc := b.acc.set e.acc t }
    let due ← accSticky s
    return ({ c with prog := c.prog + 1, ovf := due }, false)

/-- The start of `mma` or `mmas`: the generations of its tables are latched, and its count is popped (R68, R211). -/
def mmaStart (c : Cmd) (x : CArgs) (e : MmaExt) : M Cmd := do
  let b ← getBlk
  let n ← match countQ x with
    | some q => do pure ((← popQ q).toNat % 2 ^ 32)
    | none => pure (x.o3.val + 1)
  return { c with
    count := n,
    gens := (if e.fa = 12 then [(e.cta, (b.cts[e.cta]).gen)] else []) ++
      (if e.fb = 12 then [(e.ctb, (b.cts[e.ctb]).gen)] else []) }

/-- What an m command reads: its rings. -/
def mReads (c : Cmd) : M (List ReadAt) :=
  match c.op with
  | .mma x _ => ringReads [x.o1, x.o2]
  | .mmas x _ => ringReads [x.o1, x.o2]
  | .mwr x => ringReads [x.ring]
  | _ => pure []

/-- The start of an m command. -/
def mStart (c : Cmd) : M Cmd := do
  let c ← c.acquireAt .m (mReads c)
  match c.op with
  | .mma x e => mmaStart c x e
  | .mmas x e => mmaStart c x e
  | _ => return c

/-! ## Tiles of the m strand -/

/-- A tile with every row replaced. -/
def Tile.mapRows (t : Tile) (f : BitVec 16 → Vector Elem 64 → BitVec 16 × Vector Elem 64 × Bool) : Tile × Bool :=
  let r := Vector.ofFn fun i : Fin 64 => f t.e[i] t.el[i]
  ({ e := r.map (·.1), el := r.map (·.2.1) }, r.any (·.2.2))

/-- One unit of `mnorm` (R79, R213). -/
def mnormUnit (c : Cmd) (n : Fin 4) (f : BitVec 16 → Vector Elem 64 → BitVec 16 × Vector Elem 64 × Bool) : M Prog := do
  inTurn .m c
  let (t, o) := ((← getBlk).acc[n]).mapRows f
  modBlk fun b => { b with acc := b.acc.set n t }
  if o then setSt stOVF
  return (c, true)

/-- `mrd` (R214). -/
def mrdUnit (c : Cmd) (x : MrdArgs) : M Prog := do
  inTurn .m c
  let g ← readFmt x.fmt.val
  checkRing x.ring (4096 * (g.width / 8))
  let t := (← getBlk).acc[x.tile]
  let l ← numeric (readRows g c.pfx.ctl 64 ((t.e.toList.zip t.el.toList).map fun r => (r.1.toInt, r.2.toList)))
  let c ← publishSlot c x.ring (packCodes g.width l)
  return (c, true)

/-- An element written from a value (R215). -/
def Elem.ofVal (e : Int) (v : Val) : Elem × Bool :=
  match v with
  | .fin _ _ _ =>
    let (x, c) := clampX (quantize e v)
    ({ x := x, t := 0 }, c)
  | .inf s => ({ x := 0, t := if s then 2 else 1 }, false)
  | .nan => ({ x := 0, t := 3 }, false)

/-- A written element keeps the old X where its class is not 0 (R77, R215). -/
def Elem.write (old : Elem) (e : Int) (v : Val) : Elem × Bool :=
  let (y, c) := Elem.ofVal e v
  if y.t = 0 then (y, c) else ({ y with x := old.x }, c)

/-- `mwr` (R215): the tile is written, then the slot is popped. Under FTZ it reads subnormal elements of the slot as zeros: R223 lets
it carry FTZ, and neither R223 nor R72, whose accumulator ignores FTZ on its inputs, says what FTZ does to it (DESIGN CHOICE,
log 61). -/
def mwrUnit (c : Cmd) (x : MrdArgs) : M Prog := do
  inTurn .m c
  ovfTrap c
  if c.prog = 1 then
    popSlots x.ring 1
    return (c, true)
  trapIf (x.fmt.val != 3 && x.fmt.val != 4) 0x10
  let g := if x.fmt.val = 3 then Fmt.fp32 else Fmt.bf16
  checkRing x.ring (4096 * (g.width / 8))
  let bs ← readSlot x.ring 0 (4096 * (g.width / 8))
  let vs := (unpackCodes g.width bs).map fun n => g.value c.pfx.ctl.ftz n
  let t := (← getBlk).acc[x.tile]
  let rows := rowsOf 64 64 vs
  let new := Vector.ofFn fun i : Fin 64 => Vector.ofFn fun j : Fin 64 =>
    (t.el[i][j]).write (t.e[i]).toInt (((rows[i.val]?.getD [])[j.val]?).getD (.fin false 0 0))
  modBlk fun b => { b with acc := b.acc.set x.tile { t with el := new.map fun r => r.map (·.1) } }
  let due ← accSticky { ovf := new.any fun r => r.any (·.2), nans := vs.any Val.isNan }
  return ({ c with prog := 1, ovf := due }, false)

/-- The register of a bank. -/
def bankReg (k r : Fin 8) : Fin 64 := Fin.ofNat 64 (8 * k.val + r.val)

/-- `mexp.get`: lane i becomes row i's E, sign-extended (R216). -/
def mexpGetUnit (c : Cmd) (x : MexpArgs) : M Prog := do
  inTurn .m c
  bankOwned .m x.bank
  let t := (← getBlk).acc[x.tile]
  modBlk fun b => { b with v := b.v.set (bankReg x.bank x.r) (t.e.map fun e => e.signExtend 32) }
  return (c, true)

/-- `mexp.set`: row i's E becomes bits [15:0] of lane i (R216). -/
def mexpSetUnit (c : Cmd) (x : MexpArgs) : M Prog := do
  inTurn .m c
  bankOwned .m x.bank
  let v := (← getBlk).v[bankReg x.bank x.r]
  modBlk fun b => { b with acc := b.acc.set x.tile { b.acc[x.tile] with e := v.map fun w => w.setWidth 16 } }
  return (c, true)

/-- One unit of an m command in progress. -/
def mUnit (c : Cmd) : M Prog :=
  match c.op with
  | .mma x e => mmaUnit false c x e
  | .mmas x e => mmaUnit true c x e
  | .mnormGrow x => mnormUnit c x.tile (growRow x.k.val)
  | .mnormTight x => mnormUnit c x.tile (tightRow x.k.val)
  | .mrd x => mrdUnit c x
  | .mwr x => mwrUnit c x
  | .mexpGet x => mexpGetUnit c x
  | .mexpSet x => mexpSetUnit c x
  | _ => pure (c, true)

/-! ## Instructions of the m strand -/

/-- The ports that a command drops under a false predicate: its count queue (R39, R211). -/
def countPorts (x : CArgs) : List Opd := (countQ x).toList.map fun q => .port (.q q)

/-- `m.mma` (R211). -/
def execMMma (x : CArgs) (e : MmaExt) (s : State) : Host.Outcome State Fault Refusal :=
  issueCmd .m 2 x.pred x.attr (countPorts x) (pure ()) (.mma x e) (fun _ => []) s

/-- `m.mmas` (R209, R211). -/
def execMMmas (x : CArgs) (e : MmaExt) (s : State) : Host.Outcome State Fault Refusal :=
  issueCmd .m 2 x.pred x.attr (countPorts x) (pure ()) (.mmas x e) (fun _ => []) s

/-- `m.mnorm.grow` (R213). -/
def execMMnormGrow (x : NormArgs) (s : State) : Host.Outcome State Fault Refusal :=
  issueCmd .m 1 x.pred x.attr [] (pure ()) (.mnormGrow x) (fun _ => []) s

/-- `m.mnorm.tight` (R213). -/
def execMMnormTight (x : NormArgs) (s : State) : Host.Outcome State Fault Refusal :=
  issueCmd .m 1 x.pred x.attr [] (pure ()) (.mnormTight x) (fun _ => []) s

/-- `m.mrd` (R214). -/
def execMMrd (x : MrdArgs) (s : State) : Host.Outcome State Fault Refusal :=
  issueCmd .m 1 x.pred x.attr [] (pure ()) (.mrd x) (fun _ => []) s

/-- `m.mwr` (R215). -/
def execMMwr (x : MrdArgs) (s : State) : Host.Outcome State Fault Refusal :=
  issueCmd .m 1 x.pred x.attr [] (pure ()) (.mwr x) (fun _ => []) s

/-- `m.mexp.get` (R216). -/
def execMMexpGet (x : MexpArgs) (s : State) : Host.Outcome State Fault Refusal :=
  issueCmd .m 1 x.pred x.attr [] (pure ()) (.mexpGet x) (fun _ => []) s

/-- `m.mexp.set` (R216). -/
def execMMexpSet (x : MexpArgs) (s : State) : Host.Outcome State Fault Refusal :=
  issueCmd .m 1 x.pred x.attr [] (pure ()) (.mexpSet x) (fun _ => []) s

/-- A cleared tile: every X and T zero, every E as given (R75). -/
def Tile.cleared (e : BitVec 16) : Tile := { Tile.reset with e := Vector.replicate 64 e }

/-- `m.mclr` (R212). -/
def execMMclr (x : MclrArgs) (s : State) : Host.Outcome State Fault Refusal :=
  issue .m 1 x.pred false (dropAll .m (ePorts x.e) []) (thenGo do
    waitUntil (!(← getBlk).tileBusy .m x.tile.val)
    let e ← readE x.e
    modBlk fun b => { b with acc := b.acc.set x.tile (Tile.cleared e) }
    portOrder .m (ePorts x.e) []) s

/-- The elements of a tile. -/
def Tile.all (t : Tile) : List Elem := t.el.toList.flatMap fun r => r.toList

/-- The word that `mstat` pushes (R217). -/
def mstatWord (t : Tile) (trapen : Bool) : Dword :=
  let es := t.e.toList.map BitVec.toInt
  let emax := es.foldl max (-32768)
  let emin := es.foldl min 32767
  let bits := ((t.all.filter fun x => x.t == 0).map fun x => bitLen x.x.toInt.natAbs).foldl max 0
  BitVec.ofNat 64 (wrapTo 16 emax * 2 ^ 48 + wrapTo 16 emin * 2 ^ 32 + digit trapen * 2 ^ 15 +
    digit (t.all.any fun x => x.t != 0) * 2 ^ 14 + bits)

/-- `m.mstat` (R206, R217): the control acts before the word is formed. -/
def execMMstat (x : MstatArgs) (s : State) : Host.Outcome State Fault Refusal :=
  issue .m 1 x.pred false (dropAll .m [] [.port (.q x.q)]) (thenGo do
    let b ← getBlk
    waitUntil (!b.tileBusy .m x.tile.val)
    let en := if x.ctl = 1 then true else if x.ctl = 2 then false else b.trapen
    modBlk fun b => { b with trapen := en }
    pushQ .m x.q (mstatWord b.acc[x.tile] en)
    portOrder .m [] [.port (.q x.q)]) s

/-- `m.bret` (R218). -/
def execMBret (x : BretArgs) (s : State) : Host.Outcome State Fault Refusal := execBret .m .m x s

end Sys2Proof.Machine
end

