-- ==== Sys2Proof/Machine/DEngine.lean ====
section
/-! DEFINITION. The decode engine (R207, R219 to R222): streaming commands row by row, `dnorm` and `drd`, and the d strand's
instructions. -/

namespace Sys2Proof.Machine

/-- Elements of a resident vector (R219). -/
def residentK (rf : Bool) : Nat := if rf then 256 else 128

/-- A resident vector's values. -/
def residentVals (rf : Bool) (v : VReg) : List Val :=
  if rf then (elems 8 v).map fun n => Fmt.e4m3.value false n else (elems 16 v).map fun n => Fmt.bf16.value false n

/-- The three streaming commands. -/
inductive DKind | mv | qk | pv
deriving DecidableEq, Repr

/-- Whether a stream format suits a command (R220). -/
def dFormat (k : DKind) (f : Nat) : Bool :=
  match k with
  | .pv => f == 4 || f == 5 || f == 6 || f == 7 || f == 10
  | _ => 4 ≤ f && f ≤ 12

/-- Whether the row length suits a command. -/
def dRowOk (k : DKind) (rf : Bool) (x : Stream) : Bool :=
  match k with
  | .pv => x.elems % 32 == 0 && x.elems ≤ 128
  | _ => x.elems == residentK rf

/-- The checks of a streaming command, made at its start (R220). -/
def dCheck (k : DKind) (x : DmvArgs) : M Unit := do
  bankOwned .d x.bank
  let b ← getBlk
  let y := b.streams[x.g]
  let nb := x.nb1.val + 1
  let wide := k == .pv && 64 < y.elems
  trapIf (!dFormat k y.format || !dRowOk k x.rf y || (b.dacc[x.dacc]).nb != nb || (wide && (b.dacc[1]).nb != nb) ||
    (wide && x.dacc == 1)) 0x10
  trapIf y.out 0x34

/-- Change an element of a decode tile. -/
def DTile.setEl (t : DTile) (b : Fin 8) (j : Fin 64) (x : Elem) : DTile :=
  { t with el := t.el.set b ((t.el[b]).set j x) }

/-- One element of a decode tile accumulates; with `zero` it starts from zero. -/
def DTile.acc (t : DTile) (b : Fin 8) (j : Fin 64) (zero : Bool) (ps : List Val) (s : AccSt) : DTile × AccSt :=
  let old := if zero then Elem.zero else t.el[b][j]
  let (y, s) := old.accumulate (t.e[b]).toInt ps s
  (t.setEl b j y, s)

/-- A row of weights or keys against every resident vector: column `j` accumulates (R220). -/
def rowDots (zero : Bool) (j : Fin 64) (row : List Val) : Nat → List (List Val) → DTile → AccSt → DTile × AccSt
  | _, [], t, s => (t, s)
  | b, x :: r, t, s =>
    let (t, s) := t.acc (Fin.ofNat 8 b) j zero (products (row.map some) x) s
    rowDots zero j row (b + 1) r t s

/-- A row of values weighted by one probability: columns from `d` on accumulate, those from 64 up in the second tile. -/
def rowAxpy (b : Fin 8) (p : Val) : Nat → List Val → DTile × DTile → AccSt → (DTile × DTile) × AccSt
  | _, [], t, s => (t, s)
  | d, v :: r, (t, u), s =>
    if d < 64 then
      let (t, s) := t.acc b (Fin.ofNat 64 d) false [p.mul v] s
      rowAxpy b p (d + 1) r (t, u) s
    else
      let (u, s) := u.acc b (Fin.ofNat 64 (d - 64)) false [p.mul v] s
      rowAxpy b p (d + 1) r (t, u) s

/-- A row of values against every resident vector. -/
def rowsAxpy (row : List Val) : Nat → List Val → DTile × DTile → AccSt → (DTile × DTile) × AccSt
  | _, [], t, s => (t, s)
  | b, p :: r, t, s =>
    let (t, s) := rowAxpy (Fin.ofNat 8 b) p 0 row t s
    rowsAxpy row (b + 1) r t s

/-- Columns from `n` on of rows below `nb` become -∞ (R220). -/
def DTile.minusInf (t : DTile) (nb n : Nat) : DTile :=
  { t with el := Vector.ofFn fun b => if b.val < nb then
      Vector.ofFn fun j => if n ≤ j.val then { t.el[b][j] with t := 2 } else t.el[b][j] else t.el[b] }

/-- The fp32 lane `j` of a resident register. -/
def laneVal (v : VReg) (j : Nat) : Val := Fmt.fp32.value false (v[j]?.getD 0).toNat

/-- The start of a streaming command: its checks; then resident vectors, table generation and stream rows are taken, and its burst
is judged (R68, R149, R205, R219, R220). -/
def dStartRow (k : DKind) (c : Cmd) (x : DmvArgs) : M Cmd := do
  dCheck k x
  let b ← getBlk
  let y := b.streams[x.g]
  let c ← burstStart .d c
  let p ← reserveRead x.g (x.nr1.val + 1)
  return { c with served := true, pos := p, held := (List.range 8).map fun i => b.v[bankReg x.bank (Fin.ofNat 8 i)],
                  gens := if y.format = 12 then [(y.ct, (b.cts[y.ct]).gen)] else [] }

/-- One unit of a streaming command: one stream row; `prog` counts rows. A command whose start was trapped starts first. -/
def dUnitRow (k : DKind) (c : Cmd) (x : DmvArgs) : M Prog := do
  if !c.served then return (← dStartRow k c x, false)
  inTurn .d c
  ovfTrap c
  let nr := x.nr1.val + 1
  let nb := x.nb1.val + 1
  if nr ≤ c.prog then return (c, true)
  c.leaveFirst .d leaveD do
    let b ← getBlk
    let y := b.streams[x.g]
    let entry ← takeReserved x.g (c.pos + BitVec.ofNat 32 c.prog)
    let (row, bad) := formatValues y.format false (b.latched c y.ct) (entry.take y.vbytes) (entry.drop 256)
    if bad then setSt stFMT
    let j := Fin.ofNat 64 c.prog
    let t := b.dacc[x.dacc]
    let z : AccSt := { ovf := false, nans := false }
    let s ← match k with
      | .pv => do
        let ((t, u), s) := rowsAxpy row 0 ((c.held.take nb).map fun v => laneVal v c.prog) (t, b.dacc[1]) z
        modBlk fun b => { b with dacc := if 64 < y.elems then #v[t, u] else b.dacc.set x.dacc t }
        pure s
      | _ => do
        let t := if k = .qk && c.prog = 0 then t.minusInf nb nr else t
        let (t, s) := rowDots (k == .qk) j row 0 ((c.held.take nb).map (residentVals x.rf)) t z
        modBlk fun b => { b with dacc := b.dacc.set x.dacc t }
        pure s
    let due ← accSticky s
    return ({ c with prog := c.prog + 1, ovf := due }, nr ≤ c.prog + 1 && !due)

/-- The start of a d command. -/
def dStart (c : Cmd) : M Cmd :=
  match c.op with
  | .dmv x => dStartRow .mv c x
  | .dqk x => dStartRow .qk c x
  | .dpv x => dStartRow .pv c x
  | _ => pure c

/-- A decode tile with every row replaced. -/
def DTile.mapRows (t : DTile) (f : BitVec 16 → Vector Elem 64 → BitVec 16 × Vector Elem 64 × Bool) : DTile × Bool :=
  let r := Vector.ofFn fun i : Fin 8 => f t.e[i] t.el[i]
  ({ t with e := r.map (·.1), el := r.map (·.2.1) }, r.any (·.2.2))

/-- One unit of `dnorm` (R222). -/
def dnormUnit (c : Cmd) (n : Fin 2) (f : BitVec 16 → Vector Elem 64 → BitVec 16 × Vector Elem 64 × Bool) : M Prog := do
  inTurn .d c
  let (t, o) := ((← getBlk).dacc[n]).mapRows f
  modBlk fun b => { b with dacc := b.dacc.set n t }
  if o then setSt stOVF
  return (c, true)

/-- `drd`: one entry pushed; `prog` counts entries (R222). -/
def drdUnit (c : Cmd) (x : DrdArgs) : M Prog := do
  inTurn .d c
  let g ← readFmt x.fmt.val
  let b ← getBlk
  let t := b.dacc[x.tile]
  let n := t.nb
  if n ≤ c.prog then return (c, true)
  waitUntil ((b.vq[x.vq]).length + b.inflightTo (.port (.vq x.vq)) < 4)
  let r := Fin.ofNat 8 c.prog
  let l ← numeric (readRow g c.pfx.ctl 128 (t.e[r]).toInt 0 (t.el[r]).toList)
  modBlk fun b => b.pushVq x.vq (ofElems g.width l)
  return ({ c with prog := c.prog + 1 }, n ≤ c.prog + 1)

/-- One unit of a d command in progress. -/
def dUnit (c : Cmd) : M Prog :=
  match c.op with
  | .dmv x => dUnitRow .mv c x
  | .dqk x => dUnitRow .qk c x
  | .dpv x => dUnitRow .pv c x
  | .dnormGrow x => dnormUnit c (Fin.ofNat 2 x.tile.val) (growRow x.k.val)
  | .dnormTight x => dnormUnit c (Fin.ofNat 2 x.tile.val) (tightRow x.k.val)
  | .drd x => drdUnit c x
  | _ => pure (c, true)

/-! ## Instructions of the d strand -/

/-- `d.dmv` (R220). -/
def execDDmv (x : DmvArgs) (s : State) : Host.Outcome State Fault Refusal :=
  issueCmd .d 2 x.pred x.attr [] (do afterSets x.g (← getStr .d).pc) (.dmv x) (fun _ => []) s

/-- `d.dqk` (R220). -/
def execDDqk (x : DmvArgs) (s : State) : Host.Outcome State Fault Refusal :=
  issueCmd .d 2 x.pred x.attr [] (do afterSets x.g (← getStr .d).pc) (.dqk x) (fun _ => []) s

/-- `d.dpv` (R220). -/
def execDDpv (x : DmvArgs) (s : State) : Host.Outcome State Fault Refusal :=
  issueCmd .d 2 x.pred x.attr [] (do afterSets x.g (← getStr .d).pc) (.dpv x) (fun _ => []) s

/-- `d.dnorm.grow` (R222). -/
def execDDnormGrow (x : NormArgs) (s : State) : Host.Outcome State Fault Refusal :=
  issueCmd .d 1 x.pred x.attr [] (pure ()) (.dnormGrow x) (fun _ => []) s

/-- `d.dnorm.tight` (R222). -/
def execDDnormTight (x : NormArgs) (s : State) : Host.Outcome State Fault Refusal :=
  issueCmd .d 1 x.pred x.attr [] (pure ()) (.dnormTight x) (fun _ => []) s

/-- `d.drd` (R222). -/
def execDDrd (x : DrdArgs) (s : State) : Host.Outcome State Fault Refusal :=
  issueCmd .d 1 x.pred x.attr [] (pure ()) (.drd x) (fun _ => []) s

/-- A cleared decode tile (R75, R221). -/
def DTile.cleared (nb : Nat) (e : BitVec 16) : DTile := { DTile.reset with nb := nb, e := Vector.replicate 8 e }

/-- `d.dclr` (R221). -/
def execDDclr (x : DclrArgs) (s : State) : Host.Outcome State Fault Refusal :=
  issue .d 1 x.pred false (dropAll .d (ePorts x.e) []) (thenGo do
    waitUntil (!(← getBlk).tileBusy .d x.tile.val)
    let e ← readE x.e
    modBlk fun b => { b with dacc := b.dacc.set x.tile (DTile.cleared (x.nb1.val + 1) e) }
    portOrder .d (ePorts x.e) []) s

/-- `d.bret` (R218). -/
def execDBret (x : BretArgs) (s : State) : Host.Outcome State Fault Refusal := execBret .d .d x s

end Sys2Proof.Machine
end

