-- ==== Sys2Proof/Machine/Grotto.lean ====
section
/-! DEFINITION. Grotto regions and the grotto engine (R224 to R229): descriptors, the placing of a point on a level, level
loads and gradient adds. -/

namespace Sys2Proof.Machine

/-! ## Descriptors (R224, R226) -/

/-- The number in `n` bytes of a descriptor from byte `a`. -/
def GDesc.field (g : GDesc) (a n : Nat) : Nat := leNat ((g.bytes.drop a).take n)

def GDesc.dim (g : GDesc) : Nat := g.field 0 1
def GDesc.lev (g : GDesc) : Nat := g.field 1 1
def GDesc.log2t (g : GDesc) : Nat := g.field 2 1
def GDesc.feats (g : GDesc) : Nat := 2 ^ (g.field 3 1 % 4)
def GDesc.ft (g : GDesc) : Nat := g.field 4 1
def GDesc.hash (g : GDesc) : Nat := g.field 5 1
def GDesc.table (g : GDesc) : Nat := g.field 8 8
def GDesc.grad (g : GDesc) : Nat := g.field 16 8
def GDesc.res (g : GDesc) (l : Nat) : Nat := g.field (32 + 4 * l) 4

/-- Bytes of a feature. -/
def GDesc.size (g : GDesc) : Nat := if g.ft = 0 then 4 else 2

/-- The format of a feature. -/
def GDesc.fmt (g : GDesc) : Fmt := if g.ft = 0 then .fp32 else if g.ft = 1 then .bf16 else .fp16

/-- Entries of a level's table. -/
def GDesc.entries (g : GDesc) : Nat := 2 ^ g.log2t

/-- Whether every byte of a range is zero. -/
def GDesc.zeros (g : GDesc) (a n : Nat) : Bool := ((g.bytes.drop a).take n).all fun b => b == 0

/-- Whether a descriptor keeps the limits of R224 and R226: RES finite, positive and below 2^24, tables inside the entry. -/
def GDesc.ok (g : GDesc) : Bool :=
  1 ≤ g.dim && g.dim ≤ 12 && 1 ≤ g.lev && g.lev ≤ 32 && 10 ≤ g.log2t && g.log2t ≤ 24 && g.field 3 1 ≤ 3 && g.ft ≤ 2 &&
    g.hash ≤ 1 && g.zeros 6 2 && g.zeros 24 8 && g.zeros (32 + 4 * g.lev) 256 &&
    ((List.range g.lev).all fun l => 0 < g.res l && g.res l < 0x4B800000) &&
    g.base.toNat + g.table + g.lev * g.entries * g.feats * g.size ≤ g.limit.toNat

/-- `g.gcfg` (R226). The acquire of its pop orders the reading of the descriptor (R57). -/
def execGGcfg (x : GcfgArgs) (s : State) : Host.Outcome State Fault Refusal :=
  issue .g 1 x.pred false (dropAll .g [.port (.q x.q)] []) (thenGo do
    waitUntil (!(← getBlk).tileBusy .g x.gd.val)
    let a ← popQ x.q
    portAcquire .g [.port (.q x.q)]
    if a.toNat % 256 ≠ 0 then trapAt 0x33 a.toNat
    let bs ← byStrand .g 8 (readVirt false a.toNat 256)
    match (← getS).entryOf a.toNat with
    | none => trapAt 0x32 a.toNat
    | some (_, e) =>
      if e.kind ≠ 3 || e.base ≠ a then trapAt 0x32 a.toNat
      let g : GDesc := { base := a, limit := e.limit, bytes := bs }
      trapIf (!g.ok) 0x34
      modBlk fun b => { b with gd := b.gd.set x.gd (some g) }) s

/-! ## A point on a level (R227) -/

/-- K_d. -/
def hashK : List Nat :=
  [0x00000001, 0x8E41B365, 0xD8173A45, 0xCB2CA31D, 0x9C4F2E17, 0xE3A17C59, 0xA7D294C5, 0xF15B6A2B, 0x8B7EC3D1,
   0xC6A30F95, 0xB42DE687, 0x9F581A6B]

/-- The value 1. -/
def valOne : Val := .fin false 1 0

/-- A coordinate clamped to [0, 1]; NaN reads as 0. -/
def clampUnit (x : Nat) : Val :=
  let v := Fmt.fp32.value false x
  if v.isNan || v.isNeg then .fin false 0 0 else if valOne.lt v then valOne else v

/-- The integer part of a value that is finite and not negative. -/
def floorVal : Val → Nat
  | .fin _ m e => (cutAt m e 0).1
  | _ => 0

/-- Cell and fraction of a coordinate on a level with a resolution. -/
def cellOf (res x : Nat) : Nat × Val :=
  let p := Fmt.fp32.rneVal ((clampUnit x).mul (Fmt.fp32.value false res))
  let c := floorVal p
  (c, p.add .rne (Val.ofInt c).neg)

/-- The weight of corner `q`: the product, rounded after every factor, dimension 0 first. -/
def cornerWeight (q : Nat) : Nat → List (Nat × Val) → Val → Val
  | _, [], w => w
  | d, (_, f) :: r, w =>
    let h := if q / 2 ^ d % 2 = 1 then f else Fmt.fp32.rneVal (valOne.add .rne f.neg)
    cornerWeight q (d + 1) r (Fmt.fp32.rneVal (w.mul h))

/-- The index of a corner's entry in its level's table. -/
def GDesc.index (g : GDesc) (l : Nat) (is : List Nat) : Nat :=
  let n := floorVal (Fmt.fp32.value false (g.res l)) + 2
  if n ^ g.dim ≤ g.entries then (is.zipIdx.map fun x => x.1 * n ^ x.2).sum
  else
    let h := (is.zip hashK).foldl (fun h x => Nat.xor h (x.1 * x.2 % 2 ^ 32)) 0
    let h := if g.hash = 1 then Nat.xor (Nat.xor h (h / 2 ^ g.log2t)) (h / 2 ^ (2 * g.log2t)) else h
    h % g.entries

/-- The corners of a point on a level, in binary order: weight and entry. -/
def GDesc.corners (g : GDesc) (l : Nat) (xs : List Nat) : List (Val × Nat) :=
  let cs := xs.map (cellOf (g.res l))
  (List.range (2 ^ g.dim)).map fun q =>
    (cornerWeight q 0 cs valOne, g.index l (cs.zipIdx.map fun x => x.1.1 + q / 2 ^ x.2 % 2))

/-! ## Level loads (R228) -/

/-- The slot of a command, with the checks that both commands make at their start. -/
def gCheck (x : GldArgs) : M GDesc := do
  match (← getBlk).gd[x.gd] with
  | none => trap 0x34
  | some g =>
    trapIf (g.lev < x.lb.val + (x.ln1.val + 1)) 0x34
    return g

/-- Coordinates of lane `k` among popped entries. -/
def laneCoords (g : GDesc) (held : List VReg) (k : Nat) : List Nat :=
  (held.take g.dim).map fun v => (v[k]?.getD 0).toNat

/-- An access of lane `k` for a command: inside a round, a trap of a lane group above 0 marks its slot failed and
answers `z` (R139). -/
def gLane {α : Type} (c : Cmd) (k : Nat) (z : α) (x : M α) : M α := do
  let b ← getBlk
  if b.ofRound .g c.idx && b.scout.buffering && 8 ≤ k then
    match ← attempt x with
    | .ok v => return v
    | .error _ =>
      modBlk fun b => { b with scout := { b.scout with failed := if b.scout.failed.contains (k / 8) then b.scout.failed
                                                                  else k / 8 :: b.scout.failed } }
      return z
  else x

/-- Address and bytes of an entry of a level's table. -/
def GDesc.entryLen (g : GDesc) : Nat := g.feats * g.size
def GDesc.entryVa (g : GDesc) (l e : Nat) : Nat := g.base.toNat + g.table + (l * g.entries + e) * g.entryLen

/-- Entries that a `gld` has read on a level: each is read once for all the corners that name it (R228). -/
abbrev Entries := List (Nat × List Byte)

/-- The features of an entry as fp32 values, read by lane `k`: inside a round under the bytes that its slot has buffered
(R136). -/
def GDesc.readEntry (g : GDesc) (c : Cmd) (l e k : Nat) (got : Entries) : M (List Val × Entries) := do
  let (bs, got) ← match got.find? fun x => x.1 == e with
    | some x => pure (x.2, got)
    | none => do
      let bs ← inUnits g.size (readVirt false (g.entryVa l e) g.entryLen)
      pure (bs, (e, bs) :: got)
  let b ← getBlk
  let bs := if b.ofRound .g c.idx && b.scout.buffering && isMain (g.entryVa l e) then
    overlay (b.scout.bufs[Fin.ofNat 8 (k / 8)]) (g.entryVa l e) bs else bs
  return ((unpackCodes (8 * g.size) bs).map fun n => g.fmt.value false n, got)

/-- One fused multiply-add, rounded to nearest even. -/
def fmaNe (w x y : Val) (a : NumSt) : Val × NumSt :=
  let (c, a) := Fmt.fp32.round ctlRne 0 ((w.mul x).add .rne y) a
  (Fmt.fp32.value false c, a)

/-- The features of a corner added into the sums. -/
def addFeats (w : Val) : List Val → List Val → NumSt → List Val × NumSt
  | y :: ys, x :: xs, a =>
    let (v, a) := fmaNe w x y a
    let (r, a) := addFeats w ys xs a
    (v :: r, a)
  | _, _, a => ([], a)

/-- The corners of one lane, in order. -/
def laneSum (c : Cmd) (g : GDesc) (l k : Nat) : List (Val × Nat) → List Val → Entries → M (List Val × Entries)
  | [], out, got => pure (out, got)
  | (w, e) :: r, out, got => do
    let (fs, got) ← g.readEntry c l e k got
    let o ← numeric (addFeats w out fs)
    laneSum c g l k r o got

/-- One lane of a level: the codes of its features. -/
def gldLane (c : Cmd) (g : GDesc) (l k : Nat) (got : Entries) : M (List Nat × Entries) := do
  let z := List.replicate g.feats (Val.fin false 0 0)
  let (o, got) ← gLane c k (z, got) (laneSum c g l k (g.corners l (laneCoords g c.held k)) z got)
  return (o.map Fmt.fp32.rne, got)

/-- Lanes of a level from lane `k`. -/
def gldLanes (c : Cmd) (g : GDesc) (l : Nat) : Nat → Nat → Entries → M (List (List Nat))
  | 0, _, _ => pure []
  | n + 1, k, got => do
    let (o, got) ← gldLane c g l k got
    let r ← gldLanes c g l n (k + 1) got
    return o :: r

/-- One level of every lane: the entries to be pushed. -/
def gldLevel (c : Cmd) (g : GDesc) (l : Nat) : M (List VReg) := do
  let lanes ← gldLanes c g l 64 0 []
  return (List.range g.feats).map fun f => ofElems 32 (lanes.map fun o => o[f]?.getD 0)

/-- `gld`, one unit: a coordinate entry popped, a level computed, or an entry pushed. `held` are the coordinates and then
the entries still to be pushed, and `prog` counts levels. -/
def gldUnit (c : Cmd) (x : GldArgs) : M Prog := do
  inTurn .g c
  let g ← gCheck x
  c.leaveFirst .g leaveG do
    if c.held.length < g.dim then
      let v ← popVq x.vqi
      return ({ c with held := c.held ++ [v] }, false)
    match c.held.drop g.dim with
    | v :: r =>
      let b ← getBlk
      waitUntil ((b.vq[x.vqo]).length + b.inflightTo (.port (.vq x.vqo)) < 4)
      modBlk fun b => b.pushVq x.vqo v
      return ({ c with held := c.held.take g.dim ++ r }, r.isEmpty && x.ln1.val + 1 ≤ c.prog)
    | [] =>
      let l := x.lb.val + c.prog
      let vs ← gldLevel c g l
      return ({ c with held := c.held ++ vs, prog := c.prog + 1 }, false)

/-! ## Gradient adds (R229) -/

/-- One contribution: gradient entry and t of each feature. -/
structure Contrib where
  l : Nat
  e : Nat
  ts : List Val
deriving DecidableEq, Repr

/-- The contributions of a lane on a level, by corner. -/
def laneContribs (g : GDesc) (held : List VReg) (lb l k : Nat) : List Contrib :=
  let gs := (List.range g.feats).map fun f =>
    let v := held[g.dim + (l - lb) * g.feats + f]?.getD vzero
    Fmt.fp32.value false (v[k]?.getD 0).toNat
  (g.corners l (laneCoords g held k)).map fun x => { l := l, e := x.2, ts := gs.map fun y => x.1.mul y }

/-- Every contribution of a command on a level, by lane, then corner. -/
def levelContribs (g : GDesc) (held : List VReg) (lb l : Nat) : List Contrib :=
  (List.range 64).flatMap fun k => laneContribs g held lb l k

/-- Gradient entries in the order of their first contribution. -/
def gradEntries : List Contrib → List (Nat × Nat) → List (Nat × Nat)
  | [], l => l
  | x :: r, l => gradEntries r (if l.contains (x.l, x.e) then l else l ++ [(x.l, x.e)])

/-- s of a feature for a plain table: each t rounded, then the sum rounded after each. -/
def plainSum (ts : List Val) (a : NumSt) : Nat × NumSt :=
  match ts with
  | [] => (0, a)
  | t :: r =>
    let (c, a) := Fmt.fp32.round ctlRne 0 t a
    r.foldl (fun x u =>
      let (d, a) := Fmt.fp32.round ctlRne 0 u x.2
      Fmt.fp32.round ctlRne 0 ((Fmt.fp32.value false x.1).add .rne (Fmt.fp32.value false d)) a) (c, a)

/-- s of a feature for an exact-sum table: the exact sum; none where a contribution is not finite or the sum leaves 64
bits, for which the spec states no value. A NaN among the contributions has met arithmetic all the same (R74). -/
def exactSum (rexp : Int) (ts : List Val) : Option Nat :=
  if ts.any fun t => valClass t != 0 then none
  else
    let v := (ts.map fun t => quantize rexp t).sum
    if v < -(2 : Int) ^ 63 || (2 : Int) ^ 63 ≤ v then none else some (wrapTo 64 v)

/-- A fresh 64-bit value (log 2). -/
def freeDword : M Nat := do
  let k ← drawFree
  return (Config.freeWord (2 * k)).toNat + 2 ^ 32 * (Config.freeWord (2 * k + 1)).toNat

/-- The adds of a gradient entry's features from feature `f`, whose address is `a` for feature 0: the old values, and the home. -/
def sendAdds (exact : Bool) (rexp : Int) (cs : List Contrib) (a : Nat) : Nat → Nat → M (List Byte × Nat)
  | 0, _ => pure ([], a)
  | n + 1, f => do
    let ts := cs.map fun x => x.ts[f]?.getD .nan
    let w := if exact then 8 else 4
    let v ← if exact then do
        if ts.any Val.isNan then setSt stNANS
        match exactSum rexp ts with
        | some v => pure v
        | none => freeDword
      else numeric (plainSum ts)
    let (old, p) ← inUnits w (if exact then rmw false (a + f * w) w true false id v else homeAdd (a + f * w) v)
    let (r, _) ← sendAdds exact rexp cs a n (f + 1)
    return (leBytes w old ++ r, homeOf p)

/-- The map entry of a gradient table: plain with write and atomic permission, or exact-sum (R229). -/
def gradEntry (va : Nat) : M MapEntry := do
  match (← getS).entryOf va with
  | none => trapAt 0x32 va
  | some (_, e) =>
    if e.st = 0 then trapAt 0x30 va
    if e.kind = 5 || (e.kind = 0 && permits e.perm.toNat .write && permits e.perm.toNat .atomic) then return e
    trapAt 0x32 va

/-- One packed add for a gradient entry; its old values, address and home are kept for a response that fails (R286). -/
def addEntry (g : GDesc) (all : List Contrib) (c : Cmd) (le : Nat × Nat) : M Cmd := do
  let kind := (← gradEntry g.grad).kind
  let exact := kind == 5
  let w := if exact then 8 else 4
  let a := g.grad + (le.1 * g.entries + le.2) * g.feats * w
  let e ← gradEntry a
  if e.kind ≠ kind then trapAt 0x32 a
  let (old, h) ← sendAdds exact e.rexp (all.filter fun x => x.l == le.1 && x.e == le.2) a g.feats 0
  let c ← c.wrote .atomic a (g.feats * w)
  return { c with adds := some (vecOfBytes old, a, h) }

/-- The packed adds of gradient entries, in their order. -/
def addEntries (g : GDesc) (all : List Contrib) : List (Nat × Nat) → Cmd → M Cmd
  | [], c => pure c
  | x :: r, c => do addEntries g all r (← addEntry g all c x)

/-- `gsc`, one unit: an entry popped, or the adds of a level at once, so that a trap leaves none of them (R279). `prog` counts
levels. -/
def gscUnit (c : Cmd) (x : GldArgs) : M Prog := do
  inTurn .g c
  let g ← gCheck x
  c.leaveFirst .g leaveG do
    if c.held.length < g.dim then
      let v ← popVq x.vqi
      return ({ c with held := c.held ++ [v] }, false)
    if c.held.length < g.dim + (x.ln1.val + 1) * g.feats then
      let v ← popVq x.vqo
      return ({ c with held := c.held ++ [v] }, false)
    let all := levelContribs g c.held x.lb.val (x.lb.val + c.prog)
    let c ← addEntries g all (gradEntries all []) c
    return ({ c with prog := c.prog + 1 }, x.ln1.val + 1 ≤ c.prog + 1)

/-- What a g command reads: the tables of its levels, or the gradient tables that its adds read. -/
def gReads (c : Cmd) : M (List ReadAt) := do
  match c.op with
  | .gld x =>
    let g ← gCheck x
    return [(none, g.entryVa x.lb.val 0, (x.ln1.val + 1) * g.entries * g.entryLen)]
  | .gsc x =>
    let g ← gCheck x
    let n := g.entries * g.feats * (if (← gradEntry g.grad).kind == 5 then 8 else 4)
    return [(none, g.grad + x.lb.val * n, (x.ln1.val + 1) * n)]
  | _ => return []

/-- The start of a g command: its burst is judged (R205), and its acquire made. -/
def gStart (c : Cmd) : M Cmd := do burstStart .g (← c.acquireAt .g (gReads c))

/-- One unit of a g command in progress. -/
def gUnit (c : Cmd) : M Prog :=
  match c.op with
  | .gld x => gldUnit c x
  | .gsc x => gscUnit c x
  | _ => pure (c, true)

/-- `g.gld` (R228). -/
def execGGld (x : GldArgs) (s : State) : Host.Outcome State Fault Refusal :=
  issueCmd .g 2 x.pred x.attr [] (pure ()) (.gld x) (fun _ => []) s

/-- `g.gsc` (R139, R229). -/
def execGGsc (x : GldArgs) (s : State) : Host.Outcome State Fault Refusal :=
  issueCmd .g 2 x.pred x.attr [] barRound (.gsc x) (fun _ => []) s

end Sys2Proof.Machine
end

