-- ==== Sys2Proof/Machine/Engine.lean ====
section
/-! DEFINITION. What the engines do beside their strands: commands start and complete (R32, R38, R144, R203), the nest issues
(R166), multicasts deliver (R163, R164), governors grant leave (R168, R205, R329), `ldt`s are served (R171, R172), and
accesses that stall or fail end in traps (R235, R259, R286). -/

namespace Sys2Proof.Machine

/-- Whether an engine has a command queue. -/
def Eng.queued : Eng → Bool
  | .c => false
  | .v => false
  | _ => true

/-- Whether an engine of the block in focus still starts commands: its strand has not stopped (R278), and the block does not stand
gathered, as it does at the end of a Ferry's or a checkpoint's gathering (R292, R296). -/
def State.engStarts (s : State) (e : Eng) : Bool :=
  Eng.queued e && s.blk.started && (s.str e).stop.isNone && s.cx.st.val ≤ 1 && !s.blk.stood

/-- Whether an engine of the block in focus works on its commands in progress: until its strand has written its Cairn
(R279). -/
def State.engLive (s : State) (e : Eng) : Bool :=
  Eng.queued e && s.blk.started && s.cx.st.val ≤ 1 && (match (s.str e).stop with
    | some r => r.written.isEmpty
    | none => true)

/-- The value of a command's guard; none while its slot is unwritten (R38). -/
def Block.guardOf (b : Block) : Option (Fin 16 × Bool) → Option Bool
  | none => some true
  | some (g, neg) => (b.gs[g]).map fun v => v != neg

/-! ## Commands issued before a round mark (R140) -/

/-- What a queue at the mark holds after a command issued before it popped or pushed: `x` and `y` are the queue before and
after the command's act. -/
def absorbQ {α : Type} (x y m : List α) : List α :=
  if x.length ≤ y.length then m ++ y.drop x.length else m.drop (x.length - y.length)

/-- Positions that stand landed or taken: those below the counter from `lo` on, and the early ones. -/
def newPositions (lo hi : Word) (x y : List Word) : List Word :=
  (((List.range (hi - lo).toNat).map fun i => lo + BitVec.ofNat 32 i) ++ y).filter fun p => !x.contains p

/-- A stream at the mark after a command issued before it acted on it. -/
def absorbStream (x y m : Stream) : Stream :=
  let m := { m with rsv := m.rsv + (y.rsv - x.rsv), rrsv := m.rrsv + (y.rrsv - x.rrsv) }
  if x.out then (newPositions x.rd y.rd x.early y.early).foldl (fun s p => s.take p) m
  else (newPositions x.wr y.wr x.early y.early).foldl (fun s p => s.land p) { m with rd := m.rd + (y.rd - x.rd) }

/-- A ring at the mark after a command issued before it popped or published slots. -/
def absorbRing (x y m : Ring) : Ring :=
  { m with head := m.head + (y.head - x.head), tail := m.tail + (y.tail - x.tail), claimed := m.claimed + (y.claimed - x.claimed) }

/-- The mark after a command of engine `e` issued before it acted: commands that are not the round's run on unaffected. A multicast has
changed the rings of the mark itself. -/
def Mark.absorb (m : Mark) (e : Eng) (x y : Block) : Mark :=
  { m with q := Vector.ofFn fun n => absorbQ x.q[n] y.q[n] m.q[n],
           vq := Vector.ofFn fun n => absorbQ x.vq[n] y.vq[n] m.vq[n],
           rings := if e = .m then Vector.ofFn fun n => absorbRing x.rings[n] y.rings[n] m.rings[n] else m.rings,
           streams := Vector.ofFn fun n => absorbStream x.streams[n] y.streams[n] m.streams[n] }

/-- The state after command `idx` of engine `e` acted from `s`: the mark follows a command that is not the round's. -/
def State.settle (s : State) (e : Eng) (idx : BitVec 16) (t : State) : State :=
  if s.blk.ofRound e idx then t
  else
    { t with blk := { t.blk with scout := { t.blk.scout with mark := t.blk.scout.mark.map fun m => m.absorb e s.blk t.blk } } }

/-- The same for an outcome. -/
def State.settled (s : State) (e : Eng) (idx : BitVec 16) : Host.Outcome State Fault Refusal → Host.Outcome State Fault Refusal
  | .next t => .next (s.settle e idx t)
  | o => o

/-! ## Starting (R38, R144) -/

/-- What a command does when it starts. -/
def startOf (e : Eng) (c : Cmd) : M Cmd :=
  match e with
  | .a => aStart c
  | .m => mStart c
  | .d => dStart c
  | .g => gStart c
  | _ => pure c

/-- The queue that a command pops when it starts (R211). -/
def Cmd.popsCount (c : Cmd) : Option (Fin 16) :=
  match c.op with
  | .mma x _ => countQ x
  | .mmas x _ => countQ x
  | _ => none

/-- A command leaves the head of its queue and is in progress. -/
def Block.intoProg (b : Block) (e : Eng) (c : Cmd) : Block :=
  b.modEng e fun q => { q with queue := q.queue.drop 1, prog := q.prog ++ [c] }

/-- The head of a queue leaves it: it starts, or completes vacuously under a guard that resolves false: it pops then the queue that
it would have popped at its start, and none of those that it would have popped while running (R38; log 24). -/
def startCmd (e : Eng) (c : Cmd) (go : Bool) : M Unit := do
  if go then
    let c ← startOf e { c with guard := none }
    modBlk fun b => b.intoProg e c
  else
    match c.popsCount with
    | some q => do
      let _ ← popQ q
    | none => pure ()
    modBlk fun b => (b.flagDone c).modEng e fun q => { q with queue := q.queue.drop 1 }
  modS fun s => { s with blk := { s.blk with idle := s.time } }

/-- COMMAND_START (R144): the head command, once its guard has resolved and fewer than 16 are in progress. -/
def execCommandStart (u : Nat) (e : Eng) (s : State) : Host.Outcome State Fault Refusal :=
  match s.blockAt u with
  | none => .next s
  | some _ =>
    let t := s.focus u
    match (t.blk.eng e).queue with
    | [] => .next s
    | c :: _ =>
      if !t.engStarts e || 16 ≤ (t.blk.eng e).prog.length || (t.blk.rerunning && t.blk.ofRound e c.idx) then .next s
      else
        match t.blk.guardOf c.guard with
        | none => .next s
        | some go =>
          match startCmd e c go t with
          | .ok (_, w) => .next (t.settle e c.idx w)
          | .error (.trap i) =>
            let k := { c with guard := none }
            .next ({ t with blk := t.blk.intoProg e k }.raiseCmd e k i)
          | .error (.fault f) => .fault f
          | .error _ => .next s

/-! ## Completing (R34, R144) -/

/-- One unit of a command; its accesses are the command's. -/
def unitOf (e : Eng) (c : Cmd) : M Prog :=
  asCmd e c.idx 8 <| match e with
  | .a => aUnit c
  | .m => mUnit c
  | .d => dUnit c
  | .g => gUnit c
  | _ => pure (c, true)

/-- A multicast whose targets have all published or failed: its flag is set, which is a release (R57), and a failure is trap 0x38
(R164). Its other releases were made target by target. -/
def State.mcastEnd (s : State) (c : Cmd) : State :=
  let s := s.acquireRead .a c
  let (mask, sub) := mcFailures c.targets
  if mask = 0 then s.retire .a c
  else
    let s := s.flagRelease .a c
    { s with blk := s.blk.flagDone c }.raiseCmd .a c
      { cause := 0x38, faddr := 0, aux := BitVec.ofNat 64 mask, sub := sub, pc := none }

/-- Whether every target of a served multicast has published or failed. -/
def Cmd.delivered (c : Cmd) : Bool :=
  match c.op with
  | .mcast _ _ => c.served && c.targets.all McTarget.final
  | _ => false

/-- COMMAND_COMPLETE (R34, R144; log 24): a command in progress is carried as far as its waits allow, and completes. -/
def execCommandComplete (u : Nat) (e : Eng) (idx : Nat) (s : State) : Host.Outcome State Fault Refusal :=
  match s.blockAt u with
  | none => .next s
  | some _ =>
    let t := s.focus u
    match (t.blk.eng e).prog.find? fun c => c.idx.toNat == idx with
    | none => .next s
    | some c =>
      if !t.engLive e || c.stuck then .next s
      else if c.delivered then .next (t.mcastEnd c)
      else t.settled e c.idx (t.runCmd e (unitOf e) c)

/-! ## The nest (R166) -/

/-- NEST_ISSUE: the live nest issues its next instance. -/
def execNestIssue (u : Nat) (s : State) : Host.Outcome State Fault Refusal :=
  match s.blockAt u with
  | none => .next s
  | some _ =>
    let t := s.focus u
    match t.blk.nest.live with
    | none => .next s
    | some l =>
      if !t.engStarts .a || t.cx.st ≠ 0 || l.allIssued || t.blk.rerunning || t.blk.forcing then .next s
      else
        match l.body[l.at_]?.bind fun n => n.op.cargs.map fun x => (n, x) with
        | none => .next s
        | some (n, x) =>
          match issueInstance n l x t with
          | .ok (_, w) => .next w
          | .error (.trap i) => .next (t.raiseCmd .a { Cmd.new n.op n.addr with idx := (t.blk.eng .a).next } i)
          | .error (.fault f) => .fault f
          | .error _ => .next s

/-! ## Multicast targets (R163) -/

/-- What a command in progress does in an event of its own: its progress, or what stops it. -/
def State.cmdAct (s : State) (e : Eng) (c : Cmd) (x : M Cmd) : Host.Outcome State Fault Refusal :=
  match asCmd e c.idx 8 x s with
  | .ok (k, t) => .next (s.settle e c.idx { t with blk := { t.blk with idle := t.time }.modEng e fun q => q.put k })
  | .error (.trap i) => .next (s.raiseCmd e c i)
  | .error (.mark va) =>
    .next { s with blk := (s.blk.modEng e fun q => q.put (c.onMark s.time va)).setSt stLATE }
  | .error (.fault f) => .fault f
  | .error _ => .next s

/-- MCAST_DELIVER: target `m` of a served multicast goes on. -/
def execMcastDeliver (u : Nat) (idx : Nat) (m : Nat) (s : State) : Host.Outcome State Fault Refusal :=
  match s.blockAt u with
  | none => .next s
  | some _ =>
    let t := s.focus u
    match (t.blk.eng .a).prog.find? fun c => c.idx.toNat == idx with
    | none => .next s
    | some c =>
      match c.op with
      | .mcast x e => if t.engLive .a && !c.stuck && c.served then t.cmdAct .a c (mcDeliver c e x.o1 m) else .next s
      | _ => .next s

/-! ## Leave (R168, R205, R329) -/

/-- A 32-bit counter that saturates. -/
def sat32 (w : Word) (n : Nat) : Word := BitVec.ofNat 32 (min (2 ^ 32 - 1) (w.toNat + n))

/-- LEAVE of the block in focus after a grant. -/
def Block.granted (b : Block) (since : Nat) : Block :=
  { b with grants := sat32 b.grants 1, stall := sat32 b.stall (b.cyc - since) }

/-- An island after a grant of its first request. -/
def Isl.grant (i : Isl) (r : LeaveReq) (now : Nat) : Isl :=
  { i with iuse := i.iuse + r.units, grants := min (2 ^ 32 - 1) (i.grants + 1),
           stall := min (2 ^ 32 - 1) (i.stall + (now - r.since) / nsUnits), reqs := i.reqs.drop 1 }

/-- Body length of the `ngo` at which the a strand waits. -/
def State.ngoCount (s : State) : Nat :=
  let st := s.str .a
  match st.line with
  | none => 0
  | some l =>
    match aWord l (wordOf st.pc) with
    | .ok (.aNgo x) => x.k1.val + 1
    | _ => 0

/-- LEAVE_GRANT: the first request of an island is granted once the granted current plus it does not exceed the limit. A
request whose block or command is gone leaves the list. -/
def execLeaveGrant (isl : Fin 32) (s : State) : Host.Outcome State Fault Refusal :=
  let i := s.isls[isl]
  match i.reqs with
  | [] => .next s
  | r :: rest =>
    let gone := s.modIsl isl fun i => { i with reqs := rest }
    match s.blockAt r.uid with
    | none => .next gone
    | some _ =>
      let t := (s.modIsl isl fun i => i.grant r s.time).focus r.uid
      match r.cmd with
      | some idx =>
        (match (t.blk.eng r.eng).prog.find? fun c => c.idx == idx with
        | none => .next gone
        | some c =>
          match c.leave with
          | .waiting since =>
            if Config.ilim isl.val < i.iuse + r.units then .next s
            else
              .next { t with
                blk := (t.blk.granted since).modEng r.eng fun q => q.put { c with leave := .granted r.units isl } }
          | _ => .next gone)
      | none =>
        match (t.str .a).wait, (t.str .a).stop with
        | .leave since, none =>
          if Config.ilim isl.val < i.iuse + r.units then .next s
          else
            let w := { t with blk := t.blk.granted since }
            (match ngoLive t.ngoCount r.units isl w with
            | .ok (f, w) => .next (w.complete .a 1 f)
            | .error (.trap x) => .next ((w.returnLeave isl r.units).raise .a x)
            | .error (.fault f) => .fault f
            | .error _ => .next s)
        | _, _ => .next gone

/-! ## The Timetable (R171, R172) -/

/-- LDT_CUTOFF: the cut-off of an `ldt`'s target slot. One still in the queue has missed it. -/
def execLdtCutoff (u : Nat) (idx : Nat) (s : State) : Host.Outcome State Fault Refusal :=
  match s.blockAt u with
  | none => .next s
  | some _ =>
    let t := s.focus u
    let d := t.blk.die.val
    match (t.blk.eng .a).all.find? fun c => c.idx.toNat == idx with
    | none => .next s
    | some c =>
      match c.op with
      | .ldt x =>
        let at_ := t.blk.ldtSlot c x.o3.val
        if !t.engLive .a || c.stuck || c.served || t.time + cutLead < at_ then .next s
        else if (t.blk.eng .a).queue.any fun y => y.idx == c.idx then
          let k : Cmd := { c with slotAt := at_ }.slipRotation d
          .next { t.countSlips 1 with blk := t.blk.modEng .a fun q =>
            { q with queue := q.queue.map fun y => if y.idx = c.idx then k else y } }
        else t.cmdAct .a c (ldtCut c x)
      | _ => .next s

/-- LDT_VECTOR_READY: a served `ldt` reads its slot once the slot has come, and then a vector becomes readable at its time. -/
def execLdtVectorReady (u : Nat) (idx : Nat) (s : State) : Host.Outcome State Fault Refusal :=
  match s.blockAt u with
  | none => .next s
  | some _ =>
    let t := s.focus u
    let d := t.blk.die.val
    match (t.blk.eng .a).prog.find? fun c => c.idx.toNat == idx with
    | none => .next s
    | some c =>
      match c.op with
      | .ldt x =>
        let n := ldtVectors d t.blk.streams[oStream x.o1]
        if !t.engLive .a || c.stuck || !c.served || n ≤ c.prog then .next s
        else if c.data.isEmpty then (if c.slotAt ≤ t.time then t.cmdAct .a c (ldtTake c x) else .next s)
        else if c.slotAt * (n - 1) + readyAfter d c.prog n ≤ t.time * (n - 1) then t.cmdAct .a c (ldtReady c x)
        else .next s
      | _ => .next s

/-- An act of the Timetable that is due: when, for which command, and whether it is a cut-off or, of a served one, the slot or a
vector that becomes readable. -/
structure Due where
  at_ : Nat
  uid : Nat
  idx : Nat
  ready : Bool
deriving DecidableEq, Repr

/-- What is due for the commands of the block in focus. -/
def State.dueIn (s : State) : List Due :=
  if !s.engLive .a then []
  else (s.blk.eng .a).all.filterMap fun c => match c.op with
    | .ldt x => (c.ldtDue s.blk x).map fun t => { at_ := t, uid := s.blk.uid, idx := c.idx.toNat, ready := c.served }
    | _ => none

/-- The earlier of two acts. -/
def earlier (x : Option Due) (y : Due) : Option Due :=
  match x with
  | some z => if y.at_ < z.at_ then some y else some z
  | none => some y

/-- The act of the Timetable that is due first within the next `dt` of time (R171): nothing else happens before it. -/
def State.timetable (s : State) (dt : Nat) : Option Due :=
  ((s.blocks.filter fun b => b.placed).flatMap fun b => (s.focus b.uid).dueIn).foldl
    (fun x y => if y.at_ ≤ s.time + dt then earlier x y else x) none

/-! ## Stalled and failed accesses (R235, R259, R286) -/

/-- A trap with a failing address. -/
def trapInfo (cause va : Nat) : TrapInfo := { cause := cause, faddr := BitVec.ofNat 64 va, aux := 0, sub := 0, pc := none }

/-- The address at which a wait has stalled for LATELIM on a mark that still stands (R259). -/
def State.lateAt (s : State) (w : Wait) : Option Nat :=
  match w with
  | .mark since va => if s.cx.late s.time since && s.vaMarked va then some va else none
  | _ => none

/-- Whether a command raises trap 0x35: a scrub does not (R174). -/
def Cmd.takesLate (c : Cmd) : Bool :=
  match c.op with
  | .scrub _ => false
  | _ => !c.stuck

/-- The lowest-tagged strand that has a chain. -/
def Block.firstStrand (b : Block) : Eng := (engines.find? fun e => (b.str e).chain).getD .c

/-- A fault of the loading of the attribute tables: the block does not start, and the context stops; the trap is recorded at the first
instruction of the entry line of the lowest-tagged strand that has a chain, wherever a moved or restored strand stood (R90;
log 59). -/
def State.tableFault (s : State) (i : TrapInfo) : State :=
  let e := s.blk.firstStrand
  let a := (s.str e).entry
  { s with blk := { s.blk with started := false, tables := .run } }.recordStop e
    { cause := BitVec.ofNat 8 i.cause, pc := a, caddr := a, faddr := i.faddr, aux := i.aux, sub := 0, cidx := 0,
      precise := true, written := [] }

/-- LATE_DATA_TIMEOUT (R259): the strand of an engine, or else its first such command, has stalled for LATELIM on a mark that still
stands; or the loading of the block's tables has. -/
def execLateDataTimeout (u : Nat) (e : Eng) (s : State) : Host.Outcome State Fault Refusal :=
  match s.blockAt u with
  | none => .next s
  | some _ =>
    let t := s.focus u
    match if t.live e then t.lateAt (t.str e).wait else none with
    | some va => .next (t.raise e (trapInfo 0x35 va))
    | none =>
      if !t.blk.started then
        match t.lateAt t.blk.tables with
        | some va => .next (if t.cx.st = 0 then t.tableFault (trapInfo 0x35 va) else s)
        | none => .next s
      else if !t.engLive e then .next s
      else
        match (t.blk.eng e).prog.find? fun c => c.takesLate && (t.lateAt c.waits).isSome with
        | some c => .next (t.raiseCmd e c (c.causeIn (trapInfo 0x35 ((t.lateAt c.waits).getD 0))))
        | none => .next s

/-- A counter of link retries saturates. -/
def LinkTel.retried (x : LinkTel) : LinkTel := { x with retry := min (2 ^ 32 - 1) (x.retry + 1) }

/-- What a command has still to read; a copy list, for the entry that it stands at, which its fault names (R157). -/
def readsOf (e : Eng) (c : Cmd) : M (List ReadAt) :=
  match e with
  | .a => match c.op with
    | .copyl _ => c.entryReads
    | _ => aReads c
  | .m => mReads c
  | .g => gReads c
  | _ => pure []

/-- How far into `n` bytes at `p` the first byte lies that goes over link `k` from die `d`: a 64-byte unit goes one way. -/
def overUnits (d k p n : Nat) : Option Nat :=
  ((List.range ((p % 64 + n + 63) / 64)).find? fun i => goesOver d (64 * (p / 64 + i)) k).map fun i => 64 * (p / 64 + i) - p

/-- The first address of the ranges of one side that is read over link `k`; a peer package lies behind its port. -/
def State.rangesOver (s : State) (k : Nat) (far : Option Nat) : Nat → List (Nat × Nat) → Option Nat
  | _, [] => none
  | va, (p, n) :: r =>
    match (match far with
      | some i => if portOver (s.peer i).2 k then some 0 else none
      | none => overUnits s.blk.die.val k p n) with
    | some o => some (va + o)
    | none => s.rangesOver k far (va + n) r

/-- The first address of some ranges that a command reads over link `k`, in the order of its reads (log 26). -/
def firstOver (k : Nat) : List ReadAt → M (Option Nat)
  | [] => pure none
  | (far, va, n) :: r => do
    match (← getS).rangesOver k far va (← sideRanges .read far va n) with
    | some a => return some a
    | none => firstOver k r

/-- The failing address of a command's read over link `k`: none where it reads nothing over it. -/
def State.readOver (s : State) (e : Eng) (c : Cmd) (k : Nat) : Option Nat :=
  match (do firstOver k (← readsOf e c)) s with
  | .ok (a, _) => a
  | .error _ => none

/-- LINK_READ_FAILURE (R235, R327): a read that a command makes over a link fails at the link layer. It is retried up to sixteen
times, each reported as a link event; when it fails then, the link is fenced, and a command behind a CXL or peer port raises trap
0x42. Traffic over another link goes another way, or fails at its next access. Nothing reads over a link that is fenced. -/
def execLinkReadFailure (link : Fin 50) (u : Nat) (e : Eng) (idx : Nat) (s : State) : Host.Outcome State Fault Refusal :=
  match s.blockAt u with
  | none => .next s
  | some _ =>
    let t := s.focus u
    let f := ctxVf t.blk.ctx
    match (t.blk.eng e).prog.find? fun c => c.idx.toNat == idx with
    | none => .next s
    | some c =>
      if c.stuck || !t.engLive e || (t.links[link]).fenced then .next s
      else
        match t.readOver e c link.val with
        | none => .next s
        | some va =>
          if c.tries < 16 then
            let w := { t with links := t.links.set link (t.links[link]).retried,
                              blk := t.blk.modEng e fun q => q.put { c with tries := c.tries + 1 } }
            .next (w.linkEvent f 0 t.blk.die)
          else
            let w := { t with links := t.links.set link { t.links[link] with fenced := true } }.linkEvent f 0x42 t.blk.die
            .next (if link.val < 22 then w.raiseCmd e c (c.causeIn (trapInfo 0x42 va)) else w)

end Sys2Proof.Machine
end

