-- ==== Sys2Proof/Machine/Launch.lean ====
section
/-! DEFINITION. Launch packets and their entry (R27, R28, R125, R126, R266 to R275): parsing and refusal, `klaunch` and
`kxfer`, the launch queues, and transfers. -/

namespace Sys2Proof.Machine

/-! ## Packets (R268, R269, R272) -/

/-- The number in `n` bytes from byte `a`. -/
def fieldN (bs : List Byte) (a n : Nat) : Nat := leNat ((bs.drop a).take n)

/-- Whether bytes of a range are all zero. -/
def zeroN (bs : List Byte) (a n : Nat) : Bool := fieldN bs a n == 0

/-- A packet's fields (R268). -/
def packetOf (bs : List Byte) : Packet :=
  let f := fieldN bs
  { taskid := BitVec.ofNat 64 (f 0 8), dies := BitVec.ofNat 16 (f 8 2), ferry := BitVec.ofNat 16 (f 10 2),
    blocks := BitVec.ofNat 32 (f 12 4), image := BitVec.ofNat 64 (f 16 8),
    entries := Vector.ofFn fun e => BitVec.ofNat 32 (f (24 + 4 * e.val) 4), scratch := BitVec.ofNat 32 (f 48 4),
    tok := BitVec.ofNat 8 (f 52 1), flags := BitVec.ofNat 8 (f 53 1), slip := BitVec.ofNat 8 (f 54 1),
    kind := BitVec.ofNat 8 (f 55 1), est := BitVec.ofNat 32 (f 56 4), param := BitVec.ofNat 64 (f 64 8),
    gtab := BitVec.ofNat 64 (f 72 8), rings := BitVec.ofNat 64 (f 80 8), strms := BitVec.ofNat 64 (f 88 8),
    deps := Vector.ofFn fun i => BitVec.ofNat 16 (f (96 + 2 * i.val) 2), done := BitVec.ofNat 64 (f 104 8) }

/-- A transfer descriptor's fields (R272). -/
def xferOf (bs : List Byte) : Xfer :=
  let f := fieldN bs
  { dst := BitVec.ofNat 64 (f 0 8), src := BitVec.ofNat 64 (f 8 8), len := BitVec.ofNat 32 (f 16 4),
    id := BitVec.ofNat 16 (f 20 2), dom := BitVec.ofNat 8 (f 22 1), fd := BitVec.ofNat 8 (f 23 1),
    done := BitVec.ofNat 64 (f 24 8) }

def Packet.tokens (p : Packet) : Nat := p.tok.toNat % 16
def Packet.ckpt (p : Packet) : Bool := bitAt (p.flags.setWidth 32) 0
def Packet.kill (p : Packet) : Bool := bitAt (p.flags.setWidth 32) 1
def Packet.slotFlag (p : Packet) : Bool := bitAt (p.flags.setWidth 32) 2

/-- Bytes of slice that a block of a task needs (R271). -/
def Packet.need (p : Packet) : Nat := (p.scratch.toNat + 80) * 1024

/-- The virtual compute dies of a mask. -/
def maskBits (m : BitVec 16) : List Nat := (List.range 8).filter fun d => m.getLsbD d

/-- The physical dies behind a mask; none where it names a die that the partition lacks. -/
def maskDies (w : Word) (m : BitVec 16) : Option (List Nat) := (maskBits m).mapM fun d => physDie w d

/-- The cores of a partition on a physical die. -/
def partCores (w : Word) (d : Nat) : List Nat :=
  (quadsOf w d).flatMap fun q => (List.range (quadCores d)).map fun c => q * quadCores d + c

/-- Whether a core's slice is fenced (R327, R328). -/
def State.coreFenced (s : State) (d c : Nat) : Bool := (s.cores[Fin.ofNat 320 (40 * d + c)]).fenced

/-- The cores of a partition's die that can hold a block of a task. -/
def State.fitCores (s : State) (w : Word) (p : Packet) (d : Nat) : List Nat :=
  if p.need ≤ sliceSize d then (partCores w d).filter fun c => !s.coreFenced d c else []

/-! ## Checks (R27, R28, R271) -/

/-- A check that answers a refusal code. -/
abbrev V := ExceptT Nat M

/-- Refuse with a code. -/
def refuseIf (b : Bool) (code : Nat) : V Unit := if b then throw code else pure ()

/-- Read an array that a packet names; a fault refuses with the code of its check (R271). -/
def readOr (code va n : Nat) : V (List Byte) := do
  match ← (attempt (readVirt false va n) : M _) with
  | .ok bs => return bs
  | .error _ => throw code

/-- Whether a list rises strictly. -/
def rising : List Nat → Bool
  | x :: y :: r => x < y && rising (y :: r)
  | _ => true

/-- One group-table entry (R27). -/
def readGroup (tab : List Byte) (blocks i : Nat) : V (Option Group) := do
  let e := (tab.drop (16 * i)).take 16
  let kind := fieldN e 0 1
  refuseIf (2 < kind || !zeroN e 1 3) 4
  if kind = 0 then return none
  let n := fieldN e 4 4
  refuseIf (n = 0 || blocks < n) 4
  let bs ← readOr 4 (fieldN e 8 8) (4 * n)
  let l := (List.range n).map fun j => fieldN bs (4 * j) 4
  refuseIf (!rising l || l.any fun x => blocks ≤ x) 4
  return some { index := i, kind := kind, members := l }

/-- The group table of a packet (R27, R28). -/
def readGroups (p : Packet) : V (List Group) := do
  if p.gtab = 0 then return []
  let tab ← readOr 4 p.gtab.toNat 4096
  let gs := (← (List.range 256).mapM fun i => readGroup tab p.blocks.toNat i).filterMap id
  refuseIf (gs.any fun g => g.members.any fun i => 4 < (gs.filter fun h => h.members.contains i).length) 4
  return gs

/-- Barrier components joined by one more group (R28). -/
def joinGroup (comps : List (List Nat)) (g : List Nat) : List (List Nat) :=
  let hit := comps.filter fun c => c.any fun i => g.contains i
  let rest := comps.filter fun c => !(c.any fun i => g.contains i)
  ((hit.flatten ++ g).eraseDups) :: rest

/-- The barrier components of a task's groups (R28). -/
def components (gs : List Group) : List (List Nat) :=
  (gs.filter fun g => g.kind == 1).foldl (fun l g => joinGroup l g.members) []

/-- The ring descriptors of a packet. -/
def ringDescs (bs : List Byte) : List RingDesc :=
  (List.range 32).map fun r =>
    { base := BitVec.ofNat 64 (fieldN bs (16 * r) 8), cap := BitVec.ofNat 32 (fieldN bs (16 * r + 8) 4),
      slot := BitVec.ofNat 32 (fieldN bs (16 * r + 12) 4) }

/-- Whether a descriptor's base lies in the scratch window. -/
def RingDesc.inScratch (r : RingDesc) : Bool := scratchWin ≤ r.base.toNat && r.base.toNat < scratchWin + 10 * 2 ^ 28

/-- Whether a used descriptor keeps the limits of R48. -/
def RingDesc.ok (r : RingDesc) : Bool :=
  r.cap == 0 || (r.base.toNat % 64 == 0 && r.cap.toNat ≤ 65536 && r.slot.toNat % 64 == 0 && 64 ≤ r.slot.toNat &&
    r.slot.toNat ≤ 2 ^ 20 && (r.inScratch || isMain r.base.toNat))

/-- Whether a scratch ring ends inside every slice of a set of dies (R232). -/
def RingDesc.fits (r : RingDesc) (dies : List Nat) : Bool :=
  r.cap == 0 || !r.inScratch ||
    dies.all fun d => r.base.toNat % 2 ^ 22 + r.cap.toNat * r.slot.toNat ≤ sliceSize d

/-- The stream bindings of a packet. -/
def streamBinds (bs : List Byte) : List (Dword × Dword) :=
  (List.range 16).map fun g => (BitVec.ofNat 64 (fieldN bs (16 * g) 8), BitVec.ofNat 64 (fieldN bs (16 * g + 8) 8))

/-- Whether a stream binding keeps the checks of R148, on slices of a set of dies. -/
def bindOk (dies : List Nat) (x : Dword × Dword) : Bool :=
  let y : Stream := { Stream.reset 0 0 with sbind := x.1, sfmt := x.2 }
  let v := x.1.toNat
  (x.1 == 0 || (v % 64 == 0 && v / 2 ^ 22 % 2 ^ 26 == 0 && y.cap != 0 &&
    dies.all fun d => 64 * y.base + 320 * y.cap ≤ sliceSize d)) &&
  x.2.toNat % 2 ^ 12 == 0 && y.format < 13 && x.2.toNat / 2 ^ 20 % 16 < 8 &&
  (if fmtScaled y.format then scaleBytes y.format ≤ y.sstr else y.soff == 0 && y.sstr == 0)

/-- Whether DONE is 0 or an aligned word in the synchronisation-engine window of a die in the partition (R271). -/
def doneOk (w : Word) (a : Dword) : Bool :=
  a == 0 || (a.toNat % 4 == 0 && seWin ≤ a.toNat && a.toNat < seWin + 10 * 2 ^ 24 &&
    (physDie w ((a.toNat - seWin) / 2 ^ 24)).isSome)

/-- A task with nothing placed. -/
def Task.new (ctx : Nat) (src : Source) (p : Packet) : Task :=
  { key := 0, ctx := ctx, src := src, pkt := p, xfer := none, groups := [], rings := [], strms := [], held := [],
    want := [], entered := 0, est := p.est, doneIdx := [], drains := [], sees := none, clock := Vector.replicate 10 0 }

/-- Reserved fields of a launch packet (R268). -/
def launchReserved (bs : List Byte) : Bool :=
  fieldN bs 8 2 / 2 ^ 10 != 0 || fieldN bs 10 2 / 2 ^ 10 != 0 || 16 ≤ fieldN bs 52 1 || 8 ≤ fieldN bs 53 1 ||
    !zeroN bs 60 4 || !zeroN bs 112 16

/-- The checks of a launch packet in their order (R271); `want` are its physical dies. -/
def checkLaunch (ctx : Nat) (src : Source) (bs : List Byte) : V Task := do
  let p := packetOf bs
  let s ← (getS : M State)
  let w := s.partWord
  refuseIf (launchReserved bs || 1 < p.kind.toNat || p.image.toNat % 64 != 0) 1
  refuseIf (p.dies == 0 || 256 ≤ p.dies.toNat || 256 ≤ p.ferry.toNat) 2
  match maskDies w p.dies, maskDies w p.ferry with
  | some dies, some ferry =>
    refuseIf (p.blocks == 0 || 2 ^ 24 < p.blocks.toNat) 3
    let gs ← readGroups p
    let comps := components gs
    let room := (dies.map fun d => (s.fitCores w p d).length).sum
    refuseIf (comps.any fun c => room < c.length) 5
    refuseIf ((dies ++ ferry).all fun d => sliceSize d < p.need) 6
    let rb ← (if p.rings = 0 then pure (.ok (List.replicate 512 0)) else attempt (readVirt false p.rings.toNat 512) : M _)
    (match rb with
    | .ok x => refuseIf ((ringDescs x).any fun r => !r.fits dies) 6
    | .error _ => pure ())
    refuseIf (p.entries.all fun e => e == 0xFFFFFFFF) 7
    let rings ← match rb with
      | .ok x => pure (if p.rings = 0 then [] else ringDescs x)
      | .error _ => throw 8
    refuseIf (rings.any fun r => !r.ok) 8
    let strms ← if p.strms = 0 then pure [] else do pure (streamBinds (← readOr 9 p.strms.toNat 256))
    refuseIf (strms.any fun x => !bindOk dies x) 9
    refuseIf (!doneOk w p.done) 10
    let slots := ((dies ++ ferry).eraseDups.map fun d =>
      let n := (s.fitCores w p d).length
      if d < 4 then min 16 n else if dies.contains d then n else 0).sum
    refuseIf (p.slotFlag && comps.any fun c => slots < c.length) 11
    return { Task.new ctx src p with groups := gs, rings := rings, strms := strms, want := dies }
  | _, _ => throw 2

/-- The checks of a transfer in their order (R271, R272): `resv` says that a reserved field of its packet is not zero, and `dies` are
the physical dies that it names, none where a mask names a die that it may not. -/
def checkXfer (ctx : Nat) (src : Source) (p : Packet) (d : List Byte) (resv : Bool) (dies : Option (List Nat)) : V Task := do
  let x := xferOf d
  let w := (← (getS : M State)).partWord
  refuseIf (resv || x.id == 0 || x.len.toNat % 64 != 0 || x.len == 0 || !zeroN d 32 32 || 1 < x.fd.toNat || 32 ≤ x.dom.toNat ||
    (11 ≤ x.dom.toNat && x.dom.toNat < 16)) 1
  match dies with
  | some [d] =>
    refuseIf (!doneOk w x.done) 10
    return { Task.new ctx src { p with done := x.done } with xfer := some x, want := [d] }
  | _ => throw 2

/-- The checks of a host packet, either kind. -/
def checkPacket (ctx : Nat) (src : Source) (bs : List Byte) : V Task := do
  let p := packetOf bs
  if p.kind = 1 then
    let w := (← (getS : M State)).partWord
    checkXfer ctx src p (bs.drop 64)
      (fieldN bs 8 2 / 2 ^ 10 != 0 || fieldN bs 10 2 / 2 ^ 10 != 0 || 16 ≤ fieldN bs 52 1 || 8 ≤ fieldN bs 53 1 ||
        !zeroN bs 60 4)
      (if 256 ≤ p.dies.toNat || 256 ≤ p.ferry.toNat || (maskDies w p.ferry).isNone then none else maskDies w p.dies)
  else checkLaunch ctx src bs

/-! ## Scoreboards (R270) -/

/-- Entries taken on a physical die. -/
def State.scoreUsed (s : State) (d : Nat) : Nat := (s.tasks.filter fun t => t.held.contains d).length

def State.scoreRoom (s : State) (d : Nat) : Bool := s.scoreUsed d < 64

/-- What a transfer knows is what its launch makes known (R126). -/
def State.taskLearns (s : State) (t : Task) : State :=
  match t.sees with
  | some l => s.learn (.task t.key) l
  | none => s.learnAll (.task t.key)

/-- A checked item enters with the entries of `now`; those of `later` follow (R270). -/
def State.enterTask (s : State) (t : Task) (now later : List Nat) : State :=
  let k := { t with key := s.nextKey, entered := s.time, held := now, want := later }
  { s with tasks := s.tasks ++ [k], nextKey := s.nextKey + 1 }.taskLearns k

/-- A launch by a strand releases what the strand knows, with its die's clock, to the child; its loads in flight come before it (R53,
R56, R126). -/
def State.launchFrom (s : State) (e : Eng) (t : Task) : State × Task :=
  let u := (s.clockUp s.blk.die).settleAll (.strand s.blk.uid e)
  (u, { t with sees := some (u.knownTo (.strand u.blk.uid e)), clock := (u.dies[u.blk.die]).clock })

/-! ## Device-side launch (R125, R126, R270) -/

/-- `klaunch` and `kxfer`: the read, the stall for an entry on the issuing die, the checks, the entry and its code; a
release at package scope. -/
def enterFrom (x : UArgs) (n : Nat) (check : Nat → Nat → List Byte → Nat → V Task) (s : State) :
    Host.Outcome State Fault Refusal :=
  issue .c 1 x.pred false (dropAll .c [x.a] [x.d]) (thenGo do
    barRound
    let a ← readS .c x.a
    portAcquire .c [x.a]
    if a.toNat % n ≠ 0 then trapAt 0x33 a.toNat
    let bs ← loadAs .c false a.toNat n
    let s ← getS
    let d := s.blk.die.val
    waitUntil (s.scoreRoom d)
    match ← (check s.blk.ctx s.blk.uid bs d).run with
    | .error code => writeS .c x.d (BitVec.ofNat 64 code)
    | .ok t =>
      modS fun s =>
        let (s, t) := s.launchFrom .c t
        s.enterTask t (t.want.filter fun y => y == d) (t.want.filter fun y => y != d)
      writeS .c x.d 0
    portRelease .c [x.d]) s

/-- `c.klaunch` (R125). -/
def execCKlaunch (x : UArgs) (s : State) : Host.Outcome State Fault Refusal :=
  enterFrom x 128 (fun ctx uid bs _ => do
    refuseIf ((packetOf bs).kind == 1) 1
    checkLaunch ctx (.block uid) bs) s

/-- `c.kxfer` (R125): the issuing die performs the transfer. -/
def execCKxfer (x : UArgs) (s : State) : Host.Outcome State Fault Refusal :=
  enterFrom x 64 (fun ctx uid bs d => checkXfer ctx (.block uid) (packetOf []) bs false (some [d])) s

/-- KLAUNCH_REMOTE_ENTRY (R270): a task takes its entry on another die of its mask as soon as one is free. -/
def execKlaunchRemoteEntry (t : Nat) (die : Fin 8) (s : State) : Host.Outcome State Fault Refusal :=
  match s.taskAt t with
  | none => .next s
  | some k =>
    if k.want.contains die.val && s.scoreRoom die.val then
      .next { s with tasks := s.tasks.map fun x =>
        if x.key = t then { x with held := x.held ++ [die.val], want := x.want.filter (· != die.val) } else x }
    else .next s

/-! ## Completion (R267, R275) -/

def State.modLq (s : State) (f n : Nat) (g : LaunchQ → LaunchQ) : State :=
  s.modVf f fun v => { v with lq := v.lq.set (Fin.ofNat 8 n) (g (v.lq[Fin.ofNat 8 n])) }

def State.lqAt (s : State) (f n : Nat) : LaunchQ := (s.vfs[Fin.ofNat 64 f]).lq[Fin.ofNat 8 n]

/-- A completion entry, written with a release at system scope (R267): none while its place carries a forwarding mark, on which it
stalls (R259). `by_` is the party whose writes the release covers, with its block: none for a packet that is refused. An entry whose
write faults is lost, and counts as written, and so does one of a fenced function, whose memory requests are dropped (R324). -/
def State.completion (s : State) (by_ : Option (Block × Party)) (cx f n : Nat) (taskid : Dword) (code ndone : Nat) : Option State :=
  let q := s.lqAt f n
  let a := q.cbase.toNat + q.done.toNat % 2 ^ q.log2n.toNat * 16
  let count := fun t : State => t.modLq f n fun q => { q with done := q.done + 1 }
  if s.vfFenced f then some (count s)
  else
    let bs := leBytes 8 taskid.toNat ++ leBytes 4 code ++ leBytes 4 ndone
    match asHub cx (acting (by_.map fun x => { party := x.2, unit := 16 }) (writeVirt false a bs)) s with
    | .ok (p, t) =>
      let t := match by_ with
        | some (b, q) => t.releaseOf b q [locOf p 16] .sys
        | none => t
      some (count (t.hostUp (hdieFor f)))
    | .error (.mark _) => none
    | .error .freeze => none
    | .error _ => some (count s)

/-- The add at a completed task's DONE word by die `b.die`'s synchronisation engine: a release at package scope that covers every
write of the task's blocks (R275). -/
def State.doneAdd (s : State) (b : Block) (t : Task) : State :=
  let p := Party.task t.key
  match asHub t.ctx (acting (some { party := p, unit := 4 })
      (rmw true t.pkt.done.toNat 4 false false (fun old => (old + 1) % 2 ^ 32) 1)) s with
  | .ok ((_, a), u) => u.releaseOf b p [locOf a 4] .pkg
  | .error _ => s

/-- A task ends: its entries are freed, a host task's completion entry is written, and a completed task's DONE word is
raised (R267, R270, R275); `b` is its last block, or the die that performed it. None while its completion entry stalls. -/
def State.endTask (s : State) (b : Block) (t : Task) (code : Nat) : Option State :=
  let s := { s with tasks := s.tasks.filter fun x => x.key != t.key }
  let s := if code = 0 ∧ t.pkt.done ≠ 0 then s.doneAdd b t else s
  match t.src with
  | .host f n => s.completion (some (b, .task t.key)) t.ctx f n t.pkt.taskid code t.doneIdx.length
  | .block _ => some s

/-! ## Host queues (R266, R270) -/

/-- Queue overrun: EN is cleared and a type-2 event written (R266, R284). -/
def State.overrun (s : State) (f n : Nat) : State :=
  let e := s.mkEvent (16 * f + (s.lqAt f n).ctx.val) 2 0 0 0 (BitVec.ofNat 64 n) 0
  (s.modLq f n fun q => { q with en := false }).hubEvent e

/-- Whether more packets are waiting than the ring holds. -/
def LaunchQ.over (q : LaunchQ) : Bool := 2 ^ q.log2n.toNat < (q.tail - q.head).toNat

/-- LQTAIL_WRITE (R266): the host has written packets. -/
def execLqtailWrite (f : Fin 64) (n : Fin 8) (val : Dword) (s : State) : Host.Outcome State Fault Refusal :=
  if s.vfFenced f.val then .next s else
  let t := s.modLq f.val n.val fun q => { q with tail := val.setWidth 32 }
  let q := t.lqAt f.val n.val
  .next (if q.en && q.over then t.overrun f.val n.val else t)

/-- What became of a packet. -/
inductive PacketEnd
  | unread
  | refused (id : Dword) (code : Nat)
  | good (t : Task)
deriving DecidableEq, Repr

/-- Read and check a packet. -/
def readPacket (cx f n a : Nat) : M PacketEnd := do
  match ← attempt (readVirt false a 128) with
  | .error _ => return .unread
  | .ok bs =>
    match ← (checkPacket cx (.host f n) bs).run with
    | .error code => return .refused (packetOf bs).taskid code
    | .ok t => return .good t

/-- LAUNCH_PACKET_READ (R266, R271): the next packet of a queue is read and checked: it is refused, with a completion
entry, or waits to be entered. -/
def execLaunchPacketRead (f : Fin 64) (n : Fin 8) (s : State) : Host.Outcome State Fault Refusal :=
  if s.vfFenced f.val then .next s else
  let q := s.lqAt f.val n.val
  let cx := 16 * f.val + q.ctx.val
  if !q.en || q.head = q.tail || !(s.ctxAt cx).valid || (s.vfPart f.val).isNone then .next s
  else if q.over then .next (s.overrun f.val n.val)
  else
    let a := q.base.toNat + q.head.toNat % 2 ^ q.log2n.toNat * 128
    let took := s.modLq f.val n.val fun q => { q with head := q.head + 1 }
    match asHub cx (readPacket cx f.val n.val a) took with
    | .error (.fault x) => .fault x
    | .error _ => .next s
    | .ok (.unread, t) =>
      let (x, t) := t.freeDword
      .next ((t.completion none cx f.val n.val x 1 0).getD s)
    | .ok (.refused id code, t) => .next ((t.completion none cx f.val n.val id code 0).getD s)
    | .ok (.good k, t) =>
      let k := { k with key := t.nextKey, clock := t.hostClock (hdieFor f.val) }
      .next ({ t with waiting := t.waiting ++ [k], nextKey := t.nextKey + 1 }.taskLearns k)

/-- Whether an earlier packet of the same queue still waits. -/
def State.behind (s : State) (k : Task) : Bool := s.waiting.any fun x => x.src == k.src && x.key < k.key

/-- LAUNCH_ENTRY (R270): a checked packet enters on all its dies at once, in queue order. -/
def execLaunchEntry (t : Nat) (s : State) : Host.Outcome State Fault Refusal :=
  match s.waiting.find? fun x => x.key == t with
  | none => .next s
  | some k =>
    if s.behind k || !(k.want.all s.scoreRoom) then .next s
    else
      .next { s with waiting := s.waiting.filter fun x => x.key != t,
                     tasks := s.tasks ++ [{ k with held := k.want, want := [], entered := s.time }] }

/-! ## Transfers (R145, R272, R273) -/

/-- The bytes of a transfer, granule by granule; the command notes what it has written. -/
def xferBytes (x : CopyMm) (c : Cmd) : Nat → Nat → Bool → M Cmd
  | 0, _, _ => pure c
  | n + 1, at_, st =>
    if x.len ≤ at_ then pure c
    else do
      let (c, k, st) ← copyUnit .a c x x.read at_ st
      xferBytes x c n k st

/-- The copy that a transfer performs. -/
def Xfer.copy (x : Xfer) : CopyMm :=
  { dst := x.dst.toNat, src := x.src.toNat, len := x.len.toNat, dom := x.dom.toNat, fd := x.fd == 1 }

/-- A transfer faults (R272, R277, R280): the context stops with the copy's cause, and the c strand of the issuing block
records it with the transfer's id. -/
def State.xferFault (s : State) (t : Task) (x : Xfer) (i : TrapInfo) : State :=
  let s := match t.src with
    | .block u => if (s.blockAt u).isSome then
        let b := s.blk.uid
        ((s.focus u).recordStop .c { cause := BitVec.ofNat 8 i.cause, pc := (s.focus u).nextPc .c, caddr := 0, faddr := i.faddr,
                                     aux := x.id.setWidth 64, sub := BitVec.ofNat 8 i.sub, cidx := 0, precise := false,
                                     written := [] }).focus b
      else s
    | .host _ _ => s
  (s.modCtx t.ctx fun c => c.halt (BitVec.ofNat 8 i.cause)).stopDone t.ctx

/-- The release of a transfer at package scope, at the bytes that it has written (R153, R272): dropped where package scope does not
hold the home of every one (R58). -/
def State.xferRelease (s : State) (b : Block) (t : Task) (c : Cmd) : State :=
  if c.wr.all fun x => s.inScope .pkg x.1 then
    s.releaseOf b (.task t.key) (c.wr.map fun x => locOf x.1 x.2) .pkg
  else s

/-- A transfer retires: an acquire at package scope for the blocks of every task that depends on it, whenever that enters, and its id
is resident from the next ac (R273). -/
def State.retireXfer (s : State) (t : Task) (x : Xfer) : State :=
  let mine := fun r : Retired => r.ctx == t.ctx && r.id == x.id
  { s with retired := { ctx := t.ctx, id := x.id, at_ := s.time,
                        ids := (((s.retired.filter mine).flatMap fun r => r.ids) ++ s.knownTo (.task t.key)).eraseDups }
                      :: s.retired.filter fun r => !mine r }

/-- The retired transfers that a task names in DEPS. -/
def State.dependsOn (s : State) (t : Task) : List Retired :=
  s.retired.filter fun r => r.ctx == t.ctx && r.id != 0 && t.pkt.deps.toList.contains r.id

/-- A transfer stalls on the mark of an address: since when (R259). -/
def State.xferStall (s : State) (t : Task) (va : Nat) : State :=
  { s with tasks := s.tasks.map fun k => if k.key = t.key then { k with stall := k.stall.onMark s.time va } else k }

/-- Whether a transfer that stalls on the mark of an address has stalled there for LATELIM. -/
def State.xferLate (s : State) (t : Task) (va : Nat) : Bool :=
  match t.stall.onMark s.time va with
  | .mark since _ => (s.ctxAt t.ctx).late s.time since
  | _ => false

/-- A die as the one that performs a task's transfer. -/
def Task.agent (t : Task) (d : Fin 8) (part : Nat) : Block := { Block.reset d with ctx := t.ctx, part := part, task := t.key }

/-- The command as which a transfer's copy runs: with a release at package scope. -/
def xferCmd : Cmd :=
  { Cmd.new (.sdrain { pred := { n := false, p := 0 }, attr := 0, o1 := 0, o2 := 0, o3 := 0 }) 0 with
      ord := { rel := true, acq := false, scope := .pkg } }

/-- TRANSFER_RETIRE (R272, R273): a transfer's bytes have moved, with a release at package scope, and its entry is freed. One that
meets a forwarding mark stalls, and after LATELIM takes trap 0x35 (R155, R259). -/
def execTransferRetire (t : Nat) (s : State) : Host.Outcome State Fault Refusal :=
  match s.taskAt t with
  | none => .next s
  | some k =>
    match k.xfer, k.held with
    | some x, d :: _ =>
      if (s.ctxAt k.ctx).st ≠ 0 then .next s
      else
        let b := k.agent (Fin.ofNat 8 d) (s.ctxPart k.ctx)
        match asAgent (Fin.ofNat 8 d) k.ctx (s.ctxPart k.ctx) (acting (some { party := .task k.key, unit := x.copy.unit })
            (xferBytes x.copy xferCmd (x.len.toNat + 2) 0 false)) s with
        | .ok (c, u) =>
          .next (((((u.xferRelease b k c).retireXfer k x).endTask b k 0).map fun w => w.forget (.task k.key)).getD s)
        | .error (.trap i) => .next (s.xferFault k x i)
        | .error (.mark va) =>
          .next (if s.xferLate k va then s.xferFault k x { cause := 0x35, faddr := BitVec.ofNat 64 va, aux := 0, sub := 0, pc := none }
            else s.xferStall k va)
        | .error (.fault f) => .fault f
        | .error _ => .next s
    | _, _ => .next s

end Sys2Proof.Machine
end

