-- ==== Sys2Proof/Machine/Place.lean ====
section
/-! DEFINITION. Placing blocks (R24, R25, R29, R90, R169, R232, R273, R274), restoring them from save frames and moving
their slices (R293, R294, R298), and their completion (R21, R267, R270). -/

namespace Sys2Proof

/-- Byte `i` of row `r` of a save frame, from the row's contents, TASKID and whether the block needs an S-die: R294 gives a row's
contents and not their packing (log 31). -/
opaque Config.frameByte : Nat → Machine.Block → BitVec 64 → Bool → Nat → BitVec 8

end Sys2Proof

namespace Sys2Proof.Machine

/-! ## Moving a slice (R232, R298) -/

/-- An offset of the old slice in the new one: the first SCRATCH KiB stay, the top 80 KiB keep their distance from the top. -/
def moveOff (scratch old new off : Nat) : Nat :=
  if off < 1024 * scratch then off else if old - 81920 ≤ off then off + new - old else off

/-- Whether a range of a slice lies inside one of the two parts that are copied. -/
def inCopied (scratch old off n : Nat) : Bool := off + n ≤ 1024 * scratch || (old - 81920 ≤ off && off + n ≤ old)

/-- A scratch-window ring base in the slice of virtual core `vc` of virtual die `vd`. -/
def sliceBase (vd vc off : Nat) : Dword := BitVec.ofNat 64 (scratchWin + vd * 2 ^ 28 + vc * 2 ^ 22 + off)

/-- A ring with its scratch-window base moved to another slice by `f`. -/
def Ring.moveTo (r : Ring) (vd vc : Nat) (f : Nat → Nat) : Ring :=
  if r.cap ≠ 0 && scratchWin ≤ r.base.toNat && r.base.toNat < scratchWin + 10 * 2 ^ 28 then
    { r with base := sliceBase vd vc (f (r.base.toNat % 2 ^ 22)) }
  else r

/-- A stream with its buffer moved by `f`. -/
def Stream.moveTo (x : Stream) (f : Nat → Nat) : Stream :=
  let b := f (64 * x.base) / 64
  { x with sbind := BitVec.ofNat 64 (x.cap * 2 ^ 48 + b % 2 ^ 16 * 2 ^ 6) }

/-- A block at a new core: position, rings and streams (R298); its engines count their bursts afresh (R205). -/
def Block.moveTo (b : Block) (w : Word) (d : Fin 8) (core : Nat) : Block :=
  let f := moveOff b.scratch.toNat (sliceSize b.die.val) (sliceSize d.val)
  { b with die := d, core := core, rings := b.rings.map fun r => r.moveTo (virtDie w d.val) (virtCore w d.val core) f,
           streams := b.streams.map fun x => x.moveTo f, engs := b.engs.map fun q => { q with last := none } }

/-- A free accumulator element, from two draws (log 30). -/
def freeElem (n : Nat) : Elem :=
  { x := (Config.freeWord (2 * n) ++ Config.freeWord (2 * n + 1)).setWidth 40,
    t := Fin.ofNat 4 (2 * digit (Config.freeBool (2 * n)) + digit (Config.freeBool (2 * n + 1))) }

/-- A block that changes its class of die leaves behind the tiles and descriptor slots of the engines it loses (R299). What
tiles hold when such engines are reached again is free (log 30). -/
def Block.dropTiles (b : Block) (d : Fin 8) (k : Nat) : Block :=
  if b.die.val < 4 && 4 ≤ d.val then
    { b with acc := Vector.ofFn fun t =>
        { e := Vector.ofFn fun i => (Config.freeWord (2 * (k + 64 * t.val + i.val))).setWidth 16,
          el := Vector.ofFn fun i => Vector.ofFn fun j => freeElem (k + 256 + 2 * (4096 * t.val + 64 * i.val + j.val)) } }
  else if 4 ≤ b.die.val && d.val < 4 then
    { b with gd := Vector.replicate 4 none,
             dacc := Vector.ofFn fun t =>
        { nb := (Config.freeWord (2 * (k + t.val))).toNat % 8 + 1,
          e := Vector.ofFn fun i => (Config.freeWord (2 * (k + 2 + 8 * t.val + i.val))).setWidth 16,
          el := Vector.ofFn fun i => Vector.ofFn fun j => freeElem (k + 256 + 2 * (512 * t.val + 64 * i.val + j.val)) } }
  else b

/-- Draws that `dropTiles` may make. -/
def tileDraws : Nat := 40000

/-- Bytes that the hardware moves under a partition's key, with what readers may still see there: a unit written under another key
shows unspecified bytes (R321). -/
def State.moveBytes (s : State) (key src dst n : Nat) : State :=
  let other := s.unitKeys.filter fun x => src ≤ 64 * x.1 && 64 * x.1 + 64 ≤ src + n && x.2 != key
  other.foldl (fun t x => { t with mem := Mem.write t.mem (dst + (64 * x.1 - src)) (s.bytesIn key (64 * x.1) 64) })
    ({ s with mem := Mem.copy s.mem src dst n }.carryOlds src dst n)

/-- The copied parts of a slice moved: first SCRATCH KiB, and the top 80 KiB. -/
def State.copySlice (s : State) (key scratch src srcSize dst dstSize : Nat) : State :=
  (s.moveBytes key src dst (1024 * scratch)).moveBytes key (src + srcSize - 81920) (dst + dstSize - 81920) 81920

/-! ## Attribute tables (R90) -/

/-- The four tables that 512 bytes hold. -/
def attrTables (bs : List Byte) : Vector (Vector Word 32) 4 :=
  Vector.ofFn fun t => Vector.ofFn fun i => BitVec.ofNat 32 (fieldN bs (128 * t.val + 4 * i.val) 4)

/-- Read the attribute tables of an image. -/
def readAttrs (image : Dword) : M (Vector (Vector Word 32) 4) := do
  return attrTables (← readVirt false (image - 512).toNat 512)

/-- The block in focus loads its attribute tables and starts; a fault stops its context, and a load that stalls on a forwarding mark
is made again (R90, R259). -/
def State.startBlock (s : State) : State :=
  match readAttrs s.blk.image s with
  | .ok (t, u) => { u with blk := { u.blk with attrs := t, started := true, tables := .run } }
  | .error (.trap i) => s.tableFault i
  | .error (.mark va) =>
    { s with blk := { s.blk.setSt stLATE with started := false, tables := s.blk.tables.onMark s.time va } }
  | .error _ => { s with blk := { s.blk with started := false, tables := .freeze } }

/-- Whether the block in focus is to load its attribute tables again (R90). -/
def State.loadsTables (s : State) : Bool :=
  s.blk.placed && !s.blk.started && s.cx.st == 0 && s.blk.tables != .run

/-! ## Seats (R274) -/

/-- A place for a block: index, physical die and core, and its assignable slot. -/
structure Seat where
  idx : Nat
  die : Nat
  core : Nat
  slot : Option Nat
deriving DecidableEq, Repr

/-- Whether a core holds no block and may take one. -/
def State.coreFree (s : State) (d c : Nat) : Bool :=
  !(s.blocks.any fun b => b.placed && b.die.val == d && b.core == c) && !s.coreFenced d c &&
    !s.quadShut d (c / quadCores d)

/-- The lowest assignable slot of an M-die that no placed block holds (R169). -/
def State.freeSlot (s : State) (d : Nat) (taken : List Seat) : Option Nat :=
  ((List.range 16).map (40 + ·)).find? fun n =>
    !(s.blocks.any fun b => b.placed && b.die.val == d && b.slot == some n) &&
    !(taken.any fun x => x.die == d && x.slot == some n)

/-- The saved copy of a block of a task. -/
def State.savedOf (s : State) (t : Task) (i : Nat) : Option Saved :=
  s.saved.find? fun x => x.block.task == t.key && x.block.bidx.toNat == i

/-- The dies that a block may be placed on: die `x` first, then the others in ascending order (R274, R293). -/
def State.seatDies (s : State) (t : Task) (i x : Nat) : List Nat :=
  let w := s.hub.partdies[Fin.ofNat 32 (s.ctxPart t.ctx)]
  let ds := match s.savedOf t i with
    | none => t.held
    | some v => (t.held ++ (maskDies w t.pkt.ferry).getD []).eraseDups.filter fun d => (4 ≤ d) == v.sdie
  (ds.filter fun d => d == x) ++ ((List.range 8).filter fun d => d != x && ds.contains d)

/-- A seat for one block on the first die that has one. -/
def State.seatFor (s : State) (t : Task) (i : Nat) (taken : List Seat) : List Nat → Option Seat
  | [] => none
  | d :: r =>
    let w := s.hub.partdies[Fin.ofNat 32 (s.ctxPart t.ctx)]
    let c := (s.fitCores w t.pkt d).find? fun c => s.coreFree d c && !(taken.any fun x => x.die == d && x.core == c)
    let drained := t.drains.any fun z => z.1 == d
    if !drained then
      match c with
      | none => s.seatFor t i taken r
      | some c =>
        if t.pkt.slotFlag && d < 4 then
          (match s.freeSlot d taken with
          | none => s.seatFor t i taken r
          | some n => some { idx := i, die := d, core := c, slot := some n })
        else some { idx := i, die := d, core := c, slot := none }
    else s.seatFor t i taken r

/-- Seats for a list of blocks, in order. -/
def State.seatsFor (s : State) (t : Task) (x : Nat) : List Nat → List Seat → Option (List Seat)
  | [], taken => some taken
  | i :: r, taken =>
    match s.seatFor t i taken (s.seatDies t i x) with
    | none => none
    | some y => s.seatsFor t x r (taken ++ [y])

/-- Whether a block of a task is neither placed nor completed. -/
def State.unplaced (s : State) (t : Task) (i : Nat) : Bool :=
  !t.doneIdx.contains i && !(s.blocks.any fun b => b.placed && b.task == t.key && b.bidx.toNat == i)

/-- The unplaced blocks of the component of a block, ascending. -/
def State.componentOf (s : State) (t : Task) (i : Nat) : List Nat :=
  match (components t.groups).find? fun c => c.contains i with
  | none => [i]
  | some c => (c.mergeSort fun a b => a ≤ b).filter fun j => s.unplaced t j

/-- Seats for the lowest unplaced block of a task whose component fits, one of them on die `x`. -/
def State.chooseSeats (s : State) (t : Task) (x : Nat) : Option (List Seat) :=
  ((List.range t.pkt.blocks.toNat).filter fun i => s.unplaced t i).findSome? fun i =>
    (s.seatsFor t x (s.componentOf t i) []).bind fun l => if l.any fun y => y.die == x then some l else none

/-! ## Choosing a task (R273, R274) -/

/-- 256 µs. -/
def ageStep : Nat := 256000 * nsUnits

/-- eff(t). -/
def Task.eff (t : Task) (now : Nat) : Nat := min 15 (t.pkt.tokens + (now - t.entered) / ageStep)

/-- Whether every transfer in DEPS is resident, as die `x` sees it: from the ac after its entry is freed. -/
def State.eligible (s : State) (t : Task) (x : Nat) : Bool :=
  let u := acUnits (Fin.ofNat 8 x)
  ((s.dependsOn t).all fun r => r.at_ / u < s.time / u) &&
  t.pkt.deps.toList.all fun d =>
    d == 0 || !(s.tasks.any fun u => u.ctx == t.ctx && !u.held.isEmpty && match u.xfer with
      | some x => x.id == d
      | none => false)

/-- Whether a phase change of a context is pending (R256). -/
def Ctx.changing (c : Ctx) : Bool :=
  match c.change with
  | some h => h.pending
  | none => false

/-- Whether a saved block of a task may be restored on a die that its mask of dies does not name: one of the class that it needs (R293,
R297). -/
def State.restoresOn (s : State) (t : Task) (x : Nat) : Bool :=
  s.saved.any fun v => v.block.task == t.key && (s.seatDies t v.block.bidx.toNat x).contains x

/-- Candidates on a die. -/
def State.candidates (s : State) (x : Nat) : List Task :=
  s.tasks.filter fun t =>
    t.xfer.isNone && (t.held.contains x || s.restoresOn t x) && s.eligible t x && !(s.ctxAt t.ctx).changing && (s.ctxAt t.ctx).st == 0 &&
      !(t.drains.any fun z => z.1 == x)

/-- Candidates in the order in which they are considered. -/
def State.ranked (s : State) (x : Nat) : List Task :=
  (s.candidates x).mergeSort fun a b =>
    b.eff s.time < a.eff s.time || (a.eff s.time == b.eff s.time &&
      (a.entered < b.entered || (a.entered == b.entered && a.key ≤ b.key)))

/-! ## The new block (R25, R232, R274) -/

/-- A strand at block start. -/
def startStrand (image : Dword) (entry : Word) : Strand :=
  if entry = 0xFFFFFFFF then Strand.reset
  else
    let a := image + BitVec.ofNat 64 (64 * entry.toNat)
    { Strand.reset with chain := true, entry := a + 4, pc := a + 4, fpLine := a }

/-- The ring of a descriptor, in the slice of a block. -/
def ringOf (x : RingDesc) (vd vc : Nat) : Ring :=
  { Ring.reset with base := x.base, cap := x.cap, slot := x.slot }.moveTo vd vc fun off => off

/-- The stream of a binding. -/
def streamOf (d g : Nat) (x : Dword × Dword) : Stream :=
  { Stream.reset (sliceSize d) g with sbind := if x.1 = 0 then sbindReset (sliceSize d) g else x.1, sfmt := x.2 }

/-- A fresh block of a task at a seat. Its v registers hold what its core held: zeros on a core that has been zeroed since (R25, R322). -/
def State.freshBlock (s : State) (t : Task) (y : Seat) : Block :=
  let d := Fin.ofNat 8 y.die
  let w := s.hub.partdies[Fin.ofNat 32 (s.ctxPart t.ctx)]
  let b := Block.reset d
  let p := t.pkt
  { b with
    uid := s.nextUid, placed := true, started := false, task := t.key, ctx := t.ctx, part := s.ctxPart t.ctx,
    bidx := BitVec.ofNat 24 y.idx, core := y.core, image := p.image, scratch := p.scratch, ferryMask := p.ferry,
    slotFlag := p.slotFlag, slot := y.slot, strands := Vector.ofFn fun e => startStrand p.image p.entries[e],
    s := b.s.set 1 p.param,
    v := if (s.cores[Fin.ofNat 320 (40 * y.die + y.core)]).zeroed then b.v
         else Vector.ofFn fun i => Config.freeVec (64 * s.free + i.val),
    rsto := Vector.ofFn fun n => rstoSeed y.idx n.val,
    rings := Vector.ofFn fun r => match t.rings[r.val]? with
      | some x => ringOf x (virtDie w y.die) (virtCore w y.die y.core)
      | none => Ring.reset,
    streams := Vector.ofFn fun g => match t.strms[g.val]? with
      | some x => streamOf y.die g.val x
      | none => Stream.reset (sliceSize y.die) g.val,
    slipw := if p.slip = 0 then 64 else p.slip, trapen := (s.ctxAt t.ctx).acctrap, idle := s.time }

/-- What row `r` of a save frame holds of a block (R294): the block with that row's items alone. Row 0 has REM and RLINE of each strand
and `lc`, row 1 the c and a strands' registers with the scout unit, row 2 the queues, flags, slots, streams, rings and commands, row 3
the v registers, and row 4 the tiles with the block's counters. -/
def Block.frameRow (b : Block) (r : Nat) : Block :=
  let z := Block.reset 0
  match r with
  | 0 => { z with bidx := b.bidx, strands := b.strands.map fun st => { Strand.reset with lc := st.lc, forced := st.forced, arms := st.arms } }
  | 1 => { z with s := b.s, a := b.a, nest := b.nest, scout := b.scout,
                  strands := b.strands.map fun st => { Strand.reset with preds := st.preds, b := st.b, lc := st.lc, arms := st.arms } }
  | 2 => { z with q := b.q, vq := b.vq, flags := b.flags, gs := b.gs, streams := b.streams, rings := b.rings, engs := b.engs,
                  cts := b.cts }
  | 3 => { z with v := b.v, vm := b.vm, rsto := b.rsto, holders := b.holders }
  | _ => { z with acc := b.acc, dacc := b.dacc, gd := b.gd, cyc := b.cyc, grants := b.grants, stall := b.stall, status := b.status,
                  slipw := b.slipw }

/-- Where a save frame stands. -/
def State.frameAt (s : State) (p n : Nat) : Nat := (s.hub.savebase[Fin.ofNat 32 p]).toNat / 2 ^ 23 * 2 ^ 23 + n * 2 ^ 23

/-- Whether the rows of a save frame read as they were written: under the partition's key (R294, R321). -/
def State.frameShows (s : State) (p a : Nat) : Bool :=
  !(s.unitKeys.any fun x => a ≤ 64 * x.1 && 64 * x.1 < a + 0x2B400 && x.2 != s.hub.keys[Fin.ofNat 32 p])

/-- A block whose save frame no longer reads as it was written: its registers hold free values (R321; log 31). -/
def Block.unread (b : Block) (free : Nat) : Block :=
  let w := fun i : Nat => Config.freeWord (1024 * free + 2 * i) ++ Config.freeWord (1024 * free + 2 * i + 1)
  { b with s := Vector.ofFn fun i => w i.val, a := Vector.ofFn fun i => w (64 + i.val),
           v := Vector.ofFn fun i => Config.freeVec (1024 * free + i.val) }

/-- A block restored from its save frame at a seat, and its slice copied from the frame (R293, R294, R298). -/
def State.restoreBlock (s : State) (v : Saved) (y : Seat) : Block × State :=
  let w := s.hub.partdies[Fin.ofNat 32 v.part]
  let d := Fin.ofNat 8 y.die
  let frame := s.frameAt v.part v.frame
  let (k, s) := if s.frameShows v.part frame then (v.block, s) else (v.block.unread s.free, { s with free := s.free + 1 })
  let b := { (k.dropTiles d s.free).moveTo w d y.core with
               placed := true, slot := y.slot, idle := s.time }
  let t := s.copySlice s.hub.keys[Fin.ofNat 32 v.part] b.scratch.toNat (frame + 2 ^ 22) (sliceSize v.block.die.val)
    (scratchBase y.die y.core) (sliceSize y.die)
  (b, { t with free := t.free + tileDraws, saved := t.saved.filter fun x => !(x.part == v.part && x.frame == v.frame) })

/-- The first instruction of every strand of the block in focus acquires what its task's launch released and what the transfers that
it depends on have moved (R126, R273): a host's launch is ordered after everything. -/
def State.launchAcquire (s : State) (t : Task) : State :=
  let u := s.blk.uid
  let moved := (s.dependsOn t).flatMap fun r => r.ids
  engines.foldl (fun s e => match t.sees with
    | some l => s.learnStrand u e (l ++ moved)
    | none => (s.learnAll (.strand u e)).learnAll (.issue u e)) (s.mergeIn s.blk.die t.clock)

/-- A core holds a block, and no longer what it was zeroed to (R322). -/
def State.useCore (s : State) (d c : Nat) : State :=
  let k := Fin.ofNat 320 (40 * d + c)
  { s with cores := s.cores.set k { s.cores[k] with zeroed := false } }

/-- One block takes its seat and loads its tables. -/
def State.seat (s : State) (t : Task) (y : Seat) : State :=
  let f := s.blk.uid
  let (b, s) := match s.savedOf t y.idx with
    | some v => s.restoreBlock v y
    | none => (s.freshBlock t y, { s with nextUid := s.nextUid + 1, free := s.free + 1 })
  let s := s.useCore y.die y.core
  let s := ({ s with others := b :: s.others }).focus b.uid
  ((s.launchAcquire t).startBlock).focus f

/-- BLOCK_PLACE (R274): the stream controller of a die places one block, with its component. -/
def execBlockPlace (die : Fin 8) (s : State) : Host.Outcome State Fault Refusal :=
  match (s.ranked die.val).findSome? fun t => (s.chooseSeats t die.val).map fun l => (t, l) with
  | none => .next s
  | some (t, l) =>
    let u := l.foldl (fun s y => s.seat t y) s
    .next { u with tasks := u.tasks.map fun x => { x with drains := x.drains.filter fun z => z.2 != t.key } }

/-! ## Completion (R21) -/

/-- Whether every strand has finished and every command has completed. -/
def Block.complete (b : Block) : Bool :=
  b.placed && b.started && !(engines.any fun e => (b.str e).unfinished) &&
    b.engs.toList.all (fun q => q.queue.isEmpty && q.prog.isEmpty) && b.nest.live.isNone && b.inflight.isEmpty &&
    engines.all fun e => (b.str e).stop.isNone

/-- A block leaves its core. -/
def State.removeBlock (s : State) (u : Nat) : State :=
  if s.blk.uid = u then { s with blk := { Block.reset s.blk.die with core := s.blk.core } }
  else { s with others := s.others.filter fun b => b.uid != u }

/-- BLOCK_COMPLETE (R21, R267, R270): the core is freed, and a task whose last block completes ends: not before its completion entry
can be written (R259). -/
def execBlockComplete (u : Nat) (s : State) : Host.Outcome State Fault Refusal :=
  match s.blockAt u with
  | none => .next s
  | some b =>
    if !b.complete || (s.ctxAt b.ctx).st ≠ 0 then .next s
    else
      let t := (s.learnFrom (.task b.task) u).removeBlock u
      match t.taskAt b.task with
      | none => .next t
      | some k =>
        let k := { k with doneIdx := b.bidx.toNat :: k.doneIdx }
        let t := { t with tasks := t.tasks.map fun x => if x.key = k.key then k else x }
        .next (if k.doneIdx.length = k.pkt.blocks.toNat then
            ((t.endTask b k 0).map fun w => w.forget (.task k.key)).getD s
          else t)

end Sys2Proof.Machine
end

