-- ==== Sys2Proof/Machine/Phase.lean ====
section
/-! DEFINITION. Itineraries at run time (R247 to R263) and the commit path (R300 to R302): the phase instructions, the
Porters' work, the switch, forwarding marks, and map stores. -/

namespace Sys2Proof.Machine

/-! ## The work of a change (R252, R254) -/

/-- What a change does with one granule of 64 KiB: the source of a copy, or none for a zero-fill; its destination; and
whether it is a zero-fill in place, which waits for the freeze. -/
structure Move where
  region : Nat
  granule : Nat
  src : Option Nat
  dst : Nat
  late : Bool
deriving DecidableEq, Repr

/-- Whether two entries of a region have the same location. -/
def MapEntry.sameLoc (x y : MapEntry) : Bool := x.dies == y.dies && x.granule == y.granule

/-- Where granule `g` of a region lies: of a pool, its frame (R310; log 28). -/
def MapEntry.granuleAt (e : MapEntry) (g : Nat) : Nat := if e.kind = 2 then e.frame0 + 65536 * g else e.phys (65536 * g)

/-- Granules of a region: of a pool, its frames. -/
def MapEntry.granules (e : MapEntry) : Nat := if e.kind = 2 then e.nframes else e.size / 65536

/-- The moves of region `r` from entry `x` to entry `y`. -/
def regionMoves (r : Nat) (x y : MapEntry) : List Move :=
  let gs := List.range y.granules
  let mapped := x.st != 0
  if y.st = 0 then []
  else if y.st = 1 && mapped then
    if x.sameLoc y then []
    else gs.map fun g => { region := r, granule := g, src := some (x.granuleAt g), dst := y.granuleAt g, late := false }
  else gs.map fun g =>
    { region := r, granule := g, src := none, dst := y.granuleAt g, late := y.st == 2 && mapped && x.sameLoc y }

/-- The moves of a change of a context to phase `b`. -/
def Ctx.moves (c : Ctx) (b : Nat) : List Move :=
  (((c.entries c.phase.val).zip (c.entries b)).zipIdx).flatMap fun x => regionMoves x.2 x.1.1 x.1.2

/-- Whether a change has made a move, and it need not be made again: a granule copied, or zero-filled. -/
def Change.has (h : Change) (m : Move) : Bool :=
  (if m.src.isSome then h.moved else h.filled).contains (m.region, m.granule)

/-- The change after a move. -/
def Change.did (h : Change) (m : Move) : Change :=
  if m.src.isSome then { h with moved := (m.region, m.granule) :: h.moved }
  else { h with filled := (m.region, m.granule) :: h.filled }

/-- Moves that a change still has to make before the freeze. -/
def Ctx.todo (c : Ctx) (h : Change) : List Move := (c.moves h.target).filter fun m => !m.late && !h.has m

/-- The target of `phadv`. -/
def Ctx.nextPhase (c : Ctx) : Nat := (c.phase.val + 1) % max c.phases 1

/-- A change with its work kept where moves `old` become moves `new`: that of the moves that stay the same (R254). -/
def Change.kept (h : Change) (old new : List Move) : Change :=
  let keep := fun (copies : Bool) (x : Nat × Nat) =>
    new.any fun m => m.region == x.1 && m.granule == x.2 && m.src.isSome == copies && old.contains m
  { h with moved := h.moved.filter (keep true), filled := h.filled.filter (keep false) }

/-! ## Arrivals (R256, R258, R260, R261) -/

/-- The change after an arrival of block `u` for target `b`; none where the arrival names another target. -/
def Ctx.arrival (c : Ctx) (b : Nat) (late : Bool) (u : Nat) : Option Change :=
  match c.change with
  | none => some { target := b, late := late, pending := true, arrived := [u], moved := [] }
  | some h =>
    if h.pending then
      (if h.target = b then some { h with late := h.late || late, arrived := u :: h.arrived } else none)
    else
      let k := if h.target = b then h else h.kept (c.moves h.target) (c.moves b)
      some { k with target := b, late := late, pending := true, arrived := [u] }

/-- A strand after a checkpoint that is put off or comes to nothing: it runs on, and a forced one goes back for its loops when it next
stops at a line or finishes, or now where it stands (R293). -/
def Strand.runOn (ferry : Bool) (st : Strand) : Strand :=
  if !st.chain then st
  else if st.forcedFlag then
    (if st.finished || st.wait == .gathered then st.backToRline else { st with again := true })
  else if st.wait == .gathered && !ferry then { st with wait := .run }
  else st

/-- Whether the block gathers for a Ferry. -/
def Block.ferrying (b : Block) : Bool :=
  match b.ferry with
  | .gather _ => true
  | .none => false

/-- The block's checkpoint request becomes `k`, and its strands run on. -/
def Block.leaveCkpt (b : Block) (k : CkptSt) : Block :=
  { b with ckpt := k, stood := b.stood && b.ferrying, strands := b.strands.map (Strand.runOn b.ferrying) }

/-- A checkpoint of a block waits while a phase change of its context is pending (R256). -/
def Block.putOff (cx : Nat) (b : Block) : Block :=
  match b.ckpt with
  | .asked _ => if b.placed && b.ctx == cx then b.leaveCkpt .waiting else b
  | _ => b

/-- A checkpoint that waited is asked for again. -/
def Block.askAgain (cx now : Nat) (b : Block) : Block :=
  match b.ckpt with
  | .waiting => if b.placed && b.ctx == cx then { b with ckpt := .asked now } else b
  | _ => b

/-- Every die loads the entries of a context's target phase into its shadow range registers (R301). -/
def State.loadShadow (s : State) (cx b : Nat) : State :=
  { s with dies := s.dies.map fun x => { x with shadow := (cx, b) :: x.shadow.filter fun y => y.1 != cx } }

/-- An arrival: trap 0x34 for another target; a release at package scope; the strand waits for the switch. -/
def arriveAt (b : Nat) (late : Bool) (q : Option (Fin 16)) : M Flow := do
  let s ← getS
  match s.cx.arrival b late s.blk.uid with
  | none => trap 0x34
  | some h =>
    modS fun s =>
      let t := ((s.clockUp s.blk.die).settleAll (.strand s.blk.uid .c)).modCtx s.blk.ctx fun c => { c with change := some h }
      (t.loadShadow s.blk.ctx h.target).mapBlocks (Block.putOff s.blk.ctx)
    return .wait (.phase q)

/-- `c.phadv` (R256, R261). -/
def execCPhadv (x : NoArgs) (s : State) : Host.Outcome State Fault Refusal :=
  issue .c 1 x.pred false skip (do
    barRound
    arriveAt (← getS).cx.nextPhase false none) s

/-- `c.phadv.late` (R256, R259, R261). -/
def execCPhadvLate (x : NoArgs) (s : State) : Host.Outcome State Fault Refusal :=
  issue .c 1 x.pred false skip (do
    barRound
    arriveAt (← getS).cx.nextPhase true none) s

/-- `c.phset` (R256, R261): a target of P or above raises trap 0x34. -/
def execCPhset (x : SrcArgs) (s : State) : Host.Outcome State Fault Refusal :=
  issue .c 1 x.pred false (dropAll .c [x.a] []) (do
    barRound
    scoreboard .c x.a
    let a ← peekS .c x.a
    let b := a.toNat % 2 ^ 32
    trapIf ((← getS).cx.phases ≤ b) 0x34
    arriveAt b false (opdQ x.a)) s

/-- `c.phwait` (R260): no change pending and no mark; then an acquire at package scope. -/
def execCPhwait (x : NoArgs) (s : State) : Host.Outcome State Fault Refusal :=
  issue .c 1 x.pred false skip (thenGo do
    barRound
    let c := (← getS).cx
    waitUntil (!c.changing && c.marks.isEmpty)
    modS fun s => s.dies.toList.foldl (fun s d => s.mergeIn s.blk.die d.clock) s) s

/-! ## Porters (R253, R255, R259, R262) -/

/-- The die whose Porter makes a move: its destination's, or its source's into the tier, or the partition's lowest. -/
def State.porterOf (s : State) (cx : Nat) (m : Move) : Fin 8 :=
  match physKind m.dst, m.src.map physKind with
  | .dram d, _ => Fin.ofNat 8 d
  | _, some (.dram d) => Fin.ofNat 8 d
  | _, _ => s.partDie (s.ctxPart cx)

/-- Copy or zero-fill one granule; a copy carries on what readers may see there (R252). -/
def moveGranule (m : Move) : M Unit :=
  match m.src with
  | some p => do
    writePhys m.dst m.dst (← readPhys p p 65536)
    modS fun s => s.carryOlds p m.dst 65536
  | none => writePhys m.dst m.dst (List.replicate 65536 0)

/-- The address of a granule of a context's region. -/
def State.granuleVa (s : State) (cx : Nat) (m : Move) : Dword :=
  match ((s.ctxAt cx).entries (s.ctxAt cx).phase.val)[m.region]? with
  | some e => e.base + BitVec.ofNat 64 (65536 * m.granule)
  | none => 0

/-- A Porter's fault stops its context with that cause, abandons a pending change, ends the work on marks until the context resumes,
and writes a type-3 event with the granule's address (R259, R262, R277, R284). -/
def State.porterFault (s : State) (cx : Nat) (d : Fin 8) (cause : Nat) (addr : Dword) : State :=
  let t := s.modCtx cx fun c => { c.halt (BitVec.ofNat 8 cause) with porterDown := true }
  (t.dieEvent d (t.mkEvent cx 3 cause d 0 addr 0)).stopDone cx

/-- Make a move with its Porter; a fault stops the context. -/
def State.porterMove (s : State) (cx : Nat) (m : Move) (done : State → State) : Host.Outcome State Fault Refusal :=
  let d := s.porterOf cx m
  match asAgent d cx (s.ctxPart cx) (moveGranule m) s with
  | .ok (_, t) => .next (done t)
  | .error (.trap i) => .next (s.porterFault cx d i.cause (s.granuleVa cx m))
  | .error (.fault f) => .fault f
  | .error _ => .next s

/-- PORTER_GRANULE_MOVE (R253): one of the granules that a change still has to move; none while an earlier change's marks
stand (R259). -/
def execPorterGranuleMove (cx : Nat) (i : Nat) (s : State) : Host.Outcome State Fault Refusal :=
  let c := s.ctxAt cx
  match c.change with
  | none => .next s
  | some h =>
    match (c.todo h)[i]? with
    | none => .next s
    | some m =>
      if c.st ≠ 0 || !c.marks.isEmpty then .next s
      else
        s.porterMove cx m fun t => t.modCtx cx fun c =>
          { c with change := c.change.map fun h => h.did m }

/-- What lands the granule of a forwarding mark. -/
def Ctx.landing (c : Ctx) (k : FwdMark) : Option Move :=
  ((c.entries c.phase.val)[k.region]?).map fun e =>
    { region := k.region, granule := k.granule, src := k.src, dst := e.granuleAt k.granule, late := false }

/-- What the Porters of a context are at work on: the granules of marks, also while it stands stopped, and those that a change still has
to move (R253, R259). -/
def Ctx.porterWork (c : Ctx) : List Move :=
  (if c.porterDown then [] else c.marks.filterMap c.landing) ++
    match c.change with
    | some h => if c.st = 0 && c.marks.isEmpty then c.todo h else []
    | none => []

/-- PORTER_FAULT (R262): the Porter at work on the granule at an address meets poison or a fenced link. -/
def execPorterFault (cx : Nat) (cause : Byte) (addr : Dword) (s : State) : Host.Outcome State Fault Refusal :=
  if cause != 0x41 && cause != 0x42 then .next s
  else
    match (s.ctxAt cx).porterWork.find? fun m => s.granuleVa cx m == addr with
    | some m => .next (s.porterFault cx (s.porterOf cx m) cause.toNat addr)
    | none => .next s

/-- GRANULE_LAND (R259): the granule of mark `i` lands, and the mark clears. -/
def execGranuleLand (cx : Nat) (i : Nat) (s : State) : Host.Outcome State Fault Refusal :=
  let c := s.ctxAt cx
  match if c.porterDown then none else c.marks[i]? with
  | none => .next s
  | some k =>
    match c.landing k with
    | none => .next s
    | some m => s.porterMove cx m fun t => t.modCtx cx fun c => { c with marks := c.marks.filter fun y => y != k }

/-! ## The switch (R257, R258, R259) -/

/-- The live blocks of a context. -/
def State.liveBlocks (s : State) (cx : Nat) : List Block := s.blocks.filter fun b => b.placed && b.ctx == cx

/-- Whether a change may switch. -/
def State.maySwitch (s : State) (cx : Nat) (h : Change) : Bool :=
  let c := s.ctxAt cx
  h.pending && c.st == 0 && c.marks.isEmpty && (h.late || (c.todo h).isEmpty) &&
    (s.liveBlocks cx).all fun b => h.arrived.contains b.uid

/-- Zero-fills of same-location fresh regions, in the drain: answers the first fault beside the state. -/
def State.freshFills (cx : Nat) : List Move → State → State × Option (Nat × Move)
  | [], s => (s, none)
  | m :: r, s =>
    match asAgent (s.porterOf cx m) cx (s.ctxPart cx) (moveGranule m) s with
    | .ok (_, t) => State.freshFills cx r t
    | .error (.trap i) =>
      let (t, _) := State.freshFills cx r s
      (t, some (i.cause, m))
    | .error _ => State.freshFills cx r s

/-- An arrived strand goes on after its arrival; its block acquires at package scope. -/
def Block.leavePhase (cx now : Nat) (b : Block) : Block :=
  match (b.str .c).wait with
  | .phase q => if b.placed && b.ctx == cx then { (b.dropHead q).modStr .c (fun st => st.complete 1 .go) with idle := now } else b
  | _ => b

/-- The drain performs every access already translated (R257). The resumption after a switch is an acquire at package scope that
synchronises with every arrival (R258): each live block knows what every arrived strand knew, and the arrivals' clocks are merged into
its die's (R56). -/
def State.switchSync (s : State) (cx : Nat) : State :=
  let l := s.liveBlocks cx
  let s := l.foldl (fun s b => engines.foldl (fun s e => s.settleAll (.strand b.uid e)) s) s
  let ids := l.flatMap fun b => s.knownTo (.strand b.uid .c)
  let clocks := l.map fun b => (s.dies[b.die]).clock
  l.foldl (fun s b => (clocks.foldl (fun s c => s.mergeIn b.die c) s).learn (.block b.uid) ids) s

/-- The context after the swap to `b`: marks of a late change, and early work where PRE asks for it (R254). -/
def Ctx.swapTo (c : Ctx) (b : Nat) (marks : List FwdMark) : Ctx :=
  let c := { c with phase := Fin.ofNat 16 b, change := none, marks := marks }
  let n := c.nextPhase
  if c.pre.getLsbD n then
    { c with change := some { target := n, late := false, pending := false, arrived := [], moved := [] } }
  else c

/-- The shadow range registers after a swap: those of the next early work, if any (R254, R301). -/
def State.nextShadow (s : State) (cx : Nat) : State :=
  match (s.ctxAt cx).change with
  | some h => s.loadShadow cx h.target
  | none => { s with dies := s.dies.map fun x => { x with shadow := x.shadow.filter fun y => y.1 != cx } }

/-- PHASE_SWITCH (R257): freeze, drain, swap and resume as one step. -/
def execPhaseSwitch (cx : Nat) (s : State) : Host.Outcome State Fault Refusal :=
  let c := s.ctxAt cx
  match c.change with
  | none => .next s
  | some h =>
    if !s.maySwitch cx h then .next s
    else
      let ms := c.moves h.target
      let left := if h.late then ms.filter fun m => m.late || !h.has m else []
      let (t, bad) := if h.late then (s, none) else State.freshFills cx (ms.filter fun m => m.late) s
      let t := t.modCtx cx fun c =>
        c.swapTo h.target (left.map fun m => { region := m.region, granule := m.granule, src := m.src })
      let t := ((t.nextShadow cx).switchSync cx).mapBlocks fun b => (b.leavePhase cx s.time).askAgain cx s.time
      .next (match bad with
        | some (cause, m) => t.porterFault cx (t.porterOf cx m) cause (t.granuleVa cx m)
        | none => t)

/-! ## Map stores (R249, R300, R301, R302) -/

/-- One entry of a map store. -/
def mapEntryOf (bs : List Byte) : MapEntry :=
  let f := fieldN bs
  { base := BitVec.ofNat 64 (f 0 8), limit := BitVec.ofNat 64 (f 8 8), kind := BitVec.ofNat 8 (f 16 1),
    perm := BitVec.ofNat 8 (f 17 1), kspec := (bs.drop 20).take 12, state := BitVec.ofNat 32 (f 32 4),
    frames := (List.range 8).map fun k => BitVec.ofNat 64 (f (64 + 8 * k) 8) }

/-- The dies that a kind allows (R248). -/
def MapEntry.kindDies (e : MapEntry) : Bool := e.dies.all fun d => (8 ≤ d) == (e.kind == 4)

/-- Whether an entry keeps R249 and R300 by itself; `bs` are its 128 bytes, `first` the region's entry in phase 0. -/
def MapEntry.ok (e first : MapEntry) (w : Word) (bs : List Byte) : Bool :=
  e.base.toNat % 65536 == 0 && e.limit.toNat % 65536 == 0 && e.base.toNat < e.limit.toNat && e.limit.toNat ≤ scratchWin &&
    e.kind.toNat ≤ 5 && e.perm.toNat < 8 && zeroN bs 18 2 && zeroN bs 36 28 &&
    (e.kind == 2 || e.kind == 5 || e.kspec.all fun b => b == 0) &&
    e.state.toNat / 2 ^ 16 == 0 && e.state.toNat / 2 ^ 12 % 16 != 15 && e.st != 3 &&
    (if e.st = 0 then e.state == 0 else !e.dies.isEmpty && e.kindDies && e.dies.all fun d => 8 ≤ d || (physDie w d).isSome) &&
    e.base == first.base && e.limit == first.limit && e.kind == first.kind && e.perm == first.perm && e.kspec == first.kspec &&
    (e.frames.zipIdx.all fun x => x.1.toNat % 65536 == 0 && (x.2 < e.dies.length || x.1 == 0))

/-- Bytes of an entry's share on the k-th die of its location. -/
def MapEntry.share (e : MapEntry) (k : Nat) : Nat :=
  let m := max e.dies.length 1
  let g := e.granule
  let n := (e.size + g - 1) / g
  let cnt := (n + m - 1 - k) / m
  if (n - 1) % m = k then cnt * g - (n * g - e.size) else cnt * g

/-- The frame ranges of an entry: die, physical base and bytes; a pool holds its frames. -/
def MapEntry.ranges (e : MapEntry) : List (Nat × Nat × Nat) :=
  if e.st = 0 then []
  else e.dies.zipIdx.map fun x =>
    let p := (e.frames[x.2]?.getD 0).toNat
    (x.1, if 8 ≤ x.1 then tierBase (x.1 - 8) + p else p, if e.kind = 2 then e.nframes * 65536 else e.share x.2)

/-- Whether two ranges meet. -/
def meets (x y : Nat × Nat × Nat) : Bool := x.2.1 < y.2.1 + y.2.2 && y.2.1 < x.2.1 + x.2.2

/-- Whether a range lies in the memory of a compute die or, from 8 on, of the tier behind an H-die. -/
def onDie (d a n : Nat) : Bool :=
  if 8 ≤ d then tierBase (d - 8) ≤ a && a + n ≤ tierBase (d - 8) + tierSize
  else dieMemBase d ≤ a && a + n ≤ dieMemBase d + dieMemSize d

/-- Whether ranges cover the bytes from `a` up to `e`, each range used once at most. -/
def covered (frames : List (Nat × Nat)) (e : Nat) : Nat → Nat → Bool
  | 0, a => e ≤ a
  | k + 1, a => e ≤ a || (match frames.find? fun f => f.1 ≤ a && a < f.1 + f.2 with
      | some f => covered frames e k (f.1 + f.2)
      | none => false)

/-- Whether a frame range lies in memory that the partition holds on its die: in the ranges that the firmware has assigned to it there
(R301, R317, R332). -/
def rangeHeld (w : Word) (frames : List (Nat × Nat)) (x : Nat × Nat × Nat) : Bool :=
  match if 8 ≤ x.1 then some x.1 else physDie w x.1 with
  | some d => onDie d x.2.1 x.2.2 && covered frames (x.2.1 + x.2.2) frames.length x.2.1
  | none => false

/-- Whether a pool or exact-sum entry keeps R302. -/
def MapEntry.specOk (e : MapEntry) (all : List MapEntry) (n : Nat) : Bool :=
  if e.kind = 5 then (e.kspec.drop 2).all fun b => b == 0
  else if e.kind = 2 then
    e.st == 1 && e.dies.length == 1 && e.granule == 65536 && e.size == e.npages * 65536 && e.metaPages + 1 ≤ e.nframes &&
      e.nframes ≤ e.npages && 1 ≤ e.offc &&
      (e.tierReg == 0xFFFF || (e.tierReg < n && (all.zipIdx.all fun x =>
        x.2 % n != e.tierReg || (x.1.kind == 4 && x.1.st == 1 && e.npages * 65536 ≤ x.1.size))))
  else true

/-- The first index of a list at which a check fails. -/
def firstBad {α : Type} (l : List α) (ok : Nat → α → Bool) : Option Nat :=
  (l.zipIdx.find? fun x => !ok x.2 x.1).map fun x => x.2

/-- The first entry of the current phase that a store of `n` regions and `p` phases alters outside KSPEC, or leaves out: then entry 0,
since the store has none to name (log 27). -/
def Ctx.altered (c : Ctx) (es : List MapEntry) (n p : Nat) : Option Nat :=
  let at_ := fun r : Nat => c.phase.val * n + r
  match firstBad (c.entries c.phase.val) fun r o =>
      r < n && c.phase.val < p && (es[at_ r]?.map fun e => { e with kspec := o.kspec }) == some o with
  | some r => some (if r < n && c.phase.val < p then at_ r else 0)
  | none => none

/-- The first failing code of a map store and the first entry that fails it (R301). -/
def State.mapRefusal (s : State) (cx n p : Nat) (w : Word) (raw : List (List Byte)) : Option (Nat × Nat) :=
  let es := raw.map mapEntryOf
  let frames := s.hub.frames[Fin.ofNat 32 (s.ctxPart cx)]
  let c := s.ctxAt cx
  let bytesAt := fun i : Nat => raw[i]?.getD []
  let firstOf := fun i : Nat => es[i % max n 1]?.getD (mapEntryOf [])
  let others : List (Nat × Nat × Nat) := (s.ctxs.toList.zipIdx.filter fun x => x.2 != cx).flatMap fun x =>
    x.1.store.flatMap MapEntry.ranges
  let c1 := if 512 < n then some 0 else firstBad es fun i e => e.ok (firstOf i) w (bytesAt i) &&
    ((es.take n).zipIdx.all fun y => y.2 == i % max n 1 || y.1.limit.toNat ≤ e.base.toNat || e.limit.toNat ≤ y.1.base.toNat)
  let c2 := firstBad es fun i e => e.ranges.all fun r => rangeHeld w frames r && !(others.any fun o => meets r o) &&
    (es.zipIdx.all fun y => y.2 % max n 1 == i % max n 1 || !(y.1.ranges.any fun o => meets r o))
  let c3 := if c.changing then some 0 else if c.valid then c.altered es n p else none
  let c4 := firstBad es fun _ e => e.specOk es (max n 1)
  match c1, c2, c3, c4 with
  | some i, _, _, _ => some (1, i)
  | none, some i, _, _ => some (2, i)
  | none, none, some i, _ => some (3, i)
  | none, none, none, some i => some (4, i)
  | none, none, none, none => none

/-- Read the entries of a map store, entry by entry; answers the number read where one cannot be. -/
def readStore (a : Nat) : Nat → Nat → M (List (List Byte) × Option Nat)
  | 0, _ => pure ([], none)
  | k + 1, i => do
    match ← attempt (readPhys (a + 128 * i) (a + 128 * i) 128) with
    | .error _ => return ([], some i)
    | .ok bs =>
      let (r, bad) ← readStore a k (i + 1)
      return (bs :: r, bad)

def ctxNo (f : Fin 64) (k : Fin 16) : Nat := 16 * f.val + k.val

/-- MAPCMD_GO (R301): N and PM1 are stored and a commit starts. -/
def execMapcmdGo (f : Fin 64) (k : Fin 16) (val : Dword) (s : State) : Host.Outcome State Fault Refusal :=
  if s.vfFenced f.val then .next s else
  .next (s.modCtx (ctxNo f k) fun c =>
    if c.mapst = 1 then c
    else { c with mapn := BitVec.ofNat 10 (val.toNat / 16), mappm1 := Fin.ofNat 16 val.toNat, mapst := 1, mapcode := 0,
                  mapentry := 0 })

/-- Pools that are committed for the first time get their metadata (R310). -/
def State.initPools (s : State) (key : Nat) (es : List MapEntry) : State :=
  es.foldl (fun s e => if e.kind = 2 && e.st = 1 then s.initPool key e else s) s

/-- A context's early work after a commit: what it has done counts where the granule still moves in the same way, and another next phase
ends it (R254). -/
def Ctx.recommitted (c old : Ctx) : Ctx :=
  match c.change with
  | some h =>
    { c with change := if h.target = c.nextPhase then some (h.kept (old.moves h.target) (c.moves h.target)) else none }
  | none => c

/-- MAP_COMMIT_DONE (R301): the checks in their order; a store that passes becomes the context's. The header's PRE field
reaches the hardware in no way that the spec names: it is free (log 27). The requests of a fenced function are dropped (R324). -/
def execMapCommitDone (f : Fin 64) (k : Fin 16) (s : State) : Host.Outcome State Fault Refusal :=
  let cx := ctxNo f k
  let c := s.ctxAt cx
  if c.mapst ≠ 1 || s.vfFenced f.val then .next s
  else
    let n := c.mapn.toNat
    let p := c.mappm1.val + 1
    let w := s.hub.partdies[Fin.ofNat 32 (s.ctxPart cx)]
    let refuse := fun (t : State) (code i : Nat) => t.modCtx cx fun c =>
      { c with mapst := 3, mapcode := Fin.ofNat 64 code, mapentry := BitVec.ofNat 32 i }
    match asHub cx (readStore (c.mapbase.toNat / 128 * 128) (if 512 < n then 0 else n * p) 0) s with
    | .error (.fault x) => .fault x
    | .error _ => .next s
    | .ok ((_, some i), t) => .next (refuse t 1 i)
    | .ok ((raw, none), t) =>
      match t.mapRefusal cx n p w raw with
      | some (code, i) => .next (refuse t code i)
      | none =>
        let es := raw.map mapEntryOf
        let u := t.modCtx cx fun c =>
          { c with mapst := 2, mapcode := 0, mapentry := 0, store := es, phases := p, regions := n,
                   pre := (Config.freeWord (2 * t.free)).setWidth 16 : Ctx }.recommitted c
        let u := { u with free := u.free + 1 }
        .next (u.initPools (s.hub.keys[Fin.ofNat 32 (s.ctxPart cx)])
          (if c.valid then ((u.ctxAt cx).entries c.phase.val).drop c.regions else es.take n))

end Sys2Proof.Machine
end

