-- ==== Sys2Proof/Machine/Scout.lean ====
section
/-! DEFINITION. The scout unit (R133 to R140, R264, R265): the descriptor, the guess call, CIN and COUT, `accept`, the
commit, and the discarding of a round, which returns the block to its round mark. -/

namespace Sys2Proof.Machine

/-! ## The descriptor (R133, R134) -/

/-- A little-endian field of a byte list. -/
def fieldAt (bs : List Byte) (at_ n : Nat) : Nat := leNat ((bs.drop at_).take n)

/-- The tail and stride of append region `i`. -/
def regionAt (bs : List Byte) (i : Nat) : Dword × Word :=
  (BitVec.ofNat 64 (fieldAt bs (64 + 16 * i) 8), BitVec.ofNat 32 (fieldAt bs (72 + 16 * i) 4))

/-- Whether a tail lies in a range entry of kind append. -/
def Ctx.appends (c : Ctx) (va : Nat) : Bool :=
  isMain va && match c.find va with
    | some (_, e) => e.kind == 1
    | none => false

/-- Whether a TOL is negative or NaN; the sign of a zero does not make it negative. -/
def badTol (tol : Nat) : Bool :=
  match Fmt.fp32.value false tol with
  | .nan => true
  | .inf neg => neg
  | .fin neg m _ => neg && m != 0

/-- Whether a descriptor has one of the faults of R134. -/
def descBad (c : Ctx) (bs : List Byte) : Bool :=
  let b := fun i => fieldAt bs i 1
  let n := b 3
  b 0 < 1 || 4 < b 0 || 3 < b 1 || 3 < b 2 || b 1 == b 2 || 4 < n || badTol (fieldAt bs 4 4) ||
    !(((bs.drop 24).take 40).all (· == 0)) || !((bs.drop (64 + 16 * n)).all (· == 0)) ||
    (List.range n).any fun i =>
      let r := regionAt bs i
      fieldAt bs (76 + 16 * i) 4 != 0 || r.2.toNat < 64 || r.2.toNat % 64 != 0 || !c.appends r.1.toNat

/-- No buffered store in any slot. -/
def noBufs : Vector (List BufSt) 8 := Vector.replicate 8 []

/-- The address of the instruction after the one that the c strand executes; 0 where the chain ends. -/
def Strand.afterAddr (st : Strand) (n : Nat) : Dword :=
  match following st.pc st.link (st.span n) with
  | some (p, _) => p
  | none => 0

/-- The guess call of a round, to return to `ret` (R135): the full K, no slot failed, nothing buffered. -/
def Scout.call (x : Scout) (ret : Dword) : Scout :=
  { x with round := .guess ret, ret := ret, kr := x.k, failed := [], bufs := noBufs, cins := [], mark := none }

/-- The scout unit with the descriptor read from `a`, for a loop of `k` slots whose guess routine is at `t`. -/
def Scout.load (x : Scout) (a : Dword) (bs : List Byte) (k : Nat) (t : Dword) : Scout :=
  { x with
    desc := a, carries := fieldAt bs 0 1, cin := Fin.ofNat 4 (fieldAt bs 1 1), cout := Fin.ofNat 4 (fieldAt bs 2 1),
    regions := (List.range (fieldAt bs 3 1)).map (regionAt bs), tol := BitVec.ofNat 32 (fieldAt bs 4 4),
    carry := BitVec.ofNat 64 (fieldAt bs 8 8), guess := BitVec.ofNat 64 (fieldAt bs 16 8), target := t, iter := 0, k := k }

/-- `c.scout` (R134). A descriptor that cannot be read raises the access's own trap, as do the carry area, the guess area and the
tails of `sgret`, `accept` and `scommit` (log 57). -/
def execCScout (x : ScoutArgs) (s : State) : Host.Outcome State Fault Refusal :=
  issue .c 2 x.pred true (dropAll .c [x.a] []) (do
    let a ← readS .c x.a
    portOrder .c [x.a] []
    let b ← getBlk
    trapIf (b.scout.open_ || x.k.val < 2 || 8 < x.k.val) 0x28
    if a.toNat % 64 ≠ 0 then trapAt 0x33 a.toNat
    let bs ← byStrand .c 8 (readVirt false a.toNat 128)
    trapIf (descBad (← getS).cx bs) 0x28
    let st ← getStr .c
    let t := targetAddr st.pc x.guess
    checkTarget .c t
    let ret := st.afterAddr 2
    modBlk fun b => { b with scout := (b.scout.load a bs x.k.val t).call ret }
    return .transfer t) s

/-! ## `sgret` (R135, R140, R265) -/

/-- Read the guess area's entries (j, 1) to (j, n). -/
def readGuesses (x : Scout) (j : Nat) : Nat → M (List Byte)
  | 0 => pure []
  | n + 1 => do
    let r ← readGuesses x j n
    return r ++ (← readVirt false (x.guess.toNat + (8 * j + n + 1) * 32) 32)

/-- The CIN entry of carried value `j`. -/
def cinEntry (x : Scout) (j : Nat) : M VReg := do
  let c ← readVirt false (x.carry.toNat + 32 * j) 32
  return vecOfBytes (c ++ (← readGuesses x j (x.kr - 1)))

def cinEntries (x : Scout) : Nat → M (List VReg)
  | 0 => pure []
  | n + 1 => do
    let r ← cinEntries x n
    return r ++ [← cinEntry x n]

/-- The mark of a block, with its c strand as `sgret` leaves it. -/
def Block.mark (b : Block) (c : Strand) : Mark :=
  { strands := b.strands.set (engIdx .c) c, s := b.s, a := b.a, v := b.v, vm := b.vm, q := b.q, vq := b.vq,
    pops := b.pops, rings := b.rings, streams := b.streams, gs := b.gs, ps := b.flags.map fun f => f.p, holders := b.holders,
    nest := b.nest, nexts := b.engs.map fun q => q.next, inflight := b.inflight }

/-- Push CIN's entries, which wait for space. -/
def pushCins (n : Fin 4) (l : List VReg) : M Unit := do
  let b ← getBlk
  waitUntil ((b.vq[n]).length + b.inflightTo (.port (.vq n)) + l.length ≤ 4)
  modBlk fun b => l.foldl (fun b v => b.pushVq n v) b

/-- The last `k` entries of a vector queue, oldest first, as places of a release. -/
def Block.lastEntries (b : Block) (n : Fin 4) (k : Nat) : List SyncObj :=
  (List.range k).map fun i => .vq b.uid n (b.pops[vqIdx n] + (b.vq[n]).length - k + i)

/-- A block-scope release by the c strand at some places (R135, R137, R138). -/
def State.blkRelease (s : State) (l : List SyncObj) : State := s.releaseOf s.blk (.strand s.blk.uid .c) l .blk

/-- What `sgret` pushes under a false predicate: the entries that it would push, all zero (R39). -/
def skipSgret : M Flow := do
  let sc := (← getBlk).scout
  match sc.round with
  | .guess _ => pushCins sc.cin (List.replicate sc.carries vzero)
  | _ => pure ()
  return .go

/-- `c.sgret` (R135). -/
def execCSgret (x : NoArgs) (s : State) : Host.Outcome State Fault Refusal :=
  issue .c 1 x.pred true skipSgret (do
    let sc := (← getBlk).scout
    match sc.round with
    | .guess ret =>
      let l ← byStrand .c 4 (cinEntries sc sc.carries)
      pushCins sc.cin l
      modS fun s => s.blkRelease (s.blk.lastEntries sc.cin l.length)
      let flow := if ret = 0 then Flow.halt else Flow.transfer ret
      let st ← getStr .c
      modBlk fun b => { b with scout := { b.scout with round := .body, cins := l, mark := some (b.mark (st.complete 1 flow)) } }
      return flow
    | _ => trap 0x28) s

/-! ## `accept` (R137) -/

/-- The lanes of a slot. -/
def laneGroup (v : VReg) (k : Nat) : List Word := (v.toList.drop (8 * k)).take 8

/-- The magnitude of a value. -/
def Val.abs : Val → Val
  | .nan => .nan
  | .inf _ => .inf false
  | .fin _ m e => .fin false m e

/-- Whether two lanes match. -/
def laneMatch (tol : Option Word) (x y : Word) : Bool :=
  match tol with
  | none => x == y
  | some t =>
    let d := ((Fmt.fp32.value false x.toNat).add .rne (Fmt.fp32.value false y.toNat).neg).abs
    !d.isNan && !(Fmt.fp32.value false t.toNat).lt d

/-- match(k). -/
def slotMatch (tol : Option Word) (couts cins : List VReg) (k : Nat) : Bool :=
  (couts.zip cins).all fun p =>
    ((laneGroup p.1 k).zip (laneGroup p.2 (k + 1))).all fun q => laneMatch tol q.1 q.2

/-- A from a starting value. -/
def acceptFrom (kr : Nat) (failed : List Nat) (m : Nat → Bool) : Nat → Nat → Nat
  | 0, a => a
  | n + 1, a => if a < kr && !failed.contains a && m (a - 1) then acceptFrom kr failed m n (a + 1) else a

def popVqs (n : Fin 4) : Nat → M (List VReg)
  | 0 => pure []
  | k + 1 => do
    let v ← popVq n
    return v :: (← popVqs n k)

/-- Write the true carry: slot `k` of each COUT entry into the carry area. -/
def writeCarry (area : Nat) (k : Nat) : List VReg → M (List SyncObj)
  | [] => pure []
  | v :: r => do
    let p ← writeVirt false area ((laneGroup v k).flatMap fun w => leBytes 4 w.toNat)
    let l ← writeCarry (area + 32) k r
    return locOf p 32 :: l

/-- What `accept` pops under a false predicate: the entries of COUT of an open loop (R39). -/
def skipAccept : M Unit := do
  let sc := (← getBlk).scout
  if sc.open_ then
    let _ ← popVqs sc.cout sc.carries

/-- `c.accept` (R137). -/
def execCAccept (x : AcceptArgs) (s : State) : Host.Outcome State Fault Refusal :=
  issue .c 1 x.pred false (do
    skipAccept
    dropAll .c [] [x.d]) (thenGo do
    let sc := (← getBlk).scout
    trapIf (sc.round != .body) 0x28
    let couts ← popVqs sc.cout sc.carries
    let tol := if x.tol then some sc.tol else none
    let a := acceptFrom sc.kr sc.failed (slotMatch tol couts sc.cins) 8 1
    let l ← byStrand .c 4 (writeCarry sc.carry.toNat (a - 1) couts)
    modS fun s => s.blkRelease l
    writeS .c x.d (BitVec.ofNat 64 a)
    modBlk fun b => { b with scout := { b.scout with round := .accepted, acc := a } }
    portOrder .c [] [x.d]) s

/-! ## `scommit` and `sclose` (R138) -/

def writeBufs : List BufSt → M (List SyncObj)
  | [] => pure []
  | b :: r => do
    let p ← byStrand .c b.bytes.length (writeVirt true b.addr.toNat b.bytes)
    let l ← writeBufs r
    return locOf p b.bytes.length :: l

/-- The stores of slots 0 to A - 1. -/
def commitSlots (bufs : Vector (List BufSt) 8) (a : Nat) : M (List SyncObj) :=
  writeBufs ((bufs.toList.take a).flatMap id)

/-- The tails after a commit. -/
def Scout.advance (x : Scout) : List (Dword × Word) :=
  x.regions.map fun r => (r.1 + BitVec.ofNat 64 (x.acc * r.2.toNat), r.2)

def writeTails (at_ : Nat) : List (Dword × Word) → M (List SyncObj)
  | [] => pure []
  | r :: l => do
    let p ← byStrand .c 8 (writeVirt false at_ (leBytes 8 r.1.toNat))
    let ps ← writeTails (at_ + 16) l
    return locOf p 8 :: ps

/-- The three steps of a commit, which are a block-scope release. -/
def commitRound : M Unit := do
  let sc := (← getBlk).scout
  trapIf (sc.round != .accepted) 0x28
  let l ← commitSlots sc.bufs sc.acc
  let k ← writeTails (sc.desc.toNat + 64) sc.advance
  modS fun s => s.blkRelease (l ++ k)
  modBlk fun b => { b with scout := { b.scout with regions := sc.advance, iter := sc.iter + BitVec.ofNat 32 sc.acc } }

/-- `c.scommit`: the next round's guess call follows. -/
def execCScommit (x : NoArgs) (s : State) : Host.Outcome State Fault Refusal :=
  issue .c 1 x.pred true skip (do
    commitRound
    let st ← getStr .c
    let sc := (← getBlk).scout
    checkTarget .c sc.target
    modBlk fun b => { b with scout := sc.call (st.afterAddr 1) }
    return .transfer sc.target) s

/-- No scouted loop is open. -/
def Scout.close (x : Scout) : Scout :=
  { x with round := .closed, k := 0, kr := 0, failed := [], bufs := noBufs, cins := [], mark := none }

/-- `c.sclose`: no round is open any more. -/
def execCSclose (x : NoArgs) (s : State) : Host.Outcome State Fault Refusal :=
  issue .c 1 x.pred true skip (thenGo do
    commitRound
    modBlk fun b => { b with scout := b.scout.close }) s

/-! ## Discarding a round (R139, R140, R265) -/

/-- A flag at the mark: P as it was, the ordinals above it forgotten. -/
def Flag.toMark (f : Flag) (p : Word) : Flag := { p := p, pend := f.pend.filter fun n => n ≤ p.toNat }

/-- A strand at the mark: an `ngo` that waited for leave asks again; a stop already recorded stands, its PC the mark's. -/
def Strand.toMark (now m : Strand) : Strand :=
  { m with stop := now.stop.map fun r => { r with pc := m.pc },
           wait := match m.wait with
             | .leave _ => .run
             | w => w }

/-- The entries of CIN in a run of the round: with KR = 1 only slot 0's lanes stay. -/
def cinAt (kr : Nat) (v : VReg) : VReg := ofLanes (v.toList.take (8 * kr))

/-- CIN's queue with its last entries, the round's, rebuilt. -/
def cinQueue (q l : List VReg) (kr : Nat) : List VReg := q.take (q.length - l.length) ++ l.map (cinAt kr)

/-- A bank is restored if the v strand held it at the mark; bank 0 is always held. -/
def restoreVregs (m : Mark) (now : Vector VReg 64) : Vector VReg 64 :=
  Vector.ofFn fun i => if m.holders[i.val / 8] = .v then m.v[i] else now[i]

/-- The a engine's nest at the mark, holding what leave is still granted to it. -/
def Nest.toMark (now m : Nest) : Nest :=
  { m with live := m.live.map fun l => match now.live with
      | some y => { l with units := y.units, isl := y.isl }
      | none => { l with units := 0 } }

/-- A block at its round mark, to run the round with `kr` slots. -/
def Block.toMark (b : Block) (m : Mark) (kr : Nat) : Block :=
  { b with
    strands := Vector.ofFn fun i => (b.strands[i]).toMark m.strands[i],
    s := m.s, a := m.a, v := restoreVregs m b.v, vm := m.vm, q := m.q,
    vq := m.vq.set b.scout.cin (cinQueue m.vq[b.scout.cin] b.scout.cins kr),
    pops := m.pops, rings := m.rings, streams := m.streams, gs := m.gs, flags := Vector.ofFn fun i => (b.flags[i]).toMark m.ps[i],
    holders := m.holders, nest := (b.nest).toMark m.nest, inflight := m.inflight,
    scout := { b.scout with round := .body, kr := kr, failed := [], bufs := noBufs } }

/-- The block in focus returns to its round mark (R140 step 3): its round runs again, serially or at its declared K. -/
def State.toMark (s : State) (serial : Bool) : State :=
  match s.blk.scout.mark with
  | none => s
  | some m =>
    let b := s.blk
    let kr := if serial then 1 else b.scout.k
    let asks := fun r : LeaveReq => r.uid == b.uid && r.cmd.isNone
    let t := { s with isls := s.isls.map fun (i : Isl) => { i with reqs := i.reqs.filter fun r => !asks r } }
    let t := { t with blk := b.toMark m kr }
    match b.nest.live with
    | some l => if m.nest.live.isNone then t.returnLeave l.isl l.units else t
    | none => t

/-- The engines that have command queues. -/
def cmdEngines : List Eng := [.a, .m, .d, .g]

/-- The round's commands that have not started are withdrawn (R140 step 1). -/
def State.withdraw (s : State) : State :=
  { s with blk := cmdEngines.foldl (fun b e =>
      b.modEng e fun q => { q with queue := q.queue.filter fun c => !b.ofRound e c.idx }) s.blk }

/-- Whether other blocks may publish in the rings of the block in focus: it is a member of a multicast group. -/
def State.fed (s : State) : Bool :=
  ((s.taskAt s.blk.task).map fun t => t.groups.any fun g => g.kind == 2 && g.members.contains s.blk.bidx.toNat).getD false

/-- Whether a command reads rings. -/
def Cmd.readsRing (c : Cmd) : Bool :=
  match c.op with
  | .mma _ _ => true
  | .mmas _ _ => true
  | .mwr _ => true
  | _ => false

/-- Whether a multicast waits at a target for what only a halted strand of the block in focus could do. -/
def State.targetStarved (s : State) (c : Cmd) (x : McastExt) (ring : Fin 32) (m : Nat) : Bool :=
  let i := (((s.taskAt s.blk.task).bind fun t => t.mcastGroup x.group.val).bind fun g => g.members[m]?).getD 0
  i == s.blk.bidx.toNat && match mcDeliver c x ring m s with
    | .error .blocked => true
    | _ => false

/-- Whether a started command stands for good while the strands are halted: it has trapped, or waits for what only they could
do. -/
def State.starved (s : State) (e : Eng) (c : Cmd) : Bool :=
  c.stuck || match c.op, c.leave with
  | _, .waiting _ => false
  | .ldt x, _ => !c.served && !s.vaMarked (c.reg 1) && !s.blk.ldtRoom c (oStream x.o1)
  | .scrub _, _ => false
  | .mcast x y, _ => c.served && (c.targets.zipIdx.all fun t => t.1.final || s.targetStarved c y x.o1 t.2) && !c.delivered
  | _, _ =>
    !(c.readsRing && s.fed) && match unitOf e c s with
      | .error .blocked => true
      | _ => false

/-- Whether an engine has a command that could still start. -/
def Block.startable (b : Block) (e : Eng) : Bool :=
  (b.eng e).prog.length < 16 && match (b.eng e).queue with
    | c :: _ => (b.guardOf c.guard).isSome
    | [] => false

/-- Whether nothing that the engines of a discarded round's block do goes on: then no command of the round can complete any more
(R140, R265). -/
def State.enginesRest (s : State) : Bool :=
  cmdEngines.all fun e => !s.blk.startable e && (s.blk.eng e).prog.all (s.starved e)

/-- Commands of the round that are in progress, each with its engine. -/
def Block.roundCmds (b : Block) : List (Eng × Cmd) :=
  cmdEngines.flatMap fun e => ((b.eng e).prog.filter fun c => b.ofRound e c.idx).map fun c => (e, c)

/-- SCOUT_RERUN (R140): the round's commands are withdrawn or have completed, those that can never go on are abandoned when no
command of the block can, and the strands return to the mark. -/
def execScoutRerun (u : Nat) (s : State) : Host.Outcome State Fault Refusal :=
  match s.blockAt u with
  | none => .next s
  | some _ =>
    let t := s.focus u
    match t.blk.scout.round with
    | .rerun serial =>
      let w := t.withdraw
      if w.cx.st.val ≤ 1 && (w.blk.roundCmds.isEmpty || w.enginesRest) then
        .next ((w.blk.roundCmds.foldl (fun s x => s.abandon x.1 x.2) w).toMark serial)
      else .next w
    | _ => .next s

end Sys2Proof.Machine
end

