-- ==== Sys2Proof/Machine/Cairn.lean ====
section
/-! DEFINITION. Stopping (R263, R277 to R283): how each strand and its engine come to rest and write a Cairn, the watchdog,
and atomics whose responses fail (R286). -/

namespace Sys2Proof.Machine

/-! ## The Cairn (R282, R283) -/

/-- Virtual die and core of a block. -/
def State.virtPlace (s : State) (b : Block) : Nat × Nat :=
  let w := s.hub.partdies[Fin.ofNat 32 b.part]
  (virtDie w b.die.val, virtCore w b.die.val b.core)

/-- Where a strand's Cairn lies: the partition's Cairn area holds 2 KiB per core (R287). -/
def State.cairnAt (s : State) (b : Block) (e : Eng) : Nat :=
  let p := s.virtPlace b
  (s.hub.cairnbase[Fin.ofNat 32 b.part]).toNat / 2 ^ 20 * 2 ^ 20 + (40 * p.1 + p.2) * 2048 + 256 * tagOf e

/-- A sum of bits. -/
def bitSum (l : List Bool) : Nat := (l.zipIdx.map fun x => if x.1 then 2 ^ x.2 else 0).sum

/-- Two bits of a guard slot. -/
def gsCode : Option Bool → Nat
  | none => 0
  | some false => 2
  | some true => 3

/-- Whether a word of the c strand is an arrival, `phadv` or `phset`: one with a barred field is no instruction (R97, R261). -/
def arrivalWord (w : Word) : Bool :=
  let n := w.toNat
  let op := n / 4 % 64
  let ps := n / 2 ^ 30
  selector w == 1 && n / 2 ^ 8 % 16 != 8 && n / 2 ^ 12 % 64 == 0 &&
    ((op == 43 && n / 2 ^ 18 % 64 == 0 && n / 2 ^ 24 < 2) ||
      (op == 44 && n / 2 ^ 24 % 64 == 0 && (ps == 0 || (ps == 2 && n / 2 ^ 18 % 64 / 16 == 1))))

/-- Whether a strand's next instruction is an arrival: one under a false predicate is none (R256, R263). -/
def State.atArrival (s : State) (e : Eng) (st : Strand) : Bool :=
  e == .c && match s.peekLine st st.pc with
    | some l => arrivalWord (l.word (wordOf st.pc)) && st.holds (predOfWord (l.word (wordOf st.pc)))
    | none => false

/-- The progress of a command as a Cairn records it: of a list, the index of the entry that is next (R145, R283). -/
def Cmd.progress (c : Cmd) : Nat :=
  match c.op with
  | .copyl _ => low32 (c.reg 2) + c.prog
  | _ => c.prog

/-- An entry of the in-progress part: index, valid, progress. -/
def progEntry (c : Cmd) : List Byte := leBytes 4 (c.idx.toNat + 2 ^ 16) ++ leBytes 4 c.progress

/-- The commands in progress in index order from the oldest: eight bytes each, sixteen entries. -/
def progEntries (l : List Cmd) : List Byte :=
  let bs := (l.take 16).flatMap progEntry
  bs ++ List.replicate (128 - bs.length) 0

/-- A 16-bit field that saturates. -/
def satHalf (n : Nat) : Nat := min 65535 n

/-- Bytes 96 to 255 of a Cairn. -/
def Block.cairnTail (b : Block) (e : Eng) : List Byte :=
  let bs := match e with
    | .c => (b.rings.toList.flatMap fun r => leBytes 2 (satHalf r.filled) ++ leBytes 2 (satHalf (r.claimed - r.tail).toNat)) ++
        leBytes 8 b.scout.csr.toNat
    | .v => []
    | .a => progEntries (b.eng .a).prog ++ (match b.nest.live with
        | some l => l.index.toList.flatMap fun i => leBytes 4 i.toNat
        | none => [])
    | e => progEntries (b.eng e).prog
  bs ++ List.replicate (160 - bs.length) 0

/-- What a counting wait records: its target and the ac that remain (R234). -/
def Wait.counting (w : Wait) : Nat × Nat :=
  match w with
  | .tk b => if b.timed then (b.n, b.rem) else (0, 0)
  | _ => (0, 0)

/-- The 256 bytes of a strand's Cairn in the block in focus. -/
def State.cairn (s : State) (e : Eng) (r : StopRec) : List Byte :=
  let b := s.blk
  let st := b.str e
  let p := s.virtPlace b
  let q := if Eng.queued e then b.eng e else EngQ.reset
  let flags := tagOf e + 16 * digit r.precise + 32 * digit (r.cause == 0 && !st.finished && s.atArrival e st) +
    64 * digit st.forcedFlag
  leBytes 8 r.pc.toNat ++ leBytes 8 r.caddr.toNat ++ leBytes 8 r.faddr.toNat ++ leBytes 8 r.aux.toNat ++
    leBytes 4 ((BitVec.ofInt 28 (b.lineIndex r.pc)).toNat * 16 + wordOf r.pc) ++
    [r.cause, r.sub, BitVec.ofNat 8 flags, BitVec.ofNat 8 (digit st.finished), BitVec.ofNat 8 p.1, BitVec.ofNat 8 p.2] ++
    leBytes 2 r.cidx.toNat ++ [BitVec.ofNat 8 q.queue.length, BitVec.ofNat 8 q.prog.length, 0, 0] ++
    leBytes 4 st.wait.counting.1 ++ leBytes 4 st.wait.counting.2 ++
    leBytes 8 (bitSum (b.flags.toList.map Flag.full)) ++ (b.q.toList.map fun l => BitVec.ofNat 8 l.length) ++
    (b.vq.toList.map fun l => BitVec.ofNat 8 l.length) ++
    leBytes 4 ((b.gs.toList.zipIdx.map fun x => gsCode x.1 * 4 ^ x.2).sum) ++ List.replicate 8 0 ++ b.cairnTail e

/-! ## Coming to rest (R278, R279) -/

/-- Commands that complete before their strand's Cairn (R279). -/
def CmdOp.mustComplete : CmdOp → Bool
  | .mnormGrow _ => true
  | .mnormTight _ => true
  | .mrd _ => true
  | .mwr _ => true
  | .mexpGet _ => true
  | .mexpSet _ => true
  | .dnormGrow _ => true
  | .dnormTight _ => true
  | .drd _ => true
  | _ => false

/-- Whether a command can go no further now. -/
def State.atRest (s : State) (e : Eng) (c : Cmd) : Bool :=
  c.stuck || !c.op.mustComplete || (match unitOf e c s with
    | .error .blocked => true
    | .error .freeze => true
    | .error (.mark _) => true
    | _ => false)

/-- Whether a strand has nothing of its own still to be delivered. -/
def State.quiet (s : State) (e : Eng) : Bool :=
  let st := s.str e
  !(s.blk.inflight.any fun x => x.eng == e) && (st.stop.isSome || match st.wait with
    | .atomic w => (match deliverAtomic e w w.old s with
      | .ok _ => false
      | .error _ => true)
    | _ => true)

/-- Whether a mid-round stop still has to discard the block's round (R139, R140): not for trap 0x28, and not where the
trap of a serial re-run surfaces. -/
def Block.mustDiscard (b : Block) : Bool :=
  b.scout.buffering && (match b.scout.mark with
    | none => false
    | some m =>
      (engines.any fun e => { b.str e with stop := none, wait := .run, pfx := .none } !=
        { m.strands[engIdx e] with stop := none, wait := .run, pfx := .none }) || b.scout.kr != b.scout.k) &&
    engines.all fun e => match (b.str e).stop with
      | none => true
      | some r => r.cause != 0x28 && (b.scout.kr != 1 || r.cause == 0 || r.cause == 0x60)

/-- The claims of a command on the ring of a block of its task, from a position on, withdrawn. -/
def Cmd.unclaim (members : List Nat) (i : Nat) (at_ : Word) (c : Cmd) : Cmd :=
  let later := fun p : Word => (p - at_).toNat < 2 ^ 31
  { c with targets := c.targets.zipIdx.map fun x =>
      if members[x.2]? = some i then
        (match x.1 with
        | .claimed p => if later p then .todo else x.1
        | .failedClaim p k => if later p then .failed k else x.1
        | t => t)
      else x.1 }

/-- A block of a task whose multicasts have claims on ring `ring` of block `i` from a position on. -/
def Block.unclaim (t : Task) (i : Nat) (ring : Fin 32) (at_ : Word) (b : Block) : Block :=
  if b.placed && b.task == t.key then
    b.modEng .a fun q => { q with prog := q.prog.map fun c =>
      match c.op with
      | .mcast x e => if x.o1 = ring then c.unclaim (((t.mcastGroup e.group.val).map fun g => g.members).getD []) i at_ else c
      | _ => c }
  else b

/-- The claim of a multicast of a task on a ring of block `i` is withdrawn, with every later unpublished one (R163). -/
def State.withdrawClaim (s : State) (t : Task) (i : Nat) (ring : Fin 32) (at_ : Word) : State :=
  let s := match s.memberBlock t.key i with
    | some b => s.modBlock b.uid fun b => b.modRingAt false ring fun r => { r with claimed := at_ }
    | none => s
  s.mapBlocks (Block.unclaim t i ring at_)

/-- The claims of a command, each with its target's index. -/
def Cmd.claims (members : List Nat) (c : Cmd) : List (Nat × Word) :=
  c.targets.zipIdx.filterMap fun x => match x.1, members[x.2]? with
    | .claimed p, some i => some (i, p)
    | .failedClaim p _, some i => some (i, p)
    | _, _ => none

/-- The unpublished claims of a block's multicasts, each with its ring. -/
def Block.claims (t : Task) (b : Block) : List (Fin 32 × Nat × Word) :=
  (b.eng .a).prog.flatMap fun c => match c.op with
    | .mcast x e => (c.claims (((t.mcastGroup e.group.val).map fun g => g.members).getD [])).map fun y => (x.o1, y)
    | _ => []

/-- Every unpublished claim of block `u` is withdrawn. -/
def State.withdrawClaims (s : State) (u : Nat) : State :=
  match s.blockAt u with
  | none => s
  | some b =>
    match s.taskAt b.task with
    | none => s
    | some t => (b.claims t).foldl (fun s y => s.withdrawClaim t y.2.1 y.1 y.2.2) s

/-! ## Ending tasks (R291, R287) -/

/-- A command in progress at a stop, which completes before the stop is over where R279 has it complete. -/
def State.finishCmd (e : Eng) (s : State) (c : Cmd) : State :=
  if c.stuck || !c.op.mustComplete then s
  else
    match runUnits (unitOf e) (2 ^ 32) { c with waits := .run } s with
    | (c1, .finished, t) => t.completeCmd e c1
    | (_, _, t) => t

/-- The engines of the block in focus come to rest as the line has them do it (R279, R291). -/
def State.finishCmds (s : State) : State :=
  cmdEngines.foldl (fun s e => if s.engLive e then (s.blk.eng e).prog.foldl (State.finishCmd e) s else s) s

/-- A block's arrival at a group barrier is taken back. -/
def State.dropArrival (s : State) (b : Block) : State :=
  s.modCtx b.ctx fun c => { c with bars := c.bars.map fun x =>
    if x.task = b.task then { x with arrived := x.arrived.filter fun i => i != b.bidx.toNat } else x }

/-- A block asks for leave no more. -/
def State.dropAsks (s : State) (u : Nat) : State :=
  { s with isls := s.isls.map fun (i : Isl) => { i with reqs := i.reqs.filter fun r => r.uid != u } }

/-- What leave a block holds: units and their island (R329). -/
def Block.leaves (b : Block) : List (Nat × Fin 32) :=
  (cmdEngines.flatMap fun e => (b.eng e).prog.filterMap fun c => match c.leave with
    | .granted n i => some (n, i)
    | _ => none) ++ (match b.nest.live with
      | some l => [(l.units, l.isl)]
      | none => [])

/-- All leave that a block holds is returned. -/
def State.returnLeaves (s : State) (b : Block) : State := b.leaves.foldl (fun s x => s.returnLeave x.2 x.1) s

/-- A block is discarded where it stands, its commands at rest: its claims and leave end, its core is freed (R291). -/
def State.discardBlock (s : State) (u : Nat) : State :=
  let f := s.blk.uid
  let s := ((s.focus u).finishCmds).focus f
  match s.blockAt u with
  | none => s
  | some b => ((((s.withdrawClaims u).dropAsks u).returnLeaves b).dropArrival b).removeBlock u

/-- Every block and saved block of a task is discarded. -/
def State.discardTask (s : State) (t : Task) : State :=
  let us := (s.blocks.filter fun b => b.placed && b.task == t.key).map fun b => b.uid
  let s := us.foldl State.discardBlock s
  let s := (s.saved.filter fun x => x.block.task == t.key).foldl (fun s x => s.returnLeaves x.block) s
  { s with saved := s.saved.filter fun x => x.block.task != t.key }

/-- A packet that waits to be entered ends with a code; none while its completion entry stalls. -/
def State.endWaiting (s : State) (t : Task) (code : Nat) : Option State :=
  let s := { s with waiting := s.waiting.filter fun x => x.key != t.key }
  match t.src with
  | .host f n => s.completion (some (s.blk, .task t.key)) t.ctx f n t.pkt.taskid code 0
  | .block _ => some s

/-- End a list of tasks with a code; none while a completion entry stalls. -/
def State.endTasks (s : State) (l : List Task) (code : Nat) : Option State :=
  l.foldlM (fun s t => (s.discardTask t).endTask s.blk t code) s

/-- ABORT of a stopped context (R286, R287): every task of it ends with 0x81, and its error-log entries are freed; none while a
completion entry stalls on a forwarding mark (R259). -/
def State.abortCtx (s : State) (cx : Nat) : Option State := do
  let s ← s.endTasks (s.tasks.filter fun t => t.ctx == cx) 0x81
  let s ← (s.waiting.filter fun t => t.ctx == cx).foldlM (fun s t => s.endWaiting t 0x81) s
  let s := { s with dies := s.dies.map fun (d : Die) => { d with errlog := d.errlog.filter fun x => x.ctx != cx } }
  return s.modCtx cx fun c => { c with st := 3, bars := [] }

/-- The context stands stopped where every Cairn is written; the contexts of a function in ERROR are then aborted (R324): their
completion entries are dropped, so that none stalls. -/
def State.stopEnd (s : State) (cx : Nat) : State :=
  let s := s.stopDone cx
  if (s.ctxAt cx).st = 2 && s.vfFenced (ctxVf cx) then (s.abortCtx cx).getD s else s

/-- A wait as it stands at a stop: the remaining count of a counting wait, and how long a mark has held the strand. -/
def Wait.atStop (cyc now : Nat) : Wait → Wait
  | .tk b => .tk { b with rem := b.rem - (cyc - b.since), since := cyc }
  | .mark t va => .mark (now - t) va
  | w => w

/-- A command that waits for leave asks again when it resumes. -/
def Cmd.atStop (cyc now : Nat) (c : Cmd) : Cmd :=
  { c with waits := c.waits.atStop cyc now, leave := match c.leave with
      | .waiting _ => .none
      | l => l }

/-- The engine of a strand of the block in focus comes to rest: its leave requests end, its multicasts' claims are
withdrawn, its waits keep what has passed. -/
def State.restEngine (s : State) (e : Eng) : State :=
  let u := s.blk.uid
  let s := if e = .a then s.withdrawClaims u else s
  let s := { s with isls := s.isls.map fun (i : Isl) => { i with reqs := i.reqs.filter fun r => !(r.uid == u && r.eng == e) } }
  let b := s.blk.modStr e fun st => { st with wait := st.wait.atStop s.blk.cyc s.time }
  { s with blk := if Eng.queued e then b.modEng e fun q => { q with prog := q.prog.map (Cmd.atStop s.blk.cyc s.time) } else b }

/-- Causes recorded in a block's strands, lowest tag first. -/
def Block.causes (b : Block) : List Byte :=
  engines.filterMap fun e => match (b.str e).stop with
    | some r => if r.cause = 0 then none else some r.cause
    | none => none

/-- The record of a strand that the line stops: its next instruction, or its last one where it has finished. -/
def lineStop (st : Strand) : StopRec :=
  { cause := 0, pc := st.pc, caddr := 0, faddr := 0, aux := 0, sub := 0, cidx := 0, precise := false, written := [] }

/-- A strand writes its Cairn; a cause gives its event, the watchdog's aside (R282, R284). -/
def State.writeCairn (s : State) (e : Eng) (r : StopRec) : State :=
  let bs := s.cairn e r
  let s := s.modStr e fun st => { st with stop := some { r with written := bs }, pfx := .none }
  let s := { s with blk := { s.blk with trapcause := s.blk.causes.headD 0, ferry := .none } }
  let s := s.putPhys s.blk.part (s.cairnAt s.blk e) bs
  if r.cause = 0 || r.cause = 0x60 then s
  else s.dieEvent s.blk.die (s.mkEvent s.blk.ctx 1 r.cause.toNat s.blk.die s.blk.core r.faddr r.aux)

/-- Whether the strands with lower tags have written their Cairns. -/
def Block.lowerWritten (b : Block) (e : Eng) : Bool :=
  engines.all fun x => tagOf e ≤ tagOf x || !(b.str x).chain || (match (b.str x).stop with
    | some r => !r.written.isEmpty
    | none => false)

/-- STRAND_STOP (R278, R282): a strand of a stopping context stands, its engine at rest, and its Cairn is written. A round
of its block is discarded first (R140). -/
def execStrandStop (u : Nat) (e : Eng) (s : State) : Host.Outcome State Fault Refusal :=
  match s.blockAt u with
  | none => .next s
  | some _ =>
    let t := (s.focus u).modStr e fun st => if st.stop.isNone then st.settle (s.focus u).blk.forcing else st
    let st := t.str e
    let r := st.stop.getD (lineStop st)
    if t.cx.st ≠ 1 || !st.chain || !r.written.isEmpty || !t.blk.lowerWritten e || t.blk.rerunning then .next s
    else if t.blk.mustDiscard then .next (t.discardRound false)
    else if !t.quiet e || (Eng.queued e && !((t.blk.eng e).prog.all (t.atRest e))) then .next s
    else
      let w := t.restEngine e
      .next ((w.writeCairn e r).stopEnd w.blk.ctx)

/-! ## The watchdog (R281) -/

/-- 100 ms. -/
def watchdogTime : Nat := 100000000 * nsUnits

/-- Whether a strand has counted as blocked for the watchdog's time, barriers aside. -/
def Block.wdBlocked (b : Block) (now : Nat) (e : Eng) : Bool :=
  let st := b.str e
  !st.unfinished || (st.since + watchdogTime ≤ now && b.waits e && match st.wait with
    | .tk k => !k.timed
    | _ => true)

/-- Whether a block meets the watchdog's conditions when the blocks of `l` are taken to meet them. -/
def State.wdHolds (s : State) (l : List Nat) (b : Block) : Bool :=
  b.placed && b.started && b.idle + watchdogTime ≤ s.time && !b.complete && engines.all (b.wdBlocked s.time) &&
    match (b.str .c).wait with
    | .gbar g _ =>
      (match (s.taskAt b.task).bind fun t => (t.barrierOf b.bidx.toNat g).map fun y => (t, y) with
      | none => true
      | some (t, y) => y.members.all fun i => i == b.bidx.toNat || t.doneIdx.contains i ||
          (match s.memberBlock t.key i with
          | some x => l.contains x.uid
          | none => false))
    | .phase _ => (s.liveBlocks b.ctx).all fun x => x.uid == b.uid || l.contains x.uid
    | _ => true

/-- The blocks that meet the conditions together: blocks that fail are taken out until none fails. -/
def State.wdSet (s : State) : Nat → List Nat → List Nat
  | 0, l => l
  | n + 1, l => s.wdSet n ((s.blocks.filter fun b => l.contains b.uid && s.wdHolds l b).map fun b => b.uid)

/-- Record 0x60 in a strand that has not finished. -/
def State.wdRecord (s : State) (e : Eng) : State :=
  let st := s.str e
  if st.unfinished then s.recordStop e { lineStop st with cause := 0x60 } else s

/-- The watchdog of a block trips: every strand of it records 0x60, and one event is written. -/
def State.wdTrip (s : State) (b : Block) : State :=
  let t := engines.foldl (fun s e => s.wdRecord e) (s.focus b.uid)
  t.dieEvent b.die (t.mkEvent b.ctx 1 0x60 b.die b.core 0 0)

/-- WATCHDOG_TRIP (R281): the watchdog of the block trips, with those of every other block of its context that meets the conditions at
the same moment, and the line is raised. -/
def execWatchdogTrip (u : Nat) (s : State) : Host.Outcome State Fault Refusal :=
  match s.blockAt u with
  | none => .next s
  | some b =>
    let l := s.blocks.map fun b => b.uid
    let l := s.wdSet (l.length + 1) l
    if (s.ctxAt b.ctx).st = 0 && l.contains u then
      let t := ((s.liveBlocks b.ctx).filter fun x => x.uid != u && l.contains x.uid).foldl State.wdTrip (s.wdTrip b)
      .next ((t.modCtx b.ctx fun c => c.halt 0x60).focus u)
    else .next s

/-! ## Atomic responses that fail (R286) -/

/-- Whether a command's adds are atomics. -/
def CmdOp.adds : CmdOp → Bool
  | .gsc _ => true
  | .copyb _ e => e.scatter && e.add
  | _ => false

/-- Where an AUX of cause 0x39 says that an error-log entry stands: the die and the index (R286). -/
def loggedAt (aux : Dword) : Fin 8 × Nat := (logDie (aux.toNat / 2 ^ 16 % 16), aux.toNat % 2 ^ 16)

/-- A command whose adds have all been made, the response to one of which fails: the last of them (log 28). Its strand may have stopped
before for another cause: the command is complete all the same. -/
def State.addFails (s : State) (e : Eng) (c : Cmd) (x : VReg × Nat × Nat) (t : State) : State :=
  let (aux, t) := t.logError e x.1 x.2.1 x.2.2
  (s.settle e c.idx t).raiseCmd e { c with failed := some (loggedAt aux) } { cause := 0x39, faddr := 0, aux := aux, sub := 0, pc := none }

/-- ATOMIC_RESPONSE_ERROR (R286): the response to the atomic of a c or v strand, or to an add of a command that has no other
add to make, fails. -/
def execAtomicResponseError (u : Nat) (e : Eng) (s : State) : Host.Outcome State Fault Refusal :=
  match s.blockAt u with
  | none => .next s
  | some _ =>
    let t := s.focus u
    match (t.str e).wait, (t.str e).stop with
    | .atomic w, none =>
      let (aux, t) := t.logError e w.old w.addr w.home
      .next (t.takeTrap e { cause := 0x39, faddr := 0, aux := aux, sub := 0, pc := none })
    | _, _ =>
      if !t.engLive e then .next s
      else
        match (t.blk.eng e).prog.find? fun c => c.op.adds && !c.stuck with
        | none => .next s
        | some c =>
          match unitOf e c t with
          | .ok ((c1, true), w) => .next ((c1.adds.map fun x => t.addFails e c1 x w).getD s)
          | _ => .next s

end Sys2Proof.Machine
end

