-- ==== Sys2Proof/Machine/Ctx.lean ====
section
/-! DEFINITION. The driver's control of its contexts (R275, R286 to R288, R291, R332): stop, resume, abort, kill, creation
and destruction. -/

namespace Sys2Proof.Machine

/-! ## Stop (R287) -/

/-- CTXCMD_STOP: the line is raised with cause 0x00. -/
def execCtxcmdStop (f : Fin 64) (k : Fin 16) (s : State) : Host.Outcome State Fault Refusal :=
  if s.vfFenced f.val then .next s else
  let cx := ctxNo f k
  let c := s.ctxAt cx
  if c.valid && c.st == 0 then
    .next ((s.modCtx cx fun c => { c.halt 0 with cmd := 0 }).stopDone cx)
  else .next (s.modCtx cx fun c => { c with cmd := 0 })

/-! ## Resume (R145, R279, R286, R288) -/

/-- The PC and SKIP that a Cairn in memory holds. -/
structure Back where
  pc : Dword
  skip : Bool
deriving DecidableEq, Repr

/-- The bytes of a Cairn that RESUME compares: all but the PC and SKIP. -/
def cairnKept (bs : List Byte) : List Byte :=
  (bs.drop 8).zipIdx.map fun x => if x.2 = 30 then x.1 &&& 0x7F else x.1

/-- What the driver left in a Cairn; none where RESUME is refused for its bytes. -/
def backOf (written bs : List Byte) : Option Back :=
  if cairnKept written = cairnKept bs then
    some { pc := BitVec.ofNat 64 (fieldN bs 0 8), skip := fieldN bs 38 1 / 128 == 1 }
  else none

/-- What stands at a PC in a line of the strand's own engine: none where it is no first word and no prefix word (R288), else whether a
prefix word directly precedes it (R94). -/
def State.pcStep (s : State) (e : Eng) (pc : Dword) : Option Bool :=
  if pc.toNat % 4 ≠ 0 then none
  else
    match readVirt false (lineOf pc).toNat 64 s with
    | .ok (bs, _) =>
      let l := lineOfBytes (lineOf pc) bs
      let k := wordOf pc
      if (linkFault e (l.words[0])).isNone && 1 ≤ k && k ≤ linkCount (l.words[0]) then stepAt l k 16 1 false else none
    | .error _ => none

/-- What a strand of the block in focus is to resume with; none where RESUME is refused. -/
def State.backOfStrand (s : State) (e : Eng) : Option Back :=
  match (s.str e).stop with
  | none => some { pc := (s.str e).pc, skip := false }
  | some r =>
    let a := s.cairnAt s.blk e
    match asAgent s.blk.die s.blk.ctx s.blk.part (readPhys a a 256) s with
    | .ok (bs, _) =>
      (backOf r.written bs).bind fun b =>
        if (s.str e).finished || (s.pcStep e b.pc).isSome then some b else none
    | .error _ => none

/-- Whether a word is `jt` or `jtl`. -/
def branchWord (e : Eng) (w : Word) : Bool :=
  let op := w.toNat / 4 % 64
  selector w == 0 && match e with
    | .c => op == 43 || op == 44
    | .a => op == 7
    | .v => op == 50
    | _ => false

/-- A strand past the instruction of `n` words of line `l` at its PC, which has no effect; `br` says that it is a branch, whose two
delay slots follow. The line that it goes on in is fetched unless the strand holds it (R314). -/
def Strand.skipPast (st : Strand) (l : LineBuf) (n : Nat) (br : Bool) : Strand :=
  let nx := (following st.pc (l.words[0]) n).map fun (x : Dword × Bool) => (x.1, !st.holdsLine x.1)
  let st : Strand := { st with pfx := .none, wait := .run }.goOn nx
  if br && nx.isSome then { st with slots := 2, branch := none } else st

/-- SKIP: the instruction at a strand's PC completes with no effect; a back-edge that is still to be decided is not taken. -/
def State.skipInstr (s : State) (e : Eng) : State :=
  let st := s.str e
  match st.edge, s.peekLine st st.pc with
  | some (_, ended), _ => s.modStr e fun st => { st with wait := .run }.pastEdge ended
  | none, none => s
  | none, some l =>
    let k := wordOf st.pc
    let pre := selector (l.word k) = 2
    let w := if pre then l.word (k + 1) else l.word k
    s.modStr e fun st => st.skipPast l (if pre then 1 + stepLen w else stepLen w) (branchWord e w)

/-- A wait that goes on after a stop: a counting `tkwait`, the stall of a mark, an atomic whose response is still to come, and the
stop at a line that a checkpoint still asks for (R292). Everything else issues again. -/
def Wait.resumed (cyc now : Nat) (forcing : Bool) : Wait → Wait
  | .tk b => if b.timed then .tk { b with since := cyc } else .run
  | .mark t va => .mark (now - t) va
  | .atomic w => .atomic w
  | .gathered => if forcing then .gathered else .run
  | _ => .run

/-- An error-log entry is freed (R286). -/
def State.freeLog (s : State) (x : Fin 8 × Nat) : State :=
  s.modDie x.1 fun d => { d with errlog := d.errlog.filter fun y => y.index != x.2 }

/-- The instruction of an atomic that failed completes from its error-log entry, which is freed (R286). A result that its port cannot
take yet is in flight where the strand goes on elsewhere, `moved`. -/
def State.fromLog (s : State) (e : Eng) (r : StopRec) (moved : Bool) : State :=
  match (s.str e).wait with
  | .atomic w =>
    let old := match (s.dies[(loggedAt r.aux).1]).errlog.find? fun x => x.index == (loggedAt r.aux).2 with
      | some x => x.old
      | none => w.old
    let t := s.freeLog (loggedAt r.aux)
    let x : Inflight := { eng := e, dst := w.dst, sval := laneDword old, vval := old }
    (match deliverAtomic e w old t with
    | .ok (_, t) => t.complete e (t.str e).waitSpan .go
    | .error _ => if moved then { t with blk := { t.blk with inflight := t.blk.inflight ++ [x] } } else t)
  | _ => s

/-- Where a strand stands: at the last instruction of a loop whose back-edge is still to be decided, else at its PC. -/
def Strand.atPc (st : Strand) : Dword :=
  match st.edge with
  | some (a, _) => a
  | none => st.pc

/-- The strand restarts at the PC of its Cairn (R288). -/
def State.restartAt (s : State) (e : Eng) (b : Back) : State :=
  if b.pc = (s.str e).atPc then s else s.modStr e fun st => { st.transfer b.pc with wait := .run }

/-- A strand of the block in focus resumes (R286, R288). An atomic that failed has completed: its result is delivered, but for a SKIP of
itself. -/
def State.resumeStrand (s : State) (e : Eng) (b : Back) : State :=
  match (s.str e).stop with
  | none => s
  | some r =>
    let s := s.modStr e fun st => { st with stop := none, pfx := .none }
    let failed := r.cause = 0x39 && r.precise
    let moved := b.pc != r.pc
    if (s.str e).finished then s
    else if b.skip && s.pcStep e b.pc = some false then
      let s := if failed then (if moved then s.fromLog e r true else s.freeLog (loggedAt r.aux)) else s
      (s.restartAt e b).skipInstr e
    else if failed then (if moved then (s.fromLog e r true).restartAt e b else s.fromLog e r false)
    else (s.restartAt e b).modStr e fun st => { st with wait := st.wait.resumed s.blk.cyc s.time s.blk.forcing }

/-- A trap return to a first word directly behind a prefix word is trap 0x05 (R94). -/
def State.checkReturn (s : State) (e : Eng) (b : Back) : State :=
  if (s.str e).chain && !(s.str e).finished && s.pcStep e b.pc = some true then
    s.takeTrap e { cause := 5, faddr := b.pc, aux := 0, sub := 0, pc := some b.pc }
  else s

/-- A command in progress is issued again from where R145 and R279 say. -/
def Cmd.resume (b : Block) (now : Nat) (c : Cmd) : Cmd :=
  let c := { c with stuck := false, ovf := false, waits := match c.waits with
    | .mark t va => .mark (now - t) va
    | _ => .run }
  let whole := { c with prog := 0, count := 0 }
  match c.op with
  | .copyMm _ => whole
  | .copyMs _ => whole
  | .copySm _ => whole
  | .copyMmLen _ => whole
  | .copyMsLen _ => whole
  | .copySmLen _ => whole
  | .copyWide _ _ => whole
  | .copyl _ => { c with count := 0 }
  | .scrub _ => { whole with data := [] }
  | .mcast _ _ => { c with targets := c.targets.map fun t => if t = .done then t else .todo }
  | .ldt x =>
    { whole with served := false, data := [], issued := now, count := now,
                 slotAt := slotFrom b.die.val ((b.slotNo x.o3.val).getD 0) (now + cutLead) }
  | _ => c

/-- A command that its trap left complete leaves its engine: an add is then released (R57, R286), a multicast has been (R164). -/
def State.endStuck (s : State) (e : Eng) (c : Cmd) : State :=
  match c.op with
  | .mcast _ _ => s.retire e c
  | _ => s.completeCmd e c

/-- A command whose trap leaves it complete: a multicast after 0x38, one whose add failed (R145, R286). -/
def Cmd.trapped (c : Cmd) (stop : Option StopRec) : Bool :=
  c.failed.isSome || (match stop with
    | some r => !r.precise && c.stuck && c.idx == r.cidx && r.cause == 0x38
    | none => false)

/-- Such a command leaves its engine, its error-log entry freed. -/
def State.endTrapped (s : State) (e : Eng) (c : Cmd) : State :=
  match c.failed with
  | some x => (s.freeLog x).endStuck e c
  | none => s.endStuck e c

/-- The engine of a strand resumes: a command that its trap left complete leaves it, the others go on. -/
def State.resumeEngine (s : State) (e : Eng) (stop : Option StopRec) : State :=
  if !Eng.queued e then s
  else
    let s := ((s.blk.eng e).prog.filter fun c => c.trapped stop).foldl (fun s c => s.endTrapped e c) s
    { s with blk := s.blk.modEng e fun q => { q with prog := q.prog.map (Cmd.resume s.blk s.time) } }

/-- The block in focus resumes; one that had not started loads its attribute tables again. -/
def State.resumeBlock (s : State) : State :=
  let backs := engines.map fun e => (e, s.backOfStrand e)
  let s := backs.foldl (fun s x => match x.2 with
    | none => s
    | some b => (s.resumeStrand x.1 b).resumeEngine x.1 (s.str x.1).stop) s
  let s := { s with blk := { s.blk with idle := s.time, stood := false } }
  let s := if s.blk.started then s else s.startBlock
  backs.foldl (fun s x => match x.2 with
    | none => s
    | some b => if s.blk.started then s.checkReturn x.1 b else s) s

/-- Whether no Cairn of a block refuses a RESUME. -/
def State.mayResume (s : State) (b : Block) : Bool :=
  let t := s.focus b.uid
  engines.all fun e => !(t.str e).chain || (t.backOfStrand e).isSome

/-- CTXCMD_RESUME. -/
def execCtxcmdResume (f : Fin 64) (k : Fin 16) (s : State) : Host.Outcome State Fault Refusal :=
  if s.vfFenced f.val then .next s else
  let cx := ctxNo f k
  let l := s.liveBlocks cx
  let s := s.modCtx cx fun c => { c with cmd := 0 }
  if (s.ctxAt cx).st = 2 && l.all s.mayResume then
    let u := s.blk.uid
    let t := (s.turnStalls cx).modCtx cx fun c => { c with st := 0, porterDown := false }
    let t := if (t.ctxAt cx).changing then t else t.mapBlocks (Block.askAgain cx s.time)
    .next ((l.foldl (fun s b => (s.focus b.uid).resumeBlock) t).focus u)
  else .next s

/-! ## Ending tasks (R287) -/

/-- CTXCMD_ABORT (R287): in the stopped state. It has no effect yet while a completion entry stalls on a forwarding mark (R259). -/
def execCtxcmdAbort (f : Fin 64) (k : Fin 16) (s : State) : Host.Outcome State Fault Refusal :=
  if s.vfFenced f.val then .next s else
  let cx := ctxNo f k
  let t := s.modCtx cx fun c => { c with cmd := 0 }
  if (t.ctxAt cx).st ≠ 2 then .next t else .next ((t.abortCtx cx).getD s)

/-- KILL of the task that CTXARG names: its blocks are discarded, and it ends with 0x80; none while its completion entry stalls. -/
def State.killNamed (s : State) (cx : Nat) : Option State :=
  let id := (s.ctxAt cx).arg
  let s := s.modCtx cx fun c => { c with cmd := 0 }
  match s.tasks.find? fun t => t.ctx == cx && t.pkt.taskid == id with
  | some t => s.endTasks [t] 0x80
  | none =>
    match s.waiting.find? fun t => t.ctx == cx && t.pkt.taskid == id with
    | some t => s.endWaiting t 0x80
    | none => some s

/-- The driver's KILL is accepted now. -/
def State.killNow (s : State) (cx : Nat) : State := ((s.killNamed cx).map fun t => t.stopDone cx).getD s

/-- CTXCMD_KILL (R256, R287): held while a phase change is pending. -/
def execCtxcmdKill (f : Fin 64) (k : Fin 16) (s : State) : Host.Outcome State Fault Refusal :=
  if s.vfFenced f.val then .next s else
  let cx := ctxNo f k
  if (s.ctxAt cx).changing then .next (s.modCtx cx fun c => { c with cmd := 4 }) else .next (s.killNow cx)

/-- KILL_ACCEPT: a held KILL is accepted once no change is pending. -/
def execKillAccept (f : Fin 64) (k : Fin 16) (s : State) : Host.Outcome State Fault Refusal :=
  let cx := ctxNo f k
  if (s.ctxAt cx).cmd = 4 && !(s.ctxAt cx).changing then .next (s.killNow cx) else .next s

/-! ## Creation (R254, R275, R332) -/

/-- The overflow area of a SEOVF value: physical base and bytes. -/
def seovfRange (v : Dword) : Nat × Nat := (v.toNat / 2 ^ 20 * 2 ^ 20, min (v.toNat % 16) 8 * 2 ^ 20)

/-- SEOVF of virtual die `vd` after the check of R332; `frames` is the memory that the partition holds. -/
def Ctx.checkSeovf (c : Ctx) (w : Word) (frames : List (Nat × Nat)) (vd : Nat) (v : Dword) : Dword :=
  let (a, n) := seovfRange v
  let held := rangeHeld w frames (vd, a, n)
  let meet := (c.store.flatMap MapEntry.ranges).any fun r => r.2.1 < a + n && a < r.2.1 + r.2.2
  if held && !meet then v else BitVec.ofNat 64 (v.toNat / 16 * 16)

/-- LATELIM as CTXCFG stores it. -/
def latelimOf (n : Nat) : BitVec 14 := if n = 0 then 100 else BitVec.ofNat 14 (min n 10000)

/-- A peer table as the driver makes it when it creates the context: which package and port each index names is free (R8; log 53). -/
def freePeers (k : Nat) : Vector (Nat × Fin 16) 16 :=
  Vector.ofFn fun i =>
    let w := (Config.freeWord (2 * (k + i.val))).toNat
    (w / 16 % 256, Fin.ofNat 16 w)

/-- ACCTRAP and LATELIM as a write of CTXCFG stores them. -/
def Ctx.config (c : Ctx) (val : Dword) : Ctx :=
  { c with acctrap := val.getLsbD 14, latelim := latelimOf (val.toNat % 2 ^ 14) }

/-- CTXCFG_CREATE: a write of V = 1. It creates a context that has none, running, in phase 0; the move into phase 1 may
start where PRE says so. -/
def execCtxcfgCreate (f : Fin 64) (k : Fin 16) (val : Dword) (s : State) : Host.Outcome State Fault Refusal :=
  if s.vfFenced f.val then .next s else
  let cx := ctxNo f k
  let c := s.ctxAt cx
  if c.valid then .next s
  else
    let p := Fin.ofNat 32 (s.ctxPart cx)
    let t := { s with free := s.free + 16 }.modCtx cx fun c =>
      { (c.swapTo 0 []).config val with valid := true, st := 0, first := 0, cmd := 0, bars := [], peers := freePeers s.free,
                                        seovf := Vector.ofFn fun d =>
                                          c.checkSeovf s.hub.partdies[p] s.hub.frames[p] d.val c.seovf[d] }
    .next (t.nextShadow cx)

/-- CTXCFG_DESTROY: a write of V = 0, ignored while a task of the context holds a scoreboard entry or a core. The map store
and the record of retired transfers go with the context (log 29). A write of V = 0 where V is 0 already is `Ctx.regWrite`'s. -/
def execCtxcfgDestroy (f : Fin 64) (k : Fin 16) (s : State) : Host.Outcome State Fault Refusal :=
  if s.vfFenced f.val then .next s else
  let cx := ctxNo f k
  let busy := (s.tasks.any fun t => t.ctx == cx && !t.held.isEmpty) || !(s.liveBlocks cx).isEmpty
  if !(s.ctxAt cx).valid || busy then .next s
  else
    let t := { s with retired := s.retired.filter fun r => r.ctx != cx }
    .next ((t.modCtx cx fun c =>
      { c with valid := false, store := [], phases := 1, regions := 0, phase := 0, change := none, marks := [], bars := [],
               porterDown := false, pre := 0 }).nextShadow cx)

end Sys2Proof.Machine
end

