-- ==== Sys2Proof/Machine/Preempt.lean ====
section
/-! DEFINITION. Pre-emption (R289 to R291), checkpoints (R292 to R294) and Ferry (R295 to R299). -/

namespace Sys2Proof.Machine

/-! ## Newcomer and victim (R289, R290) -/

/-- The newcomer of a die: the first candidate with an unplaced block whose component does not fit. -/
def State.newcomer (s : State) (x : Nat) : Option Task :=
  (s.ranked x).find? fun t =>
    ((List.range t.pkt.blocks.toNat).any fun i => s.unplaced t i) && (s.chooseSeats t x).isNone

/-- The placed blocks of a task. -/
def State.taskBlocks (s : State) (t : Task) : List Block := s.blocks.filter fun b => b.placed && b.task == t.key

/-- Tasks that run on a die. -/
def State.running (s : State) (x : Nat) : List Task :=
  s.tasks.filter fun t => t.xfer.isNone && (s.taskBlocks t).any fun b => b.die.val == x

/-- The lesser of two possible victims: least eff, then the one entered latest. -/
def lesser (now : Nat) (a b : Task) : Task :=
  if a.eff now < b.eff now then a
  else if b.eff now < a.eff now then b
  else if b.entered ≤ a.entered then a else b

/-- The victim of a newcomer on a die, if the condition of R289 holds. -/
def State.victim (s : State) (x : Nat) (n : Task) : Option Task :=
  (s.running x).foldl (fun v t =>
    if t.eff s.time < n.eff s.time && !(s.ctxAt t.ctx).changing && (s.ctxAt t.ctx).st == 0 then
      (match v with
      | none => some t
      | some y => some (lesser s.time y t))
    else v) none

/-- The placed blocks of a block's component. -/
def State.mates (s : State) (t : Task) (i : Nat) : List Block :=
  let comp := ((components t.groups).find? fun c => c.contains i).getD [i]
  (s.taskBlocks t).filter fun b => comp.contains b.bidx.toNat

/-- Whether a component of the newcomer fits once some blocks are gone. -/
def State.fitsWithout (s : State) (n : Task) (x : Nat) (us : List Nat) : Bool :=
  ((us.foldl (fun s u => s.removeBlock u) s).chooseSeats n x).isSome

/-- Whole components, highest index first, until the newcomer's component fits. -/
def State.takeUntil (s : State) (v n : Task) (x : Nat) : List Block → List Nat → List Nat
  | [], l => l
  | b :: r, l =>
    if l.contains b.uid then s.takeUntil v n x r l
    else
      let l := l ++ (s.mates v b.bidx.toNat).map fun y => y.uid
      if s.fitsWithout n x l then l else s.takeUntil v n x r l

/-- The blocks that a decision against a victim takes. -/
def State.takeBlocks (s : State) (v n : Task) (x : Nat) : List Nat :=
  s.takeUntil v n x (((s.taskBlocks v).filter fun b => b.die.val == x).mergeSort fun a b => b.bidx.toNat ≤ a.bidx.toNat) []

/-- A task drained on a die for another (R291). -/
def State.drain (s : State) (v : Nat) (x n : Nat) : State :=
  { s with tasks := s.tasks.map fun t =>
      if t.key = v && !t.drains.contains (x, n) then { t with drains := (x, n) :: t.drains } else t }

/-- Ask a block for a checkpoint. -/
def Block.askCkpt (now : Nat) (b : Block) : Block :=
  match b.ckpt with
  | .none => { b with ckpt := .asked now }
  | _ => b

/-- The decision of R290. -/
def State.decide (s : State) (v n : Task) (x : Nat) : State :=
  let us := s.takeBlocks v n x
  if v.est.toNat ≤ 8000 * (16 - n.eff s.time) then s.drain v.key x n.key
  else if v.pkt.ckpt then us.foldl (fun s u => s.modBlock u (Block.askCkpt s.time)) s
  else if v.pkt.kill then us.foldl State.discardBlock s
  else s.drain v.key x n.key

/-- The newcomer and its victim on a die. -/
def State.conflict (s : State) (x : Nat) : Option (Task × Task) :=
  (s.newcomer x).bind fun n => (s.victim x n).map fun v => (v, n)

/-- PREEMPT_DECISION: the condition first holds on a die, or holds no more. -/
def execPreemptDecision (die : Fin 8) (s : State) : Host.Outcome State Fault Refusal :=
  match s.conflict die.val, (s.dies[die]).decided with
  | none, _ => .next (s.modDie die fun d => { d with decided := none })
  | some (v, n), none => .next ((s.decide v n die.val).modDie die fun d => { d with decided := some s.time })
  | some _, some _ => .next s

/-- PREEMPT_RECHECK: 256 µs after the last decision, while the condition holds. -/
def execPreemptRecheck (die : Fin 8) (s : State) : Host.Outcome State Fault Refusal :=
  match (s.dies[die]).decided with
  | none => .next s
  | some t =>
    if s.time < t + ageStep then .next s
    else
      match s.conflict die.val with
      | none => .next (s.modDie die fun d => { d with decided := none })
      | some (v, n) => .next ((s.decide v n die.val).modDie die fun d => { d with decided := some s.time })

/-! ## Checkpoints (R292, R293, R294) -/

/-- Whether the block in focus stands, with nothing in flight and every started command completed (R292, R296). -/
def State.gatheredAll (s : State) : Bool :=
  let b := s.blk
  b.placed && b.started && b.stood && !b.rerunning && b.inflight.isEmpty && b.engs.toList.all fun q => q.prog.isEmpty

/-- Put an open round of the block in focus back to its mark, its commands withdrawn (R140, R265). -/
def State.dropRound (s : State) : State := if s.blk.scout.buffering then s.withdraw.toMark false else s

/-- A strand as a frame keeps it: a forced one restarts at its RLINE, any other at its PC (R293). It holds no line: it enters its line
anew, which on the other class of die is a Ferry's trigger (R295). -/
def Strand.saved (cyc : Nat) (st : Strand) : Strand :=
  let w := match st.wait with
    | .tk b => if b.timed then .tk { b with rem := b.rem - (cyc - b.since), since := cyc } else .run
    | _ => .run
  let st : Strand := { st with wait := w, pfx := .none, again := false, line := none }
  if st.forcedFlag then st.backToRline else st

/-- The block in focus comes to rest for its frame: its arrival at a group barrier and its requests for leave are made again. -/
def State.toRest (s : State) : State :=
  let s := engines.foldl (fun s e => s.restEngine e) s.dropRound
  s.dropArrival s.blk

/-- A block as a frame keeps it. -/
def Block.toSave (b : Block) : Block :=
  { b with placed := false, started := false, strands := b.strands.map (Strand.saved b.cyc), ckpt := .none, ferry := .none,
           stood := false, tables := .run }

/-- The class of die that the block in focus needs: that of a strand waiting for a Ferry, else its own. -/
def Block.needsS (b : Block) : Bool :=
  match engines.find? fun e => (b.str e).unfinished && (b.str e).wait == .ferry with
  | some e => e != .m
  | none => 4 ≤ b.die.val

/-- The free frames of a partition's save pool, lowest first. -/
def State.freeFrames (s : State) (p : Nat) : List Nat :=
  (List.range (s.hub.savecnt[Fin.ofNat 32 p]).toNat).filter fun n => !(s.saved.any fun x => x.part == p && x.frame == n)

/-- Units of a range written whole under a partition's key (R321). -/
def State.keyUnits (s : State) (p base n : Nat) : State :=
  let us := (List.range (n / 64)).map fun i => base / 64 + i
  let k := s.hub.keys[Fin.ofNat 32 p]
  let inside := fun u : Nat => base / 64 ≤ u && u < base / 64 + n / 64
  { s with unitKeys := us.map (fun u => (u, k)) ++ s.unitKeys.filter (fun x => !inside x.1),
           poison := s.poison.filter (fun u => !inside u), upsets := s.upsets.filter fun u => !inside u }

/-- The rows of a frame beside its Cairns: number, offset and length (R294). -/
def frameRows : List (Nat × Nat × Nat) :=
  [(1, 0x800, 2048), (2, 0x1000, 9216), (3, 0x3400, 20480), (4, 0x8400, 143360)]

/-- The bytes of a frame up to its scratch slice: the Cairns stand at 0x100, in tag order, and of each row its contents' code
(R294; log 31); `sdie` says that the block needs an S-die. -/
def State.frameBytes (s : State) (sdie : Bool) : List Byte :=
  let b := s.blk
  let id := ((s.taskAt b.task).map fun t => t.pkt.taskid).getD 0
  let row := fun (r n : Nat) => (List.range n).map fun i => Config.frameByte r (b.toSave.frameRow r) (if r = 0 then id else 0) (r == 0 && sdie) i
  let cs := engines.flatMap fun e =>
    if (s.str e).chain then s.cairn e (lineStop (s.str e)) else List.replicate 256 0
  row 0 256 ++ cs ++ List.replicate 256 0 ++ frameRows.flatMap fun r => row r.1 r.2.2

/-- The block in focus goes into a frame, and its core is freed. A live nest keeps its leave, which is of the island that granted it
(R329). -/
def State.save (s : State) (n : Nat) : State :=
  let need := s.blk.needsS
  let s := s.toRest
  let bs := s.frameBytes need
  let b := s.blk
  let p := b.part
  let frame := s.frameAt p n
  let size := sliceSize b.die.val
  let s := s.putPhys p frame bs
  let s := (s.copySlice s.hub.keys[Fin.ofNat 32 p] b.scratch.toNat b.slice size (frame + 2 ^ 22) size).keyUnits p (frame + 2 ^ 22) (2 ^ 22)
  let v : Saved := { part := p, frame := n, sdie := need, block := b.toSave }
  { s with saved := s.saved ++ [v] }.removeBlock b.uid

/-- The placed blocks of a block's component, which are checkpointed or killed together (R29). -/
def State.matesOf (s : State) (b : Block) : List Block :=
  match s.taskAt b.task with
  | some t => s.mates t b.bidx.toNat
  | none => [b]

/-- What a checkpoint that cannot be made becomes: a kill of the block's component, or a drain on the die of each of its blocks, which
run on (R293). -/
def State.ckptFails (s : State) (b : Block) : State :=
  match s.taskAt b.task with
  | none => s
  | some t =>
    let ms := s.mates t b.bidx.toNat
    if t.pkt.kill then (ms.map fun y => y.uid).foldl State.discardBlock s
    else
      let s := ms.foldl (fun s y => s.modBlock y.uid fun b => b.leaveCkpt .none) s
      (ms.map fun y => y.die.val).eraseDups.foldl (fun s d => match s.newcomer d with
        | some n => s.drain t.key d n.key
        | none => s) s

/-- Whether a checkpoint of a block may go on: its context runs and has no change pending (R256). -/
def State.mayCkpt (s : State) (b : Block) : Bool := (s.ctxAt b.ctx).st == 0 && !(s.ctxAt b.ctx).changing

/-- Whether a checkpoint of a block is asked for. -/
def Block.asked (b : Block) : Bool :=
  match b.ckpt with
  | .asked _ => true
  | _ => false

/-- Whether a block stands as its checkpoint asks. -/
def State.standsFor (s : State) (b : Block) : Bool := b.asked && (s.focus b.uid).gatheredAll

/-- Blocks go into frames, one each. -/
def State.saveAll (s : State) (l : List (Nat × Nat)) : State := l.foldl (fun s x => (s.focus x.1).save x.2) s

/-- CHECKPOINT_SAVE (R29, R293): every block of a component has come to stand, and they are saved in the lowest free frames; where there
are too few, the checkpoint fails. -/
def execCheckpointSave (u : Nat) (s : State) : Host.Outcome State Fault Refusal :=
  match s.blockAt u with
  | none => .next s
  | some b =>
    let ms := s.matesOf b
    let fs := s.freeFrames b.part
    if !b.asked || !s.mayCkpt b || !ms.all s.standsFor then .next s
    else if fs.length < ms.length then .next (s.ckptFails b)
    else .next (s.saveAll ((ms.map fun m => m.uid).zip fs))

/-- 100 µs. -/
def ckptLimit : Nat := 100000 * nsUnits

/-- CHECKPOINT_TIMEOUT (R293): a block has not come to stand 100 µs after the request, or another of its component has not. -/
def execCheckpointTimeout (u : Nat) (s : State) : Host.Outcome State Fault Refusal :=
  match s.blockAt u with
  | none => .next s
  | some b =>
    match b.ckpt with
    | .asked since =>
      if s.mayCkpt b && since + ckptLimit ≤ s.time && !(s.matesOf b).all s.standsFor then .next (s.ckptFails b) else .next s
    | _ => .next s

/-! ## Ferry (R295 to R299) -/

/-- Whether an engine needs an S-die. -/
def Eng.onS : Eng → Bool
  | .d => true
  | .g => true
  | _ => false

/-- Slice size of a class of die. -/
def classSlice (sdie : Bool) : Nat := if sdie then sliceSize 4 else sliceSize 0

/-- The dies of a block's FERRY mask that have a class. -/
def State.ferryDies (s : State) (b : Block) (sdie : Bool) : List Nat :=
  ((maskDies (s.hub.partdies[Fin.ofNat 32 b.part]) b.ferryMask).getD []).filter fun d => (4 ≤ d) == sdie

/-- Trap 0x09 with its reason. -/
def ferryTrap (reason : Nat) : TrapInfo := { cause := 9, faddr := 0, aux := BitVec.ofNat 64 reason, sub := 0, pc := none }

/-- FERRY_TRIGGER (R295, R299): a strand of an engine that its core lacks is about to enter a line; the block gathers, or
trap 0x09 says that no die could serve. -/
def execFerryTrigger (u : Nat) (e : Eng) (s : State) : Host.Outcome State Fault Refusal :=
  match s.blockAt u with
  | none => .next s
  | some _ =>
    let t := s.focus u
    let b := t.blk
    let st := t.str e
    if !t.live e || st.edge.isSome || !st.mustFetch || hasEng b.die e || !b.mayFetch e st.pc then .next s
    else if (t.ferryDies b (Eng.onS e)).isEmpty then .next (t.raise e (ferryTrap 1))
    else if classSlice (Eng.onS e) < (b.scratch.toNat + 80) * 1024 then .next (t.raise e (ferryTrap 2))
    else
      let b := b.modStr e fun x => { x with wait := .ferry }
      .next { t with blk := match b.ferry with
        | .none => { b with ferry := .gather e }
        | .gather _ => b }

/-- Whether an engine has state that a move must not lose. -/
def Block.clings (b : Block) (e : Eng) : Bool :=
  let st := b.str e
  let unstarted := st.line.isNone && st.pc == st.entry
  (st.unfinished && !unstarted) || (Eng.queued e && (!(b.eng e).queue.isEmpty || !(b.eng e).prog.isEmpty)) ||
    b.holders.any fun h => match h with
      | .m => e == .m
      | .d => e == .d
      | .v => false

/-- Whether every ring and stream buffer of the block's slice lies in a copied part. -/
def Block.copies (b : Block) : Bool :=
  let n := sliceSize b.die.val
  (b.rings.all fun r => r.cap == 0 || r.base.toNat < scratchWin || scratchWin + 10 * 2 ^ 28 ≤ r.base.toNat ||
    inCopied b.scratch.toNat n (r.base.toNat % 2 ^ 22) (r.cap.toNat * r.slot.toNat)) &&
    b.streams.all fun x => inCopied b.scratch.toNat n (64 * x.base) (320 * x.cap)

/-- Links round the package ring between two dies. -/
def ringDist (a b : Nat) : Nat := min ((a + 8 - b) % 8) ((b + 8 - a) % 8)

/-- The dies of a FERRY mask in the order of R297: the partner over the bridge, then the nearest on the ring, the lower
number on a tie. -/
def ferryOrder (d : Nat) (l : List Nat) : List Nat :=
  let p := (d + 4) % 8
  (l.filter fun x => x == p) ++
    (l.filter fun x => x != p).mergeSort fun x y => ringDist d x < ringDist d y || (ringDist d x == ringDist d y && x ≤ y)

/-- The seat of a move. -/
def State.ferrySeat (s : State) (b : Block) (sdie : Bool) : Option Seat :=
  let w := s.hub.partdies[Fin.ofNat 32 b.part]
  (ferryOrder b.die.val (s.ferryDies b sdie)).findSome? fun d =>
    match (partCores w d).find? fun c => s.coreFree d c with
    | none => none
    | some c =>
      if b.slotFlag && d < 4 then (s.freeSlot d []).map fun n => { idx := b.bidx.toNat, die := d, core := c, slot := some n }
      else some { idx := b.bidx.toNat, die := d, core := c, slot := none }

/-- A strand after a move. -/
def Strand.moved (st : Strand) : Strand :=
  match st.wait with
  | .ferry => { st with wait := .run }
  | .gathered => { st with wait := .run }
  | .leave _ => { st with wait := .run }
  | _ => st

/-- The block in focus moves to a seat: its state and the copied parts of its slice, its tables loaded again (R298). A live nest keeps
its leave, which is of the island that granted it (R329). -/
def State.ferryTo (s : State) (y : Seat) : State :=
  let s := s.dropRound
  let b := s.blk
  let u := b.uid
  let d := Fin.ofNat 8 y.die
  let w := s.hub.partdies[Fin.ofNat 32 b.part]
  let s := s.dropAsks u
  let k := Fin.ofNat 320 (40 * b.die.val + b.core)
  let s := { s with cores := s.cores.set k { s.cores[k] with ferry := sat16 (s.cores[k]).ferry 1 } }
  let s := s.copySlice s.hub.keys[Fin.ofNat 32 b.part] b.scratch.toNat b.slice (sliceSize b.die.val) (scratchBase y.die y.core) (sliceSize y.die)
  let c := (b.dropTiles d s.free).moveTo w d y.core
  let c : Block :=
    { c with
      slot := y.slot, ferry := .none, started := false, stood := false, tables := .run, idle := s.time,
      strands := c.strands.map Strand.moved }
  ({ s with blk := c, free := s.free + tileDraws }.useCore y.die y.core).startBlock

/-- The gathering of the block in focus ends in trap 0x09. -/
def State.ferryFails (s : State) (e : Eng) (reason : Nat) : State :=
  { s with blk := { s.blk with ferry := .none, stood := false } }.raise e (ferryTrap reason)

/-- FERRY_MOVE (R296 to R299): the block has gathered; it moves to a free core of the class it needs, or traps. -/
def execFerryMove (u : Nat) (s : State) : Host.Outcome State Fault Refusal :=
  match s.blockAt u with
  | none => .next s
  | some b0 =>
    match b0.ferry with
    | .gather e =>
      let t := s.focus u
      if t.cx.st ≠ 0 || b0.asked || !t.gatheredAll then .next s
      else
        let lacks := if Eng.onS e then [Eng.m] else [Eng.d, .g]
        if lacks.any t.blk.clings then .next (t.ferryFails e 3)
        else if !t.blk.copies then .next (t.ferryFails e 4)
        else
          match t.ferrySeat t.blk (Eng.onS e) with
          | some y => .next (t.ferryTo y)
          | none => .next s
    | .none => .next s

end Sys2Proof.Machine
end

