-- ==== Sys2Proof/Machine/Maint.lean ====
section
/-! DEFINITION. The memory channels' own work and failures (R304 to R309, R327, R328): maintenance slots, refresh, row
counters, alerts, replays, TLB invalidation, and scratch banks. -/

namespace Sys2Proof.Machine

/-! ## Banks (R305 to R307) -/

/-- The work of a bank, none so far where it is not listed. -/
def Die.bankAt (x : Die) (tract bank : Nat) : BankSt :=
  (x.banks.find? fun b => b.tract == tract && b.bank == bank).getD
    { tract := tract, bank := bank, owed := 0, due := none, alerts := [], back := false }

/-- Keep the work of a bank; a new bank stands behind the listed ones. -/
def Die.putBank (x : Die) (b : BankSt) : Die :=
  if x.banks.any fun y => y.tract == b.tract && y.bank == b.bank then
    { x with banks := x.banks.map fun y => if y.tract = b.tract ∧ y.bank = b.bank then b else y }
  else { x with banks := x.banks ++ [b] }

/-- A row's counter as the controller knows it. -/
def Die.putRow (x : Die) (r : RowCtr) : Die :=
  { x with rows := r :: x.rows.filter fun y => !(y.tract == r.tract && y.bank == r.bank && y.row == r.row) }

/-- Whether a bank has an alert to be answered in rotation `rn`: one of an earlier rotation (R307). -/
def BankSt.alertDue (rn : Nat) (b : BankSt) : Bool := b.alerts.any fun r => r < rn

/-- One refresh-class operation on a tract in rotation `rn`, the first of the highest priority that has work: owed refreshes under
back-off, refresh management, due refreshes, targeted refreshes, which reset their row's counter (R305, R306). -/
def Die.serve (rn : Nat) (x : Die) (tract : Nat) : Option Die :=
  let l := x.banks.filter fun b => b.tract == tract
  match l.find? fun b => b.back && b.owed != 0 with
  | some b => some (x.putBank { b with owed := b.owed - 1, back := b.owed != 1 })
  | none =>
    match l.find? (BankSt.alertDue rn) with
    | some b => some (x.putBank { b with alerts := dropFirst (fun r => decide (r < rn)) b.alerts })
    | none =>
      match l.find? fun b => b.due.isSome || b.owed != 0 with
      | some b => some (x.putBank (if b.owed = 0 then { b with due := none } else { b with owed := b.owed - 1 }))
      | none =>
        match x.tq.find? fun y => y.1 == tract with
        | some y => some ({ x with tq := dropFirst (fun z => z.1 == tract) x.tq }.putRow
            { tract := y.1, bank := y.2.1, row := y.2.2, count := 0, good := true })
        | none => none

/-- Operations of priorities 1 and 2 that wait on a tract in rotation `rn`. -/
def Die.urgent (rn : Nat) (x : Die) (tract : Nat) : Nat :=
  ((x.banks.filter fun b => b.tract == tract).map fun b =>
    (if b.back then b.owed else 0) + (b.alerts.filter fun r => r < rn).length).sum

/-- Serve up to `n` operations on a tract. -/
def Die.serveN (rn tract : Nat) : Nat → Die → Die
  | 0, x => x
  | n + 1, x => Die.serveN rn tract n ((x.serve rn tract).getD x)

/-- Tracts and maintenance slots of a die (R305), and the scrub slots of a rotation. -/
def tractsOf (d : Nat) : Nat := if d < 4 then 4 else 3
def maintSlots (d : Nat) : Nat := if d < 4 then 8 else 16
def scrubSlots (d : Nat) : Nat := if d < 4 then 2 else 4

/-- The core slots of a die, the highest first (R169). -/
def coreSlots (d : Nat) : List Nat :=
  if d < 4 then (List.range 56).reverse else ((List.range 128).filter fun s => s % 32 < 24).reverse

/-! ## Slips (R172) -/

/-- Whether an `ldt` has its slot still before it, or is inside it, at a time: none of its vectors has landed. -/
def Cmd.slotHit (b : Block) (hit : Nat → Nat → Bool) (c : Cmd) : Bool :=
  match c.op with
  | .ldt x =>
    !c.stuck && c.prog == 0 &&
      (match b.slotNo x.o3.val with
      | some n => hit n (b.ldtSlot c x.o3.val)
      | none => false)
  | _ => false

/-- The `ldt`s of a block whose slot is hit slip one rotation. -/
def Block.slipHit (hit : Nat → Nat → Bool) (b : Block) : Block :=
  let f := fun c : Cmd => if c.slotHit b hit then
    (match c.op with
    | .ldt x => { c with slotAt := b.ldtSlot c x.o3.val }.slipRotation b.die.val
    | _ => c) else c
  b.modEng .a fun q => { q with queue := q.queue.map f, prog := q.prog.map f }

/-- How many of a block's `ldt`s are hit. -/
def Block.hits (hit : Nat → Nat → Bool) (b : Block) : Nat :=
  ((b.eng .a).queue.filter (Cmd.slotHit b hit)).length + ((b.eng .a).prog.filter (Cmd.slotHit b hit)).length

/-- The slips of a die's `ldt`s whose slot, by number and start, is hit; each counts at its core. -/
def State.slipDie (s : State) (d : Fin 8) (hit : Nat → Nat → Bool) : State :=
  let on := fun b : Block => b.placed && b.die == d
  let s := (s.blocks.filter on).foldl (fun s b =>
    let k := Fin.ofNat 320 (40 * d.val + b.core)
    { s with cores := s.cores.set k { s.cores[k] with slips := sat16 (s.cores[k]).slips (b.hits hit) } }) s
  s.mapBlocks fun b => if on b then b.slipHit hit else b

def State.modTract (s : State) (d : Fin 8) (t : Nat) (f : TractTel → TractTel) : State :=
  let k := Fin.ofNat 32 (4 * d.val + t)
  { s with tracts := s.tracts.set k (f (s.tracts[k])) }

/-- Core slots of a tract taken in the rotation that starts at `r0` (R305, R307): their `ldt`s slip, those issued later too, and each slot
counts. -/
def State.takeSlots (s : State) (d : Fin 8) (t : Nat) (slots : List Nat) (r0 : Nat) : State :=
  let s := s.slipDie d fun n a => slots.contains n && r0 ≤ a && a < r0 + rotation d.val
  let s := s.modDie d fun x =>
    { x with taken := slots.map (fun n => (n, r0)) ++ x.taken.filter fun y => s.time < y.2 + 2 * rotation d.val }
  s.modTract d t fun x => { x with abslip := sat16 x.abslip slots.length }

/-- The number of the rotation under way. -/
def State.rotationNo (s : State) (d : Fin 8) : Nat := s.time / rotation d.val

/-! ## Postponed refreshes (R305) -/

/-- A bank's due refresh found no slot by the end of its rotation: it is owed, or where 8 are owed it takes a core slot of its tract in
the next rotation, which one the spec does not say (log 34). -/
def State.postpone (s : State) (d : Fin 8) (b : BankSt) (r : Nat) : State :=
  if b.owed < 8 then s.modDie d fun x => x.putBank { b with owed := b.owed + 1, due := none }
  else
    let l := coreSlots d.val
    let k := l[(Config.freeWord (2 * s.free)).toNat % l.length]?.getD 0
    { s with free := s.free + 1 }.modDie d (fun x => x.putBank { b with due := none })
      |>.takeSlots d b.tract [k] (max (r + 1) (s.rotationNo d) * rotation d.val)

/-- Refreshes due in rotations that are over are postponed. -/
def State.rollBanks (s : State) (d : Fin 8) : State :=
  (s.dies[d]).banks.foldl (fun s b => match b.due with
    | some r => if r < s.rotationNo d then s.postpone d b r else s
    | none => s) s

/-! ## Maintenance slots (R305, R307) -/

/-- The operations of priorities 1 and 2 of a tract that a rotation's maintenance slots cannot hold take core slots of the
same rotation, from the highest downward. -/
def State.overflowTract (s : State) (d : Fin 8) (t : Nat) : State :=
  let rn := s.rotationNo d
  let n := (s.dies[d]).urgent rn t - maintSlots d.val
  if n = 0 then s
  else
    let sl := (coreSlots d.val).take n
    (s.takeSlots d t sl (rn * rotation d.val)).modDie d (Die.serveN rn t sl.length)

/-- A scrub whose next group a die's maintenance slot can serve: its block and command. -/
def State.scrubOn (s : State) (d : Fin 8) : Option (Nat × Cmd) :=
  (s.blocks.filterMap fun b =>
    let t := s.focus b.uid
    if b.placed && t.engLive .a then
      ((b.eng .a).prog.find? fun c => !c.stuck && c.served && c.prog < c.reg 1 && (match c.op, scrubDie c t with
        | .scrub _, .ok (h, _) => h == d.val
        | _, _ => false)).map fun c => (b.uid, c)
    else none).head?

/-- MAINTENANCE_SLOT (R305): maintenance slot `slot` of a die's rotation. Every tract with work at priorities 1 to 4 has one
operation served; with none on any tract, the slot may serve one scrub group. -/
def execMaintenanceSlot (die : Fin 8) (slot : Nat) (s : State) : Host.Outcome State Fault Refusal :=
  let d := die.val
  if maintSlots d ≤ slot then .next s
  else
    let s := s.rollBanks die
    let rn := s.rotationNo die
    let s := if slot = 0 then (List.range (tractsOf d)).foldl (fun s t => s.overflowTract die t)
      (s.modDie die fun x => { x with scrubs := 0 }) else s
    let work := (List.range (tractsOf d)).any fun t => ((s.dies[die]).serve rn t).isSome
    if work then
      .next (s.modDie die fun x => (List.range (tractsOf d)).foldl (fun x t => (x.serve rn t).getD x) x)
    else if scrubSlots d ≤ (s.dies[die]).scrubs then .next s
    else
      match s.scrubOn die with
      | none => .next s
      | some (u, c) =>
        let t := (s.modDie die fun x => { x with scrubs := x.scrubs + 1 }).focus u
        t.cmdAct .a c (scrubGroup c)

/-- REFRESH_DUE (R305): a bank's refresh is due in this rotation; another that is still due in it is postponed. -/
def execRefreshDue (die : Fin 8) (tract : Fin 4) (bank : Nat) (s : State) : Host.Outcome State Fault Refusal :=
  if tractsOf die.val ≤ tract.val then .next s
  else
    let s := s.rollBanks die
    let rn := s.rotationNo die
    let b := (s.dies[die]).bankAt tract.val bank
    let t := if b.due.isSome then s.postpone die b rn else s
    .next (t.modDie die fun x => x.putBank { x.bankAt tract.val bank with due := some rn })

/-- An alert of a bank in rotation `rn` (R307): with 8 refreshes owed, these come first. -/
def BankSt.alerted (rn : Nat) (b : BankSt) : BankSt := { b with alerts := b.alerts ++ [rn], back := b.back || b.owed == 8 }

/-- A row's counter as it stood when it was last read or reset. -/
def Die.rowAt (x : Die) (tract bank row : Nat) : RowCtr :=
  (x.rows.find? fun y => y.tract == tract && y.bank == bank && y.row == row).getD
    { tract := tract, bank := bank, row := row, count := 0, good := true }

/-- ACTIVATION_ALERT (R306, R307): the DRAM's alert, or a precharge at which the controller reads a row's counter; which of
them, and what the counter says, is free, though it never falls and stays failed until a targeted refresh resets it (log 34). A
counter whose check bits fail is logged. An over-threshold row enters its bank's queue of four, or counts as an alert. -/
def execActivationAlert (die : Fin 8) (tract : Fin 4) (bank : Nat) (s : State) : Host.Outcome State Fault Refusal :=
  if tractsOf die.val ≤ tract.val then .next s
  else
    let s := s.rollBanks die
    let rn := s.rotationNo die
    let k := s.free
    let t := { s with free := k + 1 }
    let b := (s.dies[die]).bankAt tract.val bank
    if Config.freeBool (2 * k) then .next (t.modDie die fun x => x.putBank (b.alerted rn))
    else
      let row := (Config.freeWord (2 * k)).toNat
      let was := (s.dies[die]).rowAt tract.val bank row
      let n := max was.count ((Config.freeWord (2 * k + 1)).toNat % 65536)
      let good := was.good && Config.freeBool (2 * k + 1)
      let x := (s.dies[die]).putRow { tract := tract.val, bank := bank, row := row, count := n, good := good }
      let x := if good then x else { x with rowlog := x.rowlog ++ [(tract.val, bank, row)] }
      let high := !good || n == 65535 || x.actth.toNat ≤ n
      let full := 4 ≤ (x.tq.filter fun y => y.1 == tract.val && y.2.1 == bank).length
      let x := if !high then x
        else if full then x.putBank (b.alerted rn)
        else { x with tq := x.tq ++ [(tract.val, bank, row)] }
      .next (t.modDie die fun _ => x)

/-! ## Replays (R308) -/

/-- CA_PARITY_ERROR (R308): a command or address parity error, and whether the replay that answers it succeeds. The `ldt`s
whose slot is under way slip; after four replays in a row without success the tract is fenced. -/
def execCaParityError (die : Fin 8) (tract : Fin 4) (ok : Bool) (s : State) : Host.Outcome State Fault Refusal :=
  let d := die.val
  if tractsOf d ≤ tract.val then .next s
  else
    let now := s.time
    let t := (s.slipDie die fun _ a => a ≤ now && now < a + slotLen d).modTract die tract.val fun x =>
      { x with replay := min 32767 (x.replay + 1) }
    let n := if ok then 0 else (s.dies[die]).replays[tract] + 1
    let shut := n == 4 && !(t.tracts[Fin.ofNat 32 (4 * d + tract.val)]).fenced
    let t := t.modDie die fun x => { x with replays := x.replays.set tract (if n = 4 then 0 else n) }
    .next (if shut then (t.modTract die tract.val fun x => { x with fenced := true }).fenceEvent die else t)

/-! ## Scratch banks (R328) -/

/-- Cores of a die. -/
def coresOf (d : Nat) : Nat := if d < 4 then 40 else 24

def State.modCore (s : State) (d : Fin 8) (c : Nat) (f : CoreTel → CoreTel) : State :=
  let k := Fin.ofNat 320 (40 * d.val + c)
  { s with cores := s.cores.set k (f (s.cores[k])) }

/-- SCRATCH_BANK_FAIL (R327, R328): a first failed bank is rebuilt into the spare; with a second one, the spare that has replaced the
first included, the slice is fenced. -/
def execScratchBankFail (die : Fin 8) (core : Nat) (bank : Nat) (s : State) : Host.Outcome State Fault Refusal :=
  let x := s.cores[Fin.ofNat 320 (40 * die.val + core)]
  if coresOf die.val ≤ core || 18 ≤ bank || (x.rebuilding && x.failed.contains bank) then .next s
  else if x.failed.isEmpty then .next (s.modCore die core fun x => { x with failed := [bank], rebuilding := true })
  else
    let t := s.modCore die core fun x => { x with failed := bank :: x.failed, fenced := true }
    .next (if x.fenced then t else t.fenceEvent die)

/-- BANK_REBUILD_DONE (R328): the spare replaces the failed bank. -/
def execBankRebuildDone (die : Fin 8) (core : Nat) (s : State) : Host.Outcome State Fault Refusal :=
  if coresOf die.val ≤ core || !(s.cores[Fin.ofNat 320 (40 * die.val + core)]).rebuilding then .next s
  else .next (s.modCore die core fun x => { x with rebuilding := false, rebuilds := min 255 (x.rebuilds + 1) })

/-! ## TLB invalidation (R304) -/

/-- Whether a cached leaf lies in a context and meets a range of `num` units of 4 KiB from `va`; 0 is the whole context. -/
def TlbEnt.inRange (cx va num : Nat) (t : TlbEnt) : Bool :=
  t.ctx == cx && (num == 0 || (t.va < va + 4096 * num && va < t.va + 2 ^ t.log2))

/-- No TLB holds the range of a function's invalidation. -/
def State.tlbDrop (s : State) (f : Fin 64) : State :=
  let v := s.vfs[f]
  { s with dies := s.dies.map fun (d : Die) => { d with
      tlb := d.tlb.filter fun t => !t.inRange (16 * f.val + v.tlbctx.val) v.tlbva.toNat v.tlbnum.toNat } }

/-- The fields of a TLBINV value. -/
def Vf.tlbFields (v : Vf) (val : Dword) : Vf :=
  { v with tlbctx := Fin.ofNat 16 (val.toNat / 2 ^ 59), tlbva := BitVec.ofNat 64 (val.toNat % 2 ^ 57 / 2 ^ 12 * 2 ^ 12),
           tlbnum := BitVec.ofNat 12 (val.toNat % 2 ^ 12) }

/-- TLBINV_GO (R304): a write with GO set starts an invalidation, behind one that is still under way. -/
def execTlbinvGo (f : Fin 64) (val : Dword) (s : State) : Host.Outcome State Fault Refusal :=
  if s.vfFenced f.val then .next s else
  let s := if (s.vfs[f]).tlbgo then s.tlbDrop f else s
  .next (s.modVf f.val fun v => { v.tlbFields val with tlbgo := true })

/-- TLBINV_DONE (R304): no die's TLB holds a leaf that meets the range, and GO reads 0. Walks are single acts, so none is
under way. -/
def execTlbinvDone (f : Fin 64) (s : State) : Host.Outcome State Fault Refusal :=
  if (s.vfs[f]).tlbgo then .next ((s.tlbDrop f).modVf f.val fun v => { v with tlbgo := false }) else .next s

end Sys2Proof.Machine
end

