-- ==== Sys2Proof/Machine/Sump.lean ====
section
/-! DEFINITION. The Sump (R312, R313): how a die lists pages, the firmware's answers, deadlines, and the fate of a page. -/

namespace Sys2Proof.Machine

/-- The pool entry of a region of a context in its current phase. -/
def State.poolAt (s : State) (cx rgn : Nat) : Option MapEntry :=
  let c := s.ctxAt cx
  match (c.entries c.phase.val)[rgn]? with
  | some e => if e.kind = 2 then some e else none
  | none => none

/-- The pools whose home is a die: context, region and entry. -/
def State.poolsOf (s : State) (d : Fin 8) : List (Nat × Nat × MapEntry) :=
  (s.ctxs.toList.zipIdx.filter fun x => x.1.valid).flatMap fun x =>
    ((x.1.entries x.1.phase.val).zipIdx.filter fun y =>
      y.1.kind == 2 && y.1.st == 1 && physKind y.1.frame0 == .dram d.val).map fun y => (x.2, y.2, y.1)

/-- A page that may be listed: stamp, region, page and context. -/
abbrev Candidate := Nat × Nat × Nat × Nat

/-- The order in which candidates are taken: stamp, region, page, context. -/
def candLt (x y : Candidate) : Bool :=
  decide (x.1 < y.1) || (x.1 == y.1 && (decide (x.2.1 < y.2.1) || (x.2.1 == y.2.1 && (decide (x.2.2.1 < y.2.2.1) ||
    (x.2.2.1 == y.2.2.1 && decide (x.2.2.2 < y.2.2.2))))))

/-- The candidates of a pool: resident pages in use, neither being restored nor listed, and not vetoed at this stamp. -/
def State.sumpCandidates (s : State) (d : Fin 8) (cx rgn : Nat) (e : MapEntry) : List Candidate :=
  ((List.range e.npages).filter fun p =>
    e.metaPages ≤ p && s.pageTier e p == 0 && s.pageRef e p != 0 && !s.pageRst e p && !s.pageSump e p &&
      !(s.dies[d]).vetoed.contains (cx, rgn, p, BitVec.ofNat 32 (s.pageStamp e p))).map fun p => (s.pageStamp e p, rgn, p, cx)

/-- Insert a candidate in order. -/
def candInsert (x : Candidate) : List Candidate → List Candidate
  | [] => [x]
  | y :: r => if candLt x y then x :: y :: r else y :: candInsert x r

/-- Candidates in the order in which they are taken. -/
def candSort (l : List Candidate) : List Candidate := l.foldl (fun r x => candInsert x r) []

/-- One page listed at the queue's end. -/
def State.listPage (s : State) (d : Fin 8) (c : Candidate) : State :=
  match s.poolAt c.2.2.2 c.2.1 with
  | none => s
  | some e =>
    let p := c.2.2.1
    let s := (s.setMeta (e.pageWord p 3) (pageWord3 (s.pageFrame e p) false true 0)).remarkMeta c.2.2.2 c.2.1 e
    s.modDie d fun x => { x with sump := x.sump ++ [{ ctx := c.2.2.2, rgn := c.2.1, page := p, cf := false,
                                                      expiry := s.time + x.sumpdl.toNat * 1000 * nsUnits }] }

/-- SUMP_FILL (R312): while some pool's FREEN is below its WMARK, the die fills the free entries with candidates of its pools, and the
hub controller is interrupted. -/
def execSumpFill (die : Fin 8) (s : State) : Host.Outcome State Fault Refusal :=
  let pools := s.poolsOf die
  let low := pools.any fun x => s.freeN x.2.2 < x.2.2.wmark
  let room := 16 - (s.dies[die]).sump.length
  let l := (candSort (pools.flatMap fun x => s.sumpCandidates die x.1 x.2.1 x.2.2)).take room
  if !low || l.isEmpty then .next s
  else .next ((l.foldl (fun s c => s.listPage die c) s).modDie die fun x => { x with sumpIrq := true })

/-- Change the entry at a queue position. -/
def Die.modSump (x : Die) (pos : Nat) (f : SumpEnt → SumpEnt) : Die :=
  { x with sump := x.sump.zipIdx.map fun y => if y.2 = pos then f y.1 else y.1 }

/-- SUMP_DEADLINE (R312): an entry whose counter has reached 0 is confirmed. -/
def execSumpDeadline (die : Fin 8) (pos : Fin 16) (s : State) : Host.Outcome State Fault Refusal :=
  match (s.dies[die]).sump[pos.val]? with
  | some e => if e.expiry ≤ s.time then .next (s.modDie die fun x => x.modSump pos.val fun e => { e with cf := true }) else .next s
  | none => .next s

/-- Any write to SUMPCMD clears the interrupt. -/
def State.sumpAnswer (s : State) (d : Fin 8) : State := s.modDie d fun x => { x with sumpIrq := false }

/-- SUMPCMD_CONFIRM (R312). -/
def execSumpcmdConfirm (die : Fin 8) (pos : Fin 16) (s : State) : Host.Outcome State Fault Refusal :=
  .next ((s.sumpAnswer die).modDie die fun x => x.modSump pos.val fun e => { e with cf := true })

/-- SUMPCMD_VETO (R312): the entry is removed, and its page is not listed again until its stamp changes. -/
def execSumpcmdVeto (die : Fin 8) (pos : Fin 16) (s : State) : Host.Outcome State Fault Refusal :=
  let t := s.sumpAnswer die
  match (t.dies[die]).sump[pos.val]? with
  | none => .next t
  | some y =>
    let t := t.modDie die fun x => { x with sump := x.sump.eraseIdx pos.val }
    match t.poolAt y.ctx y.rgn with
    | none => .next t
    | some e =>
      let k := (y.ctx, y.rgn, y.page, BitVec.ofNat 32 (t.pageStamp e y.page))
      .next (((t.setMeta (e.pageWord y.page 3) (clearSump (t.pageW3 e y.page))).remarkMeta y.ctx y.rgn e).modDie die fun x =>
        { x with vetoed := k :: x.vetoed.filter fun v => !(v.1 == y.ctx && v.2.1 == y.rgn && v.2.2.1 == y.page) })

/-- SUMPCMD_MOVE_HEAD (R312). -/
def execSumpcmdMoveHead (die : Fin 8) (pos : Fin 16) (s : State) : Host.Outcome State Fault Refusal :=
  let t := s.sumpAnswer die
  match (t.dies[die]).sump[pos.val]? with
  | none => .next t
  | some y => .next (t.modDie die fun x => { x with sump := y :: x.sump.eraseIdx pos.val })

/-! ## The fate of a page (R313) -/

/-- The tier region that receives a pool's offloads. -/
def State.tierOf (s : State) (cx : Nat) (e : MapEntry) : Option MapEntry :=
  let c := s.ctxAt cx
  if e.tierReg = 0xFFFF then none else (c.entries c.phase.val)[e.tierReg]?

/-- Whether a page is dropped: no tier region, cheaper to recompute, or no way to its tier slot. -/
def State.dropsPage (s : State) (d : Fin 8) (cx : Nat) (e : MapEntry) (p : Nat) : Bool :=
  let tok := s.pageTok e p % 65536
  (tok != 0xFFFF && e.recc * 10 * tok < e.offc * 1000) ||
    (match s.tierOf cx e with
    | none => true
    | some t => !pathOpen s.links d.val (t.phys (65536 * p)))

/-- SUMP_EXECUTE (R313): the mover executes the confirmed entry nearest the head: the page is dropped, or its frame is copied
to its tier slot; then the frame is free. A fault of the copy drops the page, with a type-3 event. -/
def execSumpExecute (die : Fin 8) (s : State) : Host.Outcome State Fault Refusal :=
  match (s.dies[die]).sump.zipIdx.find? fun x => x.1.cf with
  | none => .next s
  | some (y, pos) =>
    let t := s.modDie die fun x => { x with sump := x.sump.eraseIdx pos }
    match t.poolAt y.ctx y.rgn with
    | none => .next t
    | some e =>
      let frame := t.pageFrame e y.page
      let fate := fun (t : State) (n : Nat) => t.setMeta (e.pageWord y.page 3) (pageWord3 0 false false n)
      let free := fun (t : State) => (t.freeFrame e frame).remarkMeta y.ctx y.rgn e
      if t.dropsPage die y.ctx e y.page then .next (free (fate t 2))
      else
        let dst := ((t.tierOf y.ctx e).map fun z => z.phys (65536 * y.page)).getD 0
        let va := ((t.tierOf y.ctx e).map fun z => z.base.toNat + 65536 * y.page).getD 0
        let t := fate t 1
        match asAgent die y.ctx (t.ctxPart y.ctx) (do
          moveGranule { region := y.rgn, granule := y.page, src := some (e.frame0 + 65536 * frame), dst := dst, late := false }
          modS fun s => s.remark va dst) t with
        | .ok (_, w) => .next (free w)
        | .error (.fault x) => .fault x
        | .error (.trap i) =>
          let w := (fate t 2).dieEvent die (t.mkEvent y.ctx 3 i.cause die 0 (e.base + BitVec.ofNat 64 (65536 * y.page)) 0)
          .next (free w)
        | .error _ => .next s

end Sys2Proof.Machine
end

