-- ==== Sys2Proof/Machine/Hub.lean ====
section
/-! DEFINITION. The hub's acts (R306, R312, R317 to R330): registers without a behaviour of their own, partitions and keys,
TDISP, debug policies, the SPDM responders, fences, telemetry, governors and module reset. -/

namespace Sys2Proof.Machine

/-! ## Registers (R5, R266, R284, R287, R293, R301, R304, R306, R312, R325, R327, R332) -/

/-- A value with its lowest `n` bits zero. -/
def highBits (n : Nat) (v : Dword) : Dword := BitVec.ofNat 64 (v.toNat / 2 ^ n * 2 ^ n)

/-- SEOVF as written: BASE, and SIZE at most 8 (R332). -/
def seovfOf (v : Dword) : Dword := BitVec.ofNat 64 (v.toNat / 2 ^ 20 * 2 ^ 20 + min (v.toNat % 16) 8)

/-- Ring lengths as LQCFG and EVCFG store them. -/
def ringLog (n : Nat) : BitVec 5 := BitVec.ofNat 5 (if 4 ≤ n && n ≤ 16 then n else 16)

/-- A write into DBGLOAD: the bytes that lie in its 1060. -/
def debugPut (l : List Byte) (off : Nat) (val : Dword) : List Byte :=
  let l := l ++ List.replicate (1060 - l.length) 0
  (l.take off ++ leBytes 8 val.toNat ++ l.drop (off + 8)).take 1060

/-- A write to a context slot's registers of the block at 0x0800 (R287) or at 0x0A00 (R301). A write of V = 0 to CTXCFG stores ACCTRAP
and LATELIM while V is 0 (R275); the writes that create and destroy are events of their own. -/
def Ctx.regWrite (c : Ctx) (map : Bool) (off : Nat) (val : Dword) : Ctx :=
  if map then
    if off = 0 then { c with mapbase := highBits 7 val }
    else if off = 8 then
      (if val.getLsbD 31 || c.mapst == 1 then c
        else { c with mapn := BitVec.ofNat 10 (val.toNat / 16), mappm1 := Fin.ofNat 16 val.toNat })
    else if off = 24 then { c with ptroot := highBits 12 val }
    else c
  else if off = 8 then { c with arg := val }
  else if off = 24 then (if c.valid || val.getLsbD 63 then c else c.config val)
  else c

/-- A write to a launch queue's registers (R266). -/
def LaunchQ.regWrite (q : LaunchQ) (off : Nat) (val : Dword) : LaunchQ :=
  if off = 0 then { q with base := highBits 7 val }
  else if off = 8 then { q with cbase := highBits 4 val }
  else if off = 16 then
    { q with en := val.getLsbD 31, ctx := Fin.ofNat 16 (val.toNat / 32), log2n := ringLog (val.toNat % 32) }
  else q

/-- A register write in the window of function `f`. -/
def State.vfWrite (s : State) (f off : Nat) (val : Dword) : State :=
  if off = 0x600 then s.modVf f fun v => { v with evbase := highBits 5 val }
  else if off = 0x620 then s.modVf f fun v => { v with evlost := v.evlost && !val.getLsbD 63 }
  else if 0x800 ≤ off && off < 0xA00 then s.modCtx (16 * f + (off - 0x800) / 32) fun c => c.regWrite false (off % 32) val
  else if 0xA00 ≤ off && off < 0xC00 then s.modCtx (16 * f + (off - 0xA00) / 32) fun c => c.regWrite true (off % 32) val
  else if off = 0xC00 then
    (if val.getLsbD 63 || (s.vfs[Fin.ofNat 64 f]).tlbgo then s else s.modVf f fun v => v.tlbFields val)
  else if 0x1000 ≤ off && off < 0x1200 then s.modLq f ((off - 0x1000) / 64) fun q => q.regWrite (off % 64) val
  else if 0x1200 ≤ off && off < 0x1600 then s.modCtx (16 * f + (off - 0x1200) / 64) fun c =>
    if c.valid then c else { c with seovf := c.seovf.set (Fin.ofNat 8 (off % 64 / 8)) (seovfOf val) }
  else if 0x2000 ≤ off && off < 0x2424 then s.modVf f fun v => { v with dbgload := debugPut v.dbgload (off - 0x2000) val }
  else s

/-- A register write in the hub window. -/
def State.hubWrite (s : State) (off : Nat) (val : Dword) : State :=
  if 0x2600 ≤ off && off < 0x2700 then
    { s with hub := { s.hub with cairnbase := s.hub.cairnbase.set (Fin.ofNat 32 ((off - 0x2600) / 8)) (highBits 20 val) } }
  else if 0x2700 ≤ off && off < 0x2900 then
    (let p := Fin.ofNat 32 ((off - 0x2700) / 16)
     if off % 16 = 0 then { s with hub := { s.hub with savebase := s.hub.savebase.set p (highBits 23 val) } }
     else { s with hub := { s.hub with savecnt := s.hub.savecnt.set p (val.setWidth 16) } })
  else if 0x3000 ≤ off && off < 0x3040 then
    s.modDie (Fin.ofNat 8 ((off - 0x3000) / 8)) fun x => { x with actth := BitVec.ofNat 16 (max 256 (val.toNat % 65536)) }
  else if 0x3100 ≤ off && off < 0x3900 then
    (let d : Fin 8 := Fin.ofNat 8 ((off - 0x3100) / 256)
     if off % 256 = 0x80 then
       (if val.toNat % 16 = 1 || val.toNat % 16 = 2 || val.toNat % 16 = 3 then s else s.sumpAnswer d)
     else if off % 256 = 0x88 then
       s.modDie d fun x => { x with sumpdl := if val.toNat % 1024 = 0 then 50 else BitVec.ofNat 10 val.toNat }
     else s)
  else if off = 0x4F08 then
    (if val.getLsbD 63 then s
     else { s with hub := { s.hub with fenceIdx := BitVec.ofNat 9 (val.toNat / 2 ^ 32), fenceUnit := Fin.ofNat 16 val.toNat } })
  else s

/-- REGISTER_WRITE: a 64-bit write to a register that has no behaviour of its own. Offsets that are reserved, read-only or
that name no whole register ignore it; the writes that have an event of their own are those events. -/
def execRegisterWrite (w : Window) (off : Nat) (val : Dword) (s : State) : Host.Outcome State Fault Refusal :=
  if off % 8 ≠ 0 then .next s
  else
    match w with
    | .vf f => if s.vfFenced f.val then .next s else .next (s.vfWrite f.val off val)
    | .hub => .next (s.hubWrite off val)

/-! ## TDISP (R324) -/

/-- A function's TDI goes to ERROR from CONFIG_LOCKED or RUN: its contexts are stopped, and aborted once they stand. -/
def State.tdiError (s : State) (f : Fin 64) : State :=
  let t := (s.vfs[f]).tdi
  if t = .locked ∨ t = .run then
    (List.range 16).foldl (fun s k =>
      let cx := 16 * f.val + k
      if (s.ctxAt cx).valid then
        (s.modCtx cx fun c => if c.st = 0 then
          { c with st := 1, first := 0, change := c.change.filter fun h => !h.pending } else c).stopEnd cx
      else s) (s.modVf f.val fun v => { v with tdi := .error })
  else s

/-- BAR_WRITE. -/
def execBarWrite (f : Fin 64) (s : State) : Host.Outcome State Fault Refusal := .next (s.tdiError f)

/-- VFPART_WRITE (R319, R324). -/
def execVfpartWrite (f : Fin 64) (val : Dword) (s : State) : Host.Outcome State Fault Refusal :=
  let t := s.tdiError f
  .next { t with hub := { t.hub with vfpart := t.hub.vfpart.set f (val.setWidth 6) } }

/-- TDI_CONFIG_LOCK: from the unlocked state, with its IDE stream established and its VFPART valid. Whether the host has
established the stream since, the model draws (log 6). -/
def execTdiConfigLock (f : Fin 64) (s : State) : Host.Outcome State Fault Refusal :=
  let v := s.vfs[f]
  if v.tdi ≠ .unlocked then .next s
  else
    let ide := v.ide || Config.freeBool (2 * s.free)
    let t := { s with free := s.free + 1 }.modVf f.val fun v => { v with ide := ide }
    if ide && (s.vfPart f.val).isSome then .next (t.modVf f.val fun v => { v with tdi := .locked }) else .next t

/-- TDI_RUN. -/
def execTdiRun (f : Fin 64) (s : State) : Host.Outcome State Fault Refusal :=
  if (s.vfs[f]).tdi = .locked then .next (s.modVf f.val fun v => { v with tdi := .run }) else .next s

/-! ## Partitions (R317 to R322) -/

/-- The quads of a PARTDIES value: die and quad. -/
def quadList (w : Word) : List (Nat × Nat) := (List.range 8).flatMap fun d => (quadsOf w d).map fun q => (d, q)

/-- The bit of a quad. -/
def quadBit (x : Nat × Nat) : Nat := 2 ^ (4 * x.1 + x.2)

/-- Whether a partition still has a context with a placed block on a quad, or with a pending change. -/
def State.quadBusy (s : State) (p : Nat) (x : Nat × Nat) : Bool :=
  (s.blocks.any fun b => b.placed && b.part == p && b.die.val == x.1 && b.core / quadCores x.1 == x.2) ||
    (List.range 1024).any fun cx => (s.ctxAt cx).valid && (s.vfPart (ctxVf cx)).map (fun y => y.val) == some p &&
      (s.ctxAt cx).changing

/-- A free range of 64 KiB frames in the memory of a die (log 60). -/
def frameRange (k d : Nat) : Nat × Nat :=
  let base := if 8 ≤ d then tierBase (d - 8) else dieMemBase d
  let size := if 8 ≤ d then tierSize else dieMemSize d
  let off := (Config.freeWord (2 * k)).toNat * 65536 % size
  (base + off, min ((Config.freeWord (2 * k + 1)).toNat * 65536) (size - off))

/-- Ranges that the firmware may assign on one die. -/
def rangesPerDie : Nat := 4

/-- Draws that `assigned` may make. -/
def frameDraws : Nat := 10 * rangesPerDie

/-- The memory that the firmware has assigned to a partition once it holds the quads of `w` (R317; log 60): what it held on the dies that
it keeps, and free ranges, none of another partition's, on those that are new to it, behind both H-dies from its first quad on. -/
def State.assigned (s : State) (p : Fin 32) (w : Word) : List (Nat × Nat) :=
  let ds := if w = 0 then [] else partDies w ++ [8, 9]
  let kept := (s.hub.frames[p]).filter fun f => ds.any fun d => onDie d f.1 f.2
  let others := ((List.finRange 32).filter fun q => q != p).flatMap fun q => s.hub.frames[q]
  let new := (ds.filter fun d => !(kept.any fun f => onDie d f.1 f.2)).flatMap fun d =>
    (List.range rangesPerDie).map fun i => frameRange (s.free + rangesPerDie * d + i) d
  kept ++ new.filter fun f => f.2 != 0 && !(others.any fun o => f.1 < o.1 + o.2 && o.1 < f.1 + f.2)

/-- A partition's PARTDIES value changes: with its first quad it is created, with a fresh key; with its last it is torn
down, its key erased and its DBGEN clear (R320, R325). The policy-key digest that the tenant fixes at creation is free. -/
def State.setQuads (s : State) (p : Fin 32) (w : Word) : State :=
  let old := s.hub.partdies[p]
  let h := { s.hub with partdies := s.hub.partdies.set p w, frames := s.hub.frames.set p (s.assigned p w) }
  let s := { s with free := s.free + frameDraws }
  if old = 0 && w ≠ 0 then
    { s with
      hub := { h with keys := h.keys.set p h.nextKey, nextKey := h.nextKey + 1,
                      digest := h.digest.set p ((List.range 64).map fun i => Config.freeByte (1024 * s.free + i)),
                      dbgen := h.dbgen.set p 0, expiry := h.expiry.set p 0 },
      free := s.free + 1 }
  else if old ≠ 0 && w = 0 then
    { s with hub := { h with keys := h.keys.set p 0, digest := h.digest.set p [], dbgen := h.dbgen.set p 0,
                             expiry := h.expiry.set p 0 } }
  else { s with hub := h }

/-- A quad is fenced and waits to be zeroed; `p` is the partition it goes to, 32 for none. -/
def Hub.shut (h : Hub) (p : Nat) (x : Nat × Nat) : Hub :=
  { h with zeroing := (x.1, x.2, p) :: h.zeroing.filter fun z => !(z.1 == x.1 && z.2.1 == x.2) }

/-- The partition other than `p` that holds a quad. -/
def State.otherOwner (s : State) (p : Fin 32) (x : Nat × Nat) : Option (Fin 32) :=
  (List.finRange 32).find? fun o => o != p && (quadsOf (s.hub.partdies[o]) x.1).contains x.2

/-- PARTDIES_WRITE (R319, R322, R324): refused while an old partition is at work on a quad that leaves it; otherwise the old
partitions lose the quads, which are fenced and drained. The functions of the partition leave RUN and CONFIG_LOCKED. -/
def execPartdiesWrite (p : Fin 32) (val : Dword) (s : State) : Host.Outcome State Fault Refusal :=
  let old := quadList (s.hub.partdies[p])
  let w : Word := val.setWidth 32
  let new := quadList w
  let gone := old.filter fun x => !new.contains x
  let come := new.filter fun x => !old.contains x
  let from_ := come.filterMap fun x => (s.otherOwner p x).map fun o => (o, x)
  let busy := (gone.any fun x => s.quadBusy p.val x) || from_.any fun y => s.quadBusy y.1.val y.2
  let hit := fun (s : State) (ps : List (Fin 32)) =>
    (List.finRange 64).foldl (fun s f => match s.vfPart f.val with
      | some q => if ps.contains q then s.tdiError f else s
      | none => s) s
  if busy then .next (hit s [p])
  else
    let t := hit s (p :: from_.map fun y => y.1)
    let t := from_.foldl (fun s y => s.setQuads y.1 (BitVec.ofNat 32 ((s.hub.partdies[y.1]).toNat - quadBit y.2))) t
    let t := t.setQuads p w
    let h := gone.foldl (fun h x => h.shut 32 x) t.hub
    .next { t with hub := come.foldl (fun h x => h.shut p.val x) h }

/-- Bytes that the hardware sets to zero. -/
def State.zeroBytes (s : State) (a n : Nat) : State :=
  { s with mem := Mem.zero s.mem a n, olds := s.olds.filter (fun o => !o.meets a n),
           rels := s.rels.filter fun r => !r.obj.overlaps a n }

/-- A core is zeroed: its slice, and its registers, which hold zeros until a block is placed on it (R322). -/
def State.zeroCore (s : State) (d c : Nat) : State :=
  let k := Fin.ofNat 320 (40 * d + c)
  let s := s.zeroBytes (scratchBase d c) (sliceSize d)
  { s with cores := s.cores.set k { s.cores[k] with zeroed := true } }

/-- The shadow range registers of a die are zeroed; a pending change's are loaded, at the latest, at its first arrival (R301, R322). -/
def State.zeroShadow (s : State) (d : Fin 8) : State :=
  s.modDie d fun x => { x with shadow := x.shadow.filter fun y => (s.ctxAt y.1).changing }

/-- QUAD_GRANT (R322): the quad's slices, its part of the engine SRAM, the registers of its cores and the shadow range registers are zero,
and its new partition may use it. -/
def execQuadGrant (die : Fin 8) (quad : Fin 4) (s : State) : Host.Outcome State Fault Refusal :=
  if !s.quadShut die.val quad.val then .next s
  else
    let n := quadCores die.val
    let t := (List.range n).foldl (fun s i => s.zeroCore die.val (quad.val * n + i)) s
    let t := (t.zeroBytes (seBase die.val + quad.val * 2 ^ 21) (2 ^ 21)).zeroShadow die
    .next { t with
      hub := { t.hub with zeroing := t.hub.zeroing.filter fun z => !(z.1 == die.val && z.2.1 == quad.val) } }

/-! ## Debug policies (R325) -/

/-- Whether a policy in DBGLOAD is accepted for a partition now; `bs` are its 1060 bytes. -/
def State.policyOk (s : State) (f : Fin 64) (p : Fin 32) (bs : List Byte) : Bool :=
  Config.sha512 ((bs.drop 32).take 516) == s.hub.digest[p] &&
    Config.rsaVerify ((bs.drop 32).take 4) ((bs.drop 36).take 512) (bs.take 548) ((bs.drop 548).take 512) &&
    fieldN bs 0 16 == (s.vfs[f]).nonce.toNat && fieldN bs 16 1 == p.val && s.nanos < fieldN bs 24 8

/-- DBGCTL_GO: the policy is verified, DBGEN is set where it is accepted, and DBGNONCE is fresh. -/
def execDbgctlGo (f : Fin 64) (s : State) : Host.Outcome State Fault Refusal :=
  if s.vfFenced f.val then .next s else
  let bs := debugPut (s.vfs[f]).dbgload 1060 0
  let after := fun (t : State) (r : Fin 4) =>
    { t with free := t.free + 1 }.modVf f.val fun v => { v with nonce := Config.nonce (64 * (t.free + 1) + f.val), dbgres := r }
  match s.vfPart f.val with
  | none => .next (after s 3)
  | some p =>
    if s.policyOk f p bs then
      .next (after { s with hub := { s.hub with dbgen := s.hub.dbgen.set p (BitVec.ofNat 4 (fieldN bs 17 1)),
                                                expiry := s.hub.expiry.set p (BitVec.ofNat 64 (fieldN bs 24 8)) } } 2)
    else .next (after s 3)

/-- DBGEN of a partition now: clear from EXPIRY on (R325). -/
def State.dbgOf (s : State) (p : Fin 32) : BitVec 4 :=
  if (s.hub.expiry[p]).toNat ≤ s.nanos then 0 else s.hub.dbgen[p]

/-- DBG_EXPIRY: DBGEN clears at EXPIRY. -/
def execDbgExpiry (p : Fin 32) (s : State) : Host.Outcome State Fault Refusal :=
  if s.hub.dbgen[p] ≠ 0 ∧ (s.hub.expiry[p]).toNat ≤ s.nanos then
    .next { s with hub := { s.hub with dbgen := s.hub.dbgen.set p 0 } }
  else .next s

/-! ## Attestation (R323) -/

/-- An SPDM 1.3 ERROR response with a code (log 35). -/
def spdmError (code : Nat) : List Byte := [0x13, 0x7F, BitVec.ofNat 8 code, 0]

/-- The responder of an H-die answers and stands where given. -/
def State.spdm (s : State) (h : Fin 2) (st : SpdmSt) (r : List Byte) : State :=
  { s with hdies := s.hdies.set h { s.hdies[h] with spdm := st, response := r } }

/-- A request that the responder does not expect where it stands (log 35). -/
def State.spdmUnexpected (s : State) (h : Fin 2) : State := s.spdm h (s.hdies[h]).spdm (spdmError 4)

/-- Whether algorithms have been negotiated. -/
def SpdmSt.ready : SpdmSt → Bool
  | .negotiated => true
  | .exchanged => true
  | .session => true
  | _ => false

/-- A request that needs negotiated algorithms and leaves the responder where it stands. -/
def State.spdmAsk (s : State) (h : Fin 2) (r : List Byte) : State :=
  if SpdmSt.ready (s.hdies[h]).spdm then s.spdm h (s.hdies[h]).spdm r else s.spdmUnexpected h

/-- GET_VERSION: a connection starts anew. -/
def execGetVersion (h : Fin 2) (s : State) : Host.Outcome State Fault Refusal :=
  .next (s.spdm h .version (Config.spdmBytes 0 h.val))

/-- GET_CAPABILITIES. -/
def execGetCapabilities (h : Fin 2) (s : State) : Host.Outcome State Fault Refusal :=
  if (s.hdies[h]).spdm = .version then .next (s.spdm h .caps (Config.spdmBytes 1 h.val)) else .next (s.spdmUnexpected h)

/-- NEGOTIATE_ALGORITHMS: one acceptable algorithm of each kind, or an UnsupportedRequest error. -/
def execNegotiateAlgorithms (h : Fin 2) (algs : SpdmAlgs) (s : State) : Host.Outcome State Fault Refusal :=
  if (s.hdies[h]).spdm ≠ .caps then .next (s.spdmUnexpected h)
  else if algs.rsaPss4096 && algs.sha512 && algs.secp384r1 && algs.aes256gcm then
    .next (s.spdm h .negotiated (Config.spdmBytes 2 h.val))
  else .next (s.spdm h .caps (spdmError 7))

/-- The device-identity chain of slot 0. -/
def certChain (h : Fin 2) : List Byte := Config.spdmBytes 4 h.val

/-- GET_DIGESTS: slot 0's chain. -/
def execGetDigests (h : Fin 2) (s : State) : Host.Outcome State Fault Refusal := .next (s.spdmAsk h (Config.sha512 (certChain h)))

/-- GET_CERTIFICATE: slots 1 to 7 are empty. -/
def execGetCertificate (h : Fin 2) (slot : Fin 8) (s : State) : Host.Outcome State Fault Refusal :=
  .next (s.spdmAsk h (if slot = 0 then certChain h else spdmError 1))

/-- CHALLENGE: a fresh signature with slot 0's key. -/
def execChallenge (h : Fin 2) (slot : Fin 8) (s : State) : Host.Outcome State Fault Refusal :=
  .next ({ s with free := s.free + 1 }.spdmAsk h (if slot = 0 then Config.spdmBytes 5 s.free else spdmError 1))

/-- What measurement 5 of a function covers: QUADS, the VFPART entries that name the partition, and its DBGEN. -/
def State.partMeasured (s : State) (f : Fin 64) : List Byte :=
  match s.vfPart f.val with
  | none => []
  | some p =>
    leBytes 4 (s.hub.partdies[p]).toNat ++
      ((List.finRange 64).filter fun g => s.vfPart g.val == some p).flatMap (fun g => leBytes 8 (s.hub.vfpart[g]).toNat) ++
      leBytes 1 (s.dbgOf p).toNat

/-- Measurement `i`, 1 to 5: a SHA-512 digest. -/
def State.measurement (s : State) (f : Fin 64) (i : Nat) : List Byte :=
  Config.sha512 (if i = 5 then s.partMeasured f else Config.spdmBytes 100 i)

/-- GET_MEASUREMENTS: one digest, or their number (0) or all of them (255). -/
def execGetMeasurements (h : Fin 2) (f : Fin 64) (index : Nat) (s : State) : Host.Outcome State Fault Refusal :=
  .next (s.spdmAsk h (
    if index = 0 then [5]
    else if index = 255 then (List.range 5).flatMap fun i => s.measurement f (i + 1)
    else if index ≤ 5 then s.measurement f index
    else spdmError 1))

/-- KEY_EXCHANGE. -/
def execKeyExchange (h : Fin 2) (slot : Fin 8) (s : State) : Host.Outcome State Fault Refusal :=
  if (s.hdies[h]).spdm ≠ .negotiated then .next (s.spdmUnexpected h)
  else if slot ≠ 0 then .next (s.spdm h .negotiated (spdmError 1))
  else .next ({ s with free := s.free + 1 }.spdm h .exchanged (Config.spdmBytes 7 s.free))

/-- FINISH. -/
def execFinish (h : Fin 2) (s : State) : Host.Outcome State Fault Refusal :=
  if (s.hdies[h]).spdm ≠ .exchanged then .next (s.spdmUnexpected h)
  else .next ({ s with free := s.free + 1 }.spdm h .session (Config.spdmBytes 8 s.free))

/-- END_SESSION. -/
def execEndSession (h : Fin 2) (s : State) : Host.Outcome State Fault Refusal :=
  if (s.hdies[h]).spdm ≠ .session then .next (s.spdmUnexpected h)
  else .next (s.spdm h .negotiated (Config.spdmBytes 9 h.val))

/-! ## Fences, telemetry, governors, reset (R327, R329, R330) -/

/-- Whether a partition holds a unit: a slice's quad, a tract's die; every partition holds every link (log 36). -/
def State.holdsUnit (s : State) (p unit idx : Nat) : Bool :=
  let w := s.hub.partdies[Fin.ofNat 32 p]
  if unit = 1 then (quadsOf w (idx / 40)).contains (idx % 40 / quadCores (idx / 40))
  else if unit = 2 then !(quadsOf w (idx / 4)).isEmpty
  else true

/-- Whether FENCECMD names a unit. -/
def fenceUnitOk (unit idx : Nat) : Bool :=
  (unit == 1 && idx < 320 && idx % 40 < coresOf (idx / 40)) || (unit == 2 && idx < 32 && idx % 4 < tractsOf (idx / 4)) ||
    (unit == 3 && idx < 50)

/-- A unit's fence is released, the unit tested; one that is not fenced stays as it is. -/
def State.unfence (s : State) (unit idx : Nat) : State :=
  if unit = 1 then
    (let k := Fin.ofNat 320 idx
     if (s.cores[k]).fenced then
       { s with cores := s.cores.set k { s.cores[k] with fenced := false, failed := [], rebuilding := false } }
     else s)
  else if unit = 2 then
    (let k := Fin.ofNat 32 idx
     { s with tracts := s.tracts.set k { s.tracts[k] with fenced := false } })
  else
    (let k := Fin.ofNat 50 idx
     { s with links := s.links.set k { s.links[k] with fenced := false } })

/-- FENCECMD_CLEAR (R327): IDX and UNIT are stored; with GO set, the fence of the unit is cleared, or the request is refused
while a partition that holds it has a placed block. -/
def execFencecmdClear (val : Dword) (s : State) : Host.Outcome State Fault Refusal :=
  let idx := val.toNat / 2 ^ 32 % 512
  let unit := val.toNat % 16
  let t := { s with hub := { s.hub with fenceIdx := BitVec.ofNat 9 idx, fenceUnit := Fin.ofNat 16 unit } }
  if !val.getLsbD 63 || !fenceUnitOk unit idx then .next t
  else
    let busy := s.blocks.any fun b => b.placed && s.holdsUnit b.part unit idx
    let t := { t with hub := { t.hub with fenceRefused := busy } }
    .next (if busy then t else t.unfence unit idx)

/-- TELCLR (R330): bit 0 clears every counter; FENCED, VMV, FMHZ and IUSE stay. -/
def execTelclr (val : Dword) (s : State) : Host.Outcome State Fault Refusal :=
  if !val.getLsbD 0 then .next s
  else
    .next { s with
      cores := s.cores.map fun (x : CoreTel) => { x with slips := 0, ferry := 0, scovf := 0, rebuilds := 0 },
      tracts := s.tracts.map fun (x : TractTel) => { x with replay := 0, abslip := 0, corr := 0, uncor := 0 },
      links := s.links.map fun (x : LinkTel) => { x with retry := 0 },
      isls := s.isls.map fun (x : Isl) => { x with grants := 0, stall := 0 } }

/-- ISLAND_GOVERNOR_SET (R329): a voltage from 340 to 600 mV, and the clock that it supports: the nominal one at 400 mV. -/
def execIslandGovernorSet (isl : Fin 32) (mv : Nat) (s : State) : Host.Outcome State Fault Refusal :=
  if mv < 340 || 600 < mv then .next s
  else
    .next (s.modIsl isl fun i =>
      { i with vmv := mv, fmhz := if mv = 400 then nominalMhz isl.val else Config.clockOf isl.val mv })

/-- MODULE_RESET (R327): registers return to their reset values and every fence is released. What memory holds then, the
spec does not say: it stays, under keys that no partition has any more (log 37). The agenda is the outside world's. -/
def execModuleReset (s : State) : Host.Outcome State Fault Refusal :=
  .next { State.reset with
    agenda := s.agenda, free := s.free + 1, nextUid := s.nextUid, nextKey := s.nextKey, mem := s.mem, poison := s.poison,
    unitKeys := s.unitKeys, upsets := s.upsets, nextOld := s.nextOld, hub := { Hub.reset with nextKey := s.hub.nextKey },
    vfs := Vector.ofFn fun f => { Vf.reset with nonce := Config.nonce (64 * (s.free + 1) + f.val) } }

end Sys2Proof.Machine
end

