-- ==== Sys2Proof/Machine/Special.lean ====
section
/-! DEFINITION. The special functions of R183 and R184: 1/x, 1/√x, 2^x and log2 x, correctly rounded. Each delivers a
truncation of the exact value to many bits with a last bit that says something was cut off, which R69 then rounds
once. 2^x and log2 x are formed to 320 fraction bits (log 16). -/

namespace Sys2Proof.Machine

/-- A truncated magnitude q · 2^e with a sticky bit below it. -/
def withSticky (neg : Bool) (q : Nat) (e : Int) (inexact : Bool) : Val := .fin neg (2 * q + digit inexact) (e - 1)

/-- Extra bits kept below the destination's precision. -/
def guardBits : Nat := 128

/-- 1 / x (R184). -/
def Val.rcp : Val → Val
  | .nan => .nan
  | .inf s => .fin s 0 0
  | .fin s m e =>
    if m = 0 then .inf s
    else
      let k := bitLen m + guardBits
      withSticky s (2 ^ k / m) (-e - k) (2 ^ k % m != 0)

/-- 1 / √x (R184): both zeros follow the table's signs. -/
def Val.rsq : Val → Val
  | .nan => .nan
  | .inf s => if s then .nan else .fin false 0 0
  | .fin s m e =>
    if m = 0 then .inf s
    else if s then .nan
    else
      let odd := e % 2 ≠ 0
      let m' := if odd then 2 * m else m
      let e' := if odd then e - 1 else e
      let k := bitLen m' + guardBits
      let q := Nat.sqrt (2 ^ (2 * k) / m')
      withSticky false q (-(e' / 2) - k) (q * q * m' != 2 ^ (2 * k))

/-- Fraction bits of the fixed-point values of 2^x and log2 x. -/
def fixBits : Nat := 320

/-- The product over the set bits of `f / 2^j` (highest first) of 2^(2^-i), in fixed point: `root` is 2^(2^-i) for the
current bit. -/
def exp2Frac : Nat → Nat → Nat → Nat → Nat
  | 0, _, _, acc => acc
  | j + 1, f, root, acc =>
    let r := Nat.sqrt (root * 2 ^ fixBits)
    if f / 2 ^ j % 2 = 1 then exp2Frac j f r (acc * r / 2 ^ fixBits) else exp2Frac j f r acc

/-- 2^x (R184): exact for integers; a magnitude beyond every format's range is cut to one that still lies beyond it. -/
def Val.exp2 : Val → Val
  | .nan => .nan
  | .inf s => if s then .fin false 0 0 else .inf false
  | .fin s m e =>
    if m = 0 then .fin false 1 0
    else if 11 < (bitLen m : Int) + e then
      if s then .fin false 1 (-4096) else .fin false 1 4096
    else
      let j := (-e).toNat
      let v : Int := signed s m * 2 ^ e.toNat
      let n : Int := v / 2 ^ j
      let f : Nat := (v % 2 ^ j).toNat
      if f = 0 then .fin false 1 n
      else withSticky false (exp2Frac j f (2 * 2 ^ fixBits) (2 ^ fixBits)) (n - fixBits) true

/-- `k` binary digits of log2 y for y in [1, 2), in fixed point of twice `fixBits`. -/
def log2Digits : Nat → Nat → Nat → Nat
  | 0, _, acc => acc
  | k + 1, y, acc =>
    let z := y * y / 2 ^ (2 * fixBits)
    if 2 * 2 ^ (2 * fixBits) ≤ z then log2Digits k (z / 2) (2 * acc + 1) else log2Digits k z (2 * acc)

/-- log2 x (R184): exact for powers of two. -/
def Val.log2 : Val → Val
  | .nan => .nan
  | .inf s => if s then .nan else .inf false
  | .fin s m e =>
    if m = 0 then .inf true
    else if s then .nan
    else
      let l := bitLen m - 1
      let n : Int := l + e
      if m = 2 ^ l then .fin (n < 0) n.natAbs 0
      else
        let f := log2Digits fixBits (m * 2 ^ (2 * fixBits) / 2 ^ l) 0
        if 0 ≤ n then withSticky false (n.toNat * 2 ^ fixBits + f) (-fixBits) true
        else withSticky true (n.natAbs * 2 ^ fixBits - f - 1) (-fixBits) true

end Sys2Proof.Machine
end

