-- ==== Sys2Proof/Machine/VOps.lean ====
section
/-! DEFINITION. The shared operations of v instructions (R176 to R192): the form an instruction has, its elements one by
one, integer and floating-point element operations, reductions, scans, packing and unpacking. -/

namespace Sys2Proof.Machine

/-- How a v instruction acts: element width and float format, active elements, rounding control, words. -/
structure VForm where
  w : Nat
  fmt : Fmt
  act : Mask
  ctl : FpCtl
  words : Nat
deriving DecidableEq, Repr

/-- Form of a P0 instruction: 32-bit elements, control from the prefix (R176, R179). -/
def formP0 (s : State) : VForm :=
  { w := 32, fmt := .fp32, act := BitVec.allOnes 256, ctl := (s.str .v).pfx.ctl, words := 1 }

/-- Form of a P1 instruction: 16-bit elements. -/
def formP1 (s : State) : VForm := { formP0 s with w := 16, fmt := .bf16 }

/-- Element width and float format of a TYPE (R101, R176). -/
def typeForm : VTy → Nat × Fmt
  | .t32 => (32, .fp32)
  | .t16 => (16, .bf16)
  | .tH => (16, .fp16)
  | .t8 => (8, .fp32)

/-- Form of a wide instruction: type, mask and control from EXT (R179). -/
def formW (e : VExt) (s : State) : VForm :=
  { w := (typeForm e.ty).1, fmt := (typeForm e.ty).2, act := s.blk.mask e.mask,
    ctl := { rm := if e.rmv then e.rm else .rne, sat := e.sat, ftz := e.ftz }, words := 2 }

/-- The lane that holds element `e`. -/
def VForm.lane (m : VForm) (e : Nat) : Nat := e * m.w / 32

/-- Elements of a vector. -/
def VForm.n (m : VForm) : Nat := elemCount m.w

/-- An element operation: the form, the element's lane, its values of A, B and D. -/
abbrev ElemOp := VForm → Nat → Nat → Nat → Nat → NumSt → Nat × NumSt

/-- An element operation over every active element, in ascending order; an inactive element gives 0. -/
def mapElems (m : VForm) (f : ElemOp) : Nat → List (Nat × Nat × Nat) → NumSt → List Nat × NumSt
  | _, [], a => ([], a)
  | e, (x, y, z) :: r, a =>
    let (v, a) := if m.act.getLsbD e then f m (m.lane e) x y z a else (0, a)
    let (l, a) := mapElems m f (e + 1) r a
    (v :: l, a)

/-- The elements of up to three images together. -/
def zipElems (w : Nat) (x y z : VReg) : List (Nat × Nat × Nat) := (elems w x).zip ((elems w y).zip (elems w z))

/-! ## Integer elements (R180, R181) -/

/-- An exact signed result, wrapped or saturated. -/
def intElem (f : Int → Int → Int → Int) : ElemOp := fun m _ x y z a =>
  let (v, c) := satResult m.w m.ctl.sat (f (signedOf m.w x) (signedOf m.w y) (signedOf m.w z))
  (v.toNat, if c then a.flag stSAT else a)

/-- An operation on bits, without saturation. -/
def bitElem (f : Nat → Nat → Nat → Nat) : ElemOp := fun m _ x y _ a => (f m.w x y % 2 ^ m.w, a)

def vaddOp : ElemOp := intElem fun x y _ => x + y
def vsubOp : ElemOp := intElem fun x y _ => x - y
def vmulOp : ElemOp := intElem fun x y _ => x * y
def vmadOp : ElemOp := intElem fun x y z => x * y + z
def vabsOp : ElemOp := intElem fun x _ _ => x.natAbs
def vandOp : ElemOp := bitElem fun _ x y => x &&& y
def vorOp : ElemOp := bitElem fun _ x y => x ||| y
def vxorOp : ElemOp := bitElem fun _ x y => x ^^^ y
def vshlOp : ElemOp := bitElem fun w x y => x <<< (y % w)
def vshrOp : ElemOp := bitElem fun w x y => x >>> (y % w)
def vsarOp : ElemOp := bitElem fun w x y => wrapTo w (signedOf w x / 2 ^ (y % w))
def vminOp : ElemOp := bitElem fun w x y => if signedOf w y < signedOf w x then y else x
def vmaxOp : ElemOp := bitElem fun w x y => if signedOf w x < signedOf w y then y else x

/-! ## Floating-point elements (R183, R184, R189) -/

/-- A result rounded once. -/
def fltElem (f : Rm → Val → Val → Val → Val) : ElemOp := fun m lane x y z a =>
  let g := fun n => m.fmt.value m.ctl.ftz n
  m.fmt.deliver m.ctl lane (f m.ctl.rm (g x) (g y) (g z)) a

/-- A result without rounding (R183). -/
def pickElem (f : Val → Val → Val) : ElemOp := fun m _ x y _ a =>
  let g := fun n => m.fmt.value m.ctl.ftz n
  m.fmt.round { ctlRne with ftz := m.ctl.ftz } 0 (f (g x) (g y)) a

def vfaddOp : ElemOp := fltElem fun r x y _ => x.add r y
def vfsubOp : ElemOp := fltElem fun r x y _ => x.add r y.neg
def vfmulOp : ElemOp := fltElem fun _ x y _ => x.mul y
def vfmaOp : ElemOp := fltElem fun r x y z => (x.mul y).add r z
def vfminOp : ElemOp := pickElem Val.pickMin
def vfmaxOp : ElemOp := pickElem Val.pickMax
def vrcpOp : ElemOp := fltElem fun _ x _ _ => x.rcp
def vrsqOp : ElemOp := fltElem fun _ x _ _ => x.rsq
def vexp2Op : ElemOp := fltElem fun _ x _ _ => x.exp2
def vlog2Op : ElemOp := fltElem fun _ x _ _ => x.log2

/-- `vscale`: B is a signed integer of the element width. -/
def vscaleOp : ElemOp := fun m lane x y _ a =>
  m.fmt.deliver m.ctl lane ((m.fmt.value m.ctl.ftz x).scale (signedOf m.w y)) a

/-! ## Shapes of element instructions -/

/-- D from A and B. -/
def execV2 (form : State → VForm) (x : RArgs) (f : ElemOp) (s : State) : Host.Outcome State Fault Refusal :=
  let m := form s
  issue .v m.words x.pred false (dropAll .v [x.a, x.b] [x.d]) (thenGo do
    banksHeld [x.a, x.b, x.d]
    let a ← readV m.w x.a
    let b ← readV m.w x.b
    let r ← numeric (mapElems m f 0 (zipElems m.w a b vzero))
    writeV m.w m.act x.d r
    portOrder .v [x.a, x.b] [x.d]) s

/-- D from A, B and D. -/
def execV3 (form : State → VForm) (x : RArgs) (f : ElemOp) (s : State) : Host.Outcome State Fault Refusal :=
  let m := form s
  issue .v m.words x.pred false (dropAll .v [x.a, x.b] [x.d]) (thenGo do
    banksHeld [x.a, x.b, x.d]
    let a ← readV m.w x.a
    let b ← readV m.w x.b
    let d ← readV m.w x.d
    let r ← numeric (mapElems m f 0 (zipElems m.w a b d))
    writeV m.w m.act x.d r
    portOrder .v [x.a, x.b] [x.d]) s

/-- D from A. -/
def execV1 (form : State → VForm) (x : UArgs) (f : ElemOp) (s : State) : Host.Outcome State Fault Refusal :=
  let m := form s
  issue .v m.words x.pred false (dropAll .v [x.a] [x.d]) (thenGo do
    banksHeld [x.a, x.d]
    let a ← readV m.w x.a
    let r ← numeric (mapElems m f 0 (zipElems m.w a vzero vzero))
    writeV m.w m.act x.d r
    portOrder .v [x.a] [x.d]) s

/-- A comparison into a mask (R182, R183). -/
def execVCmp (form : State → VForm) (x : CmpArgs) (f : VForm → Nat → Nat → Bool) (s : State) :
    Host.Outcome State Fault Refusal :=
  let m := form s
  issue .v m.words x.pred false (dropAll .v [x.a, x.b] []) (thenGo do
    banksHeld [x.a, x.b]
    let a ← readV m.w x.a
    let b ← readV m.w x.b
    writeMask m.n m.act x.pd (((elems m.w a).zip (elems m.w b)).map fun y => f m y.1 y.2)
    portOrder .v [x.a, x.b] []) s

/-- An integer relation of elements. -/
def vrel (r : Rel) (m : VForm) (x y : Nat) : Bool := relHolds r (BitVec.ofNat m.w x) (BitVec.ofNat m.w y)

/-- A float relation of elements. -/
def vfrel (r : Rel) (m : VForm) (x y : Nat) : Bool := (m.fmt.value m.ctl.ftz x).rel r (m.fmt.value m.ctl.ftz y)

/-- `vsel`: an active element takes A where its bit of the mask is set (R182). -/
def execVSel (form : State → VForm) (x : VselArgs) (s : State) : Host.Outcome State Fault Refusal :=
  let m := form s
  issue .v m.words x.pred false (dropAll .v [x.a] [x.d]) (thenGo do
    banksHeld [x.a, x.d]
    let a ← readV m.w x.a
    let d ← readV m.w x.d
    let k := (← getBlk).mask x.vm
    writeV m.w m.act x.d (mergeElems k (elems m.w d) (elems m.w a))
    portOrder .v [x.a] []) s

/-! ## Conversion (R185) -/

/-- The float format of a `vcvt` type, none for the integers. -/
def vcFmt : VcTy → Option Fmt
  | .fp32 => some .fp32
  | .bf16 => some .bf16
  | .fp16 => some .fp16
  | .e4m3 => some .e4m3
  | .e5m2 => some .e5m2
  | _ => none

/-- The width of an integer `vcvt` type. -/
def vcInt : VcTy → Nat
  | .i32 => 32
  | .i16 => 16
  | _ => 8

/-- One converted lane. A same-type float pair returns its input, NaN made canonical, an infinity unchanged and with SAT clear
also under `.sat` (R185 over R69: log 43), and a subnormal that flush-to-zero reads as zero as that zero (R72). -/
def cvtOp (src dst : VcTy) : ElemOp := fun m lane x _ _ a =>
  let v := match vcFmt src with
    | some f => f.value m.ctl.ftz (x % 2 ^ f.width)
    | none => .ofInt (signedOf (vcInt src) x)
  match vcFmt dst with
  | some f =>
    if src = dst then
      let (_, a) := a.draw m.ctl.rm lane
      match v with
      | .nan => (f.nan, a.flag stNANS)
      | .fin neg 0 _ => (f.signBit neg, a)
      | _ => (x % 2 ^ f.width, a)
    else f.deliver m.ctl lane v a
  | none =>
    let (r, a) := deliverInt (vcInt dst) m.ctl lane v a
    (wrapTo 32 r, a)

/-! ## Packing (R186, R187) -/

/-- A value delivered in a FORMAT code: a float format rounded, an integer format clamped. -/
def packOne (f : Nat) (c : FpCtl) (lane : Nat) (src : Nat) (a : NumSt) : Nat × NumSt :=
  match codeFmt f with
  | some g => g.deliver c lane (Fmt.fp32.value c.ftz src) a
  | none =>
    let (r, a) := deliverInt (fmtBits f) c lane (.ofInt (signedOf 32 src)) a
    (wrapTo (fmtBits f) r, a)

/-- The result elements of `vpack` in order: element `i` uses lane i mod 64 and is governed by mask bit i mod 64. -/
def packAll (f : Nat) (m : VForm) : Nat → List Nat → NumSt → List Nat × NumSt
  | _, [], a => ([], a)
  | i, x :: r, a =>
    let (v, a) := if m.act.getLsbD (i % 64) then packOne f m.ctl (i % 64) x a else (0, a)
    let (l, a) := packAll f m (i + 1) r a
    (v :: l, a)

/-- The active values of a block; `i` is its first element. -/
def blockActive (m : VForm) (i : Nat) (l : List Nat) : List Val :=
  (l.zipIdx.filter fun x => m.act.getLsbD ((i + x.2) % 64)).map fun x => Fmt.fp32.value m.ctl.ftz x.1

def Val.isFin : Val → Bool
  | .fin _ _ _ => true
  | _ => false

/-- floor(log2 |v|) of a nonzero value; none for zero. -/
def Val.ilog2 : Val → Option Int
  | .fin _ m e => if m = 0 then none else some ((bitLen m : Int) - 1 + e)
  | _ => none

/-- The e8m0 scale of a block (R187). -/
def blockScale (emax : Int) (vs : List Val) : Nat :=
  if vs.any fun v => !v.isFin then 255
  else
    match (vs.filterMap Val.ilog2).foldl (fun (o : Option Int) x => some (match o with
      | some y => max x y
      | none => x)) none with
    | none => 0
    | some k => (max 0 (min 254 (k - emax + 127))).toNat

/-- The codes of a block under its scale. -/
def blockCodes (g : Fmt) (m : VForm) (sc : Nat) : Nat → List Nat → NumSt → List Nat × NumSt
  | _, [], a => ([], a)
  | i, x :: r, a =>
    let (v, a) :=
      if !m.act.getLsbD (i % 64) then (0, a)
      else if sc = 255 then (0, (a.draw m.ctl.rm (i % 64)).2.flag stNANS)
      else g.deliver m.ctl (i % 64) ((Fmt.fp32.value m.ctl.ftz x).scale (127 - (sc : Int))) a
    let (l, a) := blockCodes g m sc (i + 1) r a
    (v :: l, a)

/-- Four blocks packed with their scales. -/
def packBlocks (f : Nat) (m : VForm) : Nat → Nat → List Nat → NumSt → (List Nat × List Byte) × NumSt
  | 0, _, _, a => (([], []), a)
  | n + 1, i, l, a =>
    let g := if f = 9 then Fmt.e2m1 else Fmt.e4m3
    let sc := blockScale (if f = 9 then 2 else 8) (blockActive m i (l.take 32))
    let (x, a) := blockCodes g m sc i (l.take 32) a
    let ((y, z), a) := packBlocks f m n (i + 32) (l.drop 32) a
    ((x ++ y, BitVec.ofNat 8 sc :: z), a)

/-- The codes and scales that `vpack` produces in a FORMAT code. -/
def packFmt (f : Nat) (m : VForm) (l : List Nat) (a : NumSt) : (List Nat × List Byte) × NumSt :=
  if fmtScaled f then packBlocks f m 4 0 l a
  else
    let (x, a) := packAll f m 0 l a
    ((x, []), a)

/-- `vpack` into a stream: its FORMAT, and V equal to the bytes produced, or trap 0x34. -/
def packStream (m : VForm) (g : Fin 16) (l : List Nat) : M Unit := do
  let x := (← getBlk).streams[g]
  let f := x.format
  trapIf (f == 2 || f == 3 || 11 ≤ f || x.vbytes != 16 * fmtBits f) 0x34
  let (codes, scales) ← numeric (packFmt f m l)
  appendStream .v g (packCodes (fmtBits f) codes) scales

/-- `vpack` into a register or a vector queue: the format code `f`, and the part `hq` that it fills. -/
def packInto (m : VForm) (d : Opd) (f hq : Nat) (l : List Nat) : M Unit := do
  let w := fmtBits f
  let old ← match d with
    | .reg n => readV 32 (.reg n)
    | .port _ => pure vzero
  let (codes, _) ← numeric (packFmt f m l)
  let new := (elems w old).zipIdx.map fun x =>
    let i := x.2 - 128 * hq
    if 128 * hq ≤ x.2 && i < 128 && m.act.getLsbD (i % 64) then codes[i]?.getD 0 else x.1
  writeVec d (ofElems w new)

/-- `vpack`. -/
def execVPack (form : State → VForm) (x : RArgs) (f hq : Nat) (s : State) : Host.Outcome State Fault Refusal :=
  let m := form s
  issue .v m.words x.pred false (dropAll .v [x.a, x.b] [x.d]) (thenGo do
    banksHeld [x.a, x.b, x.d]
    let a ← readV 32 x.a
    let b ← readV 32 x.b
    let l := elems 32 a ++ elems 32 b
    match x.d with
    | .port (.g g) => packStream m g l
    | d => packInto m d f hq l
    portOrder .v [x.a, x.b] [x.d]) s

/-! ## Unpacking (R188) -/

/-- A value delivered as an output element of `vunpk`. -/
def unpkOne (int : Bool) (m : VForm) (lane : Nat) (v : Val) (a : NumSt) : Nat × NumSt :=
  if int then
    let (r, a) := deliverInt m.w m.ctl lane v a
    (wrapTo m.w r, a)
  else m.fmt.deliver m.ctl lane v a

/-- Every active output element in order. -/
def unpkAll (int : Bool) (m : VForm) : Nat → List Val → NumSt → List Nat × NumSt
  | _, [], a => ([], a)
  | e, v :: r, a =>
    let (x, a) := if m.act.getLsbD e then unpkOne int m (m.lane e) v a else (0, a)
    let (l, a) := unpkAll int m (e + 1) r a
    (x :: l, a)

/-- The element bytes and scales of chunk `c` of a source with `n` element bytes; trap 0x34 for a chunk beyond it. -/
def chunkOf (f c e n : Nat) (bs : List Byte) : M (List Byte × List Byte) := do
  let w := fmtBits f
  trapIf (8 * n < w * (e * c + e)) 0x34
  let k := e / 32 * scaleBytes f
  return ((bs.drop (e * c * w / 8)).take (e * w / 8), ((bs.drop 256).drop (k * c)).take k)

/-- `vunpk`: `f` is the source format of a register or a queue. `half` is TYPE 2, fp16, which is for float formats only (R188): a
stream of an integer FORMAT raises trap 0x02 when the instruction executes (DESIGN CHOICE, log 61: the rule names no trap for it). -/
def execVUnpk (form : State → VForm) (x : VunpkArgs) (f : Nat) (half : Bool) (s : State) :
    Host.Outcome State Fault Refusal :=
  let m := form s
  let off : M Flow := match x.a with
    | .port (.g n) => do
      skipStream .v n x.keep
      dropDst .v x.d
      return .go
    | _ => dropAll .v [x.a] [x.d]
  issue .v m.words x.pred false off (thenGo do
    banksHeld [x.a, x.d]
    let b ← getBlk
    let (f, n, bs, tbl) ← match x.a with
      | .port (.g n) => do
        let y := b.streams[n]
        let bs ← readStream .v n x.keep
        pure (y.format, y.vbytes, bs, (b.cts[y.ct]).live)
      | o => do
        let v ← readV 32 o
        pure (f, 256, vecBytes v, Vector.replicate 16 0)
    trapIf (half && codeInt f) 0x02
    let (part, scales) ← chunkOf f x.chunk.val m.n n bs
    let (vals, bad) := formatValues f (m.ctl.ftz && !codeInt f) tbl part scales
    if bad then setSt stFMT
    let r ← numeric (unpkAll (codeInt f) m 0 vals)
    writeV m.w m.act x.d r
    portOrder .v [x.a] [x.d]) s

/-! ## Reductions and scans (R73, R190, R191) -/

/-- Whether a reduction operation is on floats. -/
def redFloat : RedOp → Bool
  | .fadd => true
  | .fmin => true
  | .fmax => true
  | _ => false

/-- The identity of an operation at the element width (R73). -/
def redIdent (m : VForm) : RedOp → Nat
  | .add => 0
  | .band => 2 ^ m.w - 1
  | .bor => 0
  | .bxor => 0
  | .min => 2 ^ (m.w - 1) - 1
  | .max => 2 ^ (m.w - 1)
  | .minu => 2 ^ m.w - 1
  | .maxu => 0
  | .fadd => m.fmt.signBit true
  | .fmin => m.fmt.infCode
  | .fmax => m.fmt.signBit true + m.fmt.infCode

/-- A combining step. -/
def redStep (op : RedOp) : ElemOp :=
  match op with
  | .add => vaddOp
  | .band => vandOp
  | .bor => vorOp
  | .bxor => vxorOp
  | .min => vminOp
  | .max => vmaxOp
  | .minu => bitElem fun _ x y => if y < x then y else x
  | .maxu => bitElem fun _ x y => if x < y then y else x
  | .fadd => vfaddOp
  | .fmin => fltElem fun _ x y _ => Val.pickMin x y
  | .fmax => fltElem fun _ x y _ => Val.pickMax x y

/-- One level of the tree: neighbours combined, the step that writes x[j] drawing lane j mod 64 (R71). A step with the identity of an
inactive element is performed, and draws (log 43). -/
def treeLevel (m : VForm) (op : RedOp) : Nat → List Nat → NumSt → List Nat × NumSt
  | j, x :: y :: r, a =>
    let (v, a) := redStep op m (j % 64) x y 0 a
    let (l, a) := treeLevel m op (j + 1) r a
    (v :: l, a)
  | _, l, a => (l, a)

/-- The tree, level by level. -/
def treeReduce (m : VForm) (op : RedOp) : Nat → List Nat → NumSt → Nat × NumSt
  | 0, l, a => (l[0]?.getD 0, a)
  | n + 1, l, a =>
    let (l, a) := treeLevel m op 0 l a
    treeReduce m op n l a

/-- Levels of the tree over the elements of a width. -/
def treeDepth (w : Nat) : Nat := if w = 32 then 6 else if w = 16 then 7 else 8

/-- Elements with the identity in the place of inactive ones. -/
def identElems (m : VForm) (op : RedOp) (l : List Nat) : List Nat :=
  l.zipIdx.map fun x => if m.act.getLsbD x.2 then x.1 else redIdent m op

/-- A reduction's result as a scalar-queue entry. -/
def redEntry (w : Nat) (op : RedOp) (r : Nat) : Dword :=
  match op with
  | .add => BitVec.ofInt 64 (signedOf w r)
  | .min => BitVec.ofInt 64 (signedOf w r)
  | .max => BitVec.ofInt 64 (signedOf w r)
  | _ => BitVec.ofNat 64 r

/-- `vred`. -/
def execVRed (form : State → VForm) (x : VredArgs) (s : State) : Host.Outcome State Fault Refusal :=
  let m := form s
  issue .v m.words x.pred false (dropAll .v [x.a] [x.d]) (thenGo do
    banksHeld [x.a, x.d]
    let a ← readV m.w x.a
    let r ← numeric (treeReduce m x.op (treeDepth m.w) (identElems m x.op (elems m.w a)))
    match x.d with
    | .port (.q n) => pushQ .v n (redEntry m.w x.op r)
    | d => writeVec d (ofElems m.w [r])
    portOrder .v [x.a] [x.d]) s

/-- The scan's outputs in order. The step at an inactive element is performed, with the identity, and draws (R71; log 43). -/
def scanFrom (m : VForm) (op : RedOp) (excl : Bool) : Nat → Nat → List Nat → NumSt → List Nat × NumSt
  | _, _, [], a => ([], a)
  | e, acc, x :: r, a =>
    let (v, a) := redStep op m (m.lane e) acc x 0 a
    let (l, a) := scanFrom m op excl (e + 1) v r a
    ((if excl then acc else v) :: l, a)

/-- `vscan`. -/
def execVScan (form : State → VForm) (x : VscanArgs) (s : State) : Host.Outcome State Fault Refusal :=
  let m := form s
  issue .v m.words x.pred false (dropAll .v [x.a] [x.d]) (thenGo do
    banksHeld [x.a, x.d]
    let a ← readV m.w x.a
    let r ← numeric (scanFrom m x.op x.excl 0 (redIdent m x.op) (identElems m x.op (elems m.w a)))
    writeV m.w m.act x.d r
    portOrder .v [x.a] [x.d]) s

/-! ## Permutations and votes (R192, R193) -/

/-- `vperm`. -/
def execVPerm (form : State → VForm) (x : RArgs) (s : State) : Host.Outcome State Fault Refusal :=
  let m := form s
  issue .v m.words x.pred false (dropAll .v [x.a, x.b] [x.d]) (thenGo do
    banksHeld [x.a, x.b, x.d]
    let a ← readV m.w x.a
    let b ← readV m.w x.b
    writeV m.w m.act x.d ((elems m.w b).map fun i => elem m.w a (i % m.n))
    portOrder .v [x.a, x.b] [x.d]) s

/-- `vbcast`. -/
def execVBcast (form : State → VForm) (x : IdxArgs) (s : State) : Host.Outcome State Fault Refusal :=
  let m := form s
  issue .v m.words x.pred false (dropAll .v [x.a] [x.d]) (thenGo do
    banksHeld [x.a, x.d]
    let a ← readV m.w x.a
    writeV m.w m.act x.d (List.replicate m.n (elem m.w a x.idx.val))
    portOrder .v [x.a] [x.d]) s

/-- The running counts of set bits below each of `n` bits. -/
def bitsBelow (k : Mask) : Nat → Nat → Nat → List Nat
  | 0, _, _ => []
  | n + 1, e, c => c :: bitsBelow k n (e + 1) (if k.getLsbD e then c + 1 else c)

/-- `viota`. -/
def execVIota (form : State → VForm) (x : ViotaArgs) (s : State) : Host.Outcome State Fault Refusal :=
  let m := form s
  issue .v m.words x.pred false (dropAll .v [] [x.d]) (thenGo do
    banksHeld [x.d]
    writeV m.w m.act x.d (bitsBelow ((← getBlk).mask x.vm) m.n 0 0)
    portOrder .v [] [x.d]) s

/-- `vext`: an inactive element is pushed as zero (R177). -/
def execVExt (form : State → VForm) (x : IdxArgs) (s : State) : Host.Outcome State Fault Refusal :=
  let m := form s
  issue .v m.words x.pred false (dropAll .v [x.a] [x.d]) (thenGo do
    banksHeld [x.a]
    let a ← readV m.w x.a
    match x.d with
    | .port (.q n) =>
      pushQ .v n (BitVec.ofNat 64 (if m.act.getLsbD x.idx.val then elem m.w a x.idx.val else 0))
    | _ => trap 0x02
    portOrder .v [x.a] [x.d]) s

/-- A vote over the low bits of a mask. -/
def execVote (x : VoteArgs) (f : List Bool → Bool) (s : State) : Host.Outcome State Fault Refusal :=
  issue .v 1 x.pred false skip (thenGo do
    let k := (← getBlk).mask x.vm
    let r := f ((List.range (64 * 2 ^ x.width.val)).map fun e => k.getLsbD e)
    match x.d with
    | .gs n => modBlk fun b => b.setGuard n r
    | .p n => modStr .v fun st => st.setPred n r) s

end Sys2Proof.Machine
end

