-- ==== Sys2Proof/Machine/VMem.lean ====
section
/-! DEFINITION. The v strand's memory instructions (R136, R139, R194 to R197), bank lending (R40, R198) and control
(R199). -/

namespace Sys2Proof.Machine

/-- The base address of a v memory instruction: lanes 1 and 0 of a vector, or a whole scalar-queue entry (R194). -/
def readBase : Opd → M Nat
  | .port (.q n) => do return (← popQ n).toNat
  | .port (.g _) => trap 0x02
  | o => do
    let v ← readV 32 o
    return (laneDword v).toNat

/-- The address at a signed offset. -/
def plusOff (a : Nat) (off : Int) : Nat := (BitVec.ofNat 64 a + BitVec.ofInt 64 off).toNat

/-- The lane group of an element. -/
def VForm.group (m : VForm) (e : Nat) : Nat := m.lane e / 8

/-- A trap of a lane access in a lane group k ≥ 1 of a round marks slot k failed, and the lane reads zero or writes
nothing (R139). -/
def laneAccess {α : Type} (k : Nat) (zero : α) (x : M α) : M α := do
  let sc := (← getBlk).scout
  if k = 0 || !sc.buffering then x
  else
    match ← attempt x with
    | .ok y => return y
    | .error _ =>
      modBlk fun b => { b with scout := { b.scout with failed := if b.scout.failed.contains k then b.scout.failed
                                                                  else k :: b.scout.failed } }
      return zero

/-- The acquire or release of an access of `n` bytes at each of several places, the acquires first: dropped, with STATUS.SCX, where
the scope does not hold every home (R55, R58). -/
def orderAt (o : Ord) (ps : List Nat) (n : Nat) : M Unit := do
  if (o.acq || o.rel) && !ps.isEmpty then
    let s ← getS
    if ps.all fun p => s.inScope o.scope p then
      let l := ps.map fun p => locOf p n
      if o.acq then modS fun s => l.foldl (fun s x => s.acquire .v x o.scope) s
      if o.rel then modS fun s => s.releaseOf s.blk (.strand s.blk.uid .v) l o.scope
    else setSt stSCX

/-- An address aligned to an element, or trap 0x33 (R194, R195). -/
def elemAligned (m : VForm) (a : Nat) : M Unit := do
  if a % (m.w / 8) ≠ 0 then trapAt 0x33 a

/-! ## Elements in memory (R194, R195)

The fault at the lowest address is raised, and then nothing is written or delivered (R194, R263). -/

/-- The active elements of a form, each with its address. -/
def VForm.active {α : Type} (m : VForm) (l : List α) : List (α × Nat) := l.zipIdx.filter fun x => m.act.getLsbD x.2

/-- What a load reads: in a round each lane group sees its own slot (R136). -/
abbrev LoadKey := Nat × Nat

/-- The key of an element's address. -/
def VForm.key (m : VForm) (x : Scout) (a e : Nat) : LoadKey := (if x.buffering then m.group e else 0, a)

/-- One address read: the value, and the physical address. -/
def loadElem (m : VForm) (k : LoadKey) : M (Nat × Option Nat) :=
  laneAccess k.1 (0, none) do
    elemAligned m k.2
    let v ← loadAs (.lanes k.1) false k.2 (m.w / 8)
    return (leNat v, some (← aside (translate .read false true k.2)))

/-- The addresses that the active elements name, read in ascending order of elements. A repeated element is read once and delivered to
every element that names it (R195). -/
def loadElems (m : VForm) (addrs : List Nat) : M (List (LoadKey × Nat × Option Nat)) := do
  let x := (← getBlk).scout
  let keys := ((m.active addrs).map fun y => m.key x y.1 y.2).eraseDups
  return keys.zip (← readTogether (each (loadElem m) keys))

/-- The values that a load delivers, inactive elements as 0. -/
def VForm.loaded (m : VForm) (x : Scout) (addrs : List Nat) (got : List (LoadKey × Nat × Option Nat)) : List Nat :=
  addrs.zipIdx.map fun y => if m.act.getLsbD y.2 then (((got.lookup (m.key x y.1 y.2)).map fun v => v.1).getD 0) else 0

/-- The parts of a load outside the own slice that may still be read late: address, physical address and elements (log 7). -/
def VForm.lateParts (m : VForm) (s : State) (addrs : List Nat) (got : List (LoadKey × Nat × Option Nat)) :
    List (Nat × Nat × List Nat) :=
  got.filterMap fun y => match y.2.2 with
    | some p => if s.ownSlice p then none
        else some (y.1.2, p, ((m.active addrs).filter fun z => z.1 == y.1.2).map fun z => z.2)
    | none => none

/-- One element stored: its address and physical address, none where its lane group's slot has failed. -/
def storeElem (m : VForm) (x : (Nat × Nat) × Nat) : M (Option (Nat × Nat)) :=
  laneAccess (m.group x.2) none do
    elemAligned m x.1.1
    return some (x.1.1, ← storeAs (.lanes (m.group x.2)) false x.1.1 (leBytes (m.w / 8) x.1.2))

/-- Active elements stored at their addresses in ascending order: the highest element index stands (R195). -/
def storeElems (m : VForm) (l : List (Nat × Nat)) : M (List (Nat × Nat)) := do
  return (← each (storeElem m) (m.active l)).filterMap id

/-- A store of contiguous elements that holds every byte of a 64-byte unit of main memory is a write of the whole unit, which clears
its poison (R309). The stores of a round, written back element by element, do not (DESIGN CHOICE, log 61). -/
def State.wholeUnits (s : State) (w : Nat) (ps : List (Nat × Nat)) : State :=
  let l := (ps.filter fun x => isDram x.2 && s.blk.scout.direct (.lanes 0) x.1).map fun x => x.2 / 64
  { s with poison := s.poison.filter fun u => l.count u * w != 64 }

/-- Deliver loaded elements: at once from the block's own slice or into a stream, otherwise on response (R104). -/
def deliverV (m : VForm) (d : Opd) (now : Bool) (late : Option Nat) (new : List Nat) : M Unit :=
  match d with
  | .reg n => do
    scoreboard .v d
    let old := (← getBlk).v[n]
    if now then writeV m.w m.act d new
    else defer { eng := .v, dst := d, sval := 0, late := late,
                 vval := ofElems m.w (mergeElems m.act (elems m.w old) new) }
  | .port (.vq _) =>
    if now then writeV m.w m.act d new
    else defer { eng := .v, dst := d, sval := 0, late := late,
                 vval := ofElems m.w (mergeElems m.act (List.replicate m.n 0) new) }
  | _ => writeV m.w m.act d new

/-- Contiguous element addresses. -/
def runAddrs (m : VForm) (ea : Nat) : List Nat := (List.range m.n).map fun e => plusOff ea (e * (m.w / 8) : Nat)

/-- Indexed element addresses: indices are signed integers of the element width (R195). -/
def idxAddrs (m : VForm) (ea : Nat) (b : VReg) : List Nat :=
  (elems m.w b).map fun i => plusOff ea (signedOf m.w i * (m.w / 8))

/-- A load of elements at addresses formed from the base and the index image. -/
def execVLoad (form : State → VForm) (p : Pred) (d a : Opd) (b : Option Opd) (off : Int) (s : State) :
    Host.Outcome State Fault Refusal :=
  let m := form s
  let src := a :: b.toList
  issue .v m.words p false (dropAll .v src [d]) (thenGo do
    let o := (← latch .v).order
    roundScope o
    banksHeld (d :: src)
    let ea := plusOff (← readBase a) off
    let addrs ← match b with
      | none => do
        elemAligned m ea
        pure (runAddrs m ea)
      | some q => do
        let i ← readV m.w q
        pure (idxAddrs m ea i)
    portAcquire .v src
    let got ← loadElems m addrs
    let ps := got.filterMap fun y => y.2.2
    orderAt (loadOrd o) ps (m.w / 8)
    let s ← getS
    let late ← match d with
      | .port (.g _) => pure none
      | _ => keepRead .v o (m.w / 8) (m.lateParts s addrs got)
    deliverV m d (ps.all fun q => s.ownSlice q) late (m.loaded s.blk.scout addrs got)
    portRelease .v [d]) s

/-- A store of elements. -/
def execVStore (form : State → VForm) (p : Pred) (d a : Opd) (b : Option Opd) (off : Int) (s : State) :
    Host.Outcome State Fault Refusal :=
  let m := form s
  let src := a :: b.toList ++ [d]
  issue .v m.words p false (dropAll .v src []) (thenGo do
    let o := (← latch .v).order
    roundScope o
    banksHeld src
    let ea := plusOff (← readBase a) off
    let addrs ← match b with
      | none => do
        elemAligned m ea
        pure (runAddrs m ea)
      | some q => do
        let i ← readV m.w q
        pure (idxAddrs m ea i)
    let v ← readV m.w d
    portAcquire .v src
    let ps ← storeElems m (addrs.zip (elems m.w v))
    if b.isNone then modS fun s => s.wholeUnits (m.w / 8) ps
    orderAt (storeOrd o) (ps.map fun x => x.2) (m.w / 8)) s

/-! ## `vamo` (R196) -/

/-- The new value of a lane's atomic. -/
def vamoNew (m : VForm) (op : AmoOp) (old b : Nat) : Nat :=
  match op with
  | .fadd => m.fmt.addRne old b
  | _ => amoNew op m.w old b 0

/-- Apply the operation to active elements in ascending order: old values, and physical addresses. R196 lets the home apply them in
any order, and makes each atomic alone; here no other atomic falls between them (DESIGN CHOICE, log 61). -/
def amoElems (m : VForm) (op : AmoOp) (ea : Nat) : Nat → List Nat → M (List Nat × List Nat)
  | _, [] => pure ([], [])
  | e, b :: r => do
    let (v, ps) ←
      if m.act.getLsbD e then do
        let (old, p) ← byStrand .v (m.w / 8)
          (rmw true (ea + e * (m.w / 8)) (m.w / 8) false false (fun old => vamoNew m op old b) b)
        if op = .fadd then noteNan m.fmt (vamoNew m op old b)
        pure (old, [p])
      else pure (0, [])
    let (l, qs) ← amoElems m op ea (e + 1) r
    return (v :: l, ps ++ qs)

/-- Elements of a `vamo`: 32 bytes. -/
def VForm.amoN (m : VForm) : Nat := 256 / m.w

/-- The mask under which `vamo` writes D: elements above its own are written as zero. -/
def VForm.amoAct (m : VForm) : Mask := m.act ||| (BitVec.allOnes 256 <<< m.amoN)

/-- `vamo`: the operations apply at the home, and the strand waits for its response. -/
def execVAmo (form : State → VForm) (x : RArgs) (op : AmoOp) (off : Int) (s : State) :
    Host.Outcome State Fault Refusal :=
  let m := form s
  issue .v m.words x.pred false (dropAll .v [x.a, x.b] [x.d]) (do
    barRound
    let o := (← latch .v).order
    banksHeld [x.d, x.a, x.b]
    let ea := plusOff (← readBase x.a) off
    let b ← readV m.w x.b
    if ea % 32 ≠ 0 then trapAt 0x33 ea
    match x.d with
    | .port (.g g) => checkAppend .v g
    | _ => scoreboard .v x.d
    portAcquire .v [x.a, x.b]
    let (old, ps) ← amoElems m op ea 0 ((elems m.w b).take m.amoN)
    orderAt o ps (m.w / 8)
    let base ← match x.d with
      | .reg n => do
        let y ← getBlk
        pure (elems m.w (y.v[n]))
      | .port _ => pure (List.replicate m.n 0)
    let new := old ++ List.replicate (m.n - m.amoN) 0
    let img := ofElems m.w (mergeElems m.amoAct base new)
    match ps with
    | [] =>
      writeVec x.d img
      portRelease .v [x.d]
      return .go
    | p :: _ => return .wait (.atomic { dst := x.d, old := img, home := homeOf p, addr := ea })) s

/-! ## Banks and control (R198, R199) -/

/-- Whether a v result in flight targets a bank. -/
def Block.bankPending (b : Block) (k : Fin 8) : Bool :=
  b.inflight.any fun x => x.eng == .v && (match x.dst with
    | .reg n => bankOf n == k
    | .port _ => false)

/-- `v.blend` (R40, R198). -/
def execVBlend (x : BlendArgs) (s : State) : Host.Outcome State Fault Refusal :=
  issue .v 1 x.pred false skip (thenGo do
    let b ← getBlk
    let e : Eng := match x.who with
      | .m => .m
      | .d => .d
    trapIf (!hasEng b.die e || b.holders[x.bank] != .v) 0x0A
    waitUntil (!b.bankPending x.bank)
    let h : Holder := match x.who with
      | .m => .m
      | .d => .d
    modBlk fun b => { b with holders := b.holders.set x.bank h }) s

/-- `v.jt` (R199). -/
def execVJt (x : JtArgs) (s : State) : Host.Outcome State Fault Refusal := execJt .v x s

/-- `v.ptgt` (R199). -/
def execVPtgt (x : PtgtLArgs) (s : State) : Host.Outcome State Fault Refusal := execPtgtL .v x s

end Sys2Proof.Machine
end

