-- ==== Sys2Proof/Machine/Vector.lean ====
section
/-! DEFINITION. The v instructions one by one (R175 to R197): each is one call of a shared shape with its form and its
element operation. -/

namespace Sys2Proof.Machine

/-- `v.vadd`, P0 (R180): A + B. -/
def execVVadd (x : RArgs) (s : State) : Host.Outcome State Fault Refusal :=
  execV2 formP0 x vaddOp s

/-- `v.vsub`, P0 (R180): A - B. -/
def execVVsub (x : RArgs) (s : State) : Host.Outcome State Fault Refusal :=
  execV2 formP0 x vsubOp s

/-- `v.vmul`, P0 (R180): low bits of A·B. -/
def execVVmul (x : RArgs) (s : State) : Host.Outcome State Fault Refusal :=
  execV2 formP0 x vmulOp s

/-- `v.vmad`, P0 (R180): A·B + D. -/
def execVVmad (x : RArgs) (s : State) : Host.Outcome State Fault Refusal :=
  execV3 formP0 x vmadOp s

/-- `v.vand`, P0 (R180): and. -/
def execVVand (x : RArgs) (s : State) : Host.Outcome State Fault Refusal :=
  execV2 formP0 x vandOp s

/-- `v.vor`, P0 (R180): or. -/
def execVVor (x : RArgs) (s : State) : Host.Outcome State Fault Refusal :=
  execV2 formP0 x vorOp s

/-- `v.vxor`, P0 (R180): exclusive or. -/
def execVVxor (x : RArgs) (s : State) : Host.Outcome State Fault Refusal :=
  execV2 formP0 x vxorOp s

/-- `v.vshl`, P0 (R180): shift left. -/
def execVVshl (x : RArgs) (s : State) : Host.Outcome State Fault Refusal :=
  execV2 formP0 x vshlOp s

/-- `v.vshr`, P0 (R180): shift right, zeros in. -/
def execVVshr (x : RArgs) (s : State) : Host.Outcome State Fault Refusal :=
  execV2 formP0 x vshrOp s

/-- `v.vsar`, P0 (R180): shift right, sign in. -/
def execVVsar (x : RArgs) (s : State) : Host.Outcome State Fault Refusal :=
  execV2 formP0 x vsarOp s

/-- `v.vmin`, P0 (R180): signed minimum. -/
def execVVmin (x : RArgs) (s : State) : Host.Outcome State Fault Refusal :=
  execV2 formP0 x vminOp s

/-- `v.vmax`, P0 (R180): signed maximum. -/
def execVVmax (x : RArgs) (s : State) : Host.Outcome State Fault Refusal :=
  execV2 formP0 x vmaxOp s

/-- `v.vabs`, P0 (R180): absolute value. -/
def execVVabs (x : UArgs) (s : State) : Host.Outcome State Fault Refusal :=
  execV1 formP0 x vabsOp s

/-- `v.vcmp`, P0 (R182). -/
def execVVcmp (x : CmpArgs) (s : State) : Host.Outcome State Fault Refusal :=
  execVCmp formP0 x (vrel x.rel) s

/-- `v.vsel`, P0 (R182). -/
def execVVsel (x : VselArgs) (s : State) : Host.Outcome State Fault Refusal :=
  execVSel formP0 x s

/-- `v.vfadd`, P0 (R183): A + B. -/
def execVVfadd (x : RArgs) (s : State) : Host.Outcome State Fault Refusal :=
  execV2 formP0 x vfaddOp s

/-- `v.vfsub`, P0 (R183): A - B. -/
def execVVfsub (x : RArgs) (s : State) : Host.Outcome State Fault Refusal :=
  execV2 formP0 x vfsubOp s

/-- `v.vfmul`, P0 (R183): A·B. -/
def execVVfmul (x : RArgs) (s : State) : Host.Outcome State Fault Refusal :=
  execV2 formP0 x vfmulOp s

/-- `v.vfma`, P0 (R183): A·B + D, rounded once. -/
def execVVfma (x : RArgs) (s : State) : Host.Outcome State Fault Refusal :=
  execV3 formP0 x vfmaOp s

/-- `v.vfmin`, P0 (R183): minimum. -/
def execVVfmin (x : RArgs) (s : State) : Host.Outcome State Fault Refusal :=
  execV2 formP0 x vfminOp s

/-- `v.vfmax`, P0 (R183): maximum. -/
def execVVfmax (x : RArgs) (s : State) : Host.Outcome State Fault Refusal :=
  execV2 formP0 x vfmaxOp s

/-- `v.vfcmp`, P0 (R183). -/
def execVVfcmp (x : CmpArgs) (s : State) : Host.Outcome State Fault Refusal :=
  execVCmp formP0 x (vfrel x.rel) s

/-- `v.vrcp`, P0 (R183): 1/A. -/
def execVVrcp (x : UArgs) (s : State) : Host.Outcome State Fault Refusal :=
  execV1 formP0 x vrcpOp s

/-- `v.vrsq`, P0 (R183): 1/√A. -/
def execVVrsq (x : UArgs) (s : State) : Host.Outcome State Fault Refusal :=
  execV1 formP0 x vrsqOp s

/-- `v.vexp2`, P0 (R183): 2^A. -/
def execVVexp2 (x : UArgs) (s : State) : Host.Outcome State Fault Refusal :=
  execV1 formP0 x vexp2Op s

/-- `v.vlog2`, P0 (R183): log2 A. -/
def execVVlog2 (x : UArgs) (s : State) : Host.Outcome State Fault Refusal :=
  execV1 formP0 x vlog2Op s

/-- `v.vcvt`, P0 (R185). -/
def execVVcvt (x : VcvtArgs) (s : State) : Host.Outcome State Fault Refusal :=
  execV1 formP0 { pred := x.pred, d := x.d, a := x.a } (cvtOp x.src x.dst) s

/-- `v.vpack`, P0 (R186). -/
def execVVpack (x : RArgs) (s : State) : Host.Outcome State Fault Refusal :=
  execVPack formP0 x 4 0 s

/-- `v.vunpk`, P0 (R188). -/
def execVVunpk (x : VunpkArgs) (s : State) : Host.Outcome State Fault Refusal :=
  execVUnpk formP0 x 4 false s

/-- `v.vscale`, P0 (R189): A·2^B. -/
def execVVscale (x : RArgs) (s : State) : Host.Outcome State Fault Refusal :=
  execV2 formP0 x vscaleOp s

/-- `v.vred`, P0 (R190). -/
def execVVred (x : VredArgs) (s : State) : Host.Outcome State Fault Refusal :=
  execVRed formP0 x s

/-- `v.vscan`, P0 (R191). -/
def execVVscan (x : VscanArgs) (s : State) : Host.Outcome State Fault Refusal :=
  execVScan formP0 x s

/-- `v.vperm`, P0 (R192). -/
def execVVperm (x : RArgs) (s : State) : Host.Outcome State Fault Refusal :=
  execVPerm formP0 x s

/-- `v.vbcast`, P0 (R192). -/
def execVVbcast (x : IdxArgs) (s : State) : Host.Outcome State Fault Refusal :=
  execVBcast formP0 x s

/-- `v.viota`, P0 (R192). -/
def execVViota (x : ViotaArgs) (s : State) : Host.Outcome State Fault Refusal :=
  execVIota formP0 x s

/-- `v.vext`, P0 (R192). -/
def execVVext (x : IdxArgs) (s : State) : Host.Outcome State Fault Refusal :=
  execVExt formP0 x s

/-- `v.vld`, P0 (R194). -/
def execVVld (x : UArgs) (s : State) : Host.Outcome State Fault Refusal :=
  execVLoad formP0 x.pred x.d x.a none 0 s

/-- `v.vst`, P0 (R194). -/
def execVVst (x : UArgs) (s : State) : Host.Outcome State Fault Refusal :=
  execVStore formP0 x.pred x.d x.a none 0 s

/-- `v.vldx`, P0 (R195). -/
def execVVldx (x : RArgs) (s : State) : Host.Outcome State Fault Refusal :=
  execVLoad formP0 x.pred x.d x.a (some x.b) 0 s

/-- `v.vstx`, P0 (R195). -/
def execVVstx (x : RArgs) (s : State) : Host.Outcome State Fault Refusal :=
  execVStore formP0 x.pred x.d x.a (some x.b) 0 s

/-- `v.vamo`, P0 (R196). -/
def execVVamo (x : RArgs) (s : State) : Host.Outcome State Fault Refusal :=
  execVAmo formP0 x .fadd 0 s

/-- `v.vadd`, P1 (R180): A + B. -/
def execVVaddP1 (x : RArgs) (s : State) : Host.Outcome State Fault Refusal :=
  execV2 formP1 x vaddOp s

/-- `v.vsub`, P1 (R180): A - B. -/
def execVVsubP1 (x : RArgs) (s : State) : Host.Outcome State Fault Refusal :=
  execV2 formP1 x vsubOp s

/-- `v.vmul`, P1 (R180): low bits of A·B. -/
def execVVmulP1 (x : RArgs) (s : State) : Host.Outcome State Fault Refusal :=
  execV2 formP1 x vmulOp s

/-- `v.vmad`, P1 (R180): A·B + D. -/
def execVVmadP1 (x : RArgs) (s : State) : Host.Outcome State Fault Refusal :=
  execV3 formP1 x vmadOp s

/-- `v.vshl`, P1 (R180): shift left. -/
def execVVshlP1 (x : RArgs) (s : State) : Host.Outcome State Fault Refusal :=
  execV2 formP1 x vshlOp s

/-- `v.vshr`, P1 (R180): shift right, zeros in. -/
def execVVshrP1 (x : RArgs) (s : State) : Host.Outcome State Fault Refusal :=
  execV2 formP1 x vshrOp s

/-- `v.vsar`, P1 (R180): shift right, sign in. -/
def execVVsarP1 (x : RArgs) (s : State) : Host.Outcome State Fault Refusal :=
  execV2 formP1 x vsarOp s

/-- `v.vmin`, P1 (R180): signed minimum. -/
def execVVminP1 (x : RArgs) (s : State) : Host.Outcome State Fault Refusal :=
  execV2 formP1 x vminOp s

/-- `v.vmax`, P1 (R180): signed maximum. -/
def execVVmaxP1 (x : RArgs) (s : State) : Host.Outcome State Fault Refusal :=
  execV2 formP1 x vmaxOp s

/-- `v.vabs`, P1 (R180): absolute value. -/
def execVVabsP1 (x : UArgs) (s : State) : Host.Outcome State Fault Refusal :=
  execV1 formP1 x vabsOp s

/-- `v.vcmp`, P1 (R182). -/
def execVVcmpP1 (x : CmpArgs) (s : State) : Host.Outcome State Fault Refusal :=
  execVCmp formP1 x (vrel x.rel) s

/-- `v.vsel`, P1 (R182). -/
def execVVselP1 (x : VselArgs) (s : State) : Host.Outcome State Fault Refusal :=
  execVSel formP1 x s

/-- `v.vfadd`, P1 (R183): A + B. -/
def execVVfaddP1 (x : RArgs) (s : State) : Host.Outcome State Fault Refusal :=
  execV2 formP1 x vfaddOp s

/-- `v.vfsub`, P1 (R183): A - B. -/
def execVVfsubP1 (x : RArgs) (s : State) : Host.Outcome State Fault Refusal :=
  execV2 formP1 x vfsubOp s

/-- `v.vfmul`, P1 (R183): A·B. -/
def execVVfmulP1 (x : RArgs) (s : State) : Host.Outcome State Fault Refusal :=
  execV2 formP1 x vfmulOp s

/-- `v.vfma`, P1 (R183): A·B + D, rounded once. -/
def execVVfmaP1 (x : RArgs) (s : State) : Host.Outcome State Fault Refusal :=
  execV3 formP1 x vfmaOp s

/-- `v.vfmin`, P1 (R183): minimum. -/
def execVVfminP1 (x : RArgs) (s : State) : Host.Outcome State Fault Refusal :=
  execV2 formP1 x vfminOp s

/-- `v.vfmax`, P1 (R183): maximum. -/
def execVVfmaxP1 (x : RArgs) (s : State) : Host.Outcome State Fault Refusal :=
  execV2 formP1 x vfmaxOp s

/-- `v.vfcmp`, P1 (R183). -/
def execVVfcmpP1 (x : CmpArgs) (s : State) : Host.Outcome State Fault Refusal :=
  execVCmp formP1 x (vfrel x.rel) s

/-- `v.vrcp`, P1 (R183): 1/A. -/
def execVVrcpP1 (x : UArgs) (s : State) : Host.Outcome State Fault Refusal :=
  execV1 formP1 x vrcpOp s

/-- `v.vrsq`, P1 (R183): 1/√A. -/
def execVVrsqP1 (x : UArgs) (s : State) : Host.Outcome State Fault Refusal :=
  execV1 formP1 x vrsqOp s

/-- `v.vexp2`, P1 (R183): 2^A. -/
def execVVexp2P1 (x : UArgs) (s : State) : Host.Outcome State Fault Refusal :=
  execV1 formP1 x vexp2Op s

/-- `v.vlog2`, P1 (R183): log2 A. -/
def execVVlog2P1 (x : UArgs) (s : State) : Host.Outcome State Fault Refusal :=
  execV1 formP1 x vlog2Op s

/-- `v.vunpk`, P1 (R188). -/
def execVVunpkP1 (x : VunpkArgs) (s : State) : Host.Outcome State Fault Refusal :=
  execVUnpk formP1 x 6 false s

/-- `v.vred`, P1 (R190). -/
def execVVredP1 (x : VredArgs) (s : State) : Host.Outcome State Fault Refusal :=
  execVRed formP1 x s

/-- `v.vscan`, P1 (R191). -/
def execVVscanP1 (x : VscanArgs) (s : State) : Host.Outcome State Fault Refusal :=
  execVScan formP1 x s

/-- `v.vperm`, P1 (R192). -/
def execVVpermP1 (x : RArgs) (s : State) : Host.Outcome State Fault Refusal :=
  execVPerm formP1 x s

/-- `v.vbcast`, P1 (R192). -/
def execVVbcastP1 (x : IdxArgs) (s : State) : Host.Outcome State Fault Refusal :=
  execVBcast formP1 x s

/-- `v.viota`, P1 (R192). -/
def execVViotaP1 (x : ViotaArgs) (s : State) : Host.Outcome State Fault Refusal :=
  execVIota formP1 x s

/-- `v.vext`, P1 (R192). -/
def execVVextP1 (x : IdxArgs) (s : State) : Host.Outcome State Fault Refusal :=
  execVExt formP1 x s

/-- `v.vld`, P1 (R194). -/
def execVVldP1 (x : UArgs) (s : State) : Host.Outcome State Fault Refusal :=
  execVLoad formP1 x.pred x.d x.a none 0 s

/-- `v.vst`, P1 (R194). -/
def execVVstP1 (x : UArgs) (s : State) : Host.Outcome State Fault Refusal :=
  execVStore formP1 x.pred x.d x.a none 0 s

/-- `v.vldx`, P1 (R195). -/
def execVVldxP1 (x : RArgs) (s : State) : Host.Outcome State Fault Refusal :=
  execVLoad formP1 x.pred x.d x.a (some x.b) 0 s

/-- `v.vstx`, P1 (R195). -/
def execVVstxP1 (x : RArgs) (s : State) : Host.Outcome State Fault Refusal :=
  execVStore formP1 x.pred x.d x.a (some x.b) 0 s

/-- `v.vamo`, P1 (R196). -/
def execVVamoP1 (x : RArgs) (s : State) : Host.Outcome State Fault Refusal :=
  execVAmo formP1 x .fadd 0 s

/-- `v.vadd`, wide (R180): A + B. -/
def execVVaddW (x : RArgs) (e : VExt) (s : State) : Host.Outcome State Fault Refusal :=
  execV2 (formW e) x vaddOp s

/-- `v.vsub`, wide (R180): A - B. -/
def execVVsubW (x : RArgs) (e : VExt) (s : State) : Host.Outcome State Fault Refusal :=
  execV2 (formW e) x vsubOp s

/-- `v.vmul`, wide (R180): low bits of A·B. -/
def execVVmulW (x : RArgs) (e : VExt) (s : State) : Host.Outcome State Fault Refusal :=
  execV2 (formW e) x vmulOp s

/-- `v.vmad`, wide (R180): A·B + D. -/
def execVVmadW (x : RArgs) (e : VExt) (s : State) : Host.Outcome State Fault Refusal :=
  execV3 (formW e) x vmadOp s

/-- `v.vand`, wide (R180): and. -/
def execVVandW (x : RArgs) (e : VExt) (s : State) : Host.Outcome State Fault Refusal :=
  execV2 (formW e) x vandOp s

/-- `v.vor`, wide (R180): or. -/
def execVVorW (x : RArgs) (e : VExt) (s : State) : Host.Outcome State Fault Refusal :=
  execV2 (formW e) x vorOp s

/-- `v.vxor`, wide (R180): exclusive or. -/
def execVVxorW (x : RArgs) (e : VExt) (s : State) : Host.Outcome State Fault Refusal :=
  execV2 (formW e) x vxorOp s

/-- `v.vshl`, wide (R180): shift left. -/
def execVVshlW (x : RArgs) (e : VExt) (s : State) : Host.Outcome State Fault Refusal :=
  execV2 (formW e) x vshlOp s

/-- `v.vshr`, wide (R180): shift right, zeros in. -/
def execVVshrW (x : RArgs) (e : VExt) (s : State) : Host.Outcome State Fault Refusal :=
  execV2 (formW e) x vshrOp s

/-- `v.vsar`, wide (R180): shift right, sign in. -/
def execVVsarW (x : RArgs) (e : VExt) (s : State) : Host.Outcome State Fault Refusal :=
  execV2 (formW e) x vsarOp s

/-- `v.vmin`, wide (R180): signed minimum. -/
def execVVminW (x : RArgs) (e : VExt) (s : State) : Host.Outcome State Fault Refusal :=
  execV2 (formW e) x vminOp s

/-- `v.vmax`, wide (R180): signed maximum. -/
def execVVmaxW (x : RArgs) (e : VExt) (s : State) : Host.Outcome State Fault Refusal :=
  execV2 (formW e) x vmaxOp s

/-- `v.vabs`, wide (R180): absolute value. -/
def execVVabsW (x : UArgs) (e : VExt) (s : State) : Host.Outcome State Fault Refusal :=
  execV1 (formW e) x vabsOp s

/-- `v.vcmp`, wide (R182). -/
def execVVcmpW (x : CmpArgs) (e : VExt) (s : State) : Host.Outcome State Fault Refusal :=
  execVCmp (formW e) x (vrel x.rel) s

/-- `v.vsel`, wide (R182). -/
def execVVselW (x : VselArgs) (e : VExt) (s : State) : Host.Outcome State Fault Refusal :=
  execVSel (formW e) x s

/-- `v.vfadd`, wide (R183): A + B. -/
def execVVfaddW (x : RArgs) (e : VExt) (s : State) : Host.Outcome State Fault Refusal :=
  execV2 (formW e) x vfaddOp s

/-- `v.vfsub`, wide (R183): A - B. -/
def execVVfsubW (x : RArgs) (e : VExt) (s : State) : Host.Outcome State Fault Refusal :=
  execV2 (formW e) x vfsubOp s

/-- `v.vfmul`, wide (R183): A·B. -/
def execVVfmulW (x : RArgs) (e : VExt) (s : State) : Host.Outcome State Fault Refusal :=
  execV2 (formW e) x vfmulOp s

/-- `v.vfma`, wide (R183): A·B + D, rounded once. -/
def execVVfmaW (x : RArgs) (e : VExt) (s : State) : Host.Outcome State Fault Refusal :=
  execV3 (formW e) x vfmaOp s

/-- `v.vfmin`, wide (R183): minimum. -/
def execVVfminW (x : RArgs) (e : VExt) (s : State) : Host.Outcome State Fault Refusal :=
  execV2 (formW e) x vfminOp s

/-- `v.vfmax`, wide (R183): maximum. -/
def execVVfmaxW (x : RArgs) (e : VExt) (s : State) : Host.Outcome State Fault Refusal :=
  execV2 (formW e) x vfmaxOp s

/-- `v.vfcmp`, wide (R183). -/
def execVVfcmpW (x : CmpArgs) (e : VExt) (s : State) : Host.Outcome State Fault Refusal :=
  execVCmp (formW e) x (vfrel x.rel) s

/-- `v.vrcp`, wide (R183): 1/A. -/
def execVVrcpW (x : UArgs) (e : VExt) (s : State) : Host.Outcome State Fault Refusal :=
  execV1 (formW e) x vrcpOp s

/-- `v.vrsq`, wide (R183): 1/√A. -/
def execVVrsqW (x : UArgs) (e : VExt) (s : State) : Host.Outcome State Fault Refusal :=
  execV1 (formW e) x vrsqOp s

/-- `v.vexp2`, wide (R183): 2^A. -/
def execVVexp2W (x : UArgs) (e : VExt) (s : State) : Host.Outcome State Fault Refusal :=
  execV1 (formW e) x vexp2Op s

/-- `v.vlog2`, wide (R183): log2 A. -/
def execVVlog2W (x : UArgs) (e : VExt) (s : State) : Host.Outcome State Fault Refusal :=
  execV1 (formW e) x vlog2Op s

/-- `v.vcvt`, wide (R185). -/
def execVVcvtW (x : VcvtArgs) (e : VExt) (s : State) : Host.Outcome State Fault Refusal :=
  execV1 (formW e) { pred := x.pred, d := x.d, a := x.a } (cvtOp x.src x.dst) s

/-- `v.vpack`, wide (R186). -/
def execVVpackW (x : RArgs) (e : VExt) (f : PackExt) (s : State) : Host.Outcome State Fault Refusal :=
  execVPack (formW e) x (if f.dfv then f.df.val else 4) f.hq.val s

/-- `v.vunpk`, wide (R188). -/
def execVVunpkW (x : VunpkArgs) (e : VExt) (f : UnpkExt) (s : State) : Host.Outcome State Fault Refusal :=
  execVUnpk (formW e) x (if f.sfv then f.sf.val else if e.ty = .t32 then 4 else 6) (e.ty == .tH) s

/-- `v.vscale`, wide (R189): A·2^B. -/
def execVVscaleW (x : RArgs) (e : VExt) (s : State) : Host.Outcome State Fault Refusal :=
  execV2 (formW e) x vscaleOp s

/-- `v.vred`, wide (R190). -/
def execVVredW (x : VredArgs) (e : VExt) (s : State) : Host.Outcome State Fault Refusal :=
  execVRed (formW e) x s

/-- `v.vscan`, wide (R191). -/
def execVVscanW (x : VscanArgs) (e : VExt) (s : State) : Host.Outcome State Fault Refusal :=
  execVScan (formW e) x s

/-- `v.vperm`, wide (R192). -/
def execVVpermW (x : RArgs) (e : VExt) (s : State) : Host.Outcome State Fault Refusal :=
  execVPerm (formW e) x s

/-- `v.vbcast`, wide (R192). -/
def execVVbcastW (x : IdxArgs) (e : VExt) (s : State) : Host.Outcome State Fault Refusal :=
  execVBcast (formW e) x s

/-- `v.viota`, wide (R192). -/
def execVViotaW (x : ViotaArgs) (e : VExt) (s : State) : Host.Outcome State Fault Refusal :=
  execVIota (formW e) x s

/-- `v.vext`, wide (R192). -/
def execVVextW (x : IdxArgs) (e : VExt) (s : State) : Host.Outcome State Fault Refusal :=
  execVExt (formW e) x s

/-- `v.vld`, wide (R194). -/
def execVVldW (x : UArgs) (e : VExt) (off : BitVec 16) (s : State) : Host.Outcome State Fault Refusal :=
  execVLoad (formW e) x.pred x.d x.a none off.toInt s

/-- `v.vst`, wide (R194). -/
def execVVstW (x : UArgs) (e : VExt) (off : BitVec 16) (s : State) : Host.Outcome State Fault Refusal :=
  execVStore (formW e) x.pred x.d x.a none off.toInt s

/-- `v.vldx`, wide (R195). -/
def execVVldxW (x : RArgs) (e : VExt) (off : BitVec 16) (s : State) : Host.Outcome State Fault Refusal :=
  execVLoad (formW e) x.pred x.d x.a (some x.b) off.toInt s

/-- `v.vstx`, wide (R195). -/
def execVVstxW (x : RArgs) (e : VExt) (off : BitVec 16) (s : State) : Host.Outcome State Fault Refusal :=
  execVStore (formW e) x.pred x.d x.a (some x.b) off.toInt s

/-- `v.vamo`, wide (R196). -/
def execVVamoW (x : RArgs) (e : VExt) (op : AmoOp) (off : BitVec 12) (s : State) : Host.Outcome State Fault Refusal :=
  execVAmo (formW e) x op off.toInt s

/-- `v.vany` (R193). -/
def execVVany (x : VoteArgs) (s : State) : Host.Outcome State Fault Refusal := execVote x (fun l => l.any id) s

/-- `v.vall` (R193). -/
def execVVall (x : VoteArgs) (s : State) : Host.Outcome State Fault Refusal := execVote x (fun l => l.all id) s

end Sys2Proof.Machine
end

