-- ==== Sys2Proof/Machine/Dispatch.lean ====
section
/-! DEFINITION. The meaning of every instruction and event: one arm per constructor of `Instr`. -/

namespace Sys2Proof.Machine

def exec (i : Instr) (s : State) : Host.Outcome State Fault Refusal :=
  match i with
  | .cAdd x => Sys2Proof.Machine.execCAdd x s
  | .cSub x => Sys2Proof.Machine.execCSub x s
  | .cMul x => Sys2Proof.Machine.execCMul x s
  | .cMulh x => Sys2Proof.Machine.execCMulh x s
  | .cMulhu x => Sys2Proof.Machine.execCMulhu x s
  | .cDiv x => Sys2Proof.Machine.execCDiv x s
  | .cDivu x => Sys2Proof.Machine.execCDivu x s
  | .cRem x => Sys2Proof.Machine.execCRem x s
  | .cRemu x => Sys2Proof.Machine.execCRemu x s
  | .cAnd x => Sys2Proof.Machine.execCAnd x s
  | .cOr x => Sys2Proof.Machine.execCOr x s
  | .cXor x => Sys2Proof.Machine.execCXor x s
  | .cAndn x => Sys2Proof.Machine.execCAndn x s
  | .cShl x => Sys2Proof.Machine.execCShl x s
  | .cShr x => Sys2Proof.Machine.execCShr x s
  | .cSar x => Sys2Proof.Machine.execCSar x s
  | .cRot x => Sys2Proof.Machine.execCRot x s
  | .cMin x => Sys2Proof.Machine.execCMin x s
  | .cMax x => Sys2Proof.Machine.execCMax x s
  | .cMinu x => Sys2Proof.Machine.execCMinu x s
  | .cMaxu x => Sys2Proof.Machine.execCMaxu x s
  | .cSel x => Sys2Proof.Machine.execCSel x s
  | .cBfx x => Sys2Proof.Machine.execCBfx x s
  | .cBfi x => Sys2Proof.Machine.execCBfi x s
  | .cClz x => Sys2Proof.Machine.execCClz x s
  | .cCtz x => Sys2Proof.Machine.execCCtz x s
  | .cPopc x => Sys2Proof.Machine.execCPopc x s
  | .cSext x => Sys2Proof.Machine.execCSext x s
  | .cZext x => Sys2Proof.Machine.execCZext x s
  | .cMov x => Sys2Proof.Machine.execCMov x s
  | .cCmp x => Sys2Proof.Machine.execCCmp x s
  | .cPand x => Sys2Proof.Machine.execCPand x s
  | .cPor x => Sys2Proof.Machine.execCPor x s
  | .cPnot x => Sys2Proof.Machine.execCPnot x s
  | .cFadd x => Sys2Proof.Machine.execCFadd x s
  | .cFsub x => Sys2Proof.Machine.execCFsub x s
  | .cFmul x => Sys2Proof.Machine.execCFmul x s
  | .cFma x => Sys2Proof.Machine.execCFma x s
  | .cFmin x => Sys2Proof.Machine.execCFmin x s
  | .cFmax x => Sys2Proof.Machine.execCFmax x s
  | .cFcvt x => Sys2Proof.Machine.execCFcvt x s
  | .cFcmp x => Sys2Proof.Machine.execCFcmp x s
  | .cPtgt x => Sys2Proof.Machine.execCPtgt x s
  | .cJt x => Sys2Proof.Machine.execCJt x s
  | .cJtl x => Sys2Proof.Machine.execCJtl x s
  | .cFence x => Sys2Proof.Machine.execCFence x s
  | .cTkset x => Sys2Proof.Machine.execCTkset x s
  | .cTkwait x => Sys2Proof.Machine.execCTkwait x s
  | .cTkclr x => Sys2Proof.Machine.execCTkclr x s
  | .cGset x => Sys2Proof.Machine.execCGset x s
  | .cGbar x => Sys2Proof.Machine.execCGbar x s
  | .cCsrr x => Sys2Proof.Machine.execCCsrr x s
  | .cCsrw x => Sys2Proof.Machine.execCCsrw x s
  | .cRclaim x => Sys2Proof.Machine.execCRclaim x s
  | .cRpub x => Sys2Proof.Machine.execCRpub x s
  | .cRwait x => Sys2Proof.Machine.execCRwait x s
  | .cRfree x => Sys2Proof.Machine.execCRfree x s
  | .cRrel x => Sys2Proof.Machine.execCRrel x s
  | .cRpopn x => Sys2Proof.Machine.execCRpopn x s
  | .cTrap x => Sys2Proof.Machine.execCTrap x s
  | .cHalt x => Sys2Proof.Machine.execCHalt x s
  | .cNop x => Sys2Proof.Machine.execCNop x s
  | .cAddK x => Sys2Proof.Machine.execCAddK x s
  | .cSubK x => Sys2Proof.Machine.execCSubK x s
  | .cMulK x => Sys2Proof.Machine.execCMulK x s
  | .cMulhK x => Sys2Proof.Machine.execCMulhK x s
  | .cMulhuK x => Sys2Proof.Machine.execCMulhuK x s
  | .cDivK x => Sys2Proof.Machine.execCDivK x s
  | .cDivuK x => Sys2Proof.Machine.execCDivuK x s
  | .cRemK x => Sys2Proof.Machine.execCRemK x s
  | .cRemuK x => Sys2Proof.Machine.execCRemuK x s
  | .cAndK x => Sys2Proof.Machine.execCAndK x s
  | .cOrK x => Sys2Proof.Machine.execCOrK x s
  | .cXorK x => Sys2Proof.Machine.execCXorK x s
  | .cAndnK x => Sys2Proof.Machine.execCAndnK x s
  | .cShlK x => Sys2Proof.Machine.execCShlK x s
  | .cShrK x => Sys2Proof.Machine.execCShrK x s
  | .cSarK x => Sys2Proof.Machine.execCSarK x s
  | .cRotK x => Sys2Proof.Machine.execCRotK x s
  | .cMinK x => Sys2Proof.Machine.execCMinK x s
  | .cMaxK x => Sys2Proof.Machine.execCMaxK x s
  | .cMinuK x => Sys2Proof.Machine.execCMinuK x s
  | .cMaxuK x => Sys2Proof.Machine.execCMaxuK x s
  | .cCmpK x => Sys2Proof.Machine.execCCmpK x s
  | .cLdB x => Sys2Proof.Machine.execCLdB x s
  | .cLdH x => Sys2Proof.Machine.execCLdH x s
  | .cLdW x => Sys2Proof.Machine.execCLdW x s
  | .cLdD x => Sys2Proof.Machine.execCLdD x s
  | .cStB x => Sys2Proof.Machine.execCStB x s
  | .cStH x => Sys2Proof.Machine.execCStH x s
  | .cStW x => Sys2Proof.Machine.execCStW x s
  | .cStD x => Sys2Proof.Machine.execCStD x s
  | .cKlaunch x => Sys2Proof.Machine.execCKlaunch x s
  | .cKxfer x => Sys2Proof.Machine.execCKxfer x s
  | .cProg x => Sys2Proof.Machine.execCProg x s
  | .cPhadv x => Sys2Proof.Machine.execCPhadv x s
  | .cPhadvLate x => Sys2Proof.Machine.execCPhadvLate x s
  | .cPhset x => Sys2Proof.Machine.execCPhset x s
  | .cPhwait x => Sys2Proof.Machine.execCPhwait x s
  | .cSgret x => Sys2Proof.Machine.execCSgret x s
  | .cAccept x => Sys2Proof.Machine.execCAccept x s
  | .cScommit x => Sys2Proof.Machine.execCScommit x s
  | .cSclose x => Sys2Proof.Machine.execCSclose x s
  | .cCtwr x => Sys2Proof.Machine.execCCtwr x s
  | .cCtswap x => Sys2Proof.Machine.execCCtswap x s
  | .cLi x => Sys2Proof.Machine.execCLi x s
  | .cPtgtLabel x => Sys2Proof.Machine.execCPtgtLabel x s
  | .cLoop x => Sys2Proof.Machine.execCLoop x s
  | .cAmo x => Sys2Proof.Machine.execCAmo x s
  | .cScout x => Sys2Proof.Machine.execCScout x s
  | .cLdWide x => Sys2Proof.Machine.execCLdWide x s
  | .cStWide x => Sys2Proof.Machine.execCStWide x s
  | .cTkwaitTimeout x => Sys2Proof.Machine.execCTkwaitTimeout x s
  | .pfx e rmv rm sat ftz => Sys2Proof.Machine.execPfx e rmv rm sat ftz s
  | .pfxo e ord => Sys2Proof.Machine.execPfxo e ord s
  | .aAdd x => Sys2Proof.Machine.execAAdd x s
  | .aSub x => Sys2Proof.Machine.execASub x s
  | .aMul x => Sys2Proof.Machine.execAMul x s
  | .aShl x => Sys2Proof.Machine.execAShl x s
  | .aShr x => Sys2Proof.Machine.execAShr x s
  | .aMov x => Sys2Proof.Machine.execAMov x s
  | .aCmp x => Sys2Proof.Machine.execACmp x s
  | .aJt x => Sys2Proof.Machine.execAJt x s
  | .aSbind x => Sys2Proof.Machine.execASbind x s
  | .aSset x => Sys2Proof.Machine.execASset x s
  | .aNgo x => Sys2Proof.Machine.execANgo x s
  | .aNwait x => Sys2Proof.Machine.execANwait x s
  | .aNset x => Sys2Proof.Machine.execANset x s
  | .aCopyMm x => Sys2Proof.Machine.execACopyMm x s
  | .aCopyMs x => Sys2Proof.Machine.execACopyMs x s
  | .aCopySm x => Sys2Proof.Machine.execACopySm x s
  | .aCopyl x => Sys2Proof.Machine.execACopyl x s
  | .aSdrain x => Sys2Proof.Machine.execASdrain x s
  | .aScrub x => Sys2Proof.Machine.execAScrub x s
  | .aLdt x => Sys2Proof.Machine.execALdt x s
  | .aAddK x => Sys2Proof.Machine.execAAddK x s
  | .aSubK x => Sys2Proof.Machine.execASubK x s
  | .aMulK x => Sys2Proof.Machine.execAMulK x s
  | .aShlK x => Sys2Proof.Machine.execAShlK x s
  | .aShrK x => Sys2Proof.Machine.execAShrK x s
  | .aCmpK x => Sys2Proof.Machine.execACmpK x s
  | .aCopyMmLen x => Sys2Proof.Machine.execACopyMmLen x s
  | .aCopyMsLen x => Sys2Proof.Machine.execACopyMsLen x s
  | .aCopySmLen x => Sys2Proof.Machine.execACopySmLen x s
  | .aLi x => Sys2Proof.Machine.execALi x s
  | .aPtgt x => Sys2Proof.Machine.execAPtgt x s
  | .aLoop x => Sys2Proof.Machine.execALoop x s
  | .aCopyWide x e => Sys2Proof.Machine.execACopyWide x e s
  | .aCopyb x e => Sys2Proof.Machine.execACopyb x e s
  | .aMcast x e => Sys2Proof.Machine.execAMcast x e s
  | .aNsetWide x => Sys2Proof.Machine.execANsetWide x s
  | .aSsetImm x => Sys2Proof.Machine.execASsetImm x s
  | .vVadd x => Sys2Proof.Machine.execVVadd x s
  | .vVsub x => Sys2Proof.Machine.execVVsub x s
  | .vVmul x => Sys2Proof.Machine.execVVmul x s
  | .vVmad x => Sys2Proof.Machine.execVVmad x s
  | .vVand x => Sys2Proof.Machine.execVVand x s
  | .vVor x => Sys2Proof.Machine.execVVor x s
  | .vVxor x => Sys2Proof.Machine.execVVxor x s
  | .vVshl x => Sys2Proof.Machine.execVVshl x s
  | .vVshr x => Sys2Proof.Machine.execVVshr x s
  | .vVsar x => Sys2Proof.Machine.execVVsar x s
  | .vVmin x => Sys2Proof.Machine.execVVmin x s
  | .vVmax x => Sys2Proof.Machine.execVVmax x s
  | .vVabs x => Sys2Proof.Machine.execVVabs x s
  | .vVcmp x => Sys2Proof.Machine.execVVcmp x s
  | .vVsel x => Sys2Proof.Machine.execVVsel x s
  | .vVfadd x => Sys2Proof.Machine.execVVfadd x s
  | .vVfsub x => Sys2Proof.Machine.execVVfsub x s
  | .vVfmul x => Sys2Proof.Machine.execVVfmul x s
  | .vVfma x => Sys2Proof.Machine.execVVfma x s
  | .vVfmin x => Sys2Proof.Machine.execVVfmin x s
  | .vVfmax x => Sys2Proof.Machine.execVVfmax x s
  | .vVfcmp x => Sys2Proof.Machine.execVVfcmp x s
  | .vVrcp x => Sys2Proof.Machine.execVVrcp x s
  | .vVrsq x => Sys2Proof.Machine.execVVrsq x s
  | .vVexp2 x => Sys2Proof.Machine.execVVexp2 x s
  | .vVlog2 x => Sys2Proof.Machine.execVVlog2 x s
  | .vVcvt x => Sys2Proof.Machine.execVVcvt x s
  | .vVpack x => Sys2Proof.Machine.execVVpack x s
  | .vVunpk x => Sys2Proof.Machine.execVVunpk x s
  | .vVscale x => Sys2Proof.Machine.execVVscale x s
  | .vVred x => Sys2Proof.Machine.execVVred x s
  | .vVscan x => Sys2Proof.Machine.execVVscan x s
  | .vVperm x => Sys2Proof.Machine.execVVperm x s
  | .vVbcast x => Sys2Proof.Machine.execVVbcast x s
  | .vViota x => Sys2Proof.Machine.execVViota x s
  | .vVext x => Sys2Proof.Machine.execVVext x s
  | .vVany x => Sys2Proof.Machine.execVVany x s
  | .vVall x => Sys2Proof.Machine.execVVall x s
  | .vVld x => Sys2Proof.Machine.execVVld x s
  | .vVst x => Sys2Proof.Machine.execVVst x s
  | .vVldx x => Sys2Proof.Machine.execVVldx x s
  | .vVstx x => Sys2Proof.Machine.execVVstx x s
  | .vVamo x => Sys2Proof.Machine.execVVamo x s
  | .vBlend x => Sys2Proof.Machine.execVBlend x s
  | .vJt x => Sys2Proof.Machine.execVJt x s
  | .vVaddP1 x => Sys2Proof.Machine.execVVaddP1 x s
  | .vVsubP1 x => Sys2Proof.Machine.execVVsubP1 x s
  | .vVmulP1 x => Sys2Proof.Machine.execVVmulP1 x s
  | .vVmadP1 x => Sys2Proof.Machine.execVVmadP1 x s
  | .vVshlP1 x => Sys2Proof.Machine.execVVshlP1 x s
  | .vVshrP1 x => Sys2Proof.Machine.execVVshrP1 x s
  | .vVsarP1 x => Sys2Proof.Machine.execVVsarP1 x s
  | .vVminP1 x => Sys2Proof.Machine.execVVminP1 x s
  | .vVmaxP1 x => Sys2Proof.Machine.execVVmaxP1 x s
  | .vVabsP1 x => Sys2Proof.Machine.execVVabsP1 x s
  | .vVcmpP1 x => Sys2Proof.Machine.execVVcmpP1 x s
  | .vVselP1 x => Sys2Proof.Machine.execVVselP1 x s
  | .vVfaddP1 x => Sys2Proof.Machine.execVVfaddP1 x s
  | .vVfsubP1 x => Sys2Proof.Machine.execVVfsubP1 x s
  | .vVfmulP1 x => Sys2Proof.Machine.execVVfmulP1 x s
  | .vVfmaP1 x => Sys2Proof.Machine.execVVfmaP1 x s
  | .vVfminP1 x => Sys2Proof.Machine.execVVfminP1 x s
  | .vVfmaxP1 x => Sys2Proof.Machine.execVVfmaxP1 x s
  | .vVfcmpP1 x => Sys2Proof.Machine.execVVfcmpP1 x s
  | .vVrcpP1 x => Sys2Proof.Machine.execVVrcpP1 x s
  | .vVrsqP1 x => Sys2Proof.Machine.execVVrsqP1 x s
  | .vVexp2P1 x => Sys2Proof.Machine.execVVexp2P1 x s
  | .vVlog2P1 x => Sys2Proof.Machine.execVVlog2P1 x s
  | .vVunpkP1 x => Sys2Proof.Machine.execVVunpkP1 x s
  | .vVredP1 x => Sys2Proof.Machine.execVVredP1 x s
  | .vVscanP1 x => Sys2Proof.Machine.execVVscanP1 x s
  | .vVpermP1 x => Sys2Proof.Machine.execVVpermP1 x s
  | .vVbcastP1 x => Sys2Proof.Machine.execVVbcastP1 x s
  | .vViotaP1 x => Sys2Proof.Machine.execVViotaP1 x s
  | .vVextP1 x => Sys2Proof.Machine.execVVextP1 x s
  | .vVldP1 x => Sys2Proof.Machine.execVVldP1 x s
  | .vVstP1 x => Sys2Proof.Machine.execVVstP1 x s
  | .vVldxP1 x => Sys2Proof.Machine.execVVldxP1 x s
  | .vVstxP1 x => Sys2Proof.Machine.execVVstxP1 x s
  | .vVamoP1 x => Sys2Proof.Machine.execVVamoP1 x s
  | .vVaddW x e => Sys2Proof.Machine.execVVaddW x e s
  | .vVsubW x e => Sys2Proof.Machine.execVVsubW x e s
  | .vVmulW x e => Sys2Proof.Machine.execVVmulW x e s
  | .vVmadW x e => Sys2Proof.Machine.execVVmadW x e s
  | .vVandW x e => Sys2Proof.Machine.execVVandW x e s
  | .vVorW x e => Sys2Proof.Machine.execVVorW x e s
  | .vVxorW x e => Sys2Proof.Machine.execVVxorW x e s
  | .vVshlW x e => Sys2Proof.Machine.execVVshlW x e s
  | .vVshrW x e => Sys2Proof.Machine.execVVshrW x e s
  | .vVsarW x e => Sys2Proof.Machine.execVVsarW x e s
  | .vVminW x e => Sys2Proof.Machine.execVVminW x e s
  | .vVmaxW x e => Sys2Proof.Machine.execVVmaxW x e s
  | .vVabsW x e => Sys2Proof.Machine.execVVabsW x e s
  | .vVcmpW x e => Sys2Proof.Machine.execVVcmpW x e s
  | .vVselW x e => Sys2Proof.Machine.execVVselW x e s
  | .vVfaddW x e => Sys2Proof.Machine.execVVfaddW x e s
  | .vVfsubW x e => Sys2Proof.Machine.execVVfsubW x e s
  | .vVfmulW x e => Sys2Proof.Machine.execVVfmulW x e s
  | .vVfmaW x e => Sys2Proof.Machine.execVVfmaW x e s
  | .vVfminW x e => Sys2Proof.Machine.execVVfminW x e s
  | .vVfmaxW x e => Sys2Proof.Machine.execVVfmaxW x e s
  | .vVfcmpW x e => Sys2Proof.Machine.execVVfcmpW x e s
  | .vVrcpW x e => Sys2Proof.Machine.execVVrcpW x e s
  | .vVrsqW x e => Sys2Proof.Machine.execVVrsqW x e s
  | .vVexp2W x e => Sys2Proof.Machine.execVVexp2W x e s
  | .vVlog2W x e => Sys2Proof.Machine.execVVlog2W x e s
  | .vVcvtW x e => Sys2Proof.Machine.execVVcvtW x e s
  | .vVpackW x e f => Sys2Proof.Machine.execVVpackW x e f s
  | .vVunpkW x e f => Sys2Proof.Machine.execVVunpkW x e f s
  | .vVscaleW x e => Sys2Proof.Machine.execVVscaleW x e s
  | .vVredW x e => Sys2Proof.Machine.execVVredW x e s
  | .vVscanW x e => Sys2Proof.Machine.execVVscanW x e s
  | .vVpermW x e => Sys2Proof.Machine.execVVpermW x e s
  | .vVbcastW x e => Sys2Proof.Machine.execVVbcastW x e s
  | .vViotaW x e => Sys2Proof.Machine.execVViotaW x e s
  | .vVextW x e => Sys2Proof.Machine.execVVextW x e s
  | .vVldW x e off => Sys2Proof.Machine.execVVldW x e off s
  | .vVstW x e off => Sys2Proof.Machine.execVVstW x e off s
  | .vVldxW x e off => Sys2Proof.Machine.execVVldxW x e off s
  | .vVstxW x e off => Sys2Proof.Machine.execVVstxW x e off s
  | .vVamoW x e op off => Sys2Proof.Machine.execVVamoW x e op off s
  | .vLoop x => Sys2Proof.Machine.execVLoop x s
  | .vPtgt x => Sys2Proof.Machine.execVPtgt x s
  | .mMclr x => Sys2Proof.Machine.execMMclr x s
  | .mMstat x => Sys2Proof.Machine.execMMstat x s
  | .mBret x => Sys2Proof.Machine.execMBret x s
  | .mMnormGrow x => Sys2Proof.Machine.execMMnormGrow x s
  | .mMnormTight x => Sys2Proof.Machine.execMMnormTight x s
  | .mMrd x => Sys2Proof.Machine.execMMrd x s
  | .mMwr x => Sys2Proof.Machine.execMMwr x s
  | .mMexpGet x => Sys2Proof.Machine.execMMexpGet x s
  | .mMexpSet x => Sys2Proof.Machine.execMMexpSet x s
  | .mMma x e => Sys2Proof.Machine.execMMma x e s
  | .mMmas x e => Sys2Proof.Machine.execMMmas x e s
  | .dDclr x => Sys2Proof.Machine.execDDclr x s
  | .dBret x => Sys2Proof.Machine.execDBret x s
  | .dDnormGrow x => Sys2Proof.Machine.execDDnormGrow x s
  | .dDnormTight x => Sys2Proof.Machine.execDDnormTight x s
  | .dDrd x => Sys2Proof.Machine.execDDrd x s
  | .dDmv x => Sys2Proof.Machine.execDDmv x s
  | .dDqk x => Sys2Proof.Machine.execDDqk x s
  | .dDpv x => Sys2Proof.Machine.execDDpv x s
  | .gGcfg x => Sys2Proof.Machine.execGGcfg x s
  | .gGld x => Sys2Proof.Machine.execGGld x s
  | .gGsc x => Sys2Proof.Machine.execGGsc x s
  | .registerWrite w off val => Sys2Proof.Machine.execRegisterWrite w off val s
  | .lqtailWrite f n val => Sys2Proof.Machine.execLqtailWrite f n val s
  | .launchPacketRead f n => Sys2Proof.Machine.execLaunchPacketRead f n s
  | .launchEntry t => Sys2Proof.Machine.execLaunchEntry t s
  | .klaunchRemoteEntry t die => Sys2Proof.Machine.execKlaunchRemoteEntry t die s
  | .transferRetire t => Sys2Proof.Machine.execTransferRetire t s
  | .blockPlace die => Sys2Proof.Machine.execBlockPlace die s
  | .blockComplete u => Sys2Proof.Machine.execBlockComplete u s
  | .commandStart u e => Sys2Proof.Machine.execCommandStart u e s
  | .commandComplete u e idx => Sys2Proof.Machine.execCommandComplete u e idx s
  | .nestIssue u => Sys2Proof.Machine.execNestIssue u s
  | .loopBackEdge u e => Sys2Proof.Machine.execLoopBackEdge u e s
  | .tkwaitReturn u => Sys2Proof.Machine.execTkwaitReturn u s
  | .tkwaitTimeout u => Sys2Proof.Machine.execTkwaitTimeout u s
  | .mcastDeliver u idx m => Sys2Proof.Machine.execMcastDeliver u idx m s
  | .gbarComplete t grp => Sys2Proof.Machine.execGbarComplete t grp s
  | .leaveGrant isl => Sys2Proof.Machine.execLeaveGrant isl s
  | .ldtCutoff u idx => Sys2Proof.Machine.execLdtCutoff u idx s
  | .ldtVectorReady u idx => Sys2Proof.Machine.execLdtVectorReady u idx s
  | .maintenanceSlot die slot => Sys2Proof.Machine.execMaintenanceSlot die slot s
  | .refreshDue die tract bank => Sys2Proof.Machine.execRefreshDue die tract bank s
  | .activationAlert die tract bank => Sys2Proof.Machine.execActivationAlert die tract bank s
  | .caParityError die tract ok => Sys2Proof.Machine.execCaParityError die tract ok s
  | .linkReadFailure link u e idx => Sys2Proof.Machine.execLinkReadFailure link u e idx s
  | .scratchBankFail die core bank => Sys2Proof.Machine.execScratchBankFail die core bank s
  | .bankRebuildDone die core => Sys2Proof.Machine.execBankRebuildDone die core s
  | .porterGranuleMove cx n => Sys2Proof.Machine.execPorterGranuleMove cx n s
  | .phaseSwitch cx => Sys2Proof.Machine.execPhaseSwitch cx s
  | .granuleLand cx n => Sys2Proof.Machine.execGranuleLand cx n s
  | .lateDataTimeout u e => Sys2Proof.Machine.execLateDataTimeout u e s
  | .porterFault cx cause addr => Sys2Proof.Machine.execPorterFault cx cause addr s
  | .strandStop u e => Sys2Proof.Machine.execStrandStop u e s
  | .eventRetry die => Sys2Proof.Machine.execEventRetry die s
  | .evheadWrite f val => Sys2Proof.Machine.execEvheadWrite f val s
  | .watchdogTrip u => Sys2Proof.Machine.execWatchdogTrip u s
  | .ctxcmdStop f k => Sys2Proof.Machine.execCtxcmdStop f k s
  | .ctxcmdResume f k => Sys2Proof.Machine.execCtxcmdResume f k s
  | .ctxcmdAbort f k => Sys2Proof.Machine.execCtxcmdAbort f k s
  | .ctxcmdKill f k => Sys2Proof.Machine.execCtxcmdKill f k s
  | .killAccept f k => Sys2Proof.Machine.execKillAccept f k s
  | .ctxcfgCreate f k val => Sys2Proof.Machine.execCtxcfgCreate f k val s
  | .ctxcfgDestroy f k => Sys2Proof.Machine.execCtxcfgDestroy f k s
  | .preemptDecision die => Sys2Proof.Machine.execPreemptDecision die s
  | .preemptRecheck die => Sys2Proof.Machine.execPreemptRecheck die s
  | .checkpointSave u => Sys2Proof.Machine.execCheckpointSave u s
  | .checkpointTimeout u => Sys2Proof.Machine.execCheckpointTimeout u s
  | .ferryTrigger u e => Sys2Proof.Machine.execFerryTrigger u e s
  | .ferryMove u => Sys2Proof.Machine.execFerryMove u s
  | .atomicResponseError u e => Sys2Proof.Machine.execAtomicResponseError u e s
  | .scoutRerun u => Sys2Proof.Machine.execScoutRerun u s
  | .mapcmdGo f k val => Sys2Proof.Machine.execMapcmdGo f k val s
  | .mapCommitDone f k => Sys2Proof.Machine.execMapCommitDone f k s
  | .tlbinvGo f val => Sys2Proof.Machine.execTlbinvGo f val s
  | .tlbinvDone f => Sys2Proof.Machine.execTlbinvDone f s
  | .sumpFill die => Sys2Proof.Machine.execSumpFill die s
  | .sumpDeadline die pos => Sys2Proof.Machine.execSumpDeadline die pos s
  | .sumpcmdConfirm die pos => Sys2Proof.Machine.execSumpcmdConfirm die pos s
  | .sumpcmdVeto die pos => Sys2Proof.Machine.execSumpcmdVeto die pos s
  | .sumpcmdMoveHead die pos => Sys2Proof.Machine.execSumpcmdMoveHead die pos s
  | .sumpExecute die => Sys2Proof.Machine.execSumpExecute die s
  | .dbgctlGo f => Sys2Proof.Machine.execDbgctlGo f s
  | .dbgExpiry p => Sys2Proof.Machine.execDbgExpiry p s
  | .fencecmdClear val => Sys2Proof.Machine.execFencecmdClear val s
  | .telclr val => Sys2Proof.Machine.execTelclr val s
  | .partdiesWrite p val => Sys2Proof.Machine.execPartdiesWrite p val s
  | .quadGrant die quad => Sys2Proof.Machine.execQuadGrant die quad s
  | .vfpartWrite f val => Sys2Proof.Machine.execVfpartWrite f val s
  | .getVersion h => Sys2Proof.Machine.execGetVersion h s
  | .getCapabilities h => Sys2Proof.Machine.execGetCapabilities h s
  | .negotiateAlgorithms h algs => Sys2Proof.Machine.execNegotiateAlgorithms h algs s
  | .getDigests h => Sys2Proof.Machine.execGetDigests h s
  | .getCertificate h slot => Sys2Proof.Machine.execGetCertificate h slot s
  | .challenge h slot => Sys2Proof.Machine.execChallenge h slot s
  | .getMeasurements h f index => Sys2Proof.Machine.execGetMeasurements h f index s
  | .keyExchange h slot => Sys2Proof.Machine.execKeyExchange h slot s
  | .finish h => Sys2Proof.Machine.execFinish h s
  | .endSession h => Sys2Proof.Machine.execEndSession h s
  | .moduleReset => Sys2Proof.Machine.execModuleReset s
  | .accessResponse u e n => Sys2Proof.Machine.execAccessResponse u e n s
  | .evcfgWrite f val => Sys2Proof.Machine.execEvcfgWrite f val s
  | .barWrite f => Sys2Proof.Machine.execBarWrite f s
  | .tdiConfigLock f => Sys2Proof.Machine.execTdiConfigLock f s
  | .tdiRun f => Sys2Proof.Machine.execTdiRun f s
  | .islandGovernorSet isl mv => Sys2Proof.Machine.execIslandGovernorSet isl mv s

end Sys2Proof.Machine
end

