-- ==== Sys2Proof/Machine/Windows.lean ====
section
/-! DEFINITION. What the outside world reads: the register windows of the functions (R266, R284, R287, R301, R304, R324, R325, R332) and
of the hub (R287, R293, R306, R312, R319, R327, R330), and the firmware's own reads of memory (R325, R326); and what befalls stored units
of main memory (R309). -/

namespace Sys2Proof.Machine

/-! ## A function's window -/

/-- A bit at a place of a register. -/
def bitTo (b : Bool) (i : Nat) : Nat := digit b * 2 ^ i

/-- A context slot's registers of the block at 0x0800 (R275, R287). -/
def Ctx.stateReg (c : Ctx) (off : Nat) : Nat :=
  if off = 0 then c.cmd.val
  else if off = 8 then c.arg.toNat
  else if off = 16 then c.first.toNat * 2 ^ 8 + c.st.val
  else bitTo c.valid 63 + bitTo c.acctrap 14 + c.latelim.toNat

/-- A context slot's registers of the block at 0x0A00 (R301). -/
def Ctx.mapReg (c : Ctx) (off : Nat) : Nat :=
  if off = 0 then c.mapbase.toNat
  else if off = 8 then c.mapn.toNat * 2 ^ 4 + c.mappm1.val
  else if off = 16 then c.mapentry.toNat * 2 ^ 32 + c.mapcode.val * 2 ^ 2 + c.mapst.val
  else c.ptroot.toNat

/-- A launch queue's registers (R266). -/
def LaunchQ.reg (q : LaunchQ) (off : Nat) : Nat :=
  if off = 0 then q.base.toNat
  else if off = 8 then q.cbase.toNat
  else if off = 16 then bitTo q.en 31 + q.ctx.val * 2 ^ 5 + q.log2n.toNat
  else if off = 24 then q.tail.toNat
  else if off = 32 then q.head.toNat
  else if off = 40 then q.done.toNat
  else 0

/-- The event registers (R284). -/
def Vf.eventReg (v : Vf) (off : Nat) : Nat :=
  if off = 0 then v.evbase.toNat
  else if off = 8 then bitTo v.even 31 + v.evlog.toNat
  else if off = 16 then v.evtail.toNat
  else if off = 24 then v.evhead.toNat
  else if off = 32 then bitTo v.evlost 63 + v.evcount.toNat
  else 0

/-- TLBINV (R304). -/
def Vf.tlbReg (v : Vf) : Nat := bitTo v.tlbgo 63 + v.tlbctx.val * 2 ^ 59 + v.tlbva.toNat + v.tlbnum.toNat

/-- A register of the window of function `f`; a reserved offset reads 0, and so does DBGLOAD (R325). -/
def State.vfReg (s : State) (f : Fin 64) (off : Nat) : Nat :=
  let v := s.vfs[f]
  let cx := fun base size : Nat => s.ctxAt (16 * f.val + (off - base) / size)
  if 0x600 ≤ off && off < 0x800 then v.eventReg (off - 0x600)
  else if 0x800 ≤ off && off < 0xA00 then (cx 0x800 32).stateReg (off % 32)
  else if 0xA00 ≤ off && off < 0xC00 then (cx 0xA00 32).mapReg (off % 32)
  else if off = 0xC00 then v.tlbReg
  else if off = 0xD00 then v.nonce.toNat % 2 ^ 64
  else if off = 0xD08 then v.nonce.toNat / 2 ^ 64
  else if off = 0xD10 then v.dbgres.val
  else if 0x1000 ≤ off && off < 0x1200 then (v.lq[Fin.ofNat 8 ((off - 0x1000) / 64)]).reg (off % 64)
  else if 0x1200 ≤ off && off < 0x1600 then ((cx 0x1200 64).seovf[Fin.ofNat 8 (off % 64 / 8)]).toNat
  else 0

/-! ## The hub window -/

/-- A Sump entry as SUMPE shows it: the µs left, rounded down (log 55). -/
def SumpEnt.reg (x : SumpEnt) (now : Nat) : Nat :=
  2 ^ 63 + bitTo x.cf 62 + x.rgn % 2 ^ 10 * 2 ^ 48 + x.page % 2 ^ 24 * 2 ^ 24 + min 1023 ((x.expiry - now) / (1000 * nsUnits))

/-- A die's Sump registers (R312). -/
def Die.sumpReg (x : Die) (off now : Nat) : Nat :=
  if off < 0x80 then
    (match x.sump[off / 8]? with
    | some y => y.reg now
    | none => 0)
  else if off = 0x88 then x.sumpdl.toNat
  else 0

/-- CORETEL, TRACTTEL and LINKTEL (R330). -/
def CoreTel.reg (x : CoreTel) : Nat :=
  x.slips * 2 ^ 48 + x.ferry * 2 ^ 32 + x.scovf * 2 ^ 16 + x.rebuilds * 2 ^ 8 + digit x.fenced
def TractTel.reg (x : TractTel) : Nat := bitTo x.fenced 63 + x.replay * 2 ^ 48 + x.abslip * 2 ^ 32 + x.corr * 2 ^ 16 + x.uncor
def LinkTel.reg (x : LinkTel) : Nat := bitTo x.fenced 63 + x.retry

/-- ISLTEL0 and ISLTEL1 of island `i` (R330). -/
def Isl.reg (x : Isl) (i off : Nat) : Nat :=
  if off = 0 then x.vmv * 2 ^ 48 + x.fmhz * 2 ^ 32 + Config.ilim i % 2 ^ 16 * 2 ^ 16 + x.iuse % 2 ^ 16
  else x.grants * 2 ^ 32 + x.stall

/-- FENCECMD (R327): GO reads 0. -/
def Hub.fenceReg (h : Hub) : Nat := bitTo h.fenceRefused 62 + h.fenceIdx.toNat * 2 ^ 32 + h.fenceUnit.val

/-- The telemetry registers and FENCECMD, from 0x4000 (R327, R330). -/
def State.telReg (s : State) (off : Nat) : Nat :=
  if off < 0xA00 then
    (let k := off / 8
     if k % 40 < coresOf (k / 40) then (s.cores[Fin.ofNat 320 k]).reg else 0)
  else if off < 0xB00 then
    (let k := (off - 0xA00) / 8
     if k % 4 < tractsOf (k / 4) then (s.tracts[Fin.ofNat 32 k]).reg else 0)
  else if off < 0xC90 then (s.links[Fin.ofNat 50 ((off - 0xB00) / 8)]).reg
  else if 0xD00 ≤ off && off < 0xF00 then
    (let i := Fin.ofNat 32 ((off - 0xD00) / 16)
     (s.isls[i]).reg i.val (off % 16))
  else if off = 0xF08 then s.hub.fenceReg
  else 0

/-- A register of the hub window; a reserved offset reads 0. -/
def State.hubReg (s : State) (off : Nat) : Nat :=
  let h := s.hub
  if 0x2000 ≤ off && off < 0x2100 then (h.partdies[Fin.ofNat 32 ((off - 0x2000) / 8)]).toNat
  else if 0x2200 ≤ off && off < 0x2400 then (h.vfpart[Fin.ofNat 64 ((off - 0x2200) / 8)]).toNat
  else if 0x2400 ≤ off && off < 0x2500 then (s.dbgOf (Fin.ofNat 32 ((off - 0x2400) / 8))).toNat
  else if 0x2600 ≤ off && off < 0x2700 then (h.cairnbase[Fin.ofNat 32 ((off - 0x2600) / 8)]).toNat
  else if 0x2700 ≤ off && off < 0x2900 then
    (let p := Fin.ofNat 32 ((off - 0x2700) / 16)
     if off % 16 = 0 then (h.savebase[p]).toNat else (h.savecnt[p]).toNat)
  else if 0x3000 ≤ off && off < 0x3040 then (s.dies[Fin.ofNat 8 ((off - 0x3000) / 8)]).actth.toNat
  else if 0x3100 ≤ off && off < 0x3900 then (s.dies[Fin.ofNat 8 ((off - 0x3100) / 256)]).sumpReg (off % 256) s.time
  else if 0x4000 ≤ off && off < 0x5000 then s.telReg (off - 0x4000)
  else 0

/-- What a 64-bit read of a register answers: all ones from a function in ERROR (R324). An offset that names no whole register reads 0
(log 55). -/
def State.readReg (s : State) (w : Window) (off : Nat) : Nat :=
  match w with
  | .vf f => if s.vfFenced f.val then 2 ^ 64 - 1 else if off % 8 ≠ 0 then 0 else s.vfReg f off
  | .hub => if off % 8 ≠ 0 then 0 else s.hubReg off

/-- A read of a register window; `bus` holds the answer. -/
def State.busRead (s : State) (w : Window) (off : Nat) : State := { s with bus := leBytes 8 (s.readReg w off) }

/-! ## The firmware's reads (R325, R326) -/

/-- The partition that holds a quad. -/
def State.quadOwner (s : State) (d q : Nat) : Option (Fin 32) :=
  (List.finRange 32).find? fun p => (quadsOf (s.hub.partdies[p]) d).contains q

/-- Whether the firmware may read a quad's slices, engine SRAM and registers: HUBRD of the partition that holds it is set (R319, R325). -/
def State.hubMayRead (s : State) (d q : Nat) : Bool :=
  match s.quadOwner d q with
  | some p => (s.dbgOf p).getLsbD 3
  | none => false

/-- Memory that the firmware reads: of a partition's memory unspecified bytes, decrypted under the hub key (R321, R326); of a slice or of
engine SRAM the bytes, where HUBRD allows it, else the read is refused, and nothing is answered (R325). -/
def State.hubRead (s : State) (a n : Nat) : State :=
  let plain := fun d q : Nat => { s with bus := if s.hubMayRead d q then Mem.readN s.mem a n else [] }
  match physKind a with
  | .scratch d c => plain d (c / quadCores d)
  | .se d => plain d ((a - seBase d) / 2 ^ 21)
  | .none => { s with bus := [] }
  | _ => { s with bus := (List.range n).map fun i => Config.freeByte (1024 * s.free + i), free := s.free + n / 1024 + 1 }

/-- The registers of a block as the firmware reads them, one after another, each in its bytes: s, a, v and mask registers, then each
strand's PC, branch targets, loop counts and predicates (log 55). -/
def Block.regBytes (b : Block) : List Byte :=
  (b.s.toList.flatMap fun x => leBytes 8 x.toNat) ++ (b.a.toList.flatMap fun x => leBytes 8 x.toNat) ++
    b.v.toList.flatMap vecBytes ++ (b.vm.toList.flatMap fun x => leBytes 32 x.toNat) ++
    engines.flatMap fun e => leBytes 8 (b.str e).pc.toNat ++ ((b.str e).b.toList.flatMap fun x => leBytes 8 x.toNat) ++
      ((b.str e).lc.toList.flatMap fun x => leBytes 4 x.toNat) ++ (b.str e).preds.toList.map fun p => BitVec.ofNat 8 (digit p)

/-- The registers of a core, read by the firmware: refused as the reads of its slice are, and nothing is answered for a core on which
no block stands (R319, R325; log 55). -/
def State.hubRegs (s : State) (d : Fin 8) (core : Nat) : State :=
  { s with bus :=
      if s.hubMayRead d (core / quadCores d) then
        (match s.blocks.find? fun b => b.placed && b.die == d && b.core == core with
         | some b => b.regBytes
         | none => [])
      else [] }

/-! ## Errors of stored units (R309) -/

/-- A unit of main memory suffers an error that its code corrects at every read until the unit is written, or one that it cannot
correct, which poisons the unit and is counted (R309; log 38). -/
def State.upset (s : State) (unit : Nat) (bad : Bool) : State :=
  if !isDram (64 * unit) || s.poison.contains unit then s
  else if bad then { s.countUnit (64 * unit) true with poison := unit :: s.poison, upsets := s.upsets.filter (· != unit) }
  else { s with upsets := unit :: s.upsets.filter (· != unit) }

end Sys2Proof.Machine
end

