-- ==== Sys2Proof/Machine/Step.lean ====
section
/-! DEFINITION. One step of the module: the agenda names the agent that acts and the time that passes; a strand's turn
is its next instruction, with its prefix. -/

namespace Sys2Proof.Machine

/-- The turn of a strand of a block that has started. -/
noncomputable def takeTurn (s : State) (e : Eng) : Host.Outcome State Fault Refusal :=
  match s.turn e with
  | (.idle, t) => .next t
  | (.edge, t) => exec (.loopBackEdge t.blk.uid e) t
  | (.ferry, t) => exec (.ferryTrigger t.blk.uid e) t
  | (.stop x, t) => t.stopped e x
  | (.run none i, t) => exec i t
  | (.run (some p) i, t) =>
    match exec p t with
    | .next u => exec i u
    | o => o

/-! ## Waits that have ended (R30) -/

/-- Whether a strand waits for something that another agent's act can bring while the wait itself stays as its last turn left it. -/
def Strand.waitsOn (st : Strand) : Bool :=
  match st.wait with
  | .blocked => true
  | .mark _ _ => true
  | .freeze => true
  | _ => false

/-- A strand counts as blocked only while it waits (R30): where its turn, taken now, would go on, its wait has ended. -/
noncomputable def State.refresh (s : State) (e : Eng) : State :=
  if (s.str e).waitsOn then
    match takeTurn s e with
    | .next t =>
      if (t.str e).stop.isNone && (t.str e).waitsOn then s else s.modStr e fun st => { st with wait := .run }
    | _ => s
  else s

/-- The block in focus before an act: waits that have ended are over, the c strand's last (R36), and a block that gathers and whose
strands are all stopped or blocked comes to stand (R292, R296). -/
noncomputable def State.ready (s : State) : State :=
  let t := [Eng.a, .v, .m, .d, .g, .c].foldl State.refresh s
  { t with blk := t.blk.comeToStand }

/-- Whether an act may find a block's waits ended, or the block come to stand. -/
def Block.changes (b : Block) : Bool :=
  b.placed && b.started && (b.gathering || engines.any fun e => (b.str e).waitsOn)

/-- Every block before an event. -/
noncomputable def State.readyAll (s : State) : State :=
  (((s.blocks.filter Block.changes).map fun b => b.uid).foldl (fun s u => (s.focus u).ready) s).focus s.blk.uid

/-! ## Acts -/

/-- A strand of the block in focus acts: the block's tables are loaded first where they are still to be loaded (R90). -/
noncomputable def stepStrand (s : State) (e : Eng) : Host.Outcome State Fault Refusal :=
  if s.loadsTables then .next s.startBlock else takeTurn s.ready e

/-- An act of the agenda. A strand's instruction is no event: it acts in its strand's turn only. -/
noncomputable def stepAct (s : State) : Act → Host.Outcome State Fault Refusal
  | .strand u e => stepStrand (s.focus u) e
  | .event i => if i.eng.isNone then exec i s.readyAll else .next s
  | .busRead w off => .next (s.busRead w off)
  | .hubRead a n => .next (s.hubRead a n)
  | .hubRegs d c => .next (s.hubRegs d c)
  | .upset u bad => .next (s.upset u bad)

/-- The time until the next act of the agenda; with an empty agenda one ac. -/
def State.nextDt (s : State) : Nat :=
  match s.agenda with
  | [] => acUnits s.blk.die
  | t :: _ => t.dt

/-- The next act of the agenda comes `dt` sooner, for so much time has passed. -/
def State.elapse (s : State) (dt : Nat) : State :=
  { s.pass dt with agenda := match s.agenda with
    | [] => []
    | t :: r => { t with dt := t.dt - dt } :: r }

/-- The Timetable's act, at its own time: a cut-off, or a vector that becomes readable (R171). -/
noncomputable def stepDue (s : State) (x : Due) : Host.Outcome State Fault Refusal :=
  let t := (s.elapse (x.at_ - s.time)).readyAll
  exec (if x.ready then .ldtVectorReady x.uid x.idx else .ldtCutoff x.uid x.idx) t

/-- The first turn of the agenda, or with an empty agenda one ac and the strand `eng` of the block in focus (log 1). -/
noncomputable def stepAgenda (s : State) : Host.Outcome State Fault Refusal :=
  match s.agenda with
  | [] => stepStrand (s.pass (acUnits s.blk.die)) s.eng
  | t :: r => stepAct { s.pass t.dt with agenda := r } t.act

/-- One step: what the Timetable has due before the next act of the agenda, else that act. -/
noncomputable def step (s : State) : Host.Outcome State Fault Refusal :=
  match s.timetable s.nextDt with
  | some x => stepDue s x
  | none => stepAgenda s

/-- The engine whose space assigns an instruction with the bits `w`, the first in tag order (log 8). -/
noncomputable def engineOfWord (nbits w : Nat) : Eng :=
  let v := w % 2 ^ nbits
  (engines.find? fun e => match decodeStep e (BitVec.ofNat 32 v) (BitVec.ofNat 32 (v / 2 ^ 32)) with
    | .ok _ => true
    | _ => false).getD .c

/-- Virtual address of the line that `withFetchWord` fills. -/
def fetchLineVa : Nat := 0x10000

/-- The map entry that holds that line: one plain region of a granule on die `d`, all permissions. -/
def fetchEntry (d : Nat) : MapEntry :=
  { base := BitVec.ofNat 64 fetchLineVa, limit := BitVec.ofNat 64 (2 * fetchLineVa), kind := 0, perm := 7, kspec := [],
    state := BitVec.ofNat 32 (1 + 2 ^ (2 + d)), frames := [BitVec.ofNat 64 (dieMemBase d + fetchLineVa)] }

/-- The bytes of a line: a link word with this tag and COUNT 15, then the instruction's bits. -/
def fetchBytes (e : Eng) (v : Nat) : List Byte := leBytes 64 (tagOf e * 2 ^ 28 + 15 * 2 ^ 24 + v * 2 ^ 32)

/-- The machine with one block placed whose strand enters a line that holds the instruction: the load that launch and
placement make (R266 to R275; log 8). -/
noncomputable def State.withFetchWord (s : State) (nbits w : Nat) : State :=
  let e := engineOfWord nbits w
  let d : Fin 8 := if e = .d || e = .g then 4 else 0
  let b := Block.reset d
  let st : Strand := { Strand.reset with chain := true, entry := BitVec.ofNat 64 fetchLineVa,
                                         pc := BitVec.ofNat 64 (fetchLineVa + 4) }
  { s with
    blk := { b with uid := 1, placed := true, started := true, image := BitVec.ofNat 64 fetchLineVa,
                    strands := b.strands.set (engIdx e) st },
    eng := e,
    agenda := [],
    ctxs := s.ctxs.set 0 { s.ctxs[0] with st := 0, valid := true, mapn := 1, regions := 1, phases := 1,
                                          phase := 0, change := none, marks := [], store := [fetchEntry d.val] },
    mem := Mem.write s.mem (dieMemBase d.val + fetchLineVa) (fetchBytes e (w % 2 ^ nbits)) }

end Sys2Proof.Machine
end

