-- ==== Sys2Proof/Safety.lean ====
section
/-! DEFINITION. What counts as a safe run, and the terms in which claims are stated: runs of steps, the machine's
invariant, and what reading and writing an operand comes to, said as relations between states. -/

namespace Sys2Proof

open Sys2Proof.Machine

/-- The states that runs of `n` steps from a state reach. -/
inductive Reaches : Nat → Machine.State → Machine.State → Prop
  | refl (s : Machine.State) : Reaches 0 s s
  | step (n : Nat) (s t u : Machine.State) : Reaches n s t → Machine.step t = .next u → Reaches (n + 1) s u

/-- A state is safe when memory has its canonical form. -/
def Safe (s : Machine.State) : Prop := Mem.wf s.mem = true

namespace Claims

/-- A block after one entry has left scalar queue `n`, whose rest is `r` (R32). -/
def popped (s : State) (n : Fin 16) (r : List Dword) : State :=
  { s with blk := { s.blk with q := s.blk.q.set n r, pops := s.blk.pops.set (qIdx n) (s.blk.pops[qIdx n] + 1) } }

/-- A block after one entry has left vector queue `n`. -/
def poppedV (s : State) (n : Fin 4) (r : List VReg) : State :=
  { s with blk := { s.blk with vq := s.blk.vq.set n r, pops := s.blk.pops.set (vqIdx n) (s.blk.pops[vqIdx n] + 1) } }

/-- No push in flight of strand `e` goes before one to `o`: to the same port, and of the v strand to any port (R104, R175). -/
def FirstPush (e : Eng) (o : Opd) (s : State) : Prop :=
  ∀ x ∈ s.blk.inflight, x.eng = e → x.dst.isPort = true → ¬(e = .v ∨ x.dst = o)

/-- Strand `e` reads operand `o` of a scalar instruction in `s`: the value `v`, and the state `t` after it. A register is
read as it stands once no result for it is in flight (R104, R105), and a queue gives up its head (R32). -/
def Takes (e : Eng) (o : Opd) (s : State) (v : Dword) (t : State) : Prop :=
  match o with
  | .reg n => s.blk.pending e (.reg n) = false ∧ v = s.blk.scalar e n ∧ t = s
  | .port (.q n) => ∃ r, s.blk.q[n] = v :: r ∧ t = popped s n r
  | .port _ => False

/-- Strand `e` writes `v` to operand `o` in `s` and leaves `t`: a register takes it, a queue with room gets it behind its
last entry (R32). -/
def Puts (e : Eng) (o : Opd) (s : State) (v : Dword) (t : State) : Prop :=
  match o with
  | .reg n => s.blk.pending e (.reg n) = false ∧ t = { s with blk := s.blk.setScalar e n v }
  | .port (.q n) =>
    FirstPush e (.port (.q n)) s ∧ (s.blk.q[n]).length + s.blk.inflightTo (.port (.q n)) < 16 ∧
      t = { s with blk := { s.blk with q := s.blk.q.set n (s.blk.q[n] ++ [v]) } }
  | .port _ => False

/-- The acquires that a `pfxo` gives the entries that the sources of an instruction have popped, at block scope (R57). -/
def acquired (e : Eng) (src : List Opd) (s : State) : State :=
  if (s.str e).pfx.order.acq then (s.blk.poppedAll src).foldl (fun s x => s.acquire e x .blk) s else s

/-- The releases that a `pfxo` gives the entries that the destinations of an instruction have pushed, at block scope (R57). -/
def released (e : Eng) (dst : List Opd) (s : State) : State :=
  if (s.str e).pfx.order.rel then (dst.flatMap s.blk.pushed).foldl (fun s x => s.release (.strand s.blk.uid e) x .blk) s else s

/-- Both, where the instruction does nothing else between them. -/
def ordered (e : Eng) (src dst : List Opd) (s : State) : State := released e dst (acquired e src s)

/-- Saturation, if a prefix asks for it, of an exact integer at 64 bits: the value, and whether it was clamped (R61,
R107). -/
def clamp64 (sat : Bool) (v : Int) : Dword × Bool :=
  if sat && 2 ^ 63 ≤ v then (BitVec.ofInt 64 (2 ^ 63 - 1), true)
  else if sat && v < -2 ^ 63 then (BitVec.ofInt 64 (-2 ^ 63), true)
  else (BitVec.ofInt 64 v, false)

/-- A state in whose block the sticky bit SAT of STATUS is set, if `b`. -/
def satIf (b : Bool) (s : State) : State := if b then { s with blk := s.blk.setSt stSAT } else s

/-- Strand `e` of the placed and started block in focus may act: it has a chain, has not finished or stopped, its context
runs, no round of it stands discarded, and it does not wait for an event. -/
def Active (s : State) (e : Eng) : Prop :=
  s.blk.placed = true ∧ s.blk.started = true ∧ s.blk.stood = false ∧ (s.str e).chain = true ∧ (s.str e).finished = false ∧
    (s.str e).stop = none ∧ s.cx.st = 0 ∧ s.blk.scout.discarded = false ∧ (s.str e).wait = .run

/-- Reading a vector source with `w`-bit elements (R40, R178): a register of a bank that the v strand holds, the head of
a vector queue, or the head of a scalar queue spread over all elements. -/
def TakesV (w : Nat) (o : Opd) (s : State) (v : VReg) (t : State) : Prop :=
  match o with
  | .reg n => s.blk.holders[bankOf n] = .v ∧ s.blk.pending .v (.reg n) = false ∧ v = s.blk.v[n] ∧ t = s
  | .port (.vq n) => ∃ r, s.blk.vq[n] = v :: r ∧ t = poppedV s n r
  | .port (.q n) =>
    ∃ x r, s.blk.q[n] = x :: r ∧ v = ofElems w (List.replicate (2048 / w) (x.toNat % 2 ^ w)) ∧ t = popped s n r
  | .port (.g n) =>
    ∃ bs, readStream .v n false s = .ok (bs, t) ∧ v = vecOfBytes (bs.take (s.blk.streams[n]).vbytes)

/-- Writing the elements `new` under the mask `act` to a vector destination (R177): inactive elements keep their values
in a register and are zero in a queue or a stream. -/
def PutsV (w : Nat) (act : Mask) (o : Opd) (s : State) (new : List Nat) (t : State) : Prop :=
  match o with
  | .reg n =>
    s.blk.holders[bankOf n] = .v ∧ s.blk.pending .v (.reg n) = false ∧
      t = { s with blk := { s.blk with v := s.blk.v.set n (ofElems w ((List.range (2048 / w)).map fun e =>
        if act.getLsbD e then new[e]?.getD 0 else elem w s.blk.v[n] e)) } }
  | .port (.vq n) =>
    FirstPush .v (.port (.vq n)) s ∧ (s.blk.vq[n]).length + s.blk.inflightTo (.port (.vq n)) < 4 ∧
      t = { s with blk := s.blk.pushVq n (ofElems w ((List.range (2048 / w)).map fun e =>
        if act.getLsbD e then new[e]?.getD 0 else 0)) }
  | .port (.g n) =>
    appendStream .v n (vecBytes (ofElems w ((List.range (2048 / w)).map fun e =>
        if act.getLsbD e then new[e]?.getD 0 else 0))) [] s = .ok ((), t)
  | .port (.q _) => False

/-- The bank check of R40 passes for every register among the operands. -/
def BanksOk (l : List Opd) (s : State) : Prop :=
  ∀ o ∈ l, match o with
    | .reg n => s.blk.holders[bankOf n] = .v
    | .port _ => True

/-- What a physical address holds is unchanged from `s` to `t`, outside `n` bytes from `p`. -/
def MemSame (s t : State) (p n : Nat) : Prop := ∀ a, (a < p ∨ p + n ≤ a) → Mem.read t.mem a = Mem.read s.mem a

end Claims

end Sys2Proof
end

