-- ==== Sys2Proof/Certificates/Slice0/Obligations.lean ====
section
/-! DEFINITION. The statements for the provers. Those about instructions say that `exec` answers a next state, which one,
and so what it leaves unchanged, under hypotheses on the state and the operands alone. Tables name the constructors that
one statement covers. -/

namespace Sys2Proof.Claims

open Sys2Proof Sys2Proof.Machine

/-! ## Integer tables (R106, R108) -/

/-- The bitwise, shifting and comparing instructions of the c strand, format R: the value of D. -/
def cPlain : Instr → Option (RArgs × (Dword → Dword → Dword))
  | .cMulh x => some (x, fun a b => BitVec.ofInt 64 (a.toInt * b.toInt / 2 ^ 64))
  | .cMulhu x => some (x, fun a b => BitVec.ofNat 64 (a.toNat * b.toNat / 2 ^ 64))
  | .cDivu x => some (x, fun a b => if b = 0 then BitVec.allOnes 64 else a / b)
  | .cRem x => some (x, fun a b => if b = 0 then a else BitVec.ofInt 64 (a.toInt.tmod b.toInt))
  | .cRemu x => some (x, fun a b => if b = 0 then a else a % b)
  | .cAnd x => some (x, fun a b => a &&& b)
  | .cOr x => some (x, fun a b => a ||| b)
  | .cXor x => some (x, fun a b => a ^^^ b)
  | .cAndn x => some (x, fun a b => a &&& ~~~b)
  | .cShl x => some (x, fun a b => a <<< (b.toNat % 64))
  | .cShr x => some (x, fun a b => a >>> (b.toNat % 64))
  | .cSar x => some (x, fun a b => BitVec.ofInt 64 (a.toInt / 2 ^ (b.toNat % 64)))
  | .cRot x => some (x, fun a b => (a >>> (b.toNat % 64)) ||| (a <<< ((64 - b.toNat % 64) % 64)))
  | .cMin x => some (x, fun a b => if b.toInt < a.toInt then b else a)
  | .cMax x => some (x, fun a b => if a.toInt < b.toInt then b else a)
  | .cMinu x => some (x, fun a b => if b.toNat < a.toNat then b else a)
  | .cMaxu x => some (x, fun a b => if a.toNat < b.toNat then b else a)
  | .cBfx x => some (x, fun a b =>
      (a >>> (b.toNat % 64)) &&& BitVec.ofNat 64 (2 ^ min (b.toNat / 256 % 128) (64 - b.toNat % 64) - 1))
  | .cSext x => some (x, fun a b =>
      let n := if b.toNat % 128 = 0 ∨ 64 < b.toNat % 128 then 64 else b.toNat % 128
      (a.setWidth n).signExtend 64)
  | .cZext x => some (x, fun a b =>
      let n := if b.toNat % 128 = 0 ∨ 64 < b.toNat % 128 then 64 else b.toNat % 128
      (a.setWidth n).setWidth 64)
  | _ => none

/-- The same with an immediate: its value, sign-extended but for the shifts, and the value of D. -/
def cPlainK : Instr → Option (KArgs × Dword × (Dword → Dword → Dword))
  | .cMulhK x => some (x, x.imm.signExtend 64, fun a b => BitVec.ofInt 64 (a.toInt * b.toInt / 2 ^ 64))
  | .cMulhuK x => some (x, x.imm.signExtend 64, fun a b => BitVec.ofNat 64 (a.toNat * b.toNat / 2 ^ 64))
  | .cDivuK x => some (x, x.imm.signExtend 64, fun a b => if b = 0 then BitVec.allOnes 64 else a / b)
  | .cRemK x => some (x, x.imm.signExtend 64, fun a b => if b = 0 then a else BitVec.ofInt 64 (a.toInt.tmod b.toInt))
  | .cRemuK x => some (x, x.imm.signExtend 64, fun a b => if b = 0 then a else a % b)
  | .cAndK x => some (x, x.imm.signExtend 64, fun a b => a &&& b)
  | .cOrK x => some (x, x.imm.signExtend 64, fun a b => a ||| b)
  | .cXorK x => some (x, x.imm.signExtend 64, fun a b => a ^^^ b)
  | .cAndnK x => some (x, x.imm.signExtend 64, fun a b => a &&& ~~~b)
  | .cShlK x => some (x, x.imm.setWidth 64, fun a b => a <<< b.toNat)
  | .cShrK x => some (x, x.imm.setWidth 64, fun a b => a >>> b.toNat)
  | .cSarK x => some (x, x.imm.setWidth 64, fun a b => BitVec.ofInt 64 (a.toInt / 2 ^ b.toNat))
  | .cRotK x => some (x, x.imm.setWidth 64, fun a b => (a >>> b.toNat) ||| (a <<< ((64 - b.toNat) % 64)))
  | .cMinK x => some (x, x.imm.signExtend 64, fun a b => if b.toInt < a.toInt then b else a)
  | .cMaxK x => some (x, x.imm.signExtend 64, fun a b => if a.toInt < b.toInt then b else a)
  | .cMinuK x => some (x, x.imm.signExtend 64, fun a b => if b.toNat < a.toNat then b else a)
  | .cMaxuK x => some (x, x.imm.signExtend 64, fun a b => if a.toNat < b.toNat then b else a)
  | _ => none

/-- The instructions that SAT applies to, with the exact result; `div` by zero aside (R107). -/
def cExact : Instr → Option (RArgs × (Int → Int → Int))
  | .cAdd x => some (x, fun a b => a + b)
  | .cSub x => some (x, fun a b => a - b)
  | .cMul x => some (x, fun a b => a * b)
  | .cDiv x => some (x, fun a b => if b = 0 then -1 else a.tdiv b)
  | _ => none

/-- The same with an immediate. -/
def cExactK : Instr → Option (KArgs × (Int → Int → Int))
  | .cAddK x => some (x, fun a b => a + b)
  | .cSubK x => some (x, fun a b => a - b)
  | .cMulK x => some (x, fun a b => a * b)
  | .cDivK x => some (x, fun a b => if b = 0 then -1 else a.tdiv b)
  | _ => none

/-- Moves and counts of bits: the value of D. -/
def cUnary : Instr → Option (UArgs × (Dword → Dword))
  | .cClz x => some (x, fun a => BitVec.ofNat 64 (if a = 0 then 64 else 63 - a.toNat.log2))
  | .cCtz x => some (x, fun a => BitVec.ofNat 64 (((List.range 64).find? fun i => a.getLsbD i).getD 64))
  | .cPopc x => some (x, fun a => BitVec.ofNat 64 ((List.range 64).countP fun i => a.getLsbD i))
  | .cMov x => some (x, fun a => a)
  | _ => none

/-- The instructions that read D as well: the value of D from A, B and D (R108). -/
def cMerge : Instr → Option (RArgs × (Dword → Dword → Dword → Dword))
  | .cSel x => some (x, fun a b d => if d = 0 then b else a)
  | .cBfi x => some (x, fun a b d =>
      let p := b.toNat % 64
      let w := min (b.toNat / 256 % 128) (64 - p)
      let m : Dword := BitVec.ofNat 64 (2 ^ w - 1)
      (d &&& ~~~(m <<< p)) ||| ((a &&& m) <<< p))
  | _ => none

end Sys2Proof.Claims

open Sys2Proof Sys2Proof.Machine Sys2Proof.Claims

/-- R106, R108: each plain integer instruction reads A, then B, writes its value to D and goes on; nothing else of the
state changes but a queue that A or B pops, and the acquires and releases that a `pfxo` gives ports. -/
def Sys2Proof.Claims.CPlainResult : Prop :=
  ∀ i s x f a b s1 s2 s3, cPlain i = some (x, f) → (s.str .c).holds x.pred = true →
    Takes .c x.a s a s1 → Takes .c x.b s1 b s2 → Puts .c x.d s2 (f a b) s3 →
    exec i s = .next ((ordered .c [x.a, x.b] [x.d] s3).complete .c 1 .go)

/-- R106: the immediate forms: IMM6 is sign-extended, and read unsigned by the shifts. -/
def Sys2Proof.Claims.CPlainImmediate : Prop :=
  ∀ i s x k f a s1 s2, cPlainK i = some (x, k, f) → (s.str .c).holds x.pred = true →
    Takes .c x.a s a s1 → Puts .c x.d s1 (f a k) s2 →
    exec i s = .next ((ordered .c [x.a] [x.d] s2).complete .c 1 .go)

/-- R61, R106, R107: `add`, `sub`, `mul` and `div` form the exact result; a prefix with SAT clamps it to the signed range
and sets STATUS.SAT, and without it the result wraps. -/
def Obligations.CExactResult : Prop :=
  (∀ i s x f a b s1 s2 s3, cExact i = some (x, f) → (s.str .c).holds x.pred = true →
    Takes .c x.a s a s1 → Takes .c x.b s1 b s2 →
    let r := clamp64 (s.str .c).pfx.ctl.sat (f a.toInt b.toInt)
    Puts .c x.d (satIf r.2 s2) r.1 s3 →
    exec i s = .next ((ordered .c [x.a, x.b] [x.d] s3).complete .c 1 .go)) ∧
  (∀ i s x f a s1 s2, cExactK i = some (x, f) → (s.str .c).holds x.pred = true →
    Takes .c x.a s a s1 →
    let r := clamp64 (s.str .c).pfx.ctl.sat (f a.toInt x.imm.toInt)
    Puts .c x.d (satIf r.2 s1) r.1 s2 →
    exec i s = .next ((ordered .c [x.a] [x.d] s2).complete .c 1 .go))

/-- R108: `clz`, `ctz`, `popc` and `mov`; `sel` and `bfi`, which read D after A and B; and `li`. -/
def Obligations.CBitsAndMoves : Prop :=
  (∀ i s x f a s1 s2, cUnary i = some (x, f) → (s.str .c).holds x.pred = true →
    Takes .c x.a s a s1 → Puts .c x.d s1 (f a) s2 →
    exec i s = .next ((ordered .c [x.a] [x.d] s2).complete .c 1 .go)) ∧
  (∀ i s x f a b d s1 s2 s3 s4, cMerge i = some (x, f) → (s.str .c).holds x.pred = true →
    Takes .c x.a s a s1 → Takes .c x.b s1 b s2 → Takes .c x.d s2 d s3 → Puts .c x.d s3 (f a b d) s4 →
    exec i s = .next ((ordered .c [x.a, x.b, x.d] [x.d] s4).complete .c 1 .go)) ∧
  (∀ s x s1, (s.str .c).holds x.pred = true → Puts .c x.d s (x.imm.signExtend 64) s1 →
    exec (.cLi x) s = .next ((ordered .c [] [x.d] s1).complete .c 2 .go))

namespace Sys2Proof.Claims

open Sys2Proof Sys2Proof.Machine

/-! ## Floating point of the c strand (R110 to R112) -/

/-- The generators and sticky bits of the block in focus. -/
def numOf (s : State) : NumSt := { rsto := s.blk.rsto, st := s.blk.status }

/-- The block in focus with other generators and sticky bits. -/
def withNum (s : State) (n : NumSt) : State := { s with blk := { s.blk with rsto := n.rsto, status := n.st } }

/-- The fp32 operations of two operands: the exact result in a rounding mode. -/
def cFloat2 : Instr → Option (RArgs × (Rm → Val → Val → Val))
  | .cFadd x => some (x, fun rm a b => a.add rm b)
  | .cFsub x => some (x, fun rm a b => a.add rm b.neg)
  | .cFmul x => some (x, fun _ a b => a.mul b)
  | .cFmin x => some (x, fun _ a b => a.pickMin b)
  | .cFmax x => some (x, fun _ a b => a.pickMax b)
  | _ => none

/-- The format of a floating-point `c.fcvt` type, and the width of an integer one. -/
def cvtKind : CTy → Fmt ⊕ Nat
  | .fp32 => .inl .fp32
  | .bf16 => .inl .bf16
  | .fp16 => .inl .fp16
  | .e4m3 => .inl .e4m3
  | .e5m2 => .inl .e5m2
  | .i32 => .inr 32
  | .i64 => .inr 64

/-- The value that a source type gives the low bits of A. -/
def cvtFrom (t : CTy) (ftz : Bool) (a : Dword) : Val :=
  match cvtKind t with
  | .inl f => f.value ftz (a.toNat % 2 ^ (1 + f.ew + f.fw))
  | .inr w => .ofInt (a.setWidth w).toInt

/-- The destination's value and what rounding leaves of generators and sticky bits. -/
def cvtTo (t : CTy) (c : FpCtl) (v : Val) (n : NumSt) : Dword × NumSt :=
  match cvtKind t with
  | .inl f => let (r, n) := f.deliver c 192 v n; (BitVec.ofNat 64 r, n)
  | .inr w => let (r, n) := deliverInt w c 192 v n; (BitVec.ofInt 64 r, n)

/-! ## Comparisons and predicates -/

/-- What a relation says of two doublewords (R109). -/
def relSays (r : Rel) (a b : Dword) : Bool :=
  match r with
  | .eq => a == b
  | .ne => a != b
  | .lt => a.toInt < b.toInt
  | .ge => b.toInt ≤ a.toInt
  | .gt => b.toInt < a.toInt
  | .le => a.toInt ≤ b.toInt
  | .ltu => a.toNat < b.toNat
  | .geu => b.toNat ≤ a.toNat

/-- Comparisons of two operands: the strand and the truth value, given the strand's prefix. -/
def compares : Instr → Option (Eng × CmpArgs × (Latch → Dword → Dword → Bool))
  | .cCmp x => some (.c, x, fun _ a b => relSays x.rel a b)
  | .aCmp x => some (.a, x, fun _ a b => relSays x.rel a b)
  | .cFcmp x => some (.c, x, fun l a b =>
      (Fmt.fp32.value l.ctl.ftz (a.toNat % 2 ^ 32)).rel x.rel (Fmt.fp32.value l.ctl.ftz (b.toNat % 2 ^ 32)))
  | _ => none

/-- Comparisons with an immediate. -/
def comparesK : Instr → Option (Eng × CmpKArgs)
  | .cCmpK x => some (.c, x)
  | .aCmpK x => some (.a, x)
  | _ => none

/-- The predicate instructions: destination and truth value. -/
def predOps : Instr → Option (Pred × Fin 8 × (Strand → Bool))
  | .cPand x => some (x.pred, x.d, fun st => st.pred x.a && st.pred x.b)
  | .cPor x => some (x.pred, x.d, fun st => st.pred x.a || st.pred x.b)
  | .cPnot x => some (x.pred, x.d, fun st => !st.pred x.a)
  | _ => none

/-! ## Targets, branches and loops -/

/-- The label forms of `ptgt`. -/
def labels : Instr → Option (Eng × PtgtLArgs)
  | .cPtgtLabel x => some (.c, x)
  | .aPtgt x => some (.a, x)
  | .vPtgt x => some (.v, x)
  | _ => none

/-- The `jt` of each strand that has one. -/
def jumps : Instr → Option (Eng × JtArgs)
  | .cJt x => some (.c, x)
  | .aJt x => some (.a, x)
  | .vJt x => some (.v, x)
  | _ => none

/-- The line `l` has an instruction that a taken transfer may enter at address `t` (R94): not word 0, not beyond COUNT,
the beginning of a decoding step, and not directly after a prefix. -/
def Enters (l : LineBuf) (t : Dword) : Prop :=
  wordOf t ≠ 0 ∧ wordOf t ≤ linkCount (l.words[0]) ∧ stepAt l (wordOf t) 16 1 false = some false

/-- The loops of the scalar strands. -/
def loopsS : Instr → Option (Eng × LoopArgs)
  | .cLoop x => some (.c, x)
  | .aLoop x => some (.a, x)
  | _ => none

/-- The forced loops that a `loop` of `x` leaves in a strand (R293). -/
def forcedLeft (x : LoopArgs) (st : Strand) : List Forced :=
  if st.forcedFlag then st.forced else st.forced.filter fun f => f.lc != x.lc

/-- Strand `e` of `s` with the loop of `x` armed for `n` iterations (R115). -/
def armed (e : Eng) (x : LoopArgs) (n : Word) (s : State) : State :=
  s.modStr e fun st =>
    { st with
      lc := st.lc.set x.lc n
      forced := forcedLeft x st
      arms := { lc := x.lc, stop := targetAddr st.pc x.stop,
                body := match following st.pc st.link (st.span 2) with
                  | some (p, _) => p
                  | none => 0
                rline := st.fpLine, seq := st.nextSeq } :: st.arms.filter fun y => y.lc != x.lc }

/-- The strand of `s` with the counter of `x` at 0 and disarmed, as a `loop` with count 0 leaves it. -/
def zeroed (e : Eng) (x : LoopArgs) (forced : List Forced) (s : State) : State :=
  s.modStr e fun st =>
    { st with lc := st.lc.set x.lc 0, forced := forced, arms := st.arms.filter fun y => y.lc != x.lc }

/-- The counters of some loops at 0. -/
def spent (l : List Arm) (lc : Vector Word 4) : Vector Word 4 := l.foldl (fun v y => v.set y.lc 0) lc

/-- Strand `e` of the block `u`, put into focus as `t`, has a back-edge decision pending at `a`, and may make it, with no
checkpoint that forces loops to end; no counter is armed twice. -/
def Deciding (s t : State) (u : Nat) (e : Eng) (a : Dword) (ended : Bool) : Prop :=
  (s.blockAt u).isSome = true ∧ t = s.focus u ∧ (t.str e).stop = none ∧ t.cx.st.val ≤ 1 ∧
    t.blk.scout.discarded = false ∧ t.blk.ckpt = .none ∧ (t.str e).edge = some (a, ended) ∧
    ((t.str e).arms.map fun y => y.lc).Nodup

/-- Words of the instruction that begins at word `k` of a line, its prefix included. -/
def instrWords (l : LineBuf) (k : Nat) : Nat :=
  if selector (l.word k) = 2 then 1 + stepLen (l.word (k + 1)) else stepLen (l.word k)

end Sys2Proof.Claims

open Sys2Proof Sys2Proof.Machine Sys2Proof.Claims

/-- R63, R69, R110: `fadd`, `fsub`, `fmul`, `fmin` and `fmax` form the exact fp32 result and round it once in the
prefix's mode with generator 192; `fma` rounds A·B + D once. -/
def Sys2Proof.Claims.CFloatResult : Prop :=
  (∀ i s x f a b s1 s2 s3, cFloat2 i = some (x, f) → (s.str .c).holds x.pred = true →
    Takes .c x.a s a s1 → Takes .c x.b s1 b s2 →
    let c := (s.str .c).pfx.ctl
    let v := fun y : Dword => Fmt.fp32.value c.ftz (y.toNat % 2 ^ 32)
    let r := Fmt.fp32.deliver c 192 (f c.rm (v a) (v b)) (numOf s2)
    Puts .c x.d (withNum s2 r.2) (BitVec.ofNat 64 r.1) s3 →
    exec i s = .next ((ordered .c [x.a, x.b] [x.d] s3).complete .c 1 .go)) ∧
  (∀ s x a b d s1 s2 s3 s4, (s.str .c).holds x.pred = true →
    Takes .c x.a s a s1 → Takes .c x.b s1 b s2 → Takes .c x.d s2 d s3 →
    let c := (s.str .c).pfx.ctl
    let v := fun y : Dword => Fmt.fp32.value c.ftz (y.toNat % 2 ^ 32)
    let r := Fmt.fp32.deliver c 192 (((v a).mul (v b)).add c.rm (v d)) (numOf s3)
    Puts .c x.d (withNum s3 r.2) (BitVec.ofNat 64 r.1) s4 →
    exec (.cFma x) s = .next ((ordered .c [x.a, x.b, x.d] [x.d] s4).complete .c 1 .go))

/-- R111: `fcvt` reads A in its source type and delivers it in its destination type. -/
def Sys2Proof.Claims.CConvert : Prop :=
  ∀ s x a s1 s2, (s.str .c).holds x.pred = true → Takes .c x.a s a s1 →
    let c := (s.str .c).pfx.ctl
    let r := cvtTo x.dst c (cvtFrom x.src c.ftz a) (numOf s1)
    Puts .c x.d (withNum s1 r.2) r.1 s2 →
    exec (.cFcvt x) s = .next ((ordered .c [x.a] [x.d] s2).complete .c 1 .go)

/-- R62, R69: in every format and mode, the value of a code that is no NaN rounds back to that code, and no sticky bit is
set. -/
def Obligations.RoundingKeepsValues : Prop :=
  ∀ f ∈ [Fmt.fp32, Fmt.bf16, Fmt.fp16, Fmt.e4m3, Fmt.e5m2, Fmt.e2m1], ∀ (code g : Nat) (rm : Rm) (a : NumSt),
    code < 2 ^ (1 + f.ew + f.fw) → g < 2 ^ 32 → f.value false code ≠ .nan →
    f.round { rm := rm, sat := false, ftz := false } g (f.value false code) a = (code, a)

/-- R109, R112, R142: comparisons write one predicate of their strand and nothing else; p0 discards it. -/
def Sys2Proof.Claims.CompareResult : Prop :=
  (∀ i s e x f a b s1 s2, compares i = some (e, x, f) → (s.str e).holds x.pred = true →
    Takes e x.a s a s1 → Takes e x.b s1 b s2 →
    exec i s = .next ((ordered e [x.a, x.b] [] (s2.modStr e fun st =>
      if x.pd = 0 then st else { st with preds := st.preds.set x.pd (f (s.str e).pfx a b) })).complete e 1 .go)) ∧
  (∀ i s e x a s1, comparesK i = some (e, x) → (s.str e).holds x.pred = true → Takes e x.a s a s1 →
    exec i s = .next ((ordered e [x.a] [] (s1.modStr e fun st =>
      if x.pd = 0 then st else { st with preds := st.preds.set x.pd (relSays x.rel a (x.imm.signExtend 64)) })).complete
        e 1 .go))

/-- R16, R109: `pand`, `por` and `pnot`. -/
def Sys2Proof.Claims.PredicateResult : Prop :=
  ∀ i s p d f, predOps i = some (p, d, f) → (s.str .c).holds p = true →
    exec i s = .next ((s.modStr .c fun st =>
      if d = 0 then st else { st with preds := st.preds.set d (f st) }).complete .c 1 .go)

/-- R89, R113, R199: `ptgt` writes a target register: a label's address, or bits [56:2] of an aligned register; a misaligned one
raises trap 0x33. That A may be a queue, and that a target keeps the low 57 bits of an address, is the model's reading (logs 58,
19). -/
def Obligations.BranchTargets : Prop :=
  (∀ i s e x, labels i = some (e, x) → (s.str e).holds x.pred = true →
    exec i s = .next ((s.modStr e fun st =>
      { st with b := st.b.set x.b (lineOf st.pc + BitVec.ofInt 64 (64 * x.tgt.loff.toInt) +
        BitVec.ofNat 64 (4 * x.tgt.word.val)) }).complete e 2 .go)) ∧
  (∀ s x a s1, (s.str .c).holds x.pred = true → Takes .c x.a s a s1 → a.toNat % 4 = 0 →
    exec (.cPtgt x) s = .next ((ordered .c [x.a] [] (s1.modStr .c fun st =>
      { st with b := st.b.set x.b ((a.setWidth 57).setWidth 64) })).complete .c 1 .go)) ∧
  (∀ s x a s1, (s.str .c).holds x.pred = true → Takes .c x.a s a s1 → a.toNat % 4 ≠ 0 →
    exec (.cPtgt x) s = .next (s.raise .c { cause := 0x33, faddr := 0, aux := 0, sub := 0, pc := none }))

/-- R94, R114: a taken `jt` whose target may be entered hands on with two delay slots and then its target; one not taken
hands on with two delay slots; `jtl` also writes its link value: the address of the instruction after its second delay slot, in the same
line or at word 1 of the line that NEXT names, and 0 where the chain ends first. -/
def Sys2Proof.Claims.BranchesTaken : Prop :=
  (∀ i s e x l s1, jumps i = some (e, x) → s.inSlot e = false → (s.str e).holds x.pred = true →
    lineAt e ((s.str e).b[x.b]) s = .ok (l, s1) → Enters l ((s.str e).b[x.b]) →
    exec i s = .next (s1.complete e 1 (.slots (some ((s.str e).b[x.b]))))) ∧
  (∀ i s e x, jumps i = some (e, x) → s.inSlot e = false → (s.str e).holds x.pred = false →
    exec i s = .next (s.complete e 1 (.slots none))) ∧
  (∀ s x l s1 v s2 s3, s.inSlot .c = false → (s.str .c).holds x.pred = true →
    lineAt .c ((s.str .c).b[x.b]) s = .ok (l, s1) → Enters l ((s.str .c).b[x.b]) →
    linkValue .c s1 = .ok (v, s2) → Puts .c x.d s2 v s3 →
    exec (.cJtl x) s = .next ((ordered .c [] [x.d] s3).complete .c 1 (.slots (some ((s.str .c).b[x.b]))))) ∧
  (∀ s l, (s.str .c).line = some l → l.addr = lineOf (s.str .c).pc →
    let k0 := wordOf (s.str .c).pc
    let k1 := k0 + instrWords l k0
    let k2 := k1 + instrWords l k1
    let k3 := k2 + instrWords l k2
    k2 ≤ linkCount (l.words[0]) →
    (k3 ≤ linkCount (l.words[0]) → linkValue .c s = .ok ((s.str .c).pc + BitVec.ofNat 64 (4 * (k3 - k0)), s)) ∧
    (linkCount (l.words[0]) < k3 → linkNext (l.words[0]) ≠ 0 →
      linkValue .c s = .ok (l.addr + BitVec.ofInt 64 (64 * linkNext (l.words[0])) + 4, s))) ∧
  (∀ s l, (s.str .c).line = some l → l.addr = lineOf (s.str .c).pc → linkNext (l.words[0]) = 0 →
    let k0 := wordOf (s.str .c).pc
    let k1 := k0 + instrWords l k0
    let k2 := k1 + instrWords l k1
    linkCount (l.words[0]) < k2 + instrWords l k2 → linkValue .c s = .ok (0, s))

/-- R94, R245: a taken `jt` whose target is word 0, beyond COUNT or no beginning of a step traps 0x01, and one directly
after a prefix traps 0x05, each with the target as failing address; nothing of the branch takes effect. -/
def Sys2Proof.Claims.BranchTargetTraps : Prop :=
  ∀ i s e x l s1, jumps i = some (e, x) → s.inSlot e = false → (s.str e).holds x.pred = true →
    let t := (s.str e).b[x.b]
    lineAt e t s = .ok (l, s1) →
    ((wordOf t = 0 ∨ linkCount (l.words[0]) < wordOf t ∨ stepAt l (wordOf t) 16 1 false = none) →
      exec i s = .next (s.raise e { cause := 0x01, faddr := t, aux := 0, sub := 0, pc := none })) ∧
    ((wordOf t ≠ 0 ∧ wordOf t ≤ linkCount (l.words[0]) ∧ stepAt l (wordOf t) 16 1 false = some true) →
      exec i s = .next (s.raise e { cause := 0x05, faddr := t, aux := 0, sub := 0, pc := none }))

/-- R114: after a taken branch with two more instructions in its line, the two delay slots complete and then the strand
stands at the target. -/
def Sys2Proof.Claims.TwoDelaySlots : Prop :=
  ∀ (st : Strand) (t : Dword) (n1 n2 : Nat), st.arms = [] → st.pfx = .none → st.slots = 0 → st.branch = none →
    0 < n1 → 0 < n2 → wordOf st.pc + 1 + n1 + n2 ≤ linkCount st.link → linkCount st.link ≤ 15 →
    let s1 := st.complete 1 (.slots (some t))
    let s2 := s1.complete n1 .go
    let s3 := s2.complete n2 .go
    s1.pc = st.pc + 4 ∧ s2.pc = st.pc + 4 + BitVec.ofNat 64 (4 * n1) ∧ s3.pc = t ∧ s3.slots = 0 ∧ s3.branch = none

/-- R84: a strand with no pending branch and no loop ending at its pc goes on at the next word within COUNT, else at word 1
of the line that NEXT names, and finishes where NEXT is 0. -/
def Sys2Proof.Claims.NextInstruction : Prop :=
  ∀ (st : Strand) (n : Nat), st.branch = none → st.arms = [] → st.again = false → st.pfx = .none → 0 < n →
    let t := st.complete n .go
    (wordOf st.pc + n ≤ linkCount st.link →
      t.pc = st.pc + BitVec.ofNat 64 (4 * n) ∧ t.entering = false ∧ t.finished = st.finished) ∧
    (linkCount st.link < wordOf st.pc + n → linkNext st.link ≠ 0 →
      t.pc = lineOf st.pc + BitVec.ofInt 64 (64 * linkNext st.link) + 4 ∧ t.entering = true ∧
        t.finished = st.finished) ∧
    (linkCount st.link < wordOf st.pc + n → linkNext st.link = 0 → t.finished = true)

/-- R115, R142, R199: `loop` takes its count (lane 0 of a vector register or queue entry in the v strand), arms its
counter with it and goes on with the body; with a count of 0 it goes on after the body's last instruction. A count that a
restored checkpoint left stands in for the operand (R293). -/
def Sys2Proof.Claims.Loops : Prop :=
  (∀ i s e x a s1, loopsS i = some (e, x) → s.inSlot e = false → (s.str e).holds x.pred = true → Takes e x.a s a s1 →
    (s.str e).loopCount x.lc (a.setWidth 32) ≠ 0 →
    exec i s = .next ((armed e x ((s.str e).loopCount x.lc (a.setWidth 32)) (ordered e [x.a] [] s1)).complete e 2 .go)) ∧
  (∀ i s e x a s1 l s2, loopsS i = some (e, x) → s.inSlot e = false → (s.str e).holds x.pred = true →
    Takes e x.a s a s1 → (s.str e).loopCount x.lc (a.setWidth 32) = 0 →
    let stop := targetAddr (s.str e).pc x.stop
    lineAt e stop (ordered e [x.a] [] s1) = .ok (l, s2) →
    exec i s = .next ((zeroed e x (forcedLeft x (s.str e)) s2).complete e 2 (.past stop l (instrWords l (wordOf stop))))) ∧
  (∀ s x v s1, s.inSlot .v = false → (s.str .v).holds x.pred = true → TakesV 32 x.a s v s1 →
    (s.str .v).loopCount x.lc (v[0]) ≠ 0 →
    exec (.vLoop x) s =
      .next ((armed .v x ((s.str .v).loopCount x.lc (v[0])) (ordered .v [x.a] [] s1)).complete .v 2 .go)) ∧
  (∀ s x v s1 l s2, s.inSlot .v = false → (s.str .v).holds x.pred = true →
    TakesV 32 x.a s v s1 → (s.str .v).loopCount x.lc (v[0]) = 0 →
    let stop := targetAddr (s.str .v).pc x.stop
    lineAt .v stop (ordered .v [x.a] [] s1) = .ok (l, s2) →
    exec (.vLoop x) s = .next ((zeroed .v x (forcedLeft x (s.str .v)) s2).complete .v 2 (.past stop l (instrWords l (wordOf stop)))))

/-- R115: LOOP_BACK_EDGE. Where no checkpoint forces loops to end, the loops that end at the completed address decide, the
most recently armed first: each whose counter reaches 0 is left, and the first whose counter does not takes the back-edge to
its first body instruction, so of a nest that ends at one address the inner loops are left and an outer one goes on. A target
that fails R94 traps at that instruction, and the strand stands as before the decision, so that it decides again when it resumes (R245).
Where every such counter reaches 0 the strand goes on after them, or finishes where its
chain ends. -/
def Sys2Proof.Claims.LoopBackEdge : Prop :=
  (∀ s t u e a ended pre x post, Deciding s t u e a ended → (t.str e).arms = pre ++ x :: post →
    (∀ y ∈ pre, y.stop = a → (t.str e).lc[y.lc] = 1) → x.stop = a → (t.str e).lc[x.lc] ≠ 1 →
    (∀ t1, checkTarget e x.body t = .ok ((), t1) →
      exec (.loopBackEdge u e) s = .next (t1.modStr e fun _ =>
        { (t.str e) with
          lc := (spent (pre.filter fun y => y.stop = a) (t.str e).lc).set x.lc ((t.str e).lc[x.lc] - 1),
          arms := (pre.filter fun y => y.stop ≠ a) ++ x :: post, pc := x.body,
          entering := !(t.str e).holdsLine x.body, slots := 0, branch := none, edge := none })) ∧
    (∀ z, checkTarget e x.body t = .error (.trap z) →
      let r := t.raise e { z with pc := some (z.pc.getD a) }
      exec (.loopBackEdge u e) s = .next (if (r.str e).stop.isSome then
        r.modStr e fun st => { t.str e with stop := st.stop, pfx := .none } else r))) ∧
  (∀ s t u e a ended, Deciding s t u e a ended → (∀ y ∈ (t.str e).arms, y.stop = a → (t.str e).lc[y.lc] = 1) →
    (t.str e).again = false →
    exec (.loopBackEdge u e) s = .next (t.modStr e fun st =>
      { st with lc := spent (st.arms.filter fun y => y.stop = a) st.lc, arms := st.arms.filter fun y => y.stop ≠ a,
                edge := none, finished := st.finished || ended }))

/-- R92, R93: a prefix word is latched for the step that follows it and changes nothing else. -/
def Sys2Proof.Claims.PrefixLatched : Prop :=
  (∀ s e rmv rm sat ftz, exec (.pfx e rmv rm sat ftz) s =
    .next (s.modStr e fun st => { st with pfx := .fp rmv rm sat ftz })) ∧
  (∀ s e o, exec (.pfxo e o) s = .next (s.modStr e fun st => { st with pfx := .ord o }))

namespace Sys2Proof.Claims

open Sys2Proof Sys2Proof.Machine

/-! ## Tokens, barriers, CSRs, rings -/

/-- Reading a scalar operand without taking it: a register, or the head of a queue that is not empty. -/
def Peeks (e : Eng) (o : Opd) (s : State) (v : Dword) (q : Option (Fin 16)) : Prop :=
  match o with
  | .reg n => s.blk.pending e (.reg n) = false ∧ v = s.blk.scalar e n ∧ q = none
  | .port (.q n) => s.blk.pending e (.port (.q n)) = false ∧ (∃ r, s.blk.q[n] = v :: r) ∧ q = some n
  | .port _ => False

/-- The value of each CSR of the block in focus (R26, R128). -/
def csrSays (s : State) : Csr → Dword
  | .blockid => BitVec.ofNat 64 s.blk.bidx.toNat
  | .dieid => BitVec.ofNat 64 (virtDie (s.hub.partdies[Fin.ofNat 32 s.blk.part]) s.blk.die.val)
  | .coreid => BitVec.ofNat 64 (virtCore (s.hub.partdies[Fin.ofNat 32 s.blk.part]) s.blk.die.val s.blk.core)
  | .slipw => BitVec.ofNat 64 s.blk.slipw.toNat
  | .status => BitVec.ofNat 64 s.blk.status.toNat
  | .trapcause => BitVec.ofNat 64 s.blk.trapcause.toNat
  | .cycle => BitVec.ofNat 64 s.blk.cyc
  | .phase => BitVec.ofNat 64 (s.ctxs[Fin.ofNat 1024 s.blk.ctx]).phase.val
  | .scoutk =>
    let x := s.blk.scout
    BitVec.ofNat 64 (x.iter.toNat * 2 ^ 32 + x.acc % 16 * 2 ^ 12 + x.kr % 16 * 2 ^ 8 + x.k % 16)
  | .leave => BitVec.ofNat 64 (s.blk.grants.toNat * 2 ^ 32 + s.blk.stall.toNat)

/-- The block in focus with a CSR written: W of SLIPW, where 0 stores 1, and the sticky bits of STATUS, where 1
clears. -/
def withCsr (s : State) (c : Csr) (v : Dword) : State :=
  match c with
  | .slipw => { s with blk := { s.blk with slipw := if v.setWidth 8 = (0 : Byte) then 1 else v.setWidth 8 } }
  | .status => { s with blk := { s.blk with status := s.blk.status &&& ~~~(v.setWidth 6) } }
  | _ => s

/-- A task's estimate written. -/
def withEst (s : State) (task : Nat) (v : Word) : State :=
  { s with tasks := s.tasks.map fun t => if t.key == task then { t with est := v } else t }

/-- The block in focus with a token flag changed. -/
def withFlag (s : State) (n : Fin 64) (f : Flag) : State :=
  { s with blk := { s.blk with flags := s.blk.flags.set n f } }

/-- The block in focus with a guard slot resolved. -/
def withGuard (s : State) (n : Fin 16) (b : Bool) : State :=
  { s with blk := { s.blk with gs := s.blk.gs.set n (some b) } }

/-- A ring's count is given: an immediate, or the low 32 bits of a popped entry. -/
def Counts (n : RCount) (s : State) (k : Nat) (t : State) : Prop :=
  match n with
  | .imm i => k = i.val ∧ t = s
  | .q q => ∃ v, Takes .c (.port (.q q)) s v t ∧ k = v.toNat % 2 ^ 32

/-- The scope of a ring instruction: the written one, else block (R49). -/
def ringSays (o : Ord) : Scope := if o.acq || o.rel then o.scope else .blk

/-- The ports of a ring count. -/
def countPorts : RCount → List Opd
  | .imm _ => []
  | .q n => [.port (.q n)]

/-- The block in focus with ring `n` changed. -/
def withRing (s : State) (n : Fin 32) (r : Ring) : State :=
  { s with blk := { s.blk with rings := s.blk.rings.set n r } }

/-- Slots published and not released, and slots neither claimed nor published (R48). -/
def filled (r : Ring) : Nat := (r.tail - r.head).toNat
def unclaimed (r : Ring) : Nat := r.cap.toNat - (r.claimed - r.head).toNat

/-- The ring instructions that wait: the predicate, the ring, the count, and how many slots are there for it. -/
def ringWaiters : Instr → Option (Pred × Fin 32 × RCount × (Ring → Nat))
  | .cRclaim x => some (x.pred, x.ring, x.n, unclaimed)
  | .cRwait x => some (x.pred, x.ring, x.n, filled)
  | .cRfree x => some (x.pred, x.ring, x.n, unclaimed)
  | _ => none

/-- Every ring instruction: the predicate and the count. -/
def ringCounts : Instr → Option (Pred × RCount)
  | .cRclaim x => some (x.pred, x.n)
  | .cRpub x => some (x.pred, x.n)
  | .cRwait x => some (x.pred, x.n)
  | .cRfree x => some (x.pred, x.n)
  | .cRrel x => some (x.pred, x.n)
  | _ => none

/-- Strand `e` of `s` after a turn in which its instruction blocked: nothing changes but that it waits, from now or since its wait
began (R30, R41). -/
def held (e : Eng) (s : State) : State :=
  s.modStr e fun st =>
    { st with wait := .blocked, pfx := .none, since := if st.wait = .blocked then st.since else s.time }

/-- A precise trap of strand `e` that carries nothing but its cause. -/
def traps (e : Eng) (c : Nat) (s : State) : State :=
  s.raise e { cause := c, faddr := 0, aux := 0, sub := 0, pc := none }

/-- What a fence hands on: the reads of loads still in flight are made; with a release the die's clock rises and the commands that
the block issues later know what the c strand knows; with an acquire those that the strand itself issues (R55, R118). -/
def fenced (o : Ord) (s : State) : State :=
  let ids := s.knownTo (.strand s.blk.uid .c)
  let s := s.settleAll (.strand s.blk.uid .c)
  let t := if o.rel then [Eng.c, .a, .v, .m, .d, .g].foldl (fun t e => t.learn (.issue s.blk.uid e) ids) (s.clockUp s.blk.die) else s
  if o.acq then t.learn (.issue s.blk.uid .c) ids else t

/-- The acquire of a token wait of flag `f` that ends at ordinal `n` (R35). -/
def flagSeen (f : Fin 64) (n : Nat) (s : State) : State := s.acquire .c (.flag s.blk.uid f n) .blk

/-- A block of a task after the completion of a group barrier: where its c strand waits there, it goes on, and the queue that the
instruction names loses its head. -/
def passed (task grp now : Nat) (b : Block) : Block :=
  match (b.str .c).wait with
  | .gbar g q =>
    if b.placed = true ∧ b.task = task ∧ g = grp then
      { (b.dropHead q).modStr .c (fun st => st.complete 1 .go) with idle := now }
    else b
  | _ => b

end Sys2Proof.Claims

open Sys2Proof Sys2Proof.Machine Sys2Proof.Claims

/-- R34, R38, R55, R118, R119, R121: `fence` hands on what the strand knows; `tkset` pushes its flag and is a release there at
block scope, `tkclr` of a full flag zeroes it, and `gset` writes a guard slot. -/
def Obligations.FencesAndFlags : Prop :=
  (∀ s x, (s.str .c).holds x.pred = true →
    (s.blk.scout.round = .closed ∨ (x.ord.acq = false ∧ x.ord.rel = false) ∨ x.ord.scope = .blk) →
    exec (.cFence x) s = .next ((fenced x.ord s).complete .c 1 .go)) ∧
  (∀ s x, (s.str .c).holds x.pred = true → (s.blk.flags[x.f]).p.toNat ≠ 2 ^ 32 - 1 →
    exec (.cTkset x) s =
      .next (((withFlag s x.f { p := (s.blk.flags[x.f]).p + 1, pend := (s.blk.flags[x.f]).pend }).release
        (.strand s.blk.uid .c) (.flag s.blk.uid x.f ((s.blk.flags[x.f]).p + 1).toNat) .blk).complete .c 1 .go)) ∧
  (∀ s x, (s.str .c).holds x.pred = true → (s.blk.flags[x.f]).p.toNat = 2 ^ 32 - 1 →
    exec (.cTkset x) s = .next (traps .c 0x34 s)) ∧
  (∀ s x, (s.str .c).holds x.pred = true → (∀ k ∈ (s.blk.flags[x.f]).pend, (s.blk.flags[x.f]).p.toNat < k) →
    exec (.cTkclr x) s = .next ((withFlag s x.f { p := 0, pend := [] }).complete .c 1 .go)) ∧
  (∀ s x, (s.str .c).holds x.pred = true →
    exec (.cGset x) s = .next ((withGuard s x.gs ((s.str .c).pred x.p)).complete .c 1 .go))

/-- R35, R36, R120: a token wait that may bind takes the flag's P as its target: it goes on at once, an acquire, where no ordinal
up to P is outstanding, and else waits, bound to P; the timeout form with a count of 0 does not wait, and its predicate says
whether the flag stood set. In both forms a P of 0 traps 0x20, and a wait that may not bind blocks. -/
def Sys2Proof.Claims.TokenWaitBinds : Prop :=
  (∀ s x, (s.str .c).holds x.pred = true → s.blk.mayBind .c = true → (s.blk.flags[x.f]).p ≠ 0 →
    (∀ k ∈ (s.blk.flags[x.f]).pend, (s.blk.flags[x.f]).p.toNat < k) →
    exec (.cTkwait x) s = .next ((flagSeen x.f (s.blk.flags[x.f]).p.toNat s).complete .c 1 .go)) ∧
  (∀ s x, (s.str .c).holds x.pred = true → s.blk.mayBind .c = true → (s.blk.flags[x.f]).p ≠ 0 →
    (∃ k ∈ (s.blk.flags[x.f]).pend, k ≤ (s.blk.flags[x.f]).p.toNat) →
    exec (.cTkwait x) s = .next (s.complete .c 1 (.wait (.tk ⟨x.f, (s.blk.flags[x.f]).p.toNat, false, 0, s.blk.cyc, 0, false⟩)))) ∧
  (∀ s x, (s.str .c).holds x.pred = true → s.blk.mayBind .c = true → (s.blk.flags[x.f]).p ≠ 0 →
    (∀ k ∈ (s.blk.flags[x.f]).pend, (s.blk.flags[x.f]).p.toNat < k) →
    exec (.cTkwaitTimeout x) s =
      .next (((flagSeen x.f (s.blk.flags[x.f]).p.toNat s).modStr .c fun st =>
        if x.pd = 0 then st else { st with preds := st.preds.set x.pd true }).complete .c 2 .go)) ∧
  (∀ s x, (s.str .c).holds x.pred = true → s.blk.mayBind .c = true → (s.blk.flags[x.f]).p ≠ 0 → x.t ≠ 0 →
    (∃ k ∈ (s.blk.flags[x.f]).pend, k ≤ (s.blk.flags[x.f]).p.toNat) →
    exec (.cTkwaitTimeout x) s =
      .next (s.complete .c 2 (.wait (.tk ⟨x.f, (s.blk.flags[x.f]).p.toNat, true, x.t.toNat, s.blk.cyc, x.pd, false⟩)))) ∧
  (∀ s x, (s.str .c).holds x.pred = true → s.blk.mayBind .c = true → (s.blk.flags[x.f]).p ≠ 0 → x.t = 0 →
    (∃ k ∈ (s.blk.flags[x.f]).pend, k ≤ (s.blk.flags[x.f]).p.toNat) →
    exec (.cTkwaitTimeout x) s =
      .next ((s.modStr .c fun st => if x.pd = 0 then st else { st with preds := st.preds.set x.pd false }).complete .c 2 .go)) ∧
  (∀ s x y, (s.str .c).holds x.pred = true → (s.str .c).holds y.pred = true → s.blk.mayBind .c = true →
    ((s.blk.flags[x.f]).p = 0 → exec (.cTkwait x) s = .next (traps .c 0x20 s)) ∧
    ((s.blk.flags[y.f]).p = 0 → exec (.cTkwaitTimeout y) s = .next (traps .c 0x20 s))) ∧
  (∀ s x y, (s.str .c).holds x.pred = true → (s.str .c).holds y.pred = true → s.blk.mayBind .c = false →
    exec (.cTkwait x) s = .next (held .c s) ∧ exec (.cTkwaitTimeout y) s = .next (held .c s))

/-- R35, R36, R120, R234: TKWAIT_RETURN ends a bound wait once no ordinal up to its target is outstanding, an acquire, and
TKWAIT_TIMEOUT ends one of the timeout form whose count has run out; the timeout form's predicate says which. A count runs out when
its last ac has passed with an ordinal up to the target still outstanding, in that ac itself the flag may still come to stand set, and
what comes later returns nothing. -/
def Sys2Proof.Claims.TokenWaitEnds : Prop :=
  (∀ s u b, (s.blockAt u).isSome = true →
    let t := s.focus u
    t.blk.placed = true → t.blk.stood = false → (t.str .c).stop = none → t.cx.st = 0 → (t.str .c).wait = .tk b →
    b.expired = false → (∀ k ∈ (t.blk.flags[b.flag]).pend, b.n < k) →
    exec (.tkwaitReturn u) s =
      .next ((if b.timed then (flagSeen b.flag b.n t).modStr .c fun st => st.setPred b.pd true
        else flagSeen b.flag b.n t).complete .c (if b.timed then 2 else 1) .go)) ∧
  (∀ s u b, (s.blockAt u).isSome = true →
    let t := s.focus u
    t.blk.placed = true → t.blk.stood = false → (t.str .c).stop = none → t.cx.st = 0 → (t.str .c).wait = .tk b →
    b.timed = true → b.expired = true →
    exec (.tkwaitTimeout u) s = .next ((t.modStr .c fun st => st.setPred b.pd false).complete .c 2 .go) ∧
      exec (.tkwaitReturn u) s = .next s) ∧
  (∀ (b : Block) isls dt k, b.placed = true → (b.str .c).stop = none → (b.str .c).wait = .tk k → k.timed = true →
    let c := b.tick isls dt
    ((∃ j ∈ (b.flags[k.flag]).pend, j ≤ k.n) →
      (c.str .c).wait = .tk { k with expired := k.expired || decide (k.since + k.rem < c.cyc) }) ∧
    ((∀ j ∈ (b.flags[k.flag]).pend, k.n < j) → (c.str .c).wait = .tk k))

/-- R124: `gbar` of a barrier group that holds the block arrives, a release at group scope, and waits; an index of no such group
traps 0x34. GBAR_COMPLETE, once every member has arrived and none of them stands gathered, lets the c strand of every member that
waits there go on, and empties the arrivals. That the index stays in its queue while the strand waits, and leaves it at the
completion, is the model's choice (log 42). -/
def Obligations.GroupBarrier : Prop :=
  (∀ s x a q k g, (s.str .c).holds x.pred = true → s.blk.scout.round = .closed → Peeks .c x.a s a q →
    s.taskAt s.blk.task = some k → k.barrierOf s.blk.bidx.toNat (a.toNat % 256) = some g →
    exec (.cGbar x) s = .next (((s.release (.strand s.blk.uid .c) (.bar s.blk.task (a.toNat % 256)) .grp).modCtx
      s.blk.ctx fun c => c.arrive s.blk.task (a.toNat % 256) s.blk.bidx.toNat).complete .c 1
        (.wait (.gbar (a.toNat % 256) q)))) ∧
  (∀ s x a q k, (s.str .c).holds x.pred = true → s.blk.scout.round = .closed → Peeks .c x.a s a q →
    s.taskAt s.blk.task = some k → k.barrierOf s.blk.bidx.toNat (a.toNat % 256) = none →
    exec (.cGbar x) s = .next (traps .c 0x34 s)) ∧
  (∀ s t grp k g, s.taskAt t = some k → k.groups.find? (fun g => g.index == grp.val && g.kind == 1) = some g →
    (s.ctxAt k.ctx).st = 0 → (∀ i ∈ g.members, i ∈ k.doneIdx ∨ ∃ b, (s.ctxAt k.ctx).bars.find?
      (fun b => b.task == k.key && b.grp == g.index) = some b ∧ i ∈ b.arrived) →
    (∀ b ∈ s.blocks, b.task = k.key → b.stood = false) →
    ∃ u, exec (.gbarComplete t grp) s = .next u ∧ u.blocks = s.blocks.map (passed k.key grp.val s.time) ∧ u.mem = s.mem ∧
      u.tasks = s.tasks ∧ ∀ b ∈ (u.ctxAt k.ctx).bars, ¬(b.task = k.key ∧ b.grp = grp.val))

/-- R26, R127, R128: `csrr` reads the CSR it names; `csrw` writes SLIPW, where 0 stores 1, and clears the sticky bits of
STATUS that are 1 in its operand, and nothing of the other CSRs; `prog` writes its task's estimate. -/
def Obligations.CsrAccess : Prop :=
  (∀ s x s1, (s.str .c).holds x.pred = true → Puts .c x.d s (csrSays s x.csr) s1 →
    exec (.cCsrr x) s = .next ((ordered .c [] [x.d] s1).complete .c 1 .go)) ∧
  (∀ s x v s1, (s.str .c).holds x.pred = true → Takes .c x.b s v s1 →
    exec (.cCsrw x) s = .next ((ordered .c [x.b] [] (withCsr s1 x.csr v)).complete .c 1 .go)) ∧
  (∀ s x v s1, (s.str .c).holds x.pred = true → Takes .c x.a s v s1 →
    exec (.cProg x) s = .next ((withEst (ordered .c [x.a] [] s1) s.blk.task (v.setWidth 32)).complete .c 1 .go))

/-- R48, R49, R122: the ring instructions with a count k that is not 0: `rclaim` claims k free slots and delivers the
address of the first, `rpub` publishes k claimed slots, `rwait` goes on with k filled slots and `rfree` with k free ones,
and `rrel` releases k filled slots. `rpub` releases the tail and `rwait` acquires it, at the written scope, else block; `rrel` releases the
head at block scope and `rclaim` and `rfree` acquire it, which is the row of R331 for slots freed (R49's own table gives these three no
ordering). A popped count of 0 completes with no other change. -/
def Sys2Proof.Claims.RingResult : Prop :=
  (∀ s x k s1 s2, (s.str .c).holds x.pred = true → Counts x.n s k s1 → k ≠ 0 →
    let r := s1.blk.rings[x.ring]
    k ≤ r.cap.toNat → k ≤ unclaimed r →
    Puts .c x.d ((withRing s1 x.ring { r with claimed := r.claimed + BitVec.ofNat 32 k }).acquire .c
        (.ring s.blk.uid x.ring true) .blk)
      (r.base + BitVec.ofNat 64 (r.claimed.toNat % r.cap.toNat * r.slot.toNat)) s2 →
    exec (.cRclaim x) s = .next ((ordered .c (countPorts x.n) [x.d] s2).complete .c 1 .go)) ∧
  (∀ s x k s1, (s.str .c).holds x.pred = true → Counts x.n s k s1 → k ≠ 0 →
    let r := s1.blk.rings[x.ring]
    k ≤ (r.claimed - r.tail).toNat →
    exec (.cRpub x) s = .next ((ordered .c (countPorts x.n) []
      ((withRing s1 x.ring { r with tail := r.tail + BitVec.ofNat 32 k }).release (.strand s.blk.uid .c)
        (.ring s.blk.uid x.ring false) (ringSays x.ord))).complete .c 1 .go)) ∧
  (∀ s x k s1, (s.str .c).holds x.pred = true → Counts x.n s k s1 → k ≠ 0 →
    k ≤ (s1.blk.rings[x.ring]).cap.toNat → k ≤ filled (s1.blk.rings[x.ring]) →
    exec (.cRwait x) s = .next ((ordered .c (countPorts x.n) []
      (s1.acquire .c (.ring s.blk.uid x.ring false) (ringSays x.ord))).complete .c 1 .go)) ∧
  (∀ s x k s1, (s.str .c).holds x.pred = true → Counts x.n s k s1 → k ≠ 0 →
    k ≤ (s1.blk.rings[x.ring]).cap.toNat → k ≤ unclaimed (s1.blk.rings[x.ring]) →
    exec (.cRfree x) s = .next ((ordered .c (countPorts x.n) []
      (s1.acquire .c (.ring s.blk.uid x.ring true) .blk)).complete .c 1 .go)) ∧
  (∀ s x k s1, (s.str .c).holds x.pred = true → Counts x.n s k s1 → k ≠ 0 →
    let r := s1.blk.rings[x.ring]
    k ≤ filled r →
    exec (.cRrel x) s = .next ((ordered .c (countPorts x.n) []
      ((withRing s1 x.ring { r with head := r.head + BitVec.ofNat 32 k }).release (.strand s.blk.uid .c)
        (.ring s.blk.uid x.ring true) .blk)).complete .c 1 .go)) ∧
  (∀ i s p n s1, ringCounts i = some (p, n) → (s.str .c).holds p = true → Counts n s 0 s1 →
    exec i s = .next ((ordered .c (countPorts n) [] s1).complete .c 1 .go))

/-- R49, R122: `rclaim`, `rwait` and `rfree` wait for slots that are not there: the instruction blocks; that its popped count
stays in its queue is the model's reading (log 45). A count above C traps 0x34, as does `rpub` past claimed and `rrel` past tail. -/
def Sys2Proof.Claims.RingWaits : Prop :=
  (∀ i s p n ring f k s1, ringWaiters i = some (p, ring, n, f) → (s.str .c).holds p = true → Counts n s k s1 → k ≠ 0 →
    ((s1.blk.rings[ring]).cap.toNat < k → exec i s = .next (traps .c 0x34 s)) ∧
    (k ≤ (s1.blk.rings[ring]).cap.toNat → f (s1.blk.rings[ring]) < k → exec i s = .next (held .c s))) ∧
  (∀ s x k s1, (s.str .c).holds x.pred = true → Counts x.n s k s1 → k ≠ 0 →
    let r := s1.blk.rings[x.ring]
    ((r.claimed - r.tail).toNat < k → exec (.cRpub x) s = .next (traps .c 0x34 s))) ∧
  (∀ s x k s1, (s.str .c).holds x.pred = true → Counts x.n s k s1 → k ≠ 0 →
    let r := s1.blk.rings[x.ring]
    (filled r < k → exec (.cRrel x) s = .next (traps .c 0x34 s)))

namespace Sys2Proof.Claims

open Sys2Proof Sys2Proof.Machine

/-! ## Memory access of the c strand -/

/-- Inside a round only block-scope orders are admitted (R139). -/
def RoundAdmits (s : State) (o : Ord) : Prop :=
  s.blk.scout.round = .closed ∨ (o.acq = false ∧ o.rel = false) ∨ o.scope = .blk

/-- The acquire or release of an access by strand `e` of `n` bytes at a physical address: performed there where the scope holds its
home, and else dropped with STATUS.SCX (R55, R56, R58). -/
def orderedAt (e : Eng) (o : Ord) (p n : Nat) (s : State) : State :=
  if o.acq || o.rel then
    if s.inScope o.scope p then
      let t := if o.acq then s.acquire e (.loc p n) o.scope else s
      if o.rel then t.release (.strand s.blk.uid e) (.loc p n) o.scope else t
    else { s with blk := s.blk.setSt stSCX }
  else s

/-- The current map has no pool region, and every keyed unit is under the key of the block's partition: translating writes no
memory, and a write touches no byte but its own. -/
def PlainMap (s : State) : Prop :=
  (∀ e ∈ s.cx.entries s.cx.phase.val, e.kind ≠ 2) ∧ ∀ x ∈ s.unitKeys, x.2 = s.key

/-- Loads: words, bytes, predicate, destination, base register and offset in bytes (R116). -/
def loads : Instr → Option (Nat × Nat × Pred × Opd × Fin 64 × Int)
  | .cLdB x => some (1, 1, x.pred, x.d, x.a, x.off.toInt)
  | .cLdH x => some (1, 2, x.pred, x.d, x.a, x.off.toInt * 2)
  | .cLdW x => some (1, 4, x.pred, x.d, x.a, x.off.toInt * 4)
  | .cLdD x => some (1, 8, x.pred, x.d, x.a, x.off.toInt * 8)
  | .cLdWide x => some (2, widBytes x.wid, x.pred, x.d, x.a, x.off.toInt)
  | _ => none

/-- Stores, likewise. -/
def stores : Instr → Option (Nat × Nat × Pred × Opd × Fin 64 × Int)
  | .cStB x => some (1, 1, x.pred, x.d, x.a, x.off.toInt)
  | .cStH x => some (1, 2, x.pred, x.d, x.a, x.off.toInt * 2)
  | .cStW x => some (1, 4, x.pred, x.d, x.a, x.off.toInt * 4)
  | .cStD x => some (1, 8, x.pred, x.d, x.a, x.off.toInt * 8)
  | .cStWide x => some (2, widBytes x.wid, x.pred, x.d, x.a, x.off.toInt)
  | _ => none

/-- The effective address of base and offset. -/
def effective (s : State) (base : Fin 64) (off : Int) : Nat := (s.blk.sreg base + BitVec.ofInt 64 off).toNat

/-- The ordering of a load, which only acquires, and of a store, which only releases (R55). -/
def loadOrder (o : Ord) : Ord := ⟨false, o.acq, o.scope⟩
def storeOrder (o : Ord) : Ord := ⟨o.rel, false, o.scope⟩

/-- The read of a load goes into flight with it, as number `s.nextOld`: not inside a round's body and not that of an acquire (R53). -/
def readFlies (e : Eng) (o : Ord) (unit : Nat) (parts : List (Nat × Nat × List Nat)) (s : State) : Option Nat × State :=
  if s.blk.scout.round = .body ∨ s.blk.scout.round = .accepted ∨ o.acq = true then (none, s)
  else
    (some s.nextOld, { s with nextOld := s.nextOld + 1,
                              lates := ⟨s.nextOld, .strand s.blk.uid e, unit, parts⟩ :: s.lates })

/-- A result of the c strand goes into flight (R104), with the number of its read: its destination is free, and s63 discards it. -/
def Flies (d : Opd) (late : Option Nat) (s : State) (v : Dword) (t : State) : Prop :=
  let x : Inflight := { eng := .c, dst := d, sval := v, vval := vzero, late := late }
  match d with
  | .reg n => if n = 63 then t = s else
      s.blk.pending .c d = false ∧ t = { s with blk := { s.blk with inflight := s.blk.inflight ++ [x] } }
  | .port (.q n) =>
    FirstPush .c d s ∧ (s.blk.q[n]).length + s.blk.inflightTo d < 16 ∧
      t = { s with blk := { s.blk with inflight := s.blk.inflight ++ [x] } }
  | .port _ => False

/-- Virtual address `va` with the `n` bytes from it lies in the block's own slice at byte `off`, inside one 64-byte unit
(R43): `vd` and `vc` are the die and core as the partition numbers them. -/
def InSlice (s : State) (va n off : Nat) : Prop :=
  ∃ vd vc, vd < 10 ∧ vc < 64 ∧ va = 0x00F0000000000000 + vd * 2 ^ 28 + vc * 2 ^ 22 + off ∧ 0 < n ∧
    off % 64 + n ≤ 64 ∧ off + n ≤ sliceSize s.blk.die.val ∧ s.blk.core < 40 ∧
    physDie s.partWord vd = some s.blk.die.val ∧ physCore s.partWord s.blk.die.val vc = some s.blk.core ∧
    s.quadShut s.blk.die.val (s.blk.core / quadCores s.blk.die.val) = false ∧
    (s.cores[Fin.ofNat 320 (40 * s.blk.die.val + s.blk.core)]).fenced = false

/-- Byte `off` of the block's own slice as a physical address. -/
def slicePa (s : State) (off : Nat) : Nat := 2 ^ 50 + (40 * s.blk.die.val + s.blk.core) * 2 ^ 22 + off

/-- The new value of an atomic on `w`-bit values, the integer operations (R117). -/
def amoSays (op : AmoOp) (w old b x : Nat) : Nat :=
  let o := BitVec.ofNat w old
  let y := BitVec.ofNat w b
  match op with
  | .add => (o + y).toNat
  | .band => (o &&& y).toNat
  | .bor => (o ||| y).toNat
  | .bxor => (o ^^^ y).toNat
  | .min => if y.toInt < o.toInt then b else old
  | .max => if o.toInt < y.toInt then b else old
  | .swap => b
  | .cas => if old = x then b else old
  | .incw => if b ≤ old then 0 else old + 1
  | .fadd => Fmt.fp32.addRne old b

/-- What an atomic float addition leaves: STATUS.NANS where its result is a NaN (R74). -/
def nanSeen (op : AmoOp) (v : Nat) (s : State) : State :=
  if op = .fadd ∧ Fmt.fp32.value false v = .nan then { s with blk := s.blk.setSt stNANS } else s

/-- How a `c.amo` hands on: it waits for its response. -/
def amoWait (d : Fin 64) (old p ea : Nat) : Flow :=
  .wait <| .atomic { dst := .reg d, old := (vzero.set 0 (BitVec.ofNat 32 old)).set 1 (BitVec.ofNat 32 (old / 2 ^ 32)),
                     home := homeOf p, addr := ea }

/-- The first `m` pages of a pool's free ring, with what was released at their reference counts learnt (R123). -/
def pagesSeen (e : MapEntry) (m : Nat) (s : State) : State :=
  ((s.freeRing e).take m).foldl (fun s p => s.acquire .c (.loc (e.pageWord p 0) 4) .pkg) s

/-- A code table's shadow copy replaced by the sixteen values that thirty-two bytes hold. -/
def withShadow (s : State) (t : Fin 8) (bs : List Byte) : State :=
  let new : Vector (BitVec 16) 16 :=
    Vector.ofFn fun i => BitVec.ofNat 16 (leNat ((bs.drop (2 * i.val)).take 2))
  { s with blk := { s.blk with cts := s.blk.cts.set t { s.blk.cts[t] with shadow := new } } }

/-- The live copy of a code table retained, its shadow made live. -/
def withSwap (s : State) (t : Fin 8) : State :=
  let x := s.blk.cts[t]
  let y : CodeTable := { live := x.shadow, shadow := x.shadow, kept := x.live, gen := x.gen + 1 }
  { s with blk := { s.blk with cts := s.blk.cts.set t y } }

end Sys2Proof.Claims

open Sys2Proof Sys2Proof.Machine Sys2Proof.Claims

/-- R47, R53, R55, R57, R116: a load reads the bytes at base plus offset, little-endian and zero-extended; a misaligned address traps
0x33. Its `.acq` acquires there, its `.rel` orders a queue that it pushes alone. That the bytes are those at issue, that a result from
the block's own slice is written at once, and that one from elsewhere goes into flight, with its read, which may still take effect when
its response comes, is the model's reading of R104 and R53 (logs 7, 50). -/
def Obligations.LoadResult : Prop :=
  ∀ i s w n p d a off, loads i = some (w, n, p, d, a, off) → (s.str .c).holds p = true →
    let o := (s.str .c).pfx.order
    let ea := effective s a off
    RoundAdmits s o → s.blk.pending .c (.reg a) = false →
    (ea % n ≠ 0 → exec i s = .next (s.raise .c
      { cause := 0x33, faddr := s.blk.sreg a + BitVec.ofInt 64 off, aux := 0, sub := 0, pc := none })) ∧
    (∀ bs s1 pa s2 s3, ea % n = 0 → s.blk.pending .c d = false → loadAs .c true ea n s = .ok (bs, s1) →
      translate .read true true ea s1 = .ok (pa, s2) →
      let t := orderedAt .c (loadOrder o) pa n s1
      t.ownSlice pa = true → Puts .c d t (BitVec.ofNat 64 (leNat bs)) s3 →
      exec i s = .next ((released .c [d] s3).complete .c w .go)) ∧
    (∀ bs s1 pa s2 s3, ea % n = 0 → s.blk.pending .c d = false → loadAs .c true ea n s = .ok (bs, s1) →
      translate .read true true ea s1 = .ok (pa, s2) →
      let t := orderedAt .c (loadOrder o) pa n s1
      let r := readFlies .c o n [(ea, pa, [0])] t
      t.ownSlice pa = false → Flies d r.1 r.2 (BitVec.ofNat 64 (leNat bs)) s3 →
      exec i s = .next ((released .c [d] s3).complete .c w .go))

/-- R47, R55, R57, R116: a store writes the low bytes of its operand at base plus offset; a misaligned address traps 0x33. Its `.rel`
releases there, its `.acq` orders a queue that it pops alone. -/
def Obligations.StoreResult : Prop :=
  ∀ i s w n p d a off, stores i = some (w, n, p, d, a, off) → (s.str .c).holds p = true →
    let o := (s.str .c).pfx.order
    let ea := effective s a off
    RoundAdmits s o → s.blk.pending .c (.reg a) = false →
    (ea % n ≠ 0 → exec i s = .next (s.raise .c
      { cause := 0x33, faddr := s.blk.sreg a + BitVec.ofInt 64 off, aux := 0, sub := 0, pc := none })) ∧
    (∀ v s1 pa s2, ea % n = 0 → Takes .c d s v s1 →
      storeAs .c true ea (leBytes n v.toNat) (acquired .c [d] s1) = .ok (pa, s2) →
      exec i s = .next ((orderedAt .c (storeOrder o) pa n s2).complete .c w .go))

/-- Frame of the c stores: under a false predicate, and where the address does not translate, every byte of memory is
unchanged; else every byte outside the bytes from the translated address on is, where translating itself writes nothing
and the unit's bytes are under the block's own key (log 12 leaves the others of the unit free). -/
def Obligations.StoreFrame : Prop :=
  ∀ i s t w n p d a off, stores i = some (w, n, p, d, a, off) → exec i s = .next t →
    ((s.str .c).holds p = false → t.mem = s.mem) ∧
    (∀ v s1, (s.str .c).holds p = true → Takes .c d s v s1 →
      (∀ pa s2, translate .write true true (effective s a off) (acquired .c [d] s1) ≠ .ok (pa, s2)) → t.mem = s.mem) ∧
    (∀ v s1 pa s2, (s.str .c).holds p = true → Takes .c d s v s1 →
      translate .write true true (effective s a off) (acquired .c [d] s1) = .ok (pa, s2) → s2.mem = s.mem →
      (s2.unitKey (pa / 64) = none ∨ s2.unitKey (pa / 64) = some s.key) →
      MemSame s t pa n ∧ t.blk.s = s.blk.s ∧ t.blk.a = s.blk.a ∧ t.blk.v = s.blk.v ∧ t.blk.vm = s.blk.vm ∧
        t.blk.flags = s.blk.flags ∧ t.blk.acc = s.blk.acc ∧ t.blk.dacc = s.blk.dacc)

/-- R4, R43: bytes inside one 64-byte unit of the block's own slice are read from the slice's physical bytes, as their reader sees
them, and written there as their writer writes them. -/
def Sys2Proof.Claims.SliceBytes : Prop :=
  (∀ s va n off, InSlice s va n off → readVirt true va n s = seeBytes (slicePa s off) n s) ∧
  (∀ s va bs off, InSlice s va bs.length off →
    writeVirt true va bs s = .ok (slicePa s off, s.store (slicePa s off) bs))

/-- R52, R53, R60: what a reader sees of memory, and what a write does to it. One who knows every write at the bytes sees the newest; a
strand or a command reads its own write at each byte where it knew every write before it; and whoever reads sees, byte by byte, the
newest one or one that a write not known to him has gone over. A write changes no byte but its own: the hardware's stands in memory,
and so does a party's at each byte at which it knew every write, while over one that it did not know it may come before that. That the
hardware, which is no party, sees the newest bytes, and how far a write goes under others, is the model's choice (log 7). -/
def Sys2Proof.Claims.Views : Prop :=
  (∀ s a n, s.actor = none → seeBytes a n s = .ok (Mem.readN s.mem a n, s)) ∧
  (∀ s a n x, s.actor = some x → x.under = none → (∀ o ∈ s.olds, o.meets a n = true → o.knownTo x.party = true) →
    ∃ t, seeBytes a n s = .ok (Mem.readN s.mem a n, t) ∧ t.mem = s.mem ∧ t.olds = s.olds) ∧
  (∀ (s : State) a (bs : List Byte) x, s.actor = some x → x.under = none →
    ∃ cs t, seeBytes a bs.length (s.store a bs) = .ok (cs, t) ∧ t.mem = (s.store a bs).mem ∧
      ∀ i < bs.length, (∀ o ∈ s.olds, o.addr ≤ a + i → a + i < o.addr + o.bytes.length → o.knownTo x.party = true) →
        cs[i]? = bs[i]?) ∧
  (∀ s a n, (∀ x, s.actor = some x → x.under = none) →
    ∃ bs t, seeBytes a n s = .ok (bs, t) ∧ t.mem = s.mem ∧ bs.length = n ∧
    ∀ i < n, bs[i]? = (Mem.readN s.mem a n)[i]? ∨
      ∃ o ∈ s.olds, o.addr ≤ a + i ∧ a + i < o.addr + o.bytes.length ∧ bs[i]? = o.bytes[a + i - o.addr]? ∧
        ∀ x, s.actor = some x → o.knownTo x.party = false) ∧
  (∀ (s : State) a (bs : List Byte), MemSame s (s.store a bs) a bs.length ∧
    (s.actor = none → ∀ i < bs.length, some (Mem.read (s.store a bs).mem (a + i)) = bs[i]?) ∧
    ∀ x, s.actor = some x → x.under = none → ∀ i < bs.length,
      (∀ o ∈ s.olds, o.addr ≤ a + i → a + i < o.addr + o.bytes.length → o.knownTo x.party = true) →
      some (Mem.read (s.store a bs).mem (a + i)) = bs[i]?)

/-- R42, R44, R45, R300: a main-memory address inside a committed range entry of the current phase that permits the access
translates to the entry's location; a reserved entry traps 0x30, a missing permission 0x32, the synchronisation-engine window
outside its accesses 0x32, and every hole 0x31: an address from 2^57 up, one between the windows or above the last, and one in
a window that names a die, a core, a quad or a byte of them that the partition does not have, or lies above the overflow area that
SEOVF gives. That a location lies where the physical
map of log 9 puts it is the model's choice. -/
def Obligations.TranslateEntry : Prop :=
  (∀ s k se ex va i e, va < 0x00F0000000000000 → s.cx.find va = some (i, e) → e.state.toNat % 4 ≠ 0 →
    permits e.perm.toNat k = true → e.kind ≠ 2 → (e.kind ≠ 5 ∨ ex = true) → s.cx.marked i ((va - e.base.toNat) / 65536) = false →
    translate k se ex va s = .ok (e.phys (va - e.base.toNat), s)) ∧
  (∀ s k se ex va i e, va < 0x00F0000000000000 → s.cx.find va = some (i, e) → e.state.toNat % 4 = 0 →
    translate k se ex va s = .error (.trap ⟨0x30, BitVec.ofNat 64 va, 0, 0, none⟩)) ∧
  (∀ s k se ex va i e, va < 0x00F0000000000000 → s.cx.find va = some (i, e) → e.state.toNat % 4 ≠ 0 →
    permits e.perm.toNat k = false →
    translate k se ex va s = .error (.trap ⟨0x32, BitVec.ofNat 64 va, 0, 0, none⟩)) ∧
  (∀ s k se ex va, 2 ^ 57 ≤ va → translate k se ex va s = .error (.trap ⟨0x31, BitVec.ofNat 64 va, 0, 0, none⟩)) ∧
  (∀ s k ex va, 0x00F8000000000000 ≤ va → va < 0x00F8000000000000 + 10 * 2 ^ 24 →
    translate k false ex va s = .error (.trap ⟨0x32, BitVec.ofNat 64 va, 0, 0, none⟩)) ∧
  (∀ s k se ex va, (0x00F0000000000000 + 10 * 2 ^ 28 ≤ va ∧ va < 0x00F8000000000000) ∨
      (0x00F8000000000000 + 10 * 2 ^ 24 ≤ va ∧ va < 2 ^ 57) →
    translate k se ex va s = .error (.trap ⟨0x31, BitVec.ofNat 64 va, 0, 0, none⟩)) ∧
  (∀ s k se ex vd vc off, vd < 10 → vc < 64 → off < 2 ^ 22 →
    (physDie s.partWord vd = none ∨
      ∃ d, physDie s.partWord vd = some d ∧ (physCore s.partWord d vc = none ∨ sliceSize d ≤ off)) →
    let va := 0x00F0000000000000 + vd * 2 ^ 28 + vc * 2 ^ 22 + off
    translate k se ex va s = .error (.trap ⟨0x31, BitVec.ofNat 64 va, 0, 0, none⟩)) ∧
  (∀ s k ex vd off, vd < 10 → off < 2 ^ 23 →
    (physDie s.partWord vd = none ∨
      ∃ d, physDie s.partWord vd = some d ∧ (quadsOf s.partWord d).length ≤ off / 2 ^ 21) →
    let va := 0x00F8000000000000 + vd * 2 ^ 24 + off
    translate k true ex va s = .error (.trap ⟨0x31, BitVec.ofNat 64 va, 0, 0, none⟩)) ∧
  (∀ s k ex vd off, vd < 10 → 2 ^ 23 ≤ off → off < 2 ^ 24 →
    let r := (s.cx.seovf[Fin.ofNat 8 vd]).toNat
    let va := 0x00F8000000000000 + vd * 2 ^ 24 + off
    (physDie s.partWord vd = none ∨ 2 ^ 23 + min (r % 16) 8 * 2 ^ 20 ≤ off →
      translate k true ex va s = .error (.trap ⟨0x31, BitVec.ofNat 64 va, 0, 0, none⟩)) ∧
    (∀ d, physDie s.partWord vd = some d → off < 2 ^ 23 + min (r % 16) 8 * 2 ^ 20 →
      translate k true ex va s = .ok (r / 2 ^ 20 * 2 ^ 20 + (off - 2 ^ 23), s))) ∧
  (∀ s k ex vd d q off, vd < 10 → off < 2 ^ 23 → physDie s.partWord vd = some d →
    (quadsOf s.partWord d)[off / 2 ^ 21]? = some q → s.quadShut d q = false →
    translate k true ex (0x00F8000000000000 + vd * 2 ^ 24 + off) s = .ok (seBase d + q * 2 ^ 21 + off % 2 ^ 21, s))

/-- R53, R104, R117, R196: ACCESS_RESPONSE delivers the result of a load in flight, of `vld` too, to its register or queue: the value
read at issue or, where the read of a load was kept, by a free value the one that the load's strand reads now (log 7). It delivers the
old value of an atomic to its register, or the old elements of a `vamo` to its register or vector queue, after which the atomic has
completed. -/
def Obligations.AccessResponse : Prop :=
  (∀ s u i x n y t1, (s.blockAt u).isSome = true →
    let t := s.focus u
    (t.blk.inflight.filter fun x => x.eng == .c)[i]? = some x → x.dst = .reg n → t.arrive x = (y, t1) →
    exec (.accessResponse u .c i) s = .next { t1 with blk := { t.blk.setSreg n y.sval with
      inflight := dropFirst (fun y => y == x) t.blk.inflight } }) ∧
  (∀ s u i x n y t1, (s.blockAt u).isSome = true →
    let t := s.focus u
    (t.blk.inflight.filter fun x => x.eng == .c)[i]? = some x → x.dst = .port (.q n) → t.arrive x = (y, t1) →
    exec (.accessResponse u .c i) s = .next { t1 with blk := { t.blk.pushQ n y.sval with
      inflight := dropFirst (fun y => y == x) t.blk.inflight } }) ∧
  (∀ (t : State) x, (∀ l ∈ t.lates, some l.id ≠ x.late) → t.arrive x = (x, t)) ∧
  (∀ (t : State) x l va p ix, x.eng = .c → (t.lates.find? fun l => some l.id == x.late) = some l → l.parts = [(va, p, ix)] →
    (t.arrive x).1 = x ∨ ∃ bs t1, acting (some { party := l.party, unit := l.unit }) (seeBytes p l.unit)
      { t with lates := t.lates.filter fun y => y.id != l.id, free := t.free + 1 } = .ok (bs, t1) ∧
        (t.arrive x).1 = { x with sval := BitVec.ofNat 64 (leNat bs) }) ∧
  (∀ s u i w n t1, (s.blockAt u).isSome = true →
    let t := s.focus u
    (t.blk.inflight.filter fun x => x.eng == .c)[i]? = none → (t.str .c).stop = none →
    (t.str .c).wait = .atomic w → w.dst = .reg n →
    Puts .c (.reg n) t (BitVec.ofNat 64 ((w.old[0]).toNat + (w.old[1]).toNat * 2 ^ 32)) t1 →
    exec (.accessResponse u .c i) s = .next (t1.complete .c (t.str .c).waitSpan .go)) ∧
  (∀ s u i x n y t1, (s.blockAt u).isSome = true →
    let t := s.focus u
    (t.blk.inflight.filter fun x => x.eng == .v)[i]? = some x → x.dst = .reg n → t.arrive x = (y, t1) →
    exec (.accessResponse u .v i) s = .next { t1 with blk := { t.blk with
      v := t.blk.v.set n y.vval, inflight := dropFirst (fun y => y == x) t.blk.inflight } }) ∧
  (∀ s u i x n y t1, (s.blockAt u).isSome = true →
    let t := s.focus u
    (t.blk.inflight.filter fun x => x.eng == .v)[i]? = some x → x.dst = .port (.vq n) → t.arrive x = (y, t1) →
    exec (.accessResponse u .v i) s = .next { t1 with blk := { t.blk with
      vq := t.blk.vq.set n (t.blk.vq[n] ++ [y.vval]), inflight := dropFirst (fun y => y == x) t.blk.inflight } }) ∧
  (∀ s u i w, (s.blockAt u).isSome = true →
    let t := s.focus u
    (t.blk.inflight.filter fun x => x.eng == .v)[i]? = none → (t.str .v).stop = none → (t.str .v).wait = .atomic w →
    (∀ n, w.dst = .reg n → t.blk.holders[bankOf n] = .v → t.blk.pending .v (.reg n) = false →
      exec (.accessResponse u .v i) s = .next (({ t with blk := { t.blk with v := t.blk.v.set n w.old } } : State).complete .v
        (t.str .v).waitSpan .go)) ∧
    (∀ n : Fin 4, w.dst = .port (.vq n) → FirstPush .v w.dst t → (t.blk.vq[n]).length + t.blk.inflightTo w.dst < 4 →
      exec (.accessResponse u .v i) s = .next ((released .v [w.dst]
        { t with blk := { t.blk with vq := t.blk.vq.set n (t.blk.vq[n] ++ [w.old]) } }).complete .v (t.str .v).waitSpan .go)))

/-- R74, R117, R139: `amo` does its read-modify-write at the home and waits for its response; in the block's own slice, where its strand
knows every write at the bytes, the new value stands in memory and nothing else of memory changes. A float sum that is a NaN sets
STATUS.NANS. That the home applies it at issue, and the strand then waits for ACCESS_RESPONSE, is the model's reading (log 50). -/
def Sys2Proof.Claims.AtomicEffect : Prop :=
  ∀ s x, (s.str .c).holds x.pred = true → s.blk.scout.round = .closed →
    s.blk.pending .c (.reg x.a) = false → s.blk.pending .c (.reg x.b) = false → s.blk.pending .c (.reg x.d) = false →
    let n := if x.w64 then 8 else 4
    let w := 8 * n
    let ea := effective s x.a x.off.toInt
    let b := (s.blk.sreg x.b).toNat % 2 ^ w
    let y := (s.blk.sreg x.d).toNat % 2 ^ w
    ea % n = 0 →
    (∀ old pa s1, byStrand .c n (rmw true ea n (x.op == .add && x.w64) (x.op == .add && !x.w64)
        (fun old => amoNew x.op w old b y) b) s = .ok ((old, pa), s1) →
      exec (.cAmo x) s = .next ((orderedAt .c x.ord pa n (nanSeen x.op (amoNew x.op w old b y) s1)).complete .c 2
        (amoWait x.d old pa ea))) ∧
    (∀ off, InSlice s ea n off →
      let p := slicePa s off
      let old := leNat (Mem.readN s.mem p n)
      (∀ o ∈ s.olds, o.meets p n = true → o.knownTo (.strand s.blk.uid .c) = true) →
      ∃ s1, exec (.cAmo x) s = .next ((orderedAt .c x.ord p n (nanSeen x.op (amoSays x.op w old b y) s1)).complete .c 2
          (amoWait x.d old p ea)) ∧
        s1.mem = Mem.write s.mem p (leBytes n (amoSays x.op w old b y)) ∧ s1.blk = s.blk ∧ s1.others = s.others ∧
        s1.ctxs = s.ctxs ∧ s1.dies = s.dies ∧ s1.rels = s.rels ∧ s1.hub = s.hub ∧ s1.vfs = s.vfs)

/-- Frame of `amo`: under a false predicate, and where the address does not translate, every byte of memory is unchanged; else
every byte outside the bytes from the translated address on is, in a map without pools and where every unit is under the block's
own key (log 12 leaves the others of the unit free); and so is every register but those that its response writes. -/
def Sys2Proof.Claims.AtomicFrame : Prop :=
  ∀ s x t, exec (.cAmo x) s = .next t → PlainMap s →
    let n := if x.w64 then 8 else 4
    let ea := effective s x.a x.off.toInt
    let at_ := translate .atomic true (x.op == .add && x.w64) ea s
    ((s.str .c).holds x.pred = false → t.mem = s.mem) ∧
    ((∀ pa s1, at_ ≠ .ok (pa, s1)) → t.mem = s.mem) ∧
    (∀ pa s1, at_ = .ok (pa, s1) → MemSame s t pa n) ∧
    t.blk.s = s.blk.s ∧ t.blk.a = s.blk.a ∧ t.blk.v = s.blk.v ∧ t.blk.vm = s.blk.vm ∧ t.blk.flags = s.blk.flags ∧
      t.blk.q = s.blk.q ∧ t.blk.vq = s.blk.vq ∧ t.blk.acc = s.blk.acc ∧ t.blk.dacc = s.blk.dacc ∧ t.blk.rings = s.blk.rings

/-- R68, R123, R131: `ctwr` reads thirty-two aligned bytes into a table's shadow copy; `ctswap` makes it live and keeps the
old live copy, once no command holds the copy kept before; `rpopn` takes up to n pages from a pool's free ring, writes
their numbers to its array and delivers how many, an acquire at package scope at each page's reference count. -/
def Obligations.TablesAndPages : Prop :=
  (∀ s x a s1 bs s2, (s.str .c).holds x.pred = true → Takes .c x.a s a s1 → a.toNat % 32 = 0 →
    loadAs .c false a.toNat 32 (acquired .c [x.a] s1) = .ok (bs, s2) →
    exec (.cCtwr x) s = .next ((withShadow s2 x.ct bs).complete .c 1 .go)) ∧
  (∀ s x, (s.str .c).holds x.pred = true → s.blk.retained x.ct = false →
    exec (.cCtswap x) s = .next ((withSwap s x.ct).complete .c 1 .go)) ∧
  (∀ s x a arr d s1 s2 s3 s4 i e s5 pages s6 pa s7 s8, (s.str .c).holds x.pred = true → s.blk.scout.round = .closed →
    Takes .c x.a s a s1 → Takes .c x.b s1 arr s2 → Takes .c x.d s2 d s3 →
    let n := d.toNat % 2 ^ 32
    0 < n → n ≤ 1024 → s3.entryOf a.toNat = some (i, e) → e.kind = 2 → e.state.toNat % 4 ≠ 0 →
    permits e.perm.toNat .read = true → arr.toNat % 4 = 0 →
    transWrite (piecesOf arr.toNat (4 * n)) s3 = .ok ((), s4) →
    (∀ p ∈ s4.takeAddrs e n, s4.cx.marked i ((p - e.frame0) / 65536) = false) →
    (s4.takeAddrs e n).forM (fun p => metaRead a.toNat p 4) s4 = .ok ((), s5) →
    let m := min n (s4.metaWord e.frame0)
    State.takePages e m (pagesSeen e m (acquired .c [x.a, x.b] s5)) = (pages, s6) →
    byStrand .c 4 (writeVirt false arr.toNat (pages.flatMap fun p => leBytes 4 p)) (s6.remarkMeta s.blk.ctx i e) =
      .ok (pa, s7) →
    Puts .c x.d s7 (BitVec.ofNat 64 m) s8 →
    exec (.cRpopn x) s = .next (s8.complete .c 1 .go))

namespace Sys2Proof.Claims

open Sys2Proof Sys2Proof.Machine

/-! ## Phases, launches and rounds -/

/-- `phadv` and `phadv.late`. -/
def phaseAdv : Instr → Option (Pred × Bool)
  | .cPhadv x => some (x.pred, false)
  | .cPhadvLate x => some (x.pred, true)
  | _ => none

/-- An arrival at the phase barrier of the focused block's context: a release at package scope, after the loads in flight; the
change stands as `h`, every die loads the target's entries into its shadow range registers, and checkpoints in the context are put
off (R254, R256, R301). -/
def arrivedAs (s : State) (h : Change) : State :=
  let t := ((s.clockUp s.blk.die).settleAll (.strand s.blk.uid .c)).modCtx s.blk.ctx fun c => { c with change := some h }
  (t.loadShadow s.blk.ctx h.target).mapBlocks (Block.putOff s.blk.ctx)

/-- Of granules that a change to phase `a` has moved, those that a change to phase `b` would move in the same way (R254). -/
def stillMoved (c : Ctx) (a b : Nat) (copies : Bool) (l : List (Nat × Nat)) : List (Nat × Nat) :=
  l.filter fun x => (c.moves b).any fun m =>
    m.region == x.1 && m.granule == x.2 && m.src.isSome == copies && (c.moves a).contains m

/-- The context's change once the block in focus has arrived for phase `b` where no change is pending: early work of PRE for the
same target stands, and of that for another what would be done in the same way (R254). -/
def newChange (s : State) (b : Nat) (late : Bool) : Change :=
  let c : Change := { target := b, late := late, pending := true, arrived := [s.blk.uid], moved := [] }
  match s.cx.change with
  | some h =>
    if h.target = b then { c with moved := h.moved, filled := h.filled }
    else { c with moved := stillMoved s.cx h.target b true h.moved, filled := stillMoved s.cx h.target b false h.filled }
  | none => c

/-- No change is pending. -/
def NoneMoving (c : Ctx) : Prop := ∀ h, c.change = some h → h.pending = false

/-- A task or a transfer checked for entry on the issuing die `d`, its other dies to follow: the c strand releases to it what it
knows, with its die's clock (R56, R126, R270). -/
def entered (s : State) (t : Task) (d : Nat) : State :=
  let u := (s.clockUp s.blk.die).settleAll (.strand s.blk.uid .c)
  let l := u.knownTo (.strand u.blk.uid .c)
  ({ u with
    tasks := u.tasks ++ [{ t with sees := some l, clock := (u.dies[u.blk.die]).clock, key := u.nextKey, entered := u.time,
                                  held := t.want.filter (· == d), want := t.want.filter (· != d) }],
    nextKey := u.nextKey + 1 } : State).learn (.task u.nextKey) l

/-- `klaunch` and `kxfer`: bytes read at A, which are aligned to their number, and the checks. -/
def launches : Instr → Option (UArgs × Nat × (Nat → Nat → List Byte → Nat → V Task))
  | .cKlaunch x => some (x, 128, fun ctx uid bs _ => do
      refuseIf ((packetOf bs).kind == 1) 1
      checkLaunch ctx (.block uid) bs)
  | .cKxfer x => some (x, 64, fun ctx uid bs d => checkXfer ctx (.block uid) (packetOf []) bs false (some [d]))
  | _ => none

end Sys2Proof.Claims

open Sys2Proof Sys2Proof.Machine Sys2Proof.Claims

/-- R256, R260, R261: `phadv` and `phadv.late` arrive for the next phase and `phset` for the one it names; an arrival for the
target of the pending change joins it, one for another target, or for a phase that is not there, traps 0x34; `phwait` goes
on once no change is pending and no mark stands, and merges the clocks of all dies. That `phset` keeps the entry of its operand
until the switch is the model's reading (log 42). -/
def Sys2Proof.Claims.PhaseArrivals : Prop :=
  (∀ i s p late, phaseAdv i = some (p, late) → (s.str .c).holds p = true → s.blk.scout.round = .closed →
    let b := (s.cx.phase.val + 1) % max s.cx.phases 1
    (NoneMoving s.cx →
      exec i s = .next ((arrivedAs s (newChange s b late)).complete .c 1 (.wait (.phase none)))) ∧
    (∀ h, s.cx.change = some h → h.pending = true → h.target = b →
      exec i s = .next ((arrivedAs s { h with late := h.late || late, arrived := s.blk.uid :: h.arrived }).complete
        .c 1 (.wait (.phase none)))) ∧
    (∀ h, s.cx.change = some h → h.pending = true → h.target ≠ b →
      exec i s = .next (s.raise .c { cause := 0x34, faddr := 0, aux := 0, sub := 0, pc := none }))) ∧
  (∀ s x a q, (s.str .c).holds x.pred = true → s.blk.scout.round = .closed → Peeks .c x.a s a q →
    (a.toNat % 2 ^ 32 < s.cx.phases → NoneMoving s.cx →
      exec (.cPhset x) s =
        .next ((arrivedAs s (newChange s (a.toNat % 2 ^ 32) false)).complete .c 1 (.wait (.phase q)))) ∧
    (a.toNat % 2 ^ 32 < s.cx.phases → ∀ h, s.cx.change = some h → h.pending = true →
      exec (.cPhset x) s =
        if h.target = a.toNat % 2 ^ 32 then
          .next ((arrivedAs s { h with arrived := s.blk.uid :: h.arrived }).complete .c 1 (.wait (.phase q)))
        else .next (s.raise .c { cause := 0x34, faddr := 0, aux := 0, sub := 0, pc := none })) ∧
    (s.cx.phases ≤ a.toNat % 2 ^ 32 →
      exec (.cPhset x) s = .next (s.raise .c { cause := 0x34, faddr := 0, aux := 0, sub := 0, pc := none }))) ∧
  (∀ s x, (s.str .c).holds x.pred = true → s.blk.scout.round = .closed → NoneMoving s.cx → s.cx.marks = [] →
    exec (.cPhwait x) s = .next ((s.dies.toList.foldl (fun s d => s.mergeIn s.blk.die d.clock) s).complete .c 1 .go))

/-- R253, R257, R259, R262: a Porter moves one granule of a change under way; the switch makes the target the current phase,
lets the arrived strand go on and takes the entry of `phset`'s operand then (log 42); a granule that lands clears its mark; a
Porter's fault at a granule that it is at work on stops its context with that cause, and ends its work on marks. -/
def Sys2Proof.Claims.PhaseEvents : Prop :=
  (∀ s cx n h m x t, (s.ctxAt cx).change = some h → ((s.ctxAt cx).todo h)[n]? = some m → (s.ctxAt cx).st = 0 →
    (s.ctxAt cx).marks = [] → asAgent (s.porterOf cx m) cx (s.ctxPart cx) (moveGranule m) s = .ok (x, t) →
    exec (.porterGranuleMove cx n) s = .next (t.modCtx cx fun c =>
      { c with change := c.change.map fun h =>
          if m.src.isSome then { h with moved := (m.region, m.granule) :: h.moved }
          else { h with filled := (m.region, m.granule) :: h.filled } })) ∧
  (∀ s cx h q, (s.ctxAt cx).change = some h → s.maySwitch cx h = true → h.late = false →
    (∀ m ∈ (s.ctxAt cx).moves h.target, m.late = false) →
    s.blk.placed = true → s.blk.ctx = cx → (s.str .c).wait = .phase q →
    ∃ t, exec (.phaseSwitch cx) s = .next t ∧ (t.ctxAt cx).phase = Fin.ofNat 16 h.target ∧ (t.ctxAt cx).marks = [] ∧
      t.mem = s.mem ∧ t.str .c = (s.str .c).complete 1 .go ∧ t.blk.q = (s.blk.dropHead q).q) ∧
  (∀ s cx n k e x t, (s.ctxAt cx).porterDown = false → (s.ctxAt cx).marks[n]? = some k →
    ((s.ctxAt cx).entries (s.ctxAt cx).phase.val)[k.region]? = some e →
    let m : Move := ⟨k.region, k.granule, k.src, e.granuleAt k.granule, false⟩
    asAgent (s.porterOf cx m) cx (s.ctxPart cx) (moveGranule m) s = .ok (x, t) →
    exec (.granuleLand cx n) s = .next (t.modCtx cx fun c => { c with marks := c.marks.filter fun y => y != k })) ∧
  (∀ s cx cause addr, (∀ m ∈ (s.ctxAt cx).porterWork, s.granuleVa cx m ≠ addr) →
    exec (.porterFault cx cause addr) s = .next s) ∧
  (∀ s cx cause addr, (∃ m ∈ (s.ctxAt cx).porterWork, s.granuleVa cx m = addr) → (cause = 0x41 ∨ cause = 0x42) →
    (s.ctxAt cx).st = 0 →
    ∃ t, exec (.porterFault cx cause addr) s = .next t ∧ (t.ctxAt cx).first = cause ∧ (t.ctxAt cx).st ≠ 0 ∧
      (t.ctxAt cx).porterDown = true ∧
      ∀ h, (t.ctxAt cx).change = some h → h.pending = false)

/-- R157, R174, R259: LATE_DATA_TIMEOUT: a running strand that has stalled for LATELIM on a forwarding mark that still stands takes
trap 0x35 with the address it stalled on; so does the first such command of an engine whose strand does not stall, but a scrub;
a copy list raises 0x3A with its entry in AUX and 0x35 in SUB. A stall whose mark has cleared raises nothing. -/
def Sys2Proof.Claims.LateData : Prop :=
  (∀ s u e since va, (s.blockAt u).isSome = true →
    let t := s.focus u
    (t.str e).wait = .mark since va → t.cx.late t.time since = true → t.vaMarked va = true → t.live e = true →
    exec (.lateDataTimeout u e) s = .next (t.raise e ⟨0x35, BitVec.ofNat 64 va, 0, 0, none⟩)) ∧
  (∀ s u e c since va, (s.blockAt u).isSome = true →
    let t := s.focus u
    (∀ a b, (t.str e).wait ≠ .mark a b) → t.blk.started = true → t.engLive e = true →
    (t.blk.eng e).prog = [c] → c.stuck = false → (∀ x, c.op ≠ .scrub x) → c.waits = .mark since va → t.cx.late t.time since = true →
    (t.vaMarked va = true → (∀ x, c.op ≠ .copyl x) →
      exec (.lateDataTimeout u e) s = .next (t.raiseCmd e c ⟨0x35, BitVec.ofNat 64 va, 0, 0, none⟩)) ∧
    (t.vaMarked va = true → ∀ x, c.op = .copyl x →
      exec (.lateDataTimeout u e) s = .next (t.raiseCmd e c
        ⟨0x3A, BitVec.ofNat 64 va, BitVec.ofNat 64 (c.reg 2 % 2 ^ 32 + c.prog), 0x35, none⟩)) ∧
    (t.vaMarked va = false → exec (.lateDataTimeout u e) s = .next s))

/-- R125, R126, R270: `klaunch` and `kxfer` read their packet or descriptor; one that passes the checks is entered on the issuing
die, a release at package scope to the child, and delivers 0; one that fails delivers its code and enters nothing. The order of
the checks and what they take for granted is the model's reading (log 47). -/
def Obligations.DeviceLaunch : Prop :=
  ∀ i s x n check a s1 bs s2, launches i = some (x, n, check) → (s.str .c).holds x.pred = true →
    s.blk.scout.round = .closed → Takes .c x.a s a s1 → a.toNat % n = 0 →
    loadAs .c false a.toNat n (acquired .c [x.a] s1) = .ok (bs, s2) →
    s2.scoreRoom s2.blk.die.val = true →
    (∀ t s3 s4, (check s2.blk.ctx s2.blk.uid bs s2.blk.die.val).run s2 = .ok (.ok t, s3) →
      Puts .c x.d (entered s3 t s2.blk.die.val) 0 s4 →
      exec i s = .next ((released .c [x.d] s4).complete .c 1 .go)) ∧
    (∀ code s3 s4, (check s2.blk.ctx s2.blk.uid bs s2.blk.die.val).run s2 = .ok (.error code, s3) →
      Puts .c x.d s3 (BitVec.ofNat 64 code) s4 →
      exec i s = .next ((released .c [x.d] s4).complete .c 1 .go))

/-- R133 to R138: `scout` opens a round of K slots and calls the guess routine; `sgret` reads CIN, sets the round mark and
returns; `accept` delivers how many slots match; `scommit` commits those and calls the guess routine for the next round;
`sclose` commits and closes. -/
def Sys2Proof.Claims.ScoutResult : Prop :=
  (∀ s x a s1 bs s2 l s3, s.inSlot .c = false → (s.str .c).holds x.pred = true → s.blk.scout.round = .closed →
    2 ≤ x.k.val → x.k.val ≤ 8 → Takes .c x.a s a s1 → a.toNat % 64 = 0 →
    byStrand .c 8 (readVirt false a.toNat 128) (ordered .c [x.a] [] s1) = .ok (bs, s2) → descBad s2.cx bs = false →
    let t := targetAddr (s2.str .c).pc x.guess
    lineAt .c t s2 = .ok (l, s3) → Enters l t →
    ∃ u, exec (.cScout x) s = .next u ∧ u.blk.scout.k = x.k.val ∧ u.blk.scout.kr = x.k.val ∧
      u.blk.scout.round = .guess ((s2.str .c).afterAddr 2) ∧ u.blk.scout.desc = a ∧ u.blk.scout.iter = 0 ∧
      u.blk.scout.failed = [] ∧ (u.str .c).pc = t ∧ u.mem = s3.mem ∧ u.blk.s = s3.blk.s) ∧
  (∀ s x ret l s1, s.inSlot .c = false → (s.str .c).holds x.pred = true → s.blk.scout.round = .guess ret → ret ≠ 0 →
    byStrand .c 4 (cinEntries s.blk.scout s.blk.scout.carries) s = .ok (l, s1) →
    (s1.blk.vq[s.blk.scout.cin]).length + s1.blk.inflightTo (.port (.vq s.blk.scout.cin)) + l.length ≤ 4 →
    ∃ u, exec (.cSgret x) s = .next u ∧ u.blk.scout.round = .body ∧ u.blk.scout.cins = l ∧
      u.blk.scout.mark.isSome = true ∧ u.blk.vq[s.blk.scout.cin] = s1.blk.vq[s.blk.scout.cin] ++ l ∧
      (u.str .c).pc = ret ∧ u.mem = s1.mem) ∧
  (∀ s x couts s1 l s2 s3, (s.str .c).holds x.pred = true → s.blk.scout.round = .body →
    popVqs s.blk.scout.cout s.blk.scout.carries s = .ok (couts, s1) →
    let tol := if x.tol then some s.blk.scout.tol else none
    let n := acceptFrom s.blk.scout.kr s.blk.scout.failed (slotMatch tol couts s.blk.scout.cins) 8 1
    byStrand .c 4 (writeCarry s.blk.scout.carry.toNat (n - 1) couts) s1 = .ok (l, s2) →
    Puts .c x.d (s2.blkRelease l) (BitVec.ofNat 64 n) s3 →
    exec (.cAccept x) s = .next ((ordered .c [] [x.d] { s3 with blk := { s3.blk with
      scout := { s3.blk.scout with round := .accepted, acc := n } } }).complete .c 1 .go)) ∧
  (∀ s x l s1 k s2, s.inSlot .c = false → (s.str .c).holds x.pred = true → s.blk.scout.round = .accepted →
    commitSlots s.blk.scout.bufs s.blk.scout.acc s = .ok (l, s1) →
    writeTails (s.blk.scout.desc.toNat + 64) s.blk.scout.advance s1 = .ok (k, s2) →
    ∃ u, exec (.cSclose x) s = .next u ∧ u.blk.scout.round = .closed ∧ u.blk.scout.k = 0 ∧ u.mem = s2.mem ∧
      u.blk.s = s2.blk.s) ∧
  (∀ s x l s1 k s2 r s3, s.inSlot .c = false → (s.str .c).holds x.pred = true → s.blk.scout.round = .accepted →
    commitSlots s.blk.scout.bufs s.blk.scout.acc s = .ok (l, s1) →
    writeTails (s.blk.scout.desc.toNat + 64) s.blk.scout.advance s1 = .ok (k, s2) →
    let w := s2.blkRelease (l ++ k)
    lineAt .c s2.blk.scout.target { w with blk := { w.blk with
      scout := { s2.blk.scout with regions := s.blk.scout.advance, iter := s.blk.scout.iter + BitVec.ofNat 32 s.blk.scout.acc } } } =
        .ok (r, s3) → Enters r s2.blk.scout.target →
    ∃ u, exec (.cScommit x) s = .next u ∧ (∃ ret, u.blk.scout.round = .guess ret) ∧
      u.blk.scout.iter = s.blk.scout.iter + BitVec.ofNat 32 s.blk.scout.acc ∧ u.blk.scout.failed = [] ∧
      (u.str .c).pc = s2.blk.scout.target ∧ u.mem = s3.mem)

/-- R140, R265: SCOUT_RERUN of a discarded round with no command of the round left, or with none of the block's commands able to go
on, which then are abandoned (that these are not waited for is the model's reading, log 40): the strands, the scalar, address and
mask registers, the queues, the streams, the rings and the guard slots stand as the round mark holds them, but for CIN's entries,
and the round runs again, serially where it was discarded so. Memory is unchanged. -/
def Sys2Proof.Claims.RoundRerun : Prop :=
  ∀ s u serial m, (s.blockAt u).isSome = true →
    let t := s.focus u
    t.blk.scout.round = .rerun serial → t.blk.scout.mark = some m → t.cx.st.val ≤ 1 →
    (t.withdraw.blk.roundCmds = [] ∨ t.withdraw.enginesRest = true) →
    ∃ v, exec (.scoutRerun u) s = .next v ∧ v.mem = t.mem ∧ v.blk.s = m.s ∧ v.blk.a = m.a ∧ v.blk.vm = m.vm ∧
      v.blk.q = m.q ∧ v.blk.pops = m.pops ∧ (∀ n, n ≠ t.blk.scout.cin → v.blk.vq[n] = m.vq[n]) ∧
      v.blk.streams = m.streams ∧ v.blk.rings = m.rings ∧ v.blk.gs = m.gs ∧ v.blk.holders = m.holders ∧
      v.blk.scout.round = .body ∧ v.blk.scout.kr = (if serial then 1 else t.blk.scout.k) ∧
      (v.str .c).pc = (m.strands[engIdx .c]).pc

namespace Sys2Proof.Claims

open Sys2Proof Sys2Proof.Machine

/-! ## The a strand -/

/-- Arithmetic of the a strand: the value of D (R142). -/
def aPlain : Instr → Option (RArgs × (Dword → Dword → Dword))
  | .aAdd x => some (x, fun a b => a + b)
  | .aSub x => some (x, fun a b => a - b)
  | .aMul x => some (x, fun a b => a * b)
  | .aShl x => some (x, fun a b => a <<< (b.toNat % 64))
  | .aShr x => some (x, fun a b => a >>> (b.toNat % 64))
  | _ => none

/-- The same with an immediate. -/
def aPlainK : Instr → Option (KArgs × Dword × (Dword → Dword → Dword))
  | .aAddK x => some (x, x.imm.signExtend 64, fun a b => a + b)
  | .aSubK x => some (x, x.imm.signExtend 64, fun a b => a - b)
  | .aMulK x => some (x, x.imm.signExtend 64, fun a b => a * b)
  | .aShlK x => some (x, x.imm.setWidth 64, fun a b => a <<< b.toNat)
  | .aShrK x => some (x, x.imm.setWidth 64, fun a b => a >>> b.toNat)
  | _ => none

/-- No command that has been issued names stream `g`, and no v or d access of it is to come before the a strand's pc, in the
rounds that armed loops and branches back may still take too (R148; log 18). -/
def StreamFree (s : State) (g : Fin 16) : Prop :=
  s.blk.named g = false ∧ s.toCome .v (vNames g.val) (s.str .a).pc.toNat = false ∧
    s.toCome .d (dNames g.val) (s.str .a).pc.toNat = false

/-- An SBIND value without the faults of R148 on a core of die `d`: the fields that read zero, CAP, and the buffer inside
the slice. -/
def BindOk (v : Dword) (d : Nat) : Prop :=
  v.toNat % 64 = 0 ∧ v.toNat / 2 ^ 22 % 2 ^ 26 = 0 ∧ v.toNat / 2 ^ 48 ≠ 0 ∧
    64 * (v.toNat / 2 ^ 6 % 2 ^ 16) + 320 * (v.toNat / 2 ^ 48) ≤ sliceSize d

/-- An SFMT value whose fields are none of them reserved, and one whose scale fields fit its format (R146, R148). -/
def FmtDefined (v : Dword) : Prop :=
  v.toNat % 2 ^ 12 = 0 ∧ v.toNat / 2 ^ 27 % 16 < 13 ∧ v.toNat / 2 ^ 20 % 16 < 8

def FmtFits (v : Dword) : Prop :=
  let f := v.toNat / 2 ^ 27 % 16
  if f = 9 ∨ f = 10 ∨ f = 12 then 1 ≤ v.toNat / 2 ^ 12 % 256
  else if f = 11 then 2 ≤ v.toNat / 2 ^ 12 % 256
  else v.toNat / 2 ^ 32 = 0 ∧ v.toNat / 2 ^ 12 % 256 = 0

/-- An SFMT value without the faults of R146 and R148. -/
def FmtOk (v : Dword) : Prop := FmtDefined v ∧ FmtFits v

/-- What a setter of stream `g` does: it traps 0x02 on a reserved field, 0x34 on a value that does not fit, is blocked while the
stream is used, and else goes on to `t` (R30, R148). -/
def setterEnds (s : State) (i : Instr) (g : Fin 16) (s1 : State) (defd fits : Prop) (t : State) : Prop :=
  (¬defd → exec i s = .next (traps .a 0x02 s)) ∧
  (defd → ¬fits → exec i s = .next (traps .a 0x34 s)) ∧
  (defd → fits → ¬StreamFree s1 g → exec i s = .next (held .a s)) ∧
  (defd → fits → StreamFree s1 g → exec i s = .next t)

/-- The block in focus with a stream register changed. -/
def withStream (s : State) (g : Fin 16) (x : Stream) : State :=
  { s with blk := { s.blk with streams := s.blk.streams.set g x } }

/-- The two forms of `nset`: words, predicate, level, count register, stepped register and step. -/
def nsets : Instr → Option (Nat × Pred × Fin 6 × Fin 32 × Fin 32 × Dword)
  | .aNset x => some (1, x.pred, x.level, x.x, x.y, x.step.signExtend 64)
  | .aNsetWide x => some (2, x.pred, x.level, x.x, x.y, x.step.signExtend 64)
  | _ => none

/-- The block in focus with another shadow set of levels. -/
def withShadowSet (s : State) (l : List (Fin 6 × NestLevel)) : State :=
  { s with blk := { s.blk with nest := { s.blk.nest with shadow := l } } }

/-- An exponent operand: a signed six-bit immediate, or the low 16 bits of a popped entry (R212). -/
def TakesE (e : Eng) (x : EVal) (s : State) (v : BitVec 16) (t : State) : Prop :=
  match x with
  | .imm n => v = (BitVec.ofNat 6 n.val).signExtend 16 ∧ t = s
  | .q n => ∃ w, Takes e (.port (.q n)) s w t ∧ v = w.setWidth 16

/-- The block in focus with a matrix tile, a decode tile, a grotto descriptor or the holder of a bank changed. -/
def withTile (s : State) (n : Fin 4) (x : Tile) : State := { s with blk := { s.blk with acc := s.blk.acc.set n x } }
def withDTile (s : State) (n : Fin 2) (x : DTile) : State := { s with blk := { s.blk with dacc := s.blk.dacc.set n x } }
def withGd (s : State) (n : Fin 4) (x : GDesc) : State := { s with blk := { s.blk with gd := s.blk.gd.set n (some x) } }
def withHolder (s : State) (n : Fin 8) (h : Holder) : State :=
  { s with blk := { s.blk with holders := s.blk.holders.set n h } }

/-! ## Engine commands (R90, R144) -/

/-- Every engine-command instruction: its engine, words, predicate, attribute index, command, and the a registers that it
captures. -/
def commands : Instr → Option (Eng × Nat × Pred × Fin 32 × CmdOp × List (Fin 32))
  | .aCopyMm x => some (.a, 1, x.pred, x.attr, .copyMm x, [x.o1, x.o2, x.o3])
  | .aCopyMs x => some (.a, 1, x.pred, x.attr, .copyMs x, [x.o1, x.o2, x.o3])
  | .aCopySm x => some (.a, 1, x.pred, x.attr, .copySm x, [x.o1, x.o2, x.o3])
  | .aCopyl x => some (.a, 1, x.pred, x.attr, .copyl x, [x.o1, x.o2, x.o3])
  | .aSdrain x => some (.a, 1, x.pred, x.attr, .sdrain x, [x.o1, x.o2, x.o3])
  | .aScrub x => some (.a, 1, x.pred, x.attr, .scrub x, [x.o1, x.o2, x.o3])
  | .aLdt x => some (.a, 1, x.pred, x.attr, .ldt x, [x.o1, x.o2, x.o3])
  | .aCopyMmLen x => some (.a, 1, x.pred, x.attr, .copyMmLen x, [x.o1, x.o2, x.o3])
  | .aCopyMsLen x => some (.a, 1, x.pred, x.attr, .copyMsLen x, [x.o1, x.o2, x.o3])
  | .aCopySmLen x => some (.a, 1, x.pred, x.attr, .copySmLen x, [x.o1, x.o2, x.o3])
  | .aCopyWide x e => some (.a, 2, x.pred, x.attr, .copyWide x e, [x.o1, x.o2, x.o3])
  | .aCopyb x e => some (.a, 2, x.pred, x.attr, .copyb x e, [x.o1, x.o2, x.o3])
  | .aMcast x e => some (.a, 2, x.pred, x.attr, .mcast x e, [x.o1, x.o2, x.o3])
  | .mMma x e => some (.m, 2, x.pred, x.attr, .mma x e, [])
  | .mMmas x e => some (.m, 2, x.pred, x.attr, .mmas x e, [])
  | .mMnormGrow x => some (.m, 1, x.pred, x.attr, .mnormGrow x, [])
  | .mMnormTight x => some (.m, 1, x.pred, x.attr, .mnormTight x, [])
  | .mMrd x => some (.m, 1, x.pred, x.attr, .mrd x, [])
  | .mMwr x => some (.m, 1, x.pred, x.attr, .mwr x, [])
  | .mMexpGet x => some (.m, 1, x.pred, x.attr, .mexpGet x, [])
  | .mMexpSet x => some (.m, 1, x.pred, x.attr, .mexpSet x, [])
  | .dDnormGrow x => some (.d, 1, x.pred, x.attr, .dnormGrow x, [])
  | .dDnormTight x => some (.d, 1, x.pred, x.attr, .dnormTight x, [])
  | .dDrd x => some (.d, 1, x.pred, x.attr, .drd x, [])
  | .dDmv x => some (.d, 2, x.pred, x.attr, .dmv x, [])
  | .dDqk x => some (.d, 2, x.pred, x.attr, .dqk x, [])
  | .dDpv x => some (.d, 2, x.pred, x.attr, .dpv x, [])
  | .gGld x => some (.g, 2, x.pred, x.attr, .gld x, [])
  | .gGsc x => some (.g, 2, x.pred, x.attr, .gsc x, [])
  | _ => none

/-- What a command's own rule asks at issue: a d command's stream has no earlier `sbind` or `sset` to come (R148), and a
`gsc` stands in no round (R139). -/
def IssueOk (s : State) : CmdOp → Prop
  | .dmv x => s.toCome .a (aSets x.g.val) (s.str .d).pc.toNat = false
  | .dqk x => s.toCome .a (aSets x.g.val) (s.str .d).pc.toNat = false
  | .dpv x => s.toCome .a (aSets x.g.val) (s.str .d).pc.toNat = false
  | .gsc _ => s.blk.scout.round = .closed
  | _ => True

/-- The block in focus with a setter of the flag that an attribute entry names: P rises, its ordinal outstanding (R34). -/
def flagged (w : Word) (b : Block) : Block :=
  if w.toNat / 2 ^ 16 % 2 = 1 then
    let n := Fin.ofNat 64 (w.toNat / 2 ^ 10)
    let f := b.flags[n]
    { b with flags := b.flags.set n { p := f.p + 1, pend := f.pend ++ [f.p.toNat + 1] } }
  else b

/-- The flag and ordinal that a command completes. -/
def ordinal (w : Word) (b : Block) : Option (Fin 64 × Nat) :=
  if w.toNat / 2 ^ 16 % 2 = 1 then
    some (Fin.ofNat 64 (w.toNat / 2 ^ 10), (b.flags[Fin.ofNat 64 (w.toNat / 2 ^ 10)]).p.toNat + 1)
  else none

/-- Strand `e`'s command, with everything captured, at the end of its engine's queue. -/
def issued (e : Eng) (w : Word) (op : CmdOp) (regs : List (Fin 32)) (s : State) : State :=
  let q := s.blk.engs[cmdIdx e]
  let c : Cmd := { Cmd.new op (s.str e).pc with
    idx := q.next, regs := regs.map fun r => s.blk.a[r], flag := ordinal w s.blk,
    guard := if w.toNat / 2 ^ 9 % 2 = 1 then some (Fin.ofNat 16 (w.toNat / 2 ^ 4), w.toNat / 2 ^ 8 % 2 == 1) else none,
    ord := attrOrd w, pfx := (s.str e).pfx, issued := s.time }
  let b := flagged w s.blk
  ({ s with blk := { b with engs := b.engs.set (cmdIdx e) { q with queue := q.queue ++ [c], next := q.next + 1 } } } :
    State).cmdSees s.blk.uid e q.next (attrAcq w)

/-! ## What the units of commands do -/

/-- The copy in memory that a command stands for: destination, source, length, DOM code and its side (R151, R152). -/
def mmOf (c : Cmd) : Option CopyMm :=
  match c.op with
  | .copyMm _ => some ⟨c.reg 0, c.reg 1, c.reg 2 % 2 ^ 32, 0, false⟩
  | .copyMmLen x => some ⟨c.reg 0, c.reg 1, 2 ^ x.o3.val, 0, false⟩
  | .copyWide x e =>
    if e.kind ≠ 0 ∨ e.tr = true then none
    else some ⟨(BitVec.ofNat 64 (c.reg 0) + e.doff.signExtend 64).toNat, (BitVec.ofNat 64 (c.reg 1) + e.soff.signExtend 64).toNat,
      if e.lk then 2 ^ x.o3.val else c.reg 2 % 2 ^ 32, e.dom.val, e.fd⟩
  | _ => none

/-- The stream copy that a command stands for: whether it is out of the stream, the stream, and its memory side. -/
def streamCopyOf (c : Cmd) : Option (Bool × Fin 16 × CopyMm) :=
  let plain := fun n => (⟨c.reg 0, c.reg 1, n, 0, false⟩ : CopyMm)
  match c.op with
  | .copyMs x => some (false, Fin.ofNat 16 x.o1.val, plain (c.reg 2 % 2 ^ 32))
  | .copyMsLen x => some (false, Fin.ofNat 16 x.o1.val, plain (2 ^ x.o3.val))
  | .copySm x => some (true, Fin.ofNat 16 x.o2.val, plain (c.reg 2 % 2 ^ 32))
  | .copySmLen x => some (true, Fin.ofNat 16 x.o2.val, plain (2 ^ x.o3.val))
  | .copyWide x e =>
    let y : CopyMm := ⟨(BitVec.ofNat 64 (c.reg 0) + e.doff.signExtend 64).toNat,
      (BitVec.ofNat 64 (c.reg 1) + e.soff.signExtend 64).toNat, if e.lk then 2 ^ x.o3.val else c.reg 2 % 2 ^ 32, e.dom.val, e.fd⟩
    if e.kind = 1 then some (false, Fin.ofNat 16 x.o1.val, y)
    else if e.kind = 2 then some (true, Fin.ofNat 16 x.o2.val, y)
    else none
  | _ => none

/-- The unit that a copy keeps whole in memory: the largest of 8, 4, 2 and 1 bytes that divides both addresses and the length
(R153). -/
def copyUnitOf (x : CopyMm) : Nat :=
  if x.dst % 8 = 0 ∧ x.src % 8 = 0 ∧ x.len % 8 = 0 then 8
  else if x.dst % 4 = 0 ∧ x.src % 4 = 0 ∧ x.len % 4 = 0 then 4
  else if x.dst % 2 = 0 ∧ x.src % 2 = 0 ∧ x.len % 2 = 0 then 2
  else 1

/-- A copy that restores no page: its destination is in no paged pool (R311). -/
def NoRestore (t : State) (x : CopyMm) : Prop := ∀ i e, t.entryOf x.dst = some (i, e) → e.kind ≠ 2

/-- The next `n` bytes of a copy from byte `k` on, read and then written. -/
def moves (x : CopyMm) (k n : Nat) : M Unit :=
  inUnits (copyUnitOf x) (do writeSide x.farDst (x.dst + k) (← readSide x.farSrc (x.src + k) n))

/-- How many bytes of a copy move next: up to the next granule boundary of the destination. -/
def nextBytes (x : CopyMm) (k : Nat) : Nat := min (x.len - k) (65536 - (x.dst + k) % 65536)

/-- Where the entry of position `p` of a stream stands in the slice (R147). -/
def entryOff (x : Stream) (p : Word) : Nat := 64 * x.base + p.toNat % x.cap * 320

/-- A vector and its scales written to the entry of position `p` of a stream. -/
def fills (g : Fin 16) (p : Word) (bs scales : List Byte) : M Unit := do
  let s ← getS
  let x := s.blk.streams[g]
  let o := entryOff x p
  writePhys (s.sliceVa o) (s.blk.slice + o) (bs.take x.vbytes)
  writePhys (s.sliceVa o) (s.blk.slice + o + 256) scales

/-- The copy that an entry of a copy list names; none where a field has a value that R156 does not allow. -/
def entryOf (bs : List Byte) : Option CopyMm :=
  let f := fun a n : Nat => leNat ((bs.drop a).take n)
  if f 16 4 ≤ 2 ^ 24 ∧ (f 20 1 ≤ 10 ∨ (16 ≤ f 20 1 ∧ f 20 1 ≤ 31)) ∧ f 21 1 ≤ 1 ∧ f 22 10 = 0 then
    some ⟨f 0 8, f 8 8, f 16 4, f 20 1, f 21 1 == 1⟩
  else none

/-- A ring in the block's own slice with slots of `bytes` bytes or more, `k` of them or more (R204). -/
def RingFits (t : State) (n : Fin 32) (bytes k : Nat) : Prop :=
  let r := t.blk.rings[n]
  r.cap ≠ 0 ∧ t.sliceVa 0 ≤ r.base.toNat ∧ bytes ≤ r.slot.toNat ∧ k ≤ r.cap.toNat ∧
    r.base.toNat + r.cap.toNat * r.slot.toNat ≤ t.sliceVa 0 + sliceSize t.blk.die.val

/-- An element after one accumulating step over some products in a row with exponent `e`: with every one finite, X plus the sum of
round_ne(p / 2^e), clamped to 40 bits; else its class is the classes' combination, and X stays (R76, R77). -/
def accumulated (e : Int) (x : Elem) (ps : List Val) : Elem :=
  let cs := x.t.val :: ps.map valClass
  if ∀ k ∈ cs, k = 0 then
    { x with x := BitVec.ofInt 40 (max (-(2 ^ 39)) (min (2 ^ 39 - 1) (x.x.toInt + (ps.map (quantize e)).sum))) }
  else if 3 ∈ cs ∨ (1 ∈ cs ∧ 2 ∈ cs) then { x with t := 3 }
  else if 1 ∈ cs then { x with t := 1 }
  else { x with t := 2 }

/-- Row `i` of a list of rows. -/
def rowAt {α : Type} (l : List (List α)) (i : Nat) : List α := l[i]?.getD []

/-- An element grown or tightened by `k` (R79). -/
def grown (k : Nat) (x : Elem) : Elem :=
  if x.t = 0 then { x with x := BitVec.ofInt 40 (roundInt .rne 0 (x.x.toInt < 0) x.x.toInt.natAbs (-(k : Int))) } else x

def tightened (k : Nat) (x : Elem) : Elem :=
  if x.t = 0 then { x with x := BitVec.ofInt 40 (max (-(2 ^ 39)) (min (2 ^ 39 - 1) (x.x.toInt * 2 ^ k))) } else x

/-- A row after `grow` or `tight` by `k`: where the exponent would leave 16 bits, nothing changes. -/
def GrownRow (k : Nat) (e : BitVec 16) (l : Vector Elem 64) (e1 : BitVec 16) (l1 : Vector Elem 64) : Prop :=
  if 32767 < e.toInt + k then e1 = e ∧ l1 = l else e1.toInt = e.toInt + k ∧ l1 = l.map (grown k)

def TightRow (k : Nat) (e : BitVec 16) (l : Vector Elem 64) (e1 : BitVec 16) (l1 : Vector Elem 64) : Prop :=
  if e.toInt - k < -32768 then e1 = e ∧ l1 = l else e1.toInt = e.toInt - k ∧ l1 = l.map (tightened k)

/-- The dense and the sparse multiply: whether it is sparse, its instruction and its extension. -/
def mmaOf : CmdOp → Option (Bool × CArgs × MmaExt)
  | .mma x e => some (false, x, e)
  | .mmas x e => some (true, x, e)
  | _ => none

/-- The rows of an A tile, those of a 2:4 sparse one spread to their logical depth, and of a B tile (R208, R209). -/
def aRows (sparse : Bool) (f k : Nat) (tbl : Vector (BitVec 16) 16) (bs : List Byte) : List (List (Option Val)) :=
  let l := (tileValues f k tbl bs).1
  if sparse then (spreadTile k l (bs.drop (tileElemBytes f k + tileScaleBytes f k))).1 else l.map fun r => r.map some

/-- The three streaming commands of the d engine. -/
def streamed : CmdOp → Option (DKind × DmvArgs)
  | .dmv x => some (.mv, x)
  | .dqk x => some (.qk, x)
  | .dpv x => some (.pv, x)
  | _ => none

/-- Corner features summed with their weights: one fused multiply-add each, rounded to nearest even (R228). -/
def weighed (l : List (Val × List Val)) (zero : List Val) : List Val :=
  l.foldl (fun out x => out.zipWith (fun y f => Fmt.fp32.value false (Fmt.fp32.rne ((x.1.mul f).add .rne y))) x.2) zero

end Sys2Proof.Claims

open Sys2Proof Sys2Proof.Machine Sys2Proof.Claims

/-- R142: the a strand's arithmetic wraps at 64 bits, whatever its prefix; `mov` and `li` write D. -/
def Obligations.AResult : Prop :=
  (∀ i s x f a b s1 s2 s3, aPlain i = some (x, f) → (s.str .a).holds x.pred = true →
    Takes .a x.a s a s1 → Takes .a x.b s1 b s2 → Puts .a x.d s2 (f a b) s3 →
    exec i s = .next ((ordered .a [x.a, x.b] [x.d] s3).complete .a 1 .go)) ∧
  (∀ i s x k f a s1 s2, aPlainK i = some (x, k, f) → (s.str .a).holds x.pred = true →
    Takes .a x.a s a s1 → Puts .a x.d s1 (f a k) s2 →
    exec i s = .next ((ordered .a [x.a] [x.d] s2).complete .a 1 .go)) ∧
  (∀ s x a s1 s2, (s.str .a).holds x.pred = true → Takes .a x.a s a s1 → Puts .a x.d s1 a s2 →
    exec (.aMov x) s = .next ((ordered .a [x.a] [x.d] s2).complete .a 1 .go)) ∧
  (∀ s x s1, (s.str .a).holds x.pred = true → Puts .a x.d s (x.imm.signExtend 64) s1 →
    exec (.aLi x) s = .next ((ordered .a [] [x.d] s1).complete .a 2 .go))

/-- R30, R146, R148: `sbind` of a stream that nothing still uses binds its buffer and starts its positions again; `sset`, from a
register or with an immediate, writes its format and leaves its positions; values with a reserved field trap 0x02 and unusable ones
0x34; and either setter is blocked while an earlier command names the stream or an earlier v or d access of it is to come. -/
def Obligations.StreamRegisters : Prop :=
  (∀ s x v s1, (s.str .a).holds x.pred = true → Takes .a x.a s v s1 →
    setterEnds s (.aSbind x) x.g s1 (v.toNat % 64 = 0 ∧ v.toNat / 2 ^ 22 % 2 ^ 26 = 0)
      (v.toNat / 2 ^ 48 ≠ 0 ∧ 64 * (v.toNat / 2 ^ 6 % 2 ^ 16) + 320 * (v.toNat / 2 ^ 48) ≤ sliceSize s.blk.die.val)
      ((ordered .a [x.a] [] (withStream s1 x.g ⟨v, (s1.blk.streams[x.g]).sfmt, 0, 0, 0, 0, []⟩)).complete .a 1 .go)) ∧
  (∀ s x v s1, (s.str .a).holds x.pred = true → Takes .a x.a s v s1 →
    setterEnds s (.aSset x) x.g s1 (FmtDefined v) (FmtFits v)
      ((ordered .a [x.a] [] (withStream s1 x.g { s1.blk.streams[x.g] with sfmt := v })).complete .a 1 .go)) ∧
  (∀ s x, (s.str .a).holds x.pred = true →
    setterEnds s (.aSsetImm x) x.g s (FmtDefined (x.imm.setWidth 64)) (FmtFits (x.imm.setWidth 64))
      ((withStream s x.g { s.blk.streams[x.g] with sfmt := x.imm.setWidth 64 }).complete .a 2 .go))

/-- R165, R166, R167: `nset` adds a level, or a second stepped register to a level with the same count register, and traps
0x02 on a third or another count register; `ngo` with a sound body asks leave and waits once no nest is live; `nwait` goes
on once none is. -/
def Obligations.NestInstructions : Prop :=
  (∀ i s w p l x y step, nsets i = some (w, p, l, x, y, step) → (s.str .a).holds p = true →
    ((s.blk.nest.shadow.find? fun z => z.1 == l) = none →
      exec i s = .next ((withShadowSet s (s.blk.nest.shadow ++
        [(l, ⟨(s.blk.a[x]).setWidth 32, x, [(y, step)]⟩)])).complete .a w .go)) ∧
    (∀ lv y0, (s.blk.nest.shadow.find? fun z => z.1 == l) = some (l, lv) → lv.creg = x → lv.steps = [y0] →
      exec i s = .next ((withShadowSet s (s.blk.nest.shadow.map fun z =>
        if z.1 = l then (l, ⟨lv.count, x, [y0, (y, step)]⟩) else z)).complete .a w .go)) ∧
    (∀ lv, (s.blk.nest.shadow.find? fun z => z.1 == l) = some (l, lv) → (lv.creg ≠ x ∨ 2 ≤ lv.steps.length) →
      exec i s = .next (s.raise .a ⟨0x02, 0, 0, 0, none⟩))) ∧
  (∀ s x r s1, s.inSlot .a = false → (s.str .a).holds x.pred = true → captureBody (x.k1.val + 1) s = .ok (r, s1) →
    s1.blk.nest.live = none →
    exec (.aNgo x) s = .next ((s1.askLeave .a none leaveNgo).complete .a 1 (.wait (.leave s1.blk.cyc)))) ∧
  (∀ s x, (s.str .a).holds x.pred = true → s.blk.nest.live = none →
    exec (.aNwait x) s = .next (s.complete .a 1 .go))

/-- R34, R90, R139, R144, R203: every engine command with a sound attribute entry and room in its engine's queue is queued
with its next index, its registers, flag ordinal, guard, ordering and prefix captured, and its strand goes on. -/
def Sys2Proof.Claims.CommandQueued : Prop :=
  ∀ i s e n p attr op regs, commands i = some (e, n, p, attr, op, regs) → (s.str e).holds p = true →
    let w := s.blk.attr e attr
    attrBad w = false → RoundAdmits s (attrOrd w) → IssueOk s op → (s.blk.engs[cmdIdx e]).queue.length < 32 →
    (w.toNat / 2 ^ 16 % 2 = 1 → (s.blk.flags[Fin.ofNat 64 (w.toNat / 2 ^ 10)]).p.toNat ≠ 2 ^ 32 - 1) →
    exec i s = .next ((issued e w op regs s).complete e n .go)

/-- R91, R144, R145: a command whose attribute entry is faulty traps 0x02 whatever its predicate, and one whose engine's
queue is full blocks; neither has any other effect. -/
def Sys2Proof.Claims.CommandRefusedAtIssue : Prop :=
  (∀ i s e n p attr op regs, commands i = some (e, n, p, attr, op, regs) → attrBad (s.blk.attr e attr) = true →
    exec i s = .next (s.raise e ⟨0x02, 0, 0, 0, none⟩)) ∧
  (∀ i s e n p attr op regs, commands i = some (e, n, p, attr, op, regs) → (s.str e).holds p = true →
    attrBad (s.blk.attr e attr) = false → RoundAdmits s (attrOrd (s.blk.attr e attr)) → IssueOk s op →
    32 ≤ (s.blk.engs[cmdIdx e]).queue.length →
    exec i s = .next (held e s))

/-- R38, R144: COMMAND_START of a queue whose head has no guard, or one that resolves true, puts it in progress after what it does at
its start; a head whose
guard resolves false leaves without acting, but for the entry of a count queue that it pops (log 24), and its flag completes.
COMMAND_COMPLETE of a command whose next unit is its last: it leaves its engine, its flag's ordinal completes, and what that unit
did stands. -/
def Sys2Proof.Claims.CommandSteps : Prop :=
  (∀ s u e c r c1 w, (s.blockAt u).isSome = true →
    let t := s.focus u
    t.engStarts e = true → (t.blk.eng e).queue = c :: r → (t.blk.eng e).prog.length < 16 → t.blk.scout.mark = none →
    (c.guard = none ∨ ∃ g n, c.guard = some (g, n) ∧ t.blk.gs[g] = some (!n)) →
    startOf e { c with guard := none } t = .ok (c1, w) →
    ∃ v, exec (.commandStart u e) s = .next v ∧ v.mem = w.mem ∧ (v.blk.eng e).prog = (w.blk.eng e).prog ++ [c1] ∧
      (v.blk.eng e).queue = (w.blk.eng e).queue.drop 1 ∧ v.blk.flags = w.blk.flags) ∧
  (∀ s u e c r g v, (s.blockAt u).isSome = true →
    let t := s.focus u
    t.engStarts e = true → (t.blk.eng e).queue = c :: r → (t.blk.eng e).prog.length < 16 → t.blk.scout.mark = none →
    c.guard = some (g, v) → t.blk.gs[g] = some v → (∀ n, c.popsCount = some n → t.blk.q[n] ≠ []) →
    ∃ z, exec (.commandStart u e) s = .next z ∧ z.mem = t.mem ∧ (z.blk.eng e).queue = r ∧
      (z.blk.eng e).prog = (t.blk.eng e).prog ∧
      (∀ n : Fin 16, z.blk.q[n] = if c.popsCount = some n then (t.blk.q[n]).drop 1 else t.blk.q[n]) ∧
      ∀ f n, c.flag = some (f, n) → n ∉ (z.blk.flags[f]).pend) ∧
  (∀ s u e c c1 t1, (s.blockAt u).isSome = true →
    let t := s.focus u
    t.engLive e = true → (t.blk.eng e).prog = [c] → c.stuck = false → c.delivered = false → t.blk.scout.mark = none →
    unitOf e { c with waits := .run, tries := 0 } t = .ok ((c1, true), t1) →
    c1.idx = c.idx → t1.blk.nest.live = none → (t1.blk.eng e).prog = [c] →
    ∃ v, exec (.commandComplete u e c.idx.toNat) s = .next v ∧ v.mem = t1.mem ∧ (v.blk.eng e).prog = [] ∧
      ∀ f n, c1.flag = some (f, n) → n ∉ (v.blk.flags[f]).pend)

/-- R163, R166, R168, R171, R329: NEST_ISSUE issues the live nest's next instance; MCAST_DELIVER carries one target of a
served multicast on; LDT_CUTOFF serves or slips an `ldt` that has started, and LDT_VECTOR_READY reads its slot and then lands vector
after vector; LEAVE_GRANT grants an island's first request, of a command that waits or of a nest, while the island's limit allows it:
with a nest's, the shadow set goes live, empty behind it, and `ngo` goes on behind its body, but for a level that counts none, which
ends the nest at once. -/
def Obligations.EngineEvents : Prop :=
  (∀ s u l n x t1, (s.blockAt u).isSome = true →
    let t := s.focus u
    t.blk.nest.live = some l → t.engStarts .a = true → t.cx.st = 0 → l.allIssued = false →
    t.blk.scout.discarded = false → t.blk.forcing = false → l.body[l.at_]? = some n → n.op.cargs = some x →
    issueInstance n l x t = .ok ((), t1) → exec (.nestIssue u) s = .next t1) ∧
  (∀ s u idx m c x e c1 t1, (s.blockAt u).isSome = true →
    let t := s.focus u
    ((t.blk.eng .a).prog.find? fun c => c.idx.toNat == idx) = some c → c.op = .mcast x e → t.engLive .a = true →
    c.stuck = false → c.served = true → t.blk.scout.mark = none → asCmd .a c.idx 8 (mcDeliver c e x.o1 m) t = .ok (c1, t1) →
    ∃ v, exec (.mcastDeliver u idx m) s = .next v ∧ v.mem = t1.mem ∧
      (v.blk.eng .a).prog = (t1.blk.eng .a).prog.map fun y => if y.idx = c1.idx then c1 else y) ∧
  (∀ s u idx c x c1 t1, (s.blockAt u).isSome = true →
    let t := s.focus u
    ((t.blk.eng .a).all.find? fun c => c.idx.toNat == idx) = some c → c.op = .ldt x → t.engLive .a = true →
    c.stuck = false → c.served = false → t.blk.ldtSlot c x.o3.val ≤ t.time + 3600 → t.blk.scout.mark = none →
    ((t.blk.eng .a).queue.any fun y => y.idx == c.idx) = false → asCmd .a c.idx 8 (ldtCut c x) t = .ok (c1, t1) →
    ∃ v, exec (.ldtCutoff u idx) s = .next v ∧ v.mem = t1.mem ∧
      (v.blk.eng .a).prog = (t1.blk.eng .a).prog.map fun y => if y.idx = c1.idx then c1 else y) ∧
  (∀ s u idx c x c1 t1, (s.blockAt u).isSome = true →
    let t := s.focus u
    let n := ldtVectors t.blk.die.val t.blk.streams[oStream x.o1]
    ((t.blk.eng .a).prog.find? fun c => c.idx.toNat == idx) = some c → c.op = .ldt x → t.engLive .a = true →
    c.stuck = false → c.served = true → c.prog < n → t.blk.scout.mark = none →
    ((c.data = [] ∧ c.slotAt ≤ t.time ∧ asCmd .a c.idx 8 (ldtTake c x) t = .ok (c1, t1)) ∨
      (c.data ≠ [] ∧ c.slotAt * (n - 1) + readyAfter t.blk.die.val c.prog n ≤ t.time * (n - 1) ∧
        asCmd .a c.idx 8 (ldtReady c x) t = .ok (c1, t1))) →
    ∃ v, exec (.ldtVectorReady u idx) s = .next v ∧ v.mem = t1.mem ∧
      (v.blk.eng .a).prog = (t1.blk.eng .a).prog.map fun y => if y.idx = c1.idx then c1 else y) ∧
  (∀ s isl r rest idx c since, (s.isls[isl]).reqs = r :: rest → r.cmd = some idx → (s.blockAt r.uid).isSome = true →
    let t := s.focus r.uid
    ((t.blk.eng r.eng).prog.find? fun c => c.idx == idx) = some c → c.leave = .waiting since →
    (s.isls[isl]).iuse + r.units ≤ Config.ilim isl.val →
    ∃ v, exec (.leaveGrant isl) s = .next v ∧ (v.isls[isl]).reqs = rest ∧
      (v.isls[isl]).iuse = (s.isls[isl]).iuse + r.units ∧ v.mem = s.mem ∧
      (v.blk.eng r.eng).prog = (t.blk.eng r.eng).prog.map fun y =>
        if y.idx = c.idx then { c with leave := .granted r.units isl } else y) ∧
  (∀ s isl r rest since body a l w w1, (s.isls[isl]).reqs = r :: rest → r.cmd = none → (s.blockAt r.uid).isSome = true →
    let t := s.focus r.uid
    let g := (s.modIsl isl fun i => i.grant r s.time).focus r.uid
    let w0 : State := { g with blk := g.blk.granted since }
    (t.str .a).wait = .leave since → (t.str .a).stop = none → (s.isls[isl]).iuse + r.units ≤ Config.ilim isl.val →
    captureBody t.ngoCount w0 = .ok ((body, a, l, w), w1) → w1.blk = w0.blk → w1.isls = w0.isls →
    let lv := t.blk.nest.shadow
    let empty := lv.any fun z => z.2.count == 0
    ∃ v, exec (.leaveGrant isl) s = .next v ∧ v.mem = w1.mem ∧ v.blk.nest.shadow = [] ∧
      v.str .a = { (t.str .a).complete 1 (.past a l w) with since := w1.time } ∧
      (empty = false → (v.isls[isl]).reqs = rest ∧ (v.isls[isl]).iuse = (s.isls[isl]).iuse + r.units ∧
        v.blk.nest.live = some ⟨lv, body, t.blk.a, Vector.replicate 6 0, 0, false, r.units, isl⟩) ∧
      (empty = true → ((t.blk.eng .a).prog.any fun c => c.nest) = false → v.blk.nest.live = none))

/-- R145, R147, R150, R151, R153, R157, R161, R163, R173: what one unit of an a command does. A copy in memory moves its bytes up to
the next granule of its destination. A copy into a stream fills the entry of its next position with a vector and its scales, and one out
of a stream writes an entry to memory and takes it. A copy list does the same for the entry that it stands at, one entry after another,
and a malformed entry traps 0x3A. `sdrain` takes a position, a `copyb` gathers or scatters its blocks at once, `mcast` reads its source
once, claims, fills and publishes a target's slots, and `scrub` writes its result block. That a unit is a granule, a vector or a whole
block list is the model's choice (log 26). -/
def Sys2Proof.Claims.CopyUnits : Prop :=
  (∀ c x t t1, mmOf c = some x → c.count < x.len → c.ord.rel = false → t.blk.writesRound .a c.idx = false →
    (0 < c.count ∨ NoRestore t x) →
    let n := nextBytes x c.count
    asCmd .a c.idx 8 (moves x c.count n) t = .ok ((), t1) →
    unitOf .a c t = .ok (({ c with count := c.count + n, served := false }, decide (x.len ≤ c.count + n)), t1)) ∧
  (∀ c g y t t1, streamCopyOf c = some (false, g, y) →
    let x := t.blk.streams[g]
    let i := c.prog
    let p := c.pos + BitVec.ofNat 32 i
    x.out = false → y.len % x.vbytes = 0 → y.src % streamAlign x.format = 0 → i < y.len / x.vbytes → c.ord.rel = false →
    c.moved x x.wr i = false → (p - x.rd).toNat < x.cap →
    asCmd .a c.idx (max 1 (fmtBits x.format / 8)) (do
      let bs ← readSide y.farSrc (y.src + i * x.vbytes) x.vbytes
      fills g p bs (← readScales x y.farSrc y.src x.nscales (i * x.nscales))) t = .ok ((), t1) →
    unitOf .a c t = .ok (({ c with prog := i + 1 }, decide (y.len / x.vbytes ≤ i + 1)),
        withStream t1 g ((t1.blk.streams[g]).land p)) ∧
      (p = x.wr → x.early = [] → (x.land p).wr = x.wr + 1)) ∧
  (∀ c g y t t1, streamCopyOf c = some (true, g, y) →
    let x := t.blk.streams[g]
    let i := c.prog
    let p := c.pos + BitVec.ofNat 32 i
    x.out = true → y.len % x.vbytes = 0 → y.dst % streamAlign x.format = 0 → i < y.len / x.vbytes → c.ord.rel = false →
    t.blk.writesRound .a c.idx = false → c.served = false → (0 < i ∨ NoRestore t y) →
    c.moved x x.rd i = false → x.hasAt p = true →
    asCmd .a c.idx (max 1 (fmtBits x.format / 8)) (do
      let bs ← readPhys (t.sliceVa (entryOff x p)) (t.blk.slice + entryOff x p) 320
      writeSide y.farDst (y.dst + i * x.vbytes) (bs.take x.vbytes)
      writeScales x y.farDst y.dst (bs.drop 256) x.nscales (i * x.nscales)) t = .ok ((), t1) →
    unitOf .a c t = .ok (({ c with prog := i + 1 }, decide (y.len / x.vbytes ≤ i + 1)),
        withStream t1 g ((t1.blk.streams[g]).take p)) ∧
      (p = x.rd → x.early = [] → (x.take p).rd = x.rd + 1)) ∧
  (∀ c z t bs t1, c.op = .copyl z → c.reg 0 % 32 = 0 →
    let first := c.reg 2 % 2 ^ 32
    let n := c.reg 1 % 2 ^ 32
    let i := first + c.prog
    let a := c.reg 0 + 32 * i
    i < n → (n - first ≤ 16 ∨ ∃ k isl, c.leave = .granted k isl) → asCmd .a c.idx 8 (readVirt false a 32) t = .ok (bs, t1) →
    (entryOf bs = none → unitOf .a c t = .error (.trap ⟨0x3A, BitVec.ofNat 64 a, BitVec.ofNat 64 i, 0x02, none⟩)) ∧
    (∀ x, entryOf bs = some x → x.len = 0 →
      unitOf .a c t = .ok (({ c with prog := c.prog + 1, count := 0, served := false }, decide (n ≤ i + 1)), t1)) ∧
    (∀ x t2, entryOf bs = some x → c.count < x.len → c.ord.rel = false → t1.blk.writesRound .a c.idx = false →
      (0 < c.count ∨ NoRestore t1 x) →
      let m := nextBytes x c.count
      asCmd .a c.idx 8 (do let _ ← readVirt false a 32; moves x c.count m) t = .ok ((), t2) →
      unitOf .a c t = .ok (if x.len ≤ c.count + m then
        ({ c with prog := c.prog + 1, count := 0, served := false }, decide (n ≤ i + 1))
        else ({ c with count := c.count + m, served := false }, false), t2))) ∧
  (∀ c z t, c.op = .sdrain z →
    let g := Fin.ofNat 16 z.o1.val
    let x := t.blk.streams[g]
    let p := c.pos + BitVec.ofNat 32 c.prog
    c.prog < c.reg 1 % 2 ^ 32 →
    (x.out = true → c.moved x x.rd c.prog = false → x.hasAt p = true →
      unitOf .a c t = .ok (({ c with prog := c.prog + 1 }, decide (c.reg 1 % 2 ^ 32 ≤ c.prog + 1)), withStream t g (x.take p))) ∧
    (x.out = false → x.filled ≠ 0 → x.rd = p →
      unitOf .a c t = .ok (({ c with prog := c.prog + 1 }, decide (c.reg 1 % 2 ^ 32 ≤ c.prog + 1)),
        withStream t g { x with rd := x.rd + 1 }))) ∧
  (∀ c z e t tn l t1, c.op = .copyb z e → c.ord.rel = false →
    let pick := do
      let tn ← copybTensor c e
      return (tn, ← entryAddrs c e tn (e.nidx.toNat + 1) 0)
    asCmd .a c.idx 8 pick t = .ok ((tn, l), t1) → t1.blk.writesRound .a c.idx = false →
    let els := l.flatMap fun y => y.2.filterMap id
    (∀ v t2, e.scatter = false → asCmd .a c.idx 8 (do
        let _ ← pick
        inUnits tn.esz do
          let got ← readElems tn.esz els.eraseDups
          writeVirt false (c.reg 0) (l.flatMap fun y => gatherBlock tn.esz got y.2)) t = .ok (v, t2) →
      unitOf .a c t = .ok ((c, true), t2)) ∧
    (∀ t2, e.scatter = true → e.add = false → asCmd .a c.idx 8 (do
        let _ ← pick
        inUnits tn.esz do
          let bs ← packedBlocks c e tn l
          scatterElems (bs.flatMap fun y => blockWrites tn.esz y.1 y.2)) t = .ok ((), t2) →
      unitOf .a c t = .ok ((c, true), t2)) ∧
    (∀ k t2, e.scatter = true → e.add = true → asCmd .a c.idx 8 (do
        let _ ← pick
        inUnits tn.esz do
          let bs ← packedBlocks c e tn l
          sendSums (bs.foldl (fun l y => contribBlock l y.1 y.2) []) c) t = .ok (k, t2) →
      unitOf .a c t = .ok ((k, true), t2))) ∧
  (∀ c z e t tk g bs t1, c.op = .mcast z e → c.served = false → e.ac = false → t.taskAt t.blk.task = some tk →
    tk.mcastGroup e.group.val = some g → g.members.length ≤ 64 →
    asCmd .a c.idx 8 (readVirt false (c.reg 1) (e.n.val * 64 * e.sbc.toNat)) t = .ok (bs, t1) →
    unitOf .a c t = .ok (({ c with served := true, data := bs, targets := List.replicate g.members.length .todo }, false), t1)) ∧
  (∀ c e ring m t tk g i b t1 t2, c.ord.rel = false → e.ac = false → c.targets[m]? = some .todo →
    t.taskAt t.blk.task = some tk → tk.mcastGroup e.group.val = some g → g.members[m]? = some i →
    t.memberBlock t.blk.task i = some b →
    let r := b.rings[ring]
    let k := BitVec.ofNat 32 e.n.val
    r.slot.toNat = 64 * e.sbc.toNat → e.n.val ≤ r.cap.toNat → e.n.val ≤ r.free →
    t1 = t.modBlock b.uid (fun z => z.modRingAt (t.ownRound c b.uid) ring fun r => { r with claimed := r.claimed + k }) →
    asCmd .a c.idx 8 (writeSlots r r.claimed (64 * e.sbc.toNat) e.n.val c.data) t1 = .ok ((), t2) →
    (∃ b2, t2.memberBlock t2.blk.task i = some b2 ∧ b2.uid = b.uid) → t2.behindClaim b.uid ring r.claimed = false →
    asCmd .a c.idx 8 (mcDeliver c e ring m) t = .ok ({ c with targets := c.targets.set m .done },
      t2.modBlock b.uid fun z => z.modRingAt (t2.ownRound c b.uid) ring fun r => { r with tail := r.tail + k })) ∧
  (∀ c z t v t1, c.op = .scrub z → c.served = true → c.reg 1 ≤ c.prog → c.ord.rel = false →
    let k := fun n => (c.data.filter fun (x : Byte) => x == n).length
    let map := (List.range ((c.data.length + 7) / 8)).map fun i =>
      BitVec.ofNat 8 (((c.data.drop (8 * i)).take 8).zipIdx.map fun (x : Byte × Nat) => if x.1 = 0 then 0 else 2 ^ x.2).sum
    asCmd .a c.idx 8 (writeVirt false (c.reg 2) (leBytes 4 (k 1) ++ leBytes 4 (k 2) ++ map)) t = .ok (v, t1) →
    unitOf .a c t = .ok ((c, true), t1))

/-- R75 to R80, R208 to R211, R213 to R216: what one unit of an m command does, once the commands that it waits for are done. A step
of `mma` or `mmas` accumulates 64 by 64 elements from a slot of each ring, and after the last step the slots are popped unless they
are kept. `mnorm` grows or tightens every row, `mrd` publishes a slot of elements read out, `mwr` writes a tile from a slot and then
pops it, and `mexp.get` and `mexp.set` move the rows' exponents from and to a lent register. -/
def Sys2Proof.Claims.TileUnits : Prop :=
  (∀ c sp z e k t ab bb t1, mmaOf c.op = some (sp, z, e) → (t.blk.eng .m).before c.idx = [] → c.ovf = false →
    pairK e.fa.val e.fb.val = some k → (sp = true → e.fa ≠ 11 ∧ e.fa ≠ 12) → c.prog < c.count →
    let ra := Fin.ofNat 32 z.o1.val
    let rb := Fin.ofNat 32 z.o2.val
    let kb := if sp = true then 2 * k else k
    RingFits t ra (tileBytes e.fa.val k sp) c.count → RingFits t rb (tileBytes e.fb.val kb false) c.count →
    asCmd .m c.idx 8 (do
      let a ← readSlot ra c.prog (tileBytes e.fa.val k sp)
      return (a, ← readSlot rb c.prog (tileBytes e.fb.val kb false))) t = .ok ((ab, bb), t1) → t1.blk = t.blk →
    let old := t.blk.acc[e.acc]
    let as := aRows sp e.fa.val k (t.blk.latched c e.cta) ab
    let bs := (tileValues e.fb.val kb (t.blk.latched c e.ctb) bb).1
    as.length = 64 → bs.length = 64 →
    ∃ due t2, unitOf .m c t = .ok (({ c with prog := c.prog + 1, ovf := due }, false), t2) ∧ t2.mem = t1.mem ∧
      (t2.blk.acc[e.acc]).e = old.e ∧
      (∀ i j : Fin 64, (t2.blk.acc[e.acc]).el[i][j] = accumulated (old.e[i]).toInt (old.el[i][j])
        (((rowAt as i.val).zip (rowAt bs j.val)).filterMap fun x => x.1.map fun v => v.mul x.2)) ∧
      ∀ n : Fin 4, n ≠ e.acc → t2.blk.acc[n] = t.blk.acc[n]) ∧
  (∀ c sp z e k t, mmaOf c.op = some (sp, z, e) → (t.blk.eng .m).before c.idx = [] → c.ovf = false →
    pairK e.fa.val e.fb.val = some k → (sp = true → e.fa ≠ 11 ∧ e.fa ≠ 12) → 0 < c.count → c.prog = c.count →
    let ra := Fin.ofNat 32 z.o1.val
    let rb := Fin.ofNat 32 z.o2.val
    let n := BitVec.ofNat 32 c.count
    ∃ t1, unitOf .m c t = .ok ((c, true), t1) ∧ t1.mem = t.mem ∧ t1.blk.acc = t.blk.acc ∧
      (t1.blk.rings[ra]).head = (t.blk.rings[ra]).head + (if e.ka then 0 else n) + (if ra = rb ∧ e.kb = false then n else 0) ∧
      (ra ≠ rb → (t1.blk.rings[rb]).head = (t.blk.rings[rb]).head + if e.kb then 0 else n)) ∧
  (∀ c z t, (c.op = .mnormGrow z ∨ c.op = .mnormTight z) → (t.blk.eng .m).before c.idx = [] →
    ∃ t1, unitOf .m c t = .ok ((c, true), t1) ∧ t1.mem = t.mem ∧ ∀ i : Fin 64,
      let old := t.blk.acc[z.tile]
      let new := t1.blk.acc[z.tile]
      (c.op = .mnormGrow z → GrownRow z.k.val old.e[i] old.el[i] new.e[i] new.el[i]) ∧
      (c.op = .mnormTight z → TightRow z.k.val old.e[i] old.el[i] new.e[i] new.el[i])) ∧
  (∀ c z t g, c.op = .mrd z → (t.blk.eng .m).before c.idx = [] → (z.fmt.val = 3 ∨ z.fmt.val = 4 ∨ z.fmt.val = 5 ∨
      z.fmt.val = 6 ∨ z.fmt.val = 7) → codeFmt z.fmt.val = some g → RingFits t z.ring (4096 * (g.width / 8)) 0 →
    let old := t.blk.acc[z.tile]
    let r := t.blk.rings[z.ring]
    let x := readRows g c.pfx.ctl 64 ((old.e.toList.zip old.el.toList).map fun r => (r.1.toInt, r.2.toList))
      ⟨t.blk.rsto, t.blk.status⟩
    (c.pfx.ctl.rm ≠ .rsto → x.1 = (List.finRange 64).flatMap fun i => (List.finRange 64).map fun j =>
      (g.round c.pfx.ctl 0 ((old.el[i][j]).val (old.e[i]).toInt) ⟨t.blk.rsto, t.blk.status⟩).1) ∧
    ∀ v t1, 1 ≤ r.free → asCmd .m c.idx 8 (writeVirt false (r.slotAt r.claimed).toNat (packCodes g.width x.1))
        { t with blk := { t.blk with rsto := x.2.rsto, status := x.2.st } } = .ok (v, t1) →
      ∃ k t2, unitOf .m c t = .ok ((k, true), t2) ∧ t2.mem = t1.mem ∧ t2.blk.acc = t1.blk.acc ∧
        t2.blk.rings[z.ring] = { t1.blk.rings[z.ring] with
          claimed := (t1.blk.rings[z.ring]).claimed + 1, tail := (t1.blk.rings[z.ring]).tail + 1 }) ∧
  (∀ c z t g bs t1, c.op = .mwr z → (t.blk.eng .m).before c.idx = [] → c.ovf = false → c.prog = 0 →
    ((z.fmt.val = 3 ∧ g = Fmt.fp32) ∨ (z.fmt.val = 4 ∧ g = Fmt.bf16)) → RingFits t z.ring (4096 * (g.width / 8)) 0 →
    asCmd .m c.idx 8 (readSlot z.ring 0 (4096 * (g.width / 8))) t = .ok (bs, t1) → t1.blk = t.blk → bs.length = 4096 * (g.width / 8) →
    let old := t.blk.acc[z.tile]
    ∃ due t2, unitOf .m c t = .ok (({ c with prog := 1, ovf := due }, false), t2) ∧ t2.mem = t1.mem ∧
      (t2.blk.acc[z.tile]).e = old.e ∧ ∀ i j : Fin 64,
        let v := g.value c.pfx.ctl.ftz (leNat ((bs.drop ((64 * i.val + j.val) * (g.width / 8))).take (g.width / 8)))
        (t2.blk.acc[z.tile]).el[i][j] =
          if valClass v = 0 then
            { x := BitVec.ofInt 40 (max (-(2 ^ 39)) (min (2 ^ 39 - 1) (quantize (old.e[i]).toInt v))), t := 0 }
          else { old.el[i][j] with t := Fin.ofNat 4 (valClass v) }) ∧
  (∀ c z t, c.op = .mwr z → (t.blk.eng .m).before c.idx = [] → c.ovf = false → c.prog = 1 →
    ∃ t1, unitOf .m c t = .ok ((c, true), t1) ∧ t1.mem = t.mem ∧ t1.blk.acc = t.blk.acc ∧
      (t1.blk.rings[z.ring]).head = (t.blk.rings[z.ring]).head + 1) ∧
  (∀ c z t, (t.blk.eng .m).before c.idx = [] → t.blk.holders[z.bank] = .m →
    let r := Fin.ofNat 64 (8 * z.bank.val + z.r.val)
    (c.op = .mexpGet z → unitOf .m c t = .ok ((c, true), { t with blk := { t.blk with
      v := t.blk.v.set r ((t.blk.acc[z.tile]).e.map fun e => e.signExtend 32) } })) ∧
    (c.op = .mexpSet z → unitOf .m c t = .ok ((c, true), withTile t z.tile { t.blk.acc[z.tile] with
      e := (t.blk.v[r]).map fun w => w.setWidth 16 })))

/-- R149, R205, R219 to R222: what a d command does. Its start takes its stream positions and its resident vectors; each row that it
then takes from the stream is multiplied by every resident vector into one column of the tile (`dmv`; `dqk`, from zero and with the
columns behind the last at -∞), or weighs the tile's rows by one lane of each (`dpv`). `dnorm` grows or tightens every row, and `drd`
pushes a row read out. -/
def Sys2Proof.Claims.DecodeUnits : Prop :=
  (∀ c k x t, streamed c.op = some (k, x) → t.blk.holders[x.bank] = .d →
    let y := t.blk.streams[x.g]
    dFormat k y.format = true → dRowOk k x.rf y = true → (t.blk.dacc[x.dacc]).nb = x.nb1.val + 1 →
    (k = .pv → 64 < y.elems → x.dacc = 0 ∧ (t.blk.dacc[1]).nb = x.nb1.val + 1) → y.out = false →
    ∃ c1, startOf .d c t = .ok (c1, withStream t x.g { y with rrsv := y.rrsv + BitVec.ofNat 32 (x.nr1.val + 1) }) ∧
      c1.op = c.op ∧ c1.served = true ∧ c1.pos = y.rrsv ∧
      c1.held = (List.range 8).map fun i => t.blk.v[Fin.ofNat 64 (8 * x.bank.val + i)]) ∧
  (∀ c k x t entry t1 u isl, streamed c.op = some (k, x) → k ≠ .pv → c.served = true → c.leave = .granted u isl →
    (t.blk.eng .d).before c.idx = [] → c.ovf = false → c.prog ≤ x.nr1.val →
    let y := t.blk.streams[x.g]
    asCmd .d c.idx 8 (takeReserved x.g (c.pos + BitVec.ofNat 32 c.prog)) t = .ok (entry, t1) →
    t1.blk = { t.blk with streams := t1.blk.streams } →
    let row := (formatValues y.format false (t.blk.latched c y.ct) (entry.take y.vbytes) (entry.drop 256)).1
    let old := t.blk.dacc[x.dacc]
    let n := min (x.nb1.val + 1) c.held.length
    ∃ due last t2, unitOf .d c t = .ok (({ c with prog := c.prog + 1, ovf := due }, last), t2) ∧ t2.mem = t1.mem ∧
      t2.blk.streams = t1.blk.streams ∧ (t2.blk.dacc[x.dacc]).e = old.e ∧ (t2.blk.dacc[x.dacc]).nb = old.nb ∧
      ∀ (b : Fin 8) (j : Fin 64),
        (t2.blk.dacc[x.dacc]).el[b][j] =
          if b.val < n ∧ j.val = c.prog then
            accumulated (old.e[b]).toInt (if k = .qk then ⟨0, 0⟩ else old.el[b][j])
              ((row.zip (residentVals x.rf (c.held[b.val]?.getD vzero))).map fun z => z.1.mul z.2)
          else if k = .qk ∧ c.prog = 0 ∧ b.val < x.nb1.val + 1 ∧ x.nr1.val + 1 ≤ j.val then { old.el[b][j] with t := 2 }
          else old.el[b][j]) ∧
  (∀ c x t entry t1 u isl, c.op = .dpv x → c.served = true → c.leave = .granted u isl →
    (t.blk.eng .d).before c.idx = [] → c.ovf = false → c.prog ≤ x.nr1.val →
    let y := t.blk.streams[x.g]
    asCmd .d c.idx 8 (takeReserved x.g (c.pos + BitVec.ofNat 32 c.prog)) t = .ok (entry, t1) →
    t1.blk = { t.blk with streams := t1.blk.streams } →
    let row := (formatValues y.format false (t.blk.latched c y.ct) (entry.take y.vbytes) (entry.drop 256)).1
    let n := min (x.nb1.val + 1) c.held.length
    row.length = y.elems → y.elems ≤ 128 → (64 < y.elems → x.dacc = 0) →
    ∃ due last t2, unitOf .d c t = .ok (({ c with prog := c.prog + 1, ovf := due }, last), t2) ∧ t2.mem = t1.mem ∧
      t2.blk.streams = t1.blk.streams ∧ ∀ (m : Fin 2) (b : Fin 8) (j : Fin 64),
        let old := t.blk.dacc[m]
        let d := if m = x.dacc then j.val else 64 + j.val
        let p := Fmt.fp32.value false ((c.held[b.val]?.getD vzero)[c.prog]?.getD 0).toNat
        (t2.blk.dacc[m]).e = old.e ∧ (t2.blk.dacc[m]).el[b][j] =
          if b.val < n ∧ d < y.elems then accumulated (old.e[b]).toInt old.el[b][j] [p.mul (row[d]?.getD .nan)] else old.el[b][j]) ∧
  (∀ c z t, (c.op = .dnormGrow z ∨ c.op = .dnormTight z) → (t.blk.eng .d).before c.idx = [] →
    ∃ t1, unitOf .d c t = .ok ((c, true), t1) ∧ t1.mem = t.mem ∧ ∀ i : Fin 8,
      let old := t.blk.dacc[Fin.ofNat 2 z.tile.val]
      let new := t1.blk.dacc[Fin.ofNat 2 z.tile.val]
      (c.op = .dnormGrow z → GrownRow z.k.val old.e[i] old.el[i] new.e[i] new.el[i]) ∧
      (c.op = .dnormTight z → TightRow z.k.val old.e[i] old.el[i] new.e[i] new.el[i])) ∧
  (∀ c z t g, c.op = .drd z → (t.blk.eng .d).before c.idx = [] → (z.fmt.val = 3 ∨ z.fmt.val = 4 ∨ z.fmt.val = 5 ∨ z.fmt.val = 6 ∨
      z.fmt.val = 7) → codeFmt z.fmt.val = some g → c.pfx.ctl.rm ≠ .rsto →
    let old := t.blk.dacc[z.tile]
    let r := Fin.ofNat 8 c.prog
    c.prog < old.nb → (t.blk.vq[z.vq]).length + t.blk.inflightTo (.port (.vq z.vq)) < 4 →
    let codes := (old.el[r]).toList.map fun x => (g.round c.pfx.ctl 0 (x.val (old.e[r]).toInt) ⟨t.blk.rsto, 0⟩).1
    ∃ t1, unitOf .d c t = .ok (({ c with prog := c.prog + 1 }, decide (old.nb ≤ c.prog + 1)), t1) ∧ t1.mem = t.mem ∧
      t1.blk.dacc = t.blk.dacc ∧ t1.blk.vq = t.blk.vq.set z.vq (t.blk.vq[z.vq] ++ [ofElems g.width codes]))

/-- R227 to R229: what a grotto command does once it has its leave. `gld` pops its coordinates, computes a level for every lane and
pushes the features; a lane's features are its corners' entries, weighed and summed in corner order. `gsc` pops coordinates and
gradients and sends a level's adds, entry by entry in the order of their first contribution; that a level's adds are one unit is the
model's choice (log 26). -/
def Sys2Proof.Claims.GrottoUnits : Prop :=
  (∀ c x t g v r u isl, (c.op = .gld x ∨ c.op = .gsc x) → (t.blk.eng .g).before c.idx = [] → c.leave = .granted u isl →
    t.blk.gd[x.gd] = some g → x.lb.val + (x.ln1.val + 1) ≤ g.lev → c.held.length < g.dim → t.blk.vq[x.vqi] = v :: r →
    ∃ t1, unitOf .g c t = .ok (({ c with held := c.held ++ [v] }, false), t1) ∧ t1.mem = t.mem ∧
      t1.blk.vq = t.blk.vq.set x.vqi r) ∧
  (∀ c x t g v r u isl, c.op = .gld x → (t.blk.eng .g).before c.idx = [] → c.leave = .granted u isl →
    t.blk.gd[x.gd] = some g → x.lb.val + (x.ln1.val + 1) ≤ g.lev → g.dim ≤ c.held.length → c.held.drop g.dim = v :: r →
    (t.blk.vq[x.vqo]).length + t.blk.inflightTo (.port (.vq x.vqo)) < 4 →
    unitOf .g c t = .ok (({ c with held := c.held.take g.dim ++ r }, r.isEmpty && decide (x.ln1.val + 1 ≤ c.prog)),
      { t with blk := { t.blk with vq := t.blk.vq.set x.vqo (t.blk.vq[x.vqo] ++ [v]) } })) ∧
  (∀ c x t g u isl lanes t1, c.op = .gld x → (t.blk.eng .g).before c.idx = [] → c.leave = .granted u isl →
    t.blk.gd[x.gd] = some g → x.lb.val + (x.ln1.val + 1) ≤ g.lev → c.held.length = g.dim →
    asCmd .g c.idx 8 (gldLanes c g (x.lb.val + c.prog) 64 0 []) t = .ok (lanes, t1) →
    let vs := (List.range g.feats).map fun f => ofElems 32 (lanes.map fun o => o[f]?.getD 0)
    unitOf .g c t = .ok (({ c with held := c.held ++ vs, prog := c.prog + 1 }, false), t1)) ∧
  (∀ c g l k (got : Entries) t, t.blk.ofRound .g c.idx = false →
    (∀ y ∈ g.corners l (laneCoords g c.held k), ∃ bs, got.find? (fun z => z.1 == y.2) = some (y.2, bs)) →
    let feats := fun e => (unpackCodes (8 * g.size) (((got.find? fun z => z.1 == e).map fun z => z.2).getD [])).map fun n =>
      g.fmt.value false n
    ∃ t1, gldLane c g l k got t = .ok (((weighed ((g.corners l (laneCoords g c.held k)).map fun y => (y.1, feats y.2))
        (List.replicate g.feats (.fin false 0 0))).map Fmt.fp32.rne, got), t1) ∧ t1.mem = t.mem) ∧
  (∀ c x t g v r u isl, c.op = .gsc x → (t.blk.eng .g).before c.idx = [] → c.leave = .granted u isl →
    t.blk.gd[x.gd] = some g → x.lb.val + (x.ln1.val + 1) ≤ g.lev → g.dim ≤ c.held.length →
    c.held.length < g.dim + (x.ln1.val + 1) * g.feats → t.blk.vq[x.vqo] = v :: r →
    ∃ t1, unitOf .g c t = .ok (({ c with held := c.held ++ [v] }, false), t1) ∧ t1.mem = t.mem ∧
      t1.blk.vq = t.blk.vq.set x.vqo r) ∧
  (∀ c x t g u isl k t1, c.op = .gsc x → (t.blk.eng .g).before c.idx = [] → c.leave = .granted u isl →
    t.blk.gd[x.gd] = some g → x.lb.val + (x.ln1.val + 1) ≤ g.lev → c.held.length = g.dim + (x.ln1.val + 1) * g.feats →
    let all := levelContribs g c.held x.lb.val (x.lb.val + c.prog)
    asCmd .g c.idx 8 (addEntries g all (gradEntries all []) c) t = .ok (k, t1) →
    unitOf .g c t = .ok (({ k with prog := k.prog + 1 }, decide (x.ln1.val + 1 ≤ k.prog + 1)), t1)) ∧
  (∀ c g (l e : Nat) y t i m old p t1, g.feats = 1 → c.ord.rel = false →
    let a := g.grad + (l * g.entries + e) * 4
    t.entryOf g.grad = some (i, m) → t.entryOf a = some (i, m) → m.st ≠ 0 → m.kind = 0 → permits m.perm.toNat .write = true →
    permits m.perm.toNat .atomic = true →
    let s := Fmt.fp32.rne y
    y ≠ .nan → asCmd .g c.idx 4 (homeAdd a s) t = .ok ((old, p), t1) →
    asCmd .g c.idx 8 (addEntry g [⟨l, e, [y]⟩] c (l, e)) t =
      .ok ({ c with adds := some (vecOfBytes (leBytes 4 old), a, homeOf p) }, t1))

/-- R40, R75, R198, R212, R217, R218, R221, R226: `mclr` and `dclr` clear a tile that no command names: X and T zero and the
exponent in every row; `mstat` pushes its word and sets the trap enable; `gcfg` reads and latches a sound grotto descriptor at the
base of a grotto region, and traps 0x32 elsewhere; `blend` lends a bank that the v strand holds and `bret` returns one. -/
def Sys2Proof.Claims.EngineChanges : Prop :=
  (∀ s x v s1, (s.str .m).holds x.pred = true → s.blk.tileBusy .m x.tile.val = false → TakesE .m x.e s v s1 →
    exec (.mMclr x) s = .next ((ordered .m (ePorts x.e) [] (withTile s1 x.tile
      ⟨Vector.replicate 64 v, Vector.replicate 64 (Vector.replicate 64 ⟨0, 0⟩)⟩)).complete .m 1 .go)) ∧
  (∀ s x v s1, (s.str .d).holds x.pred = true → s.blk.tileBusy .d x.tile.val = false → TakesE .d x.e s v s1 →
    exec (.dDclr x) s = .next ((ordered .d (ePorts x.e) [] (withDTile s1 x.tile
      ⟨x.nb1.val + 1, Vector.replicate 8 v, Vector.replicate 8 (Vector.replicate 64 ⟨0, 0⟩)⟩)).complete .d 1 .go)) ∧
  (∀ s x t, (s.str .m).holds x.pred = true → s.blk.tileBusy .m x.tile.val = false →
    let en := if x.ctl = 1 then true else if x.ctl = 2 then false else s.blk.trapen
    Puts .m (.port (.q x.q)) { s with blk := { s.blk with trapen := en } } (mstatWord (s.blk.acc[x.tile]) en) t →
    exec (.mMstat x) s = .next ((ordered .m [] [.port (.q x.q)] t).complete .m 1 .go)) ∧
  (∀ s x a s1 i e bs s2, (s.str .g).holds x.pred = true → s.blk.tileBusy .g x.gd.val = false →
    Takes .g (.port (.q x.q)) s a s1 → a.toNat % 256 = 0 →
    byStrand .g 8 (readVirt false a.toNat 256) (acquired .g [.port (.q x.q)] s1) = .ok (bs, s2) →
    s2.entryOf a.toNat = some (i, e) →
    (e.kind = 3 → e.base = a → GDesc.ok ⟨a, e.limit, bs⟩ = true →
      exec (.gGcfg x) s = .next ((withGd s2 x.gd ⟨a, e.limit, bs⟩).complete .g 1 .go)) ∧
    ((e.kind ≠ 3 ∨ e.base ≠ a) → exec (.gGcfg x) s = .next (s.raise .g ⟨0x32, a, 0, 0, none⟩))) ∧
  (∀ s x h, (s.str .v).holds x.pred = true →
    ((x.who = .m ∧ s.blk.die.val < 4 ∧ h = .m) ∨ (x.who = .d ∧ 4 ≤ s.blk.die.val ∧ h = .d)) →
    s.blk.holders[x.bank] = .v → s.blk.bankPending x.bank = false →
    exec (.vBlend x) s = .next ((withHolder s x.bank h).complete .v 1 .go)) ∧
  (∀ s x, (s.str .m).holds x.pred = true → s.blk.holders[x.bank] = .m → s.blk.bankBusy .m x.bank = false →
    exec (.mBret x) s = .next ((withHolder s x.bank .v).complete .m 1 .go)) ∧
  (∀ s x, (s.str .d).holds x.pred = true → s.blk.holders[x.bank] = .d → s.blk.bankBusy .d x.bank = false →
    exec (.dBret x) s = .next ((withHolder s x.bank .v).complete .d 1 .go)) ∧
  (∀ s x, (s.str .v).holds x.pred = true → s.blk.holders[x.bank] ≠ .v →
    exec (.vBlend x) s = .next (s.raise .v ⟨0x0A, 0, 0, 0, none⟩))

namespace Sys2Proof.Claims

open Sys2Proof Sys2Proof.Machine

/-! ## Elements of the v strand -/

/-- Elements `es` in their order, each formed by `f` from the generators and sticky bits that the one before left; an
inactive element forms nothing. -/
def inOrder (act : Mask) (f : Nat → NumSt → Nat × NumSt) : List Nat → NumSt → List Nat × NumSt
  | [], n => ([], n)
  | e :: r, n =>
    let x := if act.getLsbD e then f e n else (0, n)
    let y := inOrder act f r x.2
    (x.1 :: y.1, y.2)

/-- A result at a width: the exact integer wrapped, or clamped where SAT asks it, and whether it was clamped (R61). -/
def clampW (w : Nat) (sat : Bool) (v : Int) : Nat × Bool :=
  if sat && 2 ^ (w - 1) ≤ v then (2 ^ (w - 1) - 1, true)
  else if sat && v < -2 ^ (w - 1) then (2 ^ (w - 1), true)
  else ((v % 2 ^ w).toNat, false)

/-- An integer element: an exact signed result, or bits (R180, R181). -/
abbrev IntE := VForm → Nat → Nat → Nat → Nat × Bool

def exactE (f : Int → Int → Int → Int) : IntE := fun m x y z =>
  clampW m.w m.ctl.sat (f (signedOf m.w x) (signedOf m.w y) (signedOf m.w z))

def bitsE (f : Nat → Nat → Nat → Nat) : IntE := fun m x y _ => (f m.w x y, false)

/-- A float element in lane `k`: a result rounded once, or an operand picked (R183). -/
abbrev FltE := VForm → Nat → Nat → Nat → Nat → NumSt → Nat × NumSt

def roundE (f : Rm → Val → Val → Val → Val) : FltE := fun m k x y z n =>
  m.fmt.deliver m.ctl k
    (f m.ctl.rm (m.fmt.value m.ctl.ftz x) (m.fmt.value m.ctl.ftz y) (m.fmt.value m.ctl.ftz z)) n

def pickE (f : Val → Val → Val) : FltE := fun m _ x y _ n =>
  m.fmt.round ⟨.rne, false, m.ctl.ftz⟩ 0 (f (m.fmt.value m.ctl.ftz x) (m.fmt.value m.ctl.ftz y)) n

/-- A·2^B, B a signed integer of the element width (R189). -/
def scaleE : FltE := fun m k x y _ n => m.fmt.deliver m.ctl k ((m.fmt.value m.ctl.ftz x).scale (signedOf m.w y)) n

/-- The kind of a `vcvt` type: a float format, or an integer width (R185). -/
def vcKind : VcTy → Fmt ⊕ Nat
  | .fp32 => .inl .fp32
  | .bf16 => .inl .bf16
  | .fp16 => .inl .fp16
  | .e4m3 => .inl .e4m3
  | .e5m2 => .inl .e5m2
  | .i32 => .inr 32
  | .i16 => .inr 16
  | .i8 => .inr 8

/-- One converted lane; between equal float types the code stays, but for a NaN, and for a subnormal, which flush-to-zero reads as a
zero of its sign (R72, R185; log 43). -/
def convE (src dst : VcTy) : FltE := fun m k x _ _ n =>
  let v := match vcKind src with
    | .inl f => f.value m.ctl.ftz (x % 2 ^ (1 + f.ew + f.fw))
    | .inr w => .ofInt (signedOf w x)
  match vcKind dst with
  | .inl f =>
    if src = dst then
      let code := x % 2 ^ (1 + f.ew + f.fw)
      let n := (n.draw m.ctl.rm k).2
      if f.value false code = .nan then (f.nan, n.flag stNANS)
      else if m.ctl.ftz && code / 2 ^ f.fw % 2 ^ f.ew == 0 then (code / 2 ^ (f.ew + f.fw) * 2 ^ (f.ew + f.fw), n)
      else (code, n)
    else f.deliver m.ctl k v n
  | .inr w =>
    let r := deliverInt w m.ctl k v n
    ((r.1 % 2 ^ 32).toNat, r.2)

/-- A relation of two elements. -/
def relElem (r : Rel) (w x y : Nat) : Bool :=
  match r with
  | .eq => x == y
  | .ne => x != y
  | .lt => signedOf w x < signedOf w y
  | .ge => signedOf w y ≤ signedOf w x
  | .gt => signedOf w y < signedOf w x
  | .le => signedOf w x ≤ signedOf w y
  | .ltu => x < y
  | .geu => y ≤ x

/-- Integer element instructions of A and B. -/
def vInt2 : Instr → Option ((State → VForm) × RArgs × IntE)
  | .vVadd x => some (formP0, x, exactE fun x y _ => x + y)
  | .vVaddP1 x => some (formP1, x, exactE fun x y _ => x + y)
  | .vVaddW x e => some (formW e, x, exactE fun x y _ => x + y)
  | .vVsub x => some (formP0, x, exactE fun x y _ => x - y)
  | .vVsubP1 x => some (formP1, x, exactE fun x y _ => x - y)
  | .vVsubW x e => some (formW e, x, exactE fun x y _ => x - y)
  | .vVmul x => some (formP0, x, exactE fun x y _ => x * y)
  | .vVmulP1 x => some (formP1, x, exactE fun x y _ => x * y)
  | .vVmulW x e => some (formW e, x, exactE fun x y _ => x * y)
  | .vVand x => some (formP0, x, bitsE fun _ x y => x &&& y)
  | .vVandW x e => some (formW e, x, bitsE fun _ x y => x &&& y)
  | .vVor x => some (formP0, x, bitsE fun _ x y => x ||| y)
  | .vVorW x e => some (formW e, x, bitsE fun _ x y => x ||| y)
  | .vVxor x => some (formP0, x, bitsE fun _ x y => x ^^^ y)
  | .vVxorW x e => some (formW e, x, bitsE fun _ x y => x ^^^ y)
  | .vVshl x => some (formP0, x, bitsE fun w x y => x * 2 ^ (y % w) % 2 ^ w)
  | .vVshlP1 x => some (formP1, x, bitsE fun w x y => x * 2 ^ (y % w) % 2 ^ w)
  | .vVshlW x e => some (formW e, x, bitsE fun w x y => x * 2 ^ (y % w) % 2 ^ w)
  | .vVshr x => some (formP0, x, bitsE fun w x y => x / 2 ^ (y % w))
  | .vVshrP1 x => some (formP1, x, bitsE fun w x y => x / 2 ^ (y % w))
  | .vVshrW x e => some (formW e, x, bitsE fun w x y => x / 2 ^ (y % w))
  | .vVsar x => some (formP0, x, bitsE fun w x y => ((signedOf w x / 2 ^ (y % w)) % 2 ^ w).toNat)
  | .vVsarP1 x => some (formP1, x, bitsE fun w x y => ((signedOf w x / 2 ^ (y % w)) % 2 ^ w).toNat)
  | .vVsarW x e => some (formW e, x, bitsE fun w x y => ((signedOf w x / 2 ^ (y % w)) % 2 ^ w).toNat)
  | .vVmin x => some (formP0, x, bitsE fun w x y => if signedOf w y < signedOf w x then y else x)
  | .vVminP1 x => some (formP1, x, bitsE fun w x y => if signedOf w y < signedOf w x then y else x)
  | .vVminW x e => some (formW e, x, bitsE fun w x y => if signedOf w y < signedOf w x then y else x)
  | .vVmax x => some (formP0, x, bitsE fun w x y => if signedOf w x < signedOf w y then y else x)
  | .vVmaxP1 x => some (formP1, x, bitsE fun w x y => if signedOf w x < signedOf w y then y else x)
  | .vVmaxW x e => some (formW e, x, bitsE fun w x y => if signedOf w x < signedOf w y then y else x)
  | _ => none

/-- Of A, B and D. -/
def vInt3 : Instr → Option ((State → VForm) × RArgs × IntE)
  | .vVmad x => some (formP0, x, exactE fun x y z => x * y + z)
  | .vVmadP1 x => some (formP1, x, exactE fun x y z => x * y + z)
  | .vVmadW x e => some (formW e, x, exactE fun x y z => x * y + z)
  | _ => none

/-- Of A. -/
def vInt1 : Instr → Option ((State → VForm) × UArgs × IntE)
  | .vVabs x => some (formP0, x, exactE fun x _ _ => if x < 0 then -x else x)
  | .vVabsP1 x => some (formP1, x, exactE fun x _ _ => if x < 0 then -x else x)
  | .vVabsW x e => some (formW e, x, exactE fun x _ _ => if x < 0 then -x else x)
  | _ => none

/-- Float element instructions of A and B. -/
def vFlt2 : Instr → Option ((State → VForm) × RArgs × FltE)
  | .vVfadd x => some (formP0, x, roundE fun r x y _ => x.add r y)
  | .vVfaddP1 x => some (formP1, x, roundE fun r x y _ => x.add r y)
  | .vVfaddW x e => some (formW e, x, roundE fun r x y _ => x.add r y)
  | .vVfsub x => some (formP0, x, roundE fun r x y _ => x.add r y.neg)
  | .vVfsubP1 x => some (formP1, x, roundE fun r x y _ => x.add r y.neg)
  | .vVfsubW x e => some (formW e, x, roundE fun r x y _ => x.add r y.neg)
  | .vVfmul x => some (formP0, x, roundE fun _ x y _ => x.mul y)
  | .vVfmulP1 x => some (formP1, x, roundE fun _ x y _ => x.mul y)
  | .vVfmulW x e => some (formW e, x, roundE fun _ x y _ => x.mul y)
  | .vVfmin x => some (formP0, x, pickE Val.pickMin)
  | .vVfminP1 x => some (formP1, x, pickE Val.pickMin)
  | .vVfminW x e => some (formW e, x, pickE Val.pickMin)
  | .vVfmax x => some (formP0, x, pickE Val.pickMax)
  | .vVfmaxP1 x => some (formP1, x, pickE Val.pickMax)
  | .vVfmaxW x e => some (formW e, x, pickE Val.pickMax)
  | .vVscale x => some (formP0, x, scaleE)
  | .vVscaleW x e => some (formW e, x, scaleE)
  | _ => none

/-- Of A, B and D. -/
def vFlt3 : Instr → Option ((State → VForm) × RArgs × FltE)
  | .vVfma x => some (formP0, x, roundE fun r x y z => (x.mul y).add r z)
  | .vVfmaP1 x => some (formP1, x, roundE fun r x y z => (x.mul y).add r z)
  | .vVfmaW x e => some (formW e, x, roundE fun r x y z => (x.mul y).add r z)
  | _ => none

/-- Of A. -/
def vFlt1 : Instr → Option ((State → VForm) × UArgs × FltE)
  | .vVrcp x => some (formP0, x, roundE fun _ x _ _ => x.rcp)
  | .vVrcpP1 x => some (formP1, x, roundE fun _ x _ _ => x.rcp)
  | .vVrcpW x e => some (formW e, x, roundE fun _ x _ _ => x.rcp)
  | .vVrsq x => some (formP0, x, roundE fun _ x _ _ => x.rsq)
  | .vVrsqP1 x => some (formP1, x, roundE fun _ x _ _ => x.rsq)
  | .vVrsqW x e => some (formW e, x, roundE fun _ x _ _ => x.rsq)
  | .vVexp2 x => some (formP0, x, roundE fun _ x _ _ => x.exp2)
  | .vVexp2P1 x => some (formP1, x, roundE fun _ x _ _ => x.exp2)
  | .vVexp2W x e => some (formW e, x, roundE fun _ x _ _ => x.exp2)
  | .vVlog2 x => some (formP0, x, roundE fun _ x _ _ => x.log2)
  | .vVlog2P1 x => some (formP1, x, roundE fun _ x _ _ => x.log2)
  | .vVlog2W x e => some (formW e, x, roundE fun _ x _ _ => x.log2)
  | .vVcvt x => some (formP0, { pred := x.pred, d := x.d, a := x.a }, convE x.src x.dst)
  | .vVcvtW x e => some (formW e, { pred := x.pred, d := x.d, a := x.a }, convE x.src x.dst)
  | _ => none

/-- Comparisons into a mask. -/
def vCompares : Instr → Option ((State → VForm) × CmpArgs × (VForm → Nat → Nat → Bool))
  | .vVcmp x => some (formP0, x, fun m y z => relElem x.rel m.w y z)
  | .vVcmpP1 x => some (formP1, x, fun m y z => relElem x.rel m.w y z)
  | .vVcmpW x e => some (formW e, x, fun m y z => relElem x.rel m.w y z)
  | .vVfcmp x => some (formP0, x, fun m y z => (m.fmt.value m.ctl.ftz y).rel x.rel (m.fmt.value m.ctl.ftz z))
  | .vVfcmpP1 x => some (formP1, x, fun m y z => (m.fmt.value m.ctl.ftz y).rel x.rel (m.fmt.value m.ctl.ftz z))
  | .vVfcmpW x e => some (formW e, x, fun m y z => (m.fmt.value m.ctl.ftz y).rel x.rel (m.fmt.value m.ctl.ftz z))
  | _ => none

/-- `vsel`, by form. -/
def vSels : Instr → Option ((State → VForm) × VselArgs)
  | .vVsel x => some (formP0, x)
  | .vVselP1 x => some (formP1, x)
  | .vVselW x e => some (formW e, x)
  | _ => none

/-- `vred`, by form. -/
def vReds : Instr → Option ((State → VForm) × VredArgs)
  | .vVred x => some (formP0, x)
  | .vVredP1 x => some (formP1, x)
  | .vVredW x e => some (formW e, x)
  | _ => none

/-- `vscan`, by form. -/
def vScans : Instr → Option ((State → VForm) × VscanArgs)
  | .vVscan x => some (formP0, x)
  | .vVscanP1 x => some (formP1, x)
  | .vVscanW x e => some (formW e, x)
  | _ => none

/-- `vperm`, by form. -/
def vPerms : Instr → Option ((State → VForm) × RArgs)
  | .vVperm x => some (formP0, x)
  | .vVpermP1 x => some (formP1, x)
  | .vVpermW x e => some (formW e, x)
  | _ => none

/-- `vbcast`, by form. -/
def vBcasts : Instr → Option ((State → VForm) × IdxArgs)
  | .vVbcast x => some (formP0, x)
  | .vVbcastP1 x => some (formP1, x)
  | .vVbcastW x e => some (formW e, x)
  | _ => none

/-- `viota`, by form. -/
def vIotas : Instr → Option ((State → VForm) × ViotaArgs)
  | .vViota x => some (formP0, x)
  | .vViotaP1 x => some (formP1, x)
  | .vViotaW x e => some (formW e, x)
  | _ => none

/-- `vext`, by form. -/
def vExts : Instr → Option ((State → VForm) × IdxArgs)
  | .vVext x => some (formP0, x)
  | .vVextP1 x => some (formP1, x)
  | .vVextW x e => some (formW e, x)
  | _ => none

/-- The votes. -/
def votes : Instr → Option (VoteArgs × (List Bool → Bool))
  | .vVany x => some (x, fun l => l.contains true)
  | .vVall x => some (x, fun l => !l.contains false)
  | _ => none

/-- The elements that instructions of a form go through. -/
def elemRange (m : VForm) : List Nat := List.range (2048 / m.w)

/-- Whether any of the active elements was clamped, and their values. -/
def intResults (m : VForm) (f : Nat → Nat × Bool) : Bool × List Nat :=
  ((elemRange m).any fun e => m.act.getLsbD e && (f e).2,
   (elemRange m).map fun e => if m.act.getLsbD e then (f e).1 else 0)

/-- The block in focus with mask `k` written for active elements: bits above the elements are cleared, and vm0 keeps
its ones (R177, R182). -/
def withMask (s : State) (m : VForm) (k : Fin 8) (f : Nat → Bool) : State :=
  let bits := (elemRange m).map fun e =>
    if (if m.act.getLsbD e then f e else (s.blk.vm[k]).getLsbD e) then 2 ^ e else 0
  if k = 0 then s else { s with blk := { s.blk with vm := s.blk.vm.set k (BitVec.ofNat 256 bits.sum) } }

/-- Writing a whole vector image. -/
def PutsImg (o : Opd) (s : State) (img : VReg) (t : State) : Prop :=
  match o with
  | .reg n => s.blk.holders[bankOf n] = .v ∧ s.blk.pending .v (.reg n) = false ∧
      t = { s with blk := { s.blk with v := s.blk.v.set n img } }
  | .port (.vq n) => FirstPush .v (.port (.vq n)) s ∧
      (s.blk.vq[n]).length + s.blk.inflightTo (.port (.vq n)) < 4 ∧ t = { s with blk := s.blk.pushVq n img }
  | .port (.g n) => appendStream .v n (vecBytes img) [] s = .ok ((), t)
  | .port (.q _) => False

/-- The integer operations of `vred` and `vscan` without SAT, on elements of `w` bits (R73, R190). -/
def redInt (w : Nat) : RedOp → Option (Nat × (Nat → Nat → Nat))
  | .add => some (0, fun x y => (x + y) % 2 ^ w)
  | .band => some (2 ^ w - 1, fun x y => x &&& y)
  | .bor => some (0, fun x y => x ||| y)
  | .bxor => some (0, fun x y => x ^^^ y)
  | .min => some (2 ^ (w - 1) - 1, fun x y => if signedOf w y < signedOf w x then y else x)
  | .max => some (2 ^ (w - 1), fun x y => if signedOf w x < signedOf w y then y else x)
  | .minu => some (2 ^ w - 1, fun x y => min x y)
  | .maxu => some (0, fun x y => max x y)
  | _ => none

/-- What a scalar queue gets of a reduction: add, min and max sign-extended, the rest zero-extended (R190). -/
def redQueue (w : Nat) (op : RedOp) (r : Nat) : Dword :=
  if op = .add ∨ op = .min ∨ op = .max then BitVec.ofInt 64 (signedOf w r) else BitVec.ofNat 64 r

/-! ## Packing and memory of the v strand -/

/-- `vpack`: form, operands, the format of a register or queue destination, and the part it fills (R186). -/
def vPacks : Instr → Option ((State → VForm) × RArgs × Nat × Nat)
  | .vVpack x => some (formP0, x, 4, 0)
  | .vVpackW x e f => some (formW e, x, if f.dfv then f.df.val else 4, f.hq.val)
  | _ => none

/-- `vunpk`: form, operands, the format of a register or queue source, and whether integer formats are barred
(R188). -/
def vUnpacks : Instr → Option ((State → VForm) × VunpkArgs × Nat × Bool)
  | .vVunpk x => some (formP0, x, 4, false)
  | .vVunpkP1 x => some (formP1, x, 6, false)
  | .vVunpkW x e f => some (formW e, x, if f.sfv then f.sf.val else if e.ty = .t32 then 4 else 6, e.ty == .tH)
  | _ => none

/-- v loads and stores: whether it stores, form, predicate, value operand, base, index and offset (R194, R195). -/
def vMems : Instr → Option (Bool × (State → VForm) × Pred × Opd × Opd × Option Opd × Int)
  | .vVld x => some (false, formP0, x.pred, x.d, x.a, none, 0)
  | .vVldP1 x => some (false, formP1, x.pred, x.d, x.a, none, 0)
  | .vVldW x e off => some (false, formW e, x.pred, x.d, x.a, none, off.toInt)
  | .vVldx x => some (false, formP0, x.pred, x.d, x.a, some x.b, 0)
  | .vVldxP1 x => some (false, formP1, x.pred, x.d, x.a, some x.b, 0)
  | .vVldxW x e off => some (false, formW e, x.pred, x.d, x.a, some x.b, off.toInt)
  | .vVst x => some (true, formP0, x.pred, x.d, x.a, none, 0)
  | .vVstP1 x => some (true, formP1, x.pred, x.d, x.a, none, 0)
  | .vVstW x e off => some (true, formW e, x.pred, x.d, x.a, none, off.toInt)
  | .vVstx x => some (true, formP0, x.pred, x.d, x.a, some x.b, 0)
  | .vVstxP1 x => some (true, formP1, x.pred, x.d, x.a, some x.b, 0)
  | .vVstxW x e off => some (true, formW e, x.pred, x.d, x.a, some x.b, off.toInt)
  | _ => none

/-- `vamo`: form, operands, operation and offset (R196). -/
def vAmos : Instr → Option ((State → VForm) × RArgs × AmoOp × Int)
  | .vVamo x => some (formP0, x, .fadd, 0)
  | .vVamoP1 x => some (formP1, x, .fadd, 0)
  | .vVamoW x e op off => some (formW e, x, op, off.toInt)
  | _ => none

/-- The base address of a v memory instruction: lanes 0 and 1 of a vector, or a whole queue entry (R194). -/
def TakesBase (o : Opd) (s : State) (a : Nat) (t : State) : Prop :=
  match o with
  | .port (.q n) => ∃ v, Takes .v (.port (.q n)) s v t ∧ a = v.toNat
  | .port (.g _) => False
  | o => ∃ v, TakesV 32 o s v t ∧ a = (v[0]).toNat + (v[1]).toNat * 2 ^ 32

/-- The element addresses from a base: one after another, aligned to an element, or at signed indices that a vector
holds (R194, R195). -/
def Addresses (m : VForm) (ea : Nat) (b : Option Opd) (s : State) (l : List Nat) (t : State) : Prop :=
  match b with
  | none => ea % (m.w / 8) = 0 ∧ t = s ∧ l = (elemRange m).map fun e => (ea + e * (m.w / 8)) % 2 ^ 64
  | some q => ∃ v, TakesV m.w q s v t ∧
      l = (elemRange m).map fun e => (((ea : Int) + signedOf m.w (elem m.w v e) * (m.w / 8 : Nat)) % 2 ^ 64).toNat

/-- The acquire or release of an access of the v strand to `n` bytes at each of several places, as one (R55, R58). -/
def orderedAll (o : Ord) (ps : List Nat) (n : Nat) (s : State) : State :=
  if (o.acq || o.rel) && !ps.isEmpty then
    if ps.all fun p => s.inScope o.scope p then
      let l := ps.map fun p => locOf p n
      let s := if o.acq then l.foldl (fun s x => s.acquire .v x o.scope) s else s
      if o.rel then s.releaseOf s.blk (.strand s.blk.uid .v) l o.scope else s
    else { s with blk := s.blk.setSt stSCX }
  else s

/-- The traps of the accesses of a list that fail, made one after another. -/
def trapsOf {α β : Type} (f : α → M β) : List α → State → List TrapInfo
  | [], _ => []
  | x :: r, s =>
    match attempt (f x) s with
    | .ok (.ok _, t) => trapsOf f r t
    | .ok (.error k, t) => k :: trapsOf f r t
    | .error _ => []

/-- Some elements failed, with the traps `f`: the trap of the v strand is one of them at the lowest failing address (R194, R263). -/
def TrapsLowest (i : Instr) (s : State) (f : List TrapInfo) : Prop :=
  f ≠ [] → ∃ x ∈ f, (∀ y ∈ f, x.faddr.toNat ≤ y.faddr.toNat) ∧ exec i s = .next (s.raise .v x)

/-- Every byte outside `n` bytes at each of some places is the same in two states. -/
def MemSameAt (s t : State) (ps : List Nat) (n : Nat) : Prop :=
  ∀ a, (∀ p ∈ ps, a < p ∨ p + n ≤ a) → Mem.read t.mem a = Mem.read s.mem a

/-- A vector result goes into flight (R104), with the number of its read: inactive elements keep a register's old values, and are
zero in a queue. -/
def FliesV (m : VForm) (d : Opd) (late : Option Nat) (s : State) (new : List Nat) (t : State) : Prop :=
  let img := fun old : Nat → Nat => ofElems m.w ((elemRange m).map fun e =>
    if m.act.getLsbD e then new[e]?.getD 0 else old e)
  match d with
  | .reg n => s.blk.pending .v d = false ∧
      t = { s with blk := { s.blk with inflight := s.blk.inflight ++ [⟨.v, d, 0, img (elem m.w s.blk.v[n]), late⟩] } }
  | .port (.vq n) => FirstPush .v d s ∧ (s.blk.vq[n]).length + s.blk.inflightTo d < 4 ∧
      t = { s with blk := { s.blk with inflight := s.blk.inflight ++ [⟨.v, d, 0, img fun _ => 0, late⟩] } }
  | .port _ => False

/-- The destination of a `vamo` may take its response: no result in flight for it, and a stream that is an out stream. -/
def AmoReady (d : Opd) (s t : State) : Prop :=
  match d with
  | .port (.g g) => checkAppend .v g s = .ok ((), t)
  | d => s.blk.pending .v d = false ∧ t = s

/-- The real number that a finite value stands for. -/
noncomputable def realOf : Val → ℝ
  | .fin neg m e => (if neg then -1 else 1) * (m : ℝ) * (2 : ℝ) ^ e
  | _ => 0

/-- A value that is a positive real number's truncation to no fewer than 128 bits, with sign `s` and a last bit that says whether
anything was cut off: rounding it to any format of R62 rounds that number once. -/
def Truncates (v : Val) (s : Bool) (r : ℝ) : Prop :=
  ∃ (q : Nat) (k : Int) (d : Bool), v = .fin s (2 * q + if d then 1 else 0) (k - 1) ∧ 2 ^ 127 ≤ q ∧
    (q : ℝ) * (2 : ℝ) ^ k ≤ r ∧ r < ((q : ℝ) + 1) * (2 : ℝ) ^ k ∧ (d = false ↔ r = (q : ℝ) * (2 : ℝ) ^ k)

/-- The wait of a `vamo` for its response: the elements it replaces, above 32 bytes zero, in an image that keeps the
register's inactive elements (R196). -/
def vamoWait (m : VForm) (d : Opd) (s : State) (old : List Nat) (p ea : Nat) : Flow :=
  let base := fun e => match d with
    | .reg n => elem m.w s.blk.v[n] e
    | .port _ => 0
  let img := ofElems m.w ((elemRange m).map fun e =>
    if 256 / m.w ≤ e then 0 else if m.act.getLsbD e then old[e]?.getD 0 else base e)
  .wait (.atomic { dst := d, old := img, home := homeOf p, addr := ea })

end Sys2Proof.Claims

open Sys2Proof Sys2Proof.Machine Sys2Proof.Claims

/-- R176 to R181: the integer element instructions in all their forms: every active element is formed exactly from its
elements of A, B and, for `vmad`, D, and wraps, or is clamped under SAT, which sets STATUS.SAT; inactive elements keep
their values, or are zero in a port. -/
def Obligations.VIntegers : Prop :=
  (∀ i s form x f a b s1 s2 s3, vInt2 i = some (form, x, f) → (s.str .v).holds x.pred = true →
    BanksOk [x.a, x.b, x.d] s → TakesV (form s).w x.a s a s1 → TakesV (form s).w x.b s1 b s2 →
    let m := form s
    let r := intResults m fun e => f m (elem m.w a e) (elem m.w b e) 0
    PutsV m.w m.act x.d (satIf r.1 s2) r.2 s3 →
    exec i s = .next ((ordered .v [x.a, x.b] [x.d] s3).complete .v m.words .go)) ∧
  (∀ i s form x f a b d s1 s2 s3 s4, vInt3 i = some (form, x, f) → (s.str .v).holds x.pred = true →
    BanksOk [x.a, x.b, x.d] s → TakesV (form s).w x.a s a s1 → TakesV (form s).w x.b s1 b s2 →
    TakesV (form s).w x.d s2 d s3 →
    let m := form s
    let r := intResults m fun e => f m (elem m.w a e) (elem m.w b e) (elem m.w d e)
    PutsV m.w m.act x.d (satIf r.1 s3) r.2 s4 →
    exec i s = .next ((ordered .v [x.a, x.b] [x.d] s4).complete .v m.words .go)) ∧
  (∀ i s form x f a s1 s2, vInt1 i = some (form, x, f) → (s.str .v).holds x.pred = true →
    BanksOk [x.a, x.d] s → TakesV (form s).w x.a s a s1 →
    let m := form s
    let r := intResults m fun e => f m (elem m.w a e) 0 0
    PutsV m.w m.act x.d (satIf r.1 s1) r.2 s2 →
    exec i s = .next ((ordered .v [x.a] [x.d] s2).complete .v m.words .go))

/-- R183, R184: the special functions. 1/A and 1/√A are the exact value's truncation with a sticky bit, so that R69 rounds the exact
value once; 2^A and log2 A lie within 2^-300 of it, relatively and absolutely, which rounds the same but at arguments that
log 16 names; every special input has the table's result. -/
def Sys2Proof.Claims.VSpecials : Prop :=
  (∀ s (m : Nat) (e : Int), m ≠ 0 → Truncates (Val.fin s m e).rcp s (1 / ((m : ℝ) * (2 : ℝ) ^ e))) ∧
  (∀ (m : Nat) (e : Int), m ≠ 0 → Truncates (Val.fin false m e).rsq false (1 / Real.sqrt ((m : ℝ) * (2 : ℝ) ^ e))) ∧
  (∀ s (m : Nat) (e : Int), m ≠ 0 → -160 ≤ e → (m : ℝ) * (2 : ℝ) ^ e < 2048 →
    let x := realOf (.fin s m e)
    (∃ n k, (Val.fin s m e).exp2 = .fin false n k) ∧
      |realOf (Val.fin s m e).exp2 - (2 : ℝ) ^ x| ≤ (2 : ℝ) ^ (-300 : Int) * (2 : ℝ) ^ x) ∧
  (∀ s (m : Nat) (e : Int), 2048 ≤ (m : ℝ) * (2 : ℝ) ^ e → (Val.fin s m e).exp2 = .fin false 1 (if s then -4096 else 4096)) ∧
  (∀ (m : Nat) (e : Int), m ≠ 0 → m < 2 ^ 64 →
    (∃ s n k, (Val.fin false m e).log2 = .fin s n k) ∧
      |realOf (Val.fin false m e).log2 - Real.logb 2 ((m : ℝ) * (2 : ℝ) ^ e)| ≤ (2 : ℝ) ^ (-300 : Int)) ∧
  (Val.nan.rcp = .nan ∧ Val.nan.rsq = .nan ∧ Val.nan.exp2 = .nan ∧ Val.nan.log2 = .nan) ∧
  (∀ s e, (Val.fin s 0 e).rcp = .inf s ∧ (Val.fin s 0 e).rsq = .inf s ∧ (Val.fin s 0 e).exp2 = .fin false 1 0 ∧
    (Val.fin s 0 e).log2 = .inf true) ∧
  (∀ s, (Val.inf s).rcp = .fin s 0 0 ∧ (Val.inf s).rsq = (if s then .nan else .fin false 0 0) ∧
    (Val.inf s).exp2 = (if s then .fin false 0 0 else .inf false) ∧ (Val.inf s).log2 = if s then .nan else .inf false) ∧
  (∀ (m : Nat) (e : Int), m ≠ 0 → (Val.fin true m e).rsq = .nan ∧ (Val.fin true m e).log2 = .nan) ∧
  (∀ s (n j : Nat), n < 2048 → (Val.fin s (n * 2 ^ j) (-(j : Int))).exp2 = .fin false 1 (if s then -(n : Int) else n)) ∧
  (∀ s (m k : Nat), m * 2 ^ k < 2048 → (Val.fin s m k).exp2 = .fin false 1 (if s then -(m * 2 ^ k : Int) else m * 2 ^ k)) ∧
  (∀ (k : Nat) (e : Int), (Val.fin false (2 ^ k) e).log2 = Val.ofInt (k + e))

/-- R69, R71, R72, R176 to R179, R183 to R185, R189: the float element instructions, `vscale` and `vcvt` in all their forms:
active elements in ascending order are formed exactly and rounded once, each with the generator of its lane; `vfmin` and
`vfmax` pick an operand. What the special functions form is `VSpecials`; that a `vcvt` between equal float types keeps an
infinity under `.sat` is the model's reading (log 43). -/
def Sys2Proof.Claims.VFloatElems : Prop :=
  (∀ i s form x f a b s1 s2 s3, vFlt2 i = some (form, x, f) → (s.str .v).holds x.pred = true →
    BanksOk [x.a, x.b, x.d] s → TakesV (form s).w x.a s a s1 → TakesV (form s).w x.b s1 b s2 →
    let m := form s
    let r := inOrder m.act (fun e => f m (e * m.w / 32) (elem m.w a e) (elem m.w b e) 0) (elemRange m) (numOf s2)
    PutsV m.w m.act x.d (withNum s2 r.2) r.1 s3 →
    exec i s = .next ((ordered .v [x.a, x.b] [x.d] s3).complete .v m.words .go)) ∧
  (∀ i s form x f a b d s1 s2 s3 s4, vFlt3 i = some (form, x, f) → (s.str .v).holds x.pred = true →
    BanksOk [x.a, x.b, x.d] s → TakesV (form s).w x.a s a s1 → TakesV (form s).w x.b s1 b s2 →
    TakesV (form s).w x.d s2 d s3 →
    let m := form s
    let r := inOrder m.act (fun e => f m (e * m.w / 32) (elem m.w a e) (elem m.w b e) (elem m.w d e)) (elemRange m)
      (numOf s3)
    PutsV m.w m.act x.d (withNum s3 r.2) r.1 s4 →
    exec i s = .next ((ordered .v [x.a, x.b] [x.d] s4).complete .v m.words .go)) ∧
  (∀ i s form x f a s1 s2, vFlt1 i = some (form, x, f) → (s.str .v).holds x.pred = true →
    BanksOk [x.a, x.d] s → TakesV (form s).w x.a s a s1 →
    let m := form s
    let r := inOrder m.act (fun e => f m (e * m.w / 32) (elem m.w a e) 0 0) (elemRange m) (numOf s1)
    PutsV m.w m.act x.d (withNum s1 r.2) r.1 s2 →
    exec i s = .next ((ordered .v [x.a] [x.d] s2).complete .v m.words .go))

/-- R177, R182, R193: comparisons write the mask bits of active elements and clear those above the elements; `vsel` takes
A where its mask is set and keeps D elsewhere; `vany` and `vall` write a guard slot or a predicate from a mask's low
bits. -/
def Obligations.VMasks : Prop :=
  (∀ i s form x f a b s1 s2, vCompares i = some (form, x, f) → (s.str .v).holds x.pred = true →
    BanksOk [x.a, x.b] s → TakesV (form s).w x.a s a s1 → TakesV (form s).w x.b s1 b s2 →
    let m := form s
    exec i s = .next ((ordered .v [x.a, x.b] []
      (withMask s2 m x.pd fun e => f m (elem m.w a e) (elem m.w b e))).complete .v m.words .go)) ∧
  (∀ i s form x a d s1 s2 s3, vSels i = some (form, x) → (s.str .v).holds x.pred = true →
    BanksOk [x.a, x.d] s → TakesV (form s).w x.a s a s1 → TakesV (form s).w x.d s1 d s2 →
    let m := form s
    PutsV m.w m.act x.d s2 ((elemRange m).map fun e =>
      if (s2.blk.mask x.vm).getLsbD e then elem m.w a e else elem m.w d e) s3 →
    exec i s = .next ((ordered .v [x.a] [] s3).complete .v m.words .go)) ∧
  (∀ i s x f g, votes i = some (x, f) → (s.str .v).holds x.pred = true → x.d = .gs g →
    exec i s = .next ((withGuard s g (f ((List.range (64 * 2 ^ x.width.val)).map fun e =>
      (s.blk.mask x.vm).getLsbD e))).complete .v 1 .go)) ∧
  (∀ i s x f p, votes i = some (x, f) → (s.str .v).holds x.pred = true → x.d = .p p →
    exec i s = .next ((s.modStr .v fun st => if p = 0 then st else
      { st with preds := st.preds.set p (f ((List.range (64 * 2 ^ x.width.val)).map fun e =>
        (s.blk.mask x.vm).getLsbD e)) }).complete .v 1 .go))

/-- R190, R191: `vred` reduces the active elements, the identity in the place of the others, by a tree of neighbours, into
element 0 or a scalar queue; `vscan` gives its running results. For integer operations that do not saturate the tree's
result is that of combining from left to right. -/
def Obligations.VReductions : Prop :=
  (∀ i s form x a s1 n t, vReds i = some (form, x) → (s.str .v).holds x.pred = true → BanksOk [x.a, x.d] s →
    TakesV (form s).w x.a s a s1 → x.d = .port (.q n) →
    let m := form s
    let r := treeReduce m x.op (treeDepth m.w) (identElems m x.op (elems m.w a)) (numOf s1)
    Puts .v (.port (.q n)) (withNum s1 r.2) (redQueue m.w x.op r.1) t →
    exec i s = .next ((ordered .v [x.a] [x.d] t).complete .v m.words .go)) ∧
  (∀ i s form x a s1 t, vReds i = some (form, x) → (s.str .v).holds x.pred = true → BanksOk [x.a, x.d] s →
    TakesV (form s).w x.a s a s1 → (∀ n, x.d ≠ .port (.q n)) →
    let m := form s
    let r := treeReduce m x.op (treeDepth m.w) (identElems m x.op (elems m.w a)) (numOf s1)
    PutsImg x.d (withNum s1 r.2) (ofElems m.w [r.1]) t →
    exec i s = .next ((ordered .v [x.a] [x.d] t).complete .v m.words .go)) ∧
  (∀ i s form x a s1 t, vScans i = some (form, x) → (s.str .v).holds x.pred = true → BanksOk [x.a, x.d] s →
    TakesV (form s).w x.a s a s1 →
    let m := form s
    let r := scanFrom m x.op x.excl 0 (redIdent m x.op) (identElems m x.op (elems m.w a)) (numOf s1)
    PutsV m.w m.act x.d (withNum s1 r.2) r.1 t →
    exec i s = .next ((ordered .v [x.a] [x.d] t).complete .v m.words .go)) ∧
  (∀ (m : VForm) (op : RedOp) (a : VReg) (n : NumSt) (z : Nat) (f : Nat → Nat → Nat),
    (m.w = 32 ∨ m.w = 16 ∨ m.w = 8) → m.ctl.sat = false → redInt m.w op = some (z, f) →
    let l := (elemRange m).map fun e => if m.act.getLsbD e then elem m.w a e else z
    treeReduce m op (treeDepth m.w) (identElems m op (elems m.w a)) n = (l.foldl f z, n) ∧
    scanFrom m op false 0 (redIdent m op) (identElems m op (elems m.w a)) n =
      ((elemRange m).map fun e => (l.take (e + 1)).foldl f z, n) ∧
    scanFrom m op true 0 (redIdent m op) (identElems m op (elems m.w a)) n =
      ((elemRange m).map fun e => (l.take e).foldl f z, n))

/-- R192: `vperm` takes A's elements at B's indices modulo their number, `vbcast` one element of A for all, `viota` counts
the set bits of a mask below each element, and `vext` pushes one element zero-extended, zero for an inactive one. -/
def Obligations.VPermutations : Prop :=
  (∀ i s form x a b s1 s2 t, vPerms i = some (form, x) → (s.str .v).holds x.pred = true →
    BanksOk [x.a, x.b, x.d] s → TakesV (form s).w x.a s a s1 → TakesV (form s).w x.b s1 b s2 →
    let m := form s
    PutsV m.w m.act x.d s2 ((elemRange m).map fun e => elem m.w a (elem m.w b e % (2048 / m.w))) t →
    exec i s = .next ((ordered .v [x.a, x.b] [x.d] t).complete .v m.words .go)) ∧
  (∀ i s form x a s1 t, vBcasts i = some (form, x) → (s.str .v).holds x.pred = true →
    BanksOk [x.a, x.d] s → TakesV (form s).w x.a s a s1 →
    let m := form s
    PutsV m.w m.act x.d s1 ((elemRange m).map fun _ => elem m.w a x.idx.val) t →
    exec i s = .next ((ordered .v [x.a] [x.d] t).complete .v m.words .go)) ∧
  (∀ i s form x t, vIotas i = some (form, x) → (s.str .v).holds x.pred = true → BanksOk [x.d] s →
    let m := form s
    PutsV m.w m.act x.d s ((elemRange m).map fun e =>
      ((List.range e).countP fun j => (s.blk.mask x.vm).getLsbD j)) t →
    exec i s = .next ((ordered .v [] [x.d] t).complete .v m.words .go)) ∧
  (∀ i s form x a s1 n t, vExts i = some (form, x) → (s.str .v).holds x.pred = true →
    BanksOk [x.a] s → TakesV (form s).w x.a s a s1 → x.d = .port (.q n) →
    let m := form s
    Puts .v x.d s1 (BitVec.ofNat 64 (if m.act.getLsbD x.idx.val then elem m.w a x.idx.val else 0)) t →
    exec i s = .next ((ordered .v [x.a] [x.d] t).complete .v m.words .go))

/-- R186 to R188: `vpack` delivers the 128 lanes of A and B in a format, into one part of a register or queue entry, or
appended to a stream of that format whose V is the bytes produced; `vunpk` delivers one chunk of its source's values. -/
def Obligations.VPacking : Prop :=
  (∀ i s form x f hq a b s1 s2 old s3 t, vPacks i = some (form, x, f, hq) → (s.str .v).holds x.pred = true →
    BanksOk [x.a, x.b, x.d] s → TakesV 32 x.a s a s1 → TakesV 32 x.b s1 b s2 →
    ((∃ n, x.d = .reg n ∧ TakesV 32 x.d s2 old s3) ∨
      (∃ n, x.d = .port (.vq n)) ∧ old = Vector.replicate 64 0 ∧ s3 = s2) →
    let m := form s
    let w := fmtBits f
    let r := packFmt f m (elems 32 a ++ elems 32 b) (numOf s3)
    PutsImg x.d (withNum s3 r.2) (ofElems w ((List.range (2048 / w)).map fun e =>
      if 128 * hq ≤ e ∧ e < 128 * hq + 128 ∧ m.act.getLsbD ((e - 128 * hq) % 64) then r.1.1[e - 128 * hq]?.getD 0
      else elem w old e)) t →
    exec i s = .next ((ordered .v [x.a, x.b] [x.d] t).complete .v m.words .go)) ∧
  (∀ i s form x f hq a b s1 s2 g t, vPacks i = some (form, x, f, hq) → (s.str .v).holds x.pred = true →
    BanksOk [x.a, x.b] s → x.d = .port (.g g) → TakesV 32 x.a s a s1 → TakesV 32 x.b s1 b s2 →
    let m := form s
    let y := s2.blk.streams[g]
    y.format ≠ 2 → y.format ≠ 3 → y.format < 11 → y.vbytes = 16 * fmtBits y.format →
    let r := packFmt y.format m (elems 32 a ++ elems 32 b) (numOf s2)
    appendStream .v g (packCodes (fmtBits y.format) r.1.1) r.1.2 (withNum s2 r.2) = .ok ((), t) →
    exec i s = .next ((ordered .v [x.a, x.b] [x.d] t).complete .v m.words .go)) ∧
  (∀ (m : VForm) (f : Nat) (g : Fmt) (l : List Nat) (n : NumSt), f < 9 → codeFmt f = some g → l.length = 128 →
    packFmt f m l n =
      let r := inOrder (BitVec.ofNat 256 ((m.act.toNat % 2 ^ 64) * (2 ^ 64 + 1)))
        (fun e => g.deliver m.ctl (e % 64) (Fmt.fp32.value m.ctl.ftz (l[e]?.getD 0))) (List.range 128) n
      ((r.1, []), r.2)) ∧
  (∀ i s form x f half f' n bs tbl s1 t, vUnpacks i = some (form, x, f, half) → (s.str .v).holds x.pred = true →
    BanksOk [x.a, x.d] s →
    ((∃ v, (∀ g, x.a ≠ .port (.g g)) ∧ TakesV 32 x.a s v s1 ∧ f' = f ∧ n = 256 ∧ bs = vecBytes v ∧
        tbl = Vector.replicate 16 0) ∨
      (∃ g, x.a = .port (.g g) ∧ readStream .v g x.keep s = .ok (bs, s1) ∧ f' = (s.blk.streams[g]).format ∧
        n = (s.blk.streams[g]).vbytes ∧ tbl = (s.blk.cts[(s.blk.streams[g]).ct]).live)) →
    (half && codeInt f') = false →
    let m := form s
    let k := 2048 / m.w
    let c := x.chunk.val
    let w := fmtBits f'
    w * (k * c + k) ≤ 8 * n → n ≤ bs.length →
    let sb := scaleBytes f'
    let v := formatValues f' (m.ctl.ftz && !codeInt f') tbl ((bs.drop (k * c * w / 8)).take (k * w / 8))
      ((bs.drop (256 + k / 32 * sb * c)).take (k / 32 * sb))
    let s2 := if v.2 then { s1 with blk := s1.blk.setSt stFMT } else s1
    let r := inOrder m.act (fun e => unpkOne (codeInt f') m (e * m.w / 32) (v.1[e]?.getD .nan)) (elemRange m) (numOf s2)
    PutsV m.w m.act x.d (withNum s2 r.2) r.1 t →
    exec i s = .next ((ordered .v [x.a] [x.d] t).complete .v m.words .go))

/-- R57, R136, R194, R195, R263: v loads and stores in all their forms take their base and form their element addresses; a load reads
its active elements in ascending order, a repeated one once, and a store writes them in that order; where some of the accesses fail,
the trap is that of the lowest address, and nothing is delivered or written. A store changes no byte but those of its active elements,
where no pool and no foreign key stands in the way. Their `.acq` and `.rel` order the queues that they pop and push, and a load's
`.acq` and a store's `.rel` its places. That a load reads at issue and delivers at once from the block's own slice or into a stream,
and else goes into flight with a read that may still take effect, is the model's reading of R104 and R53 (logs 7, 50). -/
def Sys2Proof.Claims.VLoadsStores : Prop :=
  ∀ i s st form p d a b off, vMems i = some (st, form, p, d, a, b, off) → (s.str .v).holds p = true →
    let m := form s
    let o := (s.str .v).pfx.order
    RoundAdmits s o → BanksOk (d :: a :: b.toList) s →
    ∀ a0 s1 l s2, TakesBase a s a0 s1 →
    let ea := (((a0 : Int) + off) % 2 ^ 64).toNat
    Addresses m ea b s1 l s2 →
    (st = false →
      let s3 := acquired .v (a :: b.toList) s2
      let keys := ((m.active l).map fun y => m.key s3.blk.scout y.1 y.2).eraseDups
      (∀ r s4, tryEach (loadElem m) keys { s3 with corrected := some [] } = .ok (r, s4) →
        TrapsLowest i s (trapsOf (loadElem m) keys { s3 with corrected := some [] })) ∧
      ∀ got s4 t, loadElems m l s3 = .ok (got, s4) →
      let ps := got.filterMap fun y => y.2.2
      let s5 := orderedAll (loadOrder o) ps (m.w / 8) s4
      let vals := m.loaded s5.blk.scout l got
      (((∃ g, d = .port (.g g)) ∨ ∀ q ∈ ps, s5.ownSlice q = true) → PutsV m.w m.act d s5 vals t →
        exec i s = .next ((released .v [d] t).complete .v m.words .go)) ∧
      ((∃ q ∈ ps, s5.ownSlice q = false) →
        let r := readFlies .v o (m.w / 8) (m.lateParts s5 l got) s5
        FliesV m d r.1 r.2 vals t → exec i s = .next ((released .v [d] t).complete .v m.words .go))) ∧
    (st = true → ∀ v s3, TakesV m.w d s2 v s3 →
      let s4 := acquired .v (a :: b.toList ++ [d]) s3
      let xs := l.zip ((elemRange m).map fun e => elem m.w v e)
      (∀ r s5, tryEach (storeElem m) (m.active xs) s4 = .ok (r, s5) → TrapsLowest i s (trapsOf (storeElem m) (m.active xs) s4)) ∧
      ∀ qs t, storeElems m xs s4 = .ok (qs, t) →
      let ps := qs.map fun y => y.2
      exec i s = .next ((orderedAll (storeOrder o) ps (m.w / 8)
          (if b = none then t.wholeUnits (m.w / 8) qs else t)).complete .v m.words .go) ∧
        (PlainMap s → MemSameAt s t ps (m.w / 8)))

/-- R136, R194: a v store under a false predicate changes no byte of memory. -/
def Sys2Proof.Claims.VStoreSkips : Prop :=
  ∀ i s t form p d a b off, vMems i = some (true, form, p, d, a, b, off) → (s.str .v).holds p = false →
    exec i s = .next t → t.mem = s.mem

/-- R57, R139, R178, R196: `vamo` applies its operation to the active ones of its first 32 bytes of elements at the home, and waits for
the response that brings what they held; with none active it only writes D, a register or a queue; and it traps 0x34 before any
operation where D is an in stream. It changes no byte but those of its active elements, where no pool and no foreign key stands in
the way. That the elements are applied in ascending order with no other atomic between them, and at issue, is the model's choice
(logs 50, 61). -/
def Sys2Proof.Claims.VAtomic : Prop :=
  ∀ i s form x op off a0 s1 b s2, vAmos i = some (form, x, op, off) → (s.str .v).holds x.pred = true →
    s.blk.scout.round = .closed → BanksOk [x.d, x.a, x.b] s → TakesBase x.a s a0 s1 → TakesV (form s).w x.b s1 b s2 →
    let m := form s
    let ea := (((a0 : Int) + off) % 2 ^ 64).toNat
    ea % 32 = 0 →
    (∀ g : Fin 16, x.d = .port (.g g) → s2.toCome .a (aSets g.val) (s2.str .v).pc.toNat = false → (s2.blk.streams[g]).out = false →
      exec i s = .next (traps .v 0x34 s)) ∧
    ∀ s2' old ps s3, AmoReady x.d s2 s2' →
    amoElems m op ea 0 ((List.range (256 / m.w)).map fun e => elem m.w b e) (acquired .v [x.a, x.b] s2') = .ok ((old, ps), s3) →
    (PlainMap s → MemSameAt s s3 ps (m.w / 8)) ∧
    (∀ q r, ps = q :: r → exec i s =
      .next ((orderedAll (s.str .v).pfx.order ps (m.w / 8) s3).complete .v m.words (vamoWait m x.d s3 old q ea))) ∧
    (∀ t, ps = [] → PutsV m.w (m.act ||| (BitVec.allOnes 256 <<< (256 / m.w))) x.d s3 [] t →
      exec i s = .next ((released .v [x.d] t).complete .v m.words .go))

namespace Sys2Proof.Claims

open Sys2Proof Sys2Proof.Machine

/-! ## Events of the hub, the dies and the driver -/

/-- The copy that the descriptor of task `k`'s transfer asks for, whole, by the die that performs it, and what it has written, for its
release (R272). -/
def xferMove (k : Nat) (x : Xfer) : M Cmd :=
  acting (some { party := .task k, unit := x.copy.unit }) (xferBytes x.copy xferCmd (x.len.toNat + 2) 0 false)

/-- Function `f`'s queue `n` as a write of `val` to its TAIL leaves it. -/
def tailed (q : LaunchQ) (val : Dword) : LaunchQ := { q with tail := val.setWidth 32 }

/-- A task that has taken its entry on one more die. -/
def tookEntry (x : Task) (d : Nat) : Task := { x with held := x.held ++ [d], want := x.want.filter (· != d) }

/-- An H-die's responder stands at `st`, its last answer `r`. -/
def answered (s : State) (h : Fin 2) (st : SpdmSt) (r : List Byte) : State :=
  { s with hdies := s.hdies.set h { s.hdies[h] with spdm := st, response := r } }

/-- The requests that leave the responder where it stands, once algorithms are negotiated, and their answers (R323). -/
def spdmAsks (s : State) : Instr → Option (Fin 2 × List Byte)
  | .getDigests h => some (h, Config.sha512 (Config.spdmBytes 4 h.val))
  | .getCertificate h slot => some (h, if slot = 0 then Config.spdmBytes 4 h.val else [0x13, 0x7F, 1, 0])
  | .getMeasurements h f i => some (h, if i = 0 then [5]
      else if i = 255 then s.measurement f 1 ++ s.measurement f 2 ++ s.measurement f 3 ++ s.measurement f 4 ++ s.measurement f 5
      else if i ≤ 5 then s.measurement f i else [0x13, 0x7F, 1, 0])
  | _ => none

/-- The requests that move the responder: where it must stand, where it goes, its answer, and the values drawn. -/
def spdmMoves (s : State) : Instr → Option (Fin 2 × SpdmSt × SpdmSt × List Byte × Nat)
  | .getCapabilities h => some (h, .version, .caps, Config.spdmBytes 1 h.val, 0)
  | .negotiateAlgorithms h a =>
    if a.rsaPss4096 && a.sha512 && a.secp384r1 && a.aes256gcm then
      some (h, .caps, .negotiated, Config.spdmBytes 2 h.val, 0)
    else some (h, .caps, .caps, [0x13, 0x7F, 7, 0], 0)
  | .keyExchange h slot =>
    if slot = 0 then some (h, .negotiated, .exchanged, Config.spdmBytes 7 s.free, 1)
    else some (h, .negotiated, .negotiated, [0x13, 0x7F, 1, 0], 0)
  | .finish h => some (h, .exchanged, .session, Config.spdmBytes 8 s.free, 1)
  | .endSession h => some (h, .session, .negotiated, Config.spdmBytes 9 h.val, 0)
  | _ => none

/-- The fence of the slice of core `c` of die `d`. -/
def sliceTel (s : State) (d : Fin 8) (c : Nat) : CoreTel := s.cores[Fin.ofNat 320 (40 * d.val + c)]

/-- The counters of a tract. -/
def tractTel (s : State) (d : Fin 8) (t : Nat) : TractTel := s.tracts[Fin.ofNat 32 (4 * d.val + t)]

/-- A die's queue of listed pages as an answer from the firmware leaves it: the interrupt is clear. -/
def sumpAnswered (s : State) (d : Fin 8) (l : List SumpEnt) : State :=
  { s with dies := s.dies.set d { s.dies[d] with sumpIrq := false, sump := l } }

/-- The word that a page's fate leaves in its metadata. -/
def fated (s : State) (e : MapEntry) (p n : Nat) : State := s.setMeta (e.pageWord p 3) (pageWord3 0 false false n)

/-- No refresh of a die is still due from a rotation that is over (R305). -/
def Current (s : State) (d : Fin 8) : Prop :=
  ∀ b ∈ (s.dies[d]).banks, ∀ r, b.due = some r → s.time / rotation d.val ≤ r

/-- A die whose pre-emption condition was decided at a time. -/
def decidedAt (s : State) (d : Fin 8) (t : Option Nat) : State :=
  { s with dies := s.dies.set d { s.dies[d] with decided := t } }

end Sys2Proof.Claims

open Sys2Proof Sys2Proof.Machine Sys2Proof.Claims

/-- R256, R259, R275, R286 to R288: the driver's commands. STOP of a running context raises its line with cause 0; RESUME of a
stopped one whose Cairns pass sets it running and resumes its blocks, each unfinished strand from its PC, and is refused where one
does not; ABORT ends every task of it; KILL ends the task it names, and is held while a phase change is pending; neither has an
effect yet while a completion entry stalls on a mark; CTXCFG creates and destroys. That a context's map and what its transfers have
retired go with it, and what stopping and resuming make of waits, is the model's (logs 29, 32). -/
def Obligations.ContextControl : Prop :=
  (∀ (s : State) (f : Fin 64) (k : Fin 16), s.vfFenced f.val = false →
    let cx := 16 * f.val + k.val
    let c := s.ctxAt cx
    (c.valid = true → c.st = 0 → ∃ t, exec (.ctxcmdStop f k) s = .next t ∧
      ((t.ctxAt cx).st = 1 ∨ (t.ctxAt cx).st = 2) ∧ (t.ctxAt cx).first = 0 ∧
      (∀ h, (t.ctxAt cx).change = some h → h.pending = false) ∧ t.mem = s.mem ∧
      (∀ b ∈ s.blocks, b.started = true → b ∈ t.blocks) ∧ (t.tasks.map fun k => k.key) = s.tasks.map fun k => k.key) ∧
    (let s0 := s.modCtx cx fun c => { c with cmd := 0 }
     let s1 := (s0.turnStalls cx).modCtx cx fun c => { c with st := 0, porterDown := false }
     let s2 := if c.changing then s1 else s1.mapBlocks (Block.askAgain cx s.time)
     c.st = 2 →
      ((∀ b ∈ s.liveBlocks cx, s0.mayResume b = true) → exec (.ctxcmdResume f k) s =
        .next (((s.liveBlocks cx).foldl (fun s b => (s.focus b.uid).resumeBlock) s2).focus s.blk.uid)) ∧
      ((∃ b ∈ s.liveBlocks cx, s0.mayResume b = false) → exec (.ctxcmdResume f k) s = .next s0)) ∧
    (c.st ≠ 2 → exec (.ctxcmdResume f k) s = .next (s.modCtx cx fun c => { c with cmd := 0 })) ∧
    (let s0 := s.modCtx cx fun c => { c with cmd := 0 }
     c.st = 2 →
      (∀ t, s0.abortCtx cx = some t → exec (.ctxcmdAbort f k) s = .next t ∧ (t.ctxAt cx).st = 3 ∧
        (∀ x ∈ t.tasks, x.ctx ≠ cx) ∧ (∀ x ∈ t.waiting, x.ctx ≠ cx) ∧ ∀ d : Fin 8, ∀ x ∈ (t.dies[d]).errlog, x.ctx ≠ cx) ∧
      (s0.abortCtx cx = none → exec (.ctxcmdAbort f k) s = .next s)) ∧
    (c.changing = true → exec (.ctxcmdKill f k) s = .next (s.modCtx cx fun c => { c with cmd := 4 })) ∧
    (c.changing = false → ∀ x, (s.tasks.find? fun t => t.ctx == cx && t.pkt.taskid == c.arg) = some x →
      let s0 := s.modCtx cx fun c => { c with cmd := 0 }
      (∀ t, s0.endTasks [x] 0x80 = some t → exec (.ctxcmdKill f k) s = .next (t.stopDone cx) ∧ ∀ y ∈ t.tasks, y.key ≠ x.key) ∧
      (s0.endTasks [x] 0x80 = none → exec (.ctxcmdKill f k) s = .next s)) ∧
    (c.cmd = 4 → c.changing = false → exec (.killAccept f k) s = exec (.ctxcmdKill f k) s) ∧
    (∀ val, c.valid = false → ∃ t, exec (.ctxcfgCreate f k val) s = .next t ∧ (t.ctxAt cx).valid = true ∧
      (t.ctxAt cx).st = 0 ∧ (t.ctxAt cx).first = 0 ∧ (t.ctxAt cx).phase = 0 ∧ (t.ctxAt cx).acctrap = val.getLsbD 14 ∧
      (t.ctxAt cx).latelim.toNat = (if val.toNat % 2 ^ 14 = 0 then 100 else min (val.toNat % 2 ^ 14) 10000) ∧
      t.mem = s.mem ∧ t.blk = s.blk ∧ t.tasks = s.tasks) ∧
    (c.valid = false → exec (.ctxcfgDestroy f k) s = .next s) ∧
    (c.valid = true → (∀ t ∈ s.tasks, t.ctx = cx → t.held = []) → s.liveBlocks cx = [] →
      ∃ t, exec (.ctxcfgDestroy f k) s = .next t ∧ (t.ctxAt cx).valid = false ∧ (t.ctxAt cx).store = [] ∧
        t.mem = s.mem ∧ t.blk = s.blk ∧ t.tasks = s.tasks)) ∧
  (∀ (s : State) (e : Eng) (r : StopRec) (b : Back), (s.str e).stop = some r → (s.str e).finished = false →
    b.skip = false → r.cause ≠ 0x39 →
    s.resumeStrand e b = s.modStr e fun st =>
      let st := { st with stop := none, pfx := .none }
      if b.pc = st.atPc then { st with wait := st.wait.resumed s.blk.cyc s.time s.blk.forcing }
      else { st.transfer b.pc with wait := .run })

/-- R284, R285: EVHEAD and EVCFG writes take effect, a length outside 4 to 16 storing 16; an event that the H-die held goes
into a ring with room; EVENT_RETRY passes a die's buffered event on. -/
def Obligations.EventRings : Prop :=
  (∀ s f val, s.vfFenced f.val = false → (∀ e ∈ (s.hdies[hdieFor f.val]).held, e.vf ≠ f.val) →
    exec (.evheadWrite f val) s = .next (s.modVf f.val fun v => { v with evhead := val.setWidth 32 })) ∧
  (∀ s f val, s.vfFenced f.val = false → (∀ e ∈ (s.hdies[hdieFor f.val]).held, e.vf ≠ f.val) →
    let n := val.toNat % 32
    exec (.evcfgWrite f val) s = .next (s.modVf f.val fun v =>
      { v with even := val.getLsbD 31, evlog := BitVec.ofNat 5 (if 4 ≤ n ∧ n ≤ 16 then n else 16) })) ∧
  (∀ s f val e, s.vfFenced f.val = false → (s.hdies[hdieFor f.val]).held = [e] → e.vf = f.val →
    let t := s.modVf f.val fun v => { v with evhead := val.setWidth 32 }
    (t.vfs[f]).even = true → ((t.vfs[f]).evtail - (t.vfs[f]).evhead).toNat < 2 ^ (t.vfs[f]).evlog.toNat →
    exec (.evheadWrite f val) s = .next
      ({ t with hdies := t.hdies.set (hdieFor f.val) { t.hdies[hdieFor f.val] with held := [] } }.writeEvent e)) ∧
  (∀ s die e t, (s.dies[die]).evbuf = [e] → s.hubTake e = some t → (t.dies[die]).coal = 0 →
    exec (.eventRetry die) s = .next (t.modDie die fun x => { x with evbuf := [] })) ∧
  (∀ s die, (s.dies[die]).evbuf = [] → (s.dies[die]).coal = 0 → exec (.eventRetry die) s = .next s)

/-- R21, R25, R266, R267, R270 to R275: a TAIL write that does not overrun its ring, the reading of a packet and its
refusal, the entry of a checked packet on all its dies at once and of a device task on one more die; a transfer's bytes
moved and its entry freed; a block placed with its registers from its task; a block's completion frees its core, and the
last one ends its task. What a launch makes known travels with it; a host's task whose completion entry stalls on a mark has not
ended yet, and a transfer that stalls on one past LATELIM traps 0x35 (R259). -/
def Obligations.Launching : Prop :=
  (∀ s f n val, s.vfFenced f.val = false →
    let q := tailed (s.lqAt f.val n.val) val
    (q.en = false ∨ (q.tail - q.head).toNat ≤ 2 ^ q.log2n.toNat) →
    exec (.lqtailWrite f n val) s = .next (s.modLq f.val n.val fun _ => q)) ∧
  (∀ s f n, s.vfFenced f.val = false →
    let q := s.lqAt f.val n.val
    let cx := 16 * f.val + q.ctx.val
    q.en = true → q.head ≠ q.tail → (s.ctxAt cx).valid = true → (s.vfPart f.val).isSome = true →
    (q.tail - q.head).toNat ≤ 2 ^ q.log2n.toNat →
    let a := q.base.toNat + q.head.toNat % 2 ^ q.log2n.toNat * 128
    let s1 := s.modLq f.val n.val fun q => { q with head := q.head + 1 }
    (∀ k t, asHub cx (readPacket cx f.val n.val a) s1 = .ok (.good k, t) →
      exec (.launchPacketRead f n) s =
        .next ({ t with waiting := t.waiting ++ [{ k with key := t.nextKey, clock := t.hostClock (hdieFor f.val) }],
                        nextKey := t.nextKey + 1 }.taskLearns
          { k with key := t.nextKey, clock := t.hostClock (hdieFor f.val) })) ∧
    (∀ id code t, asHub cx (readPacket cx f.val n.val a) s1 = .ok (.refused id code, t) →
      exec (.launchPacketRead f n) s = .next ((t.completion none cx f.val n.val id code 0).getD s))) ∧
  (∀ s t k, (s.waiting.find? fun x => x.key == t) = some k → s.behind k = false →
    (∀ d ∈ k.want, (s.tasks.filter fun x => x.held.contains d).length < 64) →
    exec (.launchEntry t) s =
      .next { s with waiting := s.waiting.filter fun x => x.key != t,
                     tasks := s.tasks ++ [{ k with held := k.want, want := [], entered := s.time }] }) ∧
  (∀ s t k d, s.taskAt t = some k → d.val ∈ k.want → (s.tasks.filter fun x => x.held.contains d.val).length < 64 →
    exec (.klaunchRemoteEntry t d) s =
      .next { s with tasks := s.tasks.map fun x => if x.key = t then tookEntry x d.val else x }) ∧
  (∀ s t k x d r c u, s.taskAt t = some k → k.xfer = some x → k.held = d :: r → (s.ctxAt k.ctx).st = 0 →
    asAgent (Fin.ofNat 8 d) k.ctx (s.ctxPart k.ctx) (xferMove k.key x) s = .ok (c, u) →
    let b := k.agent (Fin.ofNat 8 d) (s.ctxPart k.ctx)
    let w := (u.xferRelease b k c).retireXfer k x
    (∃ y ∈ w.retired, y.ctx = k.ctx ∧ y.id = x.id ∧ y.at_ = u.time) ∧
    (∀ l, k.src = .block l → ∃ v, exec (.transferRetire t) s = .next v ∧ (∀ y ∈ v.tasks, y.key ≠ k.key) ∧
      (k.pkt.done = 0 → v.mem = u.mem)) ∧
    (∀ v, w.endTask b k 0 = some v → exec (.transferRetire t) s = .next (v.forget (.task k.key)) ∧ ∀ y ∈ v.tasks, y.key ≠ k.key) ∧
    (w.endTask b k 0 = none → exec (.transferRetire t) s = .next s)) ∧
  (∀ s t k x d r va, s.taskAt t = some k → k.xfer = some x → k.held = d :: r → (s.ctxAt k.ctx).st = 0 →
    asAgent (Fin.ofNat 8 d) k.ctx (s.ctxPart k.ctx) (xferMove k.key x) s = .error (.mark va) →
    (s.xferLate k va = true →
      exec (.transferRetire t) s = .next (s.xferFault k x ⟨0x35, BitVec.ofNat 64 va, 0, 0, none⟩)) ∧
    (s.xferLate k va = false → exec (.transferRetire t) s = .next (s.xferStall k va))) ∧
  (∀ (s : State) (die : Fin 8) (t : Task) (r : List Task) (y : Seat), s.ranked die.val = t :: r →
    s.chooseSeats t die.val = some [y] → s.savedOf t y.idx = none → (∀ b ∈ s.blocks, b.uid ≠ s.nextUid) →
    ∃ v, exec (.blockPlace die) s = .next v ∧ ∃ b ∈ v.blocks, b.uid = s.nextUid ∧ b.placed = true ∧
      b.die = Fin.ofNat 8 y.die ∧ b.core = y.core ∧ b.slot = y.slot ∧ b.task = t.key ∧ b.ctx = t.ctx ∧
      b.bidx = BitVec.ofNat 24 y.idx ∧ b.image = t.pkt.image ∧ b.s = (Vector.replicate 64 0).set 1 t.pkt.param ∧
      b.slipw = (if t.pkt.slip = 0 then 64 else t.pkt.slip) ∧ b.flags = Vector.replicate 64 { p := 0, pend := [] } ∧
      b.gs = Vector.replicate 16 none ∧ b.q = Vector.replicate 16 [] ∧ b.vq = Vector.replicate 4 [] ∧
      ((s.cores[Fin.ofNat 320 (40 * y.die + y.core)]).zeroed = true → b.v = Vector.replicate 64 vzero)) ∧
  (∀ s u b k, s.blockAt u = some b → b.complete = true → (s.ctxAt b.ctx).st = 0 → s.taskAt b.task = some k →
    let k1 := { k with doneIdx := b.bidx.toNat :: k.doneIdx }
    let w := { (s.learnFrom (.task b.task) u).removeBlock u with tasks := s.tasks.map fun x => if x.key = k.key then k1 else x }
    (k.doneIdx.length + 1 ≠ k.pkt.blocks.toNat → exec (.blockComplete u) s = .next w) ∧
    (k.doneIdx.length + 1 = k.pkt.blocks.toNat →
      (∀ c, k.src = .block c → ∃ v, exec (.blockComplete u) s = .next v ∧ ∀ y ∈ v.tasks, y.key ≠ k.key) ∧
      (∀ v, w.endTask b k1 0 = some v → exec (.blockComplete u) s = .next (v.forget (.task k.key)) ∧
        ∀ y ∈ v.tasks, y.key ≠ k.key) ∧
      (w.endTask b k1 0 = none → exec (.blockComplete u) s = .next s)))

/-- R319 to R325: a PARTDIES write takes effect, its new quads shut until granted, or is refused while a quad that leaves, or one
that another partition would lose, is at work; QUAD_GRANT of a shut quad zeroes the quad's slices, marks its cores' registers as
zero, and opens it; VFPART, BAR and TDI events move a function's TDI; a policy that passes sets DBGEN and EXPIRY, any attempt draws
a new nonce, and DBGEN counts as clear from EXPIRY on. Where a digest, a nonce and the IDE stream come from is the model's (logs 5,
6, 49). -/
def Obligations.PartitionsAndPolicies : Prop :=
  (∀ (s : State) (p : Fin 32) (val : Dword),
    let old := quadList (s.hub.partdies[p])
    let new := quadList (val.setWidth 32)
    ((∀ x ∈ old, x ∉ new → s.quadBusy p.val x = false) →
      (∀ x ∈ new, x ∉ old → ∀ o, s.otherOwner p x = some o → s.quadBusy o.val x = false) →
      ∃ t, exec (.partdiesWrite p val) s = .next t ∧ t.hub.partdies[p] = val.setWidth 32 ∧
        (∀ x ∈ new, x ∉ old → (x.1, x.2, p.val) ∈ t.hub.zeroing) ∧
        (∀ x ∈ old, x ∉ new → (x.1, x.2, 32) ∈ t.hub.zeroing)) ∧
    ((∃ x ∈ old, x ∉ new ∧ s.quadBusy p.val x = true) →
      ∃ t, exec (.partdiesWrite p val) s = .next t ∧ t.hub = s.hub) ∧
    ((∃ x ∈ new, x ∉ old ∧ ∃ o, s.otherOwner p x = some o ∧ s.quadBusy o.val x = true) →
      ∃ t, exec (.partdiesWrite p val) s = .next t ∧ t.hub = s.hub)) ∧
  (∀ (s : State) (die : Fin 8) (quad : Fin 4), s.quadShut die.val quad.val = false → exec (.quadGrant die quad) s = .next s) ∧
  (∀ (s : State) (die : Fin 8) (quad : Fin 4), s.quadShut die.val quad.val = true →
    ∃ t, exec (.quadGrant die quad) s = .next t ∧ t.quadShut die.val quad.val = false ∧ t.blk = s.blk ∧
      (∀ c, c < quadCores die.val →
        (t.cores[Fin.ofNat 320 (40 * die.val + (quad.val * quadCores die.val + c))]).zeroed = true) ∧
      (∀ c off, c < quadCores die.val → off < sliceSize die.val →
        Mem.read t.mem (scratchBase die.val (quad.val * quadCores die.val + c) + off) = 0) ∧
      ∀ a, Mem.read t.mem a = Mem.read s.mem a ∨ Mem.read t.mem a = 0) ∧
  (∀ (s : State) (f : Fin 64) (val : Dword), ∃ t, exec (.vfpartWrite f val) s = .next t ∧
    t.hub.vfpart[f] = val.setWidth 6 ∧
    (t.vfs[f]).tdi = (if (s.vfs[f]).tdi = .locked ∨ (s.vfs[f]).tdi = .run then .error else (s.vfs[f]).tdi)) ∧
  (∀ (s : State) (f : Fin 64), ∃ t, exec (.barWrite f) s = .next t ∧
    (t.vfs[f]).tdi = (if (s.vfs[f]).tdi = .locked ∨ (s.vfs[f]).tdi = .run then .error else (s.vfs[f]).tdi)) ∧
  (∀ (s : State) (f : Fin 64), (s.vfs[f]).tdi = .unlocked → (s.vfs[f]).ide = true → (s.vfPart f.val).isSome = true →
    exec (.tdiConfigLock f) s = .next ({ s with free := s.free + 1 }.modVf f.val fun v => { v with tdi := .locked })) ∧
  (∀ (s : State) (f : Fin 64), (s.vfs[f]).tdi = .locked →
    exec (.tdiRun f) s = .next (s.modVf f.val fun v => { v with tdi := .run })) ∧
  (∀ (s : State) (f : Fin 64) (p : Fin 32), s.vfFenced f.val = false → s.vfPart f.val = some p →
    let bs := debugPut (s.vfs[f]).dbgload 1060 0
    ∃ t, exec (.dbgctlGo f) s = .next t ∧ t.mem = s.mem ∧ t.blk = s.blk ∧
      (t.vfs[f]).nonce = Config.nonce (64 * (s.free + 1) + f.val) ∧
      (s.policyOk f p bs = true → (t.vfs[f]).dbgres = 2 ∧ t.hub.dbgen[p] = BitVec.ofNat 4 (fieldN bs 17 1) ∧
        t.hub.expiry[p] = BitVec.ofNat 64 (fieldN bs 24 8)) ∧
      (s.policyOk f p bs = false → (t.vfs[f]).dbgres = 3 ∧ t.hub = s.hub)) ∧
  (∀ (s : State) (p : Fin 32), s.hub.dbgen[p] ≠ 0 → (s.hub.expiry[p]).toNat ≤ s.time / 90 →
    exec (.dbgExpiry p) s = .next { s with hub := { s.hub with dbgen := s.hub.dbgen.set p 0 } } ∧ s.dbgOf p = 0) ∧
  (∀ (s : State) (p : Fin 32), s.time / 90 < (s.hub.expiry[p]).toNat → s.dbgOf p = s.hub.dbgen[p])

/-- R323: the SPDM responder of an H-die. GET_VERSION starts a connection anew; the other requests answer where the
responder stands as they need, and are unexpected elsewhere. The error codes are SPDM's (log 35); what certificates, keys and
signatures hold is free (log 15). -/
def Obligations.Attestation : Prop :=
  (∀ s h, exec (.getVersion h) s = .next (answered s h .version (Config.spdmBytes 0 h.val))) ∧
  (∀ i s h r, spdmAsks s i = some (h, r) →
    (((s.hdies[h]).spdm = .negotiated ∨ (s.hdies[h]).spdm = .exchanged ∨ (s.hdies[h]).spdm = .session) →
      exec i s = .next (answered s h (s.hdies[h]).spdm r)) ∧
    ((s.hdies[h]).spdm ≠ .negotiated → (s.hdies[h]).spdm ≠ .exchanged → (s.hdies[h]).spdm ≠ .session →
      exec i s = .next (answered s h (s.hdies[h]).spdm [0x13, 0x7F, 4, 0]))) ∧
  (∀ s h, ((s.hdies[h]).spdm = .negotiated ∨ (s.hdies[h]).spdm = .exchanged ∨ (s.hdies[h]).spdm = .session) →
    exec (.challenge h 0) s =
      .next (answered { s with free := s.free + 1 } h (s.hdies[h]).spdm (Config.spdmBytes 5 s.free))) ∧
  (∀ i s h st st' r n, spdmMoves s i = some (h, st, st', r, n) →
    ((s.hdies[h]).spdm = st → exec i s = .next (answered { s with free := s.free + n } h st' r)) ∧
    ((s.hdies[h]).spdm ≠ st → exec i s = .next (answered s h (s.hdies[h]).spdm [0x13, 0x7F, 4, 0])))

/-- R305 to R308, R235, R327: a maintenance slot serves one operation on every tract that has one; a refresh that falls due
is due in its rotation, or postponed where one is due already or its rotation ends; an alert asks refresh management of its bank in a
later rotation; a counter whose check bits fail is logged; replays without success count, and the fourth in a row fences the tract;
a failed read over a link is retried, and after sixteen tries the link is fenced and a command behind a CXL or peer port traps 0x42,
or 0x3A at a copy list. What the DRAM's counters say, and which read fails, is free (logs 26, 34). -/
def Obligations.MemoryChannels : Prop :=
  (∀ s die slot, 0 < slot → slot < maintSlots die.val → Current s die →
    let rn := s.time / rotation die.val
    ((List.range (tractsOf die.val)).any fun t => ((s.dies[die]).serve rn t).isSome) = true →
    exec (.maintenanceSlot die slot) s = .next (s.modDie die fun x =>
      (List.range (tractsOf die.val)).foldl (fun x t => (x.serve rn t).getD x) x)) ∧
  (∀ (s : State) (die : Fin 8) (b : BankSt) (r : Nat), (s.dies[die]).banks = [b] → b.due = some r →
    r < s.time / rotation die.val → b.owed < 8 →
    s.rollBanks die = s.modDie die fun x => { x with banks := [{ b with owed := b.owed + 1, due := none }] }) ∧
  (∀ (s : State) (die : Fin 8) (tract : Fin 4) (bank : Nat), tract.val < tractsOf die.val → Current s die →
    let b := (s.dies[die]).bankAt tract.val bank
    let rn := s.time / rotation die.val
    (b.due = none → exec (.refreshDue die tract bank) s =
      .next (s.modDie die fun x => x.putBank { b with due := some rn })) ∧
    (b.due.isSome = true → b.owed < 8 → exec (.refreshDue die tract bank) s =
      .next (s.modDie die fun x => x.putBank { b with owed := b.owed + 1, due := some rn })) ∧
    (b.due.isSome = true → 8 ≤ b.owed → ∃ t, exec (.refreshDue die tract bank) s = .next t ∧ t.mem = s.mem ∧
      (tractTel t die tract.val).abslip = min 65535 ((tractTel s die tract.val).abslip + 1))) ∧
  (∀ (s : State) (die : Fin 8) (tract : Fin 4) (bank : Nat), tract.val < tractsOf die.val → Current s die →
    let b := (s.dies[die]).bankAt tract.val bank
    let rn := s.time / rotation die.val
    ∃ t, exec (.activationAlert die tract bank) s = .next t ∧ t.mem = s.mem ∧ t.blk = s.blk ∧
      (Config.freeBool (2 * s.free) = true → t = { s with free := s.free + 1 }.modDie die fun x =>
        x.putBank { b with alerts := b.alerts ++ [rn], back := b.back || b.owed == 8 }) ∧
      (Config.freeBool (2 * s.free) = false → Config.freeBool (2 * s.free + 1) = false →
        (t.dies[die]).rowlog = (s.dies[die]).rowlog ++ [(tract.val, bank, (Config.freeWord (2 * s.free)).toNat)])) ∧
  (∀ (s : State) (die : Fin 8) (tract : Fin 4) (ok : Bool), tract.val < tractsOf die.val →
    ∃ t, exec (.caParityError die tract ok) s = .next t ∧
      (tractTel t die tract.val).replay = min 32767 ((tractTel s die tract.val).replay + 1) ∧
      (ok = true → (t.dies[die]).replays[tract] = 0 ∧ t.mem = s.mem) ∧
      (ok = false → (s.dies[die]).replays[tract] < 3 →
        (t.dies[die]).replays[tract] = (s.dies[die]).replays[tract] + 1 ∧ t.mem = s.mem) ∧
      (ok = false → (s.dies[die]).replays[tract] = 3 →
        (t.dies[die]).replays[tract] = 0 ∧ (tractTel t die tract.val).fenced = true)) ∧
  (∀ s link u e idx c, (s.blockAt u).isSome = true →
    let t := s.focus u
    ((t.blk.eng e).prog.find? fun c => c.idx.toNat == idx) = some c → c.stuck = false → t.engLive e = true →
    (t.links[link]).fenced = false →
    (t.readOver e c link.val = none → exec (.linkReadFailure link u e idx) s = .next s) ∧
    ∀ va, t.readOver e c link.val = some va →
    (c.tries < 16 → ∃ v, exec (.linkReadFailure link u e idx) s = .next v ∧
      (v.links[link]).retry = min (2 ^ 32 - 1) ((s.links[link]).retry + 1) ∧
      (v.blk.eng e).prog = (t.blk.eng e).prog.map fun y => if y.idx = c.idx then { c with tries := c.tries + 1 } else y) ∧
    (16 ≤ c.tries → link.val < 22 → t.blk.scout.round = .closed → (t.str e).stop = none →
      ∃ v r, exec (.linkReadFailure link u e idx) s = .next v ∧ (v.links[link]).fenced = true ∧
        (v.str e).stop = some r ∧ r.faddr = BitVec.ofNat 64 va ∧ r.cidx = c.idx ∧
        ((∀ x, c.op ≠ .copyl x) → r.cause = 0x42) ∧ ∀ x, c.op = .copyl x → r.cause = 0x3A ∧ r.sub = 0x42) ∧
    (16 ≤ c.tries → 22 ≤ link.val → ∃ v, exec (.linkReadFailure link u e idx) s = .next v ∧ (v.links[link]).fenced = true ∧
      v.str e = t.str e))

/-- R327 to R330: a first failed bank of a slice is rebuilt, and a second one, the spare's own included, fences the slice; a finished
rebuild counts; FENCECMD clears a fence that stands, or is refused while a block of a partition that holds the unit is placed;
TELCLR clears every counter and not the fences; a governor sets an island's voltage; module reset returns registers to their reset
values, and memory stays (log 37). What a cleared slice's banks become, what clearing a unit without a fence does, and which
partitions hold a unit, is the model's reading (log 36). -/
def Sys2Proof.Claims.FencesAndTelemetry : Prop :=
  (∀ (s : State) (die : Fin 8) (core bank : Nat), core < coresOf die.val → bank < 18 →
    ¬((sliceTel s die core).rebuilding = true ∧ bank ∈ (sliceTel s die core).failed) →
    ((sliceTel s die core).failed = [] → exec (.scratchBankFail die core bank) s =
      .next (s.modCore die core fun x => { x with failed := [bank], rebuilding := true })) ∧
    ((sliceTel s die core).failed ≠ [] → ∃ t, exec (.scratchBankFail die core bank) s = .next t ∧
      (sliceTel t die core).fenced = true)) ∧
  (∀ (s : State) (die : Fin 8) (core : Nat), core < coresOf die.val → (sliceTel s die core).rebuilding = true →
    exec (.bankRebuildDone die core) s = .next (s.modCore die core fun x =>
      { x with rebuilding := false, rebuilds := min 255 (x.rebuilds + 1) })) ∧
  (∀ (s : State) (val : Dword), val.getLsbD 63 = true →
    let unit := val.toNat % 16
    let idx := val.toNat / 2 ^ 32 % 512
    fenceUnitOk unit idx = true →
    let t := { s with hub := { s.hub with fenceIdx := BitVec.ofNat 9 idx, fenceUnit := Fin.ofNat 16 unit, fenceRefused := false } }
    ((∀ b ∈ s.blocks, b.placed = true → s.holdsUnit b.part unit idx = false) →
      exec (.fencecmdClear val) s = .next (t.unfence unit idx)) ∧
    ((∃ b ∈ s.blocks, b.placed = true ∧ s.holdsUnit b.part unit idx = true) →
      exec (.fencecmdClear val) s = .next { t with hub := { t.hub with fenceRefused := true } })) ∧
  (∀ (s : State) (i : Fin 320), ((s.cores[i]).fenced = false → s.unfence 1 i.val = s) ∧
    ((s.cores[i]).fenced = true → ((s.unfence 1 i.val).cores[i]).fenced = false ∧ ((s.unfence 1 i.val).cores[i]).failed = [] ∧
      ((s.unfence 1 i.val).cores[i]).rebuilding = false)) ∧
  (∀ (s : State), (∀ i : Fin 32, ((s.unfence 2 i.val).tracts[i]).fenced = false) ∧
    ∀ i : Fin 50, ((s.unfence 3 i.val).links[i]).fenced = false) ∧
  (∀ (s : State) (val : Dword), val.getLsbD 0 = true → ∃ t, exec (.telclr val) s = .next t ∧ t.mem = s.mem ∧
    t.blk = s.blk ∧ (∀ i : Fin 320, (t.cores[i]).slips = 0 ∧ (t.cores[i]).ferry = 0 ∧ (t.cores[i]).scovf = 0 ∧
      (t.cores[i]).rebuilds = 0 ∧ (t.cores[i]).fenced = (s.cores[i]).fenced ∧ (t.cores[i]).failed = (s.cores[i]).failed) ∧
    (∀ i : Fin 50, (t.links[i]).retry = 0 ∧ (t.links[i]).fenced = (s.links[i]).fenced) ∧
    ∀ i : Fin 32, (t.tracts[i]).replay = 0 ∧ (t.tracts[i]).abslip = 0 ∧ (t.tracts[i]).corr = 0 ∧ (t.tracts[i]).uncor = 0 ∧
      (t.tracts[i]).fenced = (s.tracts[i]).fenced ∧ (t.isls[i]).grants = 0 ∧ (t.isls[i]).stall = 0 ∧
      (t.isls[i]).iuse = (s.isls[i]).iuse ∧ (t.isls[i]).vmv = (s.isls[i]).vmv) ∧
  (∀ (s : State) (isl : Fin 32) (mv : Nat), 340 ≤ mv → mv ≤ 600 →
    ∃ t, exec (.islandGovernorSet isl mv) s = .next t ∧ (t.isls[isl]).vmv = mv ∧ t.blk = s.blk ∧ t.mem = s.mem ∧
      ∀ i, i ≠ isl → t.isls[i] = s.isls[i]) ∧
  (∀ s, ∃ t, exec .moduleReset s = .next t ∧ t.blk = State.reset.blk ∧ t.others = [] ∧ t.tasks = [] ∧
    t.waiting = [] ∧ t.ctxs = State.reset.ctxs ∧ t.hub.partdies = State.reset.hub.partdies ∧
    t.cores = State.reset.cores ∧ t.tracts = State.reset.tracts ∧ t.links = State.reset.links ∧ t.mem = s.mem)

/-- R266, R275, R284, R287, R293, R301, R304, R306, R312, R327, R332: registers without a behaviour of their own take what is written,
reserved bits aside; a window of a fenced function (R324) and an offset that names no whole register take nothing. -/
def Sys2Proof.Claims.PlainRegisters : Prop :=
  (∀ s f off val, s.vfFenced f.val = true → exec (.registerWrite (.vf f) off val) s = .next s) ∧
  (∀ s w off val, off % 8 ≠ 0 → exec (.registerWrite w off val) s = .next s) ∧
  (∀ (s : State) (f : Fin 64) (k : Fin 16) (val : Dword), s.vfFenced f.val = false →
    let w := fun off : Nat => exec (.registerWrite (.vf f) off val) s
    let cx := 16 * f.val + k.val
    let high := fun n : Nat => BitVec.ofNat 64 (val.toNat / 2 ^ n * 2 ^ n)
    w 0x600 = .next (s.modVf f.val fun v => { v with evbase := high 5 }) ∧
    w 0x620 = .next (s.modVf f.val fun v => { v with evlost := v.evlost && !val.getLsbD 63 }) ∧
    w (0x808 + 32 * k.val) = .next (s.modCtx cx fun c => { c with arg := val }) ∧
    (val.getLsbD 63 = false → (s.ctxAt cx).valid = false → w (0x818 + 32 * k.val) = .next (s.modCtx cx fun c =>
      { c with acctrap := val.getLsbD 14,
               latelim := if val.toNat % 2 ^ 14 = 0 then 100 else BitVec.ofNat 14 (min (val.toNat % 2 ^ 14) 10000) })) ∧
    ((s.ctxAt cx).valid = true → w (0x818 + 32 * k.val) = .next s) ∧
    w (0xA00 + 32 * k.val) = .next (s.modCtx cx fun c => { c with mapbase := high 7 }) ∧
    w (0xA18 + 32 * k.val) = .next (s.modCtx cx fun c => { c with ptroot := high 12 }) ∧
    (val.getLsbD 31 = false → (s.ctxAt cx).mapst ≠ 1 → w (0xA08 + 32 * k.val) = .next (s.modCtx cx fun c =>
      { c with mapn := BitVec.ofNat 10 (val.toNat / 16), mappm1 := Fin.ofNat 16 val.toNat })) ∧
    (∀ d : Fin 8, (s.ctxAt cx).valid = false → w (0x1200 + 64 * k.val + 8 * d.val) = .next (s.modCtx cx fun c =>
      { c with seovf := c.seovf.set d (BitVec.ofNat 64 (val.toNat / 2 ^ 20 * 2 ^ 20 + min (val.toNat % 16) 8)) })) ∧
    (∀ d : Fin 8, (s.ctxAt cx).valid = true → w (0x1200 + 64 * k.val + 8 * d.val) = .next s) ∧
    ∀ n : Fin 8,
      w (0x1000 + 64 * n.val) = .next (s.modLq f.val n.val fun q => { q with base := high 7 }) ∧
      w (0x1008 + 64 * n.val) = .next (s.modLq f.val n.val fun q => { q with cbase := high 4 }) ∧
      w (0x1010 + 64 * n.val) = .next (s.modLq f.val n.val fun q => { q with
        en := val.getLsbD 31, ctx := Fin.ofNat 16 (val.toNat / 32),
        log2n := BitVec.ofNat 5 (if 4 ≤ val.toNat % 32 ∧ val.toNat % 32 ≤ 16 then val.toNat % 32 else 16) })) ∧
  (∀ (s : State) (p : Fin 32) (d : Fin 8) (val : Dword),
    let w := fun off : Nat => exec (.registerWrite .hub off val) s
    let high := fun n : Nat => BitVec.ofNat 64 (val.toNat / 2 ^ n * 2 ^ n)
    w (0x2600 + 8 * p.val) = .next { s with hub := { s.hub with cairnbase := s.hub.cairnbase.set p (high 20) } } ∧
    w (0x2700 + 16 * p.val) = .next { s with hub := { s.hub with savebase := s.hub.savebase.set p (high 23) } } ∧
    w (0x2708 + 16 * p.val) = .next { s with hub := { s.hub with savecnt := s.hub.savecnt.set p (val.setWidth 16) } } ∧
    w (0x3000 + 8 * d.val) = .next (s.modDie d fun x => { x with actth := BitVec.ofNat 16 (max 256 (val.toNat % 65536)) }) ∧
    w (0x3188 + 256 * d.val) = .next (s.modDie d fun x =>
      { x with sumpdl := if val.toNat % 1024 = 0 then 50 else BitVec.ofNat 10 val.toNat }) ∧
    (val.toNat % 16 = 0 ∨ 4 ≤ val.toNat % 16 → w (0x3180 + 256 * d.val) = .next (s.modDie d fun x => { x with sumpIrq := false })))

/-- R275, R287, R301, R304, R312, R324, R327, R330: what the outside world reads. A function in ERROR reads as all ones; an offset
that names no whole register reads 0 (log 55); a context's state, its configuration and its map registers, the counters of cores,
tracts, links and islands, and the hub's registers read as they stand, FENCECMD's GO bit as 0. -/
def Sys2Proof.Claims.RegisterReads : Prop :=
  (∀ (s : State) (f : Fin 64) (off : Nat), s.vfFenced f.val = true → s.readReg (.vf f) off = 2 ^ 64 - 1) ∧
  (∀ (s : State) (off : Nat), off % 8 ≠ 0 → s.readReg .hub off = 0 ∧
    ∀ f : Fin 64, s.vfFenced f.val = false → s.readReg (.vf f) off = 0) ∧
  (∀ (s : State) (f : Fin 64) (k : Fin 16), s.vfFenced f.val = false →
    let r := fun off : Nat => s.readReg (.vf f) off
    let c := s.ctxAt (16 * f.val + k.val)
    let bit := fun (b : Bool) (n : Nat) => if b then 2 ^ n else 0
    r (0x800 + 32 * k.val) = c.cmd.val ∧ r (0x808 + 32 * k.val) = c.arg.toNat ∧
    r (0x810 + 32 * k.val) = c.first.toNat * 2 ^ 8 + c.st.val ∧
    r (0x818 + 32 * k.val) = bit c.valid 63 + bit c.acctrap 14 + c.latelim.toNat ∧
    r (0xA00 + 32 * k.val) = c.mapbase.toNat ∧ r (0xA08 + 32 * k.val) = c.mapn.toNat * 2 ^ 4 + c.mappm1.val ∧
    r (0xA10 + 32 * k.val) = c.mapentry.toNat * 2 ^ 32 + c.mapcode.val * 2 ^ 2 + c.mapst.val ∧
    r (0xA18 + 32 * k.val) = c.ptroot.toNat ∧ r 0x2000 = 0) ∧
  (∀ (s : State) (p : Fin 32) (f : Fin 64) (l : Fin 50) (d : Fin 8) (i : Fin 32),
    let r := fun off : Nat => s.readReg .hub off
    let bit := fun (b : Bool) (n : Nat) => if b then 2 ^ n else 0
    r (0x2000 + 8 * p.val) = (s.hub.partdies[p]).toNat ∧ r (0x2200 + 8 * f.val) = (s.hub.vfpart[f]).toNat ∧
    r (0x2400 + 8 * p.val) = (if (s.hub.expiry[p]).toNat ≤ s.time / 90 then 0 else (s.hub.dbgen[p]).toNat) ∧
    r (0x2600 + 8 * p.val) = (s.hub.cairnbase[p]).toNat ∧
    r (0x3000 + 8 * d.val) = (s.dies[d]).actth.toNat ∧
    r (0x4B00 + 8 * l.val) = bit (s.links[l]).fenced 63 + (s.links[l]).retry ∧
    r (0x4D00 + 16 * i.val) = (s.isls[i]).vmv * 2 ^ 48 + (s.isls[i]).fmhz * 2 ^ 32 + Config.ilim i.val % 2 ^ 16 * 2 ^ 16 +
      (s.isls[i]).iuse % 2 ^ 16 ∧
    r (0x4D08 + 16 * i.val) = (s.isls[i]).grants * 2 ^ 32 + (s.isls[i]).stall ∧
    r 0x4F08 = bit s.hub.fenceRefused 62 + s.hub.fenceIdx.toNat * 2 ^ 32 + s.hub.fenceUnit.val ∧
    (∀ c, c < coresOf d.val → r (0x4000 + 8 * (40 * d.val + c)) =
      let x := sliceTel s d c
      x.slips * 2 ^ 48 + x.ferry * 2 ^ 32 + x.scovf * 2 ^ 16 + x.rebuilds * 2 ^ 8 + bit x.fenced 0) ∧
    ∀ t, t < tractsOf d.val → r (0x4A00 + 8 * (4 * d.val + t)) =
      let x := tractTel s d t
      bit x.fenced 63 + x.replay * 2 ^ 48 + x.abslip * 2 ^ 32 + x.corr * 2 ^ 16 + x.uncor)

/-- R312, R313: a die of whose pools one runs low lists in its free entries the candidates of its pools that come first by stamp,
region, page and context, and interrupts: resident pages in use, neither being restored nor listed, and not vetoed at their stamp;
an entry past its deadline is confirmed; the firmware confirms, vetoes or moves an entry to the head, each clearing the interrupt;
the mover drops or offloads the page of the confirmed entry nearest the head, and frees its frame. That pools with enough free
frames are searched too is the model's reading (log 48). -/
def Obligations.SumpQueue : Prop :=
  (∀ (s : State) (die : Fin 8),
    let low := ∃ x ∈ s.poolsOf die, s.freeN x.2.2 < x.2.2.wmark
    let l := (candSort ((s.poolsOf die).flatMap fun x => s.sumpCandidates die x.1 x.2.1 x.2.2)).take
      (16 - (s.dies[die]).sump.length)
    (low → l ≠ [] → ∃ t, exec (.sumpFill die) s = .next t ∧ (t.dies[die]).sumpIrq = true ∧ t.blk = s.blk ∧
      (t.dies[die]).sump = (s.dies[die]).sump ++ l.map fun c =>
        ⟨c.2.2.2, c.2.1, c.2.2.1, false, s.time + (s.dies[die]).sumpdl.toNat * 1000 * 90⟩) ∧
    (¬low ∨ l = [] → exec (.sumpFill die) s = .next s)) ∧
  (∀ l : List Candidate, (candSort l).Perm l ∧ (candSort l).Pairwise fun x y => candLt y x = false) ∧
  (∀ (s : State) (d : Fin 8) (cx rgn : Nat) (e : MapEntry) (x : Candidate),
    x ∈ s.sumpCandidates d cx rgn e ↔ ∃ p, e.metaPages ≤ p ∧ p < e.npages ∧ s.pageTier e p = 0 ∧
    s.pageRef e p ≠ 0 ∧ s.pageRst e p = false ∧ s.pageSump e p = false ∧ x = (s.pageStamp e p, rgn, p, cx) ∧
    (cx, rgn, p, BitVec.ofNat 32 (s.pageStamp e p)) ∉ (s.dies[d]).vetoed) ∧
  (∀ (s : State) (die : Fin 8) (pos : Fin 16) (e : SumpEnt), (s.dies[die]).sump[pos.val]? = some e →
    (e.expiry ≤ s.time → exec (.sumpDeadline die pos) s =
      .next { s with dies := s.dies.set die { s.dies[die] with sump := (s.dies[die]).sump.set pos.val { e with cf := true } } }) ∧
    exec (.sumpcmdConfirm die pos) s =
      .next (sumpAnswered s die ((s.dies[die]).sump.set pos.val { e with cf := true })) ∧
    exec (.sumpcmdMoveHead die pos) s =
      .next (sumpAnswered s die (e :: (s.dies[die]).sump.eraseIdx pos.val)) ∧
    (∃ t, exec (.sumpcmdVeto die pos) s = .next t ∧ (t.dies[die]).sump = (s.dies[die]).sump.eraseIdx pos.val ∧
      (t.dies[die]).sumpIrq = false ∧ t.blk = s.blk)) ∧
  (∀ s die y pos e, ((s.dies[die]).sump.zipIdx.find? fun x => x.1.cf) = some (y, pos) →
    let t := s.modDie die fun x => { x with sump := x.sump.eraseIdx pos }
    let frame := t.pageFrame e y.page
    t.poolAt y.ctx y.rgn = some e →
    (t.dropsPage die y.ctx e y.page = true →
      exec (.sumpExecute die) s = .next (((fated t e y.page 2).freeFrame e frame).remarkMeta y.ctx y.rgn e)) ∧
    (∀ z w, t.dropsPage die y.ctx e y.page = false → t.tierOf y.ctx e = some z →
      asAgent die y.ctx (t.ctxPart y.ctx) (do
        moveGranule ⟨y.rgn, y.page, some (e.frame0 + 65536 * frame), z.phys (65536 * y.page), false⟩
        modS fun s => s.remark (z.base.toNat + 65536 * y.page) (z.phys (65536 * y.page))) (fated t e y.page 1) = .ok ((), w) →
      exec (.sumpExecute die) s = .next ((w.freeFrame e frame).remarkMeta y.ctx y.rgn e)))

/-- R29, R289 to R299: a pre-emption decision is made when its condition first holds and again 256 µs after the last; it drains
a victim that is nearly done, asks its blocks for checkpoints, discards them where KILL lets it, or drains it (log 41); a component
whose blocks have all come to stand is saved, each block in a frame of its own, and leaves its cores; one that has not in 100 µs, or
for which there are too few frames, runs on; a strand of an engine that its die lacks gathers its block, or traps 0x09, and a
gathered block moves to a free core of the other class. -/
def Obligations.PreemptionAndFerry : Prop :=
  (∀ s die v n, s.conflict die.val = some (v, n) →
    ((s.dies[die]).decided = none →
      exec (.preemptDecision die) s = .next (decidedAt (s.decide v n die.val) die (some s.time))) ∧
    (∀ t, (s.dies[die]).decided = some t → t + 256000 * 90 ≤ s.time →
      exec (.preemptRecheck die) s = .next (decidedAt (s.decide v n die.val) die (some s.time)))) ∧
  (∀ (s : State) (v n : Task) (x : Nat),
    (v.est.toNat ≤ 8000 * (16 - n.eff s.time) → s.decide v n x = s.drain v.key x n.key) ∧
    (8000 * (16 - n.eff s.time) < v.est.toNat → v.pkt.ckpt = false → v.pkt.kill = false →
      s.decide v n x = s.drain v.key x n.key) ∧
    (8000 * (16 - n.eff s.time) < v.est.toNat → v.pkt.ckpt = true →
      s.decide v n x = (s.takeBlocks v n x).foldl (fun s u => s.modBlock u (Block.askCkpt s.time)) s) ∧
    (8000 * (16 - n.eff s.time) < v.est.toNat → v.pkt.ckpt = false → v.pkt.kill = true →
      s.decide v n x = (s.takeBlocks v n x).foldl State.discardBlock s)) ∧
  (∀ (s : State) (u : Nat), (∀ b ∈ (s.discardBlock u).blocks, b.uid = u → b.placed = false) ∧
    (s.discardBlock u).tasks = s.tasks ∧ (s.discardBlock u).saved = s.saved) ∧
  (∀ s u b, s.blockAt u = some b → b.asked = true → s.mayCkpt b = true →
    ((s.matesOf b).length ≤ (s.freeFrames b.part).length → (∀ m ∈ s.matesOf b, s.standsFor m = true) →
      exec (.checkpointSave u) s = .next (s.saveAll (((s.matesOf b).map fun m => m.uid).zip (s.freeFrames b.part)))) ∧
    ((s.freeFrames b.part).length < (s.matesOf b).length → (∀ m ∈ s.matesOf b, s.standsFor m = true) →
      exec (.checkpointSave u) s = .next (s.ckptFails b)) ∧
    ((∃ m ∈ s.matesOf b, s.standsFor m = false) → exec (.checkpointSave u) s = .next s)) ∧
  (∀ s u b n r, s.blockAt u = some b → b.asked = true → s.mayCkpt b = true → s.matesOf b = [b] → s.standsFor b = true →
    s.freeFrames b.part = n :: r →
    ∃ t, exec (.checkpointSave u) s = .next t ∧ t.blk.placed = false ∧
      ∃ x ∈ t.saved, x.part = b.part ∧ x.frame = n ∧ x.block.task = b.task ∧ x.block.bidx = b.bidx) ∧
  (∀ s u b t0 k, s.blockAt u = some b → b.ckpt = .asked t0 → s.mayCkpt b = true → t0 + 100000 * 90 ≤ s.time →
    b.placed = true → (s.matesOf b).all s.standsFor = false → s.taskAt b.task = some k → k.pkt.kill = false →
    ∃ t, exec (.checkpointTimeout u) s = .next t ∧ (∀ y ∈ t.blocks, y.uid = u → y.placed = true → y.ckpt = .none) ∧
      t.mem = s.mem) ∧
  (∀ s u e, (s.blockAt u).isSome = true →
    let t := s.focus u
    t.live e = true → (t.str e).edge = none → (t.str e).mustFetch = true → hasEng t.blk.die e = false →
    t.blk.mayFetch e (t.str e).pc = true →
    (t.ferryDies t.blk (Eng.onS e) = [] → exec (.ferryTrigger u e) s = .next (t.raise e ⟨9, 0, 1, 0, none⟩)) ∧
    (t.ferryDies t.blk (Eng.onS e) ≠ [] → (t.blk.scratch.toNat + 80) * 1024 ≤ classSlice (Eng.onS e) →
      t.blk.ferry = .none → ∃ v, exec (.ferryTrigger u e) s = .next v ∧ v.blk.ferry = .gather e ∧
        (v.str e).wait = .ferry ∧ v.mem = t.mem ∧ v.blk.s = t.blk.s)) ∧
  (∀ s u b e y, s.blockAt u = some b → b.ferry = .gather e → b.asked = false →
    let t := s.focus u
    t.cx.st = 0 → t.gatheredAll = true → ((if Eng.onS e then [Eng.m] else [Eng.d, .g]).any t.blk.clings) = false →
    t.blk.copies = true → t.ferrySeat t.blk (Eng.onS e) = some y → t.blk.scout.buffering = false →
    ∃ v, exec (.ferryMove u) s = .next v ∧ v.blk.uid = t.blk.uid ∧ v.blk.die = Fin.ofNat 8 y.die ∧
      v.blk.core = y.core ∧ v.blk.slot = y.slot ∧ v.blk.ferry = .none ∧ v.blk.s = t.blk.s ∧ v.blk.a = t.blk.a ∧
      v.blk.v = t.blk.v ∧ v.blk.q = t.blk.q ∧ v.blk.flags = t.blk.flags)

/-- R278 to R282, R286, R301, R304: a strand of a stopping context whose engine is at rest writes its Cairn, in which its PC,
command address, failing address, AUX and cause stand; the watchdog stops a context with cause 0x60; a failed atomic response, to a
strand's atomic or to the last add of a command, traps 0x39, its old value in the home's error log; MAPCMD starts a commit, which
stores a map that passes its checks or is refused, and is not carried on for a fenced function; TLBINV drops the leaves it names.
That a command's failed response is one to its last add is the model's choice (log 28). -/
def Obligations.StopsAndMaps : Prop :=
  (∀ s u e, (s.blockAt u).isSome = true →
    let t := (s.focus u).modStr e fun st => if st.stop.isNone then st.settle (s.focus u).blk.forcing else st
    let r := (t.str e).stop.getD (lineStop (t.str e))
    t.cx.st = 1 → (t.str e).chain = true → r.written = [] → t.blk.lowerWritten e = true → t.blk.rerunning = false →
    t.blk.mustDiscard = false → t.quiet e = true → (Eng.queued e = false ∨ (t.blk.eng e).prog.all (t.atRest e) = true) →
    t.vfFenced (t.blk.ctx / 16) = false →
    ∃ v, exec (.strandStop u e) s = .next v ∧
      (v.str e).stop = some { r with written := (t.restEngine e).cairn e r }) ∧
  (∀ (s : State) (e : Eng) (r : StopRec), let l := s.cairn e r
    fieldN l 0 8 = r.pc.toNat ∧ fieldN l 8 8 = r.caddr.toNat ∧ fieldN l 16 8 = r.faddr.toNat ∧
    fieldN l 24 8 = r.aux.toNat ∧ fieldN l 36 1 = r.cause.toNat ∧ fieldN l 37 1 = r.sub.toNat ∧
    fieldN l 42 2 = r.cidx.toNat) ∧
  (∀ s u b, s.blockAt u = some b → (s.ctxAt b.ctx).st = 0 → b.ctx < 1024 →
    (s.wdSet (s.blocks.length + 1) (s.blocks.map fun b => b.uid)).contains u = true →
    ∃ t, exec (.watchdogTrip u) s = .next t ∧ (t.ctxAt b.ctx).st = 1 ∧ (t.ctxAt b.ctx).first = 0x60) ∧
  (∀ s u e w, (s.blockAt u).isSome = true →
    let t := s.focus u
    (t.str e).wait = .atomic w → (t.str e).stop = none →
    let r := t.logError e w.old w.addr w.home
    exec (.atomicResponseError u e) s = .next (r.2.takeTrap e ⟨0x39, 0, r.1, 0, none⟩)) ∧
  (∀ s u e c c1 w x, (s.blockAt u).isSome = true →
    let t := s.focus u
    (∀ w, (t.str e).wait ≠ .atomic w) → t.engLive e = true →
    ((t.blk.eng e).prog.find? fun c => c.op.adds && !c.stuck) = some c → unitOf e c t = .ok ((c1, true), w) → c1.adds = some x →
    t.blk.scout.mark = none →
    let r := w.logError e x.1 x.2.1 x.2.2
    (r.2.str e).stop = none → ∃ v y, exec (.atomicResponseError u e) s = .next v ∧ v.mem = w.mem ∧ (v.str e).stop = some y ∧
      y.cause = 0x39 ∧ y.aux = r.1 ∧ y.cidx = c1.idx) ∧
  (∀ (s : State) (f : Fin 64) (k : Fin 16) (val : Dword), s.vfFenced f.val = false →
    (s.ctxAt (16 * f.val + k.val)).mapst ≠ 1 →
    exec (.mapcmdGo f k val) s = .next (s.modCtx (16 * f.val + k.val) fun c =>
      { c with mapn := BitVec.ofNat 10 (val.toNat / 16), mappm1 := Fin.ofNat 16 val.toNat, mapst := 1, mapcode := 0,
               mapentry := 0 })) ∧
  (∀ (s : State) (f : Fin 64) (k : Fin 16), let cx := 16 * f.val + k.val
    let c := s.ctxAt cx
    let n := c.mapn.toNat
    let p := c.mappm1.val + 1
    let w := s.hub.partdies[Fin.ofNat 32 (s.ctxPart cx)]
    (s.vfFenced f.val = true → exec (.mapCommitDone f k) s = .next s) ∧
    (s.vfFenced f.val = false → c.mapst = 1 → ∀ raw bad t,
    asHub cx (readStore (c.mapbase.toNat / 128 * 128) (if 512 < n then 0 else n * p) 0) s = .ok ((raw, bad), t) →
    (∀ i, bad = some i → exec (.mapCommitDone f k) s = .next (t.modCtx cx fun c =>
      { c with mapst := 3, mapcode := 1, mapentry := BitVec.ofNat 32 i })) ∧
    (∀ code i, bad = none → t.mapRefusal cx n p w raw = some (code, i) →
      exec (.mapCommitDone f k) s = .next (t.modCtx cx fun c =>
        { c with mapst := 3, mapcode := Fin.ofNat 64 code, mapentry := BitVec.ofNat 32 i })) ∧
    (bad = none → t.mapRefusal cx n p w raw = none → c.valid = true →
      ∃ v, exec (.mapCommitDone f k) s = .next v ∧ (v.ctxAt cx).mapst = 2 ∧ (v.ctxAt cx).mapcode = 0 ∧
        (v.ctxAt cx).store = raw.map mapEntryOf ∧ (v.ctxAt cx).phases = p ∧ (v.ctxAt cx).regions = n ∧
        (n ≤ c.regions → v.mem = t.mem)))) ∧
  (∀ (s : State) (f : Fin 64) (val : Dword), s.vfFenced f.val = false → (s.vfs[f]).tlbgo = false →
    exec (.tlbinvGo f val) s = .next (s.modVf f.val fun v =>
      { v with tlbctx := Fin.ofNat 16 (val.toNat / 2 ^ 59), tlbva := BitVec.ofNat 64 (val.toNat % 2 ^ 57 / 2 ^ 12 * 2 ^ 12),
               tlbnum := BitVec.ofNat 12 (val.toNat % 2 ^ 12), tlbgo := true })) ∧
  (∀ (s : State) (f : Fin 64), (s.vfs[f]).tlbgo = true →
    ∃ t, exec (.tlbinvDone f) s = .next t ∧ (t.vfs[f]).tlbgo = false ∧ t.mem = s.mem ∧ t.blk = s.blk ∧
      ∀ d : Fin 8, (t.dies[d]).tlb = (s.dies[d]).tlb.filter fun x =>
        !x.inRange (16 * f.val + (s.vfs[f]).tlbctx.val) (s.vfs[f]).tlbva.toNat (s.vfs[f]).tlbnum.toNat)

namespace Sys2Proof.Claims

open Sys2Proof Sys2Proof.Machine

/-! ## The machine as a whole -/

/-- The agent whose turn it is, with nothing due in the Timetable before: strand `e`, in the state `t` once the turn's time has
passed and its block has focus. -/
def TurnAt (s : State) (e : Eng) (t : State) : Prop :=
  s.timetable s.nextDt = none ∧
    ((s.agenda = [] ∧ e = s.eng ∧ t = s.pass (acUnits s.blk.die)) ∨
      (∃ dt u r, s.agenda = ⟨dt, .strand u e⟩ :: r ∧ t = { s.pass dt with agenda := r }.focus u))

/-- The same where the block's tables stand loaded, once its waits that have ended are over (R30, R90). -/
def TurnOf (s : State) (e : Eng) (t : State) : Prop :=
  ∃ u, TurnAt s e u ∧ u.loadsTables = false ∧ t = u.ready

/-- Word `k` of the line, with the word behind it, is a well-formed instruction of engine `e` that the line holds whole. -/
def Holds (e : Eng) (l : LineBuf) (k : Nat) (i : Instr) : Prop :=
  k ≠ 0 ∧ k ≤ linkCount (l.words[0]) ∧ selector (l.word k) ≠ 2 ∧
    (selector (l.word k) = 3 → k < linkCount (l.words[0])) ∧ decodeStep e (l.word k) (l.word (k + 1)) = .ok i ∧
    i.wf = true

/-- Strand `e` with a line just fetched, where no gather, checkpoint or forced loop stops it there. -/
def withLine (s : State) (e : Eng) (l : LineBuf) : State :=
  s.modStr e fun st => { st with line := some l, entering := false, wait := .run,
                                 fpLine := if linkFp (l.words[0]) then l.addr else st.fpLine }

/-- Operands of an instruction under a false predicate. -/
abbrev Skips := Eng × Nat × Pred × List Opd × List Opd

/-- The c and a strands' arithmetic, moves and comparisons: engine, words, predicate, sources in their order, destinations. -/
def skipsArith (i : Instr) : Option Skips :=
  let r := fun (e : Eng) (x : RArgs) => (e, 1, x.pred, [x.a, x.b], [x.d])
  let k := fun (e : Eng) (x : KArgs) => (e, 1, x.pred, [x.a], [x.d])
  let u := fun (e : Eng) (x : UArgs) => (e, 1, x.pred, [x.a], [x.d])
  ((cPlain i).map fun y => r .c y.1) <|> ((cExact i).map fun y => r .c y.1) <|> ((cMerge i).map fun y => r .c y.1) <|>
    ((cFloat2 i).map fun y => r .c y.1) <|> ((aPlain i).map fun y => r .a y.1) <|> ((cPlainK i).map fun y => k .c y.1) <|>
    ((cExactK i).map fun y => k .c y.1) <|> ((aPlainK i).map fun y => k .a y.1) <|> ((cUnary i).map fun y => u .c y.1) <|>
    ((compares i).map fun y => (y.1, 1, y.2.1.pred, [y.2.1.a, y.2.1.b], [])) <|>
    ((comparesK i).map fun y => (y.1, 1, y.2.pred, [y.2.a], [])) <|> ((predOps i).map fun y => (.c, 1, y.1, [], [])) <|>
    match i with
    | .cFma x => some (r .c x)
    | .cFcvt x => some (.c, 1, x.pred, [x.a], [x.d])
    | .aMov x => some (u .a x)
    | .cLi x => some (.c, 2, x.pred, [], [x.d])
    | .aLi x => some (.a, 2, x.pred, [], [x.d])
    | _ => none

/-- The rest of the c strand's instructions, but for branches, `tkset`, `sgret` and `accept`. -/
def skipsC (i : Instr) : Option Skips :=
  let l := fun (e : Eng) (n : Nat) (p : Pred) (src dst : List Opd) => some (e, n, p, src, dst)
  let c := l .c 1
  ((loads i).map fun y => (.c, y.1, y.2.2.1, [], [y.2.2.2.1])) <|> ((stores i).map fun y => (.c, y.1, y.2.2.1, [y.2.2.2.1], [])) <|>
    ((labels i).map fun y => (y.1, 2, y.2.pred, [], [])) <|> ((launches i).map fun y => (.c, 1, y.1.pred, [y.1.a], [y.1.d])) <|>
    match i with
    | .cPtgt x => c x.pred [x.a] []
    | .cFence x => c x.pred [] []
    | .cTkwait x => c x.pred [] []
    | .cTkwaitTimeout x => l .c 2 x.pred [] []
    | .cTkclr x => c x.pred [] []
    | .cGset x => c x.pred [] []
    | .cGbar x => c x.pred [x.a] []
    | .cCsrr x => c x.pred [] [x.d]
    | .cCsrw x => c x.pred [x.b] []
    | .cRclaim x => c x.pred (countPorts x.n) [x.d]
    | .cRpub x => c x.pred (countPorts x.n) []
    | .cRwait x => c x.pred (countPorts x.n) []
    | .cRfree x => c x.pred (countPorts x.n) []
    | .cRrel x => c x.pred (countPorts x.n) []
    | .cRpopn x => c x.pred [x.a, x.b] [x.d]
    | .cTrap x => c x.pred [x.a] []
    | .cHalt x => c x.pred [] []
    | .cNop x => c x.pred [] []
    | .cProg x => c x.pred [x.a] []
    | .cPhadv x => c x.pred [] []
    | .cPhadvLate x => c x.pred [] []
    | .cPhset x => c x.pred [x.a] []
    | .cPhwait x => c x.pred [] []
    | .cScommit x => c x.pred [] []
    | .cSclose x => c x.pred [] []
    | .cCtwr x => c x.pred [x.a] []
    | .cCtswap x => c x.pred [] []
    | .cLoop x => l .c 2 x.pred [x.a] []
    | .cAmo x => l .c 2 x.pred [] []
    | .cScout x => l .c 2 x.pred [x.a] []
    | _ => none

/-- The queue of an exponent operand. -/
def expPorts : EVal → List Opd
  | .imm _ => []
  | .q n => [.port (.q n)]

/-- What the a, m, d and g strands execute themselves. -/
def skipsEng : Instr → Option Skips
  | .aSbind x => some (.a, 1, x.pred, [x.a], [])
  | .aSset x => some (.a, 1, x.pred, [x.a], [])
  | .aSsetImm x => some (.a, 2, x.pred, [], [])
  | .aNset x => some (.a, 1, x.pred, [], [])
  | .aNsetWide x => some (.a, 2, x.pred, [], [])
  | .aNgo x => some (.a, 1, x.pred, [], [])
  | .aNwait x => some (.a, 1, x.pred, [], [])
  | .aLoop x => some (.a, 2, x.pred, [x.a], [])
  | .mMclr x => some (.m, 1, x.pred, expPorts x.e, [])
  | .mMstat x => some (.m, 1, x.pred, [], [.port (.q x.q)])
  | .mBret x => some (.m, 1, x.pred, [], [])
  | .dDclr x => some (.d, 1, x.pred, expPorts x.e, [])
  | .dBret x => some (.d, 1, x.pred, [], [])
  | .gGcfg x => some (.g, 1, x.pred, [.port (.q x.q)], [])
  | _ => none

/-- The v strand's instructions, but for `jt` and `vunpk.keep`; the mask of a comparison and the target of a vote are written by none. -/
def skipsV (s : State) (i : Instr) : Option Skips :=
  let l := fun (m : State → VForm) (p : Pred) (src dst : List Opd) => (Eng.v, (m s).words, p, src, dst)
  ((vInt2 i).map fun y => l y.1 y.2.1.pred [y.2.1.a, y.2.1.b] [y.2.1.d]) <|>
    ((vInt3 i).map fun y => l y.1 y.2.1.pred [y.2.1.a, y.2.1.b] [y.2.1.d]) <|>
    ((vInt1 i).map fun y => l y.1 y.2.1.pred [y.2.1.a] [y.2.1.d]) <|>
    ((vFlt2 i).map fun y => l y.1 y.2.1.pred [y.2.1.a, y.2.1.b] [y.2.1.d]) <|>
    ((vFlt3 i).map fun y => l y.1 y.2.1.pred [y.2.1.a, y.2.1.b] [y.2.1.d]) <|>
    ((vFlt1 i).map fun y => l y.1 y.2.1.pred [y.2.1.a] [y.2.1.d]) <|>
    ((vCompares i).map fun y => l y.1 y.2.1.pred [y.2.1.a, y.2.1.b] []) <|>
    ((vSels i).map fun y => l y.1 y.2.pred [y.2.a] [y.2.d]) <|> ((vReds i).map fun y => l y.1 y.2.pred [y.2.a] [y.2.d]) <|>
    ((vScans i).map fun y => l y.1 y.2.pred [y.2.a] [y.2.d]) <|>
    ((vPerms i).map fun y => l y.1 y.2.pred [y.2.a, y.2.b] [y.2.d]) <|>
    ((vBcasts i).map fun y => l y.1 y.2.pred [y.2.a] [y.2.d]) <|> ((vIotas i).map fun y => l y.1 y.2.pred [] [y.2.d]) <|>
    ((vExts i).map fun y => l y.1 y.2.pred [y.2.a] [y.2.d]) <|> ((votes i).map fun y => (.v, 1, y.1.pred, [], [])) <|>
    ((vPacks i).map fun y => l y.1 y.2.1.pred [y.2.1.a, y.2.1.b] [y.2.1.d]) <|>
    ((vUnpacks i).bind fun y => if y.2.1.keep then none else some (l y.1 y.2.1.pred [y.2.1.a] [y.2.1.d])) <|>
    ((vMems i).map fun y =>
      let src := y.2.2.2.2.1 :: y.2.2.2.2.2.1.toList
      if y.1 then l y.2.1 y.2.2.1 (src ++ [y.2.2.2.1]) [] else l y.2.1 y.2.2.1 src [y.2.2.2.1]) <|>
    ((vAmos i).map fun y => l y.1 y.2.1.pred [y.2.1.a, y.2.1.b] [y.2.1.d]) <|>
    match i with
    | .vBlend x => some (.v, 1, x.pred, [], [])
    | .vLoop x => some (.v, 2, x.pred, [x.a], [])
    | _ => none

/-- What a source does under a false predicate: a queue gives up its head, and a stream its next vector, unread (R39). -/
def Drops (e : Eng) (o : Opd) (s t : State) : Prop :=
  match o with
  | .reg _ => t = s
  | .port (.q n) => ∃ v r, s.blk.q[n] = v :: r ∧ t = popped s n r
  | .port (.vq n) => ∃ v r, s.blk.vq[n] = v :: r ∧ t = poppedV s n r
  | .port (.g n) =>
    let x := s.blk.streams[n]
    s.toCome .a (aSets n.val) (s.str e).pc.toNat = false ∧ x.filled ≠ 0 ∧ x.rrsv = x.rd ∧
      t = withStream s n { x with rd := x.rd + 1, rrsv := x.rrsv + 1 }

/-- What a destination does: a queue gets a zero entry; a register and a stream nothing (R39). -/
def PutsZero (e : Eng) (o : Opd) (s t : State) : Prop :=
  match o with
  | .reg _ => t = s
  | .port (.q n) => Puts e (.port (.q n)) s 0 t
  | .port (.vq n) => FirstPush e (.port (.vq n)) s ∧ (s.blk.vq[n]).length + s.blk.inflightTo (.port (.vq n)) < 4 ∧
      t = { s with blk := s.blk.pushVq n vzero }
  | .port (.g _) => t = s

/-- A relation of states along a list of operands. -/
def Along (f : Opd → State → State → Prop) : List Opd → State → State → Prop
  | [], s, t => t = s
  | o :: r, s, t => ∃ u, f o s u ∧ Along f r u t

/-- The queue that holds a command's count (R211). -/
def countOf : CmdOp → Option (Fin 16)
  | .mma x _ => if x.o3.val < 16 then none else some (Fin.ofNat 16 (x.o3.val - 16))
  | .mmas x _ => if x.o3.val < 16 then none else some (Fin.ofNat 16 (x.o3.val - 16))
  | _ => none

/-- A flag after a setter that completes at once. -/
def vacuous (f : Flag) : Flag := { f with p := f.p + 1 }

/-- The flag that an attribute entry names after a setter that completes at once. -/
def vacuousOf (w : Word) (s : State) : State :=
  if w.toNat / 2 ^ 16 % 2 = 1 then
    let n := Fin.ofNat 64 (w.toNat / 2 ^ 10)
    withFlag s n (vacuous s.blk.flags[n])
  else s

/-- The instructions that may not stand in a delay slot (R114). -/
def slotBarred : Instr → Option Eng
  | .cJt _ => some .c
  | .cJtl _ => some .c
  | .aJt _ => some .a
  | .vJt _ => some .v
  | .cLoop _ => some .c
  | .aLoop _ => some .a
  | .vLoop _ => some .v
  | .cHalt _ => some .c
  | .cTrap _ => some .c
  | .aNgo _ => some .a
  | .cScout _ => some .c
  | .cSgret _ => some .c
  | .cScommit _ => some .c
  | .cSclose _ => some .c
  | _ => none

end Sys2Proof.Claims

open Sys2Proof Sys2Proof.Machine Sys2Proof.Claims

/-- R84, R86 to R103: every well-formed instruction is encoded in its words, from which its engine's decoder reads it back
with every operand, whatever stands behind a one-word form; and a word or pair that decodes to a well-formed instruction is
the one that encodes it. -/
def Obligations.EncodeDecode : Prop :=
  (∀ (i : Instr) (e : Eng), i.eng = some e → i.wf = true →
    (i.words = 1 → ∃ w, encode i = [w] ∧ ∀ x, decodeStep e w x = .ok i) ∧
    (i.words = 2 → ∃ w x, encode i = [w, x] ∧ decodeStep e w x = .ok i) ∧ (i.words = 1 ∨ i.words = 2)) ∧
  (∀ (e : Eng) (w x : Word) (i : Instr), decodeStep e w x = .ok i → i.wf = true →
    i.eng = some e ∧ encode i = if i.words = 2 then [w, x] else [w])

/-- R86, R87: words written out field by field decode to the instructions they stand for: `c.add` q14, s52, s7 under p3;
`c.li` s5; `a.sub` a12, a22, q3; `v.vmul` v56, g5, v25; `m.bret` of bank 4 under a negated p2; and `pfxo`. -/
def Obligations.DecodeWords : Prop :=
  decodeStep .c (BitVec.ofNat 32 (1 * 2 ^ 30 + 7 * 2 ^ 24 + 52 * 2 ^ 18 + 30 * 2 ^ 12 + 3 * 2 ^ 8 + 0 * 2 ^ 2 + 0)) 0 =
    .ok (.cAdd ⟨⟨false, 3⟩, .port (.q 14), .reg 52, .reg 7⟩) ∧
  decodeStep .c (BitVec.ofNat 32 (5 * 2 ^ 12 + 0 * 2 ^ 2 + 3)) 0xFFFFFFFE =
    .ok (.cLi ⟨⟨false, 0⟩, .reg 5, 0xFFFFFFFE⟩) ∧
  decodeStep .a (BitVec.ofNat 32 (3 * 2 ^ 30 + 19 * 2 ^ 24 + 22 * 2 ^ 18 + 12 * 2 ^ 12 + 6 * 2 ^ 8 + 1 * 2 ^ 2 + 0)) 0 =
    .ok (.aSub ⟨⟨false, 6⟩, .reg 12, .reg 22, .port (.q 3)⟩) ∧
  decodeStep .v (BitVec.ofNat 32 (2 * 2 ^ 30 + 25 * 2 ^ 24 + 5 * 2 ^ 18 + 56 * 2 ^ 12 + 4 * 2 ^ 8 + 2 * 2 ^ 2 + 0)) 0 =
    .ok (.vVmul ⟨⟨false, 4⟩, .reg 56, .port (.g 5), .reg 25⟩) ∧
  decodeStep .m (BitVec.ofNat 32 (4 * 2 ^ 12 + 1 * 2 ^ 11 + 2 * 2 ^ 8 + 2 * 2 ^ 2 + 0)) 0 = .ok (.mBret ⟨⟨true, 2⟩, 4⟩) ∧
  decodeStep .c (BitVec.ofNat 32 (2 * 2 ^ 6 + 1 * 2 ^ 4 + 1 * 2 ^ 2 + 2)) 0 = .ok (.pfxo .c ⟨true, false, .grp⟩)

/-- R30, R81 to R85, R90, R92, R93, R277, R314: a strand's turn runs the instruction at its pc, from the line it holds or from
the sixty-four bytes in memory that it fetches; a prefix executes first, in the same turn; an encoding that no instruction
has traps 0x01 and a reserved one 0x02; a strand that has finished or stopped, or whose context does not run, does
nothing. A block whose tables are still to be loaded loads them in that turn. That before it waits that have ended are over, and nothing
else changes, is the model's reading of R30 (log 17). -/
def Sys2Proof.Claims.StrandTurns : Prop :=
  (∀ (s : State) (e : Eng) (t : State), TurnAt s e t → t.loadsTables = true → step s = .next t.startBlock) ∧
  (∀ s : State, ∃ l b, s.ready = { s with blk := { s.blk with strands := l, stood := b } } ∧
    ∀ e, ∃ w, l[engIdx e] = { s.str e with wait := w }) ∧
  (∀ (s : State) (e : Eng) (t : State) (l : LineBuf) (i : Instr), TurnOf s e t → Active t e →
    (t.str e).edge = none → (t.str e).entering = false →
    (t.str e).line = some l → Holds e l (wordOf (t.str e).pc) i → step s = exec i t) ∧
  (∀ (s : State) (e : Eng) (t : State) (l : LineBuf) (p i : Instr), TurnOf s e t → Active t e →
    (t.str e).edge = none → (t.str e).entering = false →
    (t.str e).line = some l →
    let k := wordOf (t.str e).pc
    k ≠ 0 → selector (l.word k) = 2 → decodeStep e (l.word k) (l.word (k + 1)) = .ok p → p.wf = true →
    Holds e l (k + 1) i → Instr.accepts p i = true →
    ∃ u, exec p t = .next u ∧ step s = exec i u) ∧
  (∀ (s : State) (e : Eng) (t : State) (bs : List Byte) (t1 : State) (i : Instr), TurnOf s e t → Active t e → (t.str e).edge = none →
    ((t.str e).entering = true ∨ (t.str e).line = none) → t.blk.mayFetch e (t.str e).pc = true →
    hasEng t.blk.die e = true → readVirt false (lineOf (t.str e).pc).toNat 64 t = .ok (bs, t1) →
    let l := lineOfBytes (lineOf (t.str e).pc) bs
    linkFault e (l.words[0]) = none → t1.blk.gathering = false → (t1.str e).again = false →
    Holds e l (wordOf (t.str e).pc) i → step s = exec i (withLine t1 e l)) ∧
  (∀ (s : State) (e : Eng) (t : State) (l : LineBuf), TurnOf s e t → Active t e →
    (t.str e).edge = none → (t.str e).entering = false →
    (t.str e).line = some l →
    let k := wordOf (t.str e).pc
    k ≠ 0 → k ≤ linkCount (l.words[0]) → selector (l.word k) < 2 →
    (decodeStep e (l.word k) (l.word (k + 1)) = .illegal → step s = .next (t.raise e ⟨0x01, 0, 0, 0, none⟩)) ∧
    (decodeStep e (l.word k) (l.word (k + 1)) = .reserved → step s = .next (t.raise e ⟨0x02, 0, 0, 0, none⟩))) ∧
  (∀ (s : State) (e : Eng) (t : State), TurnOf s e t →
    ((t.str e).finished = true ∨ (t.str e).stop.isSome = true ∨ t.cx.st ≠ 0 ∨ t.blk.placed = false) → step s = .next t)

/-- The other turns of the agenda are an event's meaning, a read of a register window, a read of memory or of a core's registers by
the firmware (R319, R325), and an error of a stored unit, once their time has passed (the model's, log 1); what the Timetable has
due before the next turn comes first, at its own time (R171). -/
def Sys2Proof.Claims.EventTurns : Prop :=
  (∀ (s : State) (dt : Nat) (a : Act) (r : List Turn), s.timetable s.nextDt = none → s.agenda = ⟨dt, a⟩ :: r →
    let t : State := { s.pass dt with agenda := r }
    (∀ i, a = .event i → i.eng = none → step s = exec i t.readyAll) ∧
    (∀ i, a = .event i → i.eng ≠ none → step s = .next t) ∧
    (∀ w off, a = .busRead w off → step s = .next { t with bus := leBytes 8 (t.readReg w off) }) ∧
    (∀ p n, a = .hubRead p n → ∃ bs k, step s = .next { t with bus := bs, free := k }) ∧
    (∀ d c, a = .hubRegs d c → ∃ bs, step s = .next { t with bus := bs } ∧
      (t.hubMayRead d (c / quadCores d) = false → bs = []) ∧
      ∀ b, t.hubMayRead d (c / quadCores d) = true → (t.blocks.find? fun b => b.placed && b.die == d && b.core == c) = some b →
        bs = b.regBytes) ∧
    (∀ u, a = .upset u true → isDram (64 * u) = true → t.poison.contains u = false →
      ∃ v, step s = .next v ∧ v.poison = u :: t.poison ∧ v.mem = t.mem ∧ v.blk = t.blk)) ∧
  (∀ s x, s.timetable s.nextDt = some x →
    step s = exec (if x.ready then .ldtVectorReady x.uid x.idx else .ldtCutoff x.uid x.idx)
      (s.elapse (x.at_ - s.time)).readyAll) ∧
  (∀ s : State, s.readyAll.mem = s.mem ∧ s.readyAll.ctxs = s.ctxs ∧ s.readyAll.dies = s.dies ∧ s.readyAll.tasks = s.tasks ∧
    s.readyAll.time = s.time ∧ s.readyAll.agenda = s.agenda)

/-- The canonical form of memory is kept by every step: addresses rise strictly, and no cell holds what an unlisted byte
reads as. -/
def Obligations.StepKeepsMemory : Prop := ∀ s t, Mem.wf s.mem = true → step s = .next t → Mem.wf t.mem = true

/-- R16, R32, R34, R38, R275, R284, R306, R312, R318, R324: after reset no block is placed, no task or context exists, no partition
holds a quad and no function a partition, TDIs are unlocked (the model's reading of R324, log 6), EVCFG and ACTTH and SUMPDL and
LATELIM stand at their values, and memory has its canonical form. -/
def Obligations.ResetState : Prop :=
  Mem.wf State.reset.mem = true ∧ State.reset.blk.placed = false ∧ State.reset.others = [] ∧ State.reset.tasks = [] ∧
  State.reset.waiting = [] ∧ State.reset.saved = [] ∧
  (∀ c : Fin 1024, (State.reset.ctxs[c]).valid = false ∧ (State.reset.ctxs[c]).latelim = 100) ∧
  (∀ p : Fin 32, State.reset.hub.partdies[p] = 0 ∧ State.reset.hub.dbgen[p] = 0) ∧
  (∀ f : Fin 64, State.reset.hub.vfpart[f] = 0 ∧ (State.reset.vfs[f]).tdi = .unlocked ∧
    (State.reset.vfs[f]).even = false ∧ (State.reset.vfs[f]).evlog = 6) ∧
  (∀ d : Fin 8, (State.reset.dies[d]).actth = 4096 ∧ (State.reset.dies[d]).sumpdl = 50 ∧ (State.reset.dies[d]).sump = []) ∧
  (∀ i : Fin 320, (State.reset.cores[i]).fenced = false) ∧ ∀ i : Fin 50, (State.reset.links[i]).fenced = false

/-- R115, R139, R244, R277, R280, R287, R288: taking a trap. Outside a round, or for cause 0x28, the strand stops with the cause,
the instruction's address as PC and CADDR, the failing address and AUX; its context begins to stop with that cause as FIRST, where
it ran or stopped without one, and a change whose freeze has not begun is abandoned; nothing else changes, but for a back-edge
decision of the strand that was pending. After trap 0x50 the PC is
the next instruction, which a pending back-edge decision gives. In a parallel round the round is discarded instead. Every trap of
an instruction but `trap` and `rpopn` is precise: it leaves the state that taking it leaves, with no other effect; `trap` leaves
its own address as CADDR and its operand's low 32 bits as AUX. -/
def Obligations.TrapTaken : Prop :=
  (∀ (s : State) (e : Eng) (x : TrapInfo), (s.str e).stop = none → (s.blk.scout.parallel = false ∨ x.cause = 0x28) → x.cause < 256 →
    x.sub < 256 →
    let t := s.raise e x
    let here := x.pc.getD (s.str e).pc
    (t.str e).stop = some ⟨BitVec.ofNat 8 x.cause, if x.cause = 0x50 then s.nextPc e else here, here, x.faddr, x.aux,
      BitVec.ofNat 8 x.sub, 0, true, []⟩ ∧
    t = { s with blk := t.blk, ctxs := t.ctxs } ∧ t.blk = { s.blk with strands := t.blk.strands } ∧
    (∀ o, o ≠ e → t.str o = s.str o) ∧ (∀ k, k ≠ Fin.ofNat 1024 s.blk.ctx → t.ctxs[k] = s.ctxs[k]) ∧
    ((s.str e).edge = none → t.str e = { s.str e with stop := (t.str e).stop, pfx := .none }) ∧
    (s.cx.st = 0 → t.cx.st = 1 ∧ t.cx.first = BitVec.ofNat 8 x.cause ∧ t.cx.change = s.cx.change.filter fun h => !h.pending) ∧
    (s.cx.st = 1 → s.cx.first = 0 → t.cx = { s.cx with first := BitVec.ofNat 8 x.cause }) ∧
    (s.cx.st ≠ 0 → (s.cx.st ≠ 1 ∨ s.cx.first ≠ 0) → t.ctxs = s.ctxs)) ∧
  (∀ (s : State) (e : Eng), ((s.str e).edge = none → s.nextPc e = (s.str e).pc) ∧
    ∀ a ended b st, (s.str e).edge = some (a, ended) →
      edgeDecision s.blk.forcing a (s.str e) (s.str e).arms = (st, some b) → s.nextPc e = b) ∧
  (∀ (s : State) (e : Eng) (x : TrapInfo), s.blk.scout.parallel = true → x.cause ≠ 0x28 →
    s.raise e x = { s with blk := { s.blk with scout := { s.blk.scout with round := .rerun true } } }) ∧
  (∀ (i : Instr) (s : State) (e : Eng) (t : State), i.eng = some e → (∀ x, i ≠ .cTrap x) → (∀ x, i ≠ .cRpopn x) →
    (s.str e).stop = none → exec i s = .next t → (t.str e).stop ≠ none → ∃ x, t = s.takeTrap e x) ∧
  (∀ (s : State) (x : SrcArgs) (a : Dword) (s1 : State), s.inSlot .c = false → (s.str .c).holds x.pred = true →
    (s.str .c).stop = none → s.blk.scout.parallel = false → Takes .c x.a s a s1 →
    ∃ t, exec (.cTrap x) s = .next t ∧ (t.str .c).stop = some ⟨0x50, (((ordered .c [x.a] [] s1).complete .c 1 .go).nextPc .c),
      (s.str .c).pc, 0, (a.setWidth 32).setWidth 64, 0, 0, true, []⟩)

/-- R30, R32, R104, R259: an instruction that blocks or stalls, for a bank's return, a freeze or a forwarding mark among others, has
no effect: it only waits, and its prefix with it is issued again; a stall on a mark sets STATUS.LATE. That what it would have popped
stays in its queue is the model's reading (log 45). -/
def Sys2Proof.Claims.WaitingHasNoEffect : Prop :=
  ∀ (i : Instr) (s : State) (e : Eng) (t : State), i.eng = some e → (s.str e).wait = .run → exec i s = .next t →
    let waiting := fun w : Wait => s.modStr e fun st => { st with wait := w, pfx := .none, since := s.time }
    (∀ w, (t.str e).wait = w → (w = .blocked ∨ w = .stalled ∨ w = .freeze ∨ ∃ k, w = .bret k) → t = waiting w) ∧
    (∀ n va, (t.str e).wait = .mark n va → n = s.time ∧
      t = { waiting (.mark n va) with blk := (waiting (.mark n va)).blk.setSt stLATE })

/-- R39, R85, R88, R114, R135, R137: an instruction whose predicate is false pops its source queues and its streams' next vectors and
pushes a zero entry into its destination queues, and has no other effect. A branch keeps its two delay slots; a command and `tkset`
issue a vacuous setter of their flag, which traps 0x34 at its bound; `vunpk.keep` leaves its vector in the stream; `sgret` pushes the
zero entries that it would push, and `accept` pops those that it would pop (log 40). An instruction that may not stand in a delay slot traps
0x01 there, whatever its predicate. -/
def Sys2Proof.Claims.FalsePredicate : Prop :=
  (∀ i s e n p src dst t u, (skipsArith i <|> skipsC i <|> skipsEng i <|> skipsV s i) = some (e, n, p, src, dst) →
    (slotBarred i = some e → s.inSlot e = false) → (s.str e).holds p = false →
    Along (Drops e) src s t → Along (PutsZero e) dst t u → exec i s = .next (u.complete e n .go)) ∧
  (∀ i s e x, jumps i = some (e, x) → s.inSlot e = false → (s.str e).holds x.pred = false →
    exec i s = .next (s.complete e 1 (.slots none))) ∧
  (∀ s x t, s.inSlot .c = false → (s.str .c).holds x.pred = false → PutsZero .c x.d s t →
    exec (.cJtl x) s = .next (t.complete .c 1 (.slots none))) ∧
  (∀ s x, (s.str .c).holds x.pred = false →
    ((s.blk.flags[x.f]).p.toNat ≠ 2 ^ 32 - 1 →
      exec (.cTkset x) s = .next ((withFlag s x.f (vacuous s.blk.flags[x.f])).complete .c 1 .go)) ∧
    ((s.blk.flags[x.f]).p.toNat = 2 ^ 32 - 1 → exec (.cTkset x) s = .next (traps .c 0x34 s))) ∧
  (∀ i s e n p attr op regs t, commands i = some (e, n, p, attr, op, regs) → (s.str e).holds p = false →
    let w := s.blk.attr e attr
    attrBad w = false → Along (Drops e) ((countOf op).toList.map fun q => .port (.q q)) s t →
    (w.toNat / 2 ^ 16 % 2 = 1 → (t.blk.flags[Fin.ofNat 64 (w.toNat / 2 ^ 10)]).p.toNat ≠ 2 ^ 32 - 1) →
    exec i s = .next ((vacuousOf w t).complete e n .go)) ∧
  (∀ i s m x f h n t, vUnpacks i = some (m, x, f, h) → x.keep = true → x.a = .port (.g n) → (s.str .v).holds x.pred = false →
    s.toCome .a (aSets n.val) (s.str .v).pc.toNat = false → (s.blk.streams[n]).filled ≠ 0 →
    (s.blk.streams[n]).rrsv = (s.blk.streams[n]).rd → PutsZero .v x.d s t →
    exec i s = .next (t.complete .v (m s).words .go)) ∧
  (∀ s x, s.inSlot .c = false → (s.str .c).holds x.pred = false →
    ((∀ r, s.blk.scout.round ≠ .guess r) → exec (.cSgret x) s = .next (s.complete .c 1 .go)) ∧
    (∀ r, s.blk.scout.round = .guess r →
      let q := s.blk.scout.cin
      (s.blk.vq[q]).length + s.blk.inflightTo (.port (.vq q)) + s.blk.scout.carries ≤ 4 →
      let b := (List.replicate s.blk.scout.carries vzero).foldl (fun b v => b.pushVq q v) s.blk
      exec (.cSgret x) s = .next (State.complete { s with blk := b } .c 1 .go))) ∧
  (∀ s x t u, (s.str .c).holds x.pred = false →
    Along (Drops .c) (if s.blk.scout.round = .closed then [] else
      List.replicate s.blk.scout.carries (.port (.vq s.blk.scout.cout))) s t → PutsZero .c x.d t u →
    exec (.cAccept x) s = .next (u.complete .c 1 .go)) ∧
  (∀ (i : Instr) (s : State) (e : Eng), slotBarred i = some e → (s.str e).slots ≠ 0 →
    exec i s = .next (s.raise e ⟨0x01, 0, 0, 0, none⟩))

namespace Sys2Proof.Claims

open Sys2Proof Sys2Proof.Machine

/-! ## Three rules of the c strand whole -/

/-- A word of format R in P0: its major, PS, predicate, D, A and B, each at the place R86 gives it. -/
def wordR (op ps : Nat) (p : Pred) (d a b : Nat) : Word :=
  BitVec.ofNat 32 (ps * 2 ^ 30 + b * 2 ^ 24 + a * 2 ^ 18 + d * 2 ^ 12 + (if p.n then 2 ^ 11 else 0) + p.p.val * 2 ^ 8 +
    op * 2 ^ 2)

/-- Whether an fp32 code is a NaN. -/
def isNan32 (c : Nat) : Bool := decide (0x7F800000 < c % 2 ^ 31)

/-- The place of an fp32 code that is no NaN among the numbers, both zeros at 0: its magnitude's bits, under its sign; a
subnormal is a zero under flush-to-zero. -/
def key32 (ftz : Bool) (c : Nat) : Int :=
  let m : Nat := if ftz && decide (c % 2 ^ 31 < 2 ^ 23) then 0 else c % 2 ^ 31
  if c / 2 ^ 31 % 2 = 1 then -(m : Int) else m

/-- R112's relations of two fp32 codes. -/
def rel32 (ftz : Bool) (r : Rel) (x y : Nat) : Bool :=
  if isNan32 x || isNan32 y then r == .ne
  else
    match r with
    | .eq => decide (key32 ftz x = key32 ftz y)
    | .ne => decide (key32 ftz x ≠ key32 ftz y)
    | .lt => decide (key32 ftz x < key32 ftz y)
    | .ge => decide (key32 ftz y ≤ key32 ftz x)
    | .gt => decide (key32 ftz y < key32 ftz x)
    | .le => decide (key32 ftz x ≤ key32 ftz y)
    | .ltu => false
    | .geu => false

end Sys2Proof.Claims

open Sys2Proof Sys2Proof.Machine Sys2Proof.Claims

/-- R121 whole: `gset` is P0 0x31 with D naming gs0 to gs15 and A naming p0 to p7; it writes the slot with the predicate's
value, under a false instruction predicate nothing, and other codes trap 0x02. -/
def Obligations.GuardSet : Prop :=
  (∀ (p : Pred) (d a : Nat) (x : Word), p.ok = true → d < 64 → a < 64 →
    findStep .c none (wordR 0x31 0 p d a 0) x =
      if d < 16 ∧ a < 8 then .run none (.cGset ⟨p, Fin.ofNat 16 d, Fin.ofNat 8 a⟩) else .fault 0x02) ∧
  (∀ (s : State) (x : GsetArgs), (s.str .c).holds x.pred = true →
    exec (.cGset x) s = .next ((withGuard s x.gs (if x.p = 0 then true else (s.str .c).preds[x.p])).complete .c 1 .go)) ∧
  (∀ (s : State) (x : GsetArgs), (s.str .c).holds x.pred = false →
    exec (.cGset x) s = .next (s.complete .c 1 .go))

/-- R112 whole: `fcmp` is P0 0x29 with D split into relation and predicate; relations 6 and 7 trap 0x02; it compares the
low 32 bits as fp32, the zeros equal, a NaN unequal to everything, and accepts FTZ, under which subnormals are zeros. -/
def Obligations.FloatCompare : Prop :=
  (∀ (p : Pred) (r pd : Nat) (a b : Fin 64) (x : Word), p.ok = true → r < 8 → pd < 8 →
    findStep .c none (wordR 0x29 0 p (8 * r + pd) a.val b.val) x =
      match r with
      | 0 => .run none (.cFcmp ⟨p, .eq, Fin.ofNat 8 pd, .reg a, .reg b⟩)
      | 1 => .run none (.cFcmp ⟨p, .ne, Fin.ofNat 8 pd, .reg a, .reg b⟩)
      | 2 => .run none (.cFcmp ⟨p, .lt, Fin.ofNat 8 pd, .reg a, .reg b⟩)
      | 3 => .run none (.cFcmp ⟨p, .ge, Fin.ofNat 8 pd, .reg a, .reg b⟩)
      | 4 => .run none (.cFcmp ⟨p, .gt, Fin.ofNat 8 pd, .reg a, .reg b⟩)
      | 5 => .run none (.cFcmp ⟨p, .le, Fin.ofNat 8 pd, .reg a, .reg b⟩)
      | _ => .fault 0x02) ∧
  (∀ (s : State) (x : CmpArgs) (a b : Dword) (s1 s2 : State), x.rel ≠ .ltu → x.rel ≠ .geu →
    (s.str .c).holds x.pred = true → Takes .c x.a s a s1 → Takes .c x.b s1 b s2 →
    let v := rel32 (s.str .c).pfx.ctl.ftz x.rel (a.toNat % 2 ^ 32) (b.toNat % 2 ^ 32)
    exec (.cFcmp x) s = .next ((ordered .c [x.a, x.b] [] (s2.modStr .c fun st =>
      if x.pd = 0 then st else { st with preds := st.preds.set x.pd v })).complete .c 1 .go)) ∧
  ∀ (x : CmpArgs), Instr.accepts (.pfx .c false .rne false true) (.cFcmp x) = true

/-- R129, R280, R288: `trap` (P0 0x3B) reads its scalar and traps 0x50 precisely, with the low 32 bits for the Cairn, and the entry
that it popped stays popped, as after any instruction that has completed (log 44, the model's reading); `halt` (P0 0x3C) finishes
the c strand, whatever it issued and whatever the other strands do; `nop` (P0 0x3D) has no effect; under a false predicate none of
them acts. -/
def Obligations.EndAndNop : Prop :=
  (∀ (p : Pred) (a : Fin 64) (x : Word), p.ok = true →
    findStep .c none (wordR 0x3B 0 p 0 a.val 0) x = .run none (.cTrap ⟨p, .reg a⟩) ∧
    findStep .c none (wordR 0x3C 0 p 0 0 0) x = .run none (.cHalt ⟨p⟩) ∧
    findStep .c none (wordR 0x3D 0 p 0 0 0) x = .run none (.cNop ⟨p⟩)) ∧
  (∀ (s : State) (x : SrcArgs) (a : Dword) (s1 : State), s.inSlot .c = false → (s.str .c).holds x.pred = true →
    Takes .c x.a s a s1 →
    let t : TrapInfo := { cause := 0x50, faddr := 0, aux := (a.setWidth 32).setWidth 64, sub := 0,
                          pc := some (s.str .c).pc }
    exec (.cTrap x) s = .next (((ordered .c [x.a] [] s1).complete .c 1 (.user t)).raise .c t)) ∧
  (∀ (s : State) (x : NoArgs), s.inSlot .c = false → (s.str .c).holds x.pred = true → (s.str .c).again = false →
    exec (.cHalt x) s = .next (s.complete .c 1 .halt) ∧ ((s.complete .c 1 .halt).str .c).finished = true ∧
    (∀ e, e ≠ .c → (s.complete .c 1 .halt).str e = s.str e) ∧ (s.complete .c 1 .halt).blk.engs = s.blk.engs) ∧
  (∀ (s : State) (x : NoArgs), exec (.cNop x) s = .next (s.complete .c 1 .go)) ∧
  (∀ (s : State) (x : NoArgs), s.inSlot .c = false → (s.str .c).holds x.pred = false →
    exec (.cHalt x) s = .next (s.complete .c 1 .go)) ∧
  (∀ (s : State) (x : SrcArgs) (s1 : State), s.inSlot .c = false → (s.str .c).holds x.pred = false →
    Drops .c x.a s s1 → exec (.cTrap x) s = .next (s1.complete .c 1 .go))

/-- Plain integer instructions of the c strand, in formats R and K: result and frame: CPlainResult; CPlainImmediate,
each stated above. -/
def Obligations.CIntegers : Prop :=
  CPlainResult ∧ CPlainImmediate

/-- Float instructions and fcvt of the c strand round their exact result once: CFloatResult; CConvert, each stated
above. -/
def Obligations.CFloats : Prop :=
  CFloatResult ∧ CConvert

/-- Comparisons and predicate instructions write one predicate: CompareResult; PredicateResult, each stated above. -/
def Obligations.Comparisons : Prop :=
  CompareResult ∧ PredicateResult

/-- jt and jtl hand on; a bad target traps at the branch: BranchesTaken; BranchTargetTraps, each stated above. -/
def Obligations.Branches : Prop :=
  BranchesTaken ∧ BranchTargetTraps

/-- What follows an instruction: next word, next line, end of chain, two delay slots, and the latched prefix:
TwoDelaySlots; NextInstruction; PrefixLatched, each stated above. -/
def Obligations.Sequencing : Prop :=
  TwoDelaySlots ∧ NextInstruction ∧ PrefixLatched

/-- loop arms its counter, and the back-edge decision takes or leaves the loop: Loops; LoopBackEdge, each stated
above. -/
def Obligations.CountedLoops : Prop :=
  Loops ∧ LoopBackEdge

/-- Token waits bind, wait, trap on an unset flag, and end: TokenWaitBinds; TokenWaitEnds, each stated above. -/
def Obligations.TokenWaits : Prop :=
  TokenWaitBinds ∧ TokenWaitEnds

/-- Ring instructions: claims, publications, waits and releases: RingResult; RingWaits, each stated above. -/
def Obligations.Rings : Prop :=
  RingResult ∧ RingWaits

/-- The block's own slice is read and written in place, and what a reader that does not know of a write yet may see:
SliceBytes; Views, each stated above. -/
def Obligations.SliceAccess : Prop :=
  SliceBytes ∧ Views

/-- amo does its read-modify-write at the home: AtomicEffect; AtomicFrame, each stated above. -/
def Obligations.AtomicResult : Prop :=
  AtomicEffect ∧ AtomicFrame

/-- Phase instructions, the Porter, the switch, forwarding marks and late data: PhaseArrivals; PhaseEvents; LateData,
each stated above. -/
def Obligations.PhaseChanges : Prop :=
  PhaseArrivals ∧ PhaseEvents ∧ LateData

/-- Scouted rounds: opened, marked, accepted, committed, closed and run again: ScoutResult; RoundRerun, each stated
above. -/
def Obligations.ScoutedRounds : Prop :=
  ScoutResult ∧ RoundRerun

/-- Engine commands are queued, trap on a faulty attribute entry, or block on a full queue: CommandQueued;
CommandRefusedAtIssue, each stated above. -/
def Obligations.CommandIssue : Prop :=
  CommandQueued ∧ CommandRefusedAtIssue

/-- Commands start, end on a false guard, and complete their flags; what the units of a commands do: CommandSteps;
CopyUnits, each stated above. -/
def Obligations.CommandProgress : Prop :=
  CommandSteps ∧ CopyUnits

/-- mclr, dclr, mstat, gcfg, blend and bret; what the units of m, d and g commands do: EngineChanges; TileUnits;
DecodeUnits; GrottoUnits, each stated above. -/
def Obligations.EngineImmediates : Prop :=
  EngineChanges ∧ TileUnits ∧ DecodeUnits ∧ GrottoUnits

/-- Float element instructions, vscale and vcvt in all their forms: VFloatElems; VSpecials, each stated above. -/
def Obligations.VFloats : Prop :=
  VFloatElems ∧ VSpecials

/-- Vector loads, stores and atomics: VLoadsStores; VStoreSkips; VAtomic, each stated above. -/
def Obligations.VMemory : Prop :=
  VLoadsStores ∧ VStoreSkips ∧ VAtomic

/-- Failed banks, fences, telemetry, voltage, module reset and plain registers: FencesAndTelemetry; PlainRegisters;
RegisterReads, each stated above. -/
def Obligations.UnitsAndRegisters : Prop :=
  FencesAndTelemetry ∧ PlainRegisters ∧ RegisterReads

/-- A step runs the decoded instruction: StrandTurns; EventTurns, each stated above. -/
def Obligations.StepRunsInstruction : Prop :=
  StrandTurns ∧ EventTurns

/-- Waiting, a false predicate and barred delay slots: WaitingHasNoEffect; FalsePredicate, each stated above. -/
def Obligations.NoEffect : Prop :=
  WaitingHasNoEffect ∧ FalsePredicate
end

