-- ==== Sys2Proof/Laws/Mem.lean ====
section
/-! SUPPORT. Memory: every operation keeps the canonical form, a read after a write gives what was written there and what
was there before elsewhere, and two memories of canonical form that read alike are equal. -/

namespace Sys2Proof.Machine

/-- The canonical form as two properties. -/
theorem Mem.wf_iff (m : List Host.Cell) :
    Mem.wf m = true ↔ m.Pairwise (fun x y => x.1 < y.1) ∧ ∀ c ∈ m, c.2 ≠ Mem.unlisted := by
  simp [Mem.wf]

theorem Mem.wf_nil : Mem.wf [] = true := by decide

/-! ## Parts of a memory -/

theorem Mem.wf_filter {m : List Host.Cell} (p : Host.Cell → Bool) (h : Mem.wf m = true) : Mem.wf (m.filter p) = true := by
  rw [Mem.wf_iff] at h ⊢
  exact ⟨h.1.filter p, fun c hc => h.2 c (List.mem_filter.mp hc).1⟩

theorem Mem.wf_append {m n : List Host.Cell} (hm : Mem.wf m = true) (hn : Mem.wf n = true)
    (h : ∀ x ∈ m, ∀ y ∈ n, x.1 < y.1) : Mem.wf (m ++ n) = true := by
  rw [Mem.wf_iff] at hm hn ⊢
  refine ⟨List.pairwise_append.mpr ⟨hm.1, hn.1, h⟩, fun c hc => ?_⟩
  rcases List.mem_append.mp hc with hc | hc
  · exact hm.2 c hc
  · exact hn.2 c hc

theorem Mem.mem_below {m : List Host.Cell} {a : Nat} {c : Host.Cell} (h : c ∈ Mem.below m a) : c.1 < a := by
  simpa [Mem.below] using (List.mem_filter.mp h).2

theorem Mem.mem_above {m : List Host.Cell} {a : Nat} {c : Host.Cell} (h : c ∈ Mem.above m a) : a ≤ c.1 := by
  simpa [Mem.above] using (List.mem_filter.mp h).2

theorem Mem.mem_cells {bs : List Byte} : ∀ {a : Nat} {c : Host.Cell}, c ∈ Mem.cells a bs →
    a ≤ c.1 ∧ c.1 < a + bs.length ∧ c.2 ≠ Mem.unlisted := by
  induction bs with
  | nil => intro a c h; simp [Mem.cells] at h
  | cons b r ih =>
    intro a c h
    simp only [Mem.cells, List.length_cons] at h ⊢
    split at h
    · obtain ⟨h1, h2, h3⟩ := ih h
      exact ⟨by omega, by omega, h3⟩
    · rename_i hb
      rcases List.mem_cons.mp h with rfl | h
      · exact ⟨by simp, by simp, hb⟩
      · obtain ⟨h1, h2, h3⟩ := ih h
        exact ⟨by omega, by omega, h3⟩

theorem Mem.wf_cells (bs : List Byte) : ∀ a : Nat, Mem.wf (Mem.cells a bs) = true := by
  induction bs with
  | nil => intro a; exact Mem.wf_nil
  | cons b r ih =>
    intro a
    simp only [Mem.cells]
    split
    · exact ih (a + 1)
    · rename_i hb
      refine Mem.wf_append (m := [(a, b)]) ?_ (ih (a + 1)) ?_
      · rw [Mem.wf_iff]; exact ⟨by simp, by simpa using hb⟩
      · intro x hx y hy
        obtain ⟨h1, -, -⟩ := Mem.mem_cells hy
        simp only [List.mem_singleton] at hx
        subst hx
        exact h1

/-! ## The canonical form is kept -/

theorem Mem.wf_write {m : List Host.Cell} (a : Nat) (bs : List Byte) (h : Mem.wf m = true) :
    Mem.wf (Mem.write m a bs) = true := by
  refine Mem.wf_append (Mem.wf_append (Mem.wf_filter _ h) (Mem.wf_cells bs a) ?_) (Mem.wf_filter _ h) ?_
  · intro x hx y hy
    exact lt_of_lt_of_le (Mem.mem_below hx) (Mem.mem_cells hy).1
  · intro x hx y hy
    have hy' := Mem.mem_above hy
    rcases List.mem_append.mp hx with hx | hx
    · have := Mem.mem_below hx; omega
    · have := (Mem.mem_cells hx).2.1; omega

theorem Mem.wf_zero {m : List Host.Cell} (a n : Nat) (h : Mem.wf m = true) : Mem.wf (Mem.zero m a n) = true := by
  refine Mem.wf_append (Mem.wf_filter _ h) (Mem.wf_filter _ h) fun x hx y hy => ?_
  have h1 := Mem.mem_below hx
  have h2 := Mem.mem_above hy
  omega

/-- The cells of a region, moved to another place. -/
theorem Mem.wf_moved {m : List Host.Cell} (src dst n : Nat) (h : Mem.wf m = true) :
    Mem.wf ((m.filter fun c => src ≤ c.1 && c.1 < src + n).map fun c => (c.1 - src + dst, c.2)) = true := by
  have h' := Mem.wf_filter (fun c : Host.Cell => decide (src ≤ c.1) && decide (c.1 < src + n)) h
  rw [Mem.wf_iff] at h' ⊢
  refine ⟨List.pairwise_map.mpr (h'.1.imp_of_mem ?_), fun c hc => ?_⟩
  · intro x y hx hy hxy
    have h1 := (List.mem_filter.mp hx).2
    have h2 := (List.mem_filter.mp hy).2
    simp only [Bool.and_eq_true, decide_eq_true_eq] at h1 h2
    show x.1 - src + dst < y.1 - src + dst
    omega
  · obtain ⟨x, hx, rfl⟩ := List.mem_map.mp hc
    exact h'.2 x hx

theorem Mem.wf_copy {m : List Host.Cell} (src dst n : Nat) (h : Mem.wf m = true) :
    Mem.wf (Mem.copy m src dst n) = true := by
  have hmoved : ∀ x ∈ (m.filter fun c => src ≤ c.1 && c.1 < src + n).map fun c => (c.1 - src + dst, c.2),
      dst ≤ x.1 ∧ x.1 < dst + n := by
    intro x hx
    obtain ⟨c, hc, rfl⟩ := List.mem_map.mp hx
    have hc' := (List.mem_filter.mp hc).2
    simp only [Bool.and_eq_true, decide_eq_true_eq] at hc'
    exact ⟨by simp, by simp only; omega⟩
  refine Mem.wf_append (Mem.wf_append (Mem.wf_filter _ h) (Mem.wf_moved src dst n h) ?_) (Mem.wf_filter _ h) ?_
  · intro x hx y hy
    exact lt_of_lt_of_le (Mem.mem_below hx) (hmoved y hy).1
  · intro x hx y hy
    have hy' := Mem.mem_above hy
    rcases List.mem_append.mp hx with hx | hx
    · have := Mem.mem_below hx; omega
    · have := (hmoved x hx).2; omega

/-! ## Reading -/

/-- A listed byte reads as its cell says. -/
theorem Mem.read_of_mem {m : List Host.Cell} (h : m.Pairwise fun x y => x.1 < y.1) {c : Host.Cell} (hc : c ∈ m) :
    Mem.read m c.1 = c.2 := by
  induction m with
  | nil => simp at hc
  | cons d r ih =>
    rw [List.pairwise_cons] at h
    rcases List.mem_cons.mp hc with rfl | hc
    · simp [Mem.read]
    · have : d.1 ≠ c.1 := (h.1 c hc).ne
      simp [Mem.read, this, ih h.2 hc]

/-- A byte of no cell reads as an unlisted one. -/
theorem Mem.read_of_not_mem {m : List Host.Cell} {a : Nat} (h : ∀ c ∈ m, c.1 ≠ a) : Mem.read m a = Mem.unlisted := by
  induction m with
  | nil => rfl
  | cons d r ih =>
    simp only [Mem.read, h d List.mem_cons_self, if_false]
    exact ih fun c hc => h c (List.mem_cons_of_mem _ hc)

theorem Mem.read_append (m n : List Host.Cell) (a : Nat) :
    Mem.read (m ++ n) a = if (m.any fun c => c.1 == a) then Mem.read m a else Mem.read n a := by
  induction m with
  | nil => simp
  | cons d r ih =>
    by_cases h : d.1 = a <;> simp [Mem.read, h, ih]

/-- Reading a part of a memory at an address that the part keeps. -/
theorem Mem.read_filter (m : List Host.Cell) (p : Host.Cell → Bool) (a : Nat) (h : ∀ b : Byte, p (a, b) = true) :
    Mem.read (m.filter p) a = Mem.read m a := by
  induction m with
  | nil => rfl
  | cons d r ih =>
    by_cases hd : p d = true
    · rw [List.filter_cons_of_pos hd]; simp [Mem.read, ih]
    · rw [List.filter_cons_of_neg hd, ih]
      have : d.1 ≠ a := fun c => hd (by rw [← c] at h; exact h d.2)
      simp [Mem.read, this]

theorem Mem.read_cells (bs : List Byte) : ∀ a x : Nat, a ≤ x → x < a + bs.length →
    Mem.read (Mem.cells a bs) x = bs[x - a]?.getD Mem.unlisted := by
  induction bs with
  | nil => intro a x h1 h2; simp at h2; omega
  | cons b r ih =>
    intro a x h1 h2
    simp only [List.length_cons] at h2
    simp only [Mem.cells]
    by_cases hx : x = a
    · subst hx
      split
      · rename_i hb
        rw [Mem.read_of_not_mem fun c hc => by have := (Mem.mem_cells hc).1; omega]
        simp [hb]
      · simp [Mem.read]
    · have h3 : x - a = (x - (a + 1)) + 1 := by omega
      have h4 := ih (a + 1) x (by omega) (by omega)
      rw [h3, List.getElem?_cons_succ]
      split
      · exact h4
      · have : a ≠ x := fun c => hx c.symm
        simp [Mem.read, this, h4]

/-- A read after a write: the byte written, or outside the bytes written what was there before. -/
theorem Mem.read_write (m : List Host.Cell) (a : Nat) (bs : List Byte) (x : Nat) :
    Mem.read (Mem.write m a bs) x =
      if a ≤ x ∧ x < a + bs.length then bs[x - a]?.getD Mem.unlisted else Mem.read m x := by
  have hb : x < a → ∀ c ∈ Mem.above m (a + bs.length), c.1 ≠ x := fun h c hc => by
    have := Mem.mem_above hc; omega
  have hc : ¬(a ≤ x ∧ x < a + bs.length) → ∀ c ∈ Mem.cells a bs, c.1 ≠ x := fun h c hc => by
    have := Mem.mem_cells hc; omega
  have hl : a ≤ x → ∀ c ∈ Mem.below m a, c.1 ≠ x := fun h c hc => by
    have := Mem.mem_below hc; omega
  have any_false : ∀ l : List Host.Cell, (∀ c ∈ l, c.1 ≠ x) → (l.any fun c => c.1 == x) = false := fun l h => by
    simpa using h
  unfold Mem.write
  rw [Mem.read_append, Mem.read_append]
  by_cases h : a ≤ x ∧ x < a + bs.length
  · rw [if_pos h, List.any_append, any_false _ (hl h.1), if_neg Bool.false_ne_true, Bool.false_or]
    split
    · exact Mem.read_cells bs a x h.1 h.2
    · rename_i hn
      rw [Mem.read_of_not_mem fun c hc => by have := Mem.mem_above hc; omega]
      rw [← Mem.read_cells bs a x h.1 h.2]
      exact (Mem.read_of_not_mem fun c hc he => hn (List.any_eq_true.mpr ⟨c, hc, by simpa using he⟩)).symm
  · rw [if_neg h, List.any_append, any_false _ (hc h), Bool.or_false]
    by_cases hx : x < a
    · split
      · exact Mem.read_filter m _ x fun b => by simpa using hx
      · rename_i hn
        rw [Mem.read_of_not_mem (hb hx)]
        have h1 : Mem.read (Mem.below m a) x = Mem.read m x := Mem.read_filter m _ x fun b => by simpa using hx
        rw [← h1]
        exact (Mem.read_of_not_mem fun c hc he => hn (List.any_eq_true.mpr ⟨c, hc, by simpa using he⟩)).symm
    · rw [any_false _ (hl (by omega)), if_neg Bool.false_ne_true]
      exact Mem.read_filter m _ x fun b => by simp only [decide_eq_true_eq]; omega

/-- A read after zeroing. -/
theorem Mem.read_zero (m : List Host.Cell) (a n x : Nat) :
    Mem.read (Mem.zero m a n) x = if a ≤ x ∧ x < a + n then Mem.unlisted else Mem.read m x := by
  unfold Mem.zero
  rw [Mem.read_append]
  by_cases h : a ≤ x ∧ x < a + n
  · rw [if_pos h]
    have h1 : ∀ c ∈ Mem.below m a, c.1 ≠ x := fun c hc => by have := Mem.mem_below hc; omega
    have h2 : ∀ c ∈ Mem.above m (a + n), c.1 ≠ x := fun c hc => by have := Mem.mem_above hc; omega
    rw [Mem.read_of_not_mem h1, Mem.read_of_not_mem h2, ite_self]
  · rw [if_neg h]
    by_cases hx : x < a
    · have h1 : Mem.read (Mem.below m a) x = Mem.read m x := Mem.read_filter m _ x fun b => by simpa using hx
      have h2 : ∀ c ∈ Mem.above m (a + n), c.1 ≠ x := fun c hc => by have := Mem.mem_above hc; omega
      rw [h1, Mem.read_of_not_mem h2]
      split
      · rfl
      · rename_i hn
        rw [← h1]
        exact (Mem.read_of_not_mem fun c hc he => hn (List.any_eq_true.mpr ⟨c, hc, by simpa using he⟩)).symm
    · have h1 : ∀ c ∈ Mem.below m a, c.1 ≠ x := fun c hc => by have := Mem.mem_below hc; omega
      have h2 : ((Mem.below m a).any fun c => c.1 == x) = false := by simpa using h1
      rw [h2, if_neg Bool.false_ne_true]
      exact Mem.read_filter m _ x fun b => by simp only [decide_eq_true_eq]; omega

/-! ## Little-endian bytes -/

@[simp] theorem leBytes_length (n v : Nat) : (leBytes n v).length = n := by
  induction n generalizing v with
  | zero => rfl
  | succ n ih => simp [leBytes, ih]

/-- The number of the bytes of a number is that number modulo what they hold. -/
theorem leNat_leBytes (n v : Nat) : leNat (leBytes n v) = v % 256 ^ n := by
  induction n generalizing v with
  | zero => simp [leBytes, leNat, Nat.mod_one]
  | succ n ih =>
    have h : (BitVec.ofNat 8 v).toNat = v % 256 := by simp
    rw [leBytes, leNat, ih, h, pow_succ', Nat.mod_mul]

end Sys2Proof.Machine
end

