-- ==== Sys2Proof/Laws/Ops.lean ====
section
/-! SUPPORT. The shared operations, each with one lemma that says what it does: the monad's binding, `issue`, reading
and writing scalar operands, and the orders of ports. -/

namespace Sys2Proof.Machine

open Sys2Proof.Claims

/-! ## The monad -/

theorem M_bind_ok {α β : Type} {x : M α} {f : α → M β} {s t : State} {a : α} (h : x s = .ok (a, t)) :
    (x >>= f) s = f a t := by
  simp [bind, StateT.bind, h, Except.bind]

theorem M_bind_error {α β : Type} {x : M α} {f : α → M β} {s : State} {e : Stop} (h : x s = .error e) :
    (x >>= f) s = .error e := by
  simp [bind, StateT.bind, h, Except.bind]

theorem M_pure {α : Type} (a : α) (s : State) : (pure a : M α) s = .ok (a, s) := rfl

theorem M_getBlk (s : State) : getBlk s = .ok (s.blk, s) := rfl

theorem M_getS (s : State) : getS s = .ok (s, s) := rfl

theorem M_modBlk (f : Block → Block) (s : State) : modBlk f s = .ok ((), { s with blk := f s.blk }) := rfl

theorem M_modS (f : State → State) (s : State) : modS f s = .ok ((), f s) := rfl

theorem M_getStr (e : Eng) (s : State) : getStr e s = .ok (s.str e, s) := rfl

theorem M_modStr (e : Eng) (f : Strand → Strand) (s : State) : modStr e f s = .ok ((), s.modStr e f) := rfl

theorem M_latch (e : Eng) (s : State) : latch e s = .ok ((s.str e).pfx, s) := rfl

theorem M_stopWith {α : Type} (x : Stop) (s : State) : (stopWith x : M α) s = .error x := rfl

theorem M_waitUntil_true {b : Bool} (h : b = true) (s : State) : waitUntil b s = .ok ((), s) := by
  subst h; rfl

theorem M_waitUntil_false {b : Bool} (h : b = false) (s : State) : waitUntil b s = .error .blocked := by
  subst h; rfl

theorem M_trapIf_false {b : Bool} (h : b = false) (c : Nat) (s : State) : trapIf b c s = .ok ((), s) := by
  subst h; rfl

theorem M_trapIf_true {b : Bool} (h : b = true) (c : Nat) (s : State) :
    trapIf b c s = .error (.trap { cause := c, faddr := 0, aux := 0, sub := 0, pc := none }) := by
  subst h; rfl

theorem M_drawFree (s : State) : drawFree s = .ok (s.free, { s with free := s.free + 1 }) := rfl

theorem thenGo_ok {x : M Unit} {s t : State} (h : x s = .ok ((), t)) : thenGo x s = .ok (.go, t) := by
  unfold thenGo; rw [M_bind_ok h]; rfl

/-! ## `issue` -/

/-- An instruction whose predicate holds, outside a barred delay slot, hands on as its meaning says. -/
theorem issue_on {e : Eng} {n : Nat} {p : Pred} {bar : Bool} {off on : M Flow} {s t : State} {f : Flow}
    (hp : (s.str e).holds p = true) (hb : (bar && s.inSlot e) = false) (h : on s = .ok (f, t))
    (hf : ∀ x, f ≠ .user x) : issue e n p bar off on s = .next (t.complete e n f) := by
  unfold issue
  simp only [hb, hp, h, if_true, Bool.false_eq_true, if_false]

/-- An instruction whose predicate does not hold does what it does then. -/
theorem issue_off {e : Eng} {n : Nat} {p : Pred} {bar : Bool} {off on : M Flow} {s t : State} {f : Flow}
    (hp : (s.str e).holds p = false) (hb : (bar && s.inSlot e) = false) (h : off s = .ok (f, t))
    (hf : ∀ x, f ≠ .user x) : issue e n p bar off on s = .next (t.complete e n f) := by
  unfold issue
  simp only [hb, hp, h, Bool.false_eq_true, if_false]

/-- An instruction whose meaning stops has no effect but what the stop is. -/
theorem issue_stop {e : Eng} {n : Nat} {p : Pred} {bar : Bool} {off on : M Flow} {s : State} {x : Stop}
    (hp : (s.str e).holds p = true) (hb : (bar && s.inSlot e) = false) (h : on s = .error x) :
    issue e n p bar off on s = s.stopped e x := by
  unfold issue
  simp only [hb, hp, h, if_true, Bool.false_eq_true, if_false]

/-- A barred instruction in a delay slot traps with cause 0x01. -/
theorem issue_bar {e : Eng} {n : Nat} {p : Pred} {off on : M Flow} {s : State} (h : s.inSlot e = true) :
    issue e n p true off on s = .next (s.raise e { cause := 1, faddr := 0, aux := 0, sub := 0, pc := none }) := by
  unfold issue
  simp [h]

/-! ## Scalar operands -/

theorem scoreboard_ok {e : Eng} {d : Opd} {s : State} (h : s.blk.pending e d = false) :
    scoreboard e d s = .ok ((), s) := by
  unfold scoreboard
  rw [M_bind_ok (M_getBlk s)]
  simp [h, M_pure]

theorem scoreboard_stall {e : Eng} {d : Opd} {s : State} (h : s.blk.pending e d = true) :
    scoreboard e d s = .error .stalled := by
  unfold scoreboard
  rw [M_bind_ok (M_getBlk s)]
  simp [h, M_stopWith]

theorem popQ_cons {n : Fin 16} {s : State} {v : Dword} {r : List Dword} (h : s.blk.q[n] = v :: r) :
    popQ n s = .ok (v, popped s n r) := by
  unfold popQ
  rw [M_bind_ok (M_getBlk s)]
  simp only [h]
  rfl

theorem popQ_nil {n : Fin 16} {s : State} (h : s.blk.q[n] = []) : popQ n s = .error .blocked := by
  unfold popQ
  rw [M_bind_ok (M_getBlk s)]
  simp only [h]
  rfl

/-- A push that no other goes before has its turn (R175). -/
theorem portTurn_ok {e : Eng} {d : Opd} {s : State} (h : FirstPush e d s) : portTurn e d s = .ok ((), s) := by
  have h' : (s.blk.inflight.any fun x => x.eng == e && x.dst.isPort && (e == .v || x.dst == d)) = false := by
    simp only [List.any_eq_false, Bool.and_eq_true, Bool.or_eq_true, beq_iff_eq, not_and]
    exact fun x hx a => h x hx a.1 a.2
  unfold portTurn
  rw [M_bind_ok (M_getBlk s)]
  simp [h', M_pure]

theorem pushQ_room {e : Eng} {n : Fin 16} {x : Dword} {s : State} (h : FirstPush e (.port (.q n)) s)
    (hr : (s.blk.q[n]).length + s.blk.inflightTo (.port (.q n)) < 16) :
    pushQ e n x s = .ok ((), { s with blk := { s.blk with q := s.blk.q.set n (s.blk.q[n] ++ [x]) } }) := by
  unfold pushQ
  rw [M_bind_ok (portTurn_ok h), M_bind_ok (M_getBlk s), M_bind_ok (M_waitUntil_true (by simpa using hr) s)]
  rfl

/-- Reading a scalar operand is what `Takes` says. -/
theorem readS_of_takes {e : Eng} {o : Opd} {s t : State} {v : Dword} (h : Takes e o s v t) : readS e o s = .ok (v, t) := by
  match o, h with
  | .reg n, ⟨hp, hv, ht⟩ =>
    simp only [readS]
    rw [M_bind_ok (scoreboard_ok hp), M_bind_ok (M_getBlk s), hv, ht]; rfl
  | .port (.q n), ⟨r, hq, ht⟩ =>
    simp only [readS]
    rw [popQ_cons hq, ht]
  | .port (.g _), h => exact h.elim
  | .port (.vq _), h => exact h.elim

/-- Writing a scalar operand is what `Puts` says. -/
theorem writeS_of_puts {e : Eng} {o : Opd} {s t : State} {v : Dword} (h : Puts e o s v t) :
    writeS e o v s = .ok ((), t) := by
  match o, h with
  | .reg n, ⟨hp, ht⟩ =>
    simp only [writeS]
    rw [M_bind_ok (scoreboard_ok hp), ht]; rfl
  | .port (.q n), ⟨hp, hr, ht⟩ =>
    simp only [writeS]
    rw [pushQ_room hp hr, ht]
  | .port (.g _), h => exact h.elim
  | .port (.vq _), h => exact h.elim

/-- The acquires that a `pfxo` gives the ports that an instruction popped. -/
theorem portAcquire_ok (e : Eng) (src : List Opd) (s : State) : portAcquire e src s = .ok ((), acquired e src s) := by
  unfold portAcquire acquired
  rw [M_bind_ok (M_latch e s)]
  split <;> rfl

/-- The releases that it gives the ports that the instruction pushed. -/
theorem portRelease_ok (e : Eng) (dst : List Opd) (s : State) : portRelease e dst s = .ok ((), released e dst s) := by
  unfold portRelease released
  rw [M_bind_ok (M_latch e s)]
  split <;> rfl

/-- The acquires and releases that a `pfxo` gives the ports of an instruction. -/
theorem portOrder_ok (e : Eng) (src dst : List Opd) (s : State) :
    portOrder e src dst s = .ok ((), ordered e src dst s) := by
  unfold portOrder ordered
  rw [M_bind_ok (portAcquire_ok e src s), portRelease_ok]

/-- Saturation at 64 bits. -/
theorem satResult_eq (sat : Bool) (v : Int) : satResult 64 sat v = clamp64 sat v := by
  have h : decide ((2 : Int) ^ (64 - 1) - 1 < v) = decide ((2 : Int) ^ 63 ≤ v) :=
    decide_eq_decide.mpr ⟨fun h => by norm_num at h ⊢; omega, fun h => by norm_num at h ⊢; omega⟩
  unfold satResult clamp64
  simp only [h]

/-- A saturating store of an exact result. -/
theorem satStore_ok (sat : Bool) (v : Int) (s : State) :
    (satStore 64 sat v) s = .ok ((clamp64 sat v).1, satIf (clamp64 sat v).2 s) := by
  unfold satStore satIf
  rw [satResult_eq]
  generalize clamp64 sat v = r
  obtain ⟨x, b⟩ := r
  cases b <;> rfl

end Sys2Proof.Machine
end

