-- ==== Sys2Proof/Laws/Phys.lean ====
section
/-! SUPPORT. Physical accesses: where an open path leads to an unfenced place, checks pass, writes go through, and reads of
memory without poison answer, unit by unit and over a whole range; so a Porter moves such a granule. -/

namespace Sys2Proof.Machine

/-- An access from die `d` to `p` passes its checks (R308, R327). -/
def PhysOpen (d p : Nat) (s : State) : Prop :=
  physKind p ≠ .none ∧ s.tractFenced p = false ∧ pathOpen s.links d p = true

/-- Two states with the same fences, the same contexts and the same block in focus. -/
def SameFences (s t : State) : Prop := t.tracts = s.tracts ∧ t.links = s.links ∧ t.blk = s.blk ∧ t.ctxs = s.ctxs

theorem SameFences.rfl {s : State} : SameFences s s := ⟨Eq.refl _, Eq.refl _, Eq.refl _, Eq.refl _⟩

theorem SameFences.trans {s t u : State} (h : SameFences s t) (k : SameFences t u) : SameFences s u :=
  ⟨k.1.trans h.1, k.2.1.trans h.2.1, k.2.2.1.trans h.2.2.1, k.2.2.2.trans h.2.2.2⟩

theorem PhysOpen.same {d p : Nat} {s t : State} (h : PhysOpen d p s) (e : SameFences s t) : PhysOpen d p t := by
  obtain ⟨h1, h2, h3⟩ := h
  refine ⟨h1, ?_, by rw [e.2.1]; exact h3⟩
  unfold State.tractFenced at h2 ⊢
  rw [e.1]; exact h2

theorem physCheck_ok {d va p : Nat} {s : State} (h : PhysOpen d p s) : physCheck d va p s = .ok ((), s) := by
  obtain ⟨h1, h2, h3⟩ := h
  unfold physCheck
  rw [M_bind_ok (M_getS s)]
  cases hk : physKind p with
  | none => exact absurd hk h1
  | dram _ => simp only [h2, h3, Bool.false_eq_true, Bool.not_true, if_false]; rfl
  | tier _ => simp only [h2, h3, Bool.false_eq_true, Bool.not_true, if_false]; rfl
  | scratch _ _ => simp only [h2, h3, Bool.false_eq_true, Bool.not_true, if_false]; rfl
  | se _ => simp only [h2, h3, Bool.false_eq_true, Bool.not_true, if_false]; rfl
  | far _ => simp only [h2, h3, Bool.false_eq_true, Bool.not_true, if_false]; rfl

theorem placeAll_fences (x : Actor) (known : List Party) :
    ∀ (l : List (Nat × List Byte)) (s : State), SameFences s (State.placeAll x known l s).2
  | [], _ => .rfl
  | (a, bs) :: r, s => SameFences.trans (t := (s.place x known a bs).2) .rfl (placeAll_fences x known r _)

theorem store_fences (s : State) (a : Nat) (bs : List Byte) : SameFences s (s.store a bs) := by
  unfold State.store
  cases s.actor with
  | none => exact .rfl
  | some x => exact .trans (t := s.settleAt x.party a bs.length) .rfl (placeAll_fences x _ _ _)

/-- A write to an open place goes through and leaves the fences. -/
theorem writeUnit_ok {d va p : Nat} (bs : List Byte) {s : State} (h : PhysOpen d p s) :
    ∃ t, writeUnit d va p bs s = .ok ((), t) ∧ SameFences s t := by
  unfold writeUnit
  rw [M_bind_ok (physCheck_ok h), M_bind_ok (M_getS s)]
  have k := fun u : State => store_fences u p bs
  by_cases hd : isDram p = true
  · simp only [hd, if_true]
    by_cases hk : s.inKey (p / 64) = true
    · simp only [hk, Bool.not_true, Bool.false_eq_true, if_false]
      exact ⟨_, rfl, (k s).1, (k s).2.1, (k s).2.2.1, (k s).2.2.2⟩
    · simp only [hk, Bool.not_false, if_true]
      refine ⟨_, rfl, ?_⟩
      have w := k { s with
        free := s.free + 1,
        mem := Mem.write s.mem (64 * (p / 64)) ((List.range 64).map fun i => Config.freeByte (1024 * s.free + i)),
        olds := s.olds.filter fun o => !o.meets (64 * (p / 64)) 64 }
      exact ⟨w.1, w.2.1, w.2.2.1, w.2.2.2⟩
  · simp only [hd, Bool.false_eq_true, if_false]
    exact ⟨_, rfl, k s⟩

theorem writePhysPieces_ok {d va : Nat} : ∀ (l : List (Nat × Nat)) (bs : List Byte) (s : State),
    (∀ x ∈ l, PhysOpen d x.1 s) → ∃ t, writePhysPieces d va l bs s = .ok ((), t) ∧ SameFences s t
  | [], _, s, _ => ⟨s, rfl, .rfl⟩
  | (a, n) :: r, bs, s, h => by
    obtain ⟨t, ht, e⟩ := writeUnit_ok (va := va) (bs.take n) (h (a, n) List.mem_cons_self)
    obtain ⟨u, hu, f⟩ := writePhysPieces_ok (d := d) (va := va) r (bs.drop n) t fun x hx =>
      (h x (List.mem_cons_of_mem _ hx)).same e
    refine ⟨u, ?_, e.trans f⟩
    show ((writeUnit d va a (bs.take n)) >>= fun _ => writePhysPieces d va r (bs.drop n)) s = _
    rw [M_bind_ok ht, hu]

/-- Nothing stands between the hardware and the bytes of memory: no poison, no error, and no actor whose view is his own. -/
def PlainMem (s : State) : Prop := s.poison = [] ∧ s.upsets = [] ∧ s.actor = none

/-- A read of memory that holds no poison answers as many bytes as it asks for, and leaves the fences. -/
theorem readUnit_ok {d va p n : Nat} {s : State} (h : PhysOpen d p s) (hd : isDram p = true) (hp : PlainMem s) :
    ∃ bs t, readUnit d va p n s = .ok (bs, t) ∧ bs.length = n ∧ SameFences s t ∧ PlainMem t := by
  obtain ⟨h1, h2, h3⟩ := hp
  have hl : (Mem.readN s.mem p n).length = n := by simp [Mem.readN]
  have he : s.ecc p = s := by simp [State.ecc, h2]
  have hs : seeBytes p n s = .ok (Mem.readN s.mem p n, s) := by simp [seeBytes, h3]
  have hk : ∃ m, physKind p = .dram m ∨ physKind p = .tier m := by
    unfold isDram at hd
    split at hd
    · exact ⟨_, .inl ‹_›⟩
    · exact ⟨_, .inr ‹_›⟩
    · cases hd
  unfold readUnit
  rw [M_bind_ok (physCheck_ok h), M_bind_ok (M_getS s)]
  obtain ⟨m, hk | hk⟩ := hk <;>
  · simp only [hk, hd, if_true]
    rw [M_bind_ok (M_modS (fun s => s.ecc p) s), he, M_bind_ok (M_getS s)]
    simp only [h1, List.contains_nil, Bool.false_eq_true, if_false]
    by_cases hi : s.inKey (p / 64) = true
    · simp only [hi, if_true]
      exact ⟨_, _, hs, hl, .rfl, h1, h2, h3⟩
    · simp only [hi, Bool.false_eq_true, if_false]
      exact ⟨_, _, rfl, by simp, .rfl, h1, h2, h3⟩

theorem readPhysPieces_ok {d va : Nat} : ∀ (l : List (Nat × Nat)) (s : State), PlainMem s →
    (∀ x ∈ l, PhysOpen d x.1 s ∧ isDram x.1 = true) →
    ∃ bs t, readPhysPieces d va l s = .ok (bs, t) ∧ bs.length = (l.map (·.2)).sum ∧ SameFences s t
  | [], s, _, _ => ⟨[], s, rfl, rfl, .rfl⟩
  | (a, n) :: r, s, hp, h => by
    obtain ⟨h1, h2⟩ := h (a, n) List.mem_cons_self
    obtain ⟨bs, t, ht, hb, e, ep⟩ := readUnit_ok (va := va) (n := n) h1 h2 hp
    obtain ⟨cs, u, hu, hc, f⟩ := readPhysPieces_ok (d := d) (va := va) r t ep fun x hx =>
      ⟨(h x (List.mem_cons_of_mem _ hx)).1.same e, (h x (List.mem_cons_of_mem _ hx)).2⟩
    refine ⟨bs ++ cs, u, ?_, by simp [hb, hc], e.trans f⟩
    show ((readUnit d va a n) >>= fun x => readPhysPieces d va r >>= fun y => pure (x ++ y)) s = _
    rw [M_bind_ok ht, M_bind_ok hu]; rfl

/-- Accesses made for an actor. -/
theorem acting_ok {α : Type} {a : Option Actor} {x : M α} {s t : State} {v : α} (h : x { s with actor := a } = .ok (v, t)) :
    acting a x s = .ok (v, { t with actor := s.actor }) := by
  unfold acting
  rw [h]

/-- A granule of memory without poison, whose source and destination are open from the block's die, is moved. -/
theorem moveGranule_ok {m : Move} {p : Nat} {s : State} (hm : m.src = some p) (hp : PlainMem s)
    (hn : ((piecesOf p 65536).map (·.2)).sum = 65536)
    (hr : ∀ x ∈ piecesOf p 65536, PhysOpen s.blk.die.val x.1 s ∧ isDram x.1 = true)
    (hw : ∀ x ∈ piecesOf m.dst 65536, PhysOpen s.blk.die.val x.1 s) :
    ∃ t, moveGranule m s = .ok ((), t) := by
  obtain ⟨bs, t, ht, hb, e⟩ := readPhysPieces_ok (va := p) (piecesOf p 65536) s hp hr
  rw [hn] at hb
  have hs : { s with actor := none } = s := by rw [← hp.2.2]
  have h1 : readPhys p p 65536 s = .ok (bs, { t with actor := s.actor }) := acting_ok (by rw [hs]; exact ht)
  obtain ⟨u, hu, -⟩ := writePhysPieces_ok (d := s.blk.die.val) (va := m.dst) (piecesOf m.dst 65536) bs
    { t with actor := none } fun x hx => (hw x hx).same e
  rw [← e.2.2.1, ← hb] at hu
  have h2 : writePhys m.dst m.dst bs { t with actor := s.actor } = .ok ((), { u with actor := s.actor }) := acting_ok hu
  unfold moveGranule
  rw [hm]
  simp only
  rw [M_bind_ok h1, M_bind_ok h2]
  exact ⟨_, rfl⟩

/-- A place in the memory of die `t`, none of whose tracts is fenced, is open from a die that reaches `t`. -/
theorem PhysOpen.dram {d p t : Nat} {s : State} (hk : physKind p = .dram t)
    (hf : ((List.range 4).any fun k => (s.tracts[Fin.ofNat 32 (4 * t + k)]).fenced) = false)
    (hl : dieReach s.links d t = true) : PhysOpen d p s := by
  refine ⟨by rw [hk]; simp, ?_, ?_⟩
  · unfold State.tractFenced; rw [hk]; simp only [hf, Bool.false_and]
  · unfold pathOpen; rw [hk]; exact hl

/-- Whether all pieces of a granule lie in the memory of die `t`, and make it up. -/
def granuleOn (t p : Nat) : Bool :=
  ((piecesOf p 65536).all fun x => decide (physKind x.1 = .dram t)) && ((piecesOf p 65536).map (·.2)).sum == 65536

/-- A granule in the memory of one die is moved to the memory of another by a block on die `d`. -/
theorem moveGranule_dram {m : Move} {p t u : Nat} {s : State} (hm : m.src = some p) (hp : PlainMem s)
    (hr : granuleOn t p = true) (hw : granuleOn u m.dst = true)
    (ft : ((List.range 4).any fun k => (s.tracts[Fin.ofNat 32 (4 * t + k)]).fenced) = false)
    (fu : ((List.range 4).any fun k => (s.tracts[Fin.ofNat 32 (4 * u + k)]).fenced) = false)
    (lt : dieReach s.links s.blk.die.val t = true) (lu : dieReach s.links s.blk.die.val u = true) :
    ∃ v, moveGranule m s = .ok ((), v) := by
  unfold granuleOn at hr hw
  simp only [Bool.and_eq_true, List.all_eq_true, decide_eq_true_eq, beq_iff_eq] at hr hw
  refine moveGranule_ok hm hp hr.2 (fun x hx => ⟨.dram (hr.1 x hx) ft lt, ?_⟩) fun x hx => .dram (hw.1 x hx) fu lu
  unfold isDram; rw [hr.1 x hx]

end Sys2Proof.Machine
end

