-- ==== Sys2Proof/Laws/State.lean ====
section
/-! SUPPORT. What the updates of the state leave in each field: one lemma per field and update, so that no proof unfolds a
record update; and reading a register, a strand or a context that an update wrote. -/

namespace Sys2Proof.Machine

/-! ## `State.modStr` -/

@[simp] theorem State.modStr_blk (s : State) (e : Eng) (f : Strand → Strand) :
    (s.modStr e f).blk = s.blk.modStr e f := rfl
@[simp] theorem State.modStr_others (s : State) (e : Eng) (f : Strand → Strand) :
    (s.modStr e f).others = s.others := rfl
@[simp] theorem State.modStr_eng (s : State) (e : Eng) (f : Strand → Strand) : (s.modStr e f).eng = s.eng := rfl
@[simp] theorem State.modStr_agenda (s : State) (e : Eng) (f : Strand → Strand) :
    (s.modStr e f).agenda = s.agenda := rfl
@[simp] theorem State.modStr_free (s : State) (e : Eng) (f : Strand → Strand) : (s.modStr e f).free = s.free := rfl
@[simp] theorem State.modStr_time (s : State) (e : Eng) (f : Strand → Strand) : (s.modStr e f).time = s.time := rfl
@[simp] theorem State.modStr_nextUid (s : State) (e : Eng) (f : Strand → Strand) :
    (s.modStr e f).nextUid = s.nextUid := rfl
@[simp] theorem State.modStr_nextKey (s : State) (e : Eng) (f : Strand → Strand) :
    (s.modStr e f).nextKey = s.nextKey := rfl
@[simp] theorem State.modStr_mem (s : State) (e : Eng) (f : Strand → Strand) : (s.modStr e f).mem = s.mem := rfl
@[simp] theorem State.modStr_poison (s : State) (e : Eng) (f : Strand → Strand) :
    (s.modStr e f).poison = s.poison := rfl
@[simp] theorem State.modStr_unitKeys (s : State) (e : Eng) (f : Strand → Strand) :
    (s.modStr e f).unitKeys = s.unitKeys := rfl
@[simp] theorem State.modStr_tasks (s : State) (e : Eng) (f : Strand → Strand) : (s.modStr e f).tasks = s.tasks := rfl
@[simp] theorem State.modStr_waiting (s : State) (e : Eng) (f : Strand → Strand) :
    (s.modStr e f).waiting = s.waiting := rfl
@[simp] theorem State.modStr_retired (s : State) (e : Eng) (f : Strand → Strand) :
    (s.modStr e f).retired = s.retired := rfl
@[simp] theorem State.modStr_lates (s : State) (e : Eng) (f : Strand → Strand) :
    (s.modStr e f).lates = s.lates := rfl
@[simp] theorem State.modStr_corrected (s : State) (e : Eng) (f : Strand → Strand) :
    (s.modStr e f).corrected = s.corrected := rfl
@[simp] theorem State.modStr_saved (s : State) (e : Eng) (f : Strand → Strand) : (s.modStr e f).saved = s.saved := rfl
@[simp] theorem State.modStr_ctxs (s : State) (e : Eng) (f : Strand → Strand) : (s.modStr e f).ctxs = s.ctxs := rfl
@[simp] theorem State.modStr_vfs (s : State) (e : Eng) (f : Strand → Strand) : (s.modStr e f).vfs = s.vfs := rfl
@[simp] theorem State.modStr_dies (s : State) (e : Eng) (f : Strand → Strand) : (s.modStr e f).dies = s.dies := rfl
@[simp] theorem State.modStr_cores (s : State) (e : Eng) (f : Strand → Strand) : (s.modStr e f).cores = s.cores := rfl
@[simp] theorem State.modStr_tracts (s : State) (e : Eng) (f : Strand → Strand) :
    (s.modStr e f).tracts = s.tracts := rfl
@[simp] theorem State.modStr_links (s : State) (e : Eng) (f : Strand → Strand) : (s.modStr e f).links = s.links := rfl
@[simp] theorem State.modStr_isls (s : State) (e : Eng) (f : Strand → Strand) : (s.modStr e f).isls = s.isls := rfl
@[simp] theorem State.modStr_hdies (s : State) (e : Eng) (f : Strand → Strand) : (s.modStr e f).hdies = s.hdies := rfl
@[simp] theorem State.modStr_hub (s : State) (e : Eng) (f : Strand → Strand) : (s.modStr e f).hub = s.hub := rfl
@[simp] theorem State.modStr_olds (s : State) (e : Eng) (f : Strand → Strand) : (s.modStr e f).olds = s.olds := rfl
@[simp] theorem State.modStr_nextOld (s : State) (e : Eng) (f : Strand → Strand) :
    (s.modStr e f).nextOld = s.nextOld := rfl
@[simp] theorem State.modStr_rels (s : State) (e : Eng) (f : Strand → Strand) : (s.modStr e f).rels = s.rels := rfl
@[simp] theorem State.modStr_actor (s : State) (e : Eng) (f : Strand → Strand) : (s.modStr e f).actor = s.actor := rfl
@[simp] theorem State.modStr_upsets (s : State) (e : Eng) (f : Strand → Strand) :
    (s.modStr e f).upsets = s.upsets := rfl
@[simp] theorem State.modStr_bus (s : State) (e : Eng) (f : Strand → Strand) : (s.modStr e f).bus = s.bus := rfl

/-! ## `State.modCtx` -/

@[simp] theorem State.modCtx_blk (s : State) (n : Nat) (f : Ctx → Ctx) : (s.modCtx n f).blk = s.blk := rfl
@[simp] theorem State.modCtx_others (s : State) (n : Nat) (f : Ctx → Ctx) : (s.modCtx n f).others = s.others := rfl
@[simp] theorem State.modCtx_eng (s : State) (n : Nat) (f : Ctx → Ctx) : (s.modCtx n f).eng = s.eng := rfl
@[simp] theorem State.modCtx_agenda (s : State) (n : Nat) (f : Ctx → Ctx) : (s.modCtx n f).agenda = s.agenda := rfl
@[simp] theorem State.modCtx_free (s : State) (n : Nat) (f : Ctx → Ctx) : (s.modCtx n f).free = s.free := rfl
@[simp] theorem State.modCtx_time (s : State) (n : Nat) (f : Ctx → Ctx) : (s.modCtx n f).time = s.time := rfl
@[simp] theorem State.modCtx_nextUid (s : State) (n : Nat) (f : Ctx → Ctx) : (s.modCtx n f).nextUid = s.nextUid := rfl
@[simp] theorem State.modCtx_nextKey (s : State) (n : Nat) (f : Ctx → Ctx) : (s.modCtx n f).nextKey = s.nextKey := rfl
@[simp] theorem State.modCtx_mem (s : State) (n : Nat) (f : Ctx → Ctx) : (s.modCtx n f).mem = s.mem := rfl
@[simp] theorem State.modCtx_poison (s : State) (n : Nat) (f : Ctx → Ctx) : (s.modCtx n f).poison = s.poison := rfl
@[simp] theorem State.modCtx_unitKeys (s : State) (n : Nat) (f : Ctx → Ctx) :
    (s.modCtx n f).unitKeys = s.unitKeys := rfl
@[simp] theorem State.modCtx_tasks (s : State) (n : Nat) (f : Ctx → Ctx) : (s.modCtx n f).tasks = s.tasks := rfl
@[simp] theorem State.modCtx_waiting (s : State) (n : Nat) (f : Ctx → Ctx) : (s.modCtx n f).waiting = s.waiting := rfl
@[simp] theorem State.modCtx_retired (s : State) (n : Nat) (f : Ctx → Ctx) : (s.modCtx n f).retired = s.retired := rfl
@[simp] theorem State.modCtx_lates (s : State) (n : Nat) (f : Ctx → Ctx) : (s.modCtx n f).lates = s.lates := rfl
@[simp] theorem State.modCtx_corrected (s : State) (n : Nat) (f : Ctx → Ctx) : (s.modCtx n f).corrected = s.corrected := rfl
@[simp] theorem State.modCtx_saved (s : State) (n : Nat) (f : Ctx → Ctx) : (s.modCtx n f).saved = s.saved := rfl
@[simp] theorem State.modCtx_ctxs (s : State) (n : Nat) (f : Ctx → Ctx) :
    (s.modCtx n f).ctxs = s.ctxs.set (Fin.ofNat 1024 n) (f (s.ctxs[Fin.ofNat 1024 n])) := rfl
@[simp] theorem State.modCtx_vfs (s : State) (n : Nat) (f : Ctx → Ctx) : (s.modCtx n f).vfs = s.vfs := rfl
@[simp] theorem State.modCtx_dies (s : State) (n : Nat) (f : Ctx → Ctx) : (s.modCtx n f).dies = s.dies := rfl
@[simp] theorem State.modCtx_cores (s : State) (n : Nat) (f : Ctx → Ctx) : (s.modCtx n f).cores = s.cores := rfl
@[simp] theorem State.modCtx_tracts (s : State) (n : Nat) (f : Ctx → Ctx) : (s.modCtx n f).tracts = s.tracts := rfl
@[simp] theorem State.modCtx_links (s : State) (n : Nat) (f : Ctx → Ctx) : (s.modCtx n f).links = s.links := rfl
@[simp] theorem State.modCtx_isls (s : State) (n : Nat) (f : Ctx → Ctx) : (s.modCtx n f).isls = s.isls := rfl
@[simp] theorem State.modCtx_hdies (s : State) (n : Nat) (f : Ctx → Ctx) : (s.modCtx n f).hdies = s.hdies := rfl
@[simp] theorem State.modCtx_hub (s : State) (n : Nat) (f : Ctx → Ctx) : (s.modCtx n f).hub = s.hub := rfl
@[simp] theorem State.modCtx_olds (s : State) (n : Nat) (f : Ctx → Ctx) : (s.modCtx n f).olds = s.olds := rfl
@[simp] theorem State.modCtx_nextOld (s : State) (n : Nat) (f : Ctx → Ctx) : (s.modCtx n f).nextOld = s.nextOld := rfl
@[simp] theorem State.modCtx_rels (s : State) (n : Nat) (f : Ctx → Ctx) : (s.modCtx n f).rels = s.rels := rfl
@[simp] theorem State.modCtx_actor (s : State) (n : Nat) (f : Ctx → Ctx) : (s.modCtx n f).actor = s.actor := rfl
@[simp] theorem State.modCtx_upsets (s : State) (n : Nat) (f : Ctx → Ctx) : (s.modCtx n f).upsets = s.upsets := rfl
@[simp] theorem State.modCtx_bus (s : State) (n : Nat) (f : Ctx → Ctx) : (s.modCtx n f).bus = s.bus := rfl

/-! ## `State.pass` -/

@[simp] theorem State.pass_blk (s : State) (dt : Nat) : (s.pass dt).blk = s.blk.tick s.isls dt := rfl
@[simp] theorem State.pass_others (s : State) (dt : Nat) :
    (s.pass dt).others = s.others.map (Block.tick s.isls dt) := rfl
@[simp] theorem State.pass_eng (s : State) (dt : Nat) : (s.pass dt).eng = s.eng := rfl
@[simp] theorem State.pass_agenda (s : State) (dt : Nat) : (s.pass dt).agenda = s.agenda := rfl
@[simp] theorem State.pass_free (s : State) (dt : Nat) : (s.pass dt).free = s.free := rfl
@[simp] theorem State.pass_time (s : State) (dt : Nat) : (s.pass dt).time = s.time + dt := rfl
@[simp] theorem State.pass_nextUid (s : State) (dt : Nat) : (s.pass dt).nextUid = s.nextUid := rfl
@[simp] theorem State.pass_nextKey (s : State) (dt : Nat) : (s.pass dt).nextKey = s.nextKey := rfl
@[simp] theorem State.pass_mem (s : State) (dt : Nat) : (s.pass dt).mem = s.mem := rfl
@[simp] theorem State.pass_poison (s : State) (dt : Nat) : (s.pass dt).poison = s.poison := rfl
@[simp] theorem State.pass_unitKeys (s : State) (dt : Nat) : (s.pass dt).unitKeys = s.unitKeys := rfl
@[simp] theorem State.pass_tasks (s : State) (dt : Nat) : (s.pass dt).tasks = s.tasks := rfl
@[simp] theorem State.pass_waiting (s : State) (dt : Nat) : (s.pass dt).waiting = s.waiting := rfl
@[simp] theorem State.pass_retired (s : State) (dt : Nat) : (s.pass dt).retired = s.retired := rfl
@[simp] theorem State.pass_lates (s : State) (dt : Nat) : (s.pass dt).lates = s.lates := rfl
@[simp] theorem State.pass_corrected (s : State) (dt : Nat) : (s.pass dt).corrected = s.corrected := rfl
@[simp] theorem State.pass_saved (s : State) (dt : Nat) : (s.pass dt).saved = s.saved := rfl
@[simp] theorem State.pass_ctxs (s : State) (dt : Nat) : (s.pass dt).ctxs = s.ctxs := rfl
@[simp] theorem State.pass_vfs (s : State) (dt : Nat) : (s.pass dt).vfs = s.vfs := rfl
@[simp] theorem State.pass_dies (s : State) (dt : Nat) : (s.pass dt).dies = s.dies := rfl
@[simp] theorem State.pass_cores (s : State) (dt : Nat) : (s.pass dt).cores = s.cores := rfl
@[simp] theorem State.pass_tracts (s : State) (dt : Nat) : (s.pass dt).tracts = s.tracts := rfl
@[simp] theorem State.pass_links (s : State) (dt : Nat) : (s.pass dt).links = s.links := rfl
@[simp] theorem State.pass_isls (s : State) (dt : Nat) : (s.pass dt).isls = s.isls := rfl
@[simp] theorem State.pass_hdies (s : State) (dt : Nat) : (s.pass dt).hdies = s.hdies := rfl
@[simp] theorem State.pass_hub (s : State) (dt : Nat) : (s.pass dt).hub = s.hub := rfl
@[simp] theorem State.pass_olds (s : State) (dt : Nat) : (s.pass dt).olds = s.olds := rfl
@[simp] theorem State.pass_nextOld (s : State) (dt : Nat) : (s.pass dt).nextOld = s.nextOld := rfl
@[simp] theorem State.pass_rels (s : State) (dt : Nat) : (s.pass dt).rels = s.rels := rfl
@[simp] theorem State.pass_actor (s : State) (dt : Nat) : (s.pass dt).actor = s.actor := rfl
@[simp] theorem State.pass_upsets (s : State) (dt : Nat) : (s.pass dt).upsets = s.upsets := rfl
@[simp] theorem State.pass_bus (s : State) (dt : Nat) : (s.pass dt).bus = s.bus := rfl

/-! ## `State.mapBlocks` -/

@[simp] theorem State.mapBlocks_blk (s : State) (f : Block → Block) : (s.mapBlocks f).blk = f s.blk := rfl
@[simp] theorem State.mapBlocks_others (s : State) (f : Block → Block) :
    (s.mapBlocks f).others = s.others.map f := rfl
@[simp] theorem State.mapBlocks_eng (s : State) (f : Block → Block) : (s.mapBlocks f).eng = s.eng := rfl
@[simp] theorem State.mapBlocks_agenda (s : State) (f : Block → Block) : (s.mapBlocks f).agenda = s.agenda := rfl
@[simp] theorem State.mapBlocks_free (s : State) (f : Block → Block) : (s.mapBlocks f).free = s.free := rfl
@[simp] theorem State.mapBlocks_time (s : State) (f : Block → Block) : (s.mapBlocks f).time = s.time := rfl
@[simp] theorem State.mapBlocks_nextUid (s : State) (f : Block → Block) : (s.mapBlocks f).nextUid = s.nextUid := rfl
@[simp] theorem State.mapBlocks_nextKey (s : State) (f : Block → Block) : (s.mapBlocks f).nextKey = s.nextKey := rfl
@[simp] theorem State.mapBlocks_mem (s : State) (f : Block → Block) : (s.mapBlocks f).mem = s.mem := rfl
@[simp] theorem State.mapBlocks_poison (s : State) (f : Block → Block) : (s.mapBlocks f).poison = s.poison := rfl
@[simp] theorem State.mapBlocks_unitKeys (s : State) (f : Block → Block) :
    (s.mapBlocks f).unitKeys = s.unitKeys := rfl
@[simp] theorem State.mapBlocks_tasks (s : State) (f : Block → Block) : (s.mapBlocks f).tasks = s.tasks := rfl
@[simp] theorem State.mapBlocks_waiting (s : State) (f : Block → Block) : (s.mapBlocks f).waiting = s.waiting := rfl
@[simp] theorem State.mapBlocks_retired (s : State) (f : Block → Block) : (s.mapBlocks f).retired = s.retired := rfl
@[simp] theorem State.mapBlocks_lates (s : State) (f : Block → Block) : (s.mapBlocks f).lates = s.lates := rfl
@[simp] theorem State.mapBlocks_corrected (s : State) (f : Block → Block) : (s.mapBlocks f).corrected = s.corrected := rfl
@[simp] theorem State.mapBlocks_saved (s : State) (f : Block → Block) : (s.mapBlocks f).saved = s.saved := rfl
@[simp] theorem State.mapBlocks_ctxs (s : State) (f : Block → Block) : (s.mapBlocks f).ctxs = s.ctxs := rfl
@[simp] theorem State.mapBlocks_vfs (s : State) (f : Block → Block) : (s.mapBlocks f).vfs = s.vfs := rfl
@[simp] theorem State.mapBlocks_dies (s : State) (f : Block → Block) : (s.mapBlocks f).dies = s.dies := rfl
@[simp] theorem State.mapBlocks_cores (s : State) (f : Block → Block) : (s.mapBlocks f).cores = s.cores := rfl
@[simp] theorem State.mapBlocks_tracts (s : State) (f : Block → Block) : (s.mapBlocks f).tracts = s.tracts := rfl
@[simp] theorem State.mapBlocks_links (s : State) (f : Block → Block) : (s.mapBlocks f).links = s.links := rfl
@[simp] theorem State.mapBlocks_isls (s : State) (f : Block → Block) : (s.mapBlocks f).isls = s.isls := rfl
@[simp] theorem State.mapBlocks_hdies (s : State) (f : Block → Block) : (s.mapBlocks f).hdies = s.hdies := rfl
@[simp] theorem State.mapBlocks_hub (s : State) (f : Block → Block) : (s.mapBlocks f).hub = s.hub := rfl
@[simp] theorem State.mapBlocks_olds (s : State) (f : Block → Block) : (s.mapBlocks f).olds = s.olds := rfl
@[simp] theorem State.mapBlocks_nextOld (s : State) (f : Block → Block) : (s.mapBlocks f).nextOld = s.nextOld := rfl
@[simp] theorem State.mapBlocks_rels (s : State) (f : Block → Block) : (s.mapBlocks f).rels = s.rels := rfl
@[simp] theorem State.mapBlocks_actor (s : State) (f : Block → Block) : (s.mapBlocks f).actor = s.actor := rfl
@[simp] theorem State.mapBlocks_upsets (s : State) (f : Block → Block) : (s.mapBlocks f).upsets = s.upsets := rfl
@[simp] theorem State.mapBlocks_bus (s : State) (f : Block → Block) : (s.mapBlocks f).bus = s.bus := rfl

/-! ## `State.complete` -/

@[simp] theorem State.complete_blk (s : State) (e : Eng) (n : Nat) (f : Flow) :
    (s.complete e n f).blk = { s.blk.modStr e (fun st => { st.complete n f with since := s.time }) with idle := s.time } := rfl
@[simp] theorem State.complete_others (s : State) (e : Eng) (n : Nat) (f : Flow) :
    (s.complete e n f).others = s.others := rfl
@[simp] theorem State.complete_eng (s : State) (e : Eng) (n : Nat) (f : Flow) : (s.complete e n f).eng = s.eng := rfl
@[simp] theorem State.complete_agenda (s : State) (e : Eng) (n : Nat) (f : Flow) :
    (s.complete e n f).agenda = s.agenda := rfl
@[simp] theorem State.complete_free (s : State) (e : Eng) (n : Nat) (f : Flow) :
    (s.complete e n f).free = s.free := rfl
@[simp] theorem State.complete_time (s : State) (e : Eng) (n : Nat) (f : Flow) :
    (s.complete e n f).time = s.time := rfl
@[simp] theorem State.complete_nextUid (s : State) (e : Eng) (n : Nat) (f : Flow) :
    (s.complete e n f).nextUid = s.nextUid := rfl
@[simp] theorem State.complete_nextKey (s : State) (e : Eng) (n : Nat) (f : Flow) :
    (s.complete e n f).nextKey = s.nextKey := rfl
@[simp] theorem State.complete_mem (s : State) (e : Eng) (n : Nat) (f : Flow) : (s.complete e n f).mem = s.mem := rfl
@[simp] theorem State.complete_poison (s : State) (e : Eng) (n : Nat) (f : Flow) :
    (s.complete e n f).poison = s.poison := rfl
@[simp] theorem State.complete_unitKeys (s : State) (e : Eng) (n : Nat) (f : Flow) :
    (s.complete e n f).unitKeys = s.unitKeys := rfl
@[simp] theorem State.complete_tasks (s : State) (e : Eng) (n : Nat) (f : Flow) :
    (s.complete e n f).tasks = s.tasks := rfl
@[simp] theorem State.complete_waiting (s : State) (e : Eng) (n : Nat) (f : Flow) :
    (s.complete e n f).waiting = s.waiting := rfl
@[simp] theorem State.complete_retired (s : State) (e : Eng) (n : Nat) (f : Flow) :
    (s.complete e n f).retired = s.retired := rfl
@[simp] theorem State.complete_lates (s : State) (e : Eng) (n : Nat) (f : Flow) :
    (s.complete e n f).lates = s.lates := rfl
@[simp] theorem State.complete_corrected (s : State) (e : Eng) (n : Nat) (f : Flow) :
    (s.complete e n f).corrected = s.corrected := rfl
@[simp] theorem State.complete_saved (s : State) (e : Eng) (n : Nat) (f : Flow) :
    (s.complete e n f).saved = s.saved := rfl
@[simp] theorem State.complete_ctxs (s : State) (e : Eng) (n : Nat) (f : Flow) :
    (s.complete e n f).ctxs = s.ctxs := rfl
@[simp] theorem State.complete_vfs (s : State) (e : Eng) (n : Nat) (f : Flow) : (s.complete e n f).vfs = s.vfs := rfl
@[simp] theorem State.complete_dies (s : State) (e : Eng) (n : Nat) (f : Flow) :
    (s.complete e n f).dies = s.dies := rfl
@[simp] theorem State.complete_cores (s : State) (e : Eng) (n : Nat) (f : Flow) :
    (s.complete e n f).cores = s.cores := rfl
@[simp] theorem State.complete_tracts (s : State) (e : Eng) (n : Nat) (f : Flow) :
    (s.complete e n f).tracts = s.tracts := rfl
@[simp] theorem State.complete_links (s : State) (e : Eng) (n : Nat) (f : Flow) :
    (s.complete e n f).links = s.links := rfl
@[simp] theorem State.complete_isls (s : State) (e : Eng) (n : Nat) (f : Flow) :
    (s.complete e n f).isls = s.isls := rfl
@[simp] theorem State.complete_hdies (s : State) (e : Eng) (n : Nat) (f : Flow) :
    (s.complete e n f).hdies = s.hdies := rfl
@[simp] theorem State.complete_hub (s : State) (e : Eng) (n : Nat) (f : Flow) : (s.complete e n f).hub = s.hub := rfl
@[simp] theorem State.complete_olds (s : State) (e : Eng) (n : Nat) (f : Flow) :
    (s.complete e n f).olds = s.olds := rfl
@[simp] theorem State.complete_nextOld (s : State) (e : Eng) (n : Nat) (f : Flow) :
    (s.complete e n f).nextOld = s.nextOld := rfl
@[simp] theorem State.complete_rels (s : State) (e : Eng) (n : Nat) (f : Flow) :
    (s.complete e n f).rels = s.rels := rfl
@[simp] theorem State.complete_actor (s : State) (e : Eng) (n : Nat) (f : Flow) :
    (s.complete e n f).actor = s.actor := rfl
@[simp] theorem State.complete_upsets (s : State) (e : Eng) (n : Nat) (f : Flow) :
    (s.complete e n f).upsets = s.upsets := rfl
@[simp] theorem State.complete_bus (s : State) (e : Eng) (n : Nat) (f : Flow) : (s.complete e n f).bus = s.bus := rfl

/-! ## `State.discardRound` -/

@[simp] theorem State.discardRound_blk (s : State) (b : Bool) :
    (s.discardRound b).blk = { s.blk with scout := { s.blk.scout with round := .rerun b } } := rfl
@[simp] theorem State.discardRound_others (s : State) (b : Bool) : (s.discardRound b).others = s.others := rfl
@[simp] theorem State.discardRound_eng (s : State) (b : Bool) : (s.discardRound b).eng = s.eng := rfl
@[simp] theorem State.discardRound_agenda (s : State) (b : Bool) : (s.discardRound b).agenda = s.agenda := rfl
@[simp] theorem State.discardRound_free (s : State) (b : Bool) : (s.discardRound b).free = s.free := rfl
@[simp] theorem State.discardRound_time (s : State) (b : Bool) : (s.discardRound b).time = s.time := rfl
@[simp] theorem State.discardRound_nextUid (s : State) (b : Bool) : (s.discardRound b).nextUid = s.nextUid := rfl
@[simp] theorem State.discardRound_nextKey (s : State) (b : Bool) : (s.discardRound b).nextKey = s.nextKey := rfl
@[simp] theorem State.discardRound_mem (s : State) (b : Bool) : (s.discardRound b).mem = s.mem := rfl
@[simp] theorem State.discardRound_poison (s : State) (b : Bool) : (s.discardRound b).poison = s.poison := rfl
@[simp] theorem State.discardRound_unitKeys (s : State) (b : Bool) : (s.discardRound b).unitKeys = s.unitKeys := rfl
@[simp] theorem State.discardRound_tasks (s : State) (b : Bool) : (s.discardRound b).tasks = s.tasks := rfl
@[simp] theorem State.discardRound_waiting (s : State) (b : Bool) : (s.discardRound b).waiting = s.waiting := rfl
@[simp] theorem State.discardRound_retired (s : State) (b : Bool) : (s.discardRound b).retired = s.retired := rfl
@[simp] theorem State.discardRound_lates (s : State) (b : Bool) : (s.discardRound b).lates = s.lates := rfl
@[simp] theorem State.discardRound_corrected (s : State) (b : Bool) : (s.discardRound b).corrected = s.corrected := rfl
@[simp] theorem State.discardRound_saved (s : State) (b : Bool) : (s.discardRound b).saved = s.saved := rfl
@[simp] theorem State.discardRound_ctxs (s : State) (b : Bool) : (s.discardRound b).ctxs = s.ctxs := rfl
@[simp] theorem State.discardRound_vfs (s : State) (b : Bool) : (s.discardRound b).vfs = s.vfs := rfl
@[simp] theorem State.discardRound_dies (s : State) (b : Bool) : (s.discardRound b).dies = s.dies := rfl
@[simp] theorem State.discardRound_cores (s : State) (b : Bool) : (s.discardRound b).cores = s.cores := rfl
@[simp] theorem State.discardRound_tracts (s : State) (b : Bool) : (s.discardRound b).tracts = s.tracts := rfl
@[simp] theorem State.discardRound_links (s : State) (b : Bool) : (s.discardRound b).links = s.links := rfl
@[simp] theorem State.discardRound_isls (s : State) (b : Bool) : (s.discardRound b).isls = s.isls := rfl
@[simp] theorem State.discardRound_hdies (s : State) (b : Bool) : (s.discardRound b).hdies = s.hdies := rfl
@[simp] theorem State.discardRound_hub (s : State) (b : Bool) : (s.discardRound b).hub = s.hub := rfl
@[simp] theorem State.discardRound_olds (s : State) (b : Bool) : (s.discardRound b).olds = s.olds := rfl
@[simp] theorem State.discardRound_nextOld (s : State) (b : Bool) : (s.discardRound b).nextOld = s.nextOld := rfl
@[simp] theorem State.discardRound_rels (s : State) (b : Bool) : (s.discardRound b).rels = s.rels := rfl
@[simp] theorem State.discardRound_actor (s : State) (b : Bool) : (s.discardRound b).actor = s.actor := rfl
@[simp] theorem State.discardRound_upsets (s : State) (b : Bool) : (s.discardRound b).upsets = s.upsets := rfl
@[simp] theorem State.discardRound_bus (s : State) (b : Bool) : (s.discardRound b).bus = s.bus := rfl

/-! ## `State.clockUp` -/

@[simp] theorem State.clockUp_blk (s : State) (d : Fin 8) : (s.clockUp d).blk = s.blk := rfl
@[simp] theorem State.clockUp_others (s : State) (d : Fin 8) : (s.clockUp d).others = s.others := rfl
@[simp] theorem State.clockUp_eng (s : State) (d : Fin 8) : (s.clockUp d).eng = s.eng := rfl
@[simp] theorem State.clockUp_agenda (s : State) (d : Fin 8) : (s.clockUp d).agenda = s.agenda := rfl
@[simp] theorem State.clockUp_free (s : State) (d : Fin 8) : (s.clockUp d).free = s.free := rfl
@[simp] theorem State.clockUp_time (s : State) (d : Fin 8) : (s.clockUp d).time = s.time := rfl
@[simp] theorem State.clockUp_nextUid (s : State) (d : Fin 8) : (s.clockUp d).nextUid = s.nextUid := rfl
@[simp] theorem State.clockUp_nextKey (s : State) (d : Fin 8) : (s.clockUp d).nextKey = s.nextKey := rfl
@[simp] theorem State.clockUp_mem (s : State) (d : Fin 8) : (s.clockUp d).mem = s.mem := rfl
@[simp] theorem State.clockUp_poison (s : State) (d : Fin 8) : (s.clockUp d).poison = s.poison := rfl
@[simp] theorem State.clockUp_unitKeys (s : State) (d : Fin 8) : (s.clockUp d).unitKeys = s.unitKeys := rfl
@[simp] theorem State.clockUp_tasks (s : State) (d : Fin 8) : (s.clockUp d).tasks = s.tasks := rfl
@[simp] theorem State.clockUp_waiting (s : State) (d : Fin 8) : (s.clockUp d).waiting = s.waiting := rfl
@[simp] theorem State.clockUp_retired (s : State) (d : Fin 8) : (s.clockUp d).retired = s.retired := rfl
@[simp] theorem State.clockUp_lates (s : State) (d : Fin 8) : (s.clockUp d).lates = s.lates := rfl
@[simp] theorem State.clockUp_corrected (s : State) (d : Fin 8) : (s.clockUp d).corrected = s.corrected := rfl
@[simp] theorem State.clockUp_saved (s : State) (d : Fin 8) : (s.clockUp d).saved = s.saved := rfl
@[simp] theorem State.clockUp_ctxs (s : State) (d : Fin 8) : (s.clockUp d).ctxs = s.ctxs := rfl
@[simp] theorem State.clockUp_vfs (s : State) (d : Fin 8) : (s.clockUp d).vfs = s.vfs := rfl
@[simp] theorem State.clockUp_cores (s : State) (d : Fin 8) : (s.clockUp d).cores = s.cores := rfl
@[simp] theorem State.clockUp_tracts (s : State) (d : Fin 8) : (s.clockUp d).tracts = s.tracts := rfl
@[simp] theorem State.clockUp_links (s : State) (d : Fin 8) : (s.clockUp d).links = s.links := rfl
@[simp] theorem State.clockUp_isls (s : State) (d : Fin 8) : (s.clockUp d).isls = s.isls := rfl
@[simp] theorem State.clockUp_hdies (s : State) (d : Fin 8) : (s.clockUp d).hdies = s.hdies := rfl
@[simp] theorem State.clockUp_hub (s : State) (d : Fin 8) : (s.clockUp d).hub = s.hub := rfl
@[simp] theorem State.clockUp_olds (s : State) (d : Fin 8) : (s.clockUp d).olds = s.olds := rfl
@[simp] theorem State.clockUp_nextOld (s : State) (d : Fin 8) : (s.clockUp d).nextOld = s.nextOld := rfl
@[simp] theorem State.clockUp_rels (s : State) (d : Fin 8) : (s.clockUp d).rels = s.rels := rfl
@[simp] theorem State.clockUp_actor (s : State) (d : Fin 8) : (s.clockUp d).actor = s.actor := rfl
@[simp] theorem State.clockUp_upsets (s : State) (d : Fin 8) : (s.clockUp d).upsets = s.upsets := rfl
@[simp] theorem State.clockUp_bus (s : State) (d : Fin 8) : (s.clockUp d).bus = s.bus := rfl

/-! ## `State.onMark` -/

@[simp] theorem State.onMark_others (s : State) (e : Eng) (va : Nat) : (s.onMark e va).others = s.others := rfl
@[simp] theorem State.onMark_eng (s : State) (e : Eng) (va : Nat) : (s.onMark e va).eng = s.eng := rfl
@[simp] theorem State.onMark_agenda (s : State) (e : Eng) (va : Nat) : (s.onMark e va).agenda = s.agenda := rfl
@[simp] theorem State.onMark_free (s : State) (e : Eng) (va : Nat) : (s.onMark e va).free = s.free := rfl
@[simp] theorem State.onMark_time (s : State) (e : Eng) (va : Nat) : (s.onMark e va).time = s.time := rfl
@[simp] theorem State.onMark_nextUid (s : State) (e : Eng) (va : Nat) : (s.onMark e va).nextUid = s.nextUid := rfl
@[simp] theorem State.onMark_nextKey (s : State) (e : Eng) (va : Nat) : (s.onMark e va).nextKey = s.nextKey := rfl
@[simp] theorem State.onMark_mem (s : State) (e : Eng) (va : Nat) : (s.onMark e va).mem = s.mem := rfl
@[simp] theorem State.onMark_poison (s : State) (e : Eng) (va : Nat) : (s.onMark e va).poison = s.poison := rfl
@[simp] theorem State.onMark_unitKeys (s : State) (e : Eng) (va : Nat) : (s.onMark e va).unitKeys = s.unitKeys := rfl
@[simp] theorem State.onMark_tasks (s : State) (e : Eng) (va : Nat) : (s.onMark e va).tasks = s.tasks := rfl
@[simp] theorem State.onMark_waiting (s : State) (e : Eng) (va : Nat) : (s.onMark e va).waiting = s.waiting := rfl
@[simp] theorem State.onMark_retired (s : State) (e : Eng) (va : Nat) : (s.onMark e va).retired = s.retired := rfl
@[simp] theorem State.onMark_lates (s : State) (e : Eng) (va : Nat) : (s.onMark e va).lates = s.lates := rfl
@[simp] theorem State.onMark_corrected (s : State) (e : Eng) (va : Nat) : (s.onMark e va).corrected = s.corrected := rfl
@[simp] theorem State.onMark_saved (s : State) (e : Eng) (va : Nat) : (s.onMark e va).saved = s.saved := rfl
@[simp] theorem State.onMark_ctxs (s : State) (e : Eng) (va : Nat) : (s.onMark e va).ctxs = s.ctxs := rfl
@[simp] theorem State.onMark_vfs (s : State) (e : Eng) (va : Nat) : (s.onMark e va).vfs = s.vfs := rfl
@[simp] theorem State.onMark_dies (s : State) (e : Eng) (va : Nat) : (s.onMark e va).dies = s.dies := rfl
@[simp] theorem State.onMark_cores (s : State) (e : Eng) (va : Nat) : (s.onMark e va).cores = s.cores := rfl
@[simp] theorem State.onMark_tracts (s : State) (e : Eng) (va : Nat) : (s.onMark e va).tracts = s.tracts := rfl
@[simp] theorem State.onMark_links (s : State) (e : Eng) (va : Nat) : (s.onMark e va).links = s.links := rfl
@[simp] theorem State.onMark_isls (s : State) (e : Eng) (va : Nat) : (s.onMark e va).isls = s.isls := rfl
@[simp] theorem State.onMark_hdies (s : State) (e : Eng) (va : Nat) : (s.onMark e va).hdies = s.hdies := rfl
@[simp] theorem State.onMark_hub (s : State) (e : Eng) (va : Nat) : (s.onMark e va).hub = s.hub := rfl
@[simp] theorem State.onMark_olds (s : State) (e : Eng) (va : Nat) : (s.onMark e va).olds = s.olds := rfl
@[simp] theorem State.onMark_nextOld (s : State) (e : Eng) (va : Nat) : (s.onMark e va).nextOld = s.nextOld := rfl
@[simp] theorem State.onMark_rels (s : State) (e : Eng) (va : Nat) : (s.onMark e va).rels = s.rels := rfl
@[simp] theorem State.onMark_actor (s : State) (e : Eng) (va : Nat) : (s.onMark e va).actor = s.actor := rfl
@[simp] theorem State.onMark_upsets (s : State) (e : Eng) (va : Nat) : (s.onMark e va).upsets = s.upsets := rfl
@[simp] theorem State.onMark_bus (s : State) (e : Eng) (va : Nat) : (s.onMark e va).bus = s.bus := rfl

/-! ## Releases and acquires: they touch the clocks of a die, and who knows which write (R55, R56) -/

theorem State.mergeRels_eq (s : State) (d : Fin 8) (l : List Released) : ∃ x, s.mergeRels d l = { s with dies := x } := by
  induction l generalizing s with
  | nil => exact ⟨s.dies, rfl⟩
  | cons r l ih =>
    obtain ⟨x, h⟩ := ih (s.mergeIn d r.clock)
    exact ⟨x, h⟩

theorem State.releaseOf_eq (s : State) (b : Block) (p : Party) (l : List SyncObj) (sc : Scope) :
    ∃ x r l', s.releaseOf b p l sc = { s with dies := x, rels := r, lates := l' } := by
  have key : ∀ (l : List SyncObj) (s : State), ∃ r, l.foldl (fun s o => s.publish b p o sc) s = { s with rels := r } := by
    intro l
    induction l with
    | nil => exact fun s => ⟨s.rels, rfl⟩
    | cons o l ih =>
      intro s
      obtain ⟨r, h⟩ := ih (s.publish b p o sc)
      exact ⟨r, h⟩
  obtain ⟨r, h⟩ := key l ((s.clockUp b.die).settleAll p)
  exact ⟨_, r, _, h⟩

theorem State.release_eq (s : State) (p : Party) (o : SyncObj) (sc : Scope) :
    ∃ x r l', s.release p o sc = { s with dies := x, rels := r, lates := l' } := s.releaseOf_eq s.blk p [o] sc

theorem State.acquireOf_eq (s : State) (b : Block) (e : Eng) (o : SyncObj) (sc : Scope) :
    ∃ x y, s.acquireOf b e o sc = { s with dies := x, olds := y } := by
  obtain ⟨x, h⟩ := s.mergeRels_eq b.die (s.met b (.strand b.uid e) o sc)
  exact ⟨x, _, by simp only [State.acquireOf, h]; rfl⟩

theorem State.acquire_eq (s : State) (e : Eng) (o : SyncObj) (sc : Scope) :
    ∃ x y, s.acquire e o sc = { s with dies := x, olds := y } := s.acquireOf_eq s.blk e o sc

@[simp] theorem State.release_blk (s : State) (p : Party) (o : SyncObj) (sc : Scope) : (s.release p o sc).blk = s.blk := by
  obtain ⟨_, _, _, h⟩ := s.release_eq p o sc; rw [h]
@[simp] theorem State.release_others (s : State) (p : Party) (o : SyncObj) (sc : Scope) : (s.release p o sc).others = s.others := by
  obtain ⟨_, _, _, h⟩ := s.release_eq p o sc; rw [h]
@[simp] theorem State.release_eng (s : State) (p : Party) (o : SyncObj) (sc : Scope) : (s.release p o sc).eng = s.eng := by
  obtain ⟨_, _, _, h⟩ := s.release_eq p o sc; rw [h]
@[simp] theorem State.release_agenda (s : State) (p : Party) (o : SyncObj) (sc : Scope) : (s.release p o sc).agenda = s.agenda := by
  obtain ⟨_, _, _, h⟩ := s.release_eq p o sc; rw [h]
@[simp] theorem State.release_free (s : State) (p : Party) (o : SyncObj) (sc : Scope) : (s.release p o sc).free = s.free := by
  obtain ⟨_, _, _, h⟩ := s.release_eq p o sc; rw [h]
@[simp] theorem State.release_time (s : State) (p : Party) (o : SyncObj) (sc : Scope) : (s.release p o sc).time = s.time := by
  obtain ⟨_, _, _, h⟩ := s.release_eq p o sc; rw [h]
@[simp] theorem State.release_nextUid (s : State) (p : Party) (o : SyncObj) (sc : Scope) : (s.release p o sc).nextUid = s.nextUid := by
  obtain ⟨_, _, _, h⟩ := s.release_eq p o sc; rw [h]
@[simp] theorem State.release_nextKey (s : State) (p : Party) (o : SyncObj) (sc : Scope) : (s.release p o sc).nextKey = s.nextKey := by
  obtain ⟨_, _, _, h⟩ := s.release_eq p o sc; rw [h]
@[simp] theorem State.release_mem (s : State) (p : Party) (o : SyncObj) (sc : Scope) : (s.release p o sc).mem = s.mem := by
  obtain ⟨_, _, _, h⟩ := s.release_eq p o sc; rw [h]
@[simp] theorem State.release_poison (s : State) (p : Party) (o : SyncObj) (sc : Scope) : (s.release p o sc).poison = s.poison := by
  obtain ⟨_, _, _, h⟩ := s.release_eq p o sc; rw [h]
@[simp] theorem State.release_unitKeys (s : State) (p : Party) (o : SyncObj) (sc : Scope) : (s.release p o sc).unitKeys = s.unitKeys := by
  obtain ⟨_, _, _, h⟩ := s.release_eq p o sc; rw [h]
@[simp] theorem State.release_tasks (s : State) (p : Party) (o : SyncObj) (sc : Scope) : (s.release p o sc).tasks = s.tasks := by
  obtain ⟨_, _, _, h⟩ := s.release_eq p o sc; rw [h]
@[simp] theorem State.release_waiting (s : State) (p : Party) (o : SyncObj) (sc : Scope) : (s.release p o sc).waiting = s.waiting := by
  obtain ⟨_, _, _, h⟩ := s.release_eq p o sc; rw [h]
@[simp] theorem State.release_retired (s : State) (p : Party) (o : SyncObj) (sc : Scope) : (s.release p o sc).retired = s.retired := by
  obtain ⟨_, _, _, h⟩ := s.release_eq p o sc; rw [h]
@[simp] theorem State.release_corrected (s : State) (p : Party) (o : SyncObj) (sc : Scope) : (s.release p o sc).corrected = s.corrected := by
  obtain ⟨_, _, _, h⟩ := s.release_eq p o sc; rw [h]
@[simp] theorem State.release_saved (s : State) (p : Party) (o : SyncObj) (sc : Scope) : (s.release p o sc).saved = s.saved := by
  obtain ⟨_, _, _, h⟩ := s.release_eq p o sc; rw [h]
@[simp] theorem State.release_ctxs (s : State) (p : Party) (o : SyncObj) (sc : Scope) : (s.release p o sc).ctxs = s.ctxs := by
  obtain ⟨_, _, _, h⟩ := s.release_eq p o sc; rw [h]
@[simp] theorem State.release_vfs (s : State) (p : Party) (o : SyncObj) (sc : Scope) : (s.release p o sc).vfs = s.vfs := by
  obtain ⟨_, _, _, h⟩ := s.release_eq p o sc; rw [h]
@[simp] theorem State.release_cores (s : State) (p : Party) (o : SyncObj) (sc : Scope) : (s.release p o sc).cores = s.cores := by
  obtain ⟨_, _, _, h⟩ := s.release_eq p o sc; rw [h]
@[simp] theorem State.release_tracts (s : State) (p : Party) (o : SyncObj) (sc : Scope) : (s.release p o sc).tracts = s.tracts := by
  obtain ⟨_, _, _, h⟩ := s.release_eq p o sc; rw [h]
@[simp] theorem State.release_links (s : State) (p : Party) (o : SyncObj) (sc : Scope) : (s.release p o sc).links = s.links := by
  obtain ⟨_, _, _, h⟩ := s.release_eq p o sc; rw [h]
@[simp] theorem State.release_isls (s : State) (p : Party) (o : SyncObj) (sc : Scope) : (s.release p o sc).isls = s.isls := by
  obtain ⟨_, _, _, h⟩ := s.release_eq p o sc; rw [h]
@[simp] theorem State.release_hdies (s : State) (p : Party) (o : SyncObj) (sc : Scope) : (s.release p o sc).hdies = s.hdies := by
  obtain ⟨_, _, _, h⟩ := s.release_eq p o sc; rw [h]
@[simp] theorem State.release_hub (s : State) (p : Party) (o : SyncObj) (sc : Scope) : (s.release p o sc).hub = s.hub := by
  obtain ⟨_, _, _, h⟩ := s.release_eq p o sc; rw [h]
@[simp] theorem State.release_olds (s : State) (p : Party) (o : SyncObj) (sc : Scope) : (s.release p o sc).olds = s.olds := by
  obtain ⟨_, _, _, h⟩ := s.release_eq p o sc; rw [h]
@[simp] theorem State.release_nextOld (s : State) (p : Party) (o : SyncObj) (sc : Scope) : (s.release p o sc).nextOld = s.nextOld := by
  obtain ⟨_, _, _, h⟩ := s.release_eq p o sc; rw [h]
@[simp] theorem State.release_actor (s : State) (p : Party) (o : SyncObj) (sc : Scope) : (s.release p o sc).actor = s.actor := by
  obtain ⟨_, _, _, h⟩ := s.release_eq p o sc; rw [h]
@[simp] theorem State.release_upsets (s : State) (p : Party) (o : SyncObj) (sc : Scope) : (s.release p o sc).upsets = s.upsets := by
  obtain ⟨_, _, _, h⟩ := s.release_eq p o sc; rw [h]
@[simp] theorem State.release_bus (s : State) (p : Party) (o : SyncObj) (sc : Scope) : (s.release p o sc).bus = s.bus := by
  obtain ⟨_, _, _, h⟩ := s.release_eq p o sc; rw [h]

@[simp] theorem State.acquire_blk (s : State) (e : Eng) (o : SyncObj) (sc : Scope) : (s.acquire e o sc).blk = s.blk := by
  obtain ⟨_, _, h⟩ := s.acquire_eq e o sc; rw [h]
@[simp] theorem State.acquire_others (s : State) (e : Eng) (o : SyncObj) (sc : Scope) : (s.acquire e o sc).others = s.others := by
  obtain ⟨_, _, h⟩ := s.acquire_eq e o sc; rw [h]
@[simp] theorem State.acquire_eng (s : State) (e : Eng) (o : SyncObj) (sc : Scope) : (s.acquire e o sc).eng = s.eng := by
  obtain ⟨_, _, h⟩ := s.acquire_eq e o sc; rw [h]
@[simp] theorem State.acquire_agenda (s : State) (e : Eng) (o : SyncObj) (sc : Scope) : (s.acquire e o sc).agenda = s.agenda := by
  obtain ⟨_, _, h⟩ := s.acquire_eq e o sc; rw [h]
@[simp] theorem State.acquire_free (s : State) (e : Eng) (o : SyncObj) (sc : Scope) : (s.acquire e o sc).free = s.free := by
  obtain ⟨_, _, h⟩ := s.acquire_eq e o sc; rw [h]
@[simp] theorem State.acquire_time (s : State) (e : Eng) (o : SyncObj) (sc : Scope) : (s.acquire e o sc).time = s.time := by
  obtain ⟨_, _, h⟩ := s.acquire_eq e o sc; rw [h]
@[simp] theorem State.acquire_nextUid (s : State) (e : Eng) (o : SyncObj) (sc : Scope) : (s.acquire e o sc).nextUid = s.nextUid := by
  obtain ⟨_, _, h⟩ := s.acquire_eq e o sc; rw [h]
@[simp] theorem State.acquire_nextKey (s : State) (e : Eng) (o : SyncObj) (sc : Scope) : (s.acquire e o sc).nextKey = s.nextKey := by
  obtain ⟨_, _, h⟩ := s.acquire_eq e o sc; rw [h]
@[simp] theorem State.acquire_mem (s : State) (e : Eng) (o : SyncObj) (sc : Scope) : (s.acquire e o sc).mem = s.mem := by
  obtain ⟨_, _, h⟩ := s.acquire_eq e o sc; rw [h]
@[simp] theorem State.acquire_poison (s : State) (e : Eng) (o : SyncObj) (sc : Scope) : (s.acquire e o sc).poison = s.poison := by
  obtain ⟨_, _, h⟩ := s.acquire_eq e o sc; rw [h]
@[simp] theorem State.acquire_unitKeys (s : State) (e : Eng) (o : SyncObj) (sc : Scope) : (s.acquire e o sc).unitKeys = s.unitKeys := by
  obtain ⟨_, _, h⟩ := s.acquire_eq e o sc; rw [h]
@[simp] theorem State.acquire_tasks (s : State) (e : Eng) (o : SyncObj) (sc : Scope) : (s.acquire e o sc).tasks = s.tasks := by
  obtain ⟨_, _, h⟩ := s.acquire_eq e o sc; rw [h]
@[simp] theorem State.acquire_waiting (s : State) (e : Eng) (o : SyncObj) (sc : Scope) : (s.acquire e o sc).waiting = s.waiting := by
  obtain ⟨_, _, h⟩ := s.acquire_eq e o sc; rw [h]
@[simp] theorem State.acquire_retired (s : State) (e : Eng) (o : SyncObj) (sc : Scope) : (s.acquire e o sc).retired = s.retired := by
  obtain ⟨_, _, h⟩ := s.acquire_eq e o sc; rw [h]
@[simp] theorem State.acquire_lates (s : State) (e : Eng) (o : SyncObj) (sc : Scope) : (s.acquire e o sc).lates = s.lates := by
  obtain ⟨_, _, h⟩ := s.acquire_eq e o sc; rw [h]
@[simp] theorem State.acquire_corrected (s : State) (e : Eng) (o : SyncObj) (sc : Scope) : (s.acquire e o sc).corrected = s.corrected := by
  obtain ⟨_, _, h⟩ := s.acquire_eq e o sc; rw [h]
@[simp] theorem State.acquire_saved (s : State) (e : Eng) (o : SyncObj) (sc : Scope) : (s.acquire e o sc).saved = s.saved := by
  obtain ⟨_, _, h⟩ := s.acquire_eq e o sc; rw [h]
@[simp] theorem State.acquire_ctxs (s : State) (e : Eng) (o : SyncObj) (sc : Scope) : (s.acquire e o sc).ctxs = s.ctxs := by
  obtain ⟨_, _, h⟩ := s.acquire_eq e o sc; rw [h]
@[simp] theorem State.acquire_vfs (s : State) (e : Eng) (o : SyncObj) (sc : Scope) : (s.acquire e o sc).vfs = s.vfs := by
  obtain ⟨_, _, h⟩ := s.acquire_eq e o sc; rw [h]
@[simp] theorem State.acquire_cores (s : State) (e : Eng) (o : SyncObj) (sc : Scope) : (s.acquire e o sc).cores = s.cores := by
  obtain ⟨_, _, h⟩ := s.acquire_eq e o sc; rw [h]
@[simp] theorem State.acquire_tracts (s : State) (e : Eng) (o : SyncObj) (sc : Scope) : (s.acquire e o sc).tracts = s.tracts := by
  obtain ⟨_, _, h⟩ := s.acquire_eq e o sc; rw [h]
@[simp] theorem State.acquire_links (s : State) (e : Eng) (o : SyncObj) (sc : Scope) : (s.acquire e o sc).links = s.links := by
  obtain ⟨_, _, h⟩ := s.acquire_eq e o sc; rw [h]
@[simp] theorem State.acquire_isls (s : State) (e : Eng) (o : SyncObj) (sc : Scope) : (s.acquire e o sc).isls = s.isls := by
  obtain ⟨_, _, h⟩ := s.acquire_eq e o sc; rw [h]
@[simp] theorem State.acquire_hdies (s : State) (e : Eng) (o : SyncObj) (sc : Scope) : (s.acquire e o sc).hdies = s.hdies := by
  obtain ⟨_, _, h⟩ := s.acquire_eq e o sc; rw [h]
@[simp] theorem State.acquire_hub (s : State) (e : Eng) (o : SyncObj) (sc : Scope) : (s.acquire e o sc).hub = s.hub := by
  obtain ⟨_, _, h⟩ := s.acquire_eq e o sc; rw [h]
@[simp] theorem State.acquire_nextOld (s : State) (e : Eng) (o : SyncObj) (sc : Scope) : (s.acquire e o sc).nextOld = s.nextOld := by
  obtain ⟨_, _, h⟩ := s.acquire_eq e o sc; rw [h]
@[simp] theorem State.acquire_rels (s : State) (e : Eng) (o : SyncObj) (sc : Scope) : (s.acquire e o sc).rels = s.rels := by
  obtain ⟨_, _, h⟩ := s.acquire_eq e o sc; rw [h]
@[simp] theorem State.acquire_actor (s : State) (e : Eng) (o : SyncObj) (sc : Scope) : (s.acquire e o sc).actor = s.actor := by
  obtain ⟨_, _, h⟩ := s.acquire_eq e o sc; rw [h]
@[simp] theorem State.acquire_upsets (s : State) (e : Eng) (o : SyncObj) (sc : Scope) : (s.acquire e o sc).upsets = s.upsets := by
  obtain ⟨_, _, h⟩ := s.acquire_eq e o sc; rw [h]
@[simp] theorem State.acquire_bus (s : State) (e : Eng) (o : SyncObj) (sc : Scope) : (s.acquire e o sc).bus = s.bus := by
  obtain ⟨_, _, h⟩ := s.acquire_eq e o sc; rw [h]

/-! ## `Block.modStr` -/

@[simp] theorem Block.modStr_uid (b : Block) (e : Eng) (f : Strand → Strand) : (b.modStr e f).uid = b.uid := rfl
@[simp] theorem Block.modStr_placed (b : Block) (e : Eng) (f : Strand → Strand) :
    (b.modStr e f).placed = b.placed := rfl
@[simp] theorem Block.modStr_started (b : Block) (e : Eng) (f : Strand → Strand) :
    (b.modStr e f).started = b.started := rfl
@[simp] theorem Block.modStr_task (b : Block) (e : Eng) (f : Strand → Strand) : (b.modStr e f).task = b.task := rfl
@[simp] theorem Block.modStr_ctx (b : Block) (e : Eng) (f : Strand → Strand) : (b.modStr e f).ctx = b.ctx := rfl
@[simp] theorem Block.modStr_part (b : Block) (e : Eng) (f : Strand → Strand) : (b.modStr e f).part = b.part := rfl
@[simp] theorem Block.modStr_bidx (b : Block) (e : Eng) (f : Strand → Strand) : (b.modStr e f).bidx = b.bidx := rfl
@[simp] theorem Block.modStr_die (b : Block) (e : Eng) (f : Strand → Strand) : (b.modStr e f).die = b.die := rfl
@[simp] theorem Block.modStr_core (b : Block) (e : Eng) (f : Strand → Strand) : (b.modStr e f).core = b.core := rfl
@[simp] theorem Block.modStr_image (b : Block) (e : Eng) (f : Strand → Strand) : (b.modStr e f).image = b.image := rfl
@[simp] theorem Block.modStr_scratch (b : Block) (e : Eng) (f : Strand → Strand) :
    (b.modStr e f).scratch = b.scratch := rfl
@[simp] theorem Block.modStr_ferryMask (b : Block) (e : Eng) (f : Strand → Strand) :
    (b.modStr e f).ferryMask = b.ferryMask := rfl
@[simp] theorem Block.modStr_slotFlag (b : Block) (e : Eng) (f : Strand → Strand) :
    (b.modStr e f).slotFlag = b.slotFlag := rfl
@[simp] theorem Block.modStr_slot (b : Block) (e : Eng) (f : Strand → Strand) : (b.modStr e f).slot = b.slot := rfl
@[simp] theorem Block.modStr_strands (b : Block) (e : Eng) (f : Strand → Strand) :
    (b.modStr e f).strands = b.strands.set (engIdx e) (f (b.strands[engIdx e])) := rfl
@[simp] theorem Block.modStr_s (b : Block) (e : Eng) (f : Strand → Strand) : (b.modStr e f).s = b.s := rfl
@[simp] theorem Block.modStr_a (b : Block) (e : Eng) (f : Strand → Strand) : (b.modStr e f).a = b.a := rfl
@[simp] theorem Block.modStr_v (b : Block) (e : Eng) (f : Strand → Strand) : (b.modStr e f).v = b.v := rfl
@[simp] theorem Block.modStr_vm (b : Block) (e : Eng) (f : Strand → Strand) : (b.modStr e f).vm = b.vm := rfl
@[simp] theorem Block.modStr_holders (b : Block) (e : Eng) (f : Strand → Strand) :
    (b.modStr e f).holders = b.holders := rfl
@[simp] theorem Block.modStr_rsto (b : Block) (e : Eng) (f : Strand → Strand) : (b.modStr e f).rsto = b.rsto := rfl
@[simp] theorem Block.modStr_acc (b : Block) (e : Eng) (f : Strand → Strand) : (b.modStr e f).acc = b.acc := rfl
@[simp] theorem Block.modStr_dacc (b : Block) (e : Eng) (f : Strand → Strand) : (b.modStr e f).dacc = b.dacc := rfl
@[simp] theorem Block.modStr_gd (b : Block) (e : Eng) (f : Strand → Strand) : (b.modStr e f).gd = b.gd := rfl
@[simp] theorem Block.modStr_q (b : Block) (e : Eng) (f : Strand → Strand) : (b.modStr e f).q = b.q := rfl
@[simp] theorem Block.modStr_vq (b : Block) (e : Eng) (f : Strand → Strand) : (b.modStr e f).vq = b.vq := rfl
@[simp] theorem Block.modStr_pops (b : Block) (e : Eng) (f : Strand → Strand) : (b.modStr e f).pops = b.pops := rfl
@[simp] theorem Block.modStr_engs (b : Block) (e : Eng) (f : Strand → Strand) : (b.modStr e f).engs = b.engs := rfl
@[simp] theorem Block.modStr_attrs (b : Block) (e : Eng) (f : Strand → Strand) : (b.modStr e f).attrs = b.attrs := rfl
@[simp] theorem Block.modStr_flags (b : Block) (e : Eng) (f : Strand → Strand) : (b.modStr e f).flags = b.flags := rfl
@[simp] theorem Block.modStr_gs (b : Block) (e : Eng) (f : Strand → Strand) : (b.modStr e f).gs = b.gs := rfl
@[simp] theorem Block.modStr_rings (b : Block) (e : Eng) (f : Strand → Strand) : (b.modStr e f).rings = b.rings := rfl
@[simp] theorem Block.modStr_streams (b : Block) (e : Eng) (f : Strand → Strand) :
    (b.modStr e f).streams = b.streams := rfl
@[simp] theorem Block.modStr_cts (b : Block) (e : Eng) (f : Strand → Strand) : (b.modStr e f).cts = b.cts := rfl
@[simp] theorem Block.modStr_slipw (b : Block) (e : Eng) (f : Strand → Strand) : (b.modStr e f).slipw = b.slipw := rfl
@[simp] theorem Block.modStr_status (b : Block) (e : Eng) (f : Strand → Strand) :
    (b.modStr e f).status = b.status := rfl
@[simp] theorem Block.modStr_trapcause (b : Block) (e : Eng) (f : Strand → Strand) :
    (b.modStr e f).trapcause = b.trapcause := rfl
@[simp] theorem Block.modStr_cyc (b : Block) (e : Eng) (f : Strand → Strand) : (b.modStr e f).cyc = b.cyc := rfl
@[simp] theorem Block.modStr_cycFrac (b : Block) (e : Eng) (f : Strand → Strand) :
    (b.modStr e f).cycFrac = b.cycFrac := rfl
@[simp] theorem Block.modStr_grants (b : Block) (e : Eng) (f : Strand → Strand) :
    (b.modStr e f).grants = b.grants := rfl
@[simp] theorem Block.modStr_stall (b : Block) (e : Eng) (f : Strand → Strand) : (b.modStr e f).stall = b.stall := rfl
@[simp] theorem Block.modStr_trapen (b : Block) (e : Eng) (f : Strand → Strand) :
    (b.modStr e f).trapen = b.trapen := rfl
@[simp] theorem Block.modStr_inflight (b : Block) (e : Eng) (f : Strand → Strand) :
    (b.modStr e f).inflight = b.inflight := rfl
@[simp] theorem Block.modStr_nest (b : Block) (e : Eng) (f : Strand → Strand) : (b.modStr e f).nest = b.nest := rfl
@[simp] theorem Block.modStr_scout (b : Block) (e : Eng) (f : Strand → Strand) : (b.modStr e f).scout = b.scout := rfl
@[simp] theorem Block.modStr_ferry (b : Block) (e : Eng) (f : Strand → Strand) : (b.modStr e f).ferry = b.ferry := rfl
@[simp] theorem Block.modStr_ckpt (b : Block) (e : Eng) (f : Strand → Strand) : (b.modStr e f).ckpt = b.ckpt := rfl
@[simp] theorem Block.modStr_stood (b : Block) (e : Eng) (f : Strand → Strand) : (b.modStr e f).stood = b.stood := rfl
@[simp] theorem Block.modStr_tables (b : Block) (e : Eng) (f : Strand → Strand) :
    (b.modStr e f).tables = b.tables := rfl
@[simp] theorem Block.modStr_idle (b : Block) (e : Eng) (f : Strand → Strand) : (b.modStr e f).idle = b.idle := rfl

/-! ## `Block.setSt` -/

@[simp] theorem Block.setSt_uid (b : Block) (i : Nat) : (b.setSt i).uid = b.uid := rfl
@[simp] theorem Block.setSt_placed (b : Block) (i : Nat) : (b.setSt i).placed = b.placed := rfl
@[simp] theorem Block.setSt_started (b : Block) (i : Nat) : (b.setSt i).started = b.started := rfl
@[simp] theorem Block.setSt_task (b : Block) (i : Nat) : (b.setSt i).task = b.task := rfl
@[simp] theorem Block.setSt_ctx (b : Block) (i : Nat) : (b.setSt i).ctx = b.ctx := rfl
@[simp] theorem Block.setSt_part (b : Block) (i : Nat) : (b.setSt i).part = b.part := rfl
@[simp] theorem Block.setSt_bidx (b : Block) (i : Nat) : (b.setSt i).bidx = b.bidx := rfl
@[simp] theorem Block.setSt_die (b : Block) (i : Nat) : (b.setSt i).die = b.die := rfl
@[simp] theorem Block.setSt_core (b : Block) (i : Nat) : (b.setSt i).core = b.core := rfl
@[simp] theorem Block.setSt_image (b : Block) (i : Nat) : (b.setSt i).image = b.image := rfl
@[simp] theorem Block.setSt_scratch (b : Block) (i : Nat) : (b.setSt i).scratch = b.scratch := rfl
@[simp] theorem Block.setSt_ferryMask (b : Block) (i : Nat) : (b.setSt i).ferryMask = b.ferryMask := rfl
@[simp] theorem Block.setSt_slotFlag (b : Block) (i : Nat) : (b.setSt i).slotFlag = b.slotFlag := rfl
@[simp] theorem Block.setSt_slot (b : Block) (i : Nat) : (b.setSt i).slot = b.slot := rfl
@[simp] theorem Block.setSt_strands (b : Block) (i : Nat) : (b.setSt i).strands = b.strands := rfl
@[simp] theorem Block.setSt_s (b : Block) (i : Nat) : (b.setSt i).s = b.s := rfl
@[simp] theorem Block.setSt_a (b : Block) (i : Nat) : (b.setSt i).a = b.a := rfl
@[simp] theorem Block.setSt_v (b : Block) (i : Nat) : (b.setSt i).v = b.v := rfl
@[simp] theorem Block.setSt_vm (b : Block) (i : Nat) : (b.setSt i).vm = b.vm := rfl
@[simp] theorem Block.setSt_holders (b : Block) (i : Nat) : (b.setSt i).holders = b.holders := rfl
@[simp] theorem Block.setSt_rsto (b : Block) (i : Nat) : (b.setSt i).rsto = b.rsto := rfl
@[simp] theorem Block.setSt_acc (b : Block) (i : Nat) : (b.setSt i).acc = b.acc := rfl
@[simp] theorem Block.setSt_dacc (b : Block) (i : Nat) : (b.setSt i).dacc = b.dacc := rfl
@[simp] theorem Block.setSt_gd (b : Block) (i : Nat) : (b.setSt i).gd = b.gd := rfl
@[simp] theorem Block.setSt_q (b : Block) (i : Nat) : (b.setSt i).q = b.q := rfl
@[simp] theorem Block.setSt_vq (b : Block) (i : Nat) : (b.setSt i).vq = b.vq := rfl
@[simp] theorem Block.setSt_pops (b : Block) (i : Nat) : (b.setSt i).pops = b.pops := rfl
@[simp] theorem Block.setSt_engs (b : Block) (i : Nat) : (b.setSt i).engs = b.engs := rfl
@[simp] theorem Block.setSt_attrs (b : Block) (i : Nat) : (b.setSt i).attrs = b.attrs := rfl
@[simp] theorem Block.setSt_flags (b : Block) (i : Nat) : (b.setSt i).flags = b.flags := rfl
@[simp] theorem Block.setSt_gs (b : Block) (i : Nat) : (b.setSt i).gs = b.gs := rfl
@[simp] theorem Block.setSt_rings (b : Block) (i : Nat) : (b.setSt i).rings = b.rings := rfl
@[simp] theorem Block.setSt_streams (b : Block) (i : Nat) : (b.setSt i).streams = b.streams := rfl
@[simp] theorem Block.setSt_cts (b : Block) (i : Nat) : (b.setSt i).cts = b.cts := rfl
@[simp] theorem Block.setSt_slipw (b : Block) (i : Nat) : (b.setSt i).slipw = b.slipw := rfl
@[simp] theorem Block.setSt_status (b : Block) (i : Nat) :
    (b.setSt i).status = b.status ||| BitVec.ofNat 6 (2 ^ i) := rfl
@[simp] theorem Block.setSt_trapcause (b : Block) (i : Nat) : (b.setSt i).trapcause = b.trapcause := rfl
@[simp] theorem Block.setSt_cyc (b : Block) (i : Nat) : (b.setSt i).cyc = b.cyc := rfl
@[simp] theorem Block.setSt_cycFrac (b : Block) (i : Nat) : (b.setSt i).cycFrac = b.cycFrac := rfl
@[simp] theorem Block.setSt_grants (b : Block) (i : Nat) : (b.setSt i).grants = b.grants := rfl
@[simp] theorem Block.setSt_stall (b : Block) (i : Nat) : (b.setSt i).stall = b.stall := rfl
@[simp] theorem Block.setSt_trapen (b : Block) (i : Nat) : (b.setSt i).trapen = b.trapen := rfl
@[simp] theorem Block.setSt_inflight (b : Block) (i : Nat) : (b.setSt i).inflight = b.inflight := rfl
@[simp] theorem Block.setSt_nest (b : Block) (i : Nat) : (b.setSt i).nest = b.nest := rfl
@[simp] theorem Block.setSt_scout (b : Block) (i : Nat) : (b.setSt i).scout = b.scout := rfl
@[simp] theorem Block.setSt_ferry (b : Block) (i : Nat) : (b.setSt i).ferry = b.ferry := rfl
@[simp] theorem Block.setSt_ckpt (b : Block) (i : Nat) : (b.setSt i).ckpt = b.ckpt := rfl
@[simp] theorem Block.setSt_stood (b : Block) (i : Nat) : (b.setSt i).stood = b.stood := rfl
@[simp] theorem Block.setSt_tables (b : Block) (i : Nat) : (b.setSt i).tables = b.tables := rfl
@[simp] theorem Block.setSt_idle (b : Block) (i : Nat) : (b.setSt i).idle = b.idle := rfl

/-! ## `Block.pushQ` -/

@[simp] theorem Block.pushQ_uid (b : Block) (n : Fin 16) (x : Dword) : (b.pushQ n x).uid = b.uid := rfl
@[simp] theorem Block.pushQ_placed (b : Block) (n : Fin 16) (x : Dword) : (b.pushQ n x).placed = b.placed := rfl
@[simp] theorem Block.pushQ_started (b : Block) (n : Fin 16) (x : Dword) : (b.pushQ n x).started = b.started := rfl
@[simp] theorem Block.pushQ_task (b : Block) (n : Fin 16) (x : Dword) : (b.pushQ n x).task = b.task := rfl
@[simp] theorem Block.pushQ_ctx (b : Block) (n : Fin 16) (x : Dword) : (b.pushQ n x).ctx = b.ctx := rfl
@[simp] theorem Block.pushQ_part (b : Block) (n : Fin 16) (x : Dword) : (b.pushQ n x).part = b.part := rfl
@[simp] theorem Block.pushQ_bidx (b : Block) (n : Fin 16) (x : Dword) : (b.pushQ n x).bidx = b.bidx := rfl
@[simp] theorem Block.pushQ_die (b : Block) (n : Fin 16) (x : Dword) : (b.pushQ n x).die = b.die := rfl
@[simp] theorem Block.pushQ_core (b : Block) (n : Fin 16) (x : Dword) : (b.pushQ n x).core = b.core := rfl
@[simp] theorem Block.pushQ_image (b : Block) (n : Fin 16) (x : Dword) : (b.pushQ n x).image = b.image := rfl
@[simp] theorem Block.pushQ_scratch (b : Block) (n : Fin 16) (x : Dword) : (b.pushQ n x).scratch = b.scratch := rfl
@[simp] theorem Block.pushQ_ferryMask (b : Block) (n : Fin 16) (x : Dword) :
    (b.pushQ n x).ferryMask = b.ferryMask := rfl
@[simp] theorem Block.pushQ_slotFlag (b : Block) (n : Fin 16) (x : Dword) : (b.pushQ n x).slotFlag = b.slotFlag := rfl
@[simp] theorem Block.pushQ_slot (b : Block) (n : Fin 16) (x : Dword) : (b.pushQ n x).slot = b.slot := rfl
@[simp] theorem Block.pushQ_strands (b : Block) (n : Fin 16) (x : Dword) : (b.pushQ n x).strands = b.strands := rfl
@[simp] theorem Block.pushQ_s (b : Block) (n : Fin 16) (x : Dword) : (b.pushQ n x).s = b.s := rfl
@[simp] theorem Block.pushQ_a (b : Block) (n : Fin 16) (x : Dword) : (b.pushQ n x).a = b.a := rfl
@[simp] theorem Block.pushQ_v (b : Block) (n : Fin 16) (x : Dword) : (b.pushQ n x).v = b.v := rfl
@[simp] theorem Block.pushQ_vm (b : Block) (n : Fin 16) (x : Dword) : (b.pushQ n x).vm = b.vm := rfl
@[simp] theorem Block.pushQ_holders (b : Block) (n : Fin 16) (x : Dword) : (b.pushQ n x).holders = b.holders := rfl
@[simp] theorem Block.pushQ_rsto (b : Block) (n : Fin 16) (x : Dword) : (b.pushQ n x).rsto = b.rsto := rfl
@[simp] theorem Block.pushQ_acc (b : Block) (n : Fin 16) (x : Dword) : (b.pushQ n x).acc = b.acc := rfl
@[simp] theorem Block.pushQ_dacc (b : Block) (n : Fin 16) (x : Dword) : (b.pushQ n x).dacc = b.dacc := rfl
@[simp] theorem Block.pushQ_gd (b : Block) (n : Fin 16) (x : Dword) : (b.pushQ n x).gd = b.gd := rfl
@[simp] theorem Block.pushQ_q (b : Block) (n : Fin 16) (x : Dword) :
    (b.pushQ n x).q = b.q.set n (b.q[n] ++ [x]) := rfl
@[simp] theorem Block.pushQ_vq (b : Block) (n : Fin 16) (x : Dword) : (b.pushQ n x).vq = b.vq := rfl
@[simp] theorem Block.pushQ_pops (b : Block) (n : Fin 16) (x : Dword) : (b.pushQ n x).pops = b.pops := rfl
@[simp] theorem Block.pushQ_engs (b : Block) (n : Fin 16) (x : Dword) : (b.pushQ n x).engs = b.engs := rfl
@[simp] theorem Block.pushQ_attrs (b : Block) (n : Fin 16) (x : Dword) : (b.pushQ n x).attrs = b.attrs := rfl
@[simp] theorem Block.pushQ_flags (b : Block) (n : Fin 16) (x : Dword) : (b.pushQ n x).flags = b.flags := rfl
@[simp] theorem Block.pushQ_gs (b : Block) (n : Fin 16) (x : Dword) : (b.pushQ n x).gs = b.gs := rfl
@[simp] theorem Block.pushQ_rings (b : Block) (n : Fin 16) (x : Dword) : (b.pushQ n x).rings = b.rings := rfl
@[simp] theorem Block.pushQ_streams (b : Block) (n : Fin 16) (x : Dword) : (b.pushQ n x).streams = b.streams := rfl
@[simp] theorem Block.pushQ_cts (b : Block) (n : Fin 16) (x : Dword) : (b.pushQ n x).cts = b.cts := rfl
@[simp] theorem Block.pushQ_slipw (b : Block) (n : Fin 16) (x : Dword) : (b.pushQ n x).slipw = b.slipw := rfl
@[simp] theorem Block.pushQ_status (b : Block) (n : Fin 16) (x : Dword) : (b.pushQ n x).status = b.status := rfl
@[simp] theorem Block.pushQ_trapcause (b : Block) (n : Fin 16) (x : Dword) :
    (b.pushQ n x).trapcause = b.trapcause := rfl
@[simp] theorem Block.pushQ_cyc (b : Block) (n : Fin 16) (x : Dword) : (b.pushQ n x).cyc = b.cyc := rfl
@[simp] theorem Block.pushQ_cycFrac (b : Block) (n : Fin 16) (x : Dword) : (b.pushQ n x).cycFrac = b.cycFrac := rfl
@[simp] theorem Block.pushQ_grants (b : Block) (n : Fin 16) (x : Dword) : (b.pushQ n x).grants = b.grants := rfl
@[simp] theorem Block.pushQ_stall (b : Block) (n : Fin 16) (x : Dword) : (b.pushQ n x).stall = b.stall := rfl
@[simp] theorem Block.pushQ_trapen (b : Block) (n : Fin 16) (x : Dword) : (b.pushQ n x).trapen = b.trapen := rfl
@[simp] theorem Block.pushQ_inflight (b : Block) (n : Fin 16) (x : Dword) : (b.pushQ n x).inflight = b.inflight := rfl
@[simp] theorem Block.pushQ_nest (b : Block) (n : Fin 16) (x : Dword) : (b.pushQ n x).nest = b.nest := rfl
@[simp] theorem Block.pushQ_scout (b : Block) (n : Fin 16) (x : Dword) : (b.pushQ n x).scout = b.scout := rfl
@[simp] theorem Block.pushQ_ferry (b : Block) (n : Fin 16) (x : Dword) : (b.pushQ n x).ferry = b.ferry := rfl
@[simp] theorem Block.pushQ_ckpt (b : Block) (n : Fin 16) (x : Dword) : (b.pushQ n x).ckpt = b.ckpt := rfl
@[simp] theorem Block.pushQ_stood (b : Block) (n : Fin 16) (x : Dword) : (b.pushQ n x).stood = b.stood := rfl
@[simp] theorem Block.pushQ_tables (b : Block) (n : Fin 16) (x : Dword) : (b.pushQ n x).tables = b.tables := rfl
@[simp] theorem Block.pushQ_idle (b : Block) (n : Fin 16) (x : Dword) : (b.pushQ n x).idle = b.idle := rfl

/-! ## `Block.pushVq` -/

@[simp] theorem Block.pushVq_uid (b : Block) (n : Fin 4) (x : VReg) : (b.pushVq n x).uid = b.uid := rfl
@[simp] theorem Block.pushVq_placed (b : Block) (n : Fin 4) (x : VReg) : (b.pushVq n x).placed = b.placed := rfl
@[simp] theorem Block.pushVq_started (b : Block) (n : Fin 4) (x : VReg) : (b.pushVq n x).started = b.started := rfl
@[simp] theorem Block.pushVq_task (b : Block) (n : Fin 4) (x : VReg) : (b.pushVq n x).task = b.task := rfl
@[simp] theorem Block.pushVq_ctx (b : Block) (n : Fin 4) (x : VReg) : (b.pushVq n x).ctx = b.ctx := rfl
@[simp] theorem Block.pushVq_part (b : Block) (n : Fin 4) (x : VReg) : (b.pushVq n x).part = b.part := rfl
@[simp] theorem Block.pushVq_bidx (b : Block) (n : Fin 4) (x : VReg) : (b.pushVq n x).bidx = b.bidx := rfl
@[simp] theorem Block.pushVq_die (b : Block) (n : Fin 4) (x : VReg) : (b.pushVq n x).die = b.die := rfl
@[simp] theorem Block.pushVq_core (b : Block) (n : Fin 4) (x : VReg) : (b.pushVq n x).core = b.core := rfl
@[simp] theorem Block.pushVq_image (b : Block) (n : Fin 4) (x : VReg) : (b.pushVq n x).image = b.image := rfl
@[simp] theorem Block.pushVq_scratch (b : Block) (n : Fin 4) (x : VReg) : (b.pushVq n x).scratch = b.scratch := rfl
@[simp] theorem Block.pushVq_ferryMask (b : Block) (n : Fin 4) (x : VReg) :
    (b.pushVq n x).ferryMask = b.ferryMask := rfl
@[simp] theorem Block.pushVq_slotFlag (b : Block) (n : Fin 4) (x : VReg) : (b.pushVq n x).slotFlag = b.slotFlag := rfl
@[simp] theorem Block.pushVq_slot (b : Block) (n : Fin 4) (x : VReg) : (b.pushVq n x).slot = b.slot := rfl
@[simp] theorem Block.pushVq_strands (b : Block) (n : Fin 4) (x : VReg) : (b.pushVq n x).strands = b.strands := rfl
@[simp] theorem Block.pushVq_s (b : Block) (n : Fin 4) (x : VReg) : (b.pushVq n x).s = b.s := rfl
@[simp] theorem Block.pushVq_a (b : Block) (n : Fin 4) (x : VReg) : (b.pushVq n x).a = b.a := rfl
@[simp] theorem Block.pushVq_v (b : Block) (n : Fin 4) (x : VReg) : (b.pushVq n x).v = b.v := rfl
@[simp] theorem Block.pushVq_vm (b : Block) (n : Fin 4) (x : VReg) : (b.pushVq n x).vm = b.vm := rfl
@[simp] theorem Block.pushVq_holders (b : Block) (n : Fin 4) (x : VReg) : (b.pushVq n x).holders = b.holders := rfl
@[simp] theorem Block.pushVq_rsto (b : Block) (n : Fin 4) (x : VReg) : (b.pushVq n x).rsto = b.rsto := rfl
@[simp] theorem Block.pushVq_acc (b : Block) (n : Fin 4) (x : VReg) : (b.pushVq n x).acc = b.acc := rfl
@[simp] theorem Block.pushVq_dacc (b : Block) (n : Fin 4) (x : VReg) : (b.pushVq n x).dacc = b.dacc := rfl
@[simp] theorem Block.pushVq_gd (b : Block) (n : Fin 4) (x : VReg) : (b.pushVq n x).gd = b.gd := rfl
@[simp] theorem Block.pushVq_q (b : Block) (n : Fin 4) (x : VReg) : (b.pushVq n x).q = b.q := rfl
@[simp] theorem Block.pushVq_vq (b : Block) (n : Fin 4) (x : VReg) :
    (b.pushVq n x).vq = b.vq.set n (b.vq[n] ++ [x]) := rfl
@[simp] theorem Block.pushVq_pops (b : Block) (n : Fin 4) (x : VReg) : (b.pushVq n x).pops = b.pops := rfl
@[simp] theorem Block.pushVq_engs (b : Block) (n : Fin 4) (x : VReg) : (b.pushVq n x).engs = b.engs := rfl
@[simp] theorem Block.pushVq_attrs (b : Block) (n : Fin 4) (x : VReg) : (b.pushVq n x).attrs = b.attrs := rfl
@[simp] theorem Block.pushVq_flags (b : Block) (n : Fin 4) (x : VReg) : (b.pushVq n x).flags = b.flags := rfl
@[simp] theorem Block.pushVq_gs (b : Block) (n : Fin 4) (x : VReg) : (b.pushVq n x).gs = b.gs := rfl
@[simp] theorem Block.pushVq_rings (b : Block) (n : Fin 4) (x : VReg) : (b.pushVq n x).rings = b.rings := rfl
@[simp] theorem Block.pushVq_streams (b : Block) (n : Fin 4) (x : VReg) : (b.pushVq n x).streams = b.streams := rfl
@[simp] theorem Block.pushVq_cts (b : Block) (n : Fin 4) (x : VReg) : (b.pushVq n x).cts = b.cts := rfl
@[simp] theorem Block.pushVq_slipw (b : Block) (n : Fin 4) (x : VReg) : (b.pushVq n x).slipw = b.slipw := rfl
@[simp] theorem Block.pushVq_status (b : Block) (n : Fin 4) (x : VReg) : (b.pushVq n x).status = b.status := rfl
@[simp] theorem Block.pushVq_trapcause (b : Block) (n : Fin 4) (x : VReg) :
    (b.pushVq n x).trapcause = b.trapcause := rfl
@[simp] theorem Block.pushVq_cyc (b : Block) (n : Fin 4) (x : VReg) : (b.pushVq n x).cyc = b.cyc := rfl
@[simp] theorem Block.pushVq_cycFrac (b : Block) (n : Fin 4) (x : VReg) : (b.pushVq n x).cycFrac = b.cycFrac := rfl
@[simp] theorem Block.pushVq_grants (b : Block) (n : Fin 4) (x : VReg) : (b.pushVq n x).grants = b.grants := rfl
@[simp] theorem Block.pushVq_stall (b : Block) (n : Fin 4) (x : VReg) : (b.pushVq n x).stall = b.stall := rfl
@[simp] theorem Block.pushVq_trapen (b : Block) (n : Fin 4) (x : VReg) : (b.pushVq n x).trapen = b.trapen := rfl
@[simp] theorem Block.pushVq_inflight (b : Block) (n : Fin 4) (x : VReg) : (b.pushVq n x).inflight = b.inflight := rfl
@[simp] theorem Block.pushVq_nest (b : Block) (n : Fin 4) (x : VReg) : (b.pushVq n x).nest = b.nest := rfl
@[simp] theorem Block.pushVq_scout (b : Block) (n : Fin 4) (x : VReg) : (b.pushVq n x).scout = b.scout := rfl
@[simp] theorem Block.pushVq_ferry (b : Block) (n : Fin 4) (x : VReg) : (b.pushVq n x).ferry = b.ferry := rfl
@[simp] theorem Block.pushVq_ckpt (b : Block) (n : Fin 4) (x : VReg) : (b.pushVq n x).ckpt = b.ckpt := rfl
@[simp] theorem Block.pushVq_stood (b : Block) (n : Fin 4) (x : VReg) : (b.pushVq n x).stood = b.stood := rfl
@[simp] theorem Block.pushVq_tables (b : Block) (n : Fin 4) (x : VReg) : (b.pushVq n x).tables = b.tables := rfl
@[simp] theorem Block.pushVq_idle (b : Block) (n : Fin 4) (x : VReg) : (b.pushVq n x).idle = b.idle := rfl

/-! ## Reading what was written -/

@[simp] theorem Block.modStr_str (b : Block) (e : Eng) (f : Strand → Strand) : (b.modStr e f).str e = f (b.str e) := by
  simp [Block.str, Block.modStr]

theorem engIdx_inj {e o : Eng} (h : engIdx e = engIdx o) : e = o := by
  cases e <;> cases o <;> first | rfl | exact absurd h (by decide)

theorem Block.modStr_str_ne (b : Block) {e o : Eng} (f : Strand → Strand) (h : o ≠ e) : (b.modStr e f).str o = b.str o := by
  have h' : (engIdx e).val ≠ (engIdx o).val := fun c => h (engIdx_inj (Fin.ext c)).symm
  simp [Block.str, Block.modStr, h']

@[simp] theorem State.modStr_str (s : State) (e : Eng) (f : Strand → Strand) : (s.modStr e f).str e = f (s.str e) :=
  Block.modStr_str s.blk e f

theorem State.modStr_str_ne (s : State) {e o : Eng} (f : Strand → Strand) (h : o ≠ e) : (s.modStr e f).str o = s.str o :=
  Block.modStr_str_ne s.blk f h

@[simp] theorem State.complete_str (s : State) (e : Eng) (n : Nat) (f : Flow) :
    (s.complete e n f).str e = { (s.str e).complete n f with since := s.time } := by
  have h := Block.modStr_str s.blk e fun st => { st.complete n f with since := s.time }
  exact h

@[simp] theorem State.modCtx_cx (s : State) (f : Ctx → Ctx) : (s.modCtx s.blk.ctx f).cx = f s.cx := by
  simp [State.cx, State.modCtx]

/-- s63 reads zero and discards what is written; another register reads what was written (R105). -/
theorem Block.sreg_setSreg (b : Block) (n : Fin 64) (x : Dword) : (b.setSreg n x).sreg n = if n = 63 then 0 else x := by
  by_cases h : n = 63 <;> simp [Block.sreg, Block.setSreg, h]

theorem Block.sreg_setSreg_ne (b : Block) {n m : Fin 64} (x : Dword) (h : m ≠ n) : (b.setSreg n x).sreg m = b.sreg m := by
  have h' : n.val ≠ m.val := fun c => h (Fin.ext c.symm)
  by_cases hn : n = 63 <;> simp [Block.sreg, Block.setSreg, hn, h']

/-- p0 is true whatever is written; another predicate reads what was written (R16). -/
theorem Strand.pred_setPred (st : Strand) (n : Fin 8) (x : Bool) : (st.setPred n x).pred n = if n = 0 then true else x := by
  by_cases h : n = 0 <;> simp [Strand.pred, Strand.setPred, h]

/-- vm0 reads all ones whatever is written (R177). -/
theorem Block.mask_setMask (b : Block) (n : Fin 8) (x : Mask) :
    (b.setMask n x).mask n = if n = 0 then BitVec.allOnes 256 else x := by
  by_cases h : n = 0 <;> simp [Block.mask, Block.setMask, h]

/-! ## Taking a trap -/

/-- What taking a trap does: nothing where the strand has stopped already; else the strand's record is set, its pending back-edge
decided, and its context begins to stop with that cause, if it runs (R277, R280, R287). -/
theorem State.recordStop_eq {s : State} {e : Eng} (r : StopRec) (h : (s.str e).stop = none) :
    s.recordStop e r = (s.modStr e fun st => { st.settle s.blk.forcing with stop := some r, pfx := .none }).modCtx s.blk.ctx
      fun c => c.halt r.cause := by
  unfold State.recordStop
  simp [h]

theorem State.recordStop_stopped {s : State} {e : Eng} (r : StopRec) (h : (s.str e).stop.isSome = true) :
    s.recordStop e r = s := by
  unfold State.recordStop
  simp [h]

@[simp] theorem State.recordStop_mem (s : State) (e : Eng) (r : StopRec) : (s.recordStop e r).mem = s.mem := by
  unfold State.recordStop; split <;> rfl

@[simp] theorem State.takeTrap_mem (s : State) (e : Eng) (t : TrapInfo) : (s.takeTrap e t).mem = s.mem :=
  State.recordStop_mem s e _

@[simp] theorem State.raise_mem (s : State) (e : Eng) (t : TrapInfo) : (s.raise e t).mem = s.mem := by
  unfold State.raise; split
  · rfl
  · exact State.takeTrap_mem s e t

@[simp] theorem State.focus_mem (s : State) (u : Nat) : (s.focus u).mem = s.mem := by
  unfold State.focus; split
  · rfl
  · split <;> rfl

/-- An instruction that stops leaves memory as it is. -/
theorem State.stopped_mem {s t : State} {e : Eng} {x : Stop} (h : s.stopped e x = .next t) : t.mem = s.mem := by
  cases x <;> simp only [State.stopped, Host.Outcome.next.injEq, reduceCtorEq] at h <;> subst h <;> first | rfl | simp

end Sys2Proof.Machine
end

