-- ==== Sys2Proof/Laws/Shapes.lean ====
section
/-! SUPPORT. The shapes of scalar instructions, each with one lemma that says where it completes and what it leaves, with and
without its predicate; and `Keeps`, the meanings that keep memory's canonical form, closed under the ways in which meanings
are put together. -/

namespace Sys2Proof.Machine

open Sys2Proof.Claims

/-! ## Shapes whose predicate holds -/

theorem execR_ok {e : Eng} {x : RArgs} {f : Dword → Dword → M Dword} {s s1 s2 s3 s4 : State} {a b v : Dword}
    (hp : (s.str e).holds x.pred = true) (ha : Takes e x.a s a s1) (hb : Takes e x.b s1 b s2)
    (hf : f a b s2 = .ok (v, s3)) (hd : Puts e x.d s3 v s4) :
    execR e x f s = .next ((ordered e [x.a, x.b] [x.d] s4).complete e 1 .go) := by
  unfold execR
  refine issue_on hp rfl (thenGo_ok ?_) (by simp)
  rw [M_bind_ok (readS_of_takes ha), M_bind_ok (readS_of_takes hb), M_bind_ok hf, M_bind_ok (writeS_of_puts hd), portOrder_ok]

theorem execRD_ok {e : Eng} {x : RArgs} {f : Dword → Dword → Dword → M Dword} {s s1 s2 s3 s4 s5 : State}
    {a b d v : Dword} (hp : (s.str e).holds x.pred = true) (ha : Takes e x.a s a s1) (hb : Takes e x.b s1 b s2)
    (hd : Takes e x.d s2 d s3) (hf : f a b d s3 = .ok (v, s4)) (hw : Puts e x.d s4 v s5) :
    execRD e x f s = .next ((ordered e [x.a, x.b, x.d] [x.d] s5).complete e 1 .go) := by
  unfold execRD
  refine issue_on hp rfl (thenGo_ok ?_) (by simp)
  rw [M_bind_ok (readS_of_takes ha), M_bind_ok (readS_of_takes hb), M_bind_ok (readS_of_takes hd), M_bind_ok hf,
    M_bind_ok (writeS_of_puts hw), portOrder_ok]

theorem execU_ok {e : Eng} {x : UArgs} {f : Dword → M Dword} {s s1 s2 s3 : State} {a v : Dword}
    (hp : (s.str e).holds x.pred = true) (ha : Takes e x.a s a s1) (hf : f a s1 = .ok (v, s2)) (hd : Puts e x.d s2 v s3) :
    execU e x f s = .next ((ordered e [x.a] [x.d] s3).complete e 1 .go) := by
  unfold execU
  refine issue_on hp rfl (thenGo_ok ?_) (by simp)
  rw [M_bind_ok (readS_of_takes ha), M_bind_ok hf, M_bind_ok (writeS_of_puts hd), portOrder_ok]

theorem execK_ok {e : Eng} {x : KArgs} {imm : BitVec 6 → Dword} {f : Dword → Dword → M Dword} {s s1 s2 s3 : State}
    {a v : Dword} (hp : (s.str e).holds x.pred = true) (ha : Takes e x.a s a s1) (hf : f a (imm x.imm) s1 = .ok (v, s2))
    (hd : Puts e x.d s2 v s3) : execK e x imm f s = .next ((ordered e [x.a] [x.d] s3).complete e 1 .go) := by
  unfold execK
  refine issue_on hp rfl (thenGo_ok ?_) (by simp)
  rw [M_bind_ok (readS_of_takes ha), M_bind_ok hf, M_bind_ok (writeS_of_puts hd), portOrder_ok]

theorem execCmp_ok {e : Eng} {x : CmpArgs} {f : Dword → Dword → Bool} {s s1 s2 : State} {a b : Dword}
    (hp : (s.str e).holds x.pred = true) (ha : Takes e x.a s a s1) (hb : Takes e x.b s1 b s2) :
    execCmp e x f s = .next ((ordered e [x.a, x.b] [] (s2.modStr e fun st => st.setPred x.pd (f a b))).complete e 1 .go) := by
  unfold execCmp
  refine issue_on hp rfl (thenGo_ok ?_) (by simp)
  rw [M_bind_ok (readS_of_takes ha), M_bind_ok (readS_of_takes hb), M_bind_ok (M_modStr _ _ _), portOrder_ok]

theorem execCmpK_ok {e : Eng} {x : CmpKArgs} {f : Dword → Dword → Bool} {s s1 : State} {a : Dword}
    (hp : (s.str e).holds x.pred = true) (ha : Takes e x.a s a s1) :
    execCmpK e x f s =
      .next ((ordered e [x.a] [] (s1.modStr e fun st => st.setPred x.pd (f a (imm6s x.imm)))).complete e 1 .go) := by
  unfold execCmpK
  refine issue_on hp rfl (thenGo_ok ?_) (by simp)
  rw [M_bind_ok (readS_of_takes ha), M_bind_ok (M_modStr _ _ _), portOrder_ok]

/-! ## Meanings that keep memory's canonical form -/

/-- Whatever a meaning answers, memory that was in canonical form still is. -/
def Keeps {α : Type} (x : M α) : Prop := ∀ s a t, Mem.wf s.mem = true → x s = .ok (a, t) → Mem.wf t.mem = true

theorem Keeps.pure {α : Type} (a : α) : Keeps (pure a : M α) := by
  intro s b t h e
  cases e
  exact h

theorem Keeps.bind {α β : Type} {x : M α} {f : α → M β} (hx : Keeps x) (hf : ∀ a, Keeps (f a)) : Keeps (x >>= f) := by
  intro s b t h e
  match hs : x s with
  | .error z => rw [M_bind_error hs] at e; cases e
  | .ok (a, u) => rw [M_bind_ok hs] at e; exact hf a u b t (hx s a u h hs) e

theorem Keeps.stopWith {α : Type} (z : Stop) : Keeps (stopWith z : M α) := by
  intro s b t h e
  cases e

theorem Keeps.ite {α : Type} {c : Prop} [Decidable c] {x y : M α} (hx : Keeps x) (hy : Keeps y) :
    Keeps (if c then x else y) := by
  split
  · exact hx
  · exact hy

theorem Keeps.getBlk : Keeps getBlk := by
  intro s b t h e
  cases e
  exact h

theorem Keeps.getS : Keeps getS := by
  intro s b t h e
  cases e
  exact h

theorem Keeps.modBlk (f : Block → Block) : Keeps (modBlk f) := by
  intro s b t h e
  cases e
  exact h

theorem Keeps.modS {f : State → State} (hf : ∀ s, Mem.wf s.mem = true → Mem.wf (f s).mem = true) : Keeps (modS f) := by
  intro s b t h e
  cases e
  exact hf s h

theorem Keeps.trap {α : Type} (c : Nat) : Keeps (trap c : M α) := Keeps.stopWith _

theorem Keeps.waitUntil (b : Bool) : Keeps (waitUntil b) := by
  unfold Machine.waitUntil
  exact Keeps.ite (Keeps.pure _) (Keeps.stopWith _)

theorem Keeps.trapIf (b : Bool) (c : Nat) : Keeps (trapIf b c) := by
  unfold Machine.trapIf
  exact Keeps.ite (Keeps.trap c) (Keeps.pure _)

theorem Keeps.attempt {α : Type} {x : M α} (hx : Keeps x) : Keeps (attempt x) := by
  intro s b t h e
  unfold Machine.attempt at e
  match hs : x s with
  | .ok (a, u) => rw [hs] at e; cases e; exact hx s a _ h hs
  | .error (.trap z) => rw [hs] at e; cases e; exact h
  | .error .blocked => rw [hs] at e; cases e
  | .error .stalled => rw [hs] at e; cases e
  | .error (.mark _) => rw [hs] at e; cases e
  | .error .freeze => rw [hs] at e; cases e
  | .error (.bret _) => rw [hs] at e; cases e
  | .error .overflow => rw [hs] at e; cases e
  | .error (.fault _) => rw [hs] at e; cases e

theorem Keeps.forM {α : Type} {f : α → M Unit} (hf : ∀ a, Keeps (f a)) (l : List α) : Keeps (l.forM f) := by
  induction l with
  | nil => exact Keeps.pure _
  | cons a r ih => exact Keeps.bind (hf a) fun _ => ih

theorem Keeps.thenGo {x : M Unit} (hx : Keeps x) : Keeps (thenGo x) := Keeps.bind hx fun _ => Keeps.pure _

/-- An instruction whose two meanings keep the canonical form keeps it. -/
theorem issue_keeps {e : Eng} {n : Nat} {p : Pred} {bar : Bool} {off on : M Flow} {s t : State} (hoff : Keeps off)
    (hon : Keeps on) (hs : Mem.wf s.mem = true) (h : issue e n p bar off on s = .next t) : Mem.wf t.mem = true := by
  have hk : Keeps (if (s.str e).holds p then on else off) := Keeps.ite hon hoff
  unfold issue at h
  split at h
  · injection h with h; rw [← h, State.raise_mem]; exact hs
  · split at h
    · rename_i x u heq
      injection h with h
      rw [← h, State.raise_mem]
      split <;> exact hk s _ u hs heq
    · rename_i f u _ heq
      injection h with h
      rw [← h, State.complete_mem]
      exact hk s _ u hs heq
    · rw [State.stopped_mem h]; exact hs

end Sys2Proof.Machine
end

