-- ==== Sys2Proof/Laws/VOps.lean ====
section
/-! SUPPORT. Vector operands: the bank check passes where the v strand holds the bank, and reading a vector source is what
`TakesV` says. -/

namespace Sys2Proof.Machine

open Sys2Proof.Claims

theorem bankHeld_ok {n : Fin 64} {s : State} (h : s.blk.holders[bankOf n] = .v) : bankHeld n s = .ok ((), s) := by
  unfold bankHeld
  rw [M_bind_ok (M_getBlk s)]
  simp [h, M_pure]

/-- A bank that is neither held nor on its way back traps 0x0A (R40). -/
theorem bankHeld_trap {n : Fin 64} {s : State} (h : s.blk.holders[bankOf n] ≠ .v)
    (hr : s.blk.returning (bankOf n) = false) :
    bankHeld n s = .error (.trap { cause := 0x0A, faddr := 0, aux := 0, sub := 0, pc := none }) := by
  unfold bankHeld
  rw [M_bind_ok (M_getBlk s)]
  rw [if_neg h]
  simp only [hr, Bool.false_eq_true, if_false]
  rfl

/-- A bank whose return has issued is waited for. -/
theorem bankHeld_stall {n : Fin 64} {s : State} (h : s.blk.holders[bankOf n] ≠ .v)
    (hr : s.blk.returning (bankOf n) = true) : bankHeld n s = .error .stalled := by
  unfold bankHeld
  rw [M_bind_ok (M_getBlk s)]
  rw [if_neg h]
  simp only [hr, if_true]
  rfl

theorem banksHeld_ok {l : List Opd} {s : State} (h : BanksOk l s) : banksHeld l s = .ok ((), s) := by
  unfold banksHeld
  induction l with
  | nil => rfl
  | cons o r ih =>
    have hr := ih fun x hx => h x (List.mem_cons_of_mem _ hx)
    have ho := h o List.mem_cons_self
    unfold List.forM
    match o, ho with
    | .reg n, ho => rw [M_bind_ok (bankHeld_ok ho)]; exact hr
    | .port _, _ => rw [M_bind_ok (M_pure _ s)]; exact hr

theorem popVq_cons {n : Fin 4} {s : State} {v : VReg} {r : List VReg} (h : s.blk.vq[n] = v :: r) :
    popVq n s = .ok (v, poppedV s n r) := by
  unfold popVq
  rw [M_bind_ok (M_getBlk s)]
  simp only [h]
  rfl

theorem pushVq_room {e : Eng} {n : Fin 4} {x : VReg} {s : State} (h : FirstPush e (.port (.vq n)) s)
    (hr : (s.blk.vq[n]).length + s.blk.inflightTo (.port (.vq n)) < 4) :
    pushVq e n x s = .ok ((), { s with blk := s.blk.pushVq n x }) := by
  unfold pushVq
  rw [M_bind_ok (portTurn_ok h), M_bind_ok (M_getBlk s), M_bind_ok (M_waitUntil_true (by simpa using hr) s)]
  rfl

/-- Reading a vector source is what `TakesV` says. -/
theorem readV_of_takesV {w : Nat} {o : Opd} {s t : State} {v : VReg} (h : TakesV w o s v t) : readV w o s = .ok (v, t) := by
  match o, h with
  | .reg n, ⟨hb, hp, hv, ht⟩ =>
    simp only [readV]
    rw [M_bind_ok (bankHeld_ok hb), M_bind_ok (scoreboard_ok hp), M_bind_ok (M_getBlk s), hv, ht]; rfl
  | .port (.vq n), ⟨r, hq, ht⟩ =>
    simp only [readV]
    rw [popVq_cons hq, ht]
  | .port (.q n), ⟨x, r, hq, hv, ht⟩ =>
    simp only [readV]
    rw [M_bind_ok (popQ_cons hq), hv, ht]; rfl
  | .port (.g n), ⟨bs, hr, hv⟩ =>
    simp only [readV]
    rw [M_bind_ok (M_getBlk s), M_bind_ok hr, hv]; rfl

end Sys2Proof.Machine
end

