-- ==== Sys2Proof/Laws/Words.lean ====
section
/-! SUPPORT. For every instruction of the opcode table one word, or word and second word, composed from the fields that the
spec's encoding of it gives (R86 to R103), with sample operands: the decoder reads the instruction with those operands
from it, and the encoder gives the word back. -/

namespace Sys2Proof.Laws

set_option maxRecDepth 100000

/-- A word, with a second word behind it, decodes to an instruction that encodes to it. -/
noncomputable def wordsMean (z : Eng × Word × Word × Instr) : Bool :=
  decodeStep z.1 z.2.1 z.2.2.1 == .ok z.2.2.2 &&
    encode z.2.2.2 == (if Instr.words z.2.2.2 = 2 then [z.2.1, z.2.2.1] else [z.2.1])

theorem words_c1 : ([
    (.c, 0x75259E00, 0x00000000, .cAdd ⟨⟨true, 6⟩, .port (.q 9), .reg 9, .reg 53⟩),
    (.c, 0x2343FF04, 0x00000000, .cSub ⟨⟨true, 7⟩, .reg 63, .reg 16, .reg 35⟩),
    (.c, 0x20373508, 0x00000000, .cMul ⟨⟨false, 5⟩, .reg 51, .reg 13, .reg 32⟩),
    (.c, 0xD42BBC0C, 0x00000000, .cMulh ⟨⟨true, 4⟩, .reg 59, .reg 10, .port (.q 4)⟩),
    (.c, 0x4D910210, 0x00000000, .cMulhu ⟨⟨false, 2⟩, .port (.q 0), .reg 36, .reg 13⟩),
    (.c, 0x6F55B214, 0x00000000, .cDiv ⟨⟨false, 2⟩, .port (.q 11), .reg 21, .reg 47⟩),
    (.c, 0x340D5E18, 0x00000000, .cDivu ⟨⟨true, 6⟩, .reg 21, .reg 3, .reg 52⟩),
    (.c, 0x1BE3DB1C, 0x00000000, .cRem ⟨⟨true, 3⟩, .reg 61, .reg 56, .reg 27⟩),
    (.c, 0xDC0FA720, 0x00000000, .cRemu ⟨⟨false, 7⟩, .reg 58, .reg 3, .port (.q 12)⟩),
    (.c, 0xD6068524, 0x00000000, .cAnd ⟨⟨false, 5⟩, .reg 40, .reg 1, .port (.q 6)⟩),
    (.c, 0xD60A5F28, 0x00000000, .cOr ⟨⟨true, 7⟩, .reg 37, .reg 2, .port (.q 6)⟩),
    (.c, 0x5E4D042C, 0x00000000, .cXor ⟨⟨false, 4⟩, .port (.q 0), .reg 19, .reg 30⟩),
    (.c, 0xDEDD3B30, 0x00000000, .cAndn ⟨⟨true, 3⟩, .reg 19, .reg 55, .port (.q 14)⟩),
    (.c, 0xA14AA634, 0x00000000, .cShl ⟨⟨false, 6⟩, .reg 42, .port (.q 2), .reg 33⟩),
    (.c, 0x3F8D4A38, 0x00000000, .cShr ⟨⟨true, 2⟩, .reg 20, .reg 35, .reg 63⟩),
    (.c, 0x9B7DDC3C, 0x00000000, .cSar ⟨⟨true, 4⟩, .reg 29, .port (.q 15), .reg 27⟩),
    (.c, 0xDF483A40, 0x00000000, .cRot ⟨⟨true, 2⟩, .reg 3, .reg 18, .port (.q 15)⟩),
    (.c, 0x95778344, 0x00000000, .cMin ⟨⟨false, 3⟩, .reg 56, .port (.q 13), .reg 21⟩),
    (.c, 0x71E15948, 0x00000000, .cMax ⟨⟨true, 1⟩, .port (.q 5), .reg 56, .reg 49⟩),
    (.c, 0xD6DE2E4C, 0x00000000, .cMinu ⟨⟨true, 6⟩, .reg 34, .reg 55, .port (.q 6)⟩),
    (.c, 0x32224750, 0x00000000, .cMaxu ⟨⟨false, 7⟩, .reg 36, .reg 8, .reg 50⟩),
    (.c, 0xD99E6E54, 0x00000000, .cSel ⟨⟨true, 6⟩, .reg 38, .reg 39, .port (.q 9)⟩),
    (.c, 0xB6550B58, 0x00000000, .cBfx ⟨⟨true, 3⟩, .reg 16, .port (.q 5), .reg 54⟩),
    (.c, 0xD65B245C, 0x00000000, .cBfi ⟨⟨false, 4⟩, .reg 50, .reg 22, .port (.q 6)⟩)] :
    List (Eng × Word × Word × Instr)).all wordsMean = true := by decide +kernel

theorem words_c2 : ([
    (.c, 0x40816F60, 0x00000000, .cClz ⟨⟨true, 7⟩, .port (.q 6), .reg 32⟩),
    (.c, 0x80410164, 0x00000000, .cCtz ⟨⟨false, 1⟩, .reg 16, .port (.q 0)⟩),
    (.c, 0x40395F68, 0x00000000, .cPopc ⟨⟨true, 7⟩, .port (.q 5), .reg 14⟩),
    (.c, 0xAF54346C, 0x00000000, .cSext ⟨⟨false, 4⟩, .reg 3, .port (.q 5), .reg 47⟩),
    (.c, 0xAB6C5470, 0x00000000, .cZext ⟨⟨false, 4⟩, .reg 5, .port (.q 11), .reg 43⟩),
    (.c, 0x40493A74, 0x00000000, .cMov ⟨⟨true, 2⟩, .port (.q 3), .reg 18⟩),
    (.c, 0x86572478, 0x00000000, .cCmp ⟨⟨false, 4⟩, .ltu, 2, .port (.q 5), .reg 6⟩),
    (.c, 0x0500577C, 0x00000000, .cPand ⟨⟨false, 7⟩, 5, 0, 5⟩),
    (.c, 0x00040D80, 0x00000000, .cPor ⟨⟨true, 5⟩, 0, 1, 0⟩),
    (.c, 0x00040484, 0x00000000, .cPnot ⟨⟨false, 4⟩, 0, 1⟩),
    (.c, 0xD3EE0C88, 0x00000000, .cFadd ⟨⟨true, 4⟩, .reg 32, .reg 59, .port (.q 3)⟩),
    (.c, 0x7AC9B98C, 0x00000000, .cFsub ⟨⟨true, 1⟩, .port (.q 11), .reg 50, .reg 58⟩),
    (.c, 0x79D12590, 0x00000000, .cFmul ⟨⟨false, 5⟩, .port (.q 2), .reg 52, .reg 57⟩),
    (.c, 0x1CF92294, 0x00000000, .cFma ⟨⟨false, 2⟩, .reg 18, .reg 62, .reg 28⟩),
    (.c, 0x0BEAFB98, 0x00000000, .cFmin ⟨⟨true, 3⟩, .reg 47, .reg 58, .reg 11⟩),
    (.c, 0x897CD39C, 0x00000000, .cFmax ⟨⟨false, 3⟩, .reg 13, .port (.q 15), .reg 9⟩),
    (.c, 0x844E1EA0, 0x00000000, .cFcvt ⟨⟨true, 6⟩, .reg 33, .port (.q 3), .fp32, .i64⟩),
    (.c, 0xD3D034A4, 0x00000000, .cFcmp ⟨⟨false, 4⟩, .eq, 3, .reg 52, .port (.q 3)⟩),
    (.c, 0x804009A8, 0x00000000, .cPtgt ⟨⟨true, 1⟩, 0, .port (.q 0)⟩),
    (.c, 0x000C07AC, 0x00000000, .cJt ⟨⟨false, 7⟩, 3⟩),
    (.c, 0x400935B0, 0x00000000, .cJtl ⟨⟨false, 5⟩, .port (.q 3), 2⟩),
    (.c, 0x0001CCB4, 0x00000000, .cFence ⟨⟨true, 4⟩, ⟨true, true, .pkg⟩⟩),
    (.c, 0x00D004B8, 0x00000000, .cTkset ⟨⟨false, 4⟩, 52⟩),
    (.c, 0x003C0BBC, 0x00000000, .cTkwait ⟨⟨true, 3⟩, 15⟩)] :
    List (Eng × Word × Word × Instr)).all wordsMean = true := by decide +kernel

theorem words_c3 : ([
    (.c, 0x004C03C0, 0x00000000, .cTkclr ⟨⟨false, 3⟩, 19⟩),
    (.c, 0x001CF1C4, 0x00000000, .cGset ⟨⟨false, 1⟩, 15, 7⟩),
    (.c, 0x807802C8, 0x00000000, .cGbar ⟨⟨false, 2⟩, .port (.q 14)⟩),
    (.c, 0x40191ACC, 0x00000000, .cCsrr ⟨⟨true, 2⟩, .port (.q 1), .cycle⟩),
    (.c, 0x180C09D0, 0x00000000, .cCsrw ⟨⟨true, 1⟩, .slipw, .reg 24⟩),
    (.c, 0xD20CC5D4, 0x00000000, .cRclaim ⟨⟨false, 5⟩, .reg 12, 3, .q 2⟩),
    (.c, 0x0A7149D8, 0x00000000, .cRpub ⟨⟨true, 1⟩, ⟨true, false, .pkg⟩, 28, .imm 10⟩),
    (.c, 0x3E68BDDC, 0x00000000, .cRwait ⟨⟨true, 5⟩, ⟨false, true, .die⟩, 26, .imm 62⟩),
    (.c, 0x102806E0, 0x00000000, .cRfree ⟨⟨false, 6⟩, 10, .imm 16⟩),
    (.c, 0x07540AE4, 0x00000000, .cRrel ⟨⟨true, 2⟩, 21, .imm 7⟩),
    (.c, 0xA366E1E8, 0x00000000, .cRpopn ⟨⟨false, 1⟩, .reg 46, .port (.q 9), .reg 35⟩),
    (.c, 0x805C03EC, 0x00000000, .cTrap ⟨⟨false, 3⟩, .port (.q 7)⟩),
    (.c, 0x000009F0, 0x00000000, .cHalt ⟨⟨true, 1⟩⟩),
    (.c, 0x00000BF4, 0x00000000, .cNop ⟨⟨true, 3⟩⟩),
    (.c, 0x79E93901, 0x00000000, .cAddK ⟨⟨true, 1⟩, .port (.q 3), .reg 58, 57⟩),
    (.c, 0x3E49F505, 0x00000000, .cSubK ⟨⟨false, 5⟩, .reg 31, .reg 18, 62⟩),
    (.c, 0x32DC2309, 0x00000000, .cMulK ⟨⟨false, 3⟩, .reg 2, .reg 55, 50⟩),
    (.c, 0x7A598D0D, 0x00000000, .cMulhK ⟨⟨true, 5⟩, .port (.q 8), .reg 22, 58⟩),
    (.c, 0x545D9C11, 0x00000000, .cMulhuK ⟨⟨true, 4⟩, .port (.q 9), .reg 23, 20⟩),
    (.c, 0x53E1B615, 0x00000000, .cDivK ⟨⟨false, 6⟩, .port (.q 11), .reg 56, 19⟩),
    (.c, 0x17757F19, 0x00000000, .cDivuK ⟨⟨true, 7⟩, .reg 23, .reg 29, 23⟩),
    (.c, 0x3079721D, 0x00000000, .cRemK ⟨⟨false, 2⟩, .reg 23, .reg 30, 48⟩),
    (.c, 0x43152A21, 0x00000000, .cRemuK ⟨⟨true, 2⟩, .port (.q 2), .reg 5, 3⟩),
    (.c, 0x2B1C1625, 0x00000000, .cAndK ⟨⟨false, 6⟩, .reg 1, .reg 7, 43⟩)] :
    List (Eng × Word × Word × Instr)).all wordsMean = true := by decide +kernel

theorem words_c4 : ([
    (.c, 0xAF42FA29, 0x00000000, .cOrK ⟨⟨true, 2⟩, .reg 47, .port (.q 0), 47⟩),
    (.c, 0x26940B2D, 0x00000000, .cXorK ⟨⟨true, 3⟩, .reg 0, .reg 37, 38⟩),
    (.c, 0x6F094F31, 0x00000000, .cAndnK ⟨⟨true, 7⟩, .port (.q 4), .reg 2, 47⟩),
    (.c, 0x18C42535, 0x00000000, .cShlK ⟨⟨false, 5⟩, .reg 2, .reg 49, 24⟩),
    (.c, 0x7095E739, 0x00000000, .cShrK ⟨⟨false, 7⟩, .port (.q 14), .reg 37, 48⟩),
    (.c, 0xBA57DA3D, 0x00000000, .cSarK ⟨⟨true, 2⟩, .reg 61, .port (.q 5), 58⟩),
    (.c, 0x6415C741, 0x00000000, .cRotK ⟨⟨false, 7⟩, .port (.q 12), .reg 5, 36⟩),
    (.c, 0xAF525C45, 0x00000000, .cMinK ⟨⟨true, 4⟩, .reg 37, .port (.q 4), 47⟩),
    (.c, 0x6AADBE49, 0x00000000, .cMaxK ⟨⟨true, 6⟩, .port (.q 11), .reg 43, 42⟩),
    (.c, 0x02521B4D, 0x00000000, .cMinuK ⟨⟨true, 3⟩, .reg 33, .reg 20, 2⟩),
    (.c, 0x1D694D51, 0x00000000, .cMaxuK ⟨⟨true, 5⟩, .reg 20, .reg 26, 29⟩),
    (.c, 0x1E1D5979, 0x00000000, .cCmpK ⟨⟨true, 1⟩, .lt, 5, .reg 7, 30⟩),
    (.c, 0x7FB50E81, 0x00000000, .cLdB ⟨⟨true, 6⟩, .port (.q 0), 45, 63⟩),
    (.c, 0x59A92D85, 0x00000000, .cLdH ⟨⟨true, 5⟩, .port (.q 2), 42, 25⟩),
    (.c, 0x1E279289, 0x00000000, .cLdW ⟨⟨false, 2⟩, .reg 57, 9, 30⟩),
    (.c, 0x097E268D, 0x00000000, .cLdD ⟨⟨false, 6⟩, .reg 34, 31, 9⟩),
    (.c, 0x40BDA991, 0x00000000, .cStB ⟨⟨true, 1⟩, .port (.q 10), 47, 0⟩),
    (.c, 0x36D34795, 0x00000000, .cStH ⟨⟨false, 7⟩, .reg 52, 52, 54⟩),
    (.c, 0x3CE32499, 0x00000000, .cStW ⟨⟨false, 4⟩, .reg 50, 56, 60⟩),
    (.c, 0x05DC669D, 0x00000000, .cStD ⟨⟨false, 6⟩, .reg 6, 55, 5⟩),
    (.c, 0x007C56A1, 0x00000000, .cKlaunch ⟨⟨false, 6⟩, .reg 5, .reg 31⟩),
    (.c, 0x805ED7A5, 0x00000000, .cKxfer ⟨⟨false, 7⟩, .reg 45, .port (.q 7)⟩),
    (.c, 0x00980EA9, 0x00000000, .cProg ⟨⟨true, 6⟩, .reg 38⟩),
    (.c, 0x00000DAD, 0x00000000, .cPhadv ⟨⟨true, 5⟩⟩)] :
    List (Eng × Word × Word × Instr)).all wordsMean = true := by decide +kernel

theorem words_c5 : ([
    (.c, 0x010002AD, 0x00000000, .cPhadvLate ⟨⟨false, 2⟩⟩),
    (.c, 0x00C801B1, 0x00000000, .cPhset ⟨⟨false, 1⟩, .reg 50⟩),
    (.c, 0x00000FB5, 0x00000000, .cPhwait ⟨⟨true, 7⟩⟩),
    (.c, 0x00000AB9, 0x00000000, .cSgret ⟨⟨true, 2⟩⟩),
    (.c, 0x000105BD, 0x00000000, .cAccept ⟨⟨false, 5⟩, .reg 16, false⟩),
    (.c, 0x000001C1, 0x00000000, .cScommit ⟨⟨false, 1⟩⟩),
    (.c, 0x00000CC5, 0x00000000, .cSclose ⟨⟨true, 4⟩⟩),
    (.c, 0x008442C9, 0x00000000, .cCtwr ⟨⟨false, 2⟩, 4, .reg 33⟩),
    (.c, 0x000067CD, 0x00000000, .cCtswap ⟨⟨false, 7⟩, 6⟩),
    (.c, 0x00000203, 0x320BA687, .cLi ⟨⟨false, 2⟩, .reg 0, 839624327⟩),
    (.c, 0x00002107, 0x6D82BBE5, .cPtgtLabel ⟨⟨false, 1⟩, 2, ⟨114830270, 5⟩⟩),
    (.c, 0x003C240B, 0x4946C887, .cLoop ⟨⟨false, 4⟩, 2, .reg 15, ⟨76835976, 7⟩⟩),
    (.c, 0x2D83790F, 0x4B77F5D7, .cAmo ⟨⟨true, 1⟩, 55, 32, 45, .min, true, ⟨true, true, .die⟩, 1570263⟩),
    (.c, 0x8050DC13, 0x2556E1B4, .cScout ⟨⟨true, 4⟩, .port (.q 4), 13, ⟨39153179, 4⟩⟩),
    (.c, 0x000CF917, 0xD40ADEC2, .cLdWide ⟨⟨true, 1⟩, .reg 15, 3, .d, 336256706⟩),
    (.c, 0x4049FC1B, 0x2E2761CF, .cStWide ⟨⟨true, 4⟩, .port (.q 15), 18, .b, 774332879⟩),
    (.c, 0x00DC3C1F, 0x31650419, .cTkwaitTimeout ⟨⟨true, 4⟩, 3, 55, 828703769⟩),
    (.c, 0x00000096, 0x00000000, .pfxo .c ⟨true, false, .grp⟩)] :
    List (Eng × Word × Word × Instr)).all wordsMean = true := by decide +kernel

theorem words_a1 : ([
    (.a, 0x102DD600, 0x00000000, .aAdd ⟨⟨false, 6⟩, .reg 29, .reg 11, .reg 16⟩),
    (.a, 0xD440C404, 0x00000000, .aSub ⟨⟨false, 4⟩, .reg 12, .reg 16, .port (.q 4)⟩),
    (.a, 0xDA48C108, 0x00000000, .aMul ⟨⟨false, 1⟩, .reg 12, .reg 18, .port (.q 10)⟩),
    (.a, 0x1050560C, 0x00000000, .aShl ⟨⟨false, 6⟩, .reg 5, .reg 20, .reg 16⟩),
    (.a, 0xD178D710, 0x00000000, .aShr ⟨⟨false, 7⟩, .reg 13, .reg 30, .port (.q 1)⟩),
    (.a, 0x0035B614, 0x00000000, .aMov ⟨⟨false, 6⟩, .reg 27, .reg 13⟩),
    (.a, 0x071B4518, 0x00000000, .aCmp ⟨⟨false, 5⟩, .ltu, 4, .reg 6, .reg 7⟩),
    (.a, 0x0008031C, 0x00000000, .aJt ⟨⟨false, 3⟩, 2⟩),
    (.a, 0x807C7220, 0x00000000, .aSbind ⟨⟨false, 2⟩, 7, .port (.q 15)⟩),
    (.a, 0x805C0224, 0x00000000, .aSset ⟨⟨false, 2⟩, 0, .port (.q 7)⟩),
    (.a, 0x02000228, 0x00000000, .aNgo ⟨⟨false, 2⟩, 2⟩),
    (.a, 0x0000022C, 0x00000000, .aNwait ⟨⟨false, 2⟩⟩),
    (.a, 0x1AC2FE4C, 0x00000000, .aNset ⟨⟨true, 6⟩, 3, 1, 15, 107⟩),
    (.a, 0xC8107C80, 0x00000000, .aCopyMm ⟨⟨true, 4⟩, 25, 0, 8, 7⟩),
    (.a, 0x2228DC84, 0x00000000, .aCopyMs ⟨⟨true, 4⟩, 4, 8, 20, 13⟩),
    (.a, 0xC2D42388, 0x00000000, .aCopySm ⟨⟨false, 3⟩, 24, 11, 10, 2⟩),
    (.a, 0x03C8458C, 0x00000000, .aCopyl ⟨⟨false, 5⟩, 0, 15, 4, 4⟩),
    (.a, 0x69840490, 0x00000000, .aSdrain ⟨⟨false, 4⟩, 13, 6, 2, 0⟩),
    (.a, 0x9D1D0294, 0x00000000, .aScrub ⟨⟨false, 2⟩, 19, 20, 14, 16⟩),
    (.a, 0x115EB298, 0x00000000, .aLdt ⟨⟨false, 2⟩, 2, 5, 15, 11⟩),
    (.a, 0x4755AA01, 0x00000000, .aAddK ⟨⟨true, 2⟩, .port (.q 10), .reg 21, 7⟩),
    (.a, 0x41697905, 0x00000000, .aSubK ⟨⟨true, 1⟩, .port (.q 7), .reg 26, 1⟩),
    (.a, 0x3D15AB09, 0x00000000, .aMulK ⟨⟨true, 3⟩, .reg 26, .reg 5, 61⟩),
    (.a, 0x637D6F0D, 0x00000000, .aShlK ⟨⟨true, 7⟩, .port (.q 6), .reg 31, 35⟩)] :
    List (Eng × Word × Word × Instr)).all wordsMean = true := by decide +kernel

theorem words_a2 : ([
    (.a, 0x92583E11, 0x00000000, .aShrK ⟨⟨true, 6⟩, .reg 3, .port (.q 6), 18⟩),
    (.a, 0x0E065319, 0x00000000, .aCmpK ⟨⟨false, 3⟩, .gt, 5, .reg 1, 14⟩),
    (.a, 0x3B8AD581, 0x00000000, .aCopyMmLen ⟨⟨false, 5⟩, 7, 14, 5, 13⟩),
    (.a, 0x73CA3285, 0x00000000, .aCopyMsLen ⟨⟨false, 2⟩, 14, 15, 5, 3⟩),
    (.a, 0xBB595D89, 0x00000000, .aCopySmLen ⟨⟨true, 5⟩, 23, 13, 12, 21⟩),
    (.a, 0x40014203, 0xFBDA6CB1, .aLi ⟨⟨false, 2⟩, .port (.q 4), 4225395889⟩),
    (.a, 0x00003D07, 0x7541394F, .aPtgt ⟨⟨true, 5⟩, 3, ⟨122950548, 15⟩⟩),
    (.a, 0x0020060B, 0xAA6DE69B, .aLoop ⟨⟨false, 6⟩, 0, .reg 8, ⟨178708073, 11⟩⟩),
    (.a, 0x4109940F, 0x32652971, .aCopyWide ⟨⟨false, 4⟩, 8, 4, 4, 25⟩ ⟨0, true, 2, 9, true, false, 330, 369⟩),
    (.a, 0xA47E0A13, 0xB634A033, .aCopyb ⟨⟨true, 2⟩, 20, 17, 31, 0⟩ ⟨true, 1, true, 6, 3, 4, 10, 51⟩),
    (.a, 0xFCB65717, 0xAA0FDE20, .aMcast ⟨⟨false, 7⟩, 31, 18, 27, 5⟩ ⟨170, 3, true, 3825⟩),
    (.a, 0x00605D1B, 0x9F96ABF7, .aNsetWide ⟨⟨true, 5⟩, 5, 24, 0, 2677451767⟩),
    (.a, 0x0000A11F, 0xA3500000, .aSsetImm ⟨⟨false, 1⟩, 10, 2739929088⟩)] :
    List (Eng × Word × Word × Instr)).all wordsMean = true := by decide +kernel

theorem words_v1 : ([
    (.v, 0x797E2700, 0x00000000, .vVadd ⟨⟨false, 7⟩, .port (.vq 2), .reg 31, .reg 57⟩),
    (.v, 0x38DCEB04, 0x00000000, .vVsub ⟨⟨true, 3⟩, .reg 14, .reg 55, .reg 56⟩),
    (.v, 0x63BE0408, 0x00000000, .vVmul ⟨⟨false, 4⟩, .port (.vq 0), .reg 47, .reg 35⟩),
    (.v, 0x98897E0C, 0x00000000, .vVmad ⟨⟨true, 6⟩, .reg 23, .port (.vq 2), .reg 24⟩),
    (.v, 0x63481910, 0x00000000, .vVand ⟨⟨true, 1⟩, .port (.g 1), .reg 18, .reg 35⟩),
    (.v, 0x3CD69514, 0x00000000, .vVor ⟨⟨false, 5⟩, .reg 41, .reg 53, .reg 60⟩),
    (.v, 0x935E3A18, 0x00000000, .vVxor ⟨⟨true, 2⟩, .reg 35, .port (.q 7), .reg 19⟩),
    (.v, 0xD16DB11C, 0x00000000, .vVshl ⟨⟨false, 1⟩, .reg 27, .reg 27, .port (.q 1)⟩),
    (.v, 0xE0DC8520, 0x00000000, .vVshr ⟨⟨false, 5⟩, .reg 8, .reg 55, .port (.vq 0)⟩),
    (.v, 0x72387E24, 0x00000000, .vVsar ⟨⟨true, 6⟩, .port (.g 7), .reg 14, .reg 50⟩),
    (.v, 0x5520AA28, 0x00000000, .vVmin ⟨⟨true, 2⟩, .port (.g 10), .reg 8, .reg 21⟩),
    (.v, 0x35DC3D2C, 0x00000000, .vVmax ⟨⟨true, 5⟩, .reg 3, .reg 55, .reg 53⟩),
    (.v, 0x8085B930, 0x00000000, .vVabs ⟨⟨true, 1⟩, .reg 27, .port (.vq 1)⟩),
    (.v, 0x0CC7C334, 0x00000000, .vVcmp ⟨⟨false, 3⟩, .geu, 4, .reg 49, .reg 12⟩),
    (.v, 0x02D44D38, 0x00000000, .vVsel ⟨⟨true, 5⟩, .reg 4, .reg 53, 2⟩),
    (.v, 0x34583940, 0x00000000, .vVfadd ⟨⟨true, 1⟩, .reg 3, .reg 22, .reg 52⟩),
    (.v, 0xE3E1C744, 0x00000000, .vVfsub ⟨⟨false, 7⟩, .reg 28, .reg 56, .port (.vq 3)⟩),
    (.v, 0xAC13E148, 0x00000000, .vVfmul ⟨⟨false, 1⟩, .reg 62, .port (.g 4), .reg 44⟩),
    (.v, 0x1BBDD14C, 0x00000000, .vVfma ⟨⟨false, 1⟩, .reg 29, .reg 47, .reg 27⟩),
    (.v, 0x5F0C3250, 0x00000000, .vVfmin ⟨⟨false, 2⟩, .port (.g 3), .reg 3, .reg 31⟩),
    (.v, 0xA4173E54, 0x00000000, .vVfmax ⟨⟨true, 6⟩, .reg 51, .port (.g 5), .reg 36⟩),
    (.v, 0x328A6358, 0x00000000, .vVfcmp ⟨⟨false, 3⟩, .gt, 6, .reg 34, .reg 50⟩),
    (.v, 0x8056D65C, 0x00000000, .vVrcp ⟨⟨false, 6⟩, .reg 45, .port (.q 5)⟩),
    (.v, 0x00F27560, 0x00000000, .vVrsq ⟨⟨false, 5⟩, .reg 39, .reg 60⟩)] :
    List (Eng × Word × Word × Instr)).all wordsMean = true := by decide +kernel

theorem words_v2 : ([
    (.v, 0x80805A64, 0x00000000, .vVexp2 ⟨⟨true, 2⟩, .reg 5, .port (.vq 0)⟩),
    (.v, 0x807F9D68, 0x00000000, .vVlog2 ⟨⟨true, 5⟩, .reg 57, .port (.q 15)⟩),
    (.v, 0x433C8380, 0x00000000, .vVcvt ⟨⟨false, 3⟩, .port (.g 8), .reg 15, .fp32, .i32⟩),
    (.v, 0x3888AD84, 0x00000000, .vVpack ⟨⟨true, 5⟩, .reg 10, .reg 34, .reg 56⟩),
    (.v, 0xA62E3688, 0x00000000, .vVunpk ⟨⟨false, 6⟩, .reg 35, .port (.g 11), 6, true⟩),
    (.v, 0x82181F8C, 0x00000000, .vVscale ⟨⟨true, 7⟩, .reg 1, .port (.g 6), .reg 2⟩),
    (.v, 0x474D3990, 0x00000000, .vVred ⟨⟨true, 1⟩, .port (.q 3), .reg 19, .maxu⟩),
    (.v, 0x084A4794, 0x00000000, .vVscan ⟨⟨false, 7⟩, .reg 36, .reg 18, .fadd, false⟩),
    (.v, 0x74622198, 0x00000000, .vVperm ⟨⟨false, 1⟩, .port (.vq 2), .reg 24, .reg 52⟩),
    (.v, 0x2EB28E9C, 0x00000000, .vVbcast ⟨⟨true, 6⟩, .reg 40, .reg 44, 46⟩),
    (.v, 0x000FE9A0, 0x00000000, .vViota ⟨⟨true, 1⟩, .reg 62, 3⟩),
    (.v, 0x46257AA4, 0x00000000, .vVext ⟨⟨true, 2⟩, .port (.q 7), .reg 9, 6⟩),
    (.v, 0x021CF9A8, 0x00000000, .vVany ⟨⟨true, 1⟩, .gs 15, 7, 2⟩),
    (.v, 0x020D63AC, 0x00000000, .vVall ⟨⟨false, 3⟩, .p 6, 3, 2⟩),
    (.v, 0x808E94B0, 0x00000000, .vVld ⟨⟨false, 4⟩, .reg 41, .port (.vq 3)⟩),
    (.v, 0x808D5BB4, 0x00000000, .vVst ⟨⟨true, 3⟩, .reg 21, .port (.vq 3)⟩),
    (.v, 0xE0D283B8, 0x00000000, .vVldx ⟨⟨false, 3⟩, .reg 40, .reg 52, .port (.vq 0)⟩),
    (.v, 0x8C88DCBC, 0x00000000, .vVstx ⟨⟨true, 4⟩, .reg 13, .port (.vq 2), .reg 12⟩),
    (.v, 0x926C4AC0, 0x00000000, .vVamo ⟨⟨true, 2⟩, .reg 4, .port (.q 11), .reg 18⟩),
    (.v, 0x001024C4, 0x00000000, .vBlend ⟨⟨false, 4⟩, 2, .d⟩),
    (.v, 0x000C07C8, 0x00000000, .vJt ⟨⟨false, 7⟩, 3⟩),
    (.v, 0x1A0D7401, 0x00000000, .vVaddP1 ⟨⟨false, 4⟩, .reg 23, .reg 3, .reg 26⟩),
    (.v, 0xAB637F05, 0x00000000, .vVsubP1 ⟨⟨true, 7⟩, .reg 55, .port (.q 8), .reg 43⟩),
    (.v, 0x15D09E09, 0x00000000, .vVmulP1 ⟨⟨true, 6⟩, .reg 9, .reg 52, .reg 21⟩)] :
    List (Eng × Word × Word × Instr)).all wordsMean = true := by decide +kernel

theorem words_v3 : ([
    (.v, 0xD3C6120D, 0x00000000, .vVmadP1 ⟨⟨false, 2⟩, .reg 33, .reg 49, .port (.q 3)⟩),
    (.v, 0xAF660D1D, 0x00000000, .vVshlP1 ⟨⟨true, 5⟩, .reg 32, .port (.q 9), .reg 47⟩),
    (.v, 0xAC116521, 0x00000000, .vVshrP1 ⟨⟨false, 5⟩, .reg 22, .port (.g 4), .reg 44⟩),
    (.v, 0x5314A425, 0x00000000, .vVsarP1 ⟨⟨false, 4⟩, .port (.g 10), .reg 5, .reg 19⟩),
    (.v, 0x28220129, 0x00000000, .vVminP1 ⟨⟨false, 1⟩, .reg 32, .reg 8, .reg 40⟩),
    (.v, 0xBD84B52D, 0x00000000, .vVmaxP1 ⟨⟨false, 5⟩, .reg 11, .port (.vq 1), .reg 61⟩),
    (.v, 0x8089FE31, 0x00000000, .vVabsP1 ⟨⟨true, 6⟩, .reg 31, .port (.vq 2)⟩),
    (.v, 0xC376DE35, 0x00000000, .vVcmpP1 ⟨⟨true, 6⟩, .le, 5, .reg 29, .port (.g 3)⟩),
    (.v, 0x86357239, 0x00000000, .vVselP1 ⟨⟨false, 2⟩, .reg 23, .port (.g 13), 6⟩),
    (.v, 0xCC712741, 0x00000000, .vVfaddP1 ⟨⟨false, 7⟩, .reg 18, .reg 28, .port (.g 12)⟩),
    (.v, 0x340BB345, 0x00000000, .vVfsubP1 ⟨⟨false, 3⟩, .reg 59, .reg 2, .reg 52⟩),
    (.v, 0xDFDAAB49, 0x00000000, .vVfmulP1 ⟨⟨true, 3⟩, .reg 42, .reg 54, .port (.q 15)⟩),
    (.v, 0xE390EE4D, 0x00000000, .vVfmaP1 ⟨⟨true, 6⟩, .reg 14, .reg 36, .port (.vq 3)⟩),
    (.v, 0x98886E51, 0x00000000, .vVfminP1 ⟨⟨true, 6⟩, .reg 6, .port (.vq 2), .reg 24⟩),
    (.v, 0x8269B355, 0x00000000, .vVfmaxP1 ⟨⟨false, 3⟩, .reg 27, .port (.q 10), .reg 2⟩),
    (.v, 0xA861EA59, 0x00000000, .vVfcmpP1 ⟨⟨true, 2⟩, .ge, 6, .port (.q 8), .reg 40⟩),
    (.v, 0x80547D5D, 0x00000000, .vVrcpP1 ⟨⟨true, 5⟩, .reg 7, .port (.q 5)⟩),
    (.v, 0x0096E961, 0x00000000, .vVrsqP1 ⟨⟨true, 1⟩, .reg 46, .reg 37⟩),
    (.v, 0x40861265, 0x00000000, .vVexp2P1 ⟨⟨false, 2⟩, .port (.vq 1), .reg 33⟩),
    (.v, 0x406A3A69, 0x00000000, .vVlog2P1 ⟨⟨true, 2⟩, .port (.vq 3), .reg 26⟩),
    (.v, 0xAD38B789, 0x00000000, .vVunpkP1 ⟨⟨false, 7⟩, .reg 11, .port (.g 14), 13, true⟩),
    (.v, 0x430D2C91, 0x00000000, .vVredP1 ⟨⟨true, 4⟩, .port (.q 2), .reg 3, .bxor⟩),
    (.v, 0x113D2695, 0x00000000, .vVscanP1 ⟨⟨false, 6⟩, .reg 18, .reg 15, .band, true⟩),
    (.v, 0x73949D99, 0x00000000, .vVpermP1 ⟨⟨true, 5⟩, .port (.g 9), .reg 37, .reg 51⟩)] :
    List (Eng × Word × Word × Instr)).all wordsMean = true := by decide +kernel

theorem words_v4 : ([
    (.v, 0x0E53219D, 0x00000000, .vVbcastP1 ⟨⟨false, 1⟩, .reg 50, .reg 20, 14⟩),
    (.v, 0x00100FA1, 0x00000000, .vViotaP1 ⟨⟨true, 7⟩, .reg 0, 4⟩),
    (.v, 0x49C5AFA5, 0x00000000, .vVextP1 ⟨⟨true, 7⟩, .port (.q 10), .reg 49, 9⟩),
    (.v, 0x005484B1, 0x00000000, .vVldP1 ⟨⟨false, 4⟩, .reg 8, .reg 21⟩),
    (.v, 0x808D74B5, 0x00000000, .vVstP1 ⟨⟨false, 4⟩, .reg 23, .port (.vq 3)⟩),
    (.v, 0x9072E1B9, 0x00000000, .vVldxP1 ⟨⟨false, 1⟩, .reg 46, .port (.q 12), .reg 16⟩),
    (.v, 0xB646A5BD, 0x00000000, .vVstxP1 ⟨⟨false, 5⟩, .reg 42, .port (.q 1), .reg 54⟩),
    (.v, 0x1D65FBC1, 0x00000000, .vVamoP1 ⟨⟨true, 3⟩, .reg 31, .reg 25, .reg 29⟩),
    (.v, 0x21677503, 0x13280000, .vVaddW ⟨⟨false, 5⟩, .reg 55, .reg 25, .port (.vq 1)⟩ ⟨.t16, true, .rtz, false, true, 0⟩),
    (.v, 0x30BC2E07, 0x19690000, .vVsubW ⟨⟨true, 6⟩, .port (.g 2), .reg 47, .reg 48⟩ ⟨.t16, true, .rup, false, true, 1⟩),
    (.v, 0x2052070B, 0x0A610000, .vVmulW ⟨⟨false, 7⟩, .port (.vq 0), .reg 20, .port (.vq 0)⟩ ⟨.t32, false, .rup, false, false, 1⟩),
    (.v, 0x20194A0F, 0x131E0000, .vVmadW ⟨⟨true, 2⟩, .reg 20, .reg 6, .port (.vq 0)⟩ ⟨.t16, true, .rne, true, true, 6⟩),
    (.v, 0x37888413, 0x05790000, .vVandW ⟨⟨false, 4⟩, .reg 8, .port (.vq 2), .reg 55⟩ ⟨.t32, true, .rup, true, true, 1⟩),
    (.v, 0x21904117, 0x0A6A0000, .vVorW ⟨⟨false, 1⟩, .port (.g 4), .reg 36, .port (.vq 1)⟩ ⟨.t32, false, .rup, false, true, 2⟩),
    (.v, 0x23B0C21B, 0x0A7F0000, .vVxorW ⟨⟨false, 2⟩, .port (.g 12), .reg 44, .port (.vq 3)⟩ ⟨.t32, false, .rup, true, true, 7⟩),
    (.v, 0x0F76AD1F, 0x11040000, .vVshlW ⟨⟨true, 5⟩, .reg 42, .reg 29, .reg 15⟩ ⟨.t16, true, .rne, false, false, 4⟩),
    (.v, 0x1B5DF923, 0x01090000, .vVshrW ⟨⟨true, 1⟩, .reg 31, .reg 23, .reg 27⟩ ⟨.t32, true, .rne, false, true, 1⟩),
    (.v, 0x23815727, 0x37160000, .vVsarW ⟨⟨false, 7⟩, .reg 21, .port (.vq 0), .port (.vq 3)⟩ ⟨.t8, true, .rne, true, false, 6⟩),
    (.v, 0x3B87292B, 0x35AC0000, .vVminW ⟨⟨true, 1⟩, .reg 50, .port (.vq 1), .reg 59⟩ ⟨.t8, true, .rsto, false, true, 4⟩),
    (.v, 0x2086052F, 0x3E830000, .vVmaxW ⟨⟨false, 5⟩, .port (.vq 0), .port (.vq 1), .port (.vq 0)⟩ ⟨.t8, false, .rna, false, false, 3⟩),
    (.v, 0x00893133, 0x15570000, .vVabsW ⟨⟨false, 1⟩, .reg 19, .port (.vq 2)⟩ ⟨.t16, true, .rdn, true, false, 7⟩),
    (.v, 0x10ECF137, 0x10840000, .vVcmpW ⟨⟨false, 1⟩, .ne, 7, .reg 59, .reg 16⟩ ⟨.t16, false, .rna, false, false, 4⟩),
    (.v, 0x0185CD3B, 0x25BE0000, .vVselW ⟨⟨true, 5⟩, .reg 28, .port (.vq 1), 1⟩ ⟨.tH, true, .rsto, true, true, 6⟩),
    (.v, 0x30DF3E43, 0x115F0000, .vVfaddW ⟨⟨true, 6⟩, .reg 51, .reg 55, .reg 48⟩ ⟨.t16, true, .rdn, true, true, 7⟩)] :
    List (Eng × Word × Word × Instr)).all wordsMean = true := by decide +kernel

theorem words_v5 : ([
    (.v, 0x07985D47, 0x107D0000, .vVfsubW ⟨⟨true, 5⟩, .reg 5, .reg 38, .reg 7⟩ ⟨.t16, false, .rup, true, true, 5⟩),
    (.v, 0x068CC24B, 0x2D2C0000, .vVfmulW ⟨⟨false, 2⟩, .port (.g 12), .port (.vq 3), .reg 6⟩ ⟨.tH, true, .rtz, false, true, 4⟩),
    (.v, 0x2127B94F, 0x12040000, .vVfmaW ⟨⟨true, 1⟩, .reg 59, .reg 9, .port (.vq 1)⟩ ⟨.t16, false, .rne, false, false, 4⟩),
    (.v, 0x223ACE53, 0x231C0000, .vVfminW ⟨⟨true, 6⟩, .reg 44, .reg 14, .port (.vq 2)⟩ ⟨.tH, true, .rne, true, true, 4⟩),
    (.v, 0x288A5D57, 0x05350000, .vVfmaxW ⟨⟨true, 5⟩, .reg 37, .port (.vq 2), .reg 40⟩ ⟨.t32, true, .rtz, true, false, 5⟩),
    (.v, 0x378EE35B, 0x24670000, .vVfcmpW ⟨⟨false, 3⟩, .le, 6, .port (.vq 3), .reg 55⟩ ⟨.tH, false, .rup, false, false, 7⟩),
    (.v, 0x009A0B5F, 0x20260000, .vVrcpW ⟨⟨true, 3⟩, .reg 32, .reg 38⟩ ⟨.tH, false, .rtz, false, false, 6⟩),
    (.v, 0x008C7E63, 0x1C440000, .vVrsqW ⟨⟨true, 6⟩, .port (.g 7), .port (.vq 3)⟩ ⟨.t16, false, .rdn, false, false, 4⟩),
    (.v, 0x00CE2967, 0x09690000, .vVexp2W ⟨⟨true, 1⟩, .port (.vq 2), .reg 51⟩ ⟨.t32, true, .rup, false, true, 1⟩),
    (.v, 0x00DE5D6B, 0x21A80000, .vVlog2W ⟨⟨true, 5⟩, .reg 37, .reg 55⟩ ⟨.tH, true, .rsto, false, true, 0⟩),
    (.v, 0x2933FC83, 0x00230000, .vVcvtW ⟨⟨true, 4⟩, .reg 63, .reg 12, .e4m3, .bf16⟩ ⟨.t32, false, .rtz, false, false, 3⟩),
    (.v, 0x02372B87, 0x00886A00, .vVpackW ⟨⟨true, 3⟩, .reg 50, .reg 13, .reg 2⟩ ⟨.t32, false, .rna, false, true, 0⟩ ⟨6, true, 1⟩),
    (.v, 0x0BFC1A8B, 0x294B4800, .vVunpkW ⟨⟨true, 2⟩, .port (.g 1), .reg 63, 11, false⟩ ⟨.tH, true, .rdn, false, true, 3⟩ ⟨4, true⟩),
    (.v, 0x25D8F48F, 0x18320000, .vVscaleW ⟨⟨false, 4⟩, .port (.g 15), .reg 54, .reg 37⟩ ⟨.t16, false, .rtz, true, false, 2⟩),
    (.v, 0x088DD693, 0x24AF0000, .vVredW ⟨⟨false, 6⟩, .reg 29, .port (.vq 3), .fadd⟩ ⟨.tH, false, .rsto, false, true, 7⟩),
    (.v, 0x1AD03597, 0x09050000, .vVscanW ⟨⟨false, 5⟩, .port (.g 3), .reg 52, .fmax, true⟩ ⟨.t32, true, .rne, false, false, 5⟩),
    (.v, 0x04864F9B, 0x15550000, .vVpermW ⟨⟨true, 7⟩, .reg 36, .port (.vq 1), .reg 4⟩ ⟨.t16, true, .rdn, true, false, 5⟩),
    (.v, 0x0086129F, 0x0C5C003D, .vVbcastW ⟨⟨false, 2⟩, .port (.vq 1), .port (.vq 1), 61⟩ ⟨.t32, false, .rdn, true, true, 4⟩),
    (.v, 0x000401A3, 0x092B0000, .vViotaW ⟨⟨false, 1⟩, .port (.g 0), 1⟩ ⟨.t32, true, .rtz, false, true, 3⟩),
    (.v, 0x006D9FA7, 0x093E0015, .vVextW ⟨⟨true, 7⟩, .port (.q 9), .reg 27, 21⟩ ⟨.t32, true, .rtz, true, true, 6⟩),
    (.v, 0x0084F3B3, 0x25163358, .vVldW ⟨⟨false, 3⟩, .reg 15, .port (.vq 1)⟩ ⟨.tH, true, .rne, true, false, 6⟩ 13144),
    (.v, 0x000C09B7, 0x005FF6CC, .vVstW ⟨⟨true, 1⟩, .reg 0, .reg 3⟩ ⟨.t32, false, .rdn, true, true, 7⟩ 63180),
    (.v, 0x3DC2F5BB, 0x006739DE, .vVldxW ⟨⟨false, 5⟩, .reg 47, .reg 48, .reg 61⟩ ⟨.t32, false, .rup, false, false, 7⟩ 14814),
    (.v, 0x218B75BF, 0x1765976D, .vVstxW ⟨⟨false, 5⟩, .reg 55, .port (.vq 2), .port (.vq 1)⟩ ⟨.t16, true, .rup, false, false, 5⟩ 38765)] :
    List (Eng × Word × Word × Instr)).all wordsMean = true := by decide +kernel

theorem words_v6 : ([
    (.v, 0x202899C3, 0x23896874, .vVamoW ⟨⟨true, 1⟩, .reg 9, .reg 10, .port (.vq 0)⟩ ⟨.tH, true, .rna, false, true, 1⟩ .swap 2164),
    (.v, 0x000835FB, 0x553CDEF0, .vLoop ⟨⟨false, 5⟩, 3, .reg 2, ⟨89378287, 0⟩⟩),
    (.v, 0x00001FFF, 0x92B02BAC, .vPtgt ⟨⟨true, 7⟩, 1, ⟨153813690, 12⟩⟩)] :
    List (Eng × Word × Word × Instr)).all wordsMean = true := by decide +kernel

theorem words_m1 : ([
    (.m, 0xD0003E00, 0x00000000, .mMclr ⟨⟨true, 6⟩, 3, .q 0⟩),
    (.m, 0x400DFF04, 0x00000000, .mMstat ⟨⟨true, 7⟩, 15, 3, 0⟩),
    (.m, 0x00003A08, 0x00000000, .mBret ⟨⟨true, 2⟩, 3⟩),
    (.m, 0xE8FC0480, 0x00000000, .mMnormGrow ⟨⟨false, 4⟩, 29, 3, 30⟩),
    (.m, 0xD8722680, 0x00000000, .mMnormTight ⟨⟨false, 6⟩, 27, 1, 25⟩),
    (.m, 0x98886384, 0x00000000, .mMrd ⟨⟨false, 3⟩, 19, 2, 4, 6⟩),
    (.m, 0x28E64C88, 0x00000000, .mMwr ⟨⟨true, 4⟩, 5, 3, 19, 4⟩),
    (.m, 0x90046A8C, 0x00000000, .mMexpGet ⟨⟨true, 2⟩, 18, 0, 2, 6⟩),
    (.m, 0xA88E958C, 0x00000000, .mMexpSet ⟨⟨false, 5⟩, 21, 2, 7, 1⟩),
    (.m, 0xEE7CA103, 0xCC868000, .mMma ⟨⟨false, 1⟩, 29, 25, 30, 10⟩ ⟨12, 12, 2, false, false, 3, 2⟩),
    (.m, 0xC3231E07, 0xCC048000, .mMmas ⟨⟨true, 6⟩, 24, 12, 17, 17⟩ ⟨12, 12, 0, false, false, 2, 2⟩)] :
    List (Eng × Word × Word × Instr)).all wordsMean = true := by decide +kernel

theorem words_d1 : ([
    (.d, 0x141C0900, 0x00000000, .dDclr ⟨⟨true, 1⟩, 0, 7, .imm 20⟩),
    (.d, 0x00002E08, 0x00000000, .dBret ⟨⟨true, 6⟩, 2⟩),
    (.d, 0xC0100A80, 0x00000000, .dDnormGrow ⟨⟨true, 2⟩, 24, 0, 8⟩),
    (.d, 0x18302580, 0x00000000, .dDnormTight ⟨⟨false, 5⟩, 3, 0, 24⟩),
    (.d, 0x58424E84, 0x00000000, .dDrd ⟨⟨true, 6⟩, 11, 1, 1, 4⟩),
    (.d, 0xBB000203, 0xD4080000, .dDmv ⟨⟨false, 2⟩, 23, 12, 6, 5, false, 0, 2⟩),
    (.d, 0x62400B07, 0x68040000, .dDqk ⟨⟨true, 3⟩, 12, 9, 3, 2, false, 0, 1⟩),
    (.d, 0xC280070B, 0xD40C0000, .dDpv ⟨⟨false, 7⟩, 24, 10, 6, 5, false, 0, 3⟩)] :
    List (Eng × Word × Word × Instr)).all wordsMean = true := by decide +kernel

theorem words_g1 : ([
    (.g, 0x000000DA, 0x00000000, .pfx .g true .rsto true false),
    (.g, 0xD3003900, 0x00000000, .gGcfg ⟨⟨true, 1⟩, 3, 3⟩),
    (.g, 0x80403D03, 0x60C00000, .gGld ⟨⟨true, 5⟩, 16, 1, 0, 3, 12, 3⟩),
    (.g, 0x28022D07, 0x43400000, .gGsc ⟨⟨true, 5⟩, 5, 0, 1, 2, 8, 13⟩)] :
    List (Eng × Word × Word × Instr)).all wordsMean = true := by decide +kernel

end Sys2Proof.Laws
end

