-- ==== Sys2Proof/Tests/Slice0.lean ====
section
/-! SUPPORT. Tests: ill-formed terms that the well-formedness check refuses, words of every family decoded, single steps
with results taken from the spec's rules, and for every obligation with hypotheses states and operands that meet them. -/

namespace Sys2Proof.Tests

set_option Elab.async false

open Sys2Proof Sys2Proof.Machine Sys2Proof.Claims

/-! ## Small states -/

/-- A predicate field that always holds. -/
def pT : Pred := ⟨false, 0⟩

/-- A predicate field that never holds. -/
def pF : Pred := ⟨false, 7⟩

/-- A line of an engine: its link word, with COUNT 15 and NEXT 0, and words behind it. -/
def line (e : Eng) (a : Nat) (l : List Nat) : LineBuf :=
  { addr := BitVec.ofNat 64 a,
    words := Vector.ofFn fun i =>
      BitVec.ofNat 32 (if i.val = 0 then tagOf e * 2 ^ 28 + 15 * 2 ^ 24 else (l[i.val - 1]?).getD 0) }

/-- A strand that stands at word 1 of a held line. -/
def strandAt (e : Eng) (l : List Nat) : Strand :=
  { Strand.reset with chain := true, entry := 0x10000, pc := 0x10004, entering := false, line := some (line e 0x10000 l) }

/-- One running block on core 0 of die `d`, with strands that hold lines of `nop`s of their engines. -/
def blockOn (d : Fin 8) : Block :=
  { Block.reset d with
    uid := 1, placed := true, started := true, image := 0x10000,
    strands := ((((((Block.reset d).strands.set 0 (strandAt .c [])).set 1 (strandAt .a [])).set 2 (strandAt .v [])).set 3
      (strandAt .m [])).set 4 (strandAt .d [])).set 5 (strandAt .g []) }

/-- The module with that block and its context, whose map has one plain region of a granule on the block's die. -/
def base (d : Fin 8) : State :=
  { State.reset with
    blk := blockOn d,
    ctxs := State.reset.ctxs.set 0 { Ctx.reset with valid := true, mapn := 1, regions := 1, phases := 1,
                                                    store := [fetchEntry d.val] } }

/-- That module with the block changed. -/
def withBlk (d : Fin 8) (f : Block → Block) : State := { base d with blk := f (blockOn d) }

/-- Whether a meaning answers. -/
def answers {α : Type} (x : Except Stop (α × State)) : Bool :=
  match x with
  | .ok _ => true
  | .error _ => false

/-- The state that a meaning answers with, and its value. -/
def endOf {α : Type} (x : Except Stop (α × State)) (s : State) : State :=
  match x with
  | .ok (_, t) => t
  | .error _ => s

def valOf {α : Type} (x : Except Stop (α × State)) (a : α) : α :=
  match x with
  | .ok (b, _) => b
  | .error _ => a

theorem ok_of_answers {α : Type} {x : Except Stop (α × State)} (a : α) (s : State) (h : answers x = true) :
    x = .ok (valOf x a, endOf x s) := by
  match x, h with
  | .ok (_, _), _ => rfl

/-- The same of a meaning without a value. -/
theorem ok_unit {x : Except Stop (Unit × State)} (s : State) (h : answers x = true) : x = .ok ((), endOf x s) := by
  match x, h with
  | .ok (_, _), _ => rfl

/-- A meaning that answers something with a property. -/
theorem ok_with {α : Type} {x : Except Stop (α × State)} (p : α → State → Bool)
    (h : (match x with
      | .ok (a, t) => p a t
      | .error _ => false) = true) : ∃ a t, x = .ok (a, t) ∧ p a t = true := by
  match x, h with
  | .ok (a, t), h => exact ⟨a, t, rfl, h⟩

/-- A meaning that answers a list with something in it. -/
theorem ok_cons {α β : Type} {x : Except Stop ((α × List β) × State)}
    (h : (match x with
      | .ok ((_, l), _) => !l.isEmpty
      | .error _ => false) = true) : ∃ a q r t, x = .ok ((a, q :: r), t) := by
  rcases x with _ | ⟨⟨a, _ | ⟨q, r⟩⟩, t⟩
  · cases h
  · cases h
  · exact ⟨a, q, r, t, rfl⟩

/-- With nothing in flight no push goes before another. -/
theorem first_push {e : Eng} {o : Opd} {s : State} (h : s.blk.inflight = []) : FirstPush e o s := by
  intro x hx
  rw [h] at hx
  cases hx

/-- A meaning that goes on. -/
theorem next_of (i : Instr) (s : State) (h : (match exec i s with
      | .next _ => true
      | _ => false) = true) : ∃ t, exec i s = .next t := by
  match hx : exec i s with
  | .next t => exact ⟨t, rfl⟩
  | .fault f => rw [hx] at h; cases h
  | .refused r => rw [hx] at h; cases h

/-! ## Ill-formed terms (R87, R88, R96, R97 and each instruction's own limits) -/

/-- A vector instruction's EXT at a TYPE. -/
def xt (ty : VTy) : VExt := ⟨ty, false, .rne, false, false, 0⟩

/-- A command's five-bit fields. -/
def cf (a b c : Fin 32) : CArgs := ⟨pT, 0, a, b, c⟩

theorem test_wf_predicate : (Instr.cNop ⟨⟨true, 0⟩⟩).wf = false ∧ (Instr.cNop ⟨⟨true, 1⟩⟩).wf = true := by decide +kernel

/-- Stream ports belong to the v and d strands, vector queues to the v, d and g strands. -/
theorem test_wf_ports :
    (Instr.cAdd ⟨pT, .port (.g 0), .reg 1, .reg 2⟩).wf = false ∧ (Instr.cAdd ⟨pT, .port (.vq 0), .reg 1, .reg 2⟩).wf = false ∧
    (Instr.vVadd ⟨pT, .reg 1, .port (.g 0), .reg 2⟩).wf = true ∧ (Instr.vVadd ⟨pT, .port (.q 0), .reg 1, .reg 2⟩).wf = false ∧
    (Instr.vVldx ⟨pT, .reg 1, .port (.g 0), .reg 2⟩).wf = false := by decide +kernel

theorem test_wf_one_port :
    (Instr.cAdd ⟨pT, .port (.q 1), .port (.q 2), .reg 0⟩).wf = false ∧
    (Instr.vVaddW ⟨pT, .port (.vq 1), .port (.q 2), .port (.g 0)⟩ (xt .t32)).wf = true := by decide +kernel

theorem test_wf_a_registers :
    (Instr.aAdd ⟨pT, .reg 32, .reg 0, .reg 0⟩).wf = false ∧ (Instr.aAdd ⟨pT, .reg 31, .reg 0, .reg 0⟩).wf = true := by
  decide +kernel

/-- A destination that is also read is a register. -/
theorem test_wf_read_destination :
    (Instr.cSel ⟨pT, .port (.q 1), .reg 1, .reg 0⟩).wf = false ∧ (Instr.cBfi ⟨pT, .port (.q 1), .reg 1, .reg 0⟩).wf = false ∧
    (Instr.cFma ⟨pT, .port (.q 1), .reg 1, .reg 0⟩).wf = false ∧ (Instr.cRpopn ⟨pT, .port (.q 1), .reg 1, .reg 0⟩).wf = false ∧
    (Instr.vVmadW ⟨pT, .port (.vq 1), .reg 1, .reg 0⟩ (xt .t32)).wf = false ∧
    (Instr.vVselW ⟨pT, .port (.vq 1), .reg 1, 0⟩ (xt .t8)).wf = false := by decide +kernel

theorem test_wf_ordering :
    (Instr.cFence ⟨pT, ⟨true, false, .strand⟩⟩).wf = false ∧ (Instr.cFence ⟨pT, ⟨false, false, .blk⟩⟩).wf = false ∧
    (Instr.cRpub ⟨pT, ⟨false, true, .grp⟩, 0, .imm 1⟩).wf = false ∧ (Instr.cRwait ⟨pT, ⟨true, false, .grp⟩, 0, .imm 1⟩).wf = false ∧
    (Instr.pfxo .c Ord.none).wf = false := by decide +kernel

theorem test_wf_prefix :
    (Instr.pfx .v false .rne false false).wf = false ∧ (Instr.pfx .v false .rup true false).wf = false := by decide +kernel

theorem test_wf_relations :
    (Instr.cFcmp ⟨pT, .ltu, 0, .reg 1, .reg 2⟩).wf = false ∧ (Instr.vVfcmp ⟨pT, .geu, 0, .reg 1, .reg 2⟩).wf = false ∧
    (Instr.cFcvt ⟨pT, .reg 0, .reg 1, .i32, .i64⟩).wf = false := by decide +kernel

theorem test_wf_counts :
    (Instr.cRfree ⟨pT, 0, .imm 0⟩).wf = false ∧ (Instr.cRclaim ⟨pT, .port (.q 1), 0, .q 2⟩).wf = false ∧
    (Instr.cAmo ⟨pT, 0, 1, 2, .fadd, true, Ord.none, 0⟩).wf = false := by decide +kernel

theorem test_wf_commands :
    (Instr.aCopyMs (cf 16 0 0)).wf = false ∧ (Instr.aCopySm (cf 0 16 0)).wf = false ∧ (Instr.aSdrain (cf 0 0 1)).wf = false ∧
    (Instr.aLdt (cf 16 0 0)).wf = false ∧ (Instr.aCopyMmLen (cf 0 0 25)).wf = false ∧
    (Instr.aSsetImm ⟨pT, 0, 0x1001⟩).wf = false ∧ (Instr.aSsetImm ⟨pT, 0, 0x00800000⟩).wf = false := by decide +kernel

theorem test_wf_copies :
    (Instr.aCopyWide (cf 0 1 2) ⟨0, false, 0, 11, false, false, 0, 0⟩).wf = false ∧
    (Instr.aCopyWide (cf 0 1 2) ⟨1, true, 0, 0, false, false, 0, 0⟩).wf = false ∧
    (Instr.aCopyWide (cf 0 1 2) ⟨0, false, 1, 0, false, false, 0, 0⟩).wf = false ∧
    (Instr.aCopyWide (cf 0 1 25) ⟨0, false, 0, 0, false, true, 0, 0⟩).wf = false ∧
    (Instr.aCopyWide (cf 0 1 2) ⟨1, false, 0, 0, false, false, 0, 1⟩).wf = false ∧
    (Instr.aCopyWide (cf 0 1 2) ⟨2, false, 0, 16, false, false, 0, 0⟩).wf = false ∧
    (Instr.aCopyb (cf 0 1 2) ⟨false, 0, true, 1, 1, 1, 1, 0⟩).wf = false ∧
    (Instr.aMcast (cf 0 1 0) ⟨0, 0, true, 1⟩).wf = false ∧ (Instr.aMcast (cf 0 1 0) ⟨0, 1, true, 0⟩).wf = false ∧
    (Instr.aMcast (cf 0 1 2) ⟨0, 1, false, 1⟩).wf = false := by decide +kernel

theorem test_wf_vector_types :
    (Instr.vVaddW ⟨pT, .reg 0, .reg 1, .reg 2⟩ (xt .tH)).wf = false ∧
    (Instr.vVandW ⟨pT, .reg 0, .reg 1, .reg 2⟩ (xt .t16)).wf = false ∧
    (Instr.vVfaddW ⟨pT, .reg 0, .reg 1, .reg 2⟩ (xt .t8)).wf = false ∧
    (Instr.vVldxW ⟨pT, .reg 0, .reg 1, .reg 2⟩ (xt .t8) 0).wf = false ∧
    (Instr.vVredW ⟨pT, .reg 0, .reg 1, .fadd⟩ (xt .t8)).wf = false ∧
    (Instr.vVamoW ⟨pT, .reg 0, .reg 1, .reg 2⟩ (xt .t32) .cas 0).wf = false ∧
    (Instr.vVamoW ⟨pT, .reg 0, .reg 1, .reg 2⟩ (xt .tH) .add 0).wf = false ∧
    (Instr.vVbcastW ⟨pT, .reg 0, .reg 1, 128⟩ (xt .t16)).wf = false ∧
    (Instr.vVext ⟨pT, .port (.q 0), .reg 1, 64⟩).wf = false ∧ (Instr.vVext ⟨pT, .reg 0, .reg 1, 0⟩).wf = false := by decide +kernel

theorem test_wf_packing :
    (Instr.vVpackW ⟨pT, .reg 0, .reg 1, .reg 2⟩ (xt .t32) ⟨2, true, 0⟩).wf = false ∧
    (Instr.vVpackW ⟨pT, .port (.g 0), .reg 1, .reg 2⟩ (xt .t32) ⟨0, true, 0⟩).wf = false ∧
    (Instr.vVunpkW ⟨pT, .reg 0, .reg 1, 0, true⟩ (xt .t32) ⟨8, true⟩).wf = false ∧
    (Instr.vVunpkW ⟨pT, .reg 0, .reg 1, 0, false⟩ (xt .tH) ⟨2, true⟩).wf = false ∧
    (Instr.vVunpk ⟨pT, .reg 0, .port (.q 0), 0, false⟩).wf = false := by decide +kernel

theorem test_wf_engines :
    (Instr.mBret ⟨pT, 0⟩).wf = false ∧ (Instr.vBlend ⟨pT, 0, .m⟩).wf = false ∧
    (Instr.mMma (cf 3 3 0) ⟨0, 0, 0, false, false, 0, 0⟩).wf = false ∧
    (Instr.mMma (cf 3 4 0) ⟨0, 0, 0, false, false, 1, 0⟩).wf = false ∧ (Instr.dDnormGrow ⟨pT, 0, 2, 0⟩).wf = false ∧
    (Instr.dDpv ⟨pT, 0, 0, 1, 0, true, 0, 0⟩).wf = false ∧ (Instr.dDqk ⟨pT, 0, 0, 0, 0, false, 0, 0⟩).wf = false := by
  decide +kernel

/-! ## Words written out field by field from R86 to R103 -/

theorem test_decode_a : decodeStep .a
    (BitVec.ofNat 32 (0 * 2 ^ 30 + 17 * 2 ^ 24 + 5 * 2 ^ 18 + 31 * 2 ^ 12 + 0 * 2 ^ 11 + 2 * 2 ^ 8 + 0 * 2 ^ 2 + 0)) 0 =
    .ok (.aAdd ⟨⟨false, 2⟩, .reg 31, .reg 5, .reg 17⟩) := by decide +kernel

theorem test_decode_prefix_v : decodeStep .v (BitVec.ofNat 32 (1 * 2 ^ 8 + 1 * 2 ^ 7 + 3 * 2 ^ 4 + 1 * 2 ^ 3 + 0 * 2 ^ 2 + 2)) 0 =
    .ok (.pfx .v true .rup true true) := by decide +kernel

/-- Selector 1 holds no instruction of the m, d and g engines, and majors that no row has are illegal. -/
theorem test_decode_refuses :
    decodeStep .m 1 0 = .illegal ∧ decodeStep .d 1 0 = .illegal ∧ decodeStep .g 1 0 = .illegal ∧
    decodeStep .c (BitVec.ofNat 32 (62 * 4)) 0 = .illegal ∧
    decodeStep .c (BitVec.ofNat 32 (60 * 4 + 2 ^ 12)) 0 = .reserved ∧ decodeStep .c (BitVec.ofNat 32 (2 ^ 9 + 10)) 0 = .reserved := by
  decide +kernel

/-! ## Single steps, with results worked out from the rules -/

/-- What `f` reads in the state after an instruction. -/
def after {α : Type} (i : Instr) (s : State) (f : State → α) : Option α :=
  match exec i s with
  | .next t => some (f t)
  | _ => none

/-- Registers s1 and s2 hold values, and s3 a third. -/
def sN (a b d : Nat) : State :=
  withBlk 0 fun k => { k with s := ((k.s.set 1 (BitVec.ofNat 64 a)).set 2 (BitVec.ofNat 64 b)).set 3 (BitVec.ofNat 64 d) }

/-- The three-register form in P0 with s3 as destination. -/
def r3 : RArgs := ⟨pT, .reg 3, .reg 1, .reg 2⟩

def gets3 (i : Instr) (a b : Nat) : Option Nat := after i (sN a b 0) fun t => (t.blk.s[3]).toNat

/-- R106, R107: wrap, high products, and the corners of division. -/
theorem test_c_products :
    gets3 (.cAdd r3) (2 ^ 64 - 1) 2 = some 1 ∧ gets3 (.cSub r3) 1 2 = some (2 ^ 64 - 1) ∧
    gets3 (.cMul r3) (2 ^ 63) 3 = some (2 ^ 63) ∧ gets3 (.cMulh r3) (2 ^ 64 - 1) 2 = some (2 ^ 64 - 1) ∧
    gets3 (.cMulhu r3) (2 ^ 64 - 1) 2 = some 1 := by decide +kernel

theorem test_c_division :
    gets3 (.cDiv r3) 7 0 = some (2 ^ 64 - 1) ∧ gets3 (.cDiv r3) (2 ^ 63) (2 ^ 64 - 1) = some (2 ^ 63) ∧
    gets3 (.cDiv r3) (2 ^ 64 - 7) 2 = some (2 ^ 64 - 3) ∧ gets3 (.cDivu r3) 7 0 = some (2 ^ 64 - 1) ∧
    gets3 (.cRem r3) (2 ^ 64 - 7) 2 = some (2 ^ 64 - 1) ∧ gets3 (.cRemu r3) 7 0 = some 7 := by decide +kernel

/-- R106: shift counts are taken modulo 64, and `rot` goes right. -/
theorem test_c_shifts :
    gets3 (.cShl r3) 3 65 = some 6 ∧ gets3 (.cShr r3) (2 ^ 63) 63 = some 1 ∧
    gets3 (.cSar r3) (2 ^ 63) 63 = some (2 ^ 64 - 1) ∧ gets3 (.cRot r3) 1 1 = some (2 ^ 63) ∧
    gets3 (.cAndn r3) 12 10 = some 4 ∧ gets3 (.cMin r3) (2 ^ 64 - 1) 1 = some (2 ^ 64 - 1) ∧
    gets3 (.cMinu r3) (2 ^ 64 - 1) 1 = some 1 := by decide +kernel

/-- R108: fields of w = 8 at 4, a field cut at bit 63, and widths of 0 in the extensions. -/
theorem test_c_fields :
    gets3 (.cBfx r3) 0x12345 (8 * 256 + 4) = some 0x34 ∧ gets3 (.cBfx r3) (2 ^ 63) (8 * 256 + 63) = some 1 ∧
    after (.cBfi r3) (sN 0xFF (4 * 256 + 8) 0) (fun t => (t.blk.s[3]).toNat) = some 0xF00 ∧
    gets3 (.cSext r3) 0x80 8 = some (2 ^ 64 - 128) ∧ gets3 (.cSext r3) 0x80 0 = some 0x80 ∧
    gets3 (.cZext r3) 0x1FF 8 = some 0xFF ∧ gets3 (.cClz ⟨pT, .reg 3, .reg 1⟩) 0 0 = some 64 ∧
    gets3 (.cCtz ⟨pT, .reg 3, .reg 1⟩) 8 0 = some 3 := by decide +kernel

/-- R110, R63, R69: 1 + 2, an overflow to infinity, and a NaN made canonical; the upper half is cleared. -/
theorem test_c_floats :
    gets3 (.cFadd r3) 0xFFFFFFFF3F800000 0x40000000 = some 0x40400000 ∧
    gets3 (.cFmul r3) 0x7F7FFFFF 0x40000000 = some 0x7F800000 ∧
    gets3 (.cFsub r3) 0x7F800000 0x7F800000 = some 0x7FC00000 := by decide +kernel

/-- R111: 2.5 to i32 in rne, and -1 as bf16 to fp32. -/
theorem test_c_convert :
    gets3 (.cFcvt ⟨pT, .reg 3, .reg 1, .fp32, .i32⟩) 0x40200000 0 = some 2 ∧
    gets3 (.cFcvt ⟨pT, .reg 3, .reg 1, .bf16, .fp32⟩) 0xBF80 0 = some 0xBF800000 ∧
    gets3 (.cFcvt ⟨pT, .reg 3, .reg 1, .fp32, .i32⟩) 0x7FC00000 0 = some 0 := by decide +kernel

/-- R109, R112: a signed and an unsigned relation, -0 = +0, and no relation with a NaN but `ne`. -/
theorem test_c_compares :
    let p (i : Instr) (a b : Nat) : Option Bool := after i (sN a b 0) fun t => (t.str .c).preds[5]
    p (.cCmp ⟨pT, .lt, 5, .reg 1, .reg 2⟩) (2 ^ 64 - 1) 1 = some true ∧
    p (.cCmp ⟨pT, .ltu, 5, .reg 1, .reg 2⟩) (2 ^ 64 - 1) 1 = some false ∧
    p (.cFcmp ⟨pT, .eq, 5, .reg 1, .reg 2⟩) 0x80000000 0 = some true ∧
    p (.cFcmp ⟨pT, .ge, 5, .reg 1, .reg 2⟩) 0x7FC00000 0 = some false ∧
    p (.cFcmp ⟨pT, .ne, 5, .reg 1, .reg 2⟩) 0x7FC00000 0 = some true := by decide +kernel

/-- v1 and v2 hold an element everywhere. -/
def sLanes (a b : Nat) : State :=
  withBlk 0 fun k =>
    let v := k.v.set 1 (Vector.replicate 64 (BitVec.ofNat 32 a))
    { k with v := v.set 2 (Vector.replicate 64 (BitVec.ofNat 32 b)) }

def getv3 (i : Instr) (a b : Nat) : Option (Nat × Nat) :=
  after i (sLanes a b) fun t => ((t.blk.v[3])[0].toNat, (t.blk.v[3])[63].toNat)

def v3 : RArgs := ⟨pT, .reg 3, .reg 1, .reg 2⟩

/-- R180, R181: 32-bit lanes wrap, 16-bit ones stay apart, and 8-bit ones saturate under `.sat`. -/
theorem test_v_integers :
    getv3 (.vVadd v3) 0xFFFFFFFF 2 = some (1, 1) ∧ getv3 (.vVaddP1 v3) 0xFFFFFFFF 0x00020002 = some (0x00010001, 0x00010001) ∧
    getv3 (.vVaddW v3 ⟨.t8, false, .rne, true, false, 0⟩) 0x7F807F80 0x01FF01FF = some (0x7F807F80, 0x7F807F80) ∧
    getv3 (.vVshl v3) 1 33 = some (2, 2) ∧ getv3 (.vVabs ⟨pT, .reg 3, .reg 1⟩) 0x80000000 0 = some (0x80000000, 0x80000000) := by
  decide +kernel

/-- R183, R184: fp32 and bf16 sums, and the special functions at their special inputs. -/
theorem test_v_floats :
    getv3 (.vVfadd v3) 0x3F800000 0x40000000 = some (0x40400000, 0x40400000) ∧
    getv3 (.vVfaddP1 v3) 0x3F803F80 0x40004000 = some (0x40404040, 0x40404040) ∧
    getv3 (.vVrcp ⟨pT, .reg 3, .reg 1⟩) 0x80000000 0 = some (0xFF800000, 0xFF800000) ∧
    getv3 (.vVrsq ⟨pT, .reg 3, .reg 1⟩) 0x40800000 0 = some (0x3F000000, 0x3F000000) := by decide +kernel

theorem test_v_exponentials :
    getv3 (.vVexp2 ⟨pT, .reg 3, .reg 1⟩) 0x3F800000 0 = some (0x40000000, 0x40000000) ∧
    getv3 (.vVexp2 ⟨pT, .reg 3, .reg 1⟩) 0xFF800000 0 = some (0, 0) ∧
    getv3 (.vVlog2 ⟨pT, .reg 3, .reg 1⟩) 0x3F800000 0 = some (0, 0) ∧
    getv3 (.vVlog2 ⟨pT, .reg 3, .reg 1⟩) 0x80000000 0 = some (0xFF800000, 0xFF800000) := by decide +kernel

/-- R190, R191: sixty-four ones sum to 64 in element 0 alone; an exclusive scan's last output is 63. -/
theorem test_v_sums :
    getv3 (.vVred ⟨pT, .reg 3, .reg 1, .add⟩) 1 0 = some (64, 0) ∧
    getv3 (.vVscan ⟨pT, .reg 3, .reg 1, .add, true⟩) 1 0 = some (0, 63) := by decide +kernel

/-- R111, R185: conversions clamp. -/
theorem test_v_convert :
    getv3 (.vVcvt ⟨pT, .reg 3, .reg 1, .fp32, .i8⟩) 0xC3960000 0 = some (0xFFFFFF80, 0xFFFFFF80) ∧
    getv3 (.vVcvt ⟨pT, .reg 3, .reg 1, .i32, .i16⟩) 0x12345 0 = some (0x7FFF, 0x7FFF) := by decide +kernel

/-- R129, R277: `trap` pops and records its operand; `halt` finishes; `nop` and `li` pass over one and two words. -/
theorem test_c_ends :
    after (.cTrap ⟨pT, .reg 1⟩) (sN 0x77 0 0) (fun t => (t.str .c).stop.map fun r => (r.cause, r.aux)) =
      some (some (0x50, 0x77)) ∧
    after (.cHalt ⟨pT⟩) (sN 0 0 0) (fun t => (t.str .c).finished) = some true ∧
    after (.cNop ⟨pF⟩) (sN 0 0 0) (fun t => (t.str .c).pc) = some 0x10008 ∧
    after (.cLi ⟨pT, .reg 3, 0x80000000⟩) (sN 0 0 0) (fun t => ((t.str .c).pc, t.blk.s[3])) =
      some (0x1000C, 0xFFFFFFFF80000000) := by decide +kernel

/-- R36, R119: a setter counts itself; a wait on a flag that no setter was issued for traps 0x20. -/
theorem test_c_flags :
    after (.cTkset ⟨pT, 63⟩) (sN 0 0 0) (fun t => (t.blk.flags[63]).p) = some 1 ∧
    after (.cTkwait ⟨pT, 63⟩) (sN 0 0 0) (fun t => (t.str .c).stop.map fun r => r.cause) = some (some 0x20) := by decide +kernel

/-- R274 to R277: the first step after the load of `halt` finishes the strand. -/
theorem test_first_step :
    (match step (State.reset.withFetchWord 32 0xF0) with
      | .next t => (t.str t.eng).finished
      | _ => false) = true := by decide +kernel

/-! ## Hypotheses of the obligations are met: the c strand's arithmetic and control -/

/-- s1 and s2 at the bounds of the signed range, entries in queues 0 and 1, p1 true. -/
def sC : State := withBlk 0 fun b =>
  { b with s := (b.s.set 1 (BitVec.ofNat 64 (2 ^ 63 - 1))).set 2 (BitVec.ofNat 64 (2 ^ 63)),
           a := (b.a.set 1 (BitVec.ofNat 64 (2 ^ 63 - 1))).set 2 63, q := (b.q.set 0 [5, 6]).set 1 (List.replicate 15 1) }

/-- The same with a prefix latched that asks saturation. -/
def sSat : State := sC.modStr .c fun st => { st with pfx := .fp false .rne true false }

/-- s63 := s1 op s2, and queue 1 := queue 0 op s63. -/
def rReg : RArgs := ⟨pT, .reg 63, .reg 1, .reg 2⟩
def rIn : RArgs := ⟨pT, .reg 3, .port (.q 0), .reg 63⟩
def rOut : RArgs := ⟨pT, .port (.q 1), .reg 1, .reg 2⟩

theorem wit_CIntegers :
    (∃ i s x f a b s1 s2 s3, cPlain i = some (x, f) ∧ (s.str .c).holds x.pred = true ∧
      Takes .c x.a s a s1 ∧ Takes .c x.b s1 b s2 ∧ Puts .c x.d s2 (f a b) s3) ∧
    (∃ i s x k f a s1 s2, cPlainK i = some (x, k, f) ∧ (s.str .c).holds x.pred = true ∧
      Takes .c x.a s a s1 ∧ Puts .c x.d s1 (f a k) s2) :=
  ⟨⟨.cMulh rIn, sC, rIn, _, _, _, _, _, _, rfl, by decide +kernel, ⟨_, rfl, rfl⟩, ⟨by decide +kernel, rfl, rfl⟩,
    ⟨by decide +kernel, rfl⟩⟩,
   ⟨.cShlK ⟨pT, .port (.q 1), .reg 1, 63⟩, sC, _, _, _, _, _, _, rfl, by decide +kernel, ⟨by decide +kernel, rfl, rfl⟩,
    ⟨first_push (by decide +kernel), by decide +kernel, rfl⟩⟩⟩

theorem wit_CExactResult :
    (∃ i s x f a b s1 s2 s3, cExact i = some (x, f) ∧ (s.str .c).holds x.pred = true ∧ Takes .c x.a s a s1 ∧
      Takes .c x.b s1 b s2 ∧ (clamp64 (s.str .c).pfx.ctl.sat (f a.toInt b.toInt)).2 = true ∧
      Puts .c x.d (satIf (clamp64 (s.str .c).pfx.ctl.sat (f a.toInt b.toInt)).2 s2)
        (clamp64 (s.str .c).pfx.ctl.sat (f a.toInt b.toInt)).1 s3) ∧
    (∃ i s x f a s1 s2, cExactK i = some (x, f) ∧ (s.str .c).holds x.pred = true ∧ Takes .c x.a s a s1 ∧
      Puts .c x.d (satIf (clamp64 (s.str .c).pfx.ctl.sat (f a.toInt x.imm.toInt)).2 s1)
        (clamp64 (s.str .c).pfx.ctl.sat (f a.toInt x.imm.toInt)).1 s2) :=
  ⟨⟨.cSub rReg, sSat, rReg, _, _, _, _, _, _, rfl, by decide +kernel, ⟨by decide +kernel, rfl, rfl⟩,
    ⟨by decide +kernel, rfl, rfl⟩, by decide +kernel, ⟨by decide +kernel, rfl⟩⟩,
   ⟨.cDivK ⟨pT, .reg 3, .reg 2, 0⟩, sC, _, _, _, _, _, rfl, by decide +kernel, ⟨by decide +kernel, rfl, rfl⟩,
    ⟨by decide +kernel, rfl⟩⟩⟩

theorem wit_CBitsAndMoves :
    (∃ i s x f a s1 s2, cUnary i = some (x, f) ∧ (s.str .c).holds x.pred = true ∧ Takes .c x.a s a s1 ∧
      Puts .c x.d s1 (f a) s2) ∧
    (∃ i s x f a b d s1 s2 s3 s4, cMerge i = some (x, f) ∧ (s.str .c).holds x.pred = true ∧ Takes .c x.a s a s1 ∧
      Takes .c x.b s1 b s2 ∧ Takes .c x.d s2 d s3 ∧ Puts .c x.d s3 (f a b d) s4) ∧
    (∃ (s : State) (x : LiArgs) (s1 : State), (s.str .c).holds x.pred = true ∧ Puts .c x.d s (x.imm.signExtend 64) s1) :=
  ⟨⟨.cClz ⟨pT, .reg 1, .reg 0⟩, sC, _, _, _, _, _, rfl, by decide +kernel, ⟨by decide +kernel, rfl, rfl⟩,
    ⟨by decide +kernel, rfl⟩⟩,
   ⟨.cBfi ⟨pT, .reg 3, .reg 1, .reg 2⟩, sC, _, _, _, _, _, _, _, _, _, rfl, by decide +kernel, ⟨by decide +kernel, rfl, rfl⟩,
    ⟨by decide +kernel, rfl, rfl⟩, ⟨by decide +kernel, rfl, rfl⟩, ⟨by decide +kernel, rfl⟩⟩,
   ⟨sC, ⟨pT, .reg 63, 0x80000000⟩, _, by decide +kernel, ⟨by decide +kernel, rfl⟩⟩⟩

theorem wit_CFloats :
    (∃ i s x f a b s1 s2 s3, cFloat2 i = some (x, f) ∧ (s.str .c).holds x.pred = true ∧ Takes .c x.a s a s1 ∧
      Takes .c x.b s1 b s2 ∧
      let c := (s.str .c).pfx.ctl
      let v := fun y : Dword => Fmt.fp32.value c.ftz (y.toNat % 2 ^ 32)
      let r := Fmt.fp32.deliver c 192 (f c.rm (v a) (v b)) (numOf s2)
      Puts .c x.d (withNum s2 r.2) (BitVec.ofNat 64 r.1) s3) ∧
    (∃ (s : State) (x : CFcvtArgs) (a : Dword) (s1 s2 : State), (s.str .c).holds x.pred = true ∧ Takes .c x.a s a s1 ∧
      let c := (s.str .c).pfx.ctl
      let r := cvtTo x.dst c (cvtFrom x.src c.ftz a) (numOf s1)
      Puts .c x.d (withNum s1 r.2) r.1 s2) :=
  ⟨⟨.cFadd rReg, sC, rReg, _, _, _, _, _, _, rfl, by decide +kernel, ⟨by decide +kernel, rfl, rfl⟩,
    ⟨by decide +kernel, rfl, rfl⟩, ⟨by decide +kernel, rfl⟩⟩,
   ⟨sC, ⟨pT, .reg 3, .reg 2, .i64, .e5m2⟩, _, _, _, by decide +kernel, ⟨by decide +kernel, rfl, rfl⟩,
    ⟨by decide +kernel, rfl⟩⟩⟩

theorem wit_Comparisons :
    (∃ i s e x f a b s1 s2, compares i = some (e, x, f) ∧ (s.str e).holds x.pred = true ∧ Takes e x.a s a s1 ∧
      Takes e x.b s1 b s2) ∧
    (∃ i s e x a s1, comparesK i = some (e, x) ∧ (s.str e).holds x.pred = true ∧ Takes e x.a s a s1) ∧
    (∃ i s p d f, predOps i = some (p, d, f) ∧ (State.str s .c).holds p = true) :=
  ⟨⟨.aCmp ⟨pT, .ltu, 7, .reg 1, .reg 2⟩, sC, _, _, _, _, _, _, _, rfl, by decide +kernel, ⟨by decide +kernel, rfl, rfl⟩,
    ⟨by decide +kernel, rfl, rfl⟩⟩,
   ⟨.cCmpK ⟨pT, .ge, 0, .reg 1, 0x20⟩, sC, _, _, _, _, rfl, by decide +kernel, ⟨by decide +kernel, rfl, rfl⟩⟩,
   ⟨.cPnot ⟨pT, 7, 0⟩, sC, _, _, _, rfl, by decide +kernel⟩⟩

theorem wit_RoundingKeepsValues :
    ∃ f ∈ [Fmt.fp32, Fmt.bf16, Fmt.fp16, Fmt.e4m3, Fmt.e5m2, Fmt.e2m1], ∃ code g : Nat, code < 2 ^ (1 + f.ew + f.fw) ∧
      g < 2 ^ 32 ∧ f.value false code ≠ .nan :=
  ⟨.e2m1, by decide, 15, 0, by decide, by decide, by decide⟩

theorem wit_FloatCompare : ∃ (s : State) (x : CmpArgs) (a b : Dword) (s1 s2 : State), x.rel ≠ .ltu ∧ x.rel ≠ .geu ∧
    (s.str .c).holds x.pred = true ∧ Takes .c x.a s a s1 ∧ Takes .c x.b s1 b s2 ∧ Pred.ok x.pred = true :=
  ⟨sC, ⟨pT, .le, 7, .reg 1, .port (.q 0)⟩, _, _, _, _, by decide, by decide, by decide +kernel,
    ⟨by decide +kernel, rfl, rfl⟩, ⟨_, rfl, rfl⟩, rfl⟩

theorem wit_GuardSet :
    (∃ (s : State) (x : GsetArgs), (s.str .c).holds x.pred = true) ∧
    (∃ (s : State) (x : GsetArgs), (s.str .c).holds x.pred = false) ∧ Pred.ok ⟨true, 7⟩ = true :=
  ⟨⟨sC, ⟨pT, 15, 7⟩, by decide +kernel⟩, ⟨sC, ⟨pF, 0, 0⟩, by decide +kernel⟩, rfl⟩

theorem wit_EndAndNop :
    (∃ (s : State) (x : SrcArgs) (a : Dword) (s1 : State), s.inSlot .c = false ∧ (s.str .c).holds x.pred = true ∧
      Takes .c x.a s a s1) ∧
    (∃ (s : State) (x : NoArgs), s.inSlot .c = false ∧ (s.str .c).holds x.pred = true ∧ (s.str .c).again = false) ∧
    (∃ (s : State) (x : NoArgs), s.inSlot .c = false ∧ (s.str .c).holds x.pred = false) ∧
    (∃ (s : State) (x : SrcArgs) (s1 : State), s.inSlot .c = false ∧ (s.str .c).holds x.pred = false ∧ Drops .c x.a s s1) :=
  ⟨⟨sC, ⟨pT, .port (.q 0)⟩, _, _, by decide +kernel, by decide +kernel, ⟨_, rfl, rfl⟩⟩,
   ⟨sC, ⟨pT⟩, by decide +kernel, by decide +kernel, by decide +kernel⟩, ⟨sC, ⟨pF⟩, by decide +kernel, by decide +kernel⟩,
   ⟨sC, ⟨pF, .port (.q 0)⟩, _, by decide +kernel, by decide +kernel, ⟨_, _, rfl, rfl⟩⟩⟩

/-- b1 names word 15 of the held lines, b2 their word 0; b3 the word behind the prefix at word 3. -/
def sJ : State :=
  let f := fun st : Strand => { st with b := ((st.b.set 1 0x1003C).set 2 0x10000).set 3 0x10010 }
  let s := ((base 0).modStr .c f).modStr .a f
  s.modStr .v fun st => { f st with line := some (line .v 0x10000 [0, 0, 2]) }

theorem wit_BranchTargets :
    (∃ i s e x, labels i = some (e, x) ∧ (State.str s e).holds x.pred = true) ∧
    (∃ (s : State) (x : PtgtRArgs) (a : Dword) (s1 : State), (s.str .c).holds x.pred = true ∧ Takes .c x.a s a s1 ∧
      a.toNat % 4 = 0) ∧
    (∃ (s : State) (x : PtgtRArgs) (a : Dword) (s1 : State), (s.str .c).holds x.pred = true ∧ Takes .c x.a s a s1 ∧
      a.toNat % 4 ≠ 0) :=
  ⟨⟨.vPtgt ⟨pT, 3, ⟨0x1FFF, 15⟩⟩, sJ, _, _, rfl, by decide +kernel⟩,
   ⟨sC, ⟨pT, 0, .reg 2⟩, _, _, by decide +kernel, ⟨by decide +kernel, rfl, rfl⟩, by decide +kernel⟩,
   ⟨sC, ⟨pT, 3, .reg 1⟩, _, _, by decide +kernel, ⟨by decide +kernel, rfl, rfl⟩, by decide +kernel⟩⟩

theorem wit_Branches :
    (∃ i s e x l s1, jumps i = some (e, x) ∧ s.inSlot e = false ∧ (s.str e).holds x.pred = true ∧
      lineAt e ((s.str e).b[x.b]) s = .ok (l, s1) ∧ Enters l ((s.str e).b[x.b])) ∧
    (∃ i s e x, jumps i = some (e, x) ∧ State.inSlot s e = false ∧ (s.str e).holds x.pred = false) ∧
    (∃ (s : State) (x : JtlArgs) (l : LineBuf) (s1 : State) (v : Dword) (s2 s3 : State), s.inSlot .c = false ∧
      (s.str .c).holds x.pred = true ∧ lineAt .c ((s.str .c).b[x.b]) s = .ok (l, s1) ∧ Enters l ((s.str .c).b[x.b]) ∧
      linkValue .c s1 = .ok (v, s2) ∧ Puts .c x.d s2 v s3) ∧
    (∃ i s e x l s1, jumps i = some (e, x) ∧ s.inSlot e = false ∧ (s.str e).holds x.pred = true ∧
      lineAt e ((s.str e).b[x.b]) s = .ok (l, s1) ∧ wordOf ((s.str e).b[x.b]) = 0) ∧
    (∃ i s e x l s1, jumps i = some (e, x) ∧ s.inSlot e = false ∧ (s.str e).holds x.pred = true ∧
      lineAt e ((s.str e).b[x.b]) s = .ok (l, s1) ∧ wordOf ((s.str e).b[x.b]) ≠ 0 ∧
      wordOf ((s.str e).b[x.b]) ≤ linkCount (l.words[0]) ∧ stepAt l (wordOf ((s.str e).b[x.b])) 16 1 false = some true) :=
  ⟨⟨.aJt ⟨pT, 1⟩, sJ, .a, ⟨pT, 1⟩, _, _, rfl, by decide +kernel, by decide +kernel,
    ok_of_answers ⟨0, Vector.replicate 16 0⟩ sJ (by decide +kernel),
    ⟨by decide +kernel, by decide +kernel, by decide +kernel⟩⟩,
   ⟨.cJt ⟨pF, 0⟩, sJ, .c, ⟨pF, 0⟩, rfl, by decide +kernel, by decide +kernel⟩,
   ⟨sJ, ⟨pT, .reg 63, 1⟩, _, _, _, _, _, by decide +kernel, by decide +kernel,
    ok_of_answers ⟨0, Vector.replicate 16 0⟩ sJ (by decide +kernel),
    ⟨by decide +kernel, by decide +kernel, by decide +kernel⟩, ok_of_answers 0 sJ (by decide +kernel),
    ⟨by decide +kernel, rfl⟩⟩,
   ⟨.cJt ⟨pT, 2⟩, sJ, .c, ⟨pT, 2⟩, _, _, rfl, by decide +kernel, by decide +kernel,
    ok_of_answers ⟨0, Vector.replicate 16 0⟩ sJ (by decide +kernel), by decide +kernel⟩,
   ⟨.vJt ⟨pT, 3⟩, sJ, .v, ⟨pT, 3⟩, _, _, rfl, by decide +kernel, by decide +kernel,
    ok_of_answers ⟨0, Vector.replicate 16 0⟩ sJ (by decide +kernel),
    by decide +kernel, by decide +kernel, by decide +kernel⟩⟩

theorem wit_Sequencing :
    (∃ (st : Strand) (n1 n2 : Nat), st.arms = [] ∧ st.pfx = .none ∧ st.slots = 0 ∧ st.branch = none ∧ 0 < n1 ∧ 0 < n2 ∧
      wordOf st.pc + 1 + n1 + n2 ≤ linkCount st.link ∧ linkCount st.link ≤ 15) ∧
    (∃ (st : Strand) (n : Nat), st.branch = none ∧ st.arms = [] ∧ st.again = false ∧ st.pfx = .none ∧ 0 < n ∧
      wordOf st.pc + n ≤ linkCount st.link) ∧
    (∃ (st : Strand) (n : Nat), st.branch = none ∧ st.arms = [] ∧ st.again = false ∧ st.pfx = .none ∧ 0 < n ∧
      linkCount st.link < wordOf st.pc + n ∧ linkNext st.link ≠ 0) ∧
    (∃ (st : Strand) (n : Nat), st.branch = none ∧ st.arms = [] ∧ st.again = false ∧ st.pfx = .none ∧ 0 < n ∧
      linkCount st.link < wordOf st.pc + n ∧ linkNext st.link = 0) :=
  ⟨⟨strandAt .c [], 12, 1, by decide +kernel⟩, ⟨strandAt .c [], 14, by decide +kernel⟩,
   ⟨{ strandAt .c [] with line := some ⟨0x10000, Vector.replicate 16 0x0F3FFFFF⟩ }, 15, by decide +kernel⟩,
   ⟨strandAt .c [], 15, by decide +kernel⟩⟩

/-- A loop that ends at word 15 of the held line. -/
def lArgs (a : Opd) : LoopArgs := ⟨pT, 3, a, ⟨0, 15⟩⟩

theorem wit_CountedLoops :
    (∃ i s e x a s1, loopsS i = some (e, x) ∧ s.inSlot e = false ∧ (s.str e).holds x.pred = true ∧ Takes e x.a s a s1 ∧
      (s.str e).loopCount x.lc (a.setWidth 32) ≠ 0) ∧
    (∃ i s e x a s1 l s2, loopsS i = some (e, x) ∧ s.inSlot e = false ∧ (s.str e).holds x.pred = true ∧
      Takes e x.a s a s1 ∧ (s.str e).loopCount x.lc (a.setWidth 32) = 0 ∧
      lineAt e (targetAddr (s.str e).pc x.stop) (ordered e [x.a] [] s1) = .ok (l, s2)) ∧
    (∃ (s : State) (x : LoopArgs) (v : VReg) (s1 : State), s.inSlot .v = false ∧ (s.str .v).holds x.pred = true ∧
      TakesV 32 x.a s v s1 ∧ (s.str .v).loopCount x.lc (v[0]) ≠ 0) ∧
    (∃ (s : State) (x : LoopArgs) (v : VReg) (s1 : State) (l : LineBuf) (s2 : State), s.inSlot .v = false ∧
      (s.str .v).holds x.pred = true ∧ TakesV 32 x.a s v s1 ∧ (s.str .v).loopCount x.lc (v[0]) = 0 ∧
      lineAt .v (targetAddr (s.str .v).pc x.stop) (ordered .v [x.a] [] s1) = .ok (l, s2)) :=
  ⟨⟨.cLoop (lArgs (.port (.q 0))), sC, .c, lArgs (.port (.q 0)), _, _, rfl, by decide +kernel, by decide +kernel,
    ⟨_, rfl, rfl⟩, by decide +kernel⟩,
   ⟨.aLoop (lArgs (.reg 0)), sC, .a, lArgs (.reg 0), _, _, _, _, rfl, by decide +kernel, by decide +kernel,
    ⟨by decide +kernel, rfl, rfl⟩, by decide +kernel, ok_of_answers ⟨0, Vector.replicate 16 0⟩ sC (by decide +kernel)⟩,
   ⟨sC, lArgs (.port (.q 0)), _, _, by decide +kernel, by decide +kernel, ⟨_, _, rfl, rfl, rfl⟩, by decide +kernel⟩,
   ⟨sC, lArgs (.reg 0), _, _, _, _, by decide +kernel, by decide +kernel, ⟨by decide +kernel, by decide +kernel, rfl, rfl⟩,
    by decide +kernel, ok_of_answers ⟨0, Vector.replicate 16 0⟩ sC (by decide +kernel)⟩⟩

/-- The c strand at the end of a nest at word 15: the loop of counter 3 around that of counter 2, whose last iteration this was, both
with bodies at word 2. -/
def sE (outer : Nat) (body : Dword) : State := (base 0).modStr .c fun st =>
  { st with lc := (st.lc.set 3 (BitVec.ofNat 32 outer)).set 2 1, edge := some (0x1003C, false),
            arms := [{ lc := 2, stop := 0x1003C, body := 0x10008, rline := 0, seq := 2 },
              { lc := 3, stop := 0x1003C, body := body, rline := 0, seq := 1 }] }

theorem deciding {s : State} {u : Nat} {e : Eng} {a : Dword} {ended : Bool} (h : (s.blockAt u).isSome = true ∧
    ((s.focus u).str e).stop = none ∧ (s.focus u).cx.st.val ≤ 1 ∧ (s.focus u).blk.scout.discarded = false ∧
    (s.focus u).blk.ckpt = .none ∧ ((s.focus u).str e).edge = some (a, ended) ∧
    (((s.focus u).str e).arms.map fun y => y.lc).Nodup) : Deciding s (s.focus u) u e a ended :=
  ⟨h.1, rfl, h.2⟩

theorem wit_LoopBackEdge :
    (∃ s t u e a ended pre x post t1, Deciding s t u e a ended ∧ (t.str e).arms = pre ++ x :: post ∧ pre ≠ [] ∧
      (∀ y ∈ pre, y.stop = a → (t.str e).lc[y.lc] = 1) ∧ x.stop = a ∧ (t.str e).lc[x.lc] ≠ 1 ∧
      checkTarget e x.body t = .ok ((), t1)) ∧
    (∃ s t u e a ended pre x post z, Deciding s t u e a ended ∧ (t.str e).arms = pre ++ x :: post ∧
      (∀ y ∈ pre, y.stop = a → (t.str e).lc[y.lc] = 1) ∧ x.stop = a ∧ (t.str e).lc[x.lc] ≠ 1 ∧
      checkTarget e x.body t = .error (.trap z)) ∧
    (∃ s t u e a ended, Deciding s t u e a ended ∧ (∀ y ∈ (t.str e).arms, y.stop = a → (t.str e).lc[y.lc] = 1) ∧
      (t.str e).again = false) :=
  ⟨⟨sE 2 0x10008, (sE 2 0x10008).focus 1, 1, .c, 0x1003C, false, [⟨2, 0x1003C, 0x10008, 0, 2⟩], ⟨3, 0x1003C, 0x10008, 0, 1⟩, [],
    _, deciding (by decide +kernel), by decide +kernel, by decide, by decide +kernel, by decide +kernel, by decide +kernel,
    ok_unit (sE 2 0x10008) (by decide +kernel)⟩,
   ⟨sE 2 0x10000, (sE 2 0x10000).focus 1, 1, .c, 0x1003C, false, [⟨2, 0x1003C, 0x10008, 0, 2⟩], ⟨3, 0x1003C, 0x10000, 0, 1⟩, [],
    _, deciding (by decide +kernel), by decide +kernel, by decide +kernel, by decide +kernel, by decide +kernel, rfl⟩,
   ⟨sE 1 0x10008, (sE 1 0x10008).focus 1, 1, .c, 0x1003C, false, deciding (by decide +kernel), by decide +kernel, by decide +kernel⟩⟩

/-! ## Tokens, barriers, CSRs and rings -/

/-- Flag 1 with P 3 and nothing outstanding, flag 2 with ordinal 3 of 3 outstanding, flag 3 full; ring 0 of four slots, two
claimed and one of them published; a task whose barrier group 7 holds the block alone. -/
def sT : State :=
  let r : Ring := { base := 0x10000, cap := 4, slot := 64, head := 0, tail := 1, claimed := 2 }
  let s := withBlk 0 fun b =>
    { b with task := 9, flags := ((b.flags.set 1 ⟨3, []⟩).set 2 ⟨3, [3]⟩).set 3 ⟨BitVec.ofNat 32 (2 ^ 32 - 1), []⟩,
             rings := b.rings.set 0 r,
             q := (b.q.set 0 [7]).set 1 [BitVec.ofNat 64 (2 ^ 32)], s := (b.s.set 1 7).set 2 8 }
  { s with tasks := [{ key := 9, ctx := 0, src := .block 1, pkt := packetOf [], xfer := none, groups := [⟨7, 1, [0]⟩],
                       rings := [], strms := [], held := [0], want := [], entered := 0, est := 0, doneIdx := [],
                       drains := [], sees := none, clock := Vector.replicate 10 0 }] }

/-- The same with the c strand waiting. -/
def sTw (w : Wait) : State := sT.modStr .c fun st => { st with wait := w }

theorem wit_FencesAndFlags :
    (∃ (s : State) (x : FenceArgs), (s.str .c).holds x.pred = true ∧ s.blk.scout.round = .closed) ∧
    (∃ (s : State) (x : FlagArgs), (s.str .c).holds x.pred = true ∧ (s.blk.flags[x.f]).p.toNat ≠ 2 ^ 32 - 1) ∧
    (∃ (s : State) (x : FlagArgs), (s.str .c).holds x.pred = true ∧ (s.blk.flags[x.f]).p.toNat = 2 ^ 32 - 1) ∧
    (∃ (s : State) (x : FlagArgs), (s.str .c).holds x.pred = true ∧
      ∀ k ∈ (s.blk.flags[x.f]).pend, (s.blk.flags[x.f]).p.toNat < k) :=
  ⟨⟨sT, ⟨pT, ⟨true, true, .sys⟩⟩, by decide +kernel⟩, ⟨sT, ⟨pT, 2⟩, by decide +kernel⟩, ⟨sT, ⟨pT, 3⟩, by decide +kernel⟩,
   ⟨sT, ⟨pT, 1⟩, by decide +kernel⟩⟩

theorem wit_TokenWaits :
    (∃ (s : State) (x : FlagArgs) (y : TkTArgs), (s.str .c).holds x.pred = true ∧ (s.str .c).holds y.pred = true ∧ s.blk.mayBind .c = true ∧
      (s.blk.flags[x.f]).p ≠ 0 ∧ y.f = x.f ∧ ∀ k ∈ (s.blk.flags[x.f]).pend, (s.blk.flags[x.f]).p.toNat < k) ∧
    (∃ (s : State) (x : FlagArgs) (y z : TkTArgs), (s.str .c).holds x.pred = true ∧ (s.str .c).holds y.pred = true ∧
      (s.str .c).holds z.pred = true ∧ s.blk.mayBind .c = true ∧ (s.blk.flags[x.f]).p ≠ 0 ∧ y.f = x.f ∧ y.t ≠ 0 ∧ z.f = x.f ∧ z.t = 0 ∧
      ∃ k ∈ (s.blk.flags[x.f]).pend, k ≤ (s.blk.flags[x.f]).p.toNat) ∧
    (∃ (s : State) (x : FlagArgs) (y : TkTArgs), (s.str .c).holds x.pred = true ∧ (s.str .c).holds y.pred = true ∧
      s.blk.mayBind .c = true ∧ (s.blk.flags[x.f]).p = 0 ∧ (s.blk.flags[y.f]).p = 0) ∧
    (∃ (s : State) (x : FlagArgs) (y : TkTArgs), (s.str .c).holds x.pred = true ∧ (s.str .c).holds y.pred = true ∧
      s.blk.mayBind .c = false) ∧
    (∃ (s : State) (u : Nat) (b : TkBind), (s.blockAt u).isSome = true ∧ (s.focus u).blk.placed = true ∧
      (s.focus u).blk.stood = false ∧ ((s.focus u).str .c).stop = none ∧
      (s.focus u).cx.st = 0 ∧ ((s.focus u).str .c).wait = .tk b ∧ b.expired = false ∧ ∀ k ∈ ((s.focus u).blk.flags[b.flag]).pend, b.n < k) ∧
    (∃ (s : State) (u : Nat) (b : TkBind), (s.blockAt u).isSome = true ∧ (s.focus u).blk.placed = true ∧
      (s.focus u).blk.stood = false ∧ ((s.focus u).str .c).stop = none ∧
      (s.focus u).cx.st = 0 ∧ ((s.focus u).str .c).wait = .tk b ∧ b.timed = true ∧ b.expired = true) ∧
    (∃ (b : Block) (k : TkBind), b.placed = true ∧ (b.str .c).stop = none ∧ (b.str .c).wait = .tk k ∧ k.timed = true ∧
      ∃ j ∈ (b.flags[k.flag]).pend, j ≤ k.n) ∧
    (∃ (b : Block) (k : TkBind), b.placed = true ∧ (b.str .c).stop = none ∧ (b.str .c).wait = .tk k ∧ k.timed = true ∧
      ∀ j ∈ (b.flags[k.flag]).pend, k.n < j) :=
  ⟨⟨sT, ⟨pT, 1⟩, ⟨pT, 0, 1, 0⟩, by decide +kernel⟩, ⟨sT, ⟨pT, 2⟩, ⟨pT, 3, 2, 1⟩, ⟨pT, 3, 2, 0⟩, by decide +kernel⟩,
   ⟨sT, ⟨pT, 63⟩, ⟨pT, 0, 63, 0⟩, by decide +kernel⟩,
   ⟨sT.modStr .c fun st => { st with pc := 0x10044, line := some (line .c 0x10040 []) }, ⟨pT, 1⟩, ⟨pT, 0, 1, 0⟩, by decide +kernel⟩,
   ⟨sTw (.tk ⟨1, 3, false, 0, 0, 0, false⟩), 1, ⟨1, 3, false, 0, 0, 0, false⟩, by decide +kernel⟩,
   ⟨sTw (.tk ⟨2, 3, true, 0, 0, 4, true⟩), 1, ⟨2, 3, true, 0, 0, 4, true⟩, by decide +kernel⟩,
   ⟨(sTw (.tk ⟨2, 3, true, 0, 0, 4, false⟩)).blk, ⟨2, 3, true, 0, 0, 4, false⟩, by decide +kernel⟩,
   ⟨(sTw (.tk ⟨1, 3, true, 0, 0, 4, false⟩)).blk, ⟨1, 3, true, 0, 0, 4, false⟩, by decide +kernel⟩⟩

theorem wit_GroupBarrier :
    (∃ (s : State) (x : SrcArgs) (a : Dword) (q : Option (Fin 16)) (k : Task) (g : Group), (s.str .c).holds x.pred = true ∧
      s.blk.scout.round = .closed ∧ Peeks .c x.a s a q ∧ s.taskAt s.blk.task = some k ∧
      k.barrierOf s.blk.bidx.toNat (a.toNat % 256) = some g) ∧
    (∃ (s : State) (x : SrcArgs) (a : Dword) (q : Option (Fin 16)) (k : Task), (s.str .c).holds x.pred = true ∧
      s.blk.scout.round = .closed ∧ Peeks .c x.a s a q ∧ s.taskAt s.blk.task = some k ∧
      k.barrierOf s.blk.bidx.toNat (a.toNat % 256) = none) ∧
    (∃ (s : State) (t : Nat) (grp : Fin 256) (k : Task) (g : Group) (q : Option (Fin 16)), s.taskAt t = some k ∧
      k.groups.find? (fun g => g.index == grp.val && g.kind == 1) = some g ∧ (s.ctxAt k.ctx).st = 0 ∧
      (∀ i ∈ g.members, i ∈ k.doneIdx ∨ ∃ b, (s.ctxAt k.ctx).bars.find?
        (fun b => b.task == k.key && b.grp == g.index) = some b ∧ i ∈ b.arrived) ∧
      (∀ b ∈ s.blocks, b.task = k.key → b.stood = false) ∧
      s.blk.placed = true ∧ s.blk.task = k.key ∧ (s.str .c).wait = .gbar grp.val q) :=
  ⟨⟨sT, ⟨pT, .port (.q 0)⟩, _, _, sT.tasks[0], ⟨7, 1, [0]⟩, by decide +kernel, by decide +kernel,
    ⟨by decide +kernel, ⟨_, rfl⟩, rfl⟩, by decide +kernel, by decide +kernel⟩,
   ⟨sT, ⟨pT, .reg 2⟩, _, _, sT.tasks[0], by decide +kernel, by decide +kernel, ⟨by decide +kernel, rfl, rfl⟩,
    by decide +kernel, by decide +kernel⟩,
   ⟨(sTw (.gbar 7 (some 0))).modCtx 0 fun c => { c with bars := [⟨9, 7, [0]⟩] }, 9, 7, sT.tasks[0], ⟨7, 1, [0]⟩, some 0,
    by decide +kernel, by decide +kernel, by decide +kernel, fun i hi => by
      have : i = 0 := by simpa using hi
      subst this
      exact Or.inr ⟨⟨9, 7, [0]⟩, by decide +kernel, by decide⟩,
    by decide +kernel, by decide +kernel, by decide +kernel, by decide +kernel⟩⟩

theorem wit_CsrAccess :
    (∃ (s : State) (x : CsrrArgs) (s1 : State), (s.str .c).holds x.pred = true ∧ Puts .c x.d s (csrSays s x.csr) s1) ∧
    (∃ (s : State) (x : CsrwArgs) (v : Dword) (s1 : State), (s.str .c).holds x.pred = true ∧ Takes .c x.b s v s1) ∧
    (∃ (s : State) (x : SrcArgs) (v : Dword) (s1 : State), (s.str .c).holds x.pred = true ∧ Takes .c x.a s v s1) :=
  ⟨⟨sT, ⟨pT, .reg 1, .leave⟩, _, by decide +kernel, ⟨by decide +kernel, rfl⟩⟩,
   ⟨sT, ⟨pT, .slipw, .reg 0⟩, _, _, by decide +kernel, ⟨by decide +kernel, rfl, rfl⟩⟩,
   ⟨sT, ⟨pT, .port (.q 0)⟩, _, _, by decide +kernel, ⟨_, rfl, rfl⟩⟩⟩

theorem wit_Rings :
    (∃ (s : State) (x : RclaimArgs) (k : Nat) (s1 s2 : State), (s.str .c).holds x.pred = true ∧ Counts x.n s k s1 ∧ k ≠ 0 ∧
      k ≤ (s1.blk.rings[x.ring]).cap.toNat ∧ k ≤ unclaimed (s1.blk.rings[x.ring]) ∧
      Puts .c x.d ((withRing s1 x.ring { s1.blk.rings[x.ring] with claimed := (s1.blk.rings[x.ring]).claimed + BitVec.ofNat 32 k
          }).acquire .c (.ring s.blk.uid x.ring true) .blk)
        ((s1.blk.rings[x.ring]).base + BitVec.ofNat 64 ((s1.blk.rings[x.ring]).claimed.toNat %
          (s1.blk.rings[x.ring]).cap.toNat * (s1.blk.rings[x.ring]).slot.toNat)) s2) ∧
    (∃ (s : State) (x : ROrdArgs) (k : Nat) (s1 : State), (s.str .c).holds x.pred = true ∧ Counts x.n s k s1 ∧ k ≠ 0 ∧
      k ≤ ((s1.blk.rings[x.ring]).claimed - (s1.blk.rings[x.ring]).tail).toNat ∧
      k ≤ (s1.blk.rings[x.ring]).cap.toNat ∧ k ≤ filled (s1.blk.rings[x.ring])) ∧
    (∃ (s : State) (x : RingArgs) (k : Nat) (s1 : State), (s.str .c).holds x.pred = true ∧ Counts x.n s k s1 ∧ k ≠ 0 ∧
      k ≤ (s1.blk.rings[x.ring]).cap.toNat ∧ k ≤ unclaimed (s1.blk.rings[x.ring]) ∧ k ≤ filled (s1.blk.rings[x.ring])) ∧
    (∃ i s p n s1, ringCounts i = some (p, n) ∧ (State.str s .c).holds p = true ∧ Counts n s 0 s1) ∧
    (∃ i s p n ring f k s1, ringWaiters i = some (p, ring, n, f) ∧ (State.str s .c).holds p = true ∧ Counts n s k s1 ∧ k ≠ 0 ∧
      (s1.blk.rings[ring]).cap.toNat < k) ∧
    (∃ i s p n ring f k s1, ringWaiters i = some (p, ring, n, f) ∧ (State.str s .c).holds p = true ∧ Counts n s k s1 ∧ k ≠ 0 ∧
      k ≤ (s1.blk.rings[ring]).cap.toNat ∧ f (s1.blk.rings[ring]) < k) ∧
    (∃ (s : State) (x : ROrdArgs) (k : Nat) (s1 : State), (s.str .c).holds x.pred = true ∧ Counts x.n s k s1 ∧ k ≠ 0 ∧
      ((s1.blk.rings[x.ring]).claimed - (s1.blk.rings[x.ring]).tail).toNat < k) ∧
    (∃ (s : State) (x : RingArgs) (k : Nat) (s1 : State), (s.str .c).holds x.pred = true ∧ Counts x.n s k s1 ∧ k ≠ 0 ∧
      filled (s1.blk.rings[x.ring]) < k) :=
  ⟨⟨sT, ⟨pT, .reg 3, 0, .imm 2⟩, 2, _, _, by decide +kernel, ⟨rfl, rfl⟩, by decide, by decide +kernel, by decide +kernel,
    ⟨by decide +kernel, rfl⟩⟩,
   ⟨sT, ⟨pT, Ord.none, 0, .imm 1⟩, 1, _, by decide +kernel, ⟨rfl, rfl⟩, by decide, by decide +kernel, by decide +kernel,
    by decide +kernel⟩,
   ⟨sT, ⟨pT, 0, .imm 1⟩, 1, _, by decide +kernel, ⟨rfl, rfl⟩, by decide, by decide +kernel, by decide +kernel,
    by decide +kernel⟩,
   ⟨.cRrel ⟨pT, 0, .q 1⟩, sT, _, _, _, rfl, by decide +kernel, ⟨BitVec.ofNat 64 (2 ^ 32), ⟨_, rfl, rfl⟩, by decide⟩⟩,
   ⟨.cRclaim ⟨pT, .reg 3, 0, .imm 5⟩, sT, _, _, _, _, 5, _, rfl, by decide +kernel, ⟨rfl, rfl⟩, by decide, by decide +kernel⟩,
   ⟨.cRfree ⟨pT, 0, .imm 3⟩, sT, _, _, _, _, 3, _, rfl, by decide +kernel, ⟨rfl, rfl⟩, by decide, by decide +kernel,
    by decide +kernel⟩,
   ⟨sT, ⟨pT, Ord.none, 0, .q 0⟩, 7, _, by decide +kernel, ⟨7, ⟨_, rfl, rfl⟩, by decide⟩, by decide, by decide +kernel⟩,
   ⟨sT, ⟨pT, 0, .imm 2⟩, 2, _, by decide +kernel, ⟨rfl, rfl⟩, by decide, by decide +kernel⟩⟩

/-! ## Memory access -/

/-- Quad 0 of dies 0 and 4 belongs to the partition; s4 is the own slice's last doubleword, s5 the region's, s6 a misaligned
address there; s7 lies in a reserved region, s8 in one that admits no write. -/
def sM : State :=
  let s := withBlk 0 fun b =>
    { b with s := ((((b.s.set 4 (BitVec.ofNat 64 (0x00F0000000000000 + 3 * 2 ^ 20 - 8))).set 5 0x1FFF8).set 6 0x1FFF9).set 7
                    0x30000).set 8 0x40000,
             inflight := [⟨.c, .reg 9, 77, vzero, some 8⟩, ⟨.c, .port (.q 2), 78, vzero, none⟩, ⟨.v, .reg 63, 0, vzero, none⟩,
                          ⟨.v, .port (.vq 3), 0, vzero, none⟩],
             q := b.q.set 0 [5] }
  { s with
    hub := { s.hub with partdies := s.hub.partdies.set 0 0x00010001 },
    ctxs := s.ctxs.set 0 { s.ctxs[0] with
      seovf := s.ctxs[0].seovf.set 4 0x40000001, mapn := 3, regions := 3,
      store := [fetchEntry 0,
        { base := 0x30000, limit := 0x40000, kind := 0, perm := 7, kspec := [], state := 0, frames := [0] },
        { base := 0x40000, limit := 0x50000, kind := 0, perm := 1, kspec := [], state := 5, frames := [0x40000] }] } }

/-- Queue 1 has no push in flight before it. -/
theorem first_push_c {s : State} (h : s.blk.inflight.all (fun x => x.dst != .port (.q 1)) = true) :
    FirstPush .c (.port (.q 1)) s := by
  intro x hx _ _ hn
  have := List.all_eq_true.1 h x hx
  rcases hn with hn | hn
  · cases hn
  · simp [hn] at this

theorem wit_LoadResult :
    (∃ i s w n p d a off, loads i = some (w, n, p, d, a, off) ∧ (State.str s .c).holds p = true ∧
      RoundAdmits s (s.str .c).pfx.order ∧ s.blk.pending .c (.reg a) = false ∧ effective s a off % n ≠ 0) ∧
    (∃ i s w n p d a off bs s1 pa s2 s3, loads i = some (w, n, p, d, a, off) ∧ (State.str s .c).holds p = true ∧
      RoundAdmits s (s.str .c).pfx.order ∧ s.blk.pending .c (.reg a) = false ∧ effective s a off % n = 0 ∧
      s.blk.pending .c d = false ∧ loadAs .c true (effective s a off) n s = .ok (bs, s1) ∧
      translate .read true true (effective s a off) s1 = .ok (pa, s2) ∧
      (orderedAt .c (loadOrder (s.str .c).pfx.order) pa n s1).ownSlice pa = true ∧
      Puts .c d (orderedAt .c (loadOrder (s.str .c).pfx.order) pa n s1) (BitVec.ofNat 64 (leNat bs)) s3) ∧
    (∃ i s w n p d a off bs s1 pa s2 s3, loads i = some (w, n, p, d, a, off) ∧ (State.str s .c).holds p = true ∧
      RoundAdmits s (s.str .c).pfx.order ∧ s.blk.pending .c (.reg a) = false ∧ effective s a off % n = 0 ∧
      s.blk.pending .c d = false ∧ loadAs .c true (effective s a off) n s = .ok (bs, s1) ∧
      translate .read true true (effective s a off) s1 = .ok (pa, s2) ∧
      (orderedAt .c (loadOrder (s.str .c).pfx.order) pa n s1).ownSlice pa = false ∧
      ∃ r, r = readFlies .c (s.str .c).pfx.order n [(effective s a off, pa, [0])]
          (orderedAt .c (loadOrder (s.str .c).pfx.order) pa n s1) ∧
        Flies d r.1 r.2 (BitVec.ofNat 64 (leNat bs)) s3) :=
  ⟨⟨.cLdD ⟨pT, .reg 3, 6, 0x20⟩, sM, _, _, _, _, _, _, rfl, by decide +kernel, Or.inl (by decide +kernel),
    by decide +kernel, by decide +kernel⟩,
   ⟨.cLdD ⟨pT, .reg 3, 4, 0⟩, sM, _, _, _, _, _, _, _, _, _, _, _, rfl, by decide +kernel, Or.inl (by decide +kernel),
    by decide +kernel, by decide +kernel, by decide +kernel, ok_of_answers [] sM (by decide +kernel),
    ok_of_answers 0 sM (by decide +kernel), by decide +kernel, ⟨by decide +kernel, rfl⟩⟩,
   ⟨.cLdWide ⟨pT, .port (.q 1), 5, .d, 0x3FFFFFF8⟩, sM, _, _, _, _, _, _, _, _, _, _, _, rfl, by decide +kernel,
    Or.inl (by decide +kernel), by decide +kernel, by decide +kernel, by decide +kernel,
    ok_of_answers [] sM (by decide +kernel), ok_of_answers 0 sM (by decide +kernel), by decide +kernel,
    _, rfl, ⟨first_push_c (by decide +kernel), by decide +kernel, rfl⟩⟩⟩

theorem wit_StoreResult :
    (∃ i s w n p d a off, stores i = some (w, n, p, d, a, off) ∧ (State.str s .c).holds p = true ∧
      RoundAdmits s (s.str .c).pfx.order ∧ s.blk.pending .c (.reg a) = false ∧ effective s a off % n ≠ 0) ∧
    (∃ i s w n p d a off v s1 pa s2, stores i = some (w, n, p, d, a, off) ∧ (State.str s .c).holds p = true ∧
      RoundAdmits s (s.str .c).pfx.order ∧ s.blk.pending .c (.reg a) = false ∧ effective s a off % n = 0 ∧
      Takes .c d s v s1 ∧
      storeAs .c true (effective s a off) (leBytes n v.toNat) (acquired .c [d] s1) = .ok (pa, s2)) :=
  ⟨⟨.cStH ⟨pT, .reg 3, 6, 1⟩, sM, _, _, _, _, _, _, rfl, by decide +kernel, Or.inl (by decide +kernel), by decide +kernel,
    by decide +kernel⟩,
   ⟨.cStD ⟨pT, .port (.q 0), 5, 0⟩, sM, _, _, _, _, _, _, _, _, _, _, rfl, by decide +kernel, Or.inl (by decide +kernel),
    by decide +kernel, by decide +kernel, ⟨_, rfl, rfl⟩, ok_of_answers 0 sM (by decide +kernel)⟩⟩

theorem wit_StoreFrame :
    (∃ i s t w n p d a off, stores i = some (w, n, p, d, a, off) ∧ exec i s = .next t ∧ (State.str s .c).holds p = false) ∧
    (∃ i s t w n p d a off v s1, stores i = some (w, n, p, d, a, off) ∧ exec i s = .next t ∧
      (State.str s .c).holds p = true ∧ Takes .c d s v s1 ∧
      ∀ pa s2, translate .write true true (effective s a off) (acquired .c [d] s1) ≠ .ok (pa, s2)) ∧
    (∃ i s t w n p d a off v s1 pa s2, stores i = some (w, n, p, d, a, off) ∧ exec i s = .next t ∧
      (State.str s .c).holds p = true ∧ Takes .c d s v s1 ∧
      translate .write true true (effective s a off) (acquired .c [d] s1) = .ok (pa, s2) ∧ s2.mem = s.mem ∧
      s2.unitKey (pa / 64) = none) := by
  obtain ⟨t1, h1⟩ := next_of (.cStB ⟨pF, .reg 3, 5, 0⟩) sM (by decide +kernel)
  obtain ⟨t2, h2⟩ := next_of (.cStB ⟨pT, .reg 3, 8, 0⟩) sM (by decide +kernel)
  obtain ⟨t3, h3⟩ := next_of (.cStD ⟨pT, .reg 3, 5, 0⟩) sM (by decide +kernel)
  have hs : ∀ pa s2, translate .write true true (effective sM 8 0) (acquired .c [.reg 3] sM) ≠ .ok (pa, s2) := by
    have : answers (translate .write true true (effective sM 8 0) (acquired .c [.reg 3] sM)) = false := by decide +kernel
    intro pa s2 h; rw [h] at this; cases this
  exact ⟨⟨.cStB ⟨pF, .reg 3, 5, 0⟩, sM, t1, _, _, _, _, _, _, rfl, h1, by decide +kernel⟩,
    ⟨.cStB ⟨pT, .reg 3, 8, 0⟩, sM, t2, _, _, _, _, _, _, _, _, rfl, h2, by decide +kernel, ⟨by decide +kernel, rfl, rfl⟩, hs⟩,
    ⟨.cStD ⟨pT, .reg 3, 5, 0⟩, sM, t3, _, _, _, _, _, _, _, _, _, _, rfl, h3, by decide +kernel, ⟨by decide +kernel, rfl, rfl⟩,
      ok_of_answers 0 sM (by decide +kernel), by decide +kernel, by decide +kernel⟩⟩

/-- The last eight bytes of the own slice. -/
theorem inSlice_last : InSlice sM (0x00F0000000000000 + 3 * 2 ^ 20 - 8) 8 (3 * 2 ^ 20 - 8) :=
  ⟨0, 0, by decide +kernel⟩

/-- The own slice's last doubleword, overwritten once by the a strand; the c strand reads it. -/
def sOld (known : List Party) : State :=
  { sM with olds := [⟨1, 2 ^ 50 + 3 * 2 ^ 20 - 8, List.replicate 8 0, known, [], false⟩], actor := some ⟨.strand 1 .c, 8, none⟩ }

theorem wit_SliceAccess :
    (∃ s va n off, InSlice s va n off) ∧ (∃ s va, ∃ bs : List Byte, ∃ off, InSlice s va bs.length off) ∧
    (∃ s : State, s.actor = none) ∧
    (∃ (s : State) (a n : Nat) (x : Actor), s.actor = some x ∧ x.under = none ∧ (∃ o ∈ s.olds, o.meets a n = true) ∧
      ∀ o ∈ s.olds, o.meets a n = true → o.knownTo x.party = true) ∧
    (∃ (s : State) (a i : Nat) (x : Actor), s.actor = some x ∧ x.under = none ∧ i < 8 ∧
      ∀ o ∈ s.olds, o.addr ≤ a + i → a + i < o.addr + o.bytes.length → o.knownTo x.party = true) ∧
    ∃ (s : State) (a n : Nat) (x : Actor), s.actor = some x ∧ x.under = none ∧
      ∃ o ∈ s.olds, o.meets a n = true ∧ o.knownTo x.party = false :=
  ⟨⟨_, _, _, _, inSlice_last⟩, ⟨_, _, [1, 2, 3, 4, 5, 6, 7, 8], _, inSlice_last⟩, ⟨sM, by decide +kernel⟩,
   ⟨sOld [.strand 1 .a, .strand 1 .c], 2 ^ 50 + 3 * 2 ^ 20 - 8, 4, ⟨.strand 1 .c, 8, none⟩, by decide +kernel⟩,
   ⟨sOld [.strand 1 .a, .strand 1 .c], 2 ^ 50 + 3 * 2 ^ 20 - 8, 7, ⟨.strand 1 .c, 8, none⟩, by decide +kernel⟩,
   ⟨sOld [.strand 1 .a], 2 ^ 50 + 3 * 2 ^ 20 - 8, 4, ⟨.strand 1 .c, 8, none⟩, by decide +kernel⟩⟩

theorem wit_TranslateEntry :
    (∃ (s : State) (k : Acc) (va i : Nat) (e : MapEntry), va < 0x00F0000000000000 ∧ s.cx.find va = some (i, e) ∧
      e.state.toNat % 4 ≠ 0 ∧ permits e.perm.toNat k = true ∧ e.kind ≠ 2 ∧ e.kind ≠ 5 ∧
      s.cx.marked i (va - e.base.toNat) = false) ∧
    (∃ (s : State) (va i : Nat) (e : MapEntry), va < 0x00F0000000000000 ∧ s.cx.find va = some (i, e) ∧
      e.state.toNat % 4 = 0) ∧
    (∃ (s : State) (k : Acc) (va i : Nat) (e : MapEntry), va < 0x00F0000000000000 ∧ s.cx.find va = some (i, e) ∧
      e.state.toNat % 4 ≠ 0 ∧ permits e.perm.toNat k = false) ∧
    (∃ (s : State) (vd vc off : Nat), vd < 10 ∧ vc < 64 ∧ off < 2 ^ 22 ∧ physDie s.partWord vd = none) ∧
    (∃ (s : State) (vd vc off d : Nat), vd < 10 ∧ vc < 64 ∧ off < 2 ^ 22 ∧ physDie s.partWord vd = some d ∧
      physCore s.partWord d vc = none) ∧
    (∃ (s : State) (vd vc off d : Nat), vd < 10 ∧ vc < 64 ∧ off < 2 ^ 22 ∧ physDie s.partWord vd = some d ∧
      physCore s.partWord d vc ≠ none ∧ sliceSize d ≤ off) ∧
    (∃ (s : State) (vd off : Nat), vd < 10 ∧ off < 2 ^ 23 ∧ physDie s.partWord vd = none) ∧
    (∃ (s : State) (vd off d : Nat), vd < 10 ∧ off < 2 ^ 23 ∧ physDie s.partWord vd = some d ∧
      (quadsOf s.partWord d).length ≤ off / 2 ^ 21) ∧
    (∃ (s : State) (vd off : Nat), vd < 10 ∧ 2 ^ 23 ≤ off ∧ off < 2 ^ 24 ∧ physDie s.partWord vd = none) ∧
    (∃ (s : State) (vd off : Nat), vd < 10 ∧ 2 ^ 23 ≤ off ∧ off < 2 ^ 24 ∧ physDie s.partWord vd ≠ none ∧
      2 ^ 23 + min ((s.cx.seovf[Fin.ofNat 8 vd]).toNat % 16) 8 * 2 ^ 20 ≤ off) ∧
    (∃ (s : State) (vd off d : Nat), vd < 10 ∧ 2 ^ 23 ≤ off ∧ off < 2 ^ 24 ∧ physDie s.partWord vd = some d ∧
      off < 2 ^ 23 + min ((s.cx.seovf[Fin.ofNat 8 vd]).toNat % 16) 8 * 2 ^ 20) ∧
    (∃ (s : State) (vd d q off : Nat), vd < 10 ∧ off < 2 ^ 23 ∧ physDie s.partWord vd = some d ∧
      (quadsOf s.partWord d)[off / 2 ^ 21]? = some q ∧ s.quadShut d q = false) :=
  ⟨⟨sM, .write, 0x1FFFF, 0, fetchEntry 0, by decide +kernel⟩,
   ⟨sM, 0x30000, 1, sM.ctxs[0].store[1], by decide +kernel⟩,
   ⟨sM, .write, 0x4FFFF, 2, sM.ctxs[0].store[2], by decide +kernel⟩, ⟨sM, 2, 0, 0, by decide +kernel⟩,
   ⟨sM, 0, 63, 0, 0, by decide +kernel⟩, ⟨sM, 0, 0, 3 * 2 ^ 20, 0, by decide +kernel⟩, ⟨sM, 9, 0, by decide +kernel⟩,
   ⟨sM, 0, 2 ^ 21, 0, by decide +kernel⟩, ⟨sM, 8, 2 ^ 23, by decide +kernel⟩, ⟨sM, 0, 2 ^ 23, by decide +kernel⟩,
   ⟨sM, 4, 2 ^ 23 + 2 ^ 20 - 1, 4, by decide +kernel⟩, ⟨sM, 4, 4, 0, 2 ^ 21 - 1, by decide +kernel⟩⟩

/-- The state and value of a load's response. -/
theorem arrive_eq (t : State) (x : Inflight) : t.arrive x = ((t.arrive x).1, (t.arrive x).2) := rfl

/-- `sM` with the read of its first load still to take effect. -/
def sRead : State := { sM with lates := [⟨8, .strand 1 .c, 8, [(0x1FFF8, 0x1FFF8, [0])]⟩] }

theorem wit_AccessResponse :
    (∃ (s : State) (u i : Nat) (x y : Inflight) (n : Fin 64) (t1 : State), (s.blockAt u).isSome = true ∧
      ((s.focus u).blk.inflight.filter fun x => x.eng == .c)[i]? = some x ∧ x.dst = .reg n ∧ (s.focus u).arrive x = (y, t1)) ∧
    (∃ (s : State) (u i : Nat) (x y : Inflight) (n : Fin 16) (t1 : State), (s.blockAt u).isSome = true ∧
      ((s.focus u).blk.inflight.filter fun x => x.eng == .c)[i]? = some x ∧ x.dst = .port (.q n) ∧
      (s.focus u).arrive x = (y, t1)) ∧
    (∃ (t : State) (x : Inflight), t.lates ≠ [] ∧ ∀ l ∈ t.lates, some l.id ≠ x.late) ∧
    (∃ (t : State) (x : Inflight) (l : LateRead) (va p : Nat) (ix : List Nat), x.eng = .c ∧
      (t.lates.find? fun l => some l.id == x.late) = some l ∧ l.parts = [(va, p, ix)]) ∧
    (∃ (s : State) (u i : Nat) (w : AtomicWait) (n : Fin 64) (t1 : State), (s.blockAt u).isSome = true ∧
      ((s.focus u).blk.inflight.filter fun x => x.eng == .c)[i]? = none ∧ ((s.focus u).str .c).stop = none ∧
      ((s.focus u).str .c).wait = .atomic w ∧ w.dst = .reg n ∧
      Puts .c (.reg n) (s.focus u) (BitVec.ofNat 64 ((w.old[0]).toNat + (w.old[1]).toNat * 2 ^ 32)) t1) ∧
    (∃ (s : State) (u i : Nat) (x y : Inflight) (n : Fin 64) (t1 : State), (s.blockAt u).isSome = true ∧
      ((s.focus u).blk.inflight.filter fun x => x.eng == .v)[i]? = some x ∧ x.dst = .reg n ∧ (s.focus u).arrive x = (y, t1)) ∧
    (∃ (s : State) (u i : Nat) (x y : Inflight) (n : Fin 4) (t1 : State), (s.blockAt u).isSome = true ∧
      ((s.focus u).blk.inflight.filter fun x => x.eng == .v)[i]? = some x ∧ x.dst = .port (.vq n) ∧
      (s.focus u).arrive x = (y, t1)) ∧
    (∃ (s : State) (u i : Nat) (w : AtomicWait) (n : Fin 64), (s.blockAt u).isSome = true ∧
      ((s.focus u).blk.inflight.filter fun x => x.eng == .v)[i]? = none ∧ ((s.focus u).str .v).stop = none ∧
      ((s.focus u).str .v).wait = .atomic w ∧ w.dst = .reg n ∧ (s.focus u).blk.holders[bankOf n] = .v ∧
      (s.focus u).blk.pending .v (.reg n) = false) ∧
    (∃ (s : State) (u i : Nat) (w : AtomicWait) (n : Fin 4), (s.blockAt u).isSome = true ∧
      ((s.focus u).blk.inflight.filter fun x => x.eng == .v)[i]? = none ∧ ((s.focus u).str .v).stop = none ∧
      ((s.focus u).str .v).wait = .atomic w ∧ w.dst = .port (.vq n) ∧ FirstPush .v w.dst (s.focus u) ∧
      ((s.focus u).blk.vq[n]).length + (s.focus u).blk.inflightTo w.dst < 4) :=
  ⟨⟨sRead, 1, 0, ⟨.c, .reg 9, 77, vzero, some 8⟩, _, 9, _, by decide +kernel, by decide +kernel, rfl, arrive_eq _ _⟩,
   ⟨sM, 1, 1, ⟨.c, .port (.q 2), 78, vzero, none⟩, _, 2, _, by decide +kernel, by decide +kernel, rfl, arrive_eq _ _⟩,
   ⟨sRead, ⟨.c, .reg 9, 77, vzero, none⟩, by decide +kernel⟩,
   ⟨sRead, ⟨.c, .reg 9, 77, vzero, some 8⟩, ⟨8, .strand 1 .c, 8, [(0x1FFF8, 0x1FFF8, [0])]⟩, 0x1FFF8, 0x1FFF8, [0], rfl,
    by decide +kernel, rfl⟩,
   ⟨sM.modStr .c fun st => { st with wait := .atomic ⟨.reg 63, vzero, 0, 0x10000⟩ }, 1, 2, ⟨.reg 63, vzero, 0, 0x10000⟩, 63, _,
    by decide +kernel, by decide +kernel, by decide +kernel, by decide +kernel, rfl, ⟨by decide +kernel, rfl⟩⟩,
   ⟨sM, 1, 0, ⟨.v, .reg 63, 0, vzero, none⟩, _, 63, _, by decide +kernel, by decide +kernel, rfl, arrive_eq _ _⟩,
   ⟨sM, 1, 1, ⟨.v, .port (.vq 3), 0, vzero, none⟩, _, 3, _, by decide +kernel, by decide +kernel, rfl, arrive_eq _ _⟩,
   ⟨sT.modStr .v fun st => { st with wait := .atomic ⟨.reg 63, vzero, 0, 0x10000⟩ }, 1, 0, ⟨.reg 63, vzero, 0, 0x10000⟩, 63,
    by decide +kernel⟩,
   ⟨sT.modStr .v fun st => { st with wait := .atomic ⟨.port (.vq 3), vzero, 0, 0x10000⟩ }, 1, 0, ⟨.port (.vq 3), vzero, 0, 0x10000⟩, 3,
    by decide +kernel, by decide +kernel, by decide +kernel, by decide +kernel, rfl, first_push (by decide +kernel),
    by decide +kernel⟩⟩

theorem wit_AtomicResult :
    (∃ (s : State) (x : AmoArgs), (s.str .c).holds x.pred = true ∧ s.blk.scout.round = .closed ∧
      s.blk.pending .c (.reg x.a) = false ∧ s.blk.pending .c (.reg x.b) = false ∧ s.blk.pending .c (.reg x.d) = false ∧
      effective s x.a x.off.toInt % 4 = 0 ∧ x.w64 = false ∧ ∃ old pa s1,
        byStrand .c 4 (rmw true (effective s x.a x.off.toInt) 4 (x.op == .add && x.w64) (x.op == .add && !x.w64)
          (fun old => amoNew x.op 32 old ((s.blk.sreg x.b).toNat % 2 ^ 32) ((s.blk.sreg x.d).toNat % 2 ^ 32))
          ((s.blk.sreg x.b).toNat % 2 ^ 32)) s = .ok ((old, pa), s1)) ∧
    (∃ (s : State) (x : AmoArgs), (s.str .c).holds x.pred = true ∧ s.blk.scout.round = .closed ∧
      s.blk.pending .c (.reg x.a) = false ∧ s.blk.pending .c (.reg x.b) = false ∧ s.blk.pending .c (.reg x.d) = false ∧
      effective s x.a x.off.toInt % 8 = 0 ∧ x.w64 = true ∧ ∃ off, InSlice s (effective s x.a x.off.toInt) 8 off ∧
        (∃ o ∈ s.olds, o.meets (slicePa s off) 8 = true) ∧
        ∀ o ∈ s.olds, o.meets (slicePa s off) 8 = true → o.knownTo (.strand s.blk.uid .c) = true) :=
  ⟨⟨sM, ⟨pT, 3, 5, 2, .cas, false, Ord.none, 0⟩, by decide +kernel, by decide +kernel, by decide +kernel, by decide +kernel,
    by decide +kernel, by decide +kernel, rfl, _, _, _, ok_of_answers (0, 0) sM (by decide +kernel)⟩,
   ⟨sOld [.strand 1 .c], ⟨pT, 63, 4, 2, .incw, true, ⟨true, true, .die⟩, 0⟩, by decide +kernel, by decide +kernel, by decide +kernel,
    by decide +kernel, by decide +kernel, by decide +kernel, rfl, 3 * 2 ^ 20 - 8, ⟨0, 0, by decide +kernel⟩, by decide +kernel⟩⟩

/-- The current map of `sM` has no pool, and nothing is keyed. -/
theorem plain_sM : PlainMap sM := ⟨by decide +kernel, by decide +kernel⟩

theorem wit_AtomicFrame :
    (∃ s x t, exec (.cAmo x) s = .next t ∧ PlainMap s ∧ (s.str .c).holds x.pred = false) ∧
    (∃ s x t pa s1, exec (.cAmo x) s = .next t ∧ PlainMap s ∧
      translate .atomic true (x.op == .add && x.w64) (effective s x.a x.off.toInt) s = .ok (pa, s1)) ∧
    (∃ s x t, exec (.cAmo x) s = .next t ∧ PlainMap s ∧
      ∀ pa s1, translate .atomic true (x.op == .add && x.w64) (effective s x.a x.off.toInt) s ≠ .ok (pa, s1)) := by
  obtain ⟨t1, h1⟩ := next_of (.cAmo ⟨pF, 3, 5, 2, .cas, false, Ord.none, 0⟩) sM (by decide +kernel)
  obtain ⟨t2, h2⟩ := next_of (.cAmo ⟨pT, 3, 5, 2, .cas, false, Ord.none, 0⟩) sM (by decide +kernel)
  obtain ⟨t3, h3⟩ := next_of (.cAmo ⟨pT, 3, 8, 2, .cas, false, Ord.none, 0⟩) sM (by decide +kernel)
  have hs : ∀ pa s2, translate .atomic true false (effective sM 8 0) sM ≠ .ok (pa, s2) := by
    have : answers (translate .atomic true false (effective sM 8 0) sM) = false := by decide +kernel
    intro pa s2 h; rw [h] at this; cases this
  exact ⟨⟨sM, _, t1, h1, plain_sM, by decide +kernel⟩,
    ⟨sM, _, t2, _, _, h2, plain_sM, ok_of_answers 0 sM (by decide +kernel)⟩, ⟨sM, _, t3, h3, plain_sM, hs⟩⟩

/-! ## Tables, pages, phases, launches and rounds -/

/-- A pool region at 0x50000 whose free ring counts two pages. -/
def poolEntry : MapEntry :=
  { base := 0x50000, limit := 0x60000, kind := 2, perm := 7, kspec := [], state := 5, frames := [0x50000] }

/-- With that pool; s1 names it, s2 an array, s3 two pages and s9 an aligned address. -/
def sK : State :=
  let s := withBlk 0 fun b =>
    { b with s := (((b.s.set 1 0x50000).set 2 0x1FFF8).set 3 2).set 9 0x1FFE0 }
  { s with
    mem := Mem.write [] 0x50000 (leBytes 4 2),
    ctxs := s.ctxs.set 0 { s.ctxs[0] with mapn := 2, regions := 2, store := [fetchEntry 0, poolEntry] } }

theorem wit_TablesAndPages :
    (∃ (s : State) (x : CtwrArgs) (a : Dword) (s1 : State) (bs : List Byte) (s2 : State), (s.str .c).holds x.pred = true ∧
      Takes .c x.a s a s1 ∧ a.toNat % 32 = 0 ∧ loadAs .c false a.toNat 32 (acquired .c [x.a] s1) = .ok (bs, s2)) ∧
    (∃ (s : State) (x : CtArgs), (s.str .c).holds x.pred = true ∧ s.blk.retained x.ct = false) ∧
    (∃ (s : State) (x : RArgs) (a arr d : Dword) (s1 s2 s3 s4 : State) (i : Nat) (e : MapEntry) (s5 : State) (pages : List Nat)
        (s6 : State) (pa : Nat) (s7 s8 : State), (s.str .c).holds x.pred = true ∧ s.blk.scout.round = .closed ∧
      Takes .c x.a s a s1 ∧ Takes .c x.b s1 arr s2 ∧ Takes .c x.d s2 d s3 ∧ 0 < d.toNat % 2 ^ 32 ∧ d.toNat % 2 ^ 32 ≤ 1024 ∧
      s3.entryOf a.toNat = some (i, e) ∧ e.kind = 2 ∧ e.state.toNat % 4 ≠ 0 ∧ permits e.perm.toNat .read = true ∧
      arr.toNat % 4 = 0 ∧ transWrite (piecesOf arr.toNat (4 * (d.toNat % 2 ^ 32))) s3 = .ok ((), s4) ∧
      (∀ p ∈ s4.takeAddrs e (d.toNat % 2 ^ 32), s4.cx.marked i ((p - e.frame0) / 65536) = false) ∧
      (s4.takeAddrs e (d.toNat % 2 ^ 32)).forM (fun p => metaRead a.toNat p 4) s4 = .ok ((), s5) ∧
      State.takePages e (min (d.toNat % 2 ^ 32) (s4.metaWord e.frame0))
        (pagesSeen e (min (d.toNat % 2 ^ 32) (s4.metaWord e.frame0)) (acquired .c [x.a, x.b] s5)) = (pages, s6) ∧
      byStrand .c 4 (writeVirt false arr.toNat (pages.flatMap fun p => leBytes 4 p)) (s6.remarkMeta s.blk.ctx i e) =
        .ok (pa, s7) ∧
      Puts .c x.d s7 (BitVec.ofNat 64 (min (d.toNat % 2 ^ 32) (s4.metaWord e.frame0))) s8) :=
  ⟨⟨sK, ⟨pT, 7, .reg 9⟩, _, _, _, _, by decide +kernel, ⟨by decide +kernel, rfl, rfl⟩, by decide +kernel,
    ok_of_answers [] sK (by decide +kernel)⟩,
   ⟨sK, ⟨pT, 0⟩, by decide +kernel⟩,
   ⟨sK, ⟨pT, .reg 3, .reg 1, .reg 2⟩, _, _, _, _, _, _, _, 1, poolEntry, _, _, _, _, _, _, by decide +kernel, by decide +kernel,
    ⟨by decide +kernel, rfl, rfl⟩, ⟨by decide +kernel, rfl, rfl⟩, ⟨by decide +kernel, rfl, rfl⟩, by decide +kernel,
    by decide +kernel, by decide +kernel, rfl, by decide +kernel, by decide +kernel, by decide +kernel,
    ok_unit sK (by decide +kernel), by decide +kernel, ok_unit sK (by decide +kernel), rfl,
    ok_of_answers 0 sK (by decide +kernel), ⟨by decide +kernel, rfl⟩⟩⟩

/-- A change to phase `b`, at which block 1 has arrived. -/
def chg (b : Nat) : Change := { target := b, late := false, pending := true, arrived := [1], moved := [] }

/-- A context of two phases, whose region moves to another frame in phase 1, with a change. -/
def sP (h : Option Change) (w : Wait) : State :=
  let s := (base 0).modStr .c fun st => { st with wait := w }
  { s with
    time := 10 ^ 8,
    blk := { s.blk with s := s.blk.s.set 1 2 },
    ctxs := s.ctxs.set 0 { s.ctxs[0] with
      phases := 2, change := h, store := [fetchEntry 0, fetchEntry 4] } }

/-- That context in phase 0 with a mark on its granule. -/
def sQ : State := (sP none .run).modCtx 0 fun c => { c with marks := [⟨0, 0, some 0x30000⟩] }

/-- A Porter of that context on die `d` moves the granule. -/
theorem porter_moves {d : Fin 8} {cx pt t u p : Nat} {m : Move} {s : State} (hm : m.src = some p) (hp : PlainMem s)
    (hr : granuleOn t p = true) (hw : granuleOn u m.dst = true)
    (ft : ((List.range 4).any fun k => (s.tracts[Fin.ofNat 32 (4 * t + k)]).fenced) = false)
    (fu : ((List.range 4).any fun k => (s.tracts[Fin.ofNat 32 (4 * u + k)]).fenced) = false)
    (lt : dieReach s.links d.val t = true) (lu : dieReach s.links d.val u = true) :
    ∃ v, asAgent d cx pt (moveGranule m) s = .ok ((), v) := by
  obtain ⟨v, h⟩ := moveGranule_dram (s := { s with blk := { Block.reset d with ctx := cx, part := pt } })
    hm hp hr hw ft fu lt lu
  exact ⟨{ v with blk := s.blk }, by unfold asAgent; rw [h]⟩

theorem sQ_wit : ∃ (s : State) (cx n : Nat) (k : FwdMark) (e : MapEntry) (m : Move) (t : State),
    (s.ctxAt cx).porterDown = false ∧ (s.ctxAt cx).marks[n]? = some k ∧
    ((s.ctxAt cx).entries (s.ctxAt cx).phase.val)[k.region]? = some e ∧
    m = ⟨k.region, k.granule, k.src, e.granuleAt k.granule, false⟩ ∧
    asAgent (s.porterOf cx m) cx (s.ctxPart cx) (moveGranule m) s = .ok ((), t) := by
  obtain ⟨v, h⟩ := porter_moves (d := sQ.porterOf 0 ⟨0, 0, some 0x30000, 0x10000, false⟩) (cx := 0) (t := 0) (u := 0)
    (m := ⟨0, 0, some 0x30000, 0x10000, false⟩) (s := sQ) rfl ⟨by decide +kernel, by decide +kernel, by decide +kernel⟩
    (by decide +kernel) (by decide +kernel)
    (by decide +kernel) (by decide +kernel) (by decide +kernel) (by decide +kernel)
  exact ⟨sQ, 0, 0, ⟨0, 0, some 0x30000⟩, fetchEntry 0, ⟨0, 0, some 0x30000, 0x10000, false⟩, v, by decide +kernel, by decide +kernel,
    by decide +kernel, by decide +kernel, h⟩

/-- No change at all stands there. -/
theorem none_moving : NoneMoving (sP none .run).cx := by
  intro h hh
  have : (sP none .run).cx.change = none := by decide +kernel
  rw [this] at hh
  cases hh

theorem wit_PhaseChanges :
    (∃ i s p late, phaseAdv i = some (p, late) ∧ (State.str s .c).holds p = true ∧ s.blk.scout.round = .closed ∧
      NoneMoving s.cx) ∧
    (∃ i s p late h, phaseAdv i = some (p, late) ∧ (State.str s .c).holds p = true ∧ s.blk.scout.round = .closed ∧
      s.cx.change = some h ∧ h.pending = true ∧ h.target = (s.cx.phase.val + 1) % max s.cx.phases 1) ∧
    (∃ i s p late h, phaseAdv i = some (p, late) ∧ (State.str s .c).holds p = true ∧ s.blk.scout.round = .closed ∧
      s.cx.change = some h ∧ h.pending = true ∧ h.target ≠ (s.cx.phase.val + 1) % max s.cx.phases 1) ∧
    (∃ (s : State) (x : SrcArgs) (a : Dword) (q : Option (Fin 16)), (s.str .c).holds x.pred = true ∧
      s.blk.scout.round = .closed ∧ Peeks .c x.a s a q ∧ a.toNat % 2 ^ 32 < s.cx.phases ∧ NoneMoving s.cx ∧
      s.cx.marks = []) ∧
    (∃ (s : State) (x : SrcArgs) (a : Dword) (q : Option (Fin 16)) (h : Change), (s.str .c).holds x.pred = true ∧
      s.blk.scout.round = .closed ∧ Peeks .c x.a s a q ∧ a.toNat % 2 ^ 32 < s.cx.phases ∧ s.cx.change = some h ∧
      h.pending = true ∧ h.target = a.toNat % 2 ^ 32) ∧
    (∃ (s : State) (x : SrcArgs) (a : Dword) (q : Option (Fin 16)) (h : Change), (s.str .c).holds x.pred = true ∧
      s.blk.scout.round = .closed ∧ Peeks .c x.a s a q ∧ a.toNat % 2 ^ 32 < s.cx.phases ∧ s.cx.change = some h ∧
      h.pending = true ∧ h.target ≠ a.toNat % 2 ^ 32) ∧
    (∃ (s : State) (x : SrcArgs) (a : Dword) (q : Option (Fin 16)), (s.str .c).holds x.pred = true ∧
      s.blk.scout.round = .closed ∧ Peeks .c x.a s a q ∧ s.cx.phases ≤ a.toNat % 2 ^ 32) := by
  refine ⟨⟨.cPhadv ⟨pT⟩, sP none .run, _, _, rfl, by decide +kernel, by decide +kernel, none_moving⟩,
    ⟨.cPhadvLate ⟨pT⟩, sP (some (chg 1)) .run, _, _, chg 1, rfl, by decide +kernel⟩,
    ⟨.cPhadv ⟨pT⟩, sP (some (chg 0)) .run, _, _, chg 0, rfl, by decide +kernel⟩,
    ⟨sP none .run, ⟨pT, .reg 0⟩, _, _, by decide +kernel, by decide +kernel, ⟨by decide +kernel, rfl, rfl⟩,
      by decide +kernel, none_moving, by decide +kernel⟩,
    ⟨sP (some (chg 0)) .run, ⟨pT, .reg 0⟩, _, _, chg 0, by decide +kernel, by decide +kernel, ⟨by decide +kernel, rfl, rfl⟩,
      by decide +kernel, by decide +kernel, rfl, by decide +kernel⟩,
    ⟨sP (some (chg 1)) .run, ⟨pT, .reg 0⟩, _, _, chg 1, by decide +kernel, by decide +kernel, ⟨by decide +kernel, rfl, rfl⟩,
      by decide +kernel, by decide +kernel, rfl, by decide +kernel⟩,
    ⟨sP none .run, ⟨pT, .reg 1⟩, _, _, by decide +kernel, by decide +kernel, ⟨by decide +kernel, rfl, rfl⟩,
      by decide +kernel⟩⟩

theorem wit_PhaseEvents :
    (∃ (s : State) (cx n : Nat) (h : Change) (m : Move) (x : _) (t : State), (s.ctxAt cx).change = some h ∧
      ((s.ctxAt cx).todo h)[n]? = some m ∧ (s.ctxAt cx).st = 0 ∧
      (s.ctxAt cx).marks = [] ∧ asAgent (s.porterOf cx m) cx (s.ctxPart cx) (moveGranule m) s = .ok (x, t)) ∧
    (∃ (s : State) (cx : Nat) (h : Change) (q : Option (Fin 16)), (s.ctxAt cx).change = some h ∧ s.maySwitch cx h = true ∧ h.late = false ∧
      (∀ m ∈ (s.ctxAt cx).moves h.target, m.late = false) ∧ s.blk.placed = true ∧ s.blk.ctx = cx ∧
      (s.str .c).wait = .phase q) ∧
    (∃ (s : State) (cx n : Nat) (k : FwdMark) (e : MapEntry) (m : Move) (t : State), (s.ctxAt cx).porterDown = false ∧
      (s.ctxAt cx).marks[n]? = some k ∧ ((s.ctxAt cx).entries (s.ctxAt cx).phase.val)[k.region]? = some e ∧
      m = ⟨k.region, k.granule, k.src, e.granuleAt k.granule, false⟩ ∧
      asAgent (s.porterOf cx m) cx (s.ctxPart cx) (moveGranule m) s = .ok ((), t)) ∧
    (∃ (s : State) (cx : Nat) (addr : Dword), (s.ctxAt cx).porterWork ≠ [] ∧
      ∀ m ∈ (s.ctxAt cx).porterWork, s.granuleVa cx m ≠ addr) ∧
    (∃ (s : State) (cx : Nat) (cause : Byte) (addr : Dword), (∃ m ∈ (s.ctxAt cx).porterWork, s.granuleVa cx m = addr) ∧
      (cause = 0x41 ∨ cause = 0x42) ∧ (s.ctxAt cx).st = 0) := by
  obtain ⟨v, hv⟩ := porter_moves (d := (sP (some (chg 1)) .run).porterOf 0 ⟨0, 0, some 0x10000, 4 * 2 ^ 40 + 0x10000, false⟩)
    (cx := 0) (t := 0) (u := 4) (m := ⟨0, 0, some 0x10000, 4 * 2 ^ 40 + 0x10000, false⟩) (s := sP (some (chg 1)) .run)
    rfl ⟨by decide +kernel, by decide +kernel, by decide +kernel⟩ (by decide +kernel) (by decide +kernel) (by decide +kernel)
    (by decide +kernel) (by decide +kernel) (by decide +kernel)
  exact ⟨⟨sP (some (chg 1)) .run, 0, 0, chg 1, ⟨0, 0, some 0x10000, 4 * 2 ^ 40 + 0x10000, false⟩, (), v, by decide +kernel,
      by decide +kernel, by decide +kernel, by decide +kernel, hv⟩,
    ⟨sP (some (chg 0)) (.phase none), 0, chg 0, none, by decide +kernel⟩, sQ_wit,
    ⟨sP (some (chg 1)) .run, 0, 0x20000, by decide +kernel⟩, ⟨sP (some (chg 1)) .run, 0, 0x42, 0x10000, by decide +kernel⟩⟩

/-- A command that has stalled on a granule's mark since time 0. -/
def late (op : CmdOp) : Cmd := { Cmd.new op 0x10004 with regs := [0x10000, 1, 3], waits := .mark 0 0x10000, prog := 2 }

/-- Phase 0 with such a command, and a mark on the granule or none. -/
def sLate (op : CmdOp) (marks : List FwdMark) : State :=
  let s := sP none .run
  let s := { s with blk := s.blk.modEng .a fun q => { q with prog := [late op] } }
  s.modCtx 0 fun c => { c with marks := marks }

theorem wit_LateData :
    (∃ (s : State) (u : Nat) (e : Eng) (since va : Nat), (s.blockAt u).isSome = true ∧
      ((s.focus u).str e).wait = .mark since va ∧ (s.focus u).cx.late (s.focus u).time since = true ∧ (s.focus u).vaMarked va = true ∧
      (s.focus u).live e = true) ∧
    (∃ (s : State) (u : Nat) (e : Eng) (c : Cmd) (since va : Nat), (s.blockAt u).isSome = true ∧
      ((s.focus u).str e).wait = .run ∧ (s.focus u).blk.started = true ∧ (s.focus u).engLive e = true ∧
      ((s.focus u).blk.eng e).prog = [c] ∧ c.stuck = false ∧ (∃ x, c.op = .ldt x) ∧ c.waits = .mark since va ∧
      (s.focus u).cx.late (s.focus u).time since = true ∧ (s.focus u).vaMarked va = true) ∧
    (∃ (s : State) (u : Nat) (e : Eng) (c : Cmd) (since va : Nat), (s.blockAt u).isSome = true ∧
      ((s.focus u).str e).wait = .run ∧ (s.focus u).blk.started = true ∧ (s.focus u).engLive e = true ∧
      ((s.focus u).blk.eng e).prog = [c] ∧ c.stuck = false ∧ (∃ x, c.op = .copyl x) ∧ c.waits = .mark since va ∧
      (s.focus u).cx.late (s.focus u).time since = true ∧ (s.focus u).vaMarked va = true) ∧
    (∃ (s : State) (u : Nat) (e : Eng) (c : Cmd) (since va : Nat), (s.blockAt u).isSome = true ∧
      ((s.focus u).str e).wait = .run ∧ (s.focus u).blk.started = true ∧ (s.focus u).engLive e = true ∧
      ((s.focus u).blk.eng e).prog = [c] ∧ c.stuck = false ∧ (∃ x, c.op = .copyl x) ∧ c.waits = .mark since va ∧
      (s.focus u).cx.late (s.focus u).time since = true ∧ (s.focus u).vaMarked va = false) :=
  ⟨⟨(sP none (.mark 0 0x10000)).modCtx 0 fun c => { c with marks := [⟨0, 0, none⟩] }, 1, .c, 0, 0x10000, by decide +kernel⟩,
   ⟨sLate (.ldt ⟨pT, 0, 0, 0, 0⟩) [⟨0, 0, none⟩], 1, .a, late (.ldt ⟨pT, 0, 0, 0, 0⟩), 0, 0x10000, by decide +kernel,
    by decide +kernel, by decide +kernel, by decide +kernel, by decide +kernel, by decide +kernel, ⟨_, rfl⟩, by decide +kernel⟩,
   ⟨sLate (.copyl ⟨pT, 0, 0, 0, 0⟩) [⟨0, 0, none⟩], 1, .a, late (.copyl ⟨pT, 0, 0, 0, 0⟩), 0, 0x10000, by decide +kernel,
    by decide +kernel, by decide +kernel, by decide +kernel, by decide +kernel, by decide +kernel, ⟨_, rfl⟩, by decide +kernel⟩,
   ⟨sLate (.copyl ⟨pT, 0, 0, 0, 0⟩) [], 1, .a, late (.copyl ⟨pT, 0, 0, 0, 0⟩), 0, 0x10000, by decide +kernel,
    by decide +kernel, by decide +kernel, by decide +kernel, by decide +kernel, by decide +kernel, ⟨_, rfl⟩, by decide +kernel⟩⟩

/-- Descriptors of transfers in memory: a sound one at 0x10040, zeros at 0x10080. -/
def sX : State :=
  let s := withBlk 0 fun b => { b with s := (b.s.set 1 0x10040).set 2 0x10080 }
  { s with mem := Mem.write [] 0x10040 (leBytes 8 0x10000 ++ leBytes 8 0x11000 ++ leBytes 4 64 ++ leBytes 2 1) }

/-- The descriptor read at register `r`, and the state after it. -/
def b2 (r : Fin 64) : List Byte := valOf (loadAs .c false (sX.blk.scalar .c r).toNat 64 sX) []
def x2 (r : Fin 64) : State := endOf (loadAs .c false (sX.blk.scalar .c r).toNat 64 sX) sX

theorem wit_DeviceLaunch :
    (∃ i s x n check a s1 bs s2 t s3 s4, launches i = some (x, n, check) ∧ (State.str s .c).holds x.pred = true ∧
      s.blk.scout.round = .closed ∧ Takes .c x.a s a s1 ∧ a.toNat % n = 0 ∧
      loadAs .c false a.toNat n (acquired .c [x.a] s1) = .ok (bs, s2) ∧
      s2.scoreRoom s2.blk.die.val = true ∧
      (check s2.blk.ctx s2.blk.uid bs s2.blk.die.val).run s2 = .ok (.ok t, s3) ∧
      Puts .c x.d (entered s3 t s2.blk.die.val) 0 s4) ∧
    (∃ i s x n check a s1 bs s2 code s3 s4, launches i = some (x, n, check) ∧ (State.str s .c).holds x.pred = true ∧
      s.blk.scout.round = .closed ∧ Takes .c x.a s a s1 ∧ a.toNat % n = 0 ∧
      loadAs .c false a.toNat n (acquired .c [x.a] s1) = .ok (bs, s2) ∧
      s2.scoreRoom s2.blk.die.val = true ∧
      (check s2.blk.ctx s2.blk.uid bs s2.blk.die.val).run s2 = .ok (.error code, s3) ∧
      Puts .c x.d s3 (BitVec.ofNat 64 code) s4) := by
  have good : ∀ {x : Except Stop (Except Nat Task × State)}, (match x with
      | .ok (.ok _, s) => s.blk.inflight.isEmpty
      | _ => false) = true → ∃ t s, x = .ok (.ok t, s) ∧ s.blk.inflight = [] := fun {x} h => by
    rcases x with y | ⟨y | y, s⟩
    · cases h
    · cases h
    · exact ⟨y, s, rfl, List.isEmpty_iff.mp h⟩
  have bad : ∀ {x : Except Stop (Except Nat Task × State)}, (match x with
      | .ok (.error _, s) => s.blk.inflight.isEmpty
      | _ => false) = true → ∃ c s, x = .ok (.error c, s) ∧ s.blk.inflight = [] := fun {x} h => by
    rcases x with y | ⟨y | y, s⟩
    · cases h
    · exact ⟨y, s, rfl, List.isEmpty_iff.mp h⟩
    · cases h
  obtain ⟨t, s3, h, e3⟩ := good (x := (checkXfer (x2 1).blk.ctx (.block (x2 1).blk.uid) (packetOf []) (b2 1) false
    (some [(x2 1).blk.die.val])).run (x2 1)) (by decide +kernel)
  obtain ⟨c, s4, h', e4⟩ := bad (x := (checkXfer (x2 2).blk.ctx (.block (x2 2).blk.uid) (packetOf []) (b2 2) false
    (some [(x2 2).blk.die.val])).run (x2 2)) (by decide +kernel)
  have l1 : loadAs .c false (sX.blk.scalar .c 1).toNat 64 sX = .ok (b2 1, x2 1) := ok_of_answers _ _ (by decide +kernel)
  have l2 : loadAs .c false (sX.blk.scalar .c 2).toNat 64 sX = .ok (b2 2, x2 2) := ok_of_answers _ _ (by decide +kernel)
  have r1 : (x2 1).scoreRoom (x2 1).blk.die.val = true := by decide +kernel
  have r2 : (x2 2).scoreRoom (x2 2).blk.die.val = true := by decide +kernel
  generalize x2 1 = y1 at *
  generalize x2 2 = y2 at *
  have p1 : Puts .c (.reg 63) (entered s3 t y1.blk.die.val) 0
      { entered s3 t y1.blk.die.val with blk := (entered s3 t y1.blk.die.val).blk.setScalar .c 63 0 } :=
    ⟨by simp [Block.pending, entered, State.learn, State.clockUp, State.settleAll, e3], rfl⟩
  have p2 : Puts .c (.reg 63) s4 (BitVec.ofNat 64 c) { s4 with blk := s4.blk.setScalar .c 63 (BitVec.ofNat 64 c) } :=
    ⟨by simp [Block.pending, e4], rfl⟩
  exact ⟨⟨.cKxfer ⟨pT, .reg 63, .reg 1⟩, sX, ⟨pT, .reg 63, .reg 1⟩, 64, _, sX.blk.scalar .c 1, sX, b2 1, y1, t, s3, _, rfl,
      by decide +kernel, by decide +kernel, ⟨by decide +kernel, rfl, rfl⟩, by decide +kernel, l1, r1, h, p1⟩,
    ⟨.cKxfer ⟨pT, .reg 63, .reg 2⟩, sX, ⟨pT, .reg 63, .reg 2⟩, 64, _, sX.blk.scalar .c 2, sX, b2 2, y2, c, s4, _, rfl,
      by decide +kernel, by decide +kernel, ⟨by decide +kernel, rfl, rfl⟩, by decide +kernel, l2, r2, h', p2⟩⟩

/-! ## The a strand, commands, engines -/

/-- s1, a1, a2 and queues 0 and 1 hold values; streams are unused. -/
def sA : State := withBlk 0 fun b =>
  { b with a := ((b.a.set 1 (BitVec.ofNat 64 (2 ^ 63 - 1))).set 2 63).set 3 (BitVec.ofNat 64 (2 ^ 48)),
           q := (b.q.set 0 [5, 6]).set 1 (List.replicate 15 1) }

theorem wit_AResult :
    (∃ i s x f a b s1 s2 s3, aPlain i = some (x, f) ∧ (State.str s .a).holds x.pred = true ∧ Takes .a x.a s a s1 ∧
      Takes .a x.b s1 b s2 ∧ Puts .a x.d s2 (f a b) s3) ∧
    (∃ i s x k f a s1 s2, aPlainK i = some (x, k, f) ∧ (State.str s .a).holds x.pred = true ∧ Takes .a x.a s a s1 ∧
      Puts .a x.d s1 (f a k) s2) ∧
    (∃ (s : State) (x : UArgs) (a : Dword) (s1 s2 : State), (s.str .a).holds x.pred = true ∧ Takes .a x.a s a s1 ∧
      Puts .a x.d s1 a s2) ∧
    (∃ (s : State) (x : LiArgs) (s1 : State), (s.str .a).holds x.pred = true ∧ Puts .a x.d s (x.imm.signExtend 64) s1) :=
  ⟨⟨.aShl ⟨pT, .reg 31, .reg 1, .reg 2⟩, sA, _, _, _, _, _, _, _, rfl, by decide +kernel, ⟨by decide +kernel, rfl, rfl⟩,
    ⟨by decide +kernel, rfl, rfl⟩, ⟨by decide +kernel, rfl⟩⟩,
   ⟨.aMulK ⟨pT, .reg 1, .port (.q 0), 0x20⟩, sA, _, _, _, _, _, _, rfl, by decide +kernel, ⟨_, rfl, rfl⟩,
    ⟨by decide +kernel, rfl⟩⟩,
   ⟨sA, ⟨pT, .port (.q 1), .port (.q 0)⟩, _, _, _, by decide +kernel, ⟨_, rfl, rfl⟩,
     ⟨first_push (by decide +kernel), by decide +kernel, rfl⟩⟩,
   ⟨sA, ⟨pT, .reg 0, 0x80000000⟩, _, by decide +kernel, ⟨by decide +kernel, rfl⟩⟩⟩

/-- With a v access of stream 2 to come before the a strand's pc. -/
def sUse : State :=
  (sA.modStr .v fun st => { st with line := some (line .v 0x10000 [0x40002000]) }).modStr .a fun st => { st with pc := 0x10008 }

/-- Format values that meet R146 and that break it. -/
theorem fmt_ok : FmtOk 0 ∧ FmtOk 0x48701000 := by unfold FmtOk FmtDefined FmtFits; decide +kernel
theorem fmt_unfit : FmtDefined (2 ^ 48) ∧ ¬FmtFits (2 ^ 48) ∧ FmtDefined 0x48700000 ∧ ¬FmtFits 0x48700000 := by
  unfold FmtDefined FmtFits; decide +kernel
theorem fmt_undefined : ¬FmtDefined 63 ∧ ¬FmtDefined 0x68701000 := by unfold FmtDefined; decide +kernel

theorem wit_StreamRegisters :
    (∃ (s : State) (x : SsetArgs) (v : Dword) (s1 : State), (s.str .a).holds x.pred = true ∧ Takes .a x.a s v s1 ∧
      BindOk v s.blk.die.val ∧ StreamFree s1 x.g) ∧
    (∃ (s : State) (x : SsetArgs) (v : Dword) (s1 : State), (s.str .a).holds x.pred = true ∧ Takes .a x.a s v s1 ∧
      BindOk v s.blk.die.val ∧ ¬StreamFree s1 x.g) ∧
    (∃ (s : State) (x : SsetArgs) (v : Dword) (s1 : State), (s.str .a).holds x.pred = true ∧ Takes .a x.a s v s1 ∧ FmtOk v ∧
      StreamFree s1 x.g) ∧
    (∃ (s : State) (x : SsetArgs) (v : Dword) (s1 : State), (s.str .a).holds x.pred = true ∧ Takes .a x.a s v s1 ∧ FmtOk v ∧
      ¬StreamFree s1 x.g) ∧
    (∃ (s : State) (x : SsetArgs) (v : Dword) (s1 : State), (s.str .a).holds x.pred = true ∧ Takes .a x.a s v s1 ∧
      FmtDefined v ∧ ¬FmtFits v) ∧
    (∃ (s : State) (x : SsetArgs) (v : Dword) (s1 : State), (s.str .a).holds x.pred = true ∧ Takes .a x.a s v s1 ∧
      ¬FmtDefined v) ∧
    (∃ (s : State) (x : SsetIArgs), (s.str .a).holds x.pred = true ∧ FmtOk (x.imm.setWidth 64) ∧ StreamFree s x.g) ∧
    (∃ (s : State) (x : SsetIArgs), (s.str .a).holds x.pred = true ∧ FmtOk (x.imm.setWidth 64) ∧ ¬StreamFree s x.g) ∧
    (∃ (s : State) (x : SsetIArgs), (s.str .a).holds x.pred = true ∧ FmtDefined (x.imm.setWidth 64) ∧
      ¬FmtFits (x.imm.setWidth 64)) ∧
    (∃ (s : State) (x : SsetIArgs), (s.str .a).holds x.pred = true ∧ ¬FmtDefined (x.imm.setWidth 64)) ∧
    (∃ (s : State) (x : SsetArgs) (v : Dword) (s1 : State), (s.str .a).holds x.pred = true ∧ Takes .a x.a s v s1 ∧
      (v.toNat % 64 ≠ 0 ∨ v.toNat / 2 ^ 22 % 2 ^ 26 ≠ 0)) ∧
    (∃ (s : State) (x : SsetArgs) (v : Dword) (s1 : State), (s.str .a).holds x.pred = true ∧ Takes .a x.a s v s1 ∧
      v.toNat % 64 = 0 ∧ v.toNat / 2 ^ 22 % 2 ^ 26 = 0 ∧
      (v.toNat / 2 ^ 48 = 0 ∨ sliceSize s.blk.die.val < 64 * (v.toNat / 2 ^ 6 % 2 ^ 16) + 320 * (v.toNat / 2 ^ 48))) := by
  have free : ∀ g : Fin 16, StreamFree sA g := by
    intro g
    have : ∀ g : Fin 16, sA.blk.named g = false ∧ sA.toCome .v (vNames g.val) (sA.str .a).pc.toNat = false ∧
        sA.toCome .d (dNames g.val) (sA.str .a).pc.toNat = false := by decide +kernel
    exact this g
  have used : ¬StreamFree sUse 2 := fun h => absurd h.2.1 (by decide +kernel)
  exact ⟨⟨sA, ⟨pT, 15, .reg 3⟩, _, _, by decide +kernel, ⟨by decide +kernel, rfl, rfl⟩,
      ⟨by decide +kernel, by decide +kernel, by decide +kernel, by decide +kernel⟩, free 15⟩,
    ⟨sUse, ⟨pT, 2, .reg 3⟩, _, _, by decide +kernel, ⟨by decide +kernel, rfl, rfl⟩,
      ⟨by decide +kernel, by decide +kernel, by decide +kernel, by decide +kernel⟩, used⟩,
    ⟨sA, ⟨pT, 0, .reg 0⟩, 0, _, by decide +kernel, ⟨by decide +kernel, rfl, rfl⟩, fmt_ok.1, free 0⟩,
    ⟨sUse, ⟨pT, 2, .reg 0⟩, 0, _, by decide +kernel, ⟨by decide +kernel, rfl, rfl⟩, fmt_ok.1, used⟩,
    ⟨sA, ⟨pT, 0, .reg 3⟩, 2 ^ 48, _, by decide +kernel, ⟨by decide +kernel, rfl, rfl⟩, fmt_unfit.1, fmt_unfit.2.1⟩,
    ⟨sA, ⟨pT, 0, .reg 2⟩, 63, _, by decide +kernel, ⟨by decide +kernel, rfl, rfl⟩, fmt_undefined.1⟩,
    ⟨sA, ⟨pT, 1, 0x48701000⟩, by decide +kernel, fmt_ok.2, free 1⟩,
    ⟨sUse, ⟨pT, 2, 0x48701000⟩, by decide +kernel, fmt_ok.2, used⟩,
    ⟨sA, ⟨pT, 1, 0x48700000⟩, by decide +kernel, fmt_unfit.2.2.1, fmt_unfit.2.2.2⟩,
    ⟨sA, ⟨pT, 1, 0x68701000⟩, by decide +kernel, fmt_undefined.2⟩,
    ⟨sA, ⟨pT, 1, .reg 2⟩, _, _, by decide +kernel, ⟨by decide +kernel, rfl, rfl⟩, by decide +kernel⟩,
    ⟨sA, ⟨pT, 1, .reg 0⟩, _, _, by decide +kernel, ⟨by decide +kernel, rfl, rfl⟩, by decide +kernel⟩⟩

/-- An `ngo` with a copy behind it; level 3 of the shadow set has one stepped register, level 5 two. -/
def sNest : State :=
  let s := sA.modStr .a fun st => { st with line := some (line .a 0x10000 [0x02000028, 0x00000080]) }
  { s with blk := { s.blk with nest := { s.blk.nest with
      shadow := [(3, ⟨4, 2, [(5, 1)]⟩), (5, ⟨4, 2, [(5, 1), (6, 1)]⟩)] } } }

theorem wit_NestInstructions :
    (∃ i s w p l x y step, nsets i = some (w, p, l, x, y, step) ∧ (State.str s .a).holds p = true ∧
      (s.blk.nest.shadow.find? fun z => z.1 == l) = none) ∧
    (∃ i s w p l x y step lv y0, nsets i = some (w, p, l, x, y, step) ∧ (State.str s .a).holds p = true ∧
      (s.blk.nest.shadow.find? fun z => z.1 == l) = some (l, lv) ∧ lv.creg = x ∧ lv.steps = [y0]) ∧
    (∃ i s w p l x y step lv, nsets i = some (w, p, l, x, y, step) ∧ (State.str s .a).holds p = true ∧
      (s.blk.nest.shadow.find? fun z => z.1 == l) = some (l, lv) ∧ (lv.creg ≠ x ∨ 2 ≤ lv.steps.length)) ∧
    (∃ (s : State) (x : NgoArgs) (r : List NestCmd × Dword × LineBuf × Nat) (s1 : State), s.inSlot .a = false ∧
      (s.str .a).holds x.pred = true ∧ captureBody (x.k1.val + 1) s = .ok (r, s1) ∧ s1.blk.nest.live = none) ∧
    (∃ (s : State) (x : NoArgs), (s.str .a).holds x.pred = true ∧ s.blk.nest.live = none) := by
  refine ⟨⟨.aNset ⟨pT, 0, 1, 2, 0x200⟩, sNest, _, _, _, _, _, _, rfl, by decide +kernel, by decide +kernel⟩,
    ⟨.aNsetWide ⟨pT, 3, 2, 6, 1⟩, sNest, _, _, _, _, _, _, ⟨4, 2, [(5, 1)]⟩, (5, 1), rfl, by decide +kernel,
      by decide +kernel, rfl, rfl⟩,
    ⟨.aNset ⟨pT, 5, 2, 6, 1⟩, sNest, _, _, _, _, _, _, ⟨4, 2, [(5, 1), (6, 1)]⟩, rfl, by decide +kernel, by decide +kernel,
      .inr (by decide)⟩, ?_, ⟨sNest, ⟨pT⟩, by decide +kernel, by decide +kernel⟩⟩
  have h : captureBody 1 sNest = .ok (_, endOf (captureBody 1 sNest) sA) := ok_of_answers ([], 0, line .a 0 [], 0) sA (by decide +kernel)
  exact ⟨sNest, ⟨pT, 0⟩, _, _, by decide +kernel, by decide +kernel, h, by decide +kernel⟩

/-- Attribute entries: 1 names flag 63 as setter, 2 has a reserved bit set; the a queue is full. -/
def sI : State := withBlk 4 fun b =>
  { b with attrs := (Vector.replicate 4 ((Vector.replicate 32 (0 : Word)).set 1 0x1FC00)).set 0
             (((Vector.replicate 32 (0 : Word)).set 1 0x1FC00).set 2 0x80000000),
           engs := b.engs.set 0 { b.engs[0] with queue := List.replicate 32 (Cmd.new (.scrub ⟨pT, 0, 0, 0, 0⟩) 0x10004) } }

theorem wit_CommandIssue :
    (∃ i s e n p attr op regs, commands i = some (e, n, p, attr, op, regs) ∧ (State.str s e).holds p = true ∧
      attrBad (s.blk.attr e attr) = false ∧ RoundAdmits s (attrOrd (s.blk.attr e attr)) ∧ IssueOk s op ∧
      (s.blk.engs[cmdIdx e]).queue.length < 32 ∧ (s.blk.attr e attr).toNat / 2 ^ 16 % 2 = 1 ∧
      (s.blk.flags[Fin.ofNat 64 ((s.blk.attr e attr).toNat / 2 ^ 10)]).p.toNat ≠ 2 ^ 32 - 1) ∧
    (∃ i s e n p attr op regs, commands i = some (e, n, p, attr, op, regs) ∧ attrBad (State.blk s |>.attr e attr) = true) ∧
    (∃ i s e n p attr op regs, commands i = some (e, n, p, attr, op, regs) ∧ (State.str s e).holds p = true ∧
      attrBad (s.blk.attr e attr) = false ∧ RoundAdmits s (attrOrd (s.blk.attr e attr)) ∧ IssueOk s op ∧
      32 ≤ (s.blk.engs[cmdIdx e]).queue.length) :=
  ⟨⟨.dDqk ⟨pT, 1, 0, 0, 0, false, 0, 0⟩, sI, _, _, _, _, _, _, rfl, by decide +kernel, by decide +kernel,
    Or.inl (by decide +kernel), by show sI.toCome .a (aSets 0) (sI.str .d).pc.toNat = false; decide +kernel,
    by decide +kernel, by decide +kernel, by decide +kernel⟩,
   ⟨.aScrub ⟨pF, 2, 0, 0, 0⟩, sI, _, _, _, _, _, _, rfl, by decide +kernel⟩,
   ⟨.aLdt ⟨pT, 0, 0, 0, 0⟩, sI, _, _, _, _, _, _, rfl, by decide +kernel, by decide +kernel,
    Or.inl (by decide +kernel), trivial, by decide +kernel⟩⟩

/-- A command that copies nothing. -/
def cmd0 : Cmd := Cmd.new (.copyMm ⟨pT, 0, 0, 0, 0⟩) 0x10004

/-- The a engine with a queue and commands in progress; guard slot 0 holds true. -/
def sProg (q p : List Cmd) : State := withBlk 0 fun b =>
  { b with gs := b.gs.set 0 (some true), flags := b.flags.set 5 ⟨1, [1]⟩,
           engs := b.engs.set 0 { b.engs[0] with queue := q, prog := p } }

/-- An `mma` that takes its count from queue 1, behind the same guard slot, and the m engine that has it. -/
def cMma : Cmd :=
  { Cmd.new (.mma ⟨pT, 0, 0, 0, 17⟩ ⟨0, 0, 0, false, false, 0, 0⟩) 0x10004 with guard := some (0, true), flag := some (5, 1) }
def sMma : State := withBlk 0 fun b =>
  { b with gs := b.gs.set 0 (some true), flags := b.flags.set 5 ⟨1, [1]⟩, q := b.q.set 1 [3],
           engs := b.engs.set 1 { b.engs[1] with queue := [cMma] } }

theorem wit_CommandProgress :
    (∃ (s t : State) (u : Nat) (e : Eng) (c : Cmd) (r : List Cmd) (c1 : Cmd) (w : State), (s.blockAt u).isSome = true ∧
      t = s.focus u ∧ t.engStarts e = true ∧ (t.blk.eng e).queue = c :: r ∧ (t.blk.eng e).prog.length < 16 ∧
      t.blk.scout.mark = none ∧ c.guard = none ∧ startOf e { c with guard := none } t = .ok (c1, w)) ∧
    (∃ (s t : State) (u : Nat) (e : Eng) (c : Cmd) (r : List Cmd) (c1 : Cmd) (w : State) (g : Fin 16) (n : Bool),
      (s.blockAt u).isSome = true ∧ t = s.focus u ∧ t.engStarts e = true ∧ (t.blk.eng e).queue = c :: r ∧
      (t.blk.eng e).prog.length < 16 ∧ t.blk.scout.mark = none ∧ c.guard = some (g, n) ∧ t.blk.gs[g] = some (!n) ∧
      startOf e { c with guard := none } t = .ok (c1, w)) ∧
    (∃ (s t : State) (u : Nat) (e : Eng) (c : Cmd) (r : List Cmd) (g : Fin 16) (v : Bool) (n : Fin 16),
      (s.blockAt u).isSome = true ∧ t = s.focus u ∧ t.engStarts e = true ∧ (t.blk.eng e).queue = c :: r ∧
      (t.blk.eng e).prog.length < 16 ∧ t.blk.scout.mark = none ∧ c.guard = some (g, v) ∧ t.blk.gs[g] = some v ∧
      c.popsCount = some n ∧ t.blk.q[n] ≠ [] ∧ c.flag ≠ none) ∧
    (∃ (s t : State) (u : Nat) (e : Eng) (c : Cmd) (r : List Cmd) (g : Fin 16) (v : Bool), (s.blockAt u).isSome = true ∧
      t = s.focus u ∧ t.engStarts e = true ∧ (t.blk.eng e).queue = c :: r ∧ (t.blk.eng e).prog.length < 16 ∧
      t.blk.scout.mark = none ∧ c.guard = some (g, v) ∧ t.blk.gs[g] = some v ∧ c.popsCount = none) ∧
    (∃ (s t : State) (u : Nat) (e : Eng) (c c1 : Cmd) (t1 : State), (s.blockAt u).isSome = true ∧ t = s.focus u ∧
      t.engLive e = true ∧ (t.blk.eng e).prog = [c] ∧ c.stuck = false ∧ c.delivered = false ∧ t.blk.scout.mark = none ∧
      unitOf e { c with waits := .run, tries := 0 } t = .ok ((c1, true), t1) ∧ c1.idx = c.idx ∧ t1.blk.nest.live = none ∧
      (t1.blk.eng e).prog = [c]) := by
  refine ⟨⟨sProg [cmd0, cmd0] (List.replicate 15 cmd0), _, 1, .a, cmd0, [cmd0], _, _, by decide +kernel, rfl, by decide +kernel,
      by decide +kernel, by decide +kernel, by decide +kernel, rfl, ok_of_answers cmd0 sA (by decide +kernel)⟩,
    ⟨sProg [{ cmd0 with guard := some (0, false) }] [], _, 1, .a, { cmd0 with guard := some (0, false) }, [], _, _, 0, false,
      by decide +kernel, rfl, by decide +kernel, by decide +kernel, by decide +kernel, by decide +kernel, rfl,
      by decide +kernel, ok_of_answers cmd0 sA (by decide +kernel)⟩,
    ⟨sMma, _, 1, .m, cMma, [], 0, true, 1, by decide +kernel, rfl, by decide +kernel⟩,
    ⟨sProg [{ cmd0 with guard := some (0, true), flag := some (5, 1) }] [], _, 1, .a,
      { cmd0 with guard := some (0, true), flag := some (5, 1) }, [], 0, true, by decide +kernel, rfl, by decide +kernel⟩, ?_⟩
  obtain ⟨⟨c, f⟩, t, hu, h⟩ := ok_with (x := unitOf .a cmd0 ((sProg [] [cmd0]).focus 1)) (fun a t =>
    a.2 && decide (a.1.idx = cmd0.idx ∧ t.blk.nest.live = none ∧ (t.blk.eng .a).prog = [cmd0])) (by decide +kernel)
  rw [Bool.and_eq_true, decide_eq_true_eq] at h
  obtain ⟨h1, h⟩ := h
  have h1 : f = true := h1
  subst h1
  have e1 : ((sProg [] [cmd0]).blockAt 1).isSome = true := by decide +kernel
  have e2 : ((sProg [] [cmd0]).focus 1).engLive .a = true := by decide +kernel
  have e3 : (((sProg [] [cmd0]).focus 1).blk.eng .a).prog = [cmd0] := by decide +kernel
  have e4 : cmd0.delivered = false := by decide +kernel
  have e5 : ((sProg [] [cmd0]).focus 1).blk.scout.mark = none := by decide +kernel
  generalize sProg [] [cmd0] = s at *
  exact ⟨s, _, 1, .a, cmd0, c, t, e1, rfl, e2, e3, rfl, e4, e5, hu, h⟩

/-- A map entry of one granule on die 0 at a virtual address with the same physical address. -/
def oneGranule (va : Nat) (kind perm : Byte) : MapEntry :=
  { base := BitVec.ofNat 64 va, limit := BitVec.ofNat 64 (va + 65536), kind := kind, perm := perm, kspec := [], state := 5,
    frames := [BitVec.ofNat 64 va] }

/-- A live nest with one copy. -/
def nestL (b : Block) : LiveNest :=
  { levels := [], body := [⟨.copyMm ⟨pT, 0, 1, 2, 3⟩, true, 0x10008⟩], regs := b.a, index := Vector.replicate 6 0, at_ := 0,
    allIssued := false, units := 0, isl := 0 }

/-- Stream 0 has room for sixteen vectors of 256 bytes; a task with a multicast group of one member that has ended; a live
nest with one copy; and a command in progress. -/
def sEv (c : Cmd) : State :=
  let s := withBlk 0 fun b =>
    { b with task := 9, streams := b.streams.set 0 ⟨BitVec.ofNat 64 (16 * 2 ^ 48), 0x00700000, 0, 0, 16, 0, []⟩,
             engs := b.engs.set 0 { b.engs[0] with prog := [c] },
             nest := { b.nest with live := some (nestL b) } }
  { s with
    time := 10 ^ 6,
    isls := s.isls.set 0 { s.isls[0] with reqs := [⟨1, .a, some 0, 0, 0⟩, ⟨1, .a, none, 0, 0⟩] },
    tasks := [{ key := 9, ctx := 0, src := .block 1, pkt := packetOf [], xfer := none, groups := [⟨7, 2, [3]⟩],
                rings := [], strms := [], held := [0], want := [], entered := 0, est := 0, doneIdx := [3], drains := [],
                sees := none, clock := Vector.replicate 10 0 }] }

/-- A multicast that is served, and `ldt`s before and after their cut-off. -/
def cMcast : Cmd :=
  { Cmd.new (.mcast ⟨pT, 0, 0, 0, 0⟩ ⟨7, 1, false, 0⟩) 0x10004 with served := true, targets := [.todo], regs := [0, 0, 0] }

def cLdt (served : Bool) (data : List Byte) : Cmd :=
  { Cmd.new (.ldt ⟨pT, 0, 0, 1, 0⟩) 0x10004 with
      regs := [0, 0x11000, 0], slotAt := (if served then 23040 else 10 ^ 6 + 3600), served := served, data := data }
def cLeave : Cmd := { cmd0 with leave := .waiting 0 }

/-- A nest that waits for leave with a body of one command; its innermost level counts `n`. -/
def sAsk (n : Nat) : State :=
  let s := sNest.modStr .a fun st => { st with wait := .leave 0, line := some (line .a 0x10000 [0x00000028, 0x00000080]) }
  let s : State := { s with blk := { s.blk with nest := { s.blk.nest with shadow := [(3, ⟨BitVec.ofNat 32 n, 2, [(5, 1)]⟩)] } } }
  { s with isls := s.isls.set 0 { s.isls[0] with reqs := [⟨1, .a, none, 0, 0⟩] } }

theorem wit_EngineEvents :
    (∃ (s : State) (u : Nat) (l : LiveNest) (n : NestCmd) (x : CArgs) (t1 : State), (s.blockAt u).isSome = true ∧
      (s.focus u).blk.nest.live = some l ∧ (s.focus u).engStarts .a = true ∧ (s.focus u).cx.st = 0 ∧ l.allIssued = false ∧
      (s.focus u).blk.scout.discarded = false ∧ (s.focus u).blk.forcing = false ∧ l.body[l.at_]? = some n ∧
      n.op.cargs = some x ∧ issueInstance n l x (s.focus u) = .ok ((), t1)) ∧
    (∃ (s : State) (u idx m : Nat) (c : Cmd) (x : CArgs) (e : McastExt) (c1 : Cmd) (t1 : State), (s.blockAt u).isSome = true ∧
      ((s.focus u).blk.eng .a).prog.find? (fun c => c.idx.toNat == idx) = some c ∧ c.op = .mcast x e ∧
      (s.focus u).engLive .a = true ∧ c.stuck = false ∧ c.served = true ∧ (s.focus u).blk.scout.mark = none ∧
      asCmd .a c.idx 8 (mcDeliver c e x.o1 m) (s.focus u) = .ok (c1, t1)) ∧
    (∃ (s : State) (u idx : Nat) (c : Cmd) (x : CArgs) (c1 : Cmd) (t1 : State), (s.blockAt u).isSome = true ∧
      ((s.focus u).blk.eng .a).all.find? (fun c => c.idx.toNat == idx) = some c ∧ c.op = .ldt x ∧
      (s.focus u).engLive .a = true ∧ c.stuck = false ∧ c.served = false ∧
      (s.focus u).blk.ldtSlot c x.o3.val ≤ (s.focus u).time + 3600 ∧ (s.focus u).blk.scout.mark = none ∧
      ((s.focus u).blk.eng .a).queue.any (fun y => y.idx == c.idx) = false ∧ asCmd .a c.idx 8 (ldtCut c x) (s.focus u) = .ok (c1, t1)) ∧
    (∃ (s : State) (u idx : Nat) (c : Cmd) (x : CArgs) (c1 : Cmd) (t1 : State) (n : Nat), (s.blockAt u).isSome = true ∧
      n = ldtVectors (s.focus u).blk.die.val (s.focus u).blk.streams[oStream x.o1] ∧
      ((s.focus u).blk.eng .a).prog.find? (fun c => c.idx.toNat == idx) = some c ∧ c.op = .ldt x ∧
      (s.focus u).engLive .a = true ∧ c.stuck = false ∧ c.served = true ∧ c.prog < n ∧ (s.focus u).blk.scout.mark = none ∧
      c.data = [] ∧ c.slotAt ≤ (s.focus u).time ∧ asCmd .a c.idx 8 (ldtTake c x) (s.focus u) = .ok (c1, t1)) ∧
    (∃ (s : State) (u idx : Nat) (c : Cmd) (x : CArgs) (c1 : Cmd) (t1 : State) (n : Nat), (s.blockAt u).isSome = true ∧
      n = ldtVectors (s.focus u).blk.die.val (s.focus u).blk.streams[oStream x.o1] ∧
      ((s.focus u).blk.eng .a).prog.find? (fun c => c.idx.toNat == idx) = some c ∧ c.op = .ldt x ∧
      (s.focus u).engLive .a = true ∧ c.stuck = false ∧ c.served = true ∧ c.prog < n ∧ (s.focus u).blk.scout.mark = none ∧
      c.data ≠ [] ∧ c.slotAt * (n - 1) + readyAfter (s.focus u).blk.die.val c.prog n ≤ (s.focus u).time * (n - 1) ∧
      asCmd .a c.idx 8 (ldtReady c x) (s.focus u) = .ok (c1, t1)) ∧
    (∃ (s : State) (isl : Fin 32) (r : LeaveReq) (rest : List LeaveReq) (idx : BitVec 16) (c : Cmd) (since : Nat),
      (s.isls[isl]).reqs = r :: rest ∧ r.cmd = some idx ∧ (s.blockAt r.uid).isSome = true ∧
      ((s.focus r.uid).blk.eng r.eng).prog.find? (fun c => c.idx == idx) = some c ∧ c.leave = .waiting since ∧
      (s.isls[isl]).iuse + r.units ≤ Config.ilim isl.val) ∧
    (∃ (s g w0 : State) (isl : Fin 32) (r : LeaveReq) (rest : List LeaveReq) (since : Nat) (body : List NestCmd) (a : Dword)
        (l : LineBuf) (w : Nat) (w1 : State), (s.isls[isl]).reqs = r :: rest ∧ r.cmd = none ∧ (s.blockAt r.uid).isSome = true ∧
      ((s.focus r.uid).str .a).wait = .leave since ∧ ((s.focus r.uid).str .a).stop = none ∧
      (s.isls[isl]).iuse + r.units ≤ Config.ilim isl.val ∧
      g = (s.modIsl isl fun i => i.grant r s.time).focus r.uid ∧ w0 = { g with blk := g.blk.granted since } ∧
      captureBody (s.focus r.uid).ngoCount w0 = .ok ((body, a, l, w), w1) ∧ w1.blk = w0.blk ∧ w1.isls = w0.isls ∧
      ((s.focus r.uid).blk.nest.shadow.any fun z => z.2.count == 0) = false) ∧
    (∃ (s g w0 : State) (isl : Fin 32) (r : LeaveReq) (rest : List LeaveReq) (since : Nat) (body : List NestCmd) (a : Dword)
        (l : LineBuf) (w : Nat) (w1 : State), (s.isls[isl]).reqs = r :: rest ∧ r.cmd = none ∧ (s.blockAt r.uid).isSome = true ∧
      ((s.focus r.uid).str .a).wait = .leave since ∧ ((s.focus r.uid).str .a).stop = none ∧
      (s.isls[isl]).iuse + r.units ≤ Config.ilim isl.val ∧
      g = (s.modIsl isl fun i => i.grant r s.time).focus r.uid ∧ w0 = { g with blk := g.blk.granted since } ∧
      captureBody (s.focus r.uid).ngoCount w0 = .ok ((body, a, l, w), w1) ∧ w1.blk = w0.blk ∧ w1.isls = w0.isls ∧
      ((s.focus r.uid).blk.nest.shadow.any fun z => z.2.count == 0) = true ∧
      (((s.focus r.uid).blk.eng .a).prog.any fun c => c.nest) = false) :=
  ⟨⟨sEv cmd0, 1, nestL (blockOn 0), ⟨.copyMm ⟨pT, 0, 1, 2, 3⟩, true, 0x10008⟩, ⟨pT, 0, 1, 2, 3⟩, _, by decide +kernel, rfl,
    by decide +kernel, by decide +kernel, rfl, by decide +kernel, by decide +kernel, rfl, rfl,
    ok_unit sA (by decide +kernel)⟩,
   ⟨sEv cMcast, 1, 0, 0, cMcast, ⟨pT, 0, 0, 0, 0⟩, ⟨7, 1, false, 0⟩, _, _, by decide +kernel, by decide +kernel, rfl,
    by decide +kernel, rfl, rfl, by decide +kernel, ok_of_answers cmd0 sA (by decide +kernel)⟩,
   ⟨sEv (cLdt false []), 1, 0, cLdt false [], ⟨pT, 0, 0, 1, 0⟩, _, _, by decide +kernel, by decide +kernel, rfl, by decide +kernel,
    rfl, rfl, by decide +kernel, by decide +kernel, by decide +kernel, ok_of_answers cmd0 sA (by decide +kernel)⟩,
   ⟨sEv (cLdt true []), 1, 0, cLdt true [], ⟨pT, 0, 0, 1, 0⟩, _, _, 16, by decide +kernel, by decide +kernel, by decide +kernel,
    rfl, by decide +kernel, rfl, rfl, by decide +kernel, by decide +kernel, rfl, by decide +kernel,
    ok_of_answers cmd0 sA (by decide +kernel)⟩,
   ⟨sEv (cLdt true [1]), 1, 0, cLdt true [1], ⟨pT, 0, 0, 1, 0⟩, _, _, 16, by decide +kernel, by decide +kernel, by decide +kernel,
    rfl, by decide +kernel, rfl, rfl, by decide +kernel, by decide +kernel, by decide, by decide +kernel,
    ok_of_answers cmd0 sA (by decide +kernel)⟩,
   ⟨sEv cLeave, 0, ⟨1, .a, some 0, 0, 0⟩, [⟨1, .a, none, 0, 0⟩], 0, cLeave, 0, by decide +kernel, rfl, by decide +kernel,
    by decide +kernel, rfl, by show 0 + 0 ≤ _; exact Nat.zero_le _⟩,
   ⟨sAsk 4, _, _, 0, ⟨1, .a, none, 0, 0⟩, [], 0, _, _, _, _, _, by decide +kernel, rfl, by decide +kernel, by decide +kernel,
    by decide +kernel, by show 0 + 0 ≤ _; exact Nat.zero_le _, rfl, rfl, ok_of_answers ([], 0, line .a 0 [], 0) sA (by decide +kernel),
    rfl, rfl, by decide +kernel⟩,
   ⟨sAsk 0, _, _, 0, ⟨1, .a, none, 0, 0⟩, [], 0, _, _, _, _, _, by decide +kernel, rfl, by decide +kernel, by decide +kernel,
    by decide +kernel, by show 0 + 0 ≤ _; exact Nat.zero_le _, rfl, rfl, ok_of_answers ([], 0, line .a 0 [], 0) sA (by decide +kernel),
    rfl, rfl, by decide +kernel, by decide +kernel⟩⟩

/-- A grotto region at 0x50000 with a descriptor that keeps every limit, its address in queue 0; bank 7 is lent. -/
def sG (d : Fin 8) (h : Holder) : State :=
  let s := withBlk d fun b => { b with q := b.q.set 0 [0x50000], holders := b.holders.set 7 h }
  { s with
    mem := Mem.write [] 0x50000 (leBytes 8 0x0A0101 ++ leBytes 8 0x100 ++ leBytes 16 0 ++ leBytes 4 0x4B7FFFFF),
    ctxs := s.ctxs.set 0 { s.ctxs[0] with mapn := 2, regions := 2, store := [fetchEntry d.val, oneGranule 0x50000 3 7] } }

/-- Its address in queue 0 is one of a plain region. -/
def sL0 : State := withBlk 0 fun b => { b with q := b.q.set 0 [0x10100] }

theorem wit_EngineImmediates :
    (∃ (s : State) (x : MclrArgs) (v : BitVec 16) (s1 : State), (s.str .m).holds x.pred = true ∧
      s.blk.tileBusy .m x.tile.val = false ∧ TakesE .m x.e s v s1) ∧
    (∃ (s : State) (x : DclrArgs) (v : BitVec 16) (s1 : State), (s.str .d).holds x.pred = true ∧
      s.blk.tileBusy .d x.tile.val = false ∧ TakesE .d x.e s v s1) ∧
    (∃ (s : State) (x : MstatArgs) (t : State), (s.str .m).holds x.pred = true ∧ s.blk.tileBusy .m x.tile.val = false ∧
      let en := if x.ctl = 1 then true else if x.ctl = 2 then false else s.blk.trapen
      Puts .m (.port (.q x.q)) { s with blk := { s.blk with trapen := en } } (mstatWord (s.blk.acc[x.tile]) en) t) ∧
    (∃ (s : State) (x : GcfgArgs) (a : Dword) (s1 : State) (i : Nat) (e : MapEntry) (bs : List Byte) (s2 : State),
      (s.str .g).holds x.pred = true ∧ s.blk.tileBusy .g x.gd.val = false ∧ Takes .g (.port (.q x.q)) s a s1 ∧
      a.toNat % 256 = 0 ∧ byStrand .g 8 (readVirt false a.toNat 256) (acquired .g [.port (.q x.q)] s1) = .ok (bs, s2) ∧ s2.entryOf a.toNat = some (i, e) ∧
      e.kind = 3 ∧ e.base = a ∧ GDesc.ok ⟨a, e.limit, bs⟩ = true) ∧
    (∃ (s : State) (x : GcfgArgs) (a : Dword) (s1 : State) (i : Nat) (e : MapEntry) (bs : List Byte) (s2 : State),
      (s.str .g).holds x.pred = true ∧ s.blk.tileBusy .g x.gd.val = false ∧ Takes .g (.port (.q x.q)) s a s1 ∧
      a.toNat % 256 = 0 ∧ byStrand .g 8 (readVirt false a.toNat 256) (acquired .g [.port (.q x.q)] s1) = .ok (bs, s2) ∧ s2.entryOf a.toNat = some (i, e) ∧
      (e.kind ≠ 3 ∨ e.base ≠ a)) ∧
    (∃ (s : State) (x : BlendArgs) (h : Holder), (s.str .v).holds x.pred = true ∧
      ((x.who = .m ∧ s.blk.die.val < 4 ∧ h = .m) ∨ (x.who = .d ∧ 4 ≤ s.blk.die.val ∧ h = .d)) ∧
      s.blk.holders[x.bank] = .v ∧ s.blk.bankPending x.bank = false) ∧
    (∃ (s : State) (x : BretArgs), (s.str .m).holds x.pred = true ∧ s.blk.holders[x.bank] = .m ∧
      s.blk.bankBusy .m x.bank = false) ∧
    (∃ (s : State) (x : BretArgs), (s.str .d).holds x.pred = true ∧ s.blk.holders[x.bank] = .d ∧
      s.blk.bankBusy .d x.bank = false) ∧
    (∃ (s : State) (x : BlendArgs), (s.str .v).holds x.pred = true ∧ s.blk.holders[x.bank] ≠ .v) :=
  ⟨⟨sA, ⟨pT, 3, .imm 32⟩, _, _, by decide +kernel, by decide +kernel, ⟨rfl, rfl⟩⟩,
   ⟨sA, ⟨pT, 1, 7, .q 0⟩, _, _, by decide +kernel, by decide +kernel, ⟨_, ⟨_, rfl, rfl⟩, rfl⟩⟩,
   ⟨sA, ⟨pT, 2, 3, 1⟩, _, by decide +kernel, by decide +kernel, ⟨first_push (by decide +kernel), by decide +kernel, rfl⟩⟩,
   ⟨sG 0 .v, ⟨pT, 3, 0⟩, _, _, 1, oneGranule 0x50000 3 7, _, _, by decide +kernel, by decide +kernel, ⟨_, rfl, rfl⟩,
    by decide +kernel, ok_of_answers [] sA (by decide +kernel), by decide +kernel, by decide, by decide, by decide +kernel⟩,
   ⟨sL0, ⟨pT, 3, 0⟩, _, _, 0, fetchEntry 0, _, _, by decide +kernel, by decide +kernel, ⟨_, rfl, rfl⟩, by decide +kernel,
    ok_of_answers [] sA (by decide +kernel), by decide +kernel, .inl (by decide)⟩,
   ⟨sG 4 .v, ⟨pT, 7, .d⟩, .d, by decide +kernel⟩, ⟨sG 0 .m, ⟨pT, 7⟩, by decide +kernel⟩,
   ⟨sG 4 .d, ⟨pT, 7⟩, by decide +kernel⟩, ⟨sG 0 .m, ⟨pT, 7, .m⟩, by decide +kernel⟩⟩

/-- A scouted loop of one carried value, K = 8, in a given state; its descriptor is at 0x10100, which s1 names. -/
def sS (r : RoundSt) : State :=
  let s := withBlk 0 fun b =>
    { b with s := b.s.set 1 0x10100, vq := b.vq.set 1 [vzero],
             scout := { b.scout with
               round := r, desc := 0x10100, carries := 1, cin := 0, cout := 1, carry := 0x11000, guess := 0x12000,
               target := 0x1003C, kr := 8, k := 8, acc := 7, cins := [vzero],
               mark := (match r with
                 | .rerun _ => some (b.mark (strandAt .c []))
                 | _ => none) } }
  { s with mem := Mem.write [] 0x10100 (leBytes 8 0x10001 ++ leBytes 8 0x11000 ++ leBytes 8 0x12000) }

/-- What the commit of that loop's round reads and writes, step by step. -/
def sSc : State := sS .accepted
def sS1 : State := endOf (commitSlots sSc.blk.scout.bufs sSc.blk.scout.acc sSc) sSc
def sS2 : State := endOf (writeTails (sSc.blk.scout.desc.toNat + 64) sSc.blk.scout.advance sS1) sSc

theorem wit_ScoutedRounds :
    (∃ (s : State) (x : ScoutArgs) (a : Dword) (s1 : State) (bs : List Byte) (s2 : State) (l : LineBuf) (s3 : State),
      s.inSlot .c = false ∧ (s.str .c).holds x.pred = true ∧ s.blk.scout.round = .closed ∧ 2 ≤ x.k.val ∧ x.k.val ≤ 8 ∧
      Takes .c x.a s a s1 ∧ a.toNat % 64 = 0 ∧
      byStrand .c 8 (readVirt false a.toNat 128) (ordered .c [x.a] [] s1) = .ok (bs, s2) ∧
      descBad s2.cx bs = false ∧ lineAt .c (targetAddr (s2.str .c).pc x.guess) s2 = .ok (l, s3) ∧
      Enters l (targetAddr (s2.str .c).pc x.guess)) ∧
    (∃ (s : State) (x : NoArgs) (ret : Dword) (l : List VReg) (s1 : State), s.inSlot .c = false ∧
      (s.str .c).holds x.pred = true ∧ s.blk.scout.round = .guess ret ∧ ret ≠ 0 ∧
      byStrand .c 4 (cinEntries s.blk.scout s.blk.scout.carries) s = .ok (l, s1) ∧
      (s1.blk.vq[s.blk.scout.cin]).length + s1.blk.inflightTo (.port (.vq s.blk.scout.cin)) + l.length ≤ 4) ∧
    (∃ (s : State) (x : AcceptArgs) (couts : List VReg) (s1 : State) (l : List SyncObj) (s2 s3 : State) (n : Nat), (s.str .c).holds x.pred = true ∧
      s.blk.scout.round = .body ∧ popVqs s.blk.scout.cout s.blk.scout.carries s = .ok (couts, s1) ∧
      n = acceptFrom s.blk.scout.kr s.blk.scout.failed
        (slotMatch (if x.tol then some s.blk.scout.tol else none) couts s.blk.scout.cins) 8 1 ∧
      byStrand .c 4 (writeCarry s.blk.scout.carry.toNat (n - 1) couts) s1 = .ok (l, s2) ∧
      Puts .c x.d (s2.blkRelease l) (BitVec.ofNat 64 n) s3) ∧
    (∃ (s : State) (x : NoArgs) (l : List SyncObj) (s1 : State) (k : List SyncObj) (s2 : State), s.inSlot .c = false ∧ (s.str .c).holds x.pred = true ∧
      s.blk.scout.round = .accepted ∧ commitSlots s.blk.scout.bufs s.blk.scout.acc s = .ok (l, s1) ∧
      writeTails (s.blk.scout.desc.toNat + 64) s.blk.scout.advance s1 = .ok (k, s2)) ∧
    (∃ (s : State) (x : NoArgs) (l : List SyncObj) (s1 : State) (k : List SyncObj) (s2 : State) (r : LineBuf) (s3 : State), s.inSlot .c = false ∧
      (s.str .c).holds x.pred = true ∧ s.blk.scout.round = .accepted ∧
      commitSlots s.blk.scout.bufs s.blk.scout.acc s = .ok (l, s1) ∧
      writeTails (s.blk.scout.desc.toNat + 64) s.blk.scout.advance s1 = .ok (k, s2) ∧
      lineAt .c s2.blk.scout.target { s2.blkRelease (l ++ k) with blk := { (s2.blkRelease (l ++ k)).blk with
        scout := { s2.blk.scout with regions := s.blk.scout.advance,
                                     iter := s.blk.scout.iter + BitVec.ofNat 32 s.blk.scout.acc } } } = .ok (r, s3) ∧
      Enters r s2.blk.scout.target) ∧
    (∃ (s : State) (u : Nat) (serial : Bool) (m : Mark), (s.blockAt u).isSome = true ∧
      (s.focus u).blk.scout.round = .rerun serial ∧ (s.focus u).blk.scout.mark = some m ∧ (s.focus u).cx.st.val ≤ 1 ∧
      (s.focus u).withdraw.blk.roundCmds = []) ∧
    (∃ (s : State) (u : Nat) (serial : Bool) (m : Mark), (s.blockAt u).isSome = true ∧
      (s.focus u).blk.scout.round = .rerun serial ∧ (s.focus u).blk.scout.mark = some m ∧ (s.focus u).cx.st.val ≤ 1 ∧
      (s.focus u).withdraw.enginesRest = true) := by
  have c1 : commitSlots sSc.blk.scout.bufs sSc.blk.scout.acc sSc = .ok (_, sS1) := ok_of_answers [] sSc (by decide +kernel)
  have c2 : writeTails (sSc.blk.scout.desc.toNat + 64) sSc.blk.scout.advance sS1 = .ok (_, sS2) :=
    ok_of_answers [] sSc (by decide +kernel)
  refine ⟨⟨sS .closed, ⟨pT, .reg 1, 2, ⟨0, 15⟩⟩, _, _, _, _, _, _, by decide +kernel, by decide +kernel, rfl, by decide,
      by decide, ⟨by decide +kernel, rfl, rfl⟩, by decide +kernel, ok_of_answers [] sA (by decide +kernel), by decide +kernel,
      ok_of_answers ⟨0, Vector.replicate 16 0⟩ sA (by decide +kernel),
      ⟨by decide +kernel, by decide +kernel, by decide +kernel⟩⟩,
    ⟨sS (.guess 0x10008), ⟨pT⟩, 0x10008, _, _, by decide +kernel, by decide +kernel, rfl, by decide,
      ok_of_answers [] sA (by decide +kernel), by decide +kernel⟩,
    ⟨sS .body, ⟨pT, .reg 2, true⟩, _, _, _, _, _, _, by decide +kernel, rfl, ok_of_answers [] sA (by decide +kernel), rfl,
      ok_of_answers [] sA (by decide +kernel), ⟨by decide +kernel, rfl⟩⟩,
    ⟨sSc, ⟨pT⟩, _, sS1, _, sS2, by decide +kernel, by decide +kernel, by decide +kernel, c1, c2⟩,
    ⟨sSc, ⟨pT⟩, _, sS1, _, sS2, _, _, by decide +kernel, by decide +kernel, by decide +kernel, c1, c2,
      ok_of_answers ⟨0, Vector.replicate 16 0⟩ sA (by decide +kernel),
      ⟨by decide +kernel, by decide +kernel, by decide +kernel⟩⟩,
    ⟨sS (.rerun true), 1, true, _, by decide +kernel, rfl, rfl, by decide +kernel, by decide +kernel⟩,
    ⟨sS (.rerun false), 1, false, _, by decide +kernel, rfl, rfl, by decide +kernel, by decide +kernel⟩⟩

/-! ## The v strand -/

/-- Entries in scalar queue 0 and vector queue 0, a prefix that asks saturation for the v strand, room in stream 1 and a
vector in stream 0. -/
def sV : State :=
  withBlk 0 fun b =>
    { b with q := b.q.set 0 [0x7FFFFFFF], vq := b.vq.set 0 [vzero], v := b.v.set 5 (Vector.replicate 64 1),
             vm := b.vm.set 1 0xF,
             streams := (b.streams.set 0 ⟨BitVec.ofNat 64 (16 * 2 ^ 48), 0x00700000, 0, 1, 1, 0, []⟩).set 1
               ⟨BitVec.ofNat 64 (16 * 2 ^ 48), 0xA0700000, 0, 0, 0, 0, []⟩ }

/-- The v strand holds every bank there. -/
theorem banks_v (l : List Opd) : BanksOk l sV := by
  have k : ∀ n : Fin 64, sV.blk.holders[bankOf n] = .v := by decide +kernel
  intro o _
  cases o with
  | reg n => exact k n
  | port p => trivial

/-- A wide form on 16-bit elements under mask 1. -/
def e16 : VExt := ⟨.tH, false, .rne, false, false, 1⟩

theorem wit_VIntegers :
    (∃ i s form x f a b s1 s2 s3, vInt2 i = some (form, x, f) ∧ (State.str s .v).holds x.pred = true ∧
      BanksOk [x.a, x.b, x.d] s ∧ TakesV (form s).w x.a s a s1 ∧ TakesV (form s).w x.b s1 b s2 ∧
      PutsV (form s).w (form s).act x.d
        (satIf (intResults (form s) fun e => f (form s) (elem (form s).w a e) (elem (form s).w b e) 0).1 s2)
        (intResults (form s) fun e => f (form s) (elem (form s).w a e) (elem (form s).w b e) 0).2 s3) ∧
    (∃ i s form x f a b d s1 s2 s3 s4, vInt3 i = some (form, x, f) ∧ (State.str s .v).holds x.pred = true ∧
      BanksOk [x.a, x.b, x.d] s ∧ TakesV (form s).w x.a s a s1 ∧ TakesV (form s).w x.b s1 b s2 ∧
      TakesV (form s).w x.d s2 d s3 ∧
      PutsV (form s).w (form s).act x.d (satIf (intResults (form s) fun e =>
        f (form s) (elem (form s).w a e) (elem (form s).w b e) (elem (form s).w d e)).1 s3)
        (intResults (form s) fun e => f (form s) (elem (form s).w a e) (elem (form s).w b e) (elem (form s).w d e)).2 s4) ∧
    (∃ i s form x f a s1 s2, vInt1 i = some (form, x, f) ∧ (State.str s .v).holds x.pred = true ∧
      BanksOk [x.a, x.d] s ∧ TakesV (form s).w x.a s a s1 ∧
      PutsV (form s).w (form s).act x.d (satIf (intResults (form s) fun e => f (form s) (elem (form s).w a e) 0 0).1 s1)
        (intResults (form s) fun e => f (form s) (elem (form s).w a e) 0 0).2 s2) := by
  have k : ∀ n : Fin 64, sV.blk.holders[bankOf n] = .v := by decide +kernel
  refine ⟨⟨.vVshlW ⟨pT, .reg 63, .port (.vq 0), .port (.q 0)⟩ e16, sV, _, _, _, _, _, _, _, _, rfl, by decide +kernel, banks_v _,
      ⟨_, rfl, rfl⟩, ⟨_, _, rfl, rfl, rfl⟩, ⟨k 63, by decide +kernel, rfl⟩⟩,
    ⟨.vVmad ⟨pT, .reg 7, .reg 5, .reg 5⟩, sV, _, _, _, _, _, _, _, _, _, _, rfl, by decide +kernel, banks_v _,
      ⟨k 5, by decide +kernel, rfl, rfl⟩, ⟨k 5, by decide +kernel, rfl, rfl⟩, ⟨k 7, by decide +kernel, rfl, rfl⟩,
      ⟨k 7, by decide +kernel, rfl⟩⟩,
    ⟨.vVabsP1 ⟨pT, .reg 0, .reg 5⟩, sV, _, _, _, _, _, _, rfl, by decide +kernel, banks_v _, ⟨k 5, by decide +kernel, rfl, rfl⟩,
      ⟨k 0, by decide +kernel, rfl⟩⟩⟩

theorem wit_VFloats :
    (∃ i s form x f a b s1 s2 s3, vFlt2 i = some (form, x, f) ∧ (State.str s .v).holds x.pred = true ∧
      BanksOk [x.a, x.b, x.d] s ∧ TakesV (form s).w x.a s a s1 ∧ TakesV (form s).w x.b s1 b s2 ∧
      let m := form s
      let r := inOrder m.act (fun e => f m (e * m.w / 32) (elem m.w a e) (elem m.w b e) 0) (elemRange m) (numOf s2)
      PutsV m.w m.act x.d (withNum s2 r.2) r.1 s3) ∧
    (∃ i s form x f a b d s1 s2 s3 s4, vFlt3 i = some (form, x, f) ∧ (State.str s .v).holds x.pred = true ∧
      BanksOk [x.a, x.b, x.d] s ∧ TakesV (form s).w x.a s a s1 ∧ TakesV (form s).w x.b s1 b s2 ∧
      TakesV (form s).w x.d s2 d s3 ∧
      let m := form s
      let r := inOrder m.act (fun e => f m (e * m.w / 32) (elem m.w a e) (elem m.w b e) (elem m.w d e)) (elemRange m)
        (numOf s3)
      PutsV m.w m.act x.d (withNum s3 r.2) r.1 s4) ∧
    (∃ i s form x f a s1 s2, vFlt1 i = some (form, x, f) ∧ (State.str s .v).holds x.pred = true ∧
      BanksOk [x.a, x.d] s ∧ TakesV (form s).w x.a s a s1 ∧
      let m := form s
      let r := inOrder m.act (fun e => f m (e * m.w / 32) (elem m.w a e) 0 0) (elemRange m) (numOf s1)
      PutsV m.w m.act x.d (withNum s1 r.2) r.1 s2) := by
  have k : ∀ n : Fin 64, sV.blk.holders[bankOf n] = .v := by decide +kernel
  refine ⟨⟨.vVfmin ⟨pT, .reg 63, .port (.vq 0), .port (.q 0)⟩, sV, _, _, _, _, _, _, _, _, rfl, by decide +kernel, banks_v _,
      ⟨_, rfl, rfl⟩, ⟨_, _, rfl, rfl, rfl⟩, ⟨k 63, by decide +kernel, rfl⟩⟩,
    ⟨.vVfmaW ⟨pT, .reg 7, .reg 5, .reg 5⟩ e16, sV, _, _, _, _, _, _, _, _, _, _, rfl, by decide +kernel, banks_v _,
      ⟨k 5, by decide +kernel, rfl, rfl⟩, ⟨k 5, by decide +kernel, rfl, rfl⟩, ⟨k 7, by decide +kernel, rfl, rfl⟩,
      ⟨k 7, by decide +kernel, rfl⟩⟩,
    ⟨.vVcvt ⟨pT, .reg 0, .reg 5, .e5m2, .i8⟩, sV, _, _, _, _, _, _, rfl, by decide +kernel, banks_v _,
      ⟨k 5, by decide +kernel, rfl, rfl⟩, ⟨k 0, by decide +kernel, rfl⟩⟩⟩

theorem wit_VMasks :
    (∃ i s form x f a b s1 s2, vCompares i = some (form, x, f) ∧ (State.str s .v).holds x.pred = true ∧
      BanksOk [x.a, x.b] s ∧ TakesV (form s).w x.a s a s1 ∧ TakesV (form s).w x.b s1 b s2) ∧
    (∃ i s form x a d s1 s2 s3, vSels i = some (form, x) ∧ (State.str s .v).holds x.pred = true ∧
      BanksOk [x.a, x.d] s ∧ TakesV (form s).w x.a s a s1 ∧ TakesV (form s).w x.d s1 d s2 ∧
      let m := form s
      PutsV m.w m.act x.d s2 ((elemRange m).map fun e =>
        if (s2.blk.mask x.vm).getLsbD e then elem m.w a e else elem m.w d e) s3) ∧
    (∃ i s x f g, votes i = some (x, f) ∧ (State.str s .v).holds x.pred = true ∧ x.d = .gs g) ∧
    (∃ i s x f p, votes i = some (x, f) ∧ (State.str s .v).holds x.pred = true ∧ x.d = .p p) := by
  have k : ∀ n : Fin 64, sV.blk.holders[bankOf n] = .v := by decide +kernel
  refine ⟨⟨.vVfcmpW ⟨pT, .ge, 0, .port (.vq 0), .port (.q 0)⟩ e16, sV, _, _, _, _, _, _, _, rfl, by decide +kernel, banks_v _,
      ⟨_, rfl, rfl⟩, ⟨_, _, rfl, rfl, rfl⟩⟩,
    ⟨.vVsel ⟨pT, .reg 7, .reg 5, 1⟩, sV, _, _, _, _, _, _, _, rfl, by decide +kernel, banks_v _, ⟨k 5, by decide +kernel, rfl, rfl⟩,
      ⟨k 7, by decide +kernel, rfl, rfl⟩, ⟨k 7, by decide +kernel, rfl⟩⟩,
    ⟨.vVany ⟨pT, .gs 15, 1, 0⟩, sV, _, _, 15, rfl, by decide +kernel, rfl⟩,
    ⟨.vVall ⟨pT, .p 0, 0, 2⟩, sV, _, _, 0, rfl, by decide +kernel, rfl⟩⟩

theorem wit_VReductions :
    (∃ i s form x a s1 n t, vReds i = some (form, x) ∧ (State.str s .v).holds x.pred = true ∧ BanksOk [x.a, x.d] s ∧
      TakesV (form s).w x.a s a s1 ∧ x.d = .port (.q n) ∧
      let m := form s
      let r := treeReduce m x.op (treeDepth m.w) (identElems m x.op (elems m.w a)) (numOf s1)
      Puts .v (.port (.q n)) (withNum s1 r.2) (redQueue m.w x.op r.1) t) ∧
    (∃ i s form x a s1 t, vReds i = some (form, x) ∧ (State.str s .v).holds x.pred = true ∧ BanksOk [x.a, x.d] s ∧
      TakesV (form s).w x.a s a s1 ∧ (∀ n, x.d ≠ .port (.q n)) ∧
      let m := form s
      let r := treeReduce m x.op (treeDepth m.w) (identElems m x.op (elems m.w a)) (numOf s1)
      PutsImg x.d (withNum s1 r.2) (ofElems m.w [r.1]) t) ∧
    (∃ i s form x a s1 t, vScans i = some (form, x) ∧ (State.str s .v).holds x.pred = true ∧ BanksOk [x.a, x.d] s ∧
      TakesV (form s).w x.a s a s1 ∧
      let m := form s
      let r := scanFrom m x.op x.excl 0 (redIdent m x.op) (identElems m x.op (elems m.w a)) (numOf s1)
      PutsV m.w m.act x.d (withNum s1 r.2) r.1 t) ∧
    (∃ (m : VForm) (op : RedOp) (z : Nat) (f : Nat → Nat → Nat), (m.w = 32 ∨ m.w = 16 ∨ m.w = 8) ∧ m.ctl.sat = false ∧
      redInt m.w op = some (z, f)) := by
  have k : ∀ n : Fin 64, sV.blk.holders[bankOf n] = .v := by decide +kernel
  have hn : ∀ n : NumSt, (withNum sV n).blk.q[(3 : Fin 16)] = [] ∧
      (withNum sV n).blk.pending .v (.port (.q 3)) = false ∧
      (withNum sV n).blk.inflightTo (.port (.q 3)) = 0 ∧ (withNum sV n).blk.holders[bankOf 0] = .v ∧
      (withNum sV n).blk.pending .v (.reg 0) = false := by
    intro n
    refine ⟨?_, ?_, ?_, ?_, ?_⟩ <;> rfl
  refine ⟨⟨.vVredW ⟨pT, .port (.q 3), .reg 5, .max⟩ e16, sV, _, _, _, _, 3, _, rfl, by decide +kernel, banks_v _,
      ⟨k 5, by decide +kernel, rfl, rfl⟩, rfl, ⟨first_push rfl, ?_, rfl⟩⟩,
    ⟨.vVred ⟨pT, .reg 0, .reg 5, .fadd⟩, sV, _, _, _, _, _, rfl, by decide +kernel, banks_v _, ⟨k 5, by decide +kernel, rfl, rfl⟩,
      by simp, ⟨(hn _).2.2.2.1, (hn _).2.2.2.2, rfl⟩⟩,
    ⟨.vVscanP1 ⟨pT, .reg 0, .reg 5, .minu, true⟩, sV, _, _, _, _, _, rfl, by decide +kernel, banks_v _,
      ⟨k 5, by decide +kernel, rfl, rfl⟩, ⟨(hn _).2.2.2.1, (hn _).2.2.2.2, rfl⟩⟩,
    ⟨formP0 sV, .minu, 2 ^ 32 - 1, fun x y => min x y, .inl rfl, by decide +kernel, rfl⟩⟩
  · rw [(hn _).1, (hn _).2.2.1]; decide

theorem wit_VPermutations :
    (∃ i s form x a b s1 s2 t, vPerms i = some (form, x) ∧ (State.str s .v).holds x.pred = true ∧
      BanksOk [x.a, x.b, x.d] s ∧ TakesV (form s).w x.a s a s1 ∧ TakesV (form s).w x.b s1 b s2 ∧
      let m := form s
      PutsV m.w m.act x.d s2 ((elemRange m).map fun e => elem m.w a (elem m.w b e % (2048 / m.w))) t) ∧
    (∃ i s form x a s1 t, vBcasts i = some (form, x) ∧ (State.str s .v).holds x.pred = true ∧
      BanksOk [x.a, x.d] s ∧ TakesV (form s).w x.a s a s1 ∧
      let m := form s
      PutsV m.w m.act x.d s1 ((elemRange m).map fun _ => elem m.w a x.idx.val) t) ∧
    (∃ i s form x t, vIotas i = some (form, x) ∧ (State.str s .v).holds x.pred = true ∧ BanksOk [x.d] s ∧
      let m := form s
      PutsV m.w m.act x.d s ((elemRange m).map fun e => ((List.range e).countP fun j => (s.blk.mask x.vm).getLsbD j)) t) ∧
    (∃ i s form x a s1 n t, vExts i = some (form, x) ∧ (State.str s .v).holds x.pred = true ∧ BanksOk [x.a] s ∧
      TakesV (form s).w x.a s a s1 ∧ x.d = .port (.q n) ∧
      let m := form s
      Puts .v x.d s1 (BitVec.ofNat 64 (if m.act.getLsbD x.idx.val then elem m.w a x.idx.val else 0)) t) := by
  have k : ∀ n : Fin 64, sV.blk.holders[bankOf n] = .v := by decide +kernel
  exact ⟨⟨.vVpermW ⟨pT, .reg 5, .reg 5, .port (.q 0)⟩ e16, sV, _, _, _, _, _, _, _, rfl, by decide +kernel, banks_v _,
      ⟨k 5, by decide +kernel, rfl, rfl⟩, ⟨_, _, rfl, rfl, rfl⟩, ⟨k 5, by decide +kernel, rfl⟩⟩,
    ⟨.vVbcast ⟨pT, .reg 7, .port (.vq 0), 63⟩, sV, _, _, _, _, _, rfl, by decide +kernel, banks_v _, ⟨_, rfl, rfl⟩,
      ⟨k 7, by decide +kernel, rfl⟩⟩,
    ⟨.vViotaP1 ⟨pT, .reg 0, 1⟩, sV, _, _, _, rfl, by decide +kernel, banks_v _, ⟨k 0, by decide +kernel, rfl⟩⟩,
    ⟨.vVextW ⟨pT, .port (.q 3), .reg 5, 127⟩ e16, sV, _, _, _, _, 3, _, rfl, by decide +kernel, banks_v _,
      ⟨k 5, by decide +kernel, rfl, rfl⟩, rfl, ⟨first_push (by decide +kernel), by decide +kernel, rfl⟩⟩⟩

/-- The value that `vpack` of two vectors of ones delivers to a stream of bf16. -/
def pk : (List Nat × List Byte) × NumSt :=
  packFmt 4 (formP0 sV) (elems 32 (sV.blk.v[5]) ++ elems 32 (sV.blk.v[5])) (numOf sV)

theorem wit_VPacking :
    (∃ i s form x f hq a b s1 s2 old s3 t, vPacks i = some (form, x, f, hq) ∧ (State.str s .v).holds x.pred = true ∧
      BanksOk [x.a, x.b, x.d] s ∧ TakesV 32 x.a s a s1 ∧ TakesV 32 x.b s1 b s2 ∧
      ((∃ n, x.d = .reg n ∧ TakesV 32 x.d s2 old s3) ∨
        (∃ n, x.d = .port (.vq n)) ∧ old = Vector.replicate 64 0 ∧ s3 = s2) ∧
      let m := form s
      let w := fmtBits f
      let r := packFmt f m (elems 32 a ++ elems 32 b) (numOf s3)
      PutsImg x.d (withNum s3 r.2) (ofElems w ((List.range (2048 / w)).map fun e =>
        if 128 * hq ≤ e ∧ e < 128 * hq + 128 ∧ m.act.getLsbD ((e - 128 * hq) % 64) then r.1.1[e - 128 * hq]?.getD 0
        else elem w old e)) t) ∧
    (∃ i s form x f hq a b s1 s2 g t, vPacks i = some (form, x, f, hq) ∧ (State.str s .v).holds x.pred = true ∧
      BanksOk [x.a, x.b] s ∧ x.d = .port (.g g) ∧ TakesV 32 x.a s a s1 ∧ TakesV 32 x.b s1 b s2 ∧
      let m := form s
      let y := s2.blk.streams[g]
      (y.format ≠ 2 ∧ y.format ≠ 3 ∧ y.format < 11 ∧ y.vbytes = 16 * fmtBits y.format) ∧
      let r := packFmt y.format m (elems 32 a ++ elems 32 b) (numOf s2)
      appendStream .v g (packCodes (fmtBits y.format) r.1.1) r.1.2 (withNum s2 r.2) = .ok ((), t)) ∧
    (∃ (f : Nat) (g : Fmt) (l : List Nat), f < 9 ∧ codeFmt f = some g ∧ l.length = 128) ∧
    (∃ i s form x f half f' n bs tbl s1 t, vUnpacks i = some (form, x, f, half) ∧ (State.str s .v).holds x.pred = true ∧
      BanksOk [x.a, x.d] s ∧
      ((∃ v, (∀ g, x.a ≠ .port (.g g)) ∧ TakesV 32 x.a s v s1 ∧ f' = f ∧ n = 256 ∧ bs = vecBytes v ∧
          tbl = Vector.replicate 16 0) ∨
        (∃ g, x.a = .port (.g g) ∧ readStream .v g x.keep s = .ok (bs, s1) ∧ f' = (s.blk.streams[g]).format ∧
          n = (s.blk.streams[g]).vbytes ∧ tbl = (s.blk.cts[(s.blk.streams[g]).ct]).live)) ∧
      (half && codeInt f') = false ∧
      let m := form s
      let k := 2048 / m.w
      let c := x.chunk.val
      let w := fmtBits f'
      (w * (k * c + k) ≤ 8 * n ∧ n ≤ bs.length) ∧
      let sb := scaleBytes f'
      let v := formatValues f' (m.ctl.ftz && !codeInt f') tbl ((bs.drop (k * c * w / 8)).take (k * w / 8))
        ((bs.drop (256 + k / 32 * sb * c)).take (k / 32 * sb))
      let s2 := if v.2 then { s1 with blk := s1.blk.setSt stFMT } else s1
      let r := inOrder m.act (fun e => unpkOne (codeInt f') m (e * m.w / 32) (v.1[e]?.getD .nan)) (elemRange m) (numOf s2)
      PutsV m.w m.act x.d (withNum s2 r.2) r.1 t) := by
  have k : ∀ n : Fin 64, sV.blk.holders[bankOf n] = .v := by decide +kernel
  have hk : ∀ n : Fin 64, ∀ z : NumSt, (withNum sV z).blk.holders[bankOf n] = .v ∧
      (withNum sV z).blk.pending .v (.reg n) = false := fun n z => ⟨k n, rfl⟩
  have ha : appendStream .v 1 (packCodes 16 pk.1.1) pk.1.2 (withNum sV pk.2) = .ok ((), _) := ok_unit sA (by decide +kernel)
  refine ⟨⟨.vVpackW ⟨pT, .reg 7, .reg 5, .reg 5⟩ ⟨.t32, false, .rne, false, false, 1⟩ ⟨6, true, 1⟩, sV, _, _, _, _, _, _, _, _,
      _, _, _, rfl, by decide +kernel, banks_v _, ⟨k 5, by decide +kernel, rfl, rfl⟩, ⟨k 5, by decide +kernel, rfl, rfl⟩,
      .inl ⟨7, rfl, k 7, by decide +kernel, rfl, rfl⟩, ⟨(hk 7 _).1, (hk 7 _).2, rfl⟩⟩,
    ⟨.vVpack ⟨pT, .port (.g 1), .reg 5, .reg 5⟩, sV, _, _, _, _, _, _, _, _, 1, _, rfl, by decide +kernel, banks_v _, rfl,
      ⟨k 5, by decide +kernel, rfl, rfl⟩, ⟨k 5, by decide +kernel, rfl, rfl⟩, by decide +kernel, ha⟩,
    ⟨8, .e2m1, List.replicate 128 0, by decide, rfl, by simp⟩, ?_⟩
  have hr : readStream .v 0 true sV = .ok (_, endOf (readStream .v 0 true sV) sA) := ok_of_answers [] sA (by decide +kernel)
  have hs : ∀ (b : Bool) (z : NumSt), (withNum (if b then { endOf (readStream .v 0 true sV) sA with
      blk := (endOf (readStream .v 0 true sV) sA).blk.setSt stFMT } else endOf (readStream .v 0 true sV) sA) z).blk.holders[bankOf 7] = .v ∧
      (withNum (if b then { endOf (readStream .v 0 true sV) sA with
      blk := (endOf (readStream .v 0 true sV) sA).blk.setSt stFMT } else endOf (readStream .v 0 true sV) sA) z).blk.pending .v (.reg 7) = false := by
    have h : (endOf (readStream .v 0 true sV) sA).blk.holders[bankOf 7] = .v ∧
        (endOf (readStream .v 0 true sV) sA).blk.inflight = [] := by decide +kernel
    generalize endOf (readStream .v 0 true sV) sA = t at h
    intro b z
    cases b <;> exact ⟨h.1, by unfold Block.pending; simp [withNum, Block.setSt, h.2]⟩
  exact ⟨.vVunpk ⟨pT, .reg 7, .port (.g 0), 3, true⟩, sV, _, _, _, _, _, _, _, _, _, _, rfl, by decide +kernel, banks_v _,
    .inr ⟨0, rfl, hr, rfl, rfl, rfl⟩, by decide +kernel, ⟨by decide +kernel, by decide +kernel⟩, ⟨(hs _ _).1, (hs _ _).2, rfl⟩⟩

/-- Vector memory accesses: v6 names the own slice, queue 0 holds 0x11000, queue 1 an address with an empty mask beside it, and
queue 2 an address that the map does not have. -/
def sL : State :=
  let s := withBlk 0 fun b =>
    { b with q := ((b.q.set 0 [0x11000]).set 1 [0x11020]).set 2 [0x900000],
             v := b.v.set 6 ((Vector.replicate 64 (0 : Word)).set 1 0x00F00000), vm := b.vm.set 1 0x9 }
  { s with hub := { s.hub with partdies := s.hub.partdies.set 0 0x00010001 } }

/-- A wide form on 32-bit elements under mask `k`. -/
def e32 (k : Fin 8) : VExt := ⟨.t32, false, .rne, false, false, k⟩

theorem banks_l (l : List Opd) : BanksOk l sL := by
  have k : ∀ n : Fin 64, sL.blk.holders[bankOf n] = .v := by decide +kernel
  intro o _
  cases o with
  | reg n => exact k n
  | port p => trivial

theorem plain_l : PlainMap sL := by unfold PlainMap; decide +kernel

/-- The addresses of a form on 32-bit elements under mask 1 from a base. -/
def fromL (a : Nat) : List Nat := (elemRange (formW (e32 1) sL)).map fun e => (a + e * 4) % 2 ^ 64

theorem from_l {a : Nat} {s : State} (h : a % 4 = 0) : Addresses (formW (e32 1) sL) a none s (fromL a) s := ⟨h, rfl, rfl⟩

/-- A base in a queue. -/
theorem base_l {n : Fin 16} {x : Dword} (h : sL.blk.q[n] = [x]) :
    TakesBase (.port (.q n)) sL x.toNat (popped sL n []) := ⟨x, ⟨[], h, rfl⟩, rfl⟩

/-- What a load reads, once for each address. -/
def keysL (m : VForm) (l : List Nat) (s : State) : List LoadKey :=
  ((m.active l).map fun y => m.key s.blk.scout y.1 y.2).eraseDups

/-- The values of a store with their addresses. -/
def pairsL (m : VForm) (l : List Nat) (v : VReg) : List (Nat × Nat) := l.zip ((elemRange m).map fun e => elem m.w v e)

/-- Loads from the own slice, through flight, and with faults; stores, with faults and without. -/
theorem wit_VMemory :
    (∃ i s form p d a b off a0 s1 ea l s2 s3 r s4, vMems i = some (false, form, p, d, a, b, off) ∧
      (State.str s .v).holds p = true ∧ RoundAdmits s (s.str .v).pfx.order ∧ BanksOk (d :: a :: b.toList) s ∧
      TakesBase a s a0 s1 ∧ ea = (((a0 : Int) + off) % 2 ^ 64).toNat ∧ Addresses (form s) ea b s1 l s2 ∧
      s3 = acquired .v (a :: b.toList) s2 ∧
      tryEach (loadElem (form s)) (keysL (form s) l s3) { s3 with corrected := some [] } = .ok (r, s4) ∧
      trapsOf (loadElem (form s)) (keysL (form s) l s3) { s3 with corrected := some [] } ≠ []) ∧
    (∃ i s form p d a b off a0 s1 ea l s2 got s4 s5 t, vMems i = some (false, form, p, d, a, b, off) ∧
      (State.str s .v).holds p = true ∧ RoundAdmits s (s.str .v).pfx.order ∧ BanksOk (d :: a :: b.toList) s ∧
      TakesBase a s a0 s1 ∧ ea = (((a0 : Int) + off) % 2 ^ 64).toNat ∧ Addresses (form s) ea b s1 l s2 ∧
      loadElems (form s) l (acquired .v (a :: b.toList) s2) = .ok (got, s4) ∧
      s5 = orderedAll (loadOrder (s.str .v).pfx.order) (got.filterMap fun y => y.2.2) ((form s).w / 8) s4 ∧
      (∀ q ∈ got.filterMap fun y => y.2.2, s5.ownSlice q = true) ∧
      PutsV (form s).w (form s).act d s5 ((form s).loaded s5.blk.scout l got) t) ∧
    (∃ i s form p d a b off a0 s1 ea l s2 got s4 s5 r t, vMems i = some (false, form, p, d, a, b, off) ∧
      (State.str s .v).holds p = true ∧ RoundAdmits s (s.str .v).pfx.order ∧ BanksOk (d :: a :: b.toList) s ∧
      TakesBase a s a0 s1 ∧ ea = (((a0 : Int) + off) % 2 ^ 64).toNat ∧ Addresses (form s) ea b s1 l s2 ∧
      loadElems (form s) l (acquired .v (a :: b.toList) s2) = .ok (got, s4) ∧
      s5 = orderedAll (loadOrder (s.str .v).pfx.order) (got.filterMap fun y => y.2.2) ((form s).w / 8) s4 ∧
      (∃ q ∈ got.filterMap fun y => y.2.2, s5.ownSlice q = false) ∧
      r = readFlies .v (s.str .v).pfx.order ((form s).w / 8) ((form s).lateParts s5 l got) s5 ∧
      FliesV (form s) d r.1 r.2 ((form s).loaded s5.blk.scout l got) t) ∧
    (∃ i s form p d a b off a0 s1 ea l s2 v s3 s4 r s5, vMems i = some (true, form, p, d, a, b, off) ∧
      (State.str s .v).holds p = true ∧ RoundAdmits s (s.str .v).pfx.order ∧ BanksOk (d :: a :: b.toList) s ∧
      TakesBase a s a0 s1 ∧ ea = (((a0 : Int) + off) % 2 ^ 64).toNat ∧ Addresses (form s) ea b s1 l s2 ∧
      TakesV (form s).w d s2 v s3 ∧ s4 = acquired .v (a :: b.toList ++ [d]) s3 ∧
      tryEach (storeElem (form s)) ((form s).active (pairsL (form s) l v)) s4 = .ok (r, s5) ∧
      trapsOf (storeElem (form s)) ((form s).active (pairsL (form s) l v)) s4 ≠ []) ∧
    (∃ i s form p d a b off a0 s1 ea l s2 v s3 qs t, vMems i = some (true, form, p, d, a, b, off) ∧
      (State.str s .v).holds p = true ∧ RoundAdmits s (s.str .v).pfx.order ∧ BanksOk (d :: a :: b.toList) s ∧
      TakesBase a s a0 s1 ∧ ea = (((a0 : Int) + off) % 2 ^ 64).toNat ∧ Addresses (form s) ea b s1 l s2 ∧
      TakesV (form s).w d s2 v s3 ∧
      storeElems (form s) (pairsL (form s) l v) (acquired .v (a :: b.toList ++ [d]) s3) = .ok (qs, t) ∧ PlainMap s) := by
  have k : ∀ n : Fin 64, sL.blk.holders[bankOf n] = .v := by decide +kernel
  have r : RoundAdmits sL (sL.str .v).pfx.order := .inl (by decide +kernel)
  have noOrder : ∀ ps n s, orderedAll (loadOrder (sL.str .v).pfx.order) ps n s = s := fun ps n s => by
    have : ((loadOrder (sL.str .v).pfx.order).acq || (loadOrder (sL.str .v).pfx.order).rel) = false := by decide +kernel
    unfold orderedAll; rw [this]; rfl
  refine ⟨?_, ?_, ?_, ?_, ?_⟩
  · obtain ⟨y, t, h, _⟩ := ok_with (x := tryEach (loadElem (formW (e32 1) sL)) (keysL (formW (e32 1) sL) (fromL 0x900000)
      (acquired .v [.port (.q 2)] (popped sL 2 []))) { acquired .v [.port (.q 2)] (popped sL 2 []) with corrected := some [] })
      (fun _ _ => true) (by decide +kernel)
    exact ⟨.vVldW ⟨pT, .reg 7, .port (.q 2)⟩ (e32 1) 0, sL, _, _, _, _, _, _, 0x900000, popped sL 2 [],
      0x900000, fromL 0x900000, popped sL 2 [], _, y, t, rfl, by decide +kernel, r, banks_l _, base_l (x := 0x900000) (by decide +kernel),
      by decide +kernel, from_l (by decide), rfl, h, by decide +kernel⟩
  · obtain ⟨got, t, h, hp⟩ := ok_with (x := loadElems (formW (e32 1) sL) (fromL 0x00F0000000000000) (acquired .v [.reg 6] sL))
        (fun a t => ((a.filterMap fun y => y.2.2).all fun q => t.ownSlice q) && decide (t.blk.holders[bankOf 7] = .v) &&
        !t.blk.pending .v (.reg 7)) (by decide +kernel)
    simp only [Bool.and_eq_true, decide_eq_true_eq, Bool.not_eq_true', List.all_eq_true] at hp
    exact ⟨.vVldW ⟨pT, .reg 7, .reg 6⟩ (e32 1) 0, sL, _, _, _, _, _, _, 0x00F0000000000000, sL,
      0x00F0000000000000, fromL 0x00F0000000000000, sL, got, t, t, _, rfl, by decide +kernel, r, banks_l _,
      ⟨_, ⟨k 6, by decide +kernel, rfl, rfl⟩, by decide +kernel⟩, by decide +kernel, from_l (by decide), h, (noOrder _ _ _).symm,
      hp.1.1, ⟨hp.1.2, hp.2, rfl⟩⟩
  · obtain ⟨got, t, h, hp⟩ := ok_with (x := loadElems (formW (e32 1) sL) (fromL 0x10FFC)
        (acquired .v [.port (.q 0)] (popped sL 0 [])))
        (fun a t => ((a.filterMap fun y => y.2.2).any fun q => !t.ownSlice q) && t.blk.inflight.isEmpty &&
          decide ((t.blk.vq[(0 : Fin 4)]).length + t.blk.inflightTo (.port (.vq 0)) < 4) &&
          decide (t.blk.scout.round = .closed)) (by decide +kernel)
    simp only [Bool.and_eq_true, decide_eq_true_eq, Bool.not_eq_true', List.any_eq_true, List.isEmpty_iff] at hp
    exact ⟨.vVldW ⟨pT, .port (.vq 0), .port (.q 0)⟩ (e32 1) 0xFFFC, sL, _, _, _, _, _, _, 0x11000,
      popped sL 0 [], 0x10FFC, fromL 0x10FFC, popped sL 0 [], got, t, t, (some t.nextOld, { t with
        nextOld := t.nextOld + 1,
        lates := ⟨t.nextOld, .strand t.blk.uid .v, 4, (formW (e32 1) sL).lateParts t (fromL 0x10FFC) got⟩ :: t.lates }), _, rfl,
      by decide +kernel, r, banks_l _, base_l (x := 0x11000) (by decide +kernel), by decide +kernel, from_l (by decide), h,
      (noOrder _ _ _).symm, hp.1.1.1, by
        have ho : (sL.str .v).pfx.order.acq = false := by decide +kernel
        unfold readFlies
        rw [if_neg]
        · rfl
        · rw [hp.2, ho]; decide,
      ⟨first_push hp.1.1.2, hp.1.2, rfl⟩⟩
  · obtain ⟨y, t, h, _⟩ := ok_with (x := tryEach (storeElem (formW (e32 1) sL)) ((formW (e32 1) sL).active
      (pairsL (formW (e32 1) sL) (fromL 0x900000) ((popped sL 2 []).blk.v[7]))) (acquired .v [.port (.q 2), .reg 7] (popped sL 2 [])))
      (fun _ _ => true) (by decide +kernel)
    exact ⟨.vVstW ⟨pT, .reg 7, .port (.q 2)⟩ (e32 1) 0, sL, _, _, _, _, _, _, 0x900000, popped sL 2 [],
      0x900000, fromL 0x900000, popped sL 2 [], _, _, _, y, t, rfl, by decide +kernel, r, banks_l _, base_l (x := 0x900000) (by decide +kernel),
      by decide +kernel, from_l (by decide), ⟨k 7, by decide +kernel, rfl, rfl⟩, rfl, h, by decide +kernel⟩
  · exact ⟨.vVstxW ⟨pT, .reg 7, .port (.q 0), .reg 5⟩ (e32 1) 4, sL, _, _, _, _, _, _, 0x11000, _, _, _, _, _, _, _, _, rfl,
      by decide +kernel, r, banks_l _, ⟨_, ⟨_, rfl, rfl⟩, by decide +kernel⟩, rfl,
      ⟨_, ⟨k 5, by decide +kernel, rfl, rfl⟩, rfl⟩, ⟨k 7, by decide +kernel, rfl, rfl⟩,
      ok_of_answers [] sL (by decide +kernel), plain_l⟩

theorem wit_VStoreSkips : ∃ i s t form p d a b off, vMems i = some (true, form, p, d, a, b, off) ∧
    (State.str s .v).holds p = false ∧ exec i s = .next t := by
  obtain ⟨t, h⟩ := next_of (.vVstW ⟨pF, .reg 7, .reg 6⟩ (e32 1) 0) sL (by decide +kernel)
  exact ⟨_, sL, t, _, _, _, _, _, _, rfl, by decide +kernel, h⟩

theorem wit_VAtomic :
    (∃ i s form x op off a0 s1 b s2 g, vAmos i = some (form, x, op, off) ∧ (State.str s .v).holds x.pred = true ∧
      s.blk.scout.round = .closed ∧ BanksOk [x.d, x.a, x.b] s ∧ TakesBase x.a s a0 s1 ∧ TakesV (form s).w x.b s1 b s2 ∧
      (((a0 : Int) + off) % 2 ^ 64).toNat % 32 = 0 ∧ x.d = .port (.g g) ∧
      s2.toCome .a (aSets g.val) (s2.str .v).pc.toNat = false ∧ (s2.blk.streams[g]).out = false) ∧
    (∃ i s form x op off a0 s1 b s2 s2' old q r s3, vAmos i = some (form, x, op, off) ∧ (State.str s .v).holds x.pred = true ∧
      s.blk.scout.round = .closed ∧ BanksOk [x.d, x.a, x.b] s ∧ TakesBase x.a s a0 s1 ∧ TakesV (form s).w x.b s1 b s2 ∧
      let m := form s
      let ea := (((a0 : Int) + off) % 2 ^ 64).toNat
      ea % 32 = 0 ∧ AmoReady x.d s2 s2' ∧
      amoElems m op ea 0 ((List.range (256 / m.w)).map fun e => elem m.w b e) (acquired .v [x.a, x.b] s2') =
        .ok ((old, q :: r), s3) ∧ PlainMap s) ∧
    (∃ i s form x op off a0 s1 b s2 s2' old s3 t n, vAmos i = some (form, x, op, off) ∧ (State.str s .v).holds x.pred = true ∧
      s.blk.scout.round = .closed ∧ BanksOk [x.d, x.a, x.b] s ∧ TakesBase x.a s a0 s1 ∧ TakesV (form s).w x.b s1 b s2 ∧
      let m := form s
      let ea := (((a0 : Int) + off) % 2 ^ 64).toNat
      ea % 32 = 0 ∧ AmoReady x.d s2 s2' ∧
      amoElems m op ea 0 ((List.range (256 / m.w)).map fun e => elem m.w b e) (acquired .v [x.a, x.b] s2') =
        .ok ((old, []), s3) ∧ x.d = .reg n ∧
      PutsV m.w (m.act ||| (BitVec.allOnes 256 <<< (256 / m.w))) x.d s3 [] t) := by
  have k : ∀ n : Fin 64, sL.blk.holders[bankOf n] = .v := by decide +kernel
  refine ⟨⟨.vVamoW ⟨pT, .port (.g 0), .port (.q 0), .reg 5⟩ (e32 1) .add 0, sL, _, _, _, _, 0x11000, popped sL 0 [],
    (popped sL 0 []).blk.v[5], popped sL 0 [], 0, rfl, by decide +kernel, rfl, banks_l _,
    base_l (x := 0x11000) (by decide +kernel), ⟨k 5, by decide +kernel, rfl, rfl⟩, by decide +kernel, rfl, by decide +kernel,
    by decide +kernel⟩, ?_, ?_⟩
  · obtain ⟨old, q, r, t, h⟩ := ok_cons (x := amoElems (formW (e32 1) sL) .add 0x11000 0
      ((List.range (256 / (formW (e32 1) sL).w)).map fun e => elem (formW (e32 1) sL).w ((popped sL 0 []).blk.v[5]) e)
      (acquired .v [.port (.q 0), .reg 5] (popped sL 0 []))) (by decide +kernel)
    exact ⟨.vVamoW ⟨pT, .reg 7, .port (.q 0), .reg 5⟩ (e32 1) .add 0, sL, _, _, _, _, 0x11000, popped sL 0 [],
      (popped sL 0 []).blk.v[5], popped sL 0 [], popped sL 0 [], old, q, r, t, rfl, by decide +kernel, rfl, banks_l _,
      base_l (x := 0x11000) (by decide +kernel), ⟨k 5, by decide +kernel, rfl, rfl⟩, by decide +kernel,
      ⟨by decide +kernel, rfl⟩, h, plain_l⟩
  · obtain ⟨⟨old, ps⟩, t, h, hp⟩ := ok_with (x := amoElems (formW (e32 2) sL) .add 0x11020 0
      ((List.range (256 / (formW (e32 2) sL).w)).map fun e => elem (formW (e32 2) sL).w (sL.blk.v[5]) e)
      (acquired .v [.port (.q 1), .reg 5] (popped sL 1 []))) (fun a t => a.2.isEmpty &&
        decide (t.blk.holders[bankOf 7] = .v) && !t.blk.pending .v (.reg 7)) (by decide +kernel)
    simp only [Bool.and_eq_true, decide_eq_true_eq, Bool.not_eq_true', List.isEmpty_iff] at hp
    match ps, h, hp with
    | [], h, hp =>
      exact ⟨.vVamoW ⟨pT, .reg 7, .port (.q 1), .reg 5⟩ (e32 2) .add 0, sL, _, _, _, _, 0x11020, _, _, _, _, old, t, _, 7, rfl,
        by decide +kernel, rfl, banks_l _, ⟨_, ⟨_, rfl, rfl⟩, by decide +kernel⟩, ⟨k 5, by decide +kernel, rfl, rfl⟩,
        by decide +kernel, ⟨by decide +kernel, rfl⟩, h, rfl, ⟨hp.1.2, hp.2, rfl⟩⟩

theorem wit_VSpecials :
    (∃ m : Nat, m ≠ 0) ∧
    (∃ (m : Nat) (e : Int), m ≠ 0 ∧ -160 ≤ e ∧ (m : ℝ) * (2 : ℝ) ^ e < 2048) ∧
    (∃ (m : Nat) (e : Int), 2048 ≤ (m : ℝ) * (2 : ℝ) ^ e) ∧
    (∃ m : Nat, m ≠ 0 ∧ m < 2 ^ 64) ∧ (∃ n j : Nat, j ≠ 0 ∧ n = 2047) ∧ ∃ m k : Nat, k ≠ 0 ∧ m * 2 ^ k < 2048 :=
  ⟨⟨3, by decide⟩, ⟨2047, 0, by decide, by decide, by norm_num⟩, ⟨2048, 0, by norm_num⟩, ⟨2 ^ 64 - 1, by decide, by decide⟩,
    ⟨2047, 3, by decide, rfl⟩, ⟨1023, 1, by decide, by decide⟩⟩

/-! ## The hub, the dies and the driver -/

/-- The module with function 0 assigned to a partition that holds quad 0 of die 0, and one context register slot changed. -/
def sB (f : Ctx → Ctx) : State :=
  let s := base 0
  ({ s with
    hub := { s.hub with partdies := s.hub.partdies.set 0 1, vfpart := s.hub.vfpart.set 0 0x20 } }).modCtx 0 f

/-- A task of context 0 on die 0. -/
def tk (key : Nat) : Task :=
  { key := key, ctx := 0, src := .block 1, pkt := { packetOf [] with blocks := 1, image := 0x10200 }, xfer := none,
    groups := [], rings := [], strms := [], held := [0], want := [], entered := 0, est := 0, doneIdx := [], drains := [],
    sees := none, clock := Vector.replicate 10 0 }

/-- A context with a second region, on whose granule a mark stands, where queue 0 writes its completions. -/
def sStall (f : State → State) : State :=
  let s := (sB fun c => { c with mapn := 2, regions := 2, store := [fetchEntry 0, oneGranule 0x50000 0 7],
                                 marks := [⟨1, 0, some 0x30000⟩] }).modLq 0 0 fun q => { q with cbase := 0x50000 }
  f s

/-- A task of queue 0. -/
def tkH (key : Nat) : Task := { tk key with src := .host 0 0 }

/-- A strand that stopped at its second line's first instruction. -/
def stopped : StopRec :=
  { cause := 0, pc := 0x10004, caddr := 0x10004, faddr := 0, aux := 0, sub := 0, cidx := 0, precise := true, written := [] }

theorem wit_ContextControl :
    (∃ (s : State) (f : Fin 64) (k : Fin 16), s.vfFenced f.val = false ∧ (s.ctxAt (16 * f.val + k.val)).valid = true ∧
      (s.ctxAt (16 * f.val + k.val)).st = 0 ∧ (s.ctxAt (16 * f.val + k.val)).changing = true) ∧
    (∃ (s : State) (f : Fin 64) (k : Fin 16), s.vfFenced f.val = false ∧ (s.ctxAt (16 * f.val + k.val)).st = 2 ∧
      ∀ b ∈ s.liveBlocks (16 * f.val + k.val), (s.modCtx (16 * f.val + k.val) fun c => { c with cmd := 0 }).mayResume b = true) ∧
    (∃ (s : State) (f : Fin 64) (k : Fin 16), s.vfFenced f.val = false ∧ (s.ctxAt (16 * f.val + k.val)).st = 2 ∧
      ∃ b ∈ s.liveBlocks (16 * f.val + k.val), (s.modCtx (16 * f.val + k.val) fun c => { c with cmd := 0 }).mayResume b = false) ∧
    (∃ (s : State) (f : Fin 64) (k : Fin 16), s.vfFenced f.val = false ∧ (s.ctxAt (16 * f.val + k.val)).st ≠ 2) ∧
    (∃ (s : State) (f : Fin 64) (k : Fin 16), s.vfFenced f.val = false ∧ (s.ctxAt (16 * f.val + k.val)).st = 2 ∧
      ((s.modCtx (16 * f.val + k.val) fun c => { c with cmd := 0 }).abortCtx (16 * f.val + k.val)).isSome = true) ∧
    (∃ (s : State) (f : Fin 64) (k : Fin 16), s.vfFenced f.val = false ∧ (s.ctxAt (16 * f.val + k.val)).st = 2 ∧
      ((s.modCtx (16 * f.val + k.val) fun c => { c with cmd := 0 }).abortCtx (16 * f.val + k.val)).isSome = false) ∧
    (∃ (s : State) (f : Fin 64) (k : Fin 16) (x : Task), s.vfFenced f.val = false ∧
      (s.ctxAt (16 * f.val + k.val)).changing = false ∧ (s.ctxAt (16 * f.val + k.val)).cmd = 4 ∧
      (s.tasks.find? fun t => t.ctx == 16 * f.val + k.val && t.pkt.taskid == (s.ctxAt (16 * f.val + k.val)).arg) = some x ∧
      ((s.modCtx (16 * f.val + k.val) fun c => { c with cmd := 0 }).endTasks [x] 0x80).isSome = true) ∧
    (∃ (s : State) (f : Fin 64) (k : Fin 16) (x : Task), s.vfFenced f.val = false ∧
      (s.ctxAt (16 * f.val + k.val)).changing = false ∧ (s.ctxAt (16 * f.val + k.val)).cmd = 4 ∧
      (s.tasks.find? fun t => t.ctx == 16 * f.val + k.val && t.pkt.taskid == (s.ctxAt (16 * f.val + k.val)).arg) = some x ∧
      ((s.modCtx (16 * f.val + k.val) fun c => { c with cmd := 0 }).endTasks [x] 0x80).isSome = false) ∧
    (∃ (s : State) (f : Fin 64) (k : Fin 16), s.vfFenced f.val = false ∧ (s.ctxAt (16 * f.val + k.val)).valid = false) ∧
    (∃ (s : State) (f : Fin 64) (k : Fin 16), s.vfFenced f.val = false ∧ (s.ctxAt (16 * f.val + k.val)).valid = true ∧
      (∀ t ∈ s.tasks, t.ctx = 16 * f.val + k.val → t.held = []) ∧ s.liveBlocks (16 * f.val + k.val) = []) ∧
    (∃ (s : State) (e : Eng) (r : StopRec) (b : Back), (s.str e).stop = some r ∧ (s.str e).finished = false ∧ b.pc = r.pc ∧
      b.skip = false ∧ r.cause ≠ 0x39) :=
  ⟨⟨sB fun c => { c with change := some (chg 1) }, 0, 0, by decide +kernel⟩,
   ⟨sB fun c => { c with st := 2 }, 0, 0, by decide +kernel⟩,
   ⟨(sB fun c => { c with st := 2 }).modStr .c fun st => { st with stop := some stopped }, 0, 0, by decide +kernel⟩,
   ⟨sB fun c => { c with st := 1 }, 0, 0, by decide +kernel⟩,
   ⟨sStall fun s => { s.modCtx 0 fun c => { c with st := 2 } with tasks := [tk 9] }, 0, 0, by decide +kernel⟩,
   ⟨sStall fun s => { s.modCtx 0 fun c => { c with st := 2 } with tasks := [tkH 9] }, 0, 0, by decide +kernel⟩,
   ⟨{ sB fun c => { c with cmd := 4 } with tasks := [tkH 9] }, 0, 0, tkH 9, by decide +kernel⟩,
   ⟨sStall fun s => { s.modCtx 0 fun c => { c with cmd := 4 } with tasks := [tkH 9] }, 0, 0, tkH 9, by decide +kernel⟩,
   ⟨sB id, 63, 15, by decide +kernel⟩,
   ⟨(sB id).modCtx 1023 fun c => { c with valid := true }, 63, 15, by decide +kernel⟩,
   ⟨(sB id).modStr .c fun st => { st with stop := some stopped }, .c, stopped, ⟨0x10004, false⟩, by decide +kernel⟩⟩

/-- An event for function 63. -/
def ev : Event := { vf := 63, typ := 1, cause := 0, die := 0, core := 0, ctx := 0, addr := 0, aux := 0, time := 0 }

/-- That event held by each H-die, and buffered at die 7. -/
def sR : State :=
  { base 0 with
    vfs := (base 0).vfs.set 63 { (base 0).vfs[63] with even := true, evlog := 4, evtail := 16 },
    hdies := Vector.replicate 2 { held := [ev], spdm := .start, response := [], clock := 0 },
    dies := (base 0).dies.set 7 { (base 0).dies[7] with evbuf := [ev] } }

theorem wit_EventRings :
    (∃ (s : State) (f : Fin 64), s.vfFenced f.val = false ∧ (∀ e ∈ (s.hdies[hdieFor f.val]).held, e.vf ≠ f.val)) ∧
    (∃ (s : State) (f : Fin 64) (val : Dword) (e : Event), s.vfFenced f.val = false ∧
      (s.hdies[hdieFor f.val]).held = [e] ∧ e.vf = f.val ∧
      let t := s.modVf f.val fun v => { v with evhead := val.setWidth 32 }
      (t.vfs[f]).even = true ∧ ((t.vfs[f]).evtail - (t.vfs[f]).evhead).toNat < 2 ^ (t.vfs[f]).evlog.toNat) ∧
    (∃ (s : State) (die : Fin 8) (e : Event) (t : State), (s.dies[die]).evbuf = [e] ∧ s.hubTake e = some t ∧
      (t.dies[die]).coal = 0) ∧
    (∃ (s : State) (die : Fin 8), (s.dies[die]).evbuf = [] ∧ (s.dies[die]).coal = 0) := by
  have h0 : ∀ h : Fin 2, ((base 0).hdies[h]).held = [] := by decide +kernel
  have h1 : ∀ h : Fin 2, (sR.hdies[h]).held = [ev] := by decide +kernel
  have h2 : (sR.dies[7]).evbuf = [ev] := by decide +kernel
  have h3 : (sR.dies[7]).coal = 0 := by decide +kernel
  refine ⟨⟨base 0, 63, by decide +kernel, by rw [h0]; simp⟩,
    ⟨sR, 63, 1, ev, by decide +kernel, h1 _, rfl, by decide +kernel, by decide +kernel⟩, ?_,
    ⟨sR, 0, by decide +kernel, by decide +kernel⟩⟩
  refine ⟨sR, 7, ev, ?_, h2, ?_, ?_⟩
  · exact { sR with hdies := sR.hdies.set (hdieFor 63) { sR.hdies[hdieFor 63] with held := (sR.hdies[hdieFor 63]).held ++ [ev] } }
  · unfold State.hubTake
    simp only [show hdieFor ev.vf = hdieFor 63 from rfl, h1]
    rw [if_neg (by decide), if_pos (by decide)]
  · exact h3

/-- A launch packet at 0x10080 for one block on die 0 whose chains start at line 0; zeros at 0x10000. -/
def sK2 (head : Word) : State :=
  let s := (sB id).modLq 0 0 fun q => { q with base := 0x10000, en := true, head := head, tail := 16 }
  { s with mem := Mem.write [] 0x10080 (leBytes 8 77 ++ leBytes 4 1 ++ leBytes 4 1 ++ leBytes 8 0x10200) }

/-- Tasks that move 64 bytes, of a block and of a queue. -/
def mv : Xfer := ⟨0x11000, 0x10000, 64, 1, 0, 0, 0⟩
def tX : Task := { tk 9 with xfer := some mv }
def tY : Task := { tkH 9 with xfer := some mv }

/-- With tasks, and with one that waits; the block in focus has completed. -/
def sT2 : State :=
  let s := sB id
  { s with
    tasks := [{ tk 9 with want := [1], pkt := { (tk 9).pkt with blocks := 2 } }, { tk 8 with doneIdx := [5], pkt := { (tk 8).pkt with blocks := 2 } }],
    waiting := [{ tk 7 with src := .host 0 0, held := [], want := [0] }],
    blk := { s.blk with task := 9, strands := Vector.replicate 6 { Strand.reset with finished := true } } }

def sT3 : State := { sT2 with blk := { sT2.blk with task := 8 } }

/-- The last block of a queue's task, whose completion entry stalls. -/
def sT4 : State := sStall fun s =>
  { s with tasks := [{ tkH 9 with pkt := { (tk 9).pkt with blocks := 1 } }], blk := sT2.blk }

/-- What is left of the module once the last block of a task has left its core. -/
def lastOut (s : State) (u : Nat) (b : Block) (k : Task) : Option State :=
  let k1 := { k with doneIdx := b.bidx.toNat :: k.doneIdx }
  ({ (s.learnFrom (.task b.task) u).removeBlock u with
     tasks := s.tasks.map fun x => if x.key = k.key then k1 else x } : State).endTask b k1 0

/-- A module with one task to place, and no block on any core. -/
def sPl : State :=
  { sB id with blk := { Block.reset 0 with uid := 0 }, tasks := [tk 9], nextUid := 5,
               cores := (sB id).cores.set 0 { (sB id).cores[0] with zeroed := true } }

/-- The reading of a queue's next packet. -/
def rdP (s : State) (f : Fin 64) (n : Fin 8) : Except Stop (PacketEnd × State) :=
  let q := s.lqAt f.val n.val
  let cx := 16 * f.val + q.ctx.val
  asHub cx (readPacket cx f.val n.val (q.base.toNat + q.head.toNat % 2 ^ q.log2n.toNat * 128))
    (s.modLq f.val n.val fun q => { q with head := q.head + 1 })

theorem good_of {x : Except Stop (PacketEnd × State)} (h : (match x with
    | .ok (.good _, _) => true
    | _ => false) = true) : ∃ k t, x = .ok (.good k, t) := by
  rcases x with _ | ⟨_ | _ | k, t⟩
  · cases h
  · cases h
  · cases h
  · exact ⟨k, t, rfl⟩

theorem refused_of {x : Except Stop (PacketEnd × State)} (h : (match x with
    | .ok (.refused _ _, _) => true
    | _ => false) = true) : ∃ i c t, x = .ok (.refused i c, t) := by
  rcases x with _ | ⟨_ | ⟨i, c⟩ | _, t⟩
  · cases h
  · cases h
  · exact ⟨i, c, t, rfl⟩
  · cases h

/-- What is left of the module once a task's transfer is done. -/
def xferOut (s u : State) (k : Task) (x : Xfer) (d : Nat) (c : Cmd) : Option State :=
  let b := k.agent (Fin.ofNat 8 d) (s.ctxPart k.ctx)
  ((u.xferRelease b k c).retireXfer k x).endTask b k 0

/-- A transfer to the granule on which a mark stands, and its task. -/
def mvMark : Xfer := { mv with dst := 0x50000 }
def tM : Task := { tk 9 with xfer := some mvMark }

/-- With that task, where a stall is late at once, or not yet. -/
def sXferMark (l : Bool) : State :=
  sStall fun s => { s with tasks := [tM] }.modCtx 0 fun c => { c with latelim := if l then 0 else 1 }

/-- A meaning that meets a mark. -/
theorem mark_with {α : Type} {x : Except Stop (α × State)} (p : Nat → Bool)
    (h : (match x with
      | .error (.mark va) => p va
      | _ => false) = true) : ∃ va, x = .error (.mark va) ∧ p va = true := by
  split at h
  · exact ⟨_, rfl, h⟩
  · cases h

theorem wit_Launching :
    (∃ (s : State) (f : Fin 64) (n : Fin 8) (val : Dword), s.vfFenced f.val = false ∧
      let q := tailed (s.lqAt f.val n.val) val
      (q.en = false ∨ (q.tail - q.head).toNat ≤ 2 ^ q.log2n.toNat)) ∧
    (∃ (s : State) (f : Fin 64) (n : Fin 8) (k : Task) (t : State), s.vfFenced f.val = false ∧
      let q := s.lqAt f.val n.val
      let cx := 16 * f.val + q.ctx.val
      q.en = true ∧ q.head ≠ q.tail ∧ (s.ctxAt cx).valid = true ∧ (s.vfPart f.val).isSome = true ∧
      (q.tail - q.head).toNat ≤ 2 ^ q.log2n.toNat ∧
      asHub cx (readPacket cx f.val n.val (q.base.toNat + q.head.toNat % 2 ^ q.log2n.toNat * 128))
        (s.modLq f.val n.val fun q => { q with head := q.head + 1 }) = .ok (.good k, t)) ∧
    (∃ (s : State) (f : Fin 64) (n : Fin 8) (id : Dword) (code : Nat) (t : State), s.vfFenced f.val = false ∧
      let q := s.lqAt f.val n.val
      let cx := 16 * f.val + q.ctx.val
      q.en = true ∧ q.head ≠ q.tail ∧ (s.ctxAt cx).valid = true ∧ (s.vfPart f.val).isSome = true ∧
      (q.tail - q.head).toNat ≤ 2 ^ q.log2n.toNat ∧
      asHub cx (readPacket cx f.val n.val (q.base.toNat + q.head.toNat % 2 ^ q.log2n.toNat * 128))
        (s.modLq f.val n.val fun q => { q with head := q.head + 1 }) = .ok (.refused id code, t)) ∧
    (∃ (s : State) (t : Nat) (k : Task), (s.waiting.find? fun x => x.key == t) = some k ∧ s.behind k = false ∧
      (∀ d ∈ k.want, (s.tasks.filter fun x => x.held.contains d).length < 64)) ∧
    (∃ (s : State) (t : Nat) (k : Task) (d : Fin 8), s.taskAt t = some k ∧ d.val ∈ k.want ∧
      (s.tasks.filter fun x => x.held.contains d.val).length < 64) ∧
    (∃ (s : State) (t : Nat) (k : Task) (x : Xfer) (d : Nat) (r : List Nat) (c : Cmd) (u : State) (b : Nat),
      s.taskAt t = some k ∧ k.xfer = some x ∧ k.held = d :: r ∧ (s.ctxAt k.ctx).st = 0 ∧
      asAgent (Fin.ofNat 8 d) k.ctx (s.ctxPart k.ctx) (xferMove k.key x) s = .ok (c, u) ∧ k.pkt.done = 0 ∧ k.src = .block b ∧
      (xferOut s u k x d c).isSome = true) ∧
    (∃ (s : State) (t : Nat) (k : Task) (x : Xfer) (d : Nat) (r : List Nat) (c : Cmd) (u : State),
      s.taskAt t = some k ∧ k.xfer = some x ∧ k.held = d :: r ∧ (s.ctxAt k.ctx).st = 0 ∧
      asAgent (Fin.ofNat 8 d) k.ctx (s.ctxPart k.ctx) (xferMove k.key x) s = .ok (c, u) ∧
      (xferOut s u k x d c).isSome = false) ∧
    (∀ l : Bool, ∃ (s : State) (t : Nat) (k : Task) (x : Xfer) (d : Nat) (r : List Nat) (va : Nat), s.taskAt t = some k ∧
      k.xfer = some x ∧ k.held = d :: r ∧ (s.ctxAt k.ctx).st = 0 ∧
      asAgent (Fin.ofNat 8 d) k.ctx (s.ctxPart k.ctx) (xferMove k.key x) s = .error (.mark va) ∧ s.xferLate k va = l) ∧
    (∃ (s : State) (die : Fin 8) (t : Task) (r : List Task) (y : Seat), s.ranked die.val = t :: r ∧
      s.chooseSeats t die.val = some [y] ∧ s.savedOf t y.idx = none ∧ (∀ b ∈ s.blocks, b.uid ≠ s.nextUid) ∧
      (s.cores[Fin.ofNat 320 (40 * y.die + y.core)]).zeroed = true) ∧
    (∃ (s : State) (u : Nat) (b : Block) (k : Task), s.blockAt u = some b ∧ b.complete = true ∧ (s.ctxAt b.ctx).st = 0 ∧
      s.taskAt b.task = some k ∧ k.doneIdx.length + 1 ≠ k.pkt.blocks.toNat) ∧
    (∃ (s : State) (u : Nat) (b : Block) (k : Task), s.blockAt u = some b ∧ b.complete = true ∧ (s.ctxAt b.ctx).st = 0 ∧
      s.taskAt b.task = some k ∧ k.doneIdx.length + 1 = k.pkt.blocks.toNat ∧ (lastOut s u b k).isSome = true ∧
      ∃ c, k.src = .block c) ∧
    (∃ (s : State) (u : Nat) (b : Block) (k : Task), s.blockAt u = some b ∧ b.complete = true ∧ (s.ctxAt b.ctx).st = 0 ∧
      s.taskAt b.task = some k ∧ k.doneIdx.length + 1 = k.pkt.blocks.toNat ∧ (lastOut s u b k).isSome = false) := by
  refine ⟨⟨sK2 0, 0, 0, 16, by decide +kernel, by decide +kernel⟩, ?_, ?_,
    ⟨sT2, 7, { tk 7 with src := .host 0 0, held := [], want := [0] }, by decide +kernel⟩,
    ⟨sT2, 9, { tk 9 with want := [1], pkt := { (tk 9).pkt with blocks := 2 } }, 1, by decide +kernel⟩, ?_, ?_, ?_, ?_, ?_, ?_, ?_⟩
  · obtain ⟨k, t, h⟩ := good_of (x := rdP (sK2 1) 0 0) (by decide +kernel)
    have e : (sK2 1).vfFenced 0 = false ∧ ((sK2 1).lqAt 0 0).en = true ∧
        ((sK2 1).lqAt 0 0).head ≠ ((sK2 1).lqAt 0 0).tail ∧
        ((sK2 1).ctxAt (16 * 0 + ((sK2 1).lqAt 0 0).ctx.val)).valid = true ∧ ((sK2 1).vfPart 0).isSome = true ∧
        (((sK2 1).lqAt 0 0).tail - ((sK2 1).lqAt 0 0).head).toNat ≤ 2 ^ ((sK2 1).lqAt 0 0).log2n.toNat := by
      decide +kernel
    generalize sK2 1 = s at h e
    exact ⟨s, 0, 0, k, t, e.1, e.2.1, e.2.2.1, e.2.2.2.1, e.2.2.2.2.1, e.2.2.2.2.2, h⟩
  · obtain ⟨i, c, t, h⟩ := refused_of (x := rdP (sK2 0) 0 0) (by decide +kernel)
    have e : (sK2 0).vfFenced 0 = false ∧ ((sK2 0).lqAt 0 0).en = true ∧
        ((sK2 0).lqAt 0 0).head ≠ ((sK2 0).lqAt 0 0).tail ∧
        ((sK2 0).ctxAt (16 * 0 + ((sK2 0).lqAt 0 0).ctx.val)).valid = true ∧ ((sK2 0).vfPart 0).isSome = true ∧
        (((sK2 0).lqAt 0 0).tail - ((sK2 0).lqAt 0 0).head).toNat ≤ 2 ^ ((sK2 0).lqAt 0 0).log2n.toNat := by
      decide +kernel
    generalize sK2 0 = s at h e
    exact ⟨s, 0, 0, i, c, t, e.1, e.2.1, e.2.2.1, e.2.2.2.1, e.2.2.2.2.1, e.2.2.2.2.2, h⟩
  · obtain ⟨c, u, h, hp⟩ := ok_with (x := asAgent 0 0 ({ sB id with tasks := [tX] }.ctxPart 0) (xferMove 9 mv)
        { sB id with tasks := [tX] }) (fun c u => (xferOut { sB id with tasks := [tX] } u tX mv 0 c).isSome)
      (by decide +kernel)
    exact ⟨{ sB id with tasks := [tX] }, 9, tX, mv, 0, [], c, u, 1, by decide +kernel, rfl, rfl, by decide +kernel, h, rfl, rfl, hp⟩
  · obtain ⟨c, u, h, hp⟩ := ok_with (x := asAgent 0 0 ((sStall fun s => { s with tasks := [tY] }).ctxPart 0) (xferMove 9 mv)
        (sStall fun s => { s with tasks := [tY] }))
        (fun c u => !(xferOut (sStall fun s => { s with tasks := [tY] }) u tY mv 0 c).isSome) (by decide +kernel)
    exact ⟨sStall fun s => { s with tasks := [tY] }, 9, tY, mv, 0, [], c, u, by decide +kernel, rfl, rfl, by decide +kernel, h,
      (Bool.not_eq_true' _).mp hp⟩
  · intro l
    obtain ⟨va, h, hp⟩ := mark_with (x := asAgent 0 0 ((sXferMark l).ctxPart 0) (xferMove 9 mvMark) (sXferMark l))
      (fun va => (sXferMark l).xferLate tM va == l) (by revert l; decide +kernel)
    exact ⟨sXferMark l, 9, tM, mvMark, 0, [], va, by clear h hp; revert l; decide +kernel, rfl, rfl, by clear h hp; revert l; decide +kernel, h,
      beq_iff_eq.mp hp⟩
  · have h : sPl.candidates 0 = [tk 9] := by decide +kernel
    refine ⟨sPl, 0, tk 9, [], ⟨0, 0, 0, none⟩, ?_, by decide +kernel, by decide +kernel, by decide +kernel, by decide +kernel⟩
    show (sPl.candidates 0).mergeSort _ = _
    rw [h, List.mergeSort_singleton]
  · exact ⟨sT2, 1, sT2.blk, { tk 9 with want := [1], pkt := { (tk 9).pkt with blocks := 2 } }, rfl, by decide +kernel⟩
  · exact ⟨sT3, 1, sT3.blk, { tk 8 with doneIdx := [5], pkt := { (tk 8).pkt with blocks := 2 } }, rfl, by decide +kernel,
      by decide +kernel, by decide +kernel, by decide +kernel, by decide +kernel, 1, rfl⟩
  · exact ⟨sT4, 1, sT4.blk, { tkH 9 with pkt := { (tk 9).pkt with blocks := 1 } }, rfl, by decide +kernel⟩

/-- Quads: partition 1 holds quad 0 of die 1, which is still being zeroed; function 1 is its. -/
def sW : State :=
  let s := sB id
  { s with
    hub := { s.hub with partdies := s.hub.partdies.set 1 0x10, vfpart := s.hub.vfpart.set 1 0x21, zeroing := [(1, 0, 1)],
                        dbgen := s.hub.dbgen.set 1 3 } }

/-- Function 0 in a state of its TDI. -/
def sD (t : Tdi) : State := { sB id with vfs := (sB id).vfs.set 0 { (sB id).vfs[0] with tdi := t, ide := true } }

/-- With no context. -/
def sF : State :=
  { sW with ctxs := Vector.replicate 1024 Ctx.reset, hub := { sW.hub with partdies := sW.hub.partdies.set 3 0x20 } }

theorem sF_idle {p : Nat} {x : Nat × Nat} (h : (sF.blocks.any fun b =>
    b.placed && b.part == p && b.die.val == x.1 && b.core / quadCores x.1 == x.2) = false) : sF.quadBusy p x = false := by
  have hc : ∀ cx, (sF.ctxAt cx).valid = false := fun cx => by simp [State.ctxAt, sF, Ctx.reset]
  unfold State.quadBusy
  rw [h]
  simp [hc]

theorem wit_PartitionsAndPolicies :
    (∃ (s : State) (p : Fin 32) (val : Dword),
      (∀ x ∈ quadList (s.hub.partdies[p]), x ∉ quadList (val.setWidth 32) → s.quadBusy p.val x = false) ∧
      (∀ x ∈ quadList (val.setWidth 32), x ∉ quadList (s.hub.partdies[p]) → ∀ o, s.otherOwner p x = some o →
        s.quadBusy o.val x = false) ∧
      quadList (s.hub.partdies[p]) ≠ [] ∧ ∃ x ∈ quadList (val.setWidth 32), s.otherOwner p x ≠ none) ∧
    (∃ (s : State) (p : Fin 32) (val : Dword), ∃ x ∈ quadList (s.hub.partdies[p]), x ∉ quadList (val.setWidth 32) ∧
      s.quadBusy p.val x = true) ∧
    (∃ (s : State) (p : Fin 32) (val : Dword), ∃ x ∈ quadList (val.setWidth 32), x ∉ quadList (s.hub.partdies[p]) ∧
      ∃ o, s.otherOwner p x = some o ∧ s.quadBusy o.val x = true) ∧
    (∃ (s : State) (die : Fin 8) (quad : Fin 4), s.quadShut die.val quad.val = false) ∧
    (∃ (s : State) (die : Fin 8) (quad : Fin 4), s.quadShut die.val quad.val = true) ∧
    (∃ (s : State) (f : Fin 64), (s.vfs[f]).tdi = .unlocked ∧ (s.vfs[f]).ide = true ∧ (s.vfPart f.val).isSome = true) ∧
    (∃ (s : State) (f : Fin 64), (s.vfs[f]).tdi = .locked) ∧
    (∃ (s : State) (f : Fin 64) (p : Fin 32), s.vfFenced f.val = false ∧ s.vfPart f.val = some p) ∧
    (∃ (s : State) (p : Fin 32), s.hub.dbgen[p] ≠ 0 ∧ (s.hub.expiry[p]).toNat ≤ s.time / 90) ∧
    (∃ (s : State) (p : Fin 32), s.time / 90 < (s.hub.expiry[p]).toNat) :=
  ⟨⟨sF, 1, 0x20, fun x hx _ => sF_idle ((by decide +kernel : ∀ x ∈ quadList (sF.hub.partdies[(1 : Fin 32)]),
      (sF.blocks.any fun b => b.placed && b.part == 1 && b.die.val == x.1 && b.core / quadCores x.1 == x.2) = false) x hx),
    fun x hx _ o _ => sF_idle ((by decide +kernel : ∀ x ∈ quadList ((0x20 : Dword).setWidth 32), ∀ o : Fin 32,
      (sF.blocks.any fun b => b.placed && b.part == o.val && b.die.val == x.1 && b.core / quadCores x.1 == x.2) = false) x hx o),
    by decide +kernel, by decide +kernel⟩,
   ⟨sW, 0, 0x10, by decide +kernel⟩, ⟨sW, 5, 1, by decide +kernel⟩, ⟨sW, 0, 0, by decide +kernel⟩,
   ⟨sW, 1, 0, by decide +kernel⟩,
   ⟨sD .unlocked, 0, by decide +kernel⟩, ⟨sD .locked, 0, by decide +kernel⟩, ⟨sW, 1, 1, by decide +kernel⟩,
   ⟨sW, 1, by decide +kernel⟩, ⟨{ sW with hub := { sW.hub with expiry := sW.hub.expiry.set 1 1 } }, 1, by decide +kernel⟩⟩

/-- H-die 1's responder at a state. -/
def sSp (st : SpdmSt) : State := { base 0 with hdies := (base 0).hdies.set 1 { (base 0).hdies[1] with spdm := st } }

theorem wit_Attestation :
    (∃ i s h r, spdmAsks s i = some (h, r) ∧ (State.hdies s)[h].spdm = .exchanged) ∧
    (∃ i s h r, spdmAsks s i = some (h, r) ∧ (State.hdies s)[h].spdm ≠ .negotiated ∧ (State.hdies s)[h].spdm ≠ .exchanged ∧
      (State.hdies s)[h].spdm ≠ .session) ∧
    (∃ i s h st st' r n, spdmMoves s i = some (h, st, st', r, n) ∧ (State.hdies s)[h].spdm = st) ∧
    (∃ i s h st st' r n, spdmMoves s i = some (h, st, st', r, n) ∧ (State.hdies s)[h].spdm ≠ st) :=
  ⟨⟨.getMeasurements 1 5 255, sSp .exchanged, 1, _, rfl, by decide +kernel⟩,
   ⟨.getDigests 1, sSp .caps, 1, _, rfl, by decide +kernel⟩,
   ⟨.keyExchange 1 0, sSp .negotiated, 1, _, _, _, _, rfl, by decide +kernel⟩,
   ⟨.finish 1, sSp .session, 1, _, _, _, _, rfl, by decide +kernel⟩⟩

/-- Die 7: bank 17 of tract 2 due with 8 owed, bank 16 due with 7, in the first rotation; three replays without success on
tract 2. -/
def sMc : State :=
  let s := sProg [] [{ cmd0 with tries := 15 }]
  { s with dies := s.dies.set 7 { s.dies[7] with
      banks := [⟨2, 17, 8, some 0, [], false⟩, ⟨2, 16, 7, some 0, [], false⟩],
      replays := (s.dies[7]).replays.set 2 3 } }

/-- One bank whose refresh was due in a rotation that is over. -/
def sRoll : State :=
  { sMc with time := 10 ^ 6, dies := sMc.dies.set 7 { sMc.dies[7] with banks := [⟨2, 16, 7, some 0, [], false⟩] } }

/-- A copy of 64 bytes out of peer package 9, behind port 9, after so many retries. -/
def cFar (tries : Nat) : Cmd :=
  { Cmd.new (.copyWide ⟨pT, 0, 0, 1, 2⟩ ⟨0, false, 0, 25, false, false, 0, 0⟩) 0x10004 with
      tries := tries, regs := [0x11000, 0x10000, 64] }

theorem wit_MemoryChannels :
    (∃ (s : State) (die : Fin 8) (slot : Nat), 0 < slot ∧ slot < maintSlots die.val ∧ Current s die ∧
      ((List.range (tractsOf die.val)).any fun t => ((s.dies[die]).serve (s.time / rotation die.val) t).isSome) = true) ∧
    (∃ (s : State) (die : Fin 8) (b : BankSt) (r : Nat), (s.dies[die]).banks = [b] ∧ b.due = some r ∧
      r < s.time / rotation die.val ∧ b.owed < 8) ∧
    (∃ (s : State) (die : Fin 8) (tract : Fin 4) (bank : Nat), tract.val < tractsOf die.val ∧ Current s die ∧
      ((s.dies[die]).bankAt tract.val bank).due = none) ∧
    (∃ (s : State) (die : Fin 8) (tract : Fin 4) (bank : Nat), tract.val < tractsOf die.val ∧ Current s die ∧
      ((s.dies[die]).bankAt tract.val bank).due.isSome = true ∧ ((s.dies[die]).bankAt tract.val bank).owed = 7) ∧
    (∃ (s : State) (die : Fin 8) (tract : Fin 4) (bank : Nat), tract.val < tractsOf die.val ∧ Current s die ∧
      ((s.dies[die]).bankAt tract.val bank).due.isSome = true ∧ ((s.dies[die]).bankAt tract.val bank).owed = 8) ∧
    (∃ (s : State) (die : Fin 8) (tract : Fin 4), tract.val < tractsOf die.val ∧ (s.dies[die]).replays[tract] = 3) ∧
    (∃ (s : State) (die : Fin 8) (tract : Fin 4), tract.val < tractsOf die.val ∧ (s.dies[die]).replays[tract] < 3) ∧
    (∃ (s : State) (link : Fin 50) (u : Nat) (e : Eng) (idx : Nat) (c : Cmd), (s.blockAt u).isSome = true ∧
      ((s.focus u).blk.eng e).prog.find? (fun c => c.idx.toNat == idx) = some c ∧ c.stuck = false ∧
      (s.focus u).engLive e = true ∧ ((s.focus u).links[link]).fenced = false ∧ (s.focus u).readOver e c link.val = none) ∧
    (∃ (s : State) (link : Fin 50) (u : Nat) (e : Eng) (idx : Nat) (c : Cmd) (va : Nat), (s.blockAt u).isSome = true ∧
      ((s.focus u).blk.eng e).prog.find? (fun c => c.idx.toNat == idx) = some c ∧ c.stuck = false ∧
      (s.focus u).engLive e = true ∧ ((s.focus u).links[link]).fenced = false ∧
      (s.focus u).readOver e c link.val = some va ∧ c.tries = 15) ∧
    (∃ (s : State) (link : Fin 50) (u : Nat) (e : Eng) (idx : Nat) (c : Cmd) (va : Nat), (s.blockAt u).isSome = true ∧
      ((s.focus u).blk.eng e).prog.find? (fun c => c.idx.toNat == idx) = some c ∧ c.stuck = false ∧
      (s.focus u).engLive e = true ∧ ((s.focus u).links[link]).fenced = false ∧
      (s.focus u).readOver e c link.val = some va ∧ 16 ≤ c.tries ∧ link.val < 22 ∧ (s.focus u).blk.scout.round = .closed ∧
      ((s.focus u).str e).stop = none ∧ ∀ x, c.op ≠ .copyl x) ∧
    (∃ (s : State) (link : Fin 50) (u : Nat) (e : Eng) (idx : Nat) (c : Cmd) (va : Nat), (s.blockAt u).isSome = true ∧
      ((s.focus u).blk.eng e).prog.find? (fun c => c.idx.toNat == idx) = some c ∧ c.stuck = false ∧
      (s.focus u).engLive e = true ∧ ((s.focus u).links[link]).fenced = false ∧
      (s.focus u).readOver e c link.val = some va ∧ 16 ≤ c.tries ∧ 22 ≤ link.val) :=
  ⟨⟨sMc, 7, 15, by decide, by decide, by unfold Current; decide +kernel, by decide +kernel⟩,
   ⟨sRoll, 7, ⟨2, 16, 7, some 0, [], false⟩, 0, by decide +kernel⟩,
   ⟨sMc, 7, 2, 0, by decide, by unfold Current; decide +kernel, by decide +kernel⟩,
   ⟨sMc, 7, 2, 16, by decide, by unfold Current; decide +kernel, by decide +kernel⟩,
   ⟨sMc, 7, 2, 17, by decide, by unfold Current; decide +kernel, by decide +kernel⟩,
   ⟨sMc, 7, 2, by decide +kernel⟩, ⟨sMc, 0, 3, by decide +kernel⟩,
   ⟨sMc, 21, 1, .a, 0, { cmd0 with tries := 15 }, by decide +kernel⟩,
   ⟨sProg [] [cFar 15], 9, 1, .a, 0, cFar 15, 0x10000, by decide +kernel⟩,
   ⟨sProg [] [cFar 16], 9, 1, .a, 0, cFar 16, 0x10000, by decide +kernel, by decide +kernel, by decide +kernel, by decide +kernel,
     by decide +kernel, by decide +kernel, by decide, by decide, by decide +kernel, by decide +kernel, fun _ h => nomatch h⟩,
   ⟨sProg [] [cFar 16], 23, 1, .a, 0, cFar 16, 0x10000, by decide +kernel⟩⟩

/-- Slices: core 23 of die 7 has a failed bank and is rebuilding it, and core 22 has a rebuilt one and is fenced; function 2 is in
ERROR. -/
def sU : State :=
  let s := sB id
  { s with
    cores := (s.cores.set 303 { s.cores[303] with failed := [3], rebuilding := true }).set 302
      { s.cores[302] with failed := [3], fenced := true },
    vfs := s.vfs.set 2 { s.vfs[2] with tdi := .error } }

theorem wit_UnitsAndRegisters :
    (∃ (s : State) (die : Fin 8) (core bank : Nat), core < coresOf die.val ∧ bank = 17 ∧
      ¬((sliceTel s die core).rebuilding = true ∧ bank ∈ (sliceTel s die core).failed) ∧ (sliceTel s die core).failed = []) ∧
    (∃ (s : State) (die : Fin 8) (core bank : Nat), core < coresOf die.val ∧ bank = 17 ∧
      ¬((sliceTel s die core).rebuilding = true ∧ bank ∈ (sliceTel s die core).failed) ∧ (sliceTel s die core).failed ≠ []) ∧
    (∃ (s : State) (die : Fin 8) (core bank : Nat), core < coresOf die.val ∧ bank = 3 ∧
      ¬((sliceTel s die core).rebuilding = true ∧ bank ∈ (sliceTel s die core).failed) ∧ bank ∈ (sliceTel s die core).failed) ∧
    (∃ (s : State) (die : Fin 8) (core : Nat), core < coresOf die.val ∧ (sliceTel s die core).rebuilding = true) ∧
    (∃ (s : State) (val : Dword), val.getLsbD 63 = true ∧ fenceUnitOk (val.toNat % 16) (val.toNat / 2 ^ 32 % 512) = true ∧
      ∀ b ∈ s.blocks, b.placed = true → s.holdsUnit b.part (val.toNat % 16) (val.toNat / 2 ^ 32 % 512) = false) ∧
    (∃ (s : State) (val : Dword), val.getLsbD 63 = true ∧ fenceUnitOk (val.toNat % 16) (val.toNat / 2 ^ 32 % 512) = true ∧
      ∃ b ∈ s.blocks, b.placed = true ∧ s.holdsUnit b.part (val.toNat % 16) (val.toNat / 2 ^ 32 % 512) = true) ∧
    (∃ (s : State) (i : Fin 320), (s.cores[i]).fenced = false) ∧ (∃ (s : State) (i : Fin 320), (s.cores[i]).fenced = true) ∧
    (∃ val : Dword, val.getLsbD 0 = true) ∧ (∃ mv : Nat, 340 ≤ mv ∧ mv = 600) := by
  refine ⟨⟨sU, 7, 0, 17, by decide +kernel⟩, ⟨sU, 7, 23, 17, by decide +kernel⟩, ⟨sU, 7, 22, 3, by decide +kernel⟩,
    ⟨sU, 7, 23, by decide +kernel⟩, ⟨sU, 0x8000012F00000001, by decide, by decide, ?_⟩,
    ⟨sU, 0x8000000000000001, by decide, by decide, sU.blk, ?_, ?_⟩, ⟨sU, 319, by decide +kernel⟩, ⟨sU, 302, by decide +kernel⟩,
    ⟨1, by decide⟩, ⟨600, by decide⟩⟩
  · have h : (sU.blocks.all fun b => !b.placed || !sU.holdsUnit b.part 1 303) = true := by decide +kernel
    intro b hb hp
    have h := List.all_eq_true.mp h b hb
    simpa [hp] using h
  · exact List.mem_cons_self
  · decide +kernel

theorem wit_PlainRegisters :
    (∃ (s : State) (f : Fin 64), s.vfFenced f.val = true) ∧ (∃ off : Nat, off % 8 ≠ 0) ∧
    (∃ (s : State) (f : Fin 64) (k : Fin 16) (val : Dword), s.vfFenced f.val = false ∧ val.getLsbD 31 = false ∧
      (s.ctxAt (16 * f.val + k.val)).mapst ≠ 1) ∧
    (∃ (s : State) (f : Fin 64) (k : Fin 16) (val : Dword), s.vfFenced f.val = false ∧ val.getLsbD 63 = false ∧
      (s.ctxAt (16 * f.val + k.val)).valid = false) ∧
    (∃ (s : State) (f : Fin 64) (k : Fin 16), s.vfFenced f.val = false ∧ (s.ctxAt (16 * f.val + k.val)).valid = true) ∧
    (∃ val : Dword, val.toNat % 16 = 0) ∧ (∃ val : Dword, 4 ≤ val.toNat % 16) :=
  ⟨⟨sU, 2, by decide +kernel⟩, ⟨4, by decide⟩, ⟨sU, 63, 15, 0x7FFFFFFF, by decide +kernel⟩,
   ⟨sU, 63, 15, 0x7FFFFFFFFFFFFFFF, by decide +kernel⟩,
   ⟨sU, 0, 0, by decide +kernel⟩, ⟨16, by decide⟩, ⟨15, by decide⟩⟩

theorem wit_RegisterReads :
    (∃ (s : State) (f : Fin 64), s.vfFenced f.val = true) ∧ (∃ off : Nat, off % 8 ≠ 0) ∧
    (∃ (s : State) (f : Fin 64), s.vfFenced f.val = false) ∧ (∃ (c : Nat) (d : Fin 8), c < coresOf d.val) ∧
    (∃ (t : Nat) (d : Fin 8), t < tractsOf d.val) :=
  ⟨⟨sU, 2, by decide +kernel⟩, ⟨4, by decide⟩, ⟨sU, 63, by decide +kernel⟩, ⟨23, 7, by decide⟩, ⟨3, 0, by decide⟩⟩

/-- A pool of four pages with a tier region behind it; page 3 stands in frame 2 and is listed and confirmed. -/
def poolT : MapEntry :=
  { base := 0x100000, limit := 0x140000, kind := 2, perm := 7,
    kspec := [4, 0, 0, 0, 0, 0, 3, 0, 2, 0, 10, 1], state := 5, frames := [0x100000] }

def poolC (offc : Byte) : MapEntry := { poolT with kspec := [4, 0, 0, 0, 0, 0, 3, 0, 2, 0, offc, 1] }

def sZ (offc : Byte) : State :=
  let e := poolC offc
  let s := sB id
  { s with
    mem := Mem.write (Mem.write [] (e.pageWord 3 3) (leBytes 4 0x204)) (e.pageWord 3 0) [1, 0],
    ctxs := s.ctxs.set 0 { s.ctxs[0] with mapn := 3, regions := 3, store := [fetchEntry 0, e, fetchEntry 4] },
    dies := s.dies.set 0 { s.dies[0] with sump := [⟨0, 1, 3, true, 0⟩] } }

/-- The same with nothing listed. -/
def sZ0 : State :=
  { sZ 10 with
    mem := Mem.write [] (poolT.pageWord 3 0) [1, 0], dies := (sZ 10).dies.set 0 { (sZ 10).dies[0] with sump := [] } }

/-- What the mover does for a page that it offloads. -/
def offload (y : SumpEnt) (e z : MapEntry) (frame : Nat) : M Unit := do
  moveGranule ⟨y.rgn, y.page, some (e.frame0 + 65536 * frame), z.phys (65536 * y.page), false⟩
  modS fun s => s.remark (z.base.toNat + 65536 * y.page) (z.phys (65536 * y.page))

/-- An offload of which the Porter moves the granule. -/
theorem offloads {d : Fin 8} {cx pt : Nat} {y : SumpEnt} {e z : MapEntry} {n : Nat} {s v : State}
    (h : asAgent d cx pt (moveGranule ⟨y.rgn, y.page, some (e.frame0 + 65536 * n), z.phys (65536 * y.page), false⟩) s = .ok ((), v)) :
    ∃ w, asAgent d cx pt (offload y e z n) s = .ok ((), w) := by
  unfold asAgent at h ⊢
  unfold offload
  split at h
  · rename_i h1
    exact ⟨_, by simp only [bind, StateT.bind, Except.bind, h1]; rfl⟩
  · cases h

theorem wit_SumpQueue :
    (∃ (s : State) (die : Fin 8), (∃ x ∈ s.poolsOf die, s.freeN x.2.2 < x.2.2.wmark) ∧
      (candSort ((s.poolsOf die).flatMap fun x => s.sumpCandidates die x.1 x.2.1 x.2.2)).take
        (16 - (s.dies[die]).sump.length) ≠ []) ∧
    (∃ (s : State) (die : Fin 8), ¬∃ x ∈ s.poolsOf die, s.freeN x.2.2 < x.2.2.wmark) ∧
    (∃ (s : State) (die : Fin 8) (pos : Fin 16) (e : SumpEnt), (s.dies[die]).sump[pos.val]? = some e ∧ e.expiry ≤ s.time) ∧
    (∃ (s : State) (die : Fin 8) (y : SumpEnt) (pos : Nat) (e : MapEntry),
      ((s.dies[die]).sump.zipIdx.find? fun x => x.1.cf) = some (y, pos) ∧
      let t := s.modDie die fun x => { x with sump := x.sump.eraseIdx pos }
      t.poolAt y.ctx y.rgn = some e ∧ t.dropsPage die y.ctx e y.page = true) ∧
    (∃ (s : State) (die : Fin 8) (y : SumpEnt) (pos : Nat) (e z : MapEntry) (w : State),
      ((s.dies[die]).sump.zipIdx.find? fun x => x.1.cf) = some (y, pos) ∧
      let t := s.modDie die fun x => { x with sump := x.sump.eraseIdx pos }
      t.poolAt y.ctx y.rgn = some e ∧ t.dropsPage die y.ctx e y.page = false ∧ t.tierOf y.ctx e = some z ∧
      asAgent die y.ctx (t.ctxPart y.ctx) (offload y e z (t.pageFrame e y.page)) (fated t e y.page 1) = .ok ((), w)) := by
  refine ⟨⟨sZ0, 0, by decide +kernel, by decide +kernel⟩, ⟨sZ0, 7, by decide +kernel⟩,
    ⟨sZ 10, 0, 0, ⟨0, 1, 3, true, 0⟩, by decide +kernel⟩,
    ⟨sZ 10, 0, ⟨0, 1, 3, true, 0⟩, 0, poolC 10, by decide +kernel, by decide +kernel, by decide +kernel⟩, ?_⟩
  let t := (sZ 0).modDie 0 fun x => { x with sump := x.sump.eraseIdx 0 }
  obtain ⟨v, h⟩ := porter_moves (d := 0) (cx := 0) (pt := t.ctxPart 0) (t := 0) (u := 4)
    (m := ⟨1, 3, some ((poolC 0).frame0 + 65536 * t.pageFrame (poolC 0) 3), (fetchEntry 4).phys (65536 * 3), false⟩)
    (s := fated t (poolC 0) 3 1) rfl (by unfold PlainMem; decide +kernel) (by decide +kernel) (by decide +kernel) (by decide +kernel)
    (by decide +kernel) (by decide +kernel) (by decide +kernel)
  obtain ⟨w, h⟩ := offloads (y := ⟨0, 1, 3, true, 0⟩) (e := poolC 0) (z := fetchEntry 4) h
  exact ⟨sZ 0, 0, ⟨0, 1, 3, true, 0⟩, 0, poolC 0, fetchEntry 4, w, by decide +kernel, by decide +kernel, by decide +kernel,
    by decide +kernel, h⟩

/-- A strand that has finished, one that is to enter its first line, and one that waits for a Ferry there. -/
def fin1 : Strand := { Strand.reset with chain := true, finished := true }
def ent : Strand := { Strand.reset with chain := true, entry := 0x10004, pc := 0x10004 }
def fer : Strand := { ent with wait := .ferry }

/-- A block of task 9 whose c strand has finished and whose d strand is given, in a partition of quads of dies 0 and 4. -/
def sFe (d : Strand) (f : Block → Block) : State :=
  let s := sB id
  { s with
    hub := { s.hub with partdies := s.hub.partdies.set 0 0x00010001, savecnt := s.hub.savecnt.set 0 4 },
    tasks := [tk 9], time := 10 ^ 9,
    blk := f { s.blk with task := 9, ferryMask := 0x10, strands := (Vector.replicate 6 fin1).set 4 d } }

/-- Task 9 runs on die 0, drained for another; task 10 has more tokens and no core to go to. -/
def tkN : Task := { tk 10 with pkt := { (tk 10).pkt with tok := 15 } }
def tkV : Task := { tk 9 with drains := [(0, 5)] }
def sCf (t : Option Nat) : State :=
  let s := sFe fin1 id
  { s with
    tasks := [tkV, tkN], cores := Vector.replicate 320 { s.cores[0] with fenced := true }, time := 256000 * 90,
    dies := s.dies.set 0 { s.dies[0] with decided := t } }

theorem sCf_conflict {s : State} (hc : s.candidates 0 = [tkN])
    (hf : ((List.range tkN.pkt.blocks.toNat).any fun i => s.unplaced tkN i) = true) (hs : s.chooseSeats tkN 0 = none)
    (hv : s.victim 0 tkN = some tkV) : s.conflict 0 = some (tkV, tkN) := by
  have n : s.newcomer 0 = some tkN := by
    unfold State.newcomer State.ranked
    rw [hc, List.mergeSort_singleton]
    simp only [List.find?, hf, hs, Option.isNone_none, Bool.and_self]
  unfold State.conflict
  rw [n]
  show (s.victim 0 tkN).map _ = _
  rw [hv]
  rfl

/-- A block whose component is itself, since no task has it, asked for a checkpoint, where it stands and where it does not. -/
def sCk (frames : BitVec 16) (stood : Bool) : State :=
  let s := sFe fin1 fun b => { b with ckpt := .asked 0, stood := stood }
  { s with tasks := [], hub := { s.hub with savecnt := s.hub.savecnt.set 0 frames } }

theorem mates_ck {n : BitVec 16} {k : Bool} {b : Block} : (sCk n k).matesOf b = [b] := by
  unfold State.matesOf
  rw [show (sCk n k).taskAt b.task = none from rfl]

theorem wit_PreemptionAndFerry :
    (∃ (s : State) (die : Fin 8) (v n : Task), s.conflict die.val = some (v, n) ∧ (s.dies[die]).decided = none) ∧
    (∃ (s : State) (die : Fin 8) (v n : Task) (t : Nat), s.conflict die.val = some (v, n) ∧
      (s.dies[die]).decided = some t ∧ t + 256000 * 90 ≤ s.time) ∧
    (∃ (s : State) (v n : Task), v.est.toNat ≤ 8000 * (16 - n.eff s.time)) ∧
    (∃ (s : State) (v n : Task), 8000 * (16 - n.eff s.time) < v.est.toNat ∧ v.pkt.ckpt = false ∧ v.pkt.kill = false) ∧
    (∃ (s : State) (v n : Task), 8000 * (16 - n.eff s.time) < v.est.toNat ∧ v.pkt.ckpt = true) ∧
    (∃ (s : State) (v n : Task), 8000 * (16 - n.eff s.time) < v.est.toNat ∧ v.pkt.ckpt = false ∧ v.pkt.kill = true) ∧
    (∃ (s : State) (u : Nat) (b : Block), s.blockAt u = some b ∧ b.asked = true ∧ s.mayCkpt b = true ∧
      (s.matesOf b).length ≤ (s.freeFrames b.part).length ∧ (∀ m ∈ s.matesOf b, s.standsFor m = true)) ∧
    (∃ (s : State) (u : Nat) (b : Block), s.blockAt u = some b ∧ b.asked = true ∧ s.mayCkpt b = true ∧
      (s.freeFrames b.part).length < (s.matesOf b).length ∧ (∀ m ∈ s.matesOf b, s.standsFor m = true)) ∧
    (∃ (s : State) (u : Nat) (b : Block), s.blockAt u = some b ∧ b.asked = true ∧ s.mayCkpt b = true ∧
      ∃ m ∈ s.matesOf b, s.standsFor m = false) ∧
    (∃ (s : State) (u : Nat) (b : Block) (n : Nat) (r : List Nat), s.blockAt u = some b ∧ b.asked = true ∧
      s.mayCkpt b = true ∧ s.matesOf b = [b] ∧ s.standsFor b = true ∧ s.freeFrames b.part = n :: r) ∧
    (∃ (s : State) (u : Nat) (b : Block) (t0 : Nat) (k : Task), s.blockAt u = some b ∧ b.ckpt = .asked t0 ∧
      s.mayCkpt b = true ∧ t0 + 100000 * 90 ≤ s.time ∧ b.placed = true ∧ (s.matesOf b).all s.standsFor = false ∧
      s.taskAt b.task = some k ∧ k.pkt.kill = false) ∧
    (∃ (s : State) (u : Nat) (e : Eng), (s.blockAt u).isSome = true ∧ (s.focus u).live e = true ∧
      ((s.focus u).str e).edge = none ∧ ((s.focus u).str e).mustFetch = true ∧ hasEng (s.focus u).blk.die e = false ∧
      (s.focus u).blk.mayFetch e ((s.focus u).str e).pc = true ∧ (s.focus u).ferryDies (s.focus u).blk (Eng.onS e) = []) ∧
    (∃ (s : State) (u : Nat) (e : Eng), (s.blockAt u).isSome = true ∧ (s.focus u).live e = true ∧
      ((s.focus u).str e).edge = none ∧ ((s.focus u).str e).mustFetch = true ∧ hasEng (s.focus u).blk.die e = false ∧
      (s.focus u).blk.mayFetch e ((s.focus u).str e).pc = true ∧ (s.focus u).ferryDies (s.focus u).blk (Eng.onS e) ≠ [] ∧
      ((s.focus u).blk.scratch.toNat + 80) * 1024 ≤ classSlice (Eng.onS e) ∧ (s.focus u).blk.ferry = .none) ∧
    (∃ (s : State) (u : Nat) (b : Block) (e : Eng) (y : Seat), s.blockAt u = some b ∧ b.ferry = .gather e ∧ b.asked = false ∧
      (s.focus u).cx.st = 0 ∧ (s.focus u).gatheredAll = true ∧
      ((if Eng.onS e then [Eng.m] else [Eng.d, .g]).any (s.focus u).blk.clings) = false ∧ (s.focus u).blk.copies = true ∧
      (s.focus u).ferrySeat (s.focus u).blk (Eng.onS e) = some y ∧ (s.focus u).blk.scout.buffering = false) :=
  ⟨⟨sCf none, 0, tkV, tkN, sCf_conflict (by decide +kernel) (by decide +kernel) (by decide +kernel) (by decide +kernel),
    by decide +kernel⟩,
   ⟨sCf (some 0), 0, tkV, tkN, 0, sCf_conflict (by decide +kernel) (by decide +kernel) (by decide +kernel) (by decide +kernel),
    by decide +kernel, by decide +kernel⟩,
   ⟨base 0, { tk 9 with est := 8000 }, tkN, by decide +kernel⟩, ⟨base 0, { tk 9 with est := 8001 }, tkN, by decide +kernel⟩,
   ⟨base 0, { tk 9 with est := 8001, pkt := { (tk 9).pkt with flags := 1 } }, tkN, by decide +kernel⟩,
   ⟨base 0, { tk 9 with est := 8001, pkt := { (tk 9).pkt with flags := 2 } }, tkN, by decide +kernel⟩,
   ⟨sCk 4 true, 1, _, rfl, by decide +kernel, by decide +kernel, by rw [mates_ck]; decide +kernel,
    fun m hm => by rw [mates_ck, List.mem_singleton] at hm; rw [hm]; decide +kernel⟩,
   ⟨sCk 0 true, 1, _, rfl, by decide +kernel, by decide +kernel, by rw [mates_ck]; decide +kernel,
    fun m hm => by rw [mates_ck, List.mem_singleton] at hm; rw [hm]; decide +kernel⟩,
   ⟨sCk 4 false, 1, _, rfl, by decide +kernel, by decide +kernel, _, by rw [mates_ck]; exact List.mem_singleton_self _,
    by decide +kernel⟩,
   ⟨sCk 4 true, 1, _, 0, [1, 2, 3], rfl, by decide +kernel, by decide +kernel, mates_ck, by decide +kernel, by decide +kernel⟩,
   ⟨sFe ent fun b => { b with ckpt := .asked (10 ^ 9 - 9000000) }, 1, _, 10 ^ 9 - 9000000, tk 9, rfl, by decide +kernel⟩,
   ⟨sFe ent fun b => { b with ferryMask := 0 }, 1, .d, by decide +kernel⟩, ⟨sFe ent id, 1, .d, by decide +kernel⟩,
   ⟨sFe fer fun b => { b with ferry := .gather .d, stood := true }, 1, _, .d, ⟨0, 4, 0, none⟩, rfl, by decide +kernel⟩⟩

/-- A map entry's bytes, and a context with a commit of it under way. -/
def mapBytes : List Byte :=
  leBytes 8 0x10000 ++ leBytes 8 0x20000 ++ leBytes 16 0x700 ++ leBytes 32 5 ++ leBytes 64 0x10000

def sMap (n : BitVec 10) (at_ : Dword) : State :=
  let s := sB fun c => { c with mapst := 1, mapn := n, mapbase := at_, store := [mapEntryOf mapBytes] }
  { s with mem := Mem.write [] 0x10080 mapBytes, hub := { s.hub with frames := s.hub.frames.set 0 [(0x10000, 0x10000)] } }

/-- That map's memory, poisoned. -/
def sBad : State := { sMap 1 0x10080 with poison := [0x10080 / 64] }

/-- The reading of that map. -/
def rdM (s : State) (cx : Nat) : Except Stop ((List (List Byte) × Option Nat) × State) :=
  asHub cx (readStore ((s.ctxAt cx).mapbase.toNat / 128 * 128)
    (if 512 < (s.ctxAt cx).mapn.toNat then 0 else (s.ctxAt cx).mapn.toNat * ((s.ctxAt cx).mappm1.val + 1)) 0) s

/-- A `copyb` that adds one fp32 to the first element of a tensor at 0x10400; its descriptor, its index list and its values. -/
def cAdd : Cmd :=
  { Cmd.new (.copyb ⟨pT, 0, 0, 0, 0⟩ ⟨true, 0, true, 0, 0, 0, 0, 0⟩) 0x10004 with regs := [0x10300, 0x10100, 0x10200] }
def sAdd : State :=
  let s := sProg [] [cAdd]
  { s with mem := Mem.write (Mem.write [] 0x10100 (leBytes 8 0x10400 ++ leBytes 8 0 ++ leBytes 16 16 ++ leBytes 16 4 ++
      leBytes 8 0 ++ [1, 2])) 0x10300 (leBytes 4 0x3F800000) }

theorem wit_StopsAndMaps :
    (∃ (s : State) (u : Nat) (e : Eng), (s.blockAt u).isSome = true ∧
      let t := (s.focus u).modStr e fun st => if st.stop.isNone then st.settle (s.focus u).blk.forcing else st
      t.cx.st = 1 ∧ (t.str e).chain = true ∧ ((t.str e).stop.getD (lineStop (t.str e))).written = [] ∧
      t.blk.lowerWritten e = true ∧ t.blk.rerunning = false ∧ t.blk.mustDiscard = false ∧ t.quiet e = true ∧
      (Eng.queued e = false ∨ (t.blk.eng e).prog.all (t.atRest e) = true) ∧ t.vfFenced (t.blk.ctx / 16) = false) ∧
    (∃ (s : State) (u : Nat) (b : Block), s.blockAt u = some b ∧ (s.ctxAt b.ctx).st = 0 ∧ b.ctx < 1024 ∧
      (s.wdSet (s.blocks.length + 1) (s.blocks.map fun b => b.uid)).contains u = true) ∧
    (∃ (s : State) (u : Nat) (e : Eng) (w : AtomicWait), (s.blockAt u).isSome = true ∧
      ((s.focus u).str e).wait = .atomic w ∧ ((s.focus u).str e).stop = none) ∧
    (∃ (s : State) (u : Nat) (e : Eng) (c c1 : Cmd) (w : State) (x : VReg × Nat × Nat), (s.blockAt u).isSome = true ∧
      (∀ w, ((s.focus u).str e).wait ≠ .atomic w) ∧ (s.focus u).engLive e = true ∧
      (((s.focus u).blk.eng e).prog.find? fun c => c.op.adds && !c.stuck) = some c ∧
      unitOf e c (s.focus u) = .ok ((c1, true), w) ∧ c1.adds = some x ∧ (s.focus u).blk.scout.mark = none ∧
      ((w.logError e x.1 x.2.1 x.2.2).2.str e).stop = none) ∧
    (∃ (s : State) (f : Fin 64) (k : Fin 16), s.vfFenced f.val = false ∧ (s.ctxAt (16 * f.val + k.val)).mapst ≠ 1) ∧
    (∃ (s : State) (f : Fin 64), s.vfFenced f.val = true) ∧
    (∃ (s : State) (cx : Nat) (raw : List (List Byte)) (i : Nat) (t : State), s.vfFenced (cx / 16) = false ∧ (s.ctxAt cx).mapst = 1 ∧
      rdM s cx = .ok ((raw, some i), t)) ∧
    (∃ (s : State) (cx : Nat) (raw : List (List Byte)) (t : State) (x : Nat × Nat), s.vfFenced (cx / 16) = false ∧ (s.ctxAt cx).mapst = 1 ∧
      rdM s cx = .ok ((raw, none), t) ∧ t.mapRefusal cx (s.ctxAt cx).mapn.toNat ((s.ctxAt cx).mappm1.val + 1)
        (s.hub.partdies[Fin.ofNat 32 (s.ctxPart cx)]) raw = some x) ∧
    (∃ (s : State) (cx : Nat) (raw : List (List Byte)) (t : State), s.vfFenced (cx / 16) = false ∧ (s.ctxAt cx).mapst = 1 ∧ (s.ctxAt cx).valid = true ∧
      rdM s cx = .ok ((raw, none), t) ∧ t.mapRefusal cx (s.ctxAt cx).mapn.toNat ((s.ctxAt cx).mappm1.val + 1)
        (s.hub.partdies[Fin.ofNat 32 (s.ctxPart cx)]) raw = none) ∧
    (∃ (s : State) (f : Fin 64), s.vfFenced f.val = false ∧ (s.vfs[f]).tlbgo = false) ∧
    (∃ (s : State) (f : Fin 64), (s.vfs[f]).tlbgo = true) := by
  have bad : ∀ {s : State} {cx : Nat}, (match rdM s cx with
      | .ok ((_, some _), _) => true
      | _ => false) = true → ∃ raw i t, rdM s cx = .ok ((raw, some i), t) := fun {s cx} h => by
    generalize rdM s cx = x at h
    rcases x with _ | ⟨⟨raw, _ | i⟩, t⟩
    · cases h
    · cases h
    · exact ⟨raw, i, t, rfl⟩
  have good : ∀ {s : State} {cx : Nat} {p : List (List Byte) → State → Bool}, (match rdM s cx with
      | .ok ((raw, none), t) => p raw t
      | _ => false) = true → ∃ raw t, rdM s cx = .ok ((raw, none), t) ∧ p raw t = true := fun {s cx p} h => by
    generalize rdM s cx = x at h
    rcases x with _ | ⟨⟨raw, _ | i⟩, t⟩
    · cases h
    · exact ⟨raw, t, rfl, h⟩
    · cases h
  refine ⟨⟨(sB fun c => { c with st := 1 }), 1, .c, by decide +kernel⟩,
    ⟨{ (sFe fin1 id).modStr .c fun _ => { ent with wait := .blocked } with time := 9 * 10 ^ 9 }, 1, _, rfl, by decide +kernel,
      by decide +kernel, by decide +kernel⟩,
    ⟨(sB id).modStr .v fun st => { st with wait := .atomic ⟨.reg 0, vzero, 3, 0x10000⟩ }, 1, .v, ⟨.reg 0, vzero, 3, 0x10000⟩,
      by decide +kernel⟩, ?_,
    ⟨sB id, 63, 15, by decide +kernel⟩, ⟨sD .error, 0, by decide +kernel⟩, ?_, ?_, ?_, ⟨sB id, 63, by decide +kernel⟩,
    ⟨(sB id).modVf 63 fun v => { v with tlbgo := true }, 63, by decide +kernel⟩⟩
  · obtain ⟨⟨c, f⟩, t, h, hp⟩ := ok_with (x := unitOf .a cAdd (sAdd.focus 1)) (fun a t => a.2 && match a.1.adds with
      | some x => ((t.logError .a x.1 x.2.1 x.2.2).2.str .a).stop.isNone
      | none => false) (by decide +kernel)
    have hq : (f && match c.adds with
      | some x => ((t.logError .a x.1 x.2.1 x.2.2).2.str .a).stop.isNone
      | none => false) = true := hp
    rw [Bool.and_eq_true] at hq
    obtain ⟨hf, hq⟩ := hq
    have e1 : (sAdd.blockAt 1).isSome = true := by decide +kernel
    have e2 : ((sAdd.focus 1).str .a).wait = .run := by decide +kernel
    have e3 : (sAdd.focus 1).engLive .a = true := by decide +kernel
    have e4 : (((sAdd.focus 1).blk.eng .a).prog.find? fun c => c.op.adds && !c.stuck) = some cAdd := by decide +kernel
    have e5 : (sAdd.focus 1).blk.scout.mark = none := by decide +kernel
    generalize sAdd = s at *
    subst hf
    split at hq
    · rename_i x hx
      exact ⟨s, 1, .a, cAdd, c, t, x, e1, (fun w hw => by rw [e2] at hw; cases hw), e3, e4, h, hx, e5,
        Option.isNone_iff_eq_none.mp hq⟩
    · cases hq
  · obtain ⟨raw, i, t, h⟩ := bad (s := sBad) (cx := 0) (by decide +kernel)
    exact ⟨sBad, 0, raw, i, t, by decide +kernel, by decide +kernel, h⟩
  · obtain ⟨raw, t, h, hp⟩ := good (s := sMap 2 0x10080) (cx := 0) (p := fun raw t => (t.mapRefusal 0 2 1 1 raw).isSome)
      (by decide +kernel)
    obtain ⟨x, hx⟩ := Option.isSome_iff_exists.mp hp
    refine ⟨sMap 2 0x10080, 0, raw, t, x, by decide +kernel, by decide +kernel, h, ?_⟩
    have e1 : ((sMap 2 0x10080).ctxAt 0).mapn.toNat = 2 := by decide +kernel
    have e2 : ((sMap 2 0x10080).ctxAt 0).mappm1.val + 1 = 1 := by decide +kernel
    have e3 : (sMap 2 0x10080).hub.partdies[Fin.ofNat 32 ((sMap 2 0x10080).ctxPart 0)] = 1 := by decide +kernel
    rw [e1, e2, e3]; exact hx
  · obtain ⟨raw, t, h, hp⟩ := good (s := sMap 1 0x10080) (cx := 0) (p := fun raw t => (t.mapRefusal 0 1 1 1 raw).isNone)
      (by decide +kernel)
    refine ⟨sMap 1 0x10080, 0, raw, t, by decide +kernel, by decide +kernel, by decide +kernel, h, ?_⟩
    have e1 : ((sMap 1 0x10080).ctxAt 0).mapn.toNat = 1 := by decide +kernel
    have e2 : ((sMap 1 0x10080).ctxAt 0).mappm1.val + 1 = 1 := by decide +kernel
    have e3 : (sMap 1 0x10080).hub.partdies[Fin.ofNat 32 ((sMap 1 0x10080).ctxPart 0)] = 1 := by decide +kernel
    rw [e1, e2, e3]; exact Option.isNone_iff_eq_none.mp hp

/-! ## The machine as a whole -/

theorem wit_EncodeDecode :
    (∃ (i : Instr) (e : Eng), i.eng = some e ∧ i.wf = true ∧ i.words = 1) ∧
    (∃ (i : Instr) (e : Eng), i.eng = some e ∧ i.wf = true ∧ i.words = 2) ∧
    (∃ (e : Eng) (w x : Word) (i : Instr), decodeStep e w x = .ok i ∧ i.wf = true) :=
  ⟨⟨.cAdd ⟨pT, .port (.q 15), .reg 63, .reg 0⟩, .c, by decide +kernel⟩,
   ⟨.cLi ⟨pF, .reg 63, 0xFFFFFFFF⟩, .c, by decide +kernel⟩,
   ⟨.c, 0x00000003, 7, .cLi ⟨pT, .reg 0, 7⟩, by decide +kernel⟩⟩

/-- Strand `c` at a line of words of its own, in the turn of an empty agenda and in a turn of the agenda. -/
def atLine (st : Strand) : State :=
  withBlk 0 fun b => { b with strands := b.strands.set 0 st }

/-- The state in which the c strand's turn finds the module. -/
noncomputable def turnOf (st : Strand) : State := ((atLine st).pass (acUnits 0)).ready

theorem none_of {α : Type} {x : Option α} (h : x.isNone = true) : x = none := Option.isNone_iff_eq_none.mp h

theorem turn_empty {st : Strand} (h : ((atLine st).timetable (acUnits 0)).isNone = true)
    (hl : ((atLine st).pass (acUnits 0)).loadsTables = false) : TurnOf (atLine st) .c (turnOf st) :=
  ⟨_, ⟨none_of h, .inl ⟨rfl, rfl, rfl⟩⟩, hl, rfl⟩

/-- The same block's turn in the agenda. -/
def atAgenda (st : Strand) : State := { atLine st with agenda := [⟨5, .strand 1 .c⟩] }

noncomputable def turnOfAgenda (st : Strand) : State := ({ (atAgenda st).pass 5 with agenda := [] }.focus 1).ready

theorem turn_strand {st : Strand} (h : ((atAgenda st).timetable 5).isNone = true)
    (hl : ({ (atAgenda st).pass 5 with agenda := [] }.focus 1).loadsTables = false) : TurnOf (atAgenda st) .c (turnOfAgenda st) :=
  ⟨_, ⟨none_of h, .inr ⟨5, 1, [], rfl, rfl⟩⟩, hl, rfl⟩

/-- A c strand at a line, and one that enters it. -/
def atWords (l : List Nat) : Strand := strandAt .c l
def enters : Strand := { strandAt .c [] with line := none, entering := true }

/-- The module whose memory holds the line that the strand enters: `halt` behind its link word. -/
def sEnter : State := { atLine enters with mem := Mem.write [] 0x10000 (fetchBytes .c 0xF0) }

noncomputable def tEnter : State := (sEnter.pass (acUnits 0)).ready

/-- A block whose tables a mark has held up. -/
def sLoads : State := withBlk 0 fun b => { b with started := false, tables := .stalled }

theorem wit_StepRunsInstruction :
    (∃ (s : State) (e : Eng) (t : State), TurnAt s e t ∧ t.loadsTables = true) ∧
    (∃ (s : State) (e : Eng) (t : State) (l : LineBuf) (i : Instr), TurnOf s e t ∧ Active t e ∧ (t.str e).edge = none ∧
      (t.str e).entering = false ∧ (t.str e).line = some l ∧ Holds e l (wordOf (t.str e).pc) i) ∧
    (∃ (s : State) (e : Eng) (t : State) (l : LineBuf) (p i : Instr), TurnOf s e t ∧ Active t e ∧ (t.str e).edge = none ∧
      (t.str e).entering = false ∧ (t.str e).line = some l ∧ wordOf (t.str e).pc ≠ 0 ∧
      selector (l.word (wordOf (t.str e).pc)) = 2 ∧
      decodeStep e (l.word (wordOf (t.str e).pc)) (l.word (wordOf (t.str e).pc + 1)) = .ok p ∧ p.wf = true ∧
      Holds e l (wordOf (t.str e).pc + 1) i ∧ Instr.accepts p i = true) ∧
    (∃ (s : State) (e : Eng) (t : State) (bs : List Byte) (t1 : State) (i : Instr), TurnOf s e t ∧ Active t e ∧
      (t.str e).edge = none ∧ ((t.str e).entering = true ∨ (t.str e).line = none) ∧
      t.blk.mayFetch e (t.str e).pc = true ∧ hasEng t.blk.die e = true ∧
      readVirt false (lineOf (t.str e).pc).toNat 64 t = .ok (bs, t1) ∧
      linkFault e ((lineOfBytes (lineOf (t.str e).pc) bs).words[0]) = none ∧ t1.blk.gathering = false ∧
      (t1.str e).again = false ∧ Holds e (lineOfBytes (lineOf (t.str e).pc) bs) (wordOf (t.str e).pc) i) ∧
    (∃ (s : State) (e : Eng) (t : State) (l : LineBuf), TurnOf s e t ∧ Active t e ∧ (t.str e).edge = none ∧
      (t.str e).entering = false ∧ (t.str e).line = some l ∧ wordOf (t.str e).pc ≠ 0 ∧
      wordOf (t.str e).pc ≤ linkCount (l.words[0]) ∧ selector (l.word (wordOf (t.str e).pc)) < 2 ∧
      decodeStep e (l.word (wordOf (t.str e).pc)) (l.word (wordOf (t.str e).pc + 1)) = .illegal) ∧
    (∃ (s : State) (e : Eng) (t : State) (l : LineBuf), TurnOf s e t ∧ Active t e ∧ (t.str e).edge = none ∧
      (t.str e).entering = false ∧ (t.str e).line = some l ∧ wordOf (t.str e).pc ≠ 0 ∧
      wordOf (t.str e).pc ≤ linkCount (l.words[0]) ∧ selector (l.word (wordOf (t.str e).pc)) < 2 ∧
      decodeStep e (l.word (wordOf (t.str e).pc)) (l.word (wordOf (t.str e).pc + 1)) = .reserved) ∧
    (∃ (s : State) (e : Eng) (t : State), TurnOf s e t ∧ (t.str e).finished = true) := by
  have hf : ∃ bs t1, readVirt false (lineOf (tEnter.str .c).pc).toNat 64 tEnter = .ok (bs, t1) ∧
      (decide (linkFault .c ((lineOfBytes (lineOf (tEnter.str .c).pc) bs).words[0]) = none ∧ t1.blk.gathering = false ∧
        (t1.str .c).again = false ∧ 1 ≠ 0 ∧ 1 ≤ linkCount ((lineOfBytes (lineOf (tEnter.str .c).pc) bs).words[0]) ∧
        (lineOfBytes (lineOf (tEnter.str .c).pc) bs).word 1 = 0xF0)) = true :=
    ok_with (fun bs t1 => decide (linkFault .c ((lineOfBytes (lineOf (tEnter.str .c).pc) bs).words[0]) = none ∧
        t1.blk.gathering = false ∧ (t1.str .c).again = false ∧
        1 ≠ 0 ∧ 1 ≤ linkCount ((lineOfBytes (lineOf (tEnter.str .c).pc) bs).words[0]) ∧
        (lineOfBytes (lineOf (tEnter.str .c).pc) bs).word 1 = 0xF0)) (by decide +kernel)
  obtain ⟨bs, t1, h, hp⟩ := hf
  obtain ⟨h1, h2, h4, h5, h6, h7⟩ := of_decide_eq_true hp
  refine ⟨⟨sLoads, .c, sLoads.pass (acUnits 0), ⟨none_of (by decide +kernel), .inl ⟨rfl, rfl, rfl⟩⟩, by decide +kernel⟩,
    ⟨_, .c, _, line .c 0x10000 [0xF0], .cHalt ⟨pT⟩, turn_strand (st := atWords [0xF0]) (by decide +kernel) (by decide +kernel),
      by unfold Active; decide +kernel, by decide +kernel, by decide +kernel, by decide +kernel, by unfold Holds; decide +kernel⟩,
    ⟨_, .c, _, line .c 0x10000 [150, 2 * 2 ^ 30 + 2 * 2 ^ 24 + 19 * 2 ^ 18 + 2 ^ 12], .pfxo .c ⟨true, false, .grp⟩,
      .cAdd ⟨pT, .reg 1, .port (.q 3), .reg 2⟩,
      turn_empty (st := atWords [150, 2 * 2 ^ 30 + 2 * 2 ^ 24 + 19 * 2 ^ 18 + 2 ^ 12]) (by decide +kernel) (by decide +kernel),
      by unfold Active; decide +kernel, by decide +kernel, by decide +kernel, by decide +kernel, by decide +kernel,
      by decide +kernel, by decide +kernel, by decide +kernel, by unfold Holds; decide +kernel, by decide +kernel⟩,
    ⟨sEnter, .c, tEnter, bs, t1, .cHalt ⟨pT⟩, ⟨_, ⟨none_of (by decide +kernel), .inl ⟨rfl, rfl, rfl⟩⟩, rfl, rfl⟩,
      by unfold Active; decide +kernel, by decide +kernel, by decide +kernel, by decide +kernel, by decide +kernel, h, h1, h2,
      h4, ?_⟩,
    ⟨_, .c, _, line .c 0x10000 [0xF8], turn_empty (st := atWords [0xF8]) (by decide +kernel) (by decide +kernel), by unfold Active; decide +kernel,
      by decide +kernel⟩,
    ⟨_, .c, _, line .c 0x10000 [0x10F0], turn_empty (st := atWords [0x10F0]) (by decide +kernel) (by decide +kernel),
      by unfold Active; decide +kernel, by decide +kernel⟩,
    ⟨_, .c, _, turn_empty (st := fin1) (by decide +kernel) (by decide +kernel), by decide +kernel⟩⟩
  have k : wordOf (tEnter.str .c).pc = 1 := by decide +kernel
  rw [k]
  refine ⟨h5, h6, ?_, ?_, ?_, by decide⟩
  · rw [h7]; decide +kernel
  · rw [h7]; intro hc; exact absurd hc (by decide +kernel)
  · rw [h7]; rfl

/-- A module with one act before it, and what is due in it before that act. -/
def sAct (a : Act) : State := { base 0 with agenda := [⟨9, a⟩] }

/-- The firmware reads the registers of a core that debugging opens to it. -/
def sHubRegs : State :=
  let s := sAct (.hubRegs 0 0)
  { s with hub := { s.hub with partdies := s.hub.partdies.set 0 1, dbgen := s.hub.dbgen.set 0 0xFF,
                               expiry := s.hub.expiry.set 0 0xFFFFFFFF } }

theorem wit_StepRunsEvent :
    (∃ (s : State) (dt : Nat) (i : Instr) (r : List Turn), s.timetable s.nextDt = none ∧ s.agenda = ⟨dt, .event i⟩ :: r ∧
      i.eng = none) ∧
    (∃ (s : State) (dt : Nat) (i : Instr) (r : List Turn), s.timetable s.nextDt = none ∧ s.agenda = ⟨dt, .event i⟩ :: r ∧
      i.eng ≠ none) ∧
    (∃ (s : State) (dt : Nat) (w : Window) (off : Nat) (r : List Turn), s.timetable s.nextDt = none ∧
      s.agenda = ⟨dt, .busRead w off⟩ :: r) ∧
    (∃ (s : State) (dt p n : Nat) (r : List Turn), s.timetable s.nextDt = none ∧ s.agenda = ⟨dt, .hubRead p n⟩ :: r) ∧
    (∃ (s : State) (dt u : Nat) (r : List Turn), s.timetable s.nextDt = none ∧ s.agenda = ⟨dt, .upset u true⟩ :: r ∧
      isDram (64 * u) = true ∧ ({ s.pass dt with agenda := r } : State).poison.contains u = false) ∧
    (∃ (s : State) (dt : Nat) (d : Fin 8) (c : Nat) (r : List Turn), s.timetable s.nextDt = none ∧ s.agenda = ⟨dt, .hubRegs d c⟩ :: r ∧
      ({ s.pass dt with agenda := r } : State).hubMayRead d (c / quadCores d) = false) ∧
    (∃ (s : State) (dt : Nat) (d : Fin 8) (c : Nat) (r : List Turn) (b : Block), s.timetable s.nextDt = none ∧
      s.agenda = ⟨dt, .hubRegs d c⟩ :: r ∧
      let t : State := { s.pass dt with agenda := r }
      t.hubMayRead d (c / quadCores d) = true ∧ (t.blocks.find? fun b => b.placed && b.die == d && b.core == c) = some b) ∧
    (∃ s x, State.timetable s s.nextDt = some x) :=
  ⟨⟨sAct (.event (.tlbinvDone 3)), 9, _, [], none_of (by decide +kernel), rfl, rfl⟩,
   ⟨sAct (.event (.cNop ⟨pT⟩)), 9, _, [], none_of (by decide +kernel), rfl, by decide⟩,
   ⟨sAct (.busRead .hub 0x4F08), 9, _, _, [], none_of (by decide +kernel), rfl⟩,
   ⟨sAct (.hubRead 0x10000 8), 9, _, _, [], none_of (by decide +kernel), rfl⟩,
   ⟨sAct (.upset 1024 true), 9, 1024, [], none_of (by decide +kernel), rfl, by decide +kernel, by decide +kernel⟩,
   ⟨sAct (.hubRegs 0 0), 9, 0, 0, [], none_of (by decide +kernel), rfl, by decide +kernel⟩,
   ⟨sHubRegs, 9, 0, 0, [], _, none_of (by decide +kernel), rfl, by decide +kernel, rfl⟩,
   ⟨sEv (cLdt false []), Option.isSome_iff_exists.mp (by decide +kernel)⟩⟩

theorem wit_StepKeepsMemory : ∃ s t, Mem.wf s.mem = true ∧ step s = .next t := by
  have h : (match step (sAct (.event (.tlbinvDone 3))) with
      | .next _ => true
      | _ => false) = true := by decide +kernel
  split at h
  · rename_i t ht
    exact ⟨_, t, by decide +kernel, ht⟩
  · cases h

/-- A strand whose back-edge decision is still to be made, in a loop with rounds to come. -/
def looping : Strand :=
  { strandAt .c [] with edge := some (0x10004, false), arms := [⟨1, 0x10004, 0x10004, 0x10000, 0⟩], lc := (strandAt .c []).lc.set 1 3 }

theorem wit_TrapTaken :
    (∃ (s : State) (e : Eng) (x : TrapInfo), (s.str e).stop = none ∧ (s.blk.scout.parallel = false ∨ x.cause = 0x28) ∧
      x.cause < 256 ∧ x.sub < 256 ∧ s.cx.st = 0) ∧
    (∃ (s : State) (e : Eng) (x : TrapInfo), (s.str e).stop = none ∧ (s.blk.scout.parallel = false ∨ x.cause = 0x28) ∧
      x.cause < 256 ∧ x.sub < 256 ∧ s.cx.st = 1 ∧ s.cx.first = 0) ∧
    (∃ (s : State) (e : Eng) (x : TrapInfo), (s.str e).stop = none ∧ (s.blk.scout.parallel = false ∨ x.cause = 0x28) ∧
      x.cause < 256 ∧ x.sub < 256 ∧ s.cx.st = 1 ∧ s.cx.first ≠ 0) ∧
    (∃ (s : State) (e : Eng), (s.str e).edge = none) ∧
    (∃ (s : State) (e : Eng) (a : Dword) (ended : Bool) (b : Dword) (st : Strand), (s.str e).edge = some (a, ended) ∧
      edgeDecision s.blk.forcing a (s.str e) (s.str e).arms = (st, some b)) ∧
    (∃ (s : State) (_ : Eng) (x : TrapInfo), s.blk.scout.parallel = true ∧ x.cause ≠ 0x28) ∧
    (∃ (i : Instr) (s : State) (e : Eng) (t : State), i.eng = some e ∧ (∀ x, i ≠ .cTrap x) ∧ (∀ x, i ≠ .cRpopn x) ∧
      (s.str e).stop = none ∧ exec i s = .next t ∧ (t.str e).stop ≠ none) ∧
    (∃ (s : State) (x : SrcArgs) (a : Dword) (s1 : State), s.inSlot .c = false ∧ (s.str .c).holds x.pred = true ∧
      (s.str .c).stop = none ∧ s.blk.scout.parallel = false ∧ Takes .c x.a s a s1) :=
  ⟨⟨sB id, .c, ⟨0xFF, 0, 0, 0, none⟩, by decide +kernel⟩,
   ⟨sB fun c => { c with st := 1 }, .g, ⟨0x28, 0x10004, 7, 255, some 0x20004⟩, by decide +kernel⟩,
   ⟨sB fun c => { c with st := 1, first := 9 }, .c, ⟨0x50, 0, 7, 0, none⟩, by decide +kernel⟩,
   ⟨base 0, .c, by decide +kernel⟩, ⟨atLine looping, .c, 0x10004, false, _, _, by decide +kernel, rfl⟩,
   ⟨withBlk 0 fun b => { b with scout := { b.scout with round := .body, kr := 2 } }, .v, ⟨1, 0, 0, 0, none⟩, by decide +kernel⟩,
   ⟨.cHalt ⟨pT⟩, (sB id).modStr .c fun st => { st with slots := 1 }, .c, _, rfl, (fun _ h => nomatch h),
     (fun _ h => nomatch h), by decide +kernel, rfl, by decide +kernel⟩,
   ⟨withBlk 0 fun b => { b with q := b.q.set 3 [9] }, ⟨pT, .port (.q 3)⟩, 9, _, by decide +kernel, by decide +kernel,
     by decide +kernel, by decide +kernel, [], rfl, rfl⟩⟩

/-- s5 names a page of a pool that is being restored. -/
def sRst : State :=
  let s := sZ 10
  { s with mem := Mem.write s.mem ((poolC 10).pageWord 3 3) (leBytes 4 0x209), blk := { s.blk with s := s.blk.s.set 5 0x130000 } }

/-- Bank 7 is lent to the m strand, whose engine has a command of it queued. -/
def sBret : State := withBlk 0 fun b =>
  { b with holders := b.holders.set 7 .m,
           engs := b.engs.set 1 { b.engs[1] with queue := [Cmd.new (.mexpGet ⟨pT, 0, 0, 7, 0⟩) 0x10004] } }

theorem wit_WaitingHasNoEffect :
    (∃ (i : Instr) (s : State) (e : Eng) (t : State), i.eng = some e ∧ (∀ x, i ≠ .cRpopn x) ∧ (s.str e).wait = .run ∧
      exec i s = .next t ∧ (t.str e).wait = .blocked) ∧
    (∃ (i : Instr) (s : State) (e : Eng) (t : State), i.eng = some e ∧ (∀ x, i ≠ .cRpopn x) ∧ (s.str e).wait = .run ∧
      exec i s = .next t ∧ (t.str e).wait = .stalled) ∧
    (∃ (i : Instr) (s : State) (e : Eng) (t : State), i.eng = some e ∧ (∀ x, i ≠ .cRpopn x) ∧ (s.str e).wait = .run ∧
      exec i s = .next t ∧ (t.str e).wait = .freeze) ∧
    (∃ (i : Instr) (s : State) (e : Eng) (t : State), i.eng = some e ∧ (∀ x, i ≠ .cRpopn x) ∧ (s.str e).wait = .run ∧
      exec i s = .next t ∧ ∃ k, (t.str e).wait = .bret k) ∧
    (∃ (i : Instr) (s : State) (e : Eng) (t : State), i.eng = some e ∧ (∀ x, i ≠ .cRpopn x) ∧ (s.str e).wait = .run ∧
      exec i s = .next t ∧ (t.str e).wait = .mark s.time 0x50000) :=
  ⟨⟨.cAdd ⟨pT, .reg 1, .port (.q 3), .reg 2⟩, base 0, .c, _, rfl, (fun _ h => nomatch h), rfl, rfl, by decide +kernel⟩,
   ⟨.cAdd ⟨pT, .reg 1, .reg 3, .reg 2⟩, withBlk 0 fun b => { b with inflight := [⟨.c, .reg 3, 7, vzero, none⟩] }, .c, _, rfl,
     (fun _ h => nomatch h), rfl, rfl, by decide +kernel⟩,
   ⟨.cLdD ⟨pT, .reg 1, 5, 0⟩, sRst, .c, _, rfl, (fun _ h => nomatch h), rfl, rfl, by decide +kernel⟩,
   ⟨.mBret ⟨pT, 7⟩, sBret, .m, _, rfl, (fun _ h => nomatch h), rfl, rfl, 7, by decide +kernel⟩,
   ⟨.cLdD ⟨pT, .reg 1, 5, 0⟩, sStall fun s => { s with blk := { s.blk with s := s.blk.s.set 5 0x50000 } }, .c, _, rfl,
     (fun _ h => nomatch h), rfl, rfl, by decide +kernel⟩⟩

theorem wit_FalsePredicate :
    (∃ i s e n p src dst t u, (skipsArith i <|> skipsC i <|> skipsEng i <|> skipsV s i) = some (e, n, p, src, dst) ∧
      (slotBarred i = some e → State.inSlot s e = false) ∧ (State.str s e).holds p = false ∧
      Along (Drops e) src s t ∧ Along (PutsZero e) dst t u ∧ src = [.port (.q 3), .reg 2] ∧ dst = [.reg 1]) ∧
    (∃ i s e n p src dst t u, (skipsArith i <|> skipsC i <|> skipsEng i <|> skipsV s i) = some (e, n, p, src, dst) ∧
      (slotBarred i = some e → State.inSlot s e = false) ∧ (State.str s e).holds p = false ∧
      Along (Drops e) src s t ∧ Along (PutsZero e) dst t u ∧ src = [.port (.g 0), .port (.vq 0)] ∧ dst = [.port (.vq 1)]) ∧
    (∃ i s e n p src dst t u, (skipsArith i <|> skipsC i <|> skipsEng i <|> skipsV s i) = some (e, n, p, src, dst) ∧
      slotBarred i = some e ∧ State.inSlot s e = false ∧ (State.str s e).holds p = false ∧
      Along (Drops e) src s t ∧ Along (PutsZero e) dst t u) ∧
    (∃ i s e x, jumps i = some (e, x) ∧ State.inSlot s e = false ∧ (State.str s e).holds x.pred = false) ∧
    (∃ (s : State) (x : JtlArgs) (t : State), s.inSlot .c = false ∧ (s.str .c).holds x.pred = false ∧ PutsZero .c x.d s t ∧
      x.d = .port (.q 0)) ∧
    (∃ (s : State) (x : FlagArgs), (s.str .c).holds x.pred = false ∧ (s.blk.flags[x.f]).p.toNat ≠ 2 ^ 32 - 1) ∧
    (∃ (s : State) (x : FlagArgs), (s.str .c).holds x.pred = false ∧ (s.blk.flags[x.f]).p.toNat = 2 ^ 32 - 1) ∧
    (∃ i s e n p attr op regs t, commands i = some (e, n, p, attr, op, regs) ∧ (State.str s e).holds p = false ∧
      attrBad (s.blk.attr e attr) = false ∧ Along (Drops e) ((countOf op).toList.map fun q => .port (.q q)) s t ∧
      countOf op = some 0 ∧ (s.blk.attr e attr).toNat / 2 ^ 16 % 2 = 1 ∧
      (t.blk.flags[Fin.ofNat 64 ((s.blk.attr e attr).toNat / 2 ^ 10)]).p.toNat ≠ 2 ^ 32 - 1) ∧
    (∃ i s m x f h n t, vUnpacks i = some (m, x, f, h) ∧ x.keep = true ∧ x.a = .port (.g n) ∧
      (State.str s .v).holds x.pred = false ∧ s.toCome .a (aSets n.val) (s.str .v).pc.toNat = false ∧
      (s.blk.streams[n]).filled ≠ 0 ∧ (s.blk.streams[n]).rrsv = (s.blk.streams[n]).rd ∧ PutsZero .v x.d s t) ∧
    (∃ (s : State) (x : NoArgs), s.inSlot .c = false ∧ (s.str .c).holds x.pred = false ∧
      ∀ r, s.blk.scout.round ≠ .guess r) ∧
    (∃ (s : State) (x : NoArgs) (r : Dword), s.inSlot .c = false ∧ (s.str .c).holds x.pred = false ∧
      s.blk.scout.round = .guess r ∧
      (s.blk.vq[s.blk.scout.cin]).length + s.blk.inflightTo (.port (.vq s.blk.scout.cin)) + s.blk.scout.carries ≤ 4) ∧
    (∃ (s : State) (x : AcceptArgs) (t u : State), (s.str .c).holds x.pred = false ∧ s.blk.scout.round = .body ∧
      Along (Drops .c) (List.replicate s.blk.scout.carries (.port (.vq s.blk.scout.cout))) s t ∧ PutsZero .c x.d t u) ∧
    (∃ (i : Instr) (s : State) (e : Eng), slotBarred i = some e ∧ (s.str e).slots ≠ 0) :=
  ⟨⟨.cAdd ⟨pF, .reg 1, .port (.q 3), .reg 2⟩, withBlk 0 fun b => { b with q := b.q.set 3 [9] }, .c, _, _, _, _, _, _, rfl,
     (fun h => nomatch h), by decide +kernel, ⟨_, ⟨9, [], rfl, rfl⟩, _, rfl, rfl⟩, ⟨_, rfl, rfl⟩, rfl, rfl⟩,
   ⟨.vVadd ⟨pF, .port (.vq 1), .port (.g 0), .port (.vq 0)⟩, sV, .v, _, _, _, _, _, _, rfl,
     (fun h => nomatch h), by decide +kernel,
     ⟨_, ⟨by decide +kernel, by decide +kernel, by decide +kernel, rfl⟩, _, ⟨_, _, rfl, rfl⟩, rfl⟩,
     ⟨_, ⟨first_push rfl, by decide +kernel, rfl⟩, rfl⟩, rfl, rfl⟩,
   ⟨.aNgo ⟨pF, 0⟩, base 0, .a, _, _, _, _, _, _, rfl, rfl, by decide +kernel, by decide +kernel, rfl, rfl⟩,
   ⟨.vJt ⟨pF, 1⟩, base 0, .v, _, rfl, by decide +kernel, by decide +kernel⟩,
   ⟨base 0, ⟨pF, .port (.q 0), 1⟩, _, by decide +kernel, by decide +kernel, ⟨first_push rfl, by decide +kernel, rfl⟩, rfl⟩,
   ⟨base 0, ⟨pF, 63⟩, by decide +kernel, by decide +kernel⟩,
   ⟨withBlk 0 fun b => { b with flags := b.flags.set 63 ⟨0xFFFFFFFF, []⟩ }, ⟨pF, 63⟩, by decide +kernel, by decide +kernel⟩,
   ⟨.mMma ⟨pF, 1, 0, 0, 16⟩ ⟨0, 0, 0, false, false, 0, 0⟩, withBlk 0 fun b =>
       { b with q := b.q.set 0 [9], attrs := b.attrs.set 1 ((Vector.replicate 32 (0 : Word)).set 1 0x1FC00) }, .m, _, _, _, _, _, _,
     rfl, by decide +kernel, by decide +kernel, ⟨_, ⟨9, [], rfl, rfl⟩, rfl⟩, rfl, by decide +kernel, by decide +kernel⟩,
   ⟨.vVunpk ⟨pF, .port (.vq 1), .port (.g 0), 3, true⟩, sV, _, _, _, _, 0, _, rfl, rfl, rfl, by decide +kernel, by decide +kernel,
     by decide +kernel, by decide +kernel, ⟨first_push rfl, by decide +kernel, rfl⟩⟩,
   ⟨base 0, ⟨pF⟩, by decide +kernel, by decide +kernel, fun _ h => nomatch h⟩,
   ⟨sS (.guess 0x10008), ⟨pF⟩, 0x10008, by decide +kernel, by decide +kernel, rfl, by decide +kernel⟩,
   ⟨sS .body, ⟨pF, .reg 2, true⟩, _, _, by decide +kernel, rfl, ⟨_, ⟨vzero, [], rfl, rfl⟩, rfl⟩, rfl⟩,
   ⟨.cHalt ⟨pT⟩, (sB id).modStr .c fun st => { st with slots := 1 }, .c, rfl, by decide +kernel⟩⟩

/-! ## Units of commands -/

/-- A module whose block has been changed, with bytes at 0x12000. -/
def sUnit (f : Block → Block) (bs : List Byte) : State := { withBlk 0 f with mem := Mem.write [] 0x12000 bs }

/-- A command with its registers. -/
def cRegs (op : CmdOp) (l : List Dword) : Cmd := { Cmd.new op 0x10004 with regs := l }

/-- Stream 0 with a buffer of sixteen entries and vectors of 256 bytes: an in stream, and an out stream with one entry. -/
def inStr : Machine.Stream := ⟨BitVec.ofNat 64 (16 * 2 ^ 48), 0x00700000, 0, 0, 16, 0, []⟩
def outStr : Machine.Stream := ⟨BitVec.ofNat 64 (16 * 2 ^ 48), 0x80700000, 0, 1, 16, 0, []⟩
def withStr (x : Machine.Stream) (b : Block) : Block := { b with streams := b.streams.set 0 x }

/-- A region whose entries are all of one kind has no page to restore. -/
theorem no_restore {s : State} {x : CopyMm} {i : Nat} {e : MapEntry} (h : s.entryOf x.dst = some (i, e)) (hk : e.kind ≠ 2) :
    NoRestore s x := by
  intro j e' h'
  rw [h] at h'
  simp only [Option.some.injEq, Prod.mk.injEq] at h'
  exact h'.2 ▸ hk

def cMm : Cmd := cRegs (.copyMm ⟨pT, 0, 0, 0, 0⟩) [0x11000, 0x13000, 8]
def cMs : Cmd := cRegs (.copyMs ⟨pT, 0, 0, 0, 0⟩) [0, 0x13000, 256]
def cSm : Cmd := cRegs (.copySm ⟨pT, 0, 0, 0, 0⟩) [0x11000, 0, 256]
def cList : Cmd := cRegs (.copyl ⟨pT, 0, 0, 0, 0⟩) [0x12000, 1, 0]
def cDrain : Cmd := cRegs (.sdrain ⟨pT, 0, 0, 0, 0⟩) [0, 1]

theorem wit_CopyUnits :
    (∃ (c : Cmd) (x : CopyMm) (t t1 : State), mmOf c = some x ∧ c.count < x.len ∧ c.ord.rel = false ∧
      t.blk.writesRound .a c.idx = false ∧ NoRestore t x ∧
      asCmd .a c.idx 8 (moves x c.count (nextBytes x c.count)) t = .ok ((), t1)) ∧
    (∃ (c : Cmd) (g : Fin 16) (y : CopyMm) (t t1 : State) (x : Machine.Stream) (p : Word), streamCopyOf c = some (false, g, y) ∧
      x = t.blk.streams[g] ∧ p = c.pos + BitVec.ofNat 32 c.prog ∧ x.out = false ∧ y.len % x.vbytes = 0 ∧
      y.src % streamAlign x.format = 0 ∧ c.prog < y.len / x.vbytes ∧ c.ord.rel = false ∧ c.moved x x.wr c.prog = false ∧
      (p - x.rd).toNat < x.cap ∧ asCmd .a c.idx (max 1 (fmtBits x.format / 8)) (do
        let bs ← readSide y.farSrc (y.src + c.prog * x.vbytes) x.vbytes
        fills g p bs (← readScales x y.farSrc y.src x.nscales (c.prog * x.nscales))) t = .ok ((), t1) ∧
      p = x.wr ∧ x.early = []) ∧
    (∃ (c : Cmd) (g : Fin 16) (y : CopyMm) (t t1 : State) (x : Machine.Stream) (p : Word), streamCopyOf c = some (true, g, y) ∧
      x = t.blk.streams[g] ∧ p = c.pos + BitVec.ofNat 32 c.prog ∧ x.out = true ∧ y.len % x.vbytes = 0 ∧
      y.dst % streamAlign x.format = 0 ∧ c.prog < y.len / x.vbytes ∧ c.ord.rel = false ∧ t.blk.writesRound .a c.idx = false ∧
      c.served = false ∧ NoRestore t y ∧ c.moved x x.rd c.prog = false ∧ x.hasAt p = true ∧
      asCmd .a c.idx (max 1 (fmtBits x.format / 8)) (do
        let bs ← readPhys (t.sliceVa (entryOff x p)) (t.blk.slice + entryOff x p) 320
        writeSide y.farDst (y.dst + c.prog * x.vbytes) (bs.take x.vbytes)
        writeScales x y.farDst y.dst (bs.drop 256) x.nscales (c.prog * x.nscales)) t = .ok ((), t1) ∧
      p = x.rd ∧ x.early = []) := by
  exact ⟨⟨cMm, ⟨0x11000, 0x13000, 8, 0, false⟩, sUnit id [], _, by decide +kernel, by decide +kernel, rfl, by decide +kernel,
      no_restore (i := 0) (e := fetchEntry 0) (by decide +kernel) (by decide), ok_unit sA (by decide +kernel)⟩,
    ⟨cMs, 0, ⟨0, 0x13000, 256, 0, false⟩, sUnit (withStr inStr) [], _, inStr, 0, by decide +kernel, by decide +kernel, by decide +kernel,
      by decide +kernel, by decide +kernel, by decide +kernel, by decide +kernel, rfl, by decide +kernel, by decide +kernel,
      ok_unit sA (by decide +kernel), rfl, rfl⟩,
    ⟨cSm, 0, ⟨0x11000, 0, 256, 0, false⟩, sUnit (withStr outStr) [], _, outStr, 0, by decide +kernel, by decide +kernel, by decide +kernel,
      by decide +kernel, by decide +kernel, by decide +kernel, by decide +kernel, rfl, by decide +kernel, rfl,
      no_restore (i := 0) (e := fetchEntry 0) (by decide +kernel) (by decide), by decide +kernel, by decide +kernel,
      ok_unit sA (by decide +kernel), rfl, rfl⟩⟩

/-- Entries of a copy list: a DOM that no package has, no bytes, and eight bytes from 0x13000 to 0x11000. -/
def badEnt : List Byte := leBytes 20 0 ++ [11]
def goodEnt : List Byte := leBytes 8 0x11000 ++ leBytes 8 0x13000 ++ leBytes 4 8

theorem wit_CopyLists :
    (∃ (c : Cmd) (z : CArgs) (t t1 : State) (bs : List Byte), c.op = .copyl z ∧ c.reg 0 % 32 = 0 ∧
      c.reg 2 % 2 ^ 32 + c.prog < c.reg 1 % 2 ^ 32 ∧ c.reg 1 % 2 ^ 32 - c.reg 2 % 2 ^ 32 ≤ 16 ∧
      asCmd .a c.idx 8 (readVirt false (c.reg 0 + 32 * (c.reg 2 % 2 ^ 32 + c.prog)) 32) t = .ok (bs, t1) ∧ entryOf bs = none) ∧
    (∃ (c : Cmd) (z : CArgs) (t t1 : State) (bs : List Byte) (x : CopyMm), c.op = .copyl z ∧ c.reg 0 % 32 = 0 ∧
      c.reg 2 % 2 ^ 32 + c.prog < c.reg 1 % 2 ^ 32 ∧ (∃ k isl, c.leave = .granted k isl) ∧
      asCmd .a c.idx 8 (readVirt false (c.reg 0 + 32 * (c.reg 2 % 2 ^ 32 + c.prog)) 32) t = .ok (bs, t1) ∧
      entryOf bs = some x ∧ x.len = 0) ∧
    (∃ (c : Cmd) (z : CArgs) (t t1 t2 : State) (bs : List Byte) (x : CopyMm), c.op = .copyl z ∧ c.reg 0 % 32 = 0 ∧
      c.reg 2 % 2 ^ 32 + c.prog < c.reg 1 % 2 ^ 32 ∧ c.reg 1 % 2 ^ 32 - c.reg 2 % 2 ^ 32 ≤ 16 ∧
      asCmd .a c.idx 8 (readVirt false (c.reg 0 + 32 * (c.reg 2 % 2 ^ 32 + c.prog)) 32) t = .ok (bs, t1) ∧
      entryOf bs = some x ∧ c.count < x.len ∧ c.ord.rel = false ∧ t1.blk.writesRound .a c.idx = false ∧ NoRestore t1 x ∧
      asCmd .a c.idx 8 (do
        let _ ← readVirt false (c.reg 0 + 32 * (c.reg 2 % 2 ^ 32 + c.prog)) 32
        moves x c.count (nextBytes x c.count)) t = .ok ((), t2)) ∧
    (∃ (c : Cmd) (z : CArgs) (t : State) (x : Machine.Stream), c.op = .sdrain z ∧ x = t.blk.streams[Fin.ofNat 16 z.o1.val] ∧
      c.prog < c.reg 1 % 2 ^ 32 ∧ x.out = true ∧ c.moved x x.rd c.prog = false ∧
      x.hasAt (c.pos + BitVec.ofNat 32 c.prog) = true) ∧
    (∃ (c : Cmd) (z : CArgs) (t : State) (x : Machine.Stream), c.op = .sdrain z ∧ x = t.blk.streams[Fin.ofNat 16 z.o1.val] ∧
      c.prog < c.reg 1 % 2 ^ 32 ∧ x.out = false ∧ x.filled ≠ 0 ∧ x.rd = c.pos + BitVec.ofNat 32 c.prog) :=
  ⟨⟨cList, _, sUnit id badEnt, _, _, rfl, by decide +kernel, by decide +kernel, by decide +kernel,
    ok_of_answers [] sA (by decide +kernel), by decide +kernel⟩,
   ⟨{ cList with leave := .granted 1 0 }, _, sUnit id [], _, _, ⟨0, 0, 0, 0, false⟩, rfl, by decide +kernel, by decide +kernel,
    ⟨1, 0, rfl⟩, ok_of_answers [] sA (by decide +kernel), by decide +kernel, rfl⟩,
   ⟨cList, _, sUnit id goodEnt, _, _, _, ⟨0x11000, 0x13000, 8, 0, false⟩, rfl, by decide +kernel, by decide +kernel,
    by decide +kernel, ok_of_answers [] sA (by decide +kernel), by decide +kernel, by decide +kernel, rfl, by decide +kernel,
    no_restore (i := 0) (e := fetchEntry 0) (by decide +kernel) (by decide), ok_unit sA (by decide +kernel)⟩,
   ⟨cDrain, _, sUnit (withStr outStr) [], outStr, rfl, by decide +kernel⟩,
   ⟨cDrain, _, sUnit (withStr { inStr with wr := 1 }) [], { inStr with wr := 1 }, rfl, by decide +kernel⟩⟩

/-- A tensor of four words at 0x14000. -/
def tens : List Byte :=
  leBytes 8 0x14000 ++ leBytes 8 0 ++ leBytes 16 4 ++ leBytes 16 4 ++ leBytes 8 0 ++ [1, 2]

/-- A block list of one element: gathered, scattered or added. -/
def blkExt (scatter add : Bool) : CopybExt := ⟨scatter, 0, add, 0, 0, 0, 0, 0⟩
def cBlk (scatter add : Bool) : Cmd := cRegs (.copyb ⟨pT, 0, 0, 0, 0⟩ (blkExt scatter add)) [0x11000, 0x12000, 0x13000]

/-- The tensor and the addresses of a block list. -/
def pick (c : Cmd) (e : CopybExt) : M (Tensor × List (Nat × List (Option Nat))) := do
  let tn ← copybTensor c e
  return (tn, ← entryAddrs c e tn (e.nidx.toNat + 1) 0)

theorem wit_CopyBlocks :
    (∃ (c : Cmd) (z : CArgs) (e : CopybExt) (t : State) (y : Tensor × List (Nat × List (Option Nat))) (t1 : State) (v : Nat)
        (t2 : State), c.op = .copyb z e ∧ c.ord.rel = false ∧ asCmd .a c.idx 8 (pick c e) t = .ok (y, t1) ∧
      t1.blk.writesRound .a c.idx = false ∧ e.scatter = false ∧ asCmd .a c.idx 8 (do
        let _ ← pick c e
        inUnits y.1.esz do
          let got ← readElems y.1.esz (y.2.flatMap fun y => y.2.filterMap id).eraseDups
          writeVirt false (c.reg 0) (y.2.flatMap fun z => gatherBlock y.1.esz got z.2)) t = .ok (v, t2)) ∧
    (∃ (c : Cmd) (z : CArgs) (e : CopybExt) (t : State) (y : Tensor × List (Nat × List (Option Nat))) (t1 t2 : State),
      c.op = .copyb z e ∧ c.ord.rel = false ∧ asCmd .a c.idx 8 (pick c e) t = .ok (y, t1) ∧
      t1.blk.writesRound .a c.idx = false ∧ e.scatter = true ∧ e.add = false ∧ asCmd .a c.idx 8 (do
        let _ ← pick c e
        inUnits y.1.esz do
          let bs ← packedBlocks c e y.1 y.2
          scatterElems (bs.flatMap fun z => blockWrites y.1.esz z.1 z.2)) t = .ok ((), t2)) ∧
    (∃ (c : Cmd) (z : CArgs) (e : CopybExt) (t : State) (y : Tensor × List (Nat × List (Option Nat))) (t1 : State) (k : Cmd)
        (t2 : State), c.op = .copyb z e ∧ c.ord.rel = false ∧ asCmd .a c.idx 8 (pick c e) t = .ok (y, t1) ∧
      t1.blk.writesRound .a c.idx = false ∧ e.scatter = true ∧ e.add = true ∧ asCmd .a c.idx 8 (do
        let _ ← pick c e
        inUnits y.1.esz do
          let bs ← packedBlocks c e y.1 y.2
          sendSums (bs.foldl (fun l z => contribBlock l z.1 z.2) []) c) t = .ok (k, t2)) :=
  ⟨⟨cBlk false false, _, _, sUnit id tens, _, _, _, _, rfl, rfl, ok_of_answers (⟨0, 0, 0, 0, []⟩, []) sA (by decide +kernel),
    by decide +kernel, rfl, ok_of_answers 0 sA (by decide +kernel)⟩,
   ⟨cBlk true false, _, _, sUnit id tens, _, _, _, rfl, rfl, ok_of_answers (⟨0, 0, 0, 0, []⟩, []) sA (by decide +kernel),
    by decide +kernel, rfl, rfl, ok_unit sA (by decide +kernel)⟩,
   ⟨cBlk true true, _, _, sUnit id tens, _, _, _, _, rfl, rfl, ok_of_answers (⟨0, 0, 0, 0, []⟩, []) sA (by decide +kernel),
    by decide +kernel, rfl, rfl, ok_of_answers cmd0 sA (by decide +kernel)⟩⟩

/-- Ring 0 with four free slots of 64 bytes. -/
def ring4 (b : Block) : Block :=
  { b with task := 9, rings := b.rings.set 0 { base := 0x11000, cap := 4, slot := 64, head := 0, tail := 0, claimed := 0 } }

/-- A task whose multicast group 7 holds its one block. -/
def sCast : State :=
  { sUnit ring4 [] with
    tasks := [{ key := 9, ctx := 0, src := .block 1, pkt := packetOf [], xfer := none, groups := [⟨7, 2, [0]⟩],
                rings := [], strms := [], held := [0], want := [], entered := 0, est := 0, doneIdx := [], drains := [],
                sees := none, clock := Vector.replicate 10 0 }] }

def cCast : Cmd := cRegs (.mcast ⟨pT, 0, 0, 0, 0⟩ ⟨7, 1, false, 1⟩) [0, 0x13000, 0]
def cScrub : Cmd :=
  { cRegs (.scrub ⟨pT, 0, 0, 0, 0⟩) [0x13000, 128, 0x11000] with served := true, prog := 128, data := [0, 2] }

/-- That state with the slot claimed, and after the write of the slot. -/
def sClaim : State :=
  sCast.modBlock 1 fun z => z.modRingAt (sCast.ownRound cCast 1) 0 fun r => { r with claimed := r.claimed + BitVec.ofNat 32 1 }
def cDone : Cmd := { cCast with served := true, data := List.replicate 64 1, targets := [.todo] }
def sWrote : State :=
  endOf (asCmd .a 0 8 (writeSlots (ring4 (blockOn 0)).rings[0] 0 64 1 cDone.data) sClaim) sA

theorem wit_Multicasts :
    (∃ (c : Cmd) (z : CArgs) (e : McastExt) (t : State) (tk : Machine.Task) (g : Group) (bs : List Byte) (t1 : State),
      c.op = .mcast z e ∧ c.served = false ∧ e.ac = false ∧ t.taskAt t.blk.task = some tk ∧
      tk.mcastGroup e.group.val = some g ∧ g.members.length ≤ 64 ∧
      asCmd .a c.idx 8 (readVirt false (c.reg 1) (e.n.val * 64 * e.sbc.toNat)) t = .ok (bs, t1)) ∧
    (∃ (c : Cmd) (e : McastExt) (ring : Fin 32) (m : Nat) (t : State) (tk : Machine.Task) (g : Group) (i : Nat) (b : Block) (t1 t2 : State),
      c.ord.rel = false ∧ e.ac = false ∧ c.targets[m]? = some .todo ∧ t.taskAt t.blk.task = some tk ∧
      tk.mcastGroup e.group.val = some g ∧ g.members[m]? = some i ∧ t.memberBlock t.blk.task i = some b ∧
      (b.rings[ring]).slot.toNat = 64 * e.sbc.toNat ∧ e.n.val ≤ (b.rings[ring]).cap.toNat ∧ e.n.val ≤ (b.rings[ring]).free ∧
      t1 = t.modBlock b.uid (fun z => z.modRingAt (t.ownRound c b.uid) ring fun r =>
        { r with claimed := r.claimed + BitVec.ofNat 32 e.n.val }) ∧
      asCmd .a c.idx 8 (writeSlots (b.rings[ring]) (b.rings[ring]).claimed (64 * e.sbc.toNat) e.n.val c.data) t1 = .ok ((), t2) ∧
      (∃ b2, t2.memberBlock t2.blk.task i = some b2 ∧ b2.uid = b.uid) ∧ t2.behindClaim b.uid ring (b.rings[ring]).claimed = false) ∧
    (∃ (c : Cmd) (z : CArgs) (t : State) (v : Nat) (t1 : State), c.op = .scrub z ∧ c.served = true ∧ c.reg 1 ≤ c.prog ∧
      c.ord.rel = false ∧ asCmd .a c.idx 8 (writeVirt false (c.reg 2) (leBytes 4 0 ++ leBytes 4 1 ++ [2])) t = .ok (v, t1) ∧
      c.data = [0, 2]) :=
  ⟨⟨cCast, _, _, sCast, sCast.tasks[0], ⟨7, 2, [0]⟩, _, _, rfl, rfl, rfl, by decide +kernel, by decide +kernel, by decide +kernel,
    ok_of_answers [] sA (by decide +kernel)⟩,
   ⟨cDone, ⟨7, 1, false, 1⟩, 0, 0, sCast, sCast.tasks[0], ⟨7, 2, [0]⟩, 0, ring4 (blockOn 0), sClaim, sWrote, rfl, rfl, rfl,
    by decide +kernel, by decide +kernel, rfl, by decide +kernel, by decide +kernel, by decide +kernel, by decide +kernel, rfl,
    ok_unit sA (by decide +kernel),
    Option.map_eq_some_iff.1 (by decide +kernel : (sWrote.memberBlock sWrote.blk.task 0).map (fun b => b.uid) = some 1), by decide +kernel⟩,
   ⟨cScrub, _, sUnit id [], _, _, rfl, rfl, by decide +kernel, rfl, ok_of_answers 0 sA (by decide +kernel), rfl⟩⟩

/-- Ring 0 in the own slice, with slots of 16 KiB, `n` of its four filled, and bank 7 lent. -/
def ringM (n : Nat) (d : Nat) (b : Block) : Block :=
  { b with holders := b.holders.set 7 .m,
           rings := b.rings.set 0 { base := BitVec.ofNat 64 (0x00F0000000000000 + d * 2 ^ 28), cap := 4, slot := 16384, head := 0,
                                    tail := BitVec.ofNat 32 n, claimed := BitVec.ofNat 32 n } }

/-- The module with that ring, in a partition that has quad 0 of dies 0 and 4. -/
def sMat (n : Nat) : State := { sUnit (ringM n 0) [] with hub := sM.hub }

/-- One step of bf16 tiles, dense and 2:4 sparse. -/
def cStep (n : Nat) : Cmd :=
  { Cmd.new (.mma ⟨pT, 0, 0, 0, 0⟩ ⟨4, 4, 0, false, false, 0, 0⟩) 0x10004 with count := 1, prog := n }
def cSparse : Cmd := { Cmd.new (.mmas ⟨pT, 0, 0, 0, 0⟩ ⟨4, 4, 0, false, false, 0, 0⟩) 0x10004 with count := 1 }
def cM (op : CmdOp) : Cmd := Cmd.new op 0x10004

theorem rowsOf_length {α : Type} (k n : Nat) (l : List α) : (rowsOf k n l).length = n := by
  induction n generalizing l with
  | zero => rfl
  | succ n ih => exact congrArg (· + 1) (ih _)

theorem tile_rows (f k : Nat) (t : Vector (BitVec 16) 16) (bs : List Byte) : (tileValues f k t bs).1.length = 64 :=
  rowsOf_length ..

theorem sparse_rows (f k : Nat) (t : Vector (BitVec 16) 16) (bs : List Byte) : (aRows true f k t bs).length = 64 := by
  simp [aRows, spreadTile, tile_rows, rowsOf_length]

theorem dense_rows (f k : Nat) (t : Vector (BitVec 16) 16) (bs : List Byte) : (aRows false f k t bs).length = 64 := by
  simp [aRows, tile_rows]

theorem wit_TileSteps :
    (∃ (c : Cmd) (z : CArgs) (e : MmaExt) (k : Nat) (t : State) (y : List Byte × List Byte) (t1 : State),
      mmaOf c.op = some (false, z, e) ∧ (t.blk.eng .m).before c.idx = [] ∧ c.ovf = false ∧
      pairK e.fa.val e.fb.val = some k ∧ c.prog < c.count ∧
      RingFits t (Fin.ofNat 32 z.o1.val) (tileBytes e.fa.val k false) c.count ∧
      RingFits t (Fin.ofNat 32 z.o2.val) (tileBytes e.fb.val k false) c.count ∧ asCmd .m c.idx 8 (do
        let a ← readSlot (Fin.ofNat 32 z.o1.val) c.prog (tileBytes e.fa.val k false)
        return (a, ← readSlot (Fin.ofNat 32 z.o2.val) c.prog (tileBytes e.fb.val k false))) t = .ok (y, t1) ∧ t1.blk = t.blk ∧
      (aRows false e.fa.val k (t.blk.latched c e.cta) y.1).length = 64 ∧
      ((tileValues e.fb.val k (t.blk.latched c e.ctb) y.2).1).length = 64) ∧
    (∃ (c : Cmd) (sp : Bool) (z : CArgs) (e : MmaExt) (k : Nat) (t : State), mmaOf c.op = some (sp, z, e) ∧
      (t.blk.eng .m).before c.idx = [] ∧ c.ovf = false ∧ pairK e.fa.val e.fb.val = some k ∧ e.fa ≠ 11 ∧ e.fa ≠ 12 ∧
      0 < c.count ∧ c.prog = c.count) :=
  ⟨⟨cStep 0, ⟨pT, 0, 0, 0, 0⟩, ⟨4, 4, 0, false, false, 0, 0⟩, 64, sMat 1, _, _, rfl, by decide +kernel, rfl,
    by decide +kernel, by decide +kernel, by unfold RingFits; decide +kernel, by unfold RingFits; decide +kernel,
    ok_of_answers ([], []) sA (by decide +kernel), by decide +kernel, dense_rows .., tile_rows ..⟩,
   ⟨{ cSparse with prog := 1 }, true, ⟨pT, 0, 0, 0, 0⟩, ⟨4, 4, 0, false, false, 0, 0⟩, 64, sMat 1, rfl, by decide +kernel, rfl,
    by decide +kernel, by decide, by decide, by decide, rfl⟩⟩

/-- Commands on tile 0 with ring 0 or bank 7. -/
def cMrd : Cmd := cM (.mrd ⟨pT, 0, 0, 0, 6⟩)
def cMwr (n : Nat) : Cmd := { cM (.mwr ⟨pT, 0, 0, 0, 4⟩) with prog := n }

/-- What `mrd` reads out of the first tile as e4m3, with the state that rounding leaves. -/
def readOut (t : State) : List Nat × NumSt :=
  readRows .e4m3 ctlRne 64 (((t.blk.acc[0]).e.toList.zip (t.blk.acc[0]).el.toList).map fun r => (r.1.toInt, r.2.toList))
    ⟨t.blk.rsto, t.blk.status⟩

theorem wit_TileMoves :
    (∃ (c : Cmd) (z : NormArgs) (t : State), (c.op = .mnormGrow z ∨ c.op = .mnormTight z) ∧ (t.blk.eng .m).before c.idx = []) ∧
    (∃ (c : Cmd) (z : MrdArgs) (t : State) (bs : List Byte) (t1 : State), c.op = .mwr z ∧ (t.blk.eng .m).before c.idx = [] ∧
      c.ovf = false ∧ c.prog = 0 ∧ z.fmt.val = 4 ∧ RingFits t z.ring (4096 * (Fmt.bf16.width / 8)) 0 ∧
      asCmd .m c.idx 8 (readSlot z.ring 0 (4096 * (Fmt.bf16.width / 8))) t = .ok (bs, t1) ∧ t1.blk = t.blk ∧
      bs.length = 4096 * (Fmt.bf16.width / 8)) ∧
    (∃ (c : Cmd) (z : MrdArgs) (t : State), c.op = .mwr z ∧ (t.blk.eng .m).before c.idx = [] ∧ c.ovf = false ∧ c.prog = 1) ∧
    (∃ (c : Cmd) (z : MexpArgs) (t : State), (t.blk.eng .m).before c.idx = [] ∧ t.blk.holders[z.bank] = .m ∧
      c.op = .mexpGet z) ∧
    (∃ (c : Cmd) (z : MexpArgs) (t : State), (t.blk.eng .m).before c.idx = [] ∧ t.blk.holders[z.bank] = .m ∧
      c.op = .mexpSet z) ∧
    (∃ (c : Cmd) (z : MrdArgs) (t : State) (v : Nat) (t1 : State), c.op = .mrd z ∧ (t.blk.eng .m).before c.idx = [] ∧
      z.fmt.val = 6 ∧ codeFmt z.fmt.val = some .e4m3 ∧ RingFits t z.ring (4096 * (Fmt.e4m3.width / 8)) 0 ∧ c.pfx.ctl = ctlRne ∧
      c.pfx.ctl.rm ≠ .rsto ∧ z.tile = 0 ∧ 1 ≤ (t.blk.rings[z.ring]).free ∧
      asCmd .m c.idx 8 (writeVirt false ((t.blk.rings[z.ring]).slotAt (t.blk.rings[z.ring]).claimed).toNat
        (packCodes Fmt.e4m3.width (readOut t).1))
        { t with blk := { t.blk with rsto := (readOut t).2.rsto, status := (readOut t).2.st } } = .ok (v, t1)) :=
  ⟨⟨cM (.mnormGrow ⟨pT, 0, 0, 3⟩), ⟨pT, 0, 0, 3⟩, sMat 1, .inl rfl, by decide +kernel⟩,
   ⟨cMwr 0, ⟨pT, 0, 0, 0, 4⟩, sMat 1, _, _, rfl, by decide +kernel, rfl, rfl, rfl, by unfold RingFits; decide +kernel,
    ok_of_answers [] sA (by decide +kernel), by decide +kernel, by decide +kernel⟩,
   ⟨cMwr 1, ⟨pT, 0, 0, 0, 4⟩, sMat 1, rfl, by decide +kernel, rfl, rfl⟩,
   ⟨cM (.mexpGet ⟨pT, 0, 0, 7, 7⟩), ⟨pT, 0, 0, 7, 7⟩, sMat 1, by decide +kernel, by decide +kernel, rfl⟩,
   ⟨cM (.mexpSet ⟨pT, 0, 0, 7, 0⟩), ⟨pT, 0, 0, 7, 0⟩, sMat 1, by decide +kernel, by decide +kernel, rfl⟩,
   ⟨cMrd, ⟨pT, 0, 0, 0, 6⟩, sMat 1, _, _, rfl, by decide +kernel, rfl, by decide +kernel, by unfold RingFits; decide +kernel, rfl,
    by decide, rfl, by decide +kernel, ok_of_answers 0 sA (by decide +kernel)⟩⟩

/-- Stream 0 of bf16 vectors of 128 elements with a row in it, bank 7 lent, and tiles of one row. -/
def dBlk (b : Block) : Block :=
  { b with streams := b.streams.set 0 ⟨BitVec.ofNat 64 (16 * 2 ^ 48), 0x20700000, 0, 1, 1, 0, []⟩, holders := b.holders.set 7 .d,
           dacc := b.dacc.map fun t => { t with nb := 1 }, vq := b.vq.set 1 [vzero] }
def sDec : State := { withBlk 4 dBlk with hub := sM.hub }

/-- A streaming command that may take its first row. -/
def cRow (op : CmdOp) : Cmd := { cM op with served := true, leave := .granted 1 0, held := List.replicate 8 vzero }

theorem wit_DecodeUnits :
    (∃ (c : Cmd) (x : DmvArgs) (t : State), streamed c.op = some (.mv, x) ∧ t.blk.holders[x.bank] = .d ∧
      dFormat .mv (t.blk.streams[x.g]).format = true ∧ dRowOk .mv x.rf t.blk.streams[x.g] = true ∧
      (t.blk.dacc[x.dacc]).nb = x.nb1.val + 1 ∧ (t.blk.streams[x.g]).out = false) ∧
    (∃ (c : Cmd) (x : DmvArgs) (t : State), streamed c.op = some (.pv, x) ∧ t.blk.holders[x.bank] = .d ∧
      dFormat .pv (t.blk.streams[x.g]).format = true ∧ dRowOk .pv x.rf t.blk.streams[x.g] = true ∧
      (t.blk.dacc[x.dacc]).nb = x.nb1.val + 1 ∧ 64 < (t.blk.streams[x.g]).elems ∧ x.dacc = 0 ∧
      (t.blk.dacc[1]).nb = x.nb1.val + 1 ∧ (t.blk.streams[x.g]).out = false) ∧
    (∃ (c : Cmd) (k : DKind) (x : DmvArgs) (t : State) (entry : List Byte) (t1 : State) (u : Nat) (isl : Fin 32),
      streamed c.op = some (k, x) ∧ k = .qk ∧ c.served = true ∧ c.leave = .granted u isl ∧ (t.blk.eng .d).before c.idx = [] ∧
      c.ovf = false ∧ c.prog ≤ x.nr1.val ∧ c.prog = 0 ∧
      asCmd .d c.idx 8 (takeReserved x.g (c.pos + BitVec.ofNat 32 c.prog)) t = .ok (entry, t1) ∧
      t1.blk = { t.blk with streams := t1.blk.streams }) ∧
    (∃ (c : Cmd) (x : DmvArgs) (t : State) (entry : List Byte) (t1 : State) (u : Nat) (isl : Fin 32),
      c.op = .dpv x ∧ c.served = true ∧ c.leave = .granted u isl ∧ (t.blk.eng .d).before c.idx = [] ∧
      c.ovf = false ∧ c.prog ≤ x.nr1.val ∧
      asCmd .d c.idx 8 (takeReserved x.g (c.pos + BitVec.ofNat 32 c.prog)) t = .ok (entry, t1) ∧
      t1.blk = { t.blk with streams := t1.blk.streams } ∧
      (formatValues (t.blk.streams[x.g]).format false (t.blk.latched c (t.blk.streams[x.g]).ct)
        (entry.take (t.blk.streams[x.g]).vbytes) (entry.drop 256)).1.length = (t.blk.streams[x.g]).elems ∧
      (t.blk.streams[x.g]).elems ≤ 128 ∧ x.dacc = 0) ∧
    (∃ (c : Cmd) (z : NormArgs) (t : State), (c.op = .dnormGrow z ∨ c.op = .dnormTight z) ∧ (t.blk.eng .d).before c.idx = []) ∧
    (∃ (c : Cmd) (z : DrdArgs) (t : State), c.op = .drd z ∧ (t.blk.eng .d).before c.idx = [] ∧ z.fmt.val = 3 ∧
      codeFmt z.fmt.val = some .fp32 ∧ c.pfx.ctl.rm ≠ .rsto ∧ c.prog < (t.blk.dacc[z.tile]).nb ∧
      (t.blk.vq[z.vq]).length + t.blk.inflightTo (.port (.vq z.vq)) < 4) :=
  ⟨⟨cM (.dmv ⟨pT, 0, 0, 7, 0, false, 1, 63⟩), _, sDec, rfl, by decide +kernel⟩,
   ⟨cM (.dpv ⟨pT, 0, 0, 7, 0, false, 0, 63⟩), _, sDec, rfl, by decide +kernel⟩,
   ⟨cRow (.dqk ⟨pT, 0, 0, 7, 0, false, 0, 0⟩), _, _, sDec, _, _, _, _, rfl, rfl, rfl, rfl, by decide +kernel, rfl, by decide +kernel,
    rfl, ok_of_answers [] sA (by decide +kernel), by decide +kernel⟩,
   ⟨cRow (.dpv ⟨pT, 0, 0, 7, 0, false, 0, 0⟩), _, sDec, _, _, _, _, rfl, rfl, rfl, by decide +kernel, rfl, by decide +kernel,
    ok_of_answers [] sA (by decide +kernel), by decide +kernel, by decide +kernel, by decide +kernel, rfl⟩,
   ⟨cM (.dnormTight ⟨pT, 0, 1, 39⟩), _, sDec, .inr rfl, by decide +kernel⟩,
   ⟨cM (.drd ⟨pT, 0, 1, 3, 3⟩), _, sDec, rfl, by decide +kernel⟩⟩

/-- A sound descriptor of one dimension, one level and one feature, with its table and its gradients in the plain region. -/
def gDesc : GDesc :=
  ⟨0x10000, 0x20000, leBytes 8 0x0A0101 ++ leBytes 8 0x100 ++ leBytes 16 0x18000 ++ leBytes 4 0x40000000⟩

/-- A module with that descriptor in slot 0 and an entry in vector queue 1. -/
def sGro : State := withBlk 0 fun b => { b with gd := b.gd.set 0 (some gDesc), vq := b.vq.set 1 [vzero] }

/-- A grotto command with its leave and some entries. -/
def cGro (op : CmdOp) (n : Nat) : Cmd := { cM op with leave := .granted 1 0, held := List.replicate n vzero }

theorem wit_GrottoUnits :
    (∃ (c : Cmd) (x : GldArgs) (t : State) (g : GDesc) (v : VReg) (r : List VReg) (u : Nat) (isl : Fin 32), c.op = .gld x ∧
      (t.blk.eng .g).before c.idx = [] ∧ c.leave = .granted u isl ∧ t.blk.gd[x.gd] = some g ∧
      x.lb.val + (x.ln1.val + 1) ≤ g.lev ∧ c.held.length < g.dim ∧ t.blk.vq[x.vqi] = v :: r) ∧
    (∃ (c : Cmd) (x : GldArgs) (t : State) (g : GDesc) (v : VReg) (r : List VReg) (u : Nat) (isl : Fin 32), c.op = .gld x ∧
      (t.blk.eng .g).before c.idx = [] ∧ c.leave = .granted u isl ∧ t.blk.gd[x.gd] = some g ∧
      x.lb.val + (x.ln1.val + 1) ≤ g.lev ∧ g.dim ≤ c.held.length ∧ c.held.drop g.dim = v :: r ∧
      (t.blk.vq[x.vqo]).length + t.blk.inflightTo (.port (.vq x.vqo)) < 4) ∧
    (∃ (c : Cmd) (x : GldArgs) (t : State) (g : GDesc) (u : Nat) (isl : Fin 32) (lanes : List (List Nat)) (t1 : State),
      c.op = .gld x ∧ (t.blk.eng .g).before c.idx = [] ∧ c.leave = .granted u isl ∧ t.blk.gd[x.gd] = some g ∧
      x.lb.val + (x.ln1.val + 1) ≤ g.lev ∧ c.held.length = g.dim ∧
      asCmd .g c.idx 8 (gldLanes c g (x.lb.val + c.prog) 64 0 []) t = .ok (lanes, t1)) ∧
    (∃ (c : Cmd) (g : GDesc) (l k : Nat) (got : Entries) (t : State), t.blk.ofRound .g c.idx = false ∧
      g.corners l (laneCoords g c.held k) ≠ [] ∧
      ∀ y ∈ g.corners l (laneCoords g c.held k), ∃ bs, got.find? (fun z => z.1 == y.2) = some (y.2, bs)) ∧
    (∃ (c : Cmd) (x : GldArgs) (t : State) (g : GDesc) (v : VReg) (r : List VReg) (u : Nat) (isl : Fin 32), c.op = .gsc x ∧
      (t.blk.eng .g).before c.idx = [] ∧ c.leave = .granted u isl ∧ t.blk.gd[x.gd] = some g ∧
      x.lb.val + (x.ln1.val + 1) ≤ g.lev ∧ g.dim ≤ c.held.length ∧ c.held.length < g.dim + (x.ln1.val + 1) * g.feats ∧
      t.blk.vq[x.vqo] = v :: r) ∧
    (∃ (c : Cmd) (x : GldArgs) (t : State) (g : GDesc) (u : Nat) (isl : Fin 32) (k : Cmd) (t1 : State), c.op = .gsc x ∧
      (t.blk.eng .g).before c.idx = [] ∧ c.leave = .granted u isl ∧ t.blk.gd[x.gd] = some g ∧
      x.lb.val + (x.ln1.val + 1) ≤ g.lev ∧ c.held.length = g.dim + (x.ln1.val + 1) * g.feats ∧
      asCmd .g c.idx 8 (addEntries g (levelContribs g c.held x.lb.val (x.lb.val + c.prog))
        (gradEntries (levelContribs g c.held x.lb.val (x.lb.val + c.prog)) []) c) t = .ok (k, t1)) ∧
    (∃ (c : Cmd) (g : GDesc) (l e : Nat) (y : Val) (t : State) (i : Nat) (m : MapEntry) (y1 : Nat × Nat) (t1 : State), g.feats = 1 ∧
      c.ord.rel = false ∧ t.entryOf g.grad = some (i, m) ∧ t.entryOf (g.grad + (l * g.entries + e) * 4) = some (i, m) ∧
      m.st ≠ 0 ∧ m.kind = 0 ∧ permits m.perm.toNat .write = true ∧ permits m.perm.toNat .atomic = true ∧ y ≠ .nan ∧
      asCmd .g c.idx 4 (homeAdd (g.grad + (l * g.entries + e) * 4) (Fmt.fp32.rne y)) t = .ok (y1, t1)) :=
  ⟨⟨cGro (.gld ⟨pT, 0, 0, 1, 2, 0, 0⟩) 0, _, sGro, gDesc, vzero, [], 1, 0, rfl, by decide +kernel⟩,
   ⟨cGro (.gld ⟨pT, 0, 0, 1, 2, 0, 0⟩) 2, _, sGro, gDesc, vzero, [], 1, 0, rfl, by decide +kernel⟩,
   ⟨cGro (.gld ⟨pT, 0, 0, 1, 2, 0, 0⟩) 1, _, sGro, gDesc, 1, 0, _, _, rfl, by decide +kernel, rfl, by decide +kernel,
    by decide +kernel, by decide +kernel, ok_of_answers [] sA (by decide +kernel)⟩,
   ⟨cGro (.gld ⟨pT, 0, 0, 1, 2, 0, 0⟩) 1, gDesc, 0, 63, [(0, [0, 0, 0, 0]), (1, [0, 0, 128, 63])], sGro, by decide +kernel,
    by decide +kernel, by
      have h : ((gDesc.corners 0 (laneCoords gDesc (cGro (.gld ⟨pT, 0, 0, 1, 2, 0, 0⟩) 1).held 63)).all fun y =>
        y.2 == 0 || y.2 == 1) = true := by decide +kernel
      intro y hy
      have := List.all_eq_true.1 h y hy
      rcases Bool.or_eq_true_iff.1 this with h | h <;> (rw [eq_of_beq h]; exact ⟨_, rfl⟩)⟩,
   ⟨cGro (.gsc ⟨pT, 0, 0, 2, 1, 0, 0⟩) 1, _, sGro, gDesc, vzero, [], 1, 0, rfl, by decide +kernel⟩,
   ⟨cGro (.gsc ⟨pT, 0, 0, 2, 1, 0, 0⟩) 2, _, sGro, gDesc, 1, 0, _, _, rfl, by decide +kernel, rfl, by decide +kernel,
    by decide +kernel, by decide +kernel, ok_of_answers cmd0 sA (by decide +kernel)⟩,
   ⟨cM (.gsc ⟨pT, 0, 0, 2, 1, 0, 0⟩), gDesc, 0, 5, .fin false 3 0, sGro, 0, fetchEntry 0, _, _, by decide +kernel, rfl,
    by decide +kernel, by decide +kernel, by decide +kernel, by decide, by decide +kernel, by decide +kernel, by decide,
    ok_of_answers (0, 0) sA (by decide +kernel)⟩⟩

end Sys2Proof.Tests
end

section
/-! Words of format R in the c engine's P0 map: what the decoder reads from `wordR` (R86), and what a decoding step makes
of it. -/

namespace Sys2Proof.Proofs

open Sys2Proof Sys2Proof.Machine Sys2Proof.Claims

/-- The number that a word of format R is, where every field fits its place. -/
theorem wordR_toNat {op ps d a b : Nat} {p : Pred} (hop : op < 64) (hps : ps < 4) (hd : d < 64) (ha : a < 64)
    (hb : b < 64) :
    (wordR op ps p d a b).toNat =
      ps * 2 ^ 30 + b * 2 ^ 24 + a * 2 ^ 18 + d * 2 ^ 12 + (if p.n then 2 ^ 11 else 0) + p.p.val * 2 ^ 8 + op * 2 ^ 2 := by
  have hp := p.p.isLt
  unfold wordR
  rw [BitVec.toNat_ofNat, Nat.mod_eq_of_lt]
  split <;> omega

/-- The decoder reads back the fields that `wordR` put together. -/
theorem FR_ofWord_wordR {op ps d a b : Nat} {p : Pred} (hop : op < 64) (hps : ps < 4) (hd : d < 64) (ha : a < 64)
    (hb : b < 64) :
    FR.ofWord (wordR op ps p d a b) =
      { ps := Fin.ofNat 4 ps, b := Fin.ofNat 64 b, a := Fin.ofNat 64 a, d := Fin.ofNat 64 d, pred := p,
        op := Fin.ofNat 64 op, l := 0 } := by
  have hp := p.p.isLt
  have hw := wordR_toNat (p := p) hop hps hd ha hb
  have hn : (if p.n then 2 ^ 11 else 0) = digit p.n * 2 ^ 11 := by cases p.n <;> rfl
  have hn1 : digit p.n < 2 := by cases p.n <;> decide
  rw [hn] at hw
  have hneg : bitAt (wordR op ps p d a b) 11 = p.n := by
    have h : (wordR op ps p d a b).toNat / 2 ^ 11 % 2 = digit p.n := by omega
    rw [bitAt, h]
    cases p.n <;> rfl
  unfold FR.ofWord predOfWord
  rw [hneg]
  congr 1
  · exact Fin.ext (show _ / 2 ^ 30 % 4 = ps % 4 by omega)
  · exact Fin.ext (show _ / 2 ^ 24 % 64 = b % 64 by omega)
  · exact Fin.ext (show _ / 2 ^ 18 % 64 = a % 64 by omega)
  · exact Fin.ext (show _ / 2 ^ 12 % 64 = d % 64 by omega)
  · exact congrArg (Pred.mk p.n) (Fin.ext (show _ / 2 ^ 8 % 8 = p.p.val by omega))
  · exact Fin.ext (show _ / 2 ^ 2 % 64 = op % 64 by omega)
  · exact Fin.ext (show _ / 2 ^ 0 % 4 = 0 by omega)

/-- A word whose length selector is 0 is decoded by the c engine's P0 map (R84). -/
theorem decodeStep_c_of_selector {w x : Word} (h : fld 4 w 0 = 0) : decodeStep .c w x = decCP0 w := by
  simp only [decodeStep, h, Fin.val_zero]

/-- A decoding step of the c engine on a word of format R is one of its P0 map. -/
theorem decodeStep_wordR {op ps d a b : Nat} {p : Pred} (x : Word) (hop : op < 64) (hps : ps < 4) (hd : d < 64)
    (ha : a < 64) (hb : b < 64) : decodeStep .c (wordR op ps p d a b) x = decCP0 (wordR op ps p d a b) :=
  decodeStep_c_of_selector (congrArg FR.l (FR_ofWord_wordR hop hps hd ha hb))

/-- A decoding step whose fields are read as an instruction, or as none, runs the well-formed one and traps 0x02 else. -/
theorem findStep_of {e : Eng} {w x : Word} {o : Option Instr} (h : decodeStep e w x = .of o) :
    findStep e none w x = (o.filter Instr.wf).elim (.fault 0x02) (.run none) := by
  unfold findStep
  rw [h]
  cases o with
  | none => rfl
  | some i => cases hi : i.wf <;> simp [DecRes.of, hi, Option.filter]

/-- A word of format R without ports runs what its major's reader makes of its fields, where that is well-formed, and traps
0x02 else. -/
theorem findStep_wordR {op d a b : Nat} {p : Pred} {rd : FR → Option Instr} (x : Word)
    (hrd : ∀ w, fld 64 w 2 = Fin.ofNat 64 op → decCP0 w = .of (rd (FR.ofWord w)))
    (hop : op < 64) (hd : d < 64) (ha : a < 64) (hb : b < 64) :
    findStep .c none (wordR op 0 p d a b) x =
      ((rd ⟨0, Fin.ofNat 64 b, Fin.ofNat 64 a, Fin.ofNat 64 d, p, Fin.ofNat 64 op, 0⟩).filter Instr.wf).elim
        (.fault 0x02) (.run none) := by
  have hf := FR_ofWord_wordR (p := p) hop (by decide : 0 < 4) hd ha hb
  refine findStep_of ((decodeStep_wordR x hop (by decide) hd ha hb).trans ?_)
  rw [hrd _ (congrArg FR.op hf), hf]
  rfl

end Sys2Proof.Proofs
end

section
/-! `gset` (R121). -/

namespace Sys2Proof.Proofs

open Sys2Proof Sys2Proof.Machine Sys2Proof.Claims

/-- A field value within its bound is read as that index. -/
theorem lim_ofNat_of_lt {m n k : Nat} [NeZero m] [NeZero n] (hk : k < n) (h : k < m) :
    lim m (Fin.ofNat n k) = some (Fin.ofNat m k) := by
  have hv : (Fin.ofNat n k).val = k := Nat.mod_eq_of_lt hk
  rw [lim, dif_pos (hv.symm ▸ h)]
  exact congrArg some (Fin.ext (hv.trans (Nat.mod_eq_of_lt h).symm))

/-- A field value beyond its bound is refused. -/
theorem lim_ofNat_of_le {m n k : Nat} [NeZero n] (hk : k < n) (h : m ≤ k) : lim m (Fin.ofNat n k) = none :=
  dif_neg (by rw [show (Fin.ofNat n k).val = k from Nat.mod_eq_of_lt hk]; omega)

/-- The fields of a `gset` name a slot and a predicate, or are refused. -/
theorem rdGset_fields {d a : Nat} (p : Pred) (op : Fin 64) (hd : d < 64) (ha : a < 64) :
    rdGset ⟨0, 0, Fin.ofNat 64 a, Fin.ofNat 64 d, p, op, 0⟩ =
      if d < 16 ∧ a < 8 then some ⟨p, Fin.ofNat 16 d, Fin.ofNat 8 a⟩ else none := by
  unfold rdGset
  rw [if_neg (by simp)]
  by_cases hd' : d < 16
  · rw [lim_ofNat_of_lt hd hd']
    by_cases ha' : a < 8
    · rw [lim_ofNat_of_lt ha ha', if_pos ⟨hd', ha'⟩]
      rfl
    · rw [lim_ofNat_of_le ha (Nat.not_lt.1 ha'), if_neg fun h => ha' h.2]
      rfl
  · rw [lim_ofNat_of_le hd (Nat.not_lt.1 hd'), if_neg fun h => hd' h.1]
    rfl

theorem findStep_gset {d a : Nat} {p : Pred} (x : Word) (hp : p.ok = true) (hd : d < 64) (ha : a < 64) :
    findStep .c none (wordR 0x31 0 p d a 0) x =
      if d < 16 ∧ a < 8 then .run none (.cGset ⟨p, Fin.ofNat 16 d, Fin.ofNat 8 a⟩) else .fault 0x02 := by
  have hrd : ∀ w, fld 64 w 2 = Fin.ofNat 64 0x31 → decCP0 w = .of ((rdGset (FR.ofWord w)).map .cGset) := by
    intro w h
    unfold decCP0
    rw [h]
    rfl
  have hwf : ∀ gs q, (Instr.cGset ⟨p, gs, q⟩).wf = true := fun _ _ => hp
  rw [findStep_wordR (rd := fun f => (rdGset f).map .cGset) x hrd (by decide) hd ha (by decide)]
  simp only [show Fin.ofNat 64 0 = 0 from rfl, rdGset_fields p _ hd ha]
  split
  · simp [Option.filter, hwf]
  · rfl

theorem exec_cGset (x : GsetArgs) (s : State) : exec (.cGset x) s = execCGset x s := rfl

theorem exec_cGset_on {s : State} {x : GsetArgs} (h : (s.str .c).holds x.pred = true) :
    exec (.cGset x) s = .next ((withGuard s x.gs ((s.str .c).pred x.p)).complete .c 1 .go) := by
  rw [exec_cGset, execCGset]
  refine issue_on h rfl (thenGo_ok ?_) (by simp)
  rw [M_bind_ok (M_getStr .c s)]
  rfl

theorem exec_cGset_off {s : State} {x : GsetArgs} (h : (s.str .c).holds x.pred = false) :
    exec (.cGset x) s = .next (s.complete .c 1 .go) := by
  rw [exec_cGset, execCGset]
  exact issue_off h rfl (M_pure Flow.go s) (by simp)

/-- Settles O13: the decoder bounds the codes of D and A, and the rule of `issue` with and without the predicate gives
the effect. -/
theorem guardSet : Obligations.GuardSet :=
  ⟨fun _ _ _ x hp hd ha => findStep_gset x hp hd ha, fun _ _ h => exec_cGset_on h, fun _ _ h => exec_cGset_off h⟩

end Sys2Proof.Proofs
end

section
/-! `fcmp` (R112): the order of fp32 values is the order of the keys of their codes. -/

namespace Sys2Proof.Proofs

open Sys2Proof Sys2Proof.Machine Sys2Proof.Claims

/-! ## Magnitudes -/

/-- The sign bit of an fp32 code. -/
def neg32 (c : Nat) : Bool := c / 2 ^ 31 % 2 == 1

/-- The magnitude bits of an fp32 code, those of a subnormal flushed where asked for. -/
def mag32 (ftz : Bool) (c : Nat) : Nat := if ftz && decide (c % 2 ^ 31 < 2 ^ 23) then 0 else c % 2 ^ 31

/-- The finite magnitude with the bits `m`, in units of 2^-149. -/
def units32 (m : Nat) : Nat := if m < 2 ^ 23 then m else (2 ^ 23 + m % 2 ^ 23) * 2 ^ (m / 2 ^ 23 - 1)

theorem key32_eq_signed (ftz : Bool) (c : Nat) : key32 ftz c = signed (neg32 c) (mag32 ftz c) := by
  simp only [key32, signed, neg32, mag32, beq_iff_eq]

theorem mag32_le (ftz : Bool) (c : Nat) : mag32 ftz c ≤ c % 2 ^ 31 := by
  unfold mag32
  split
  · exact Nat.zero_le _
  · exact le_rfl

/-- Magnitudes of at least the least normal one are never flushed. -/
theorem mag32_of_normal {ftz : Bool} {c : Nat} (h : 2 ^ 23 ≤ c % 2 ^ 31) : mag32 ftz c = c % 2 ^ 31 := by
  rw [mag32, if_neg (by simp only [Bool.and_eq_true, decide_eq_true_eq]; omega)]

theorem mag32_of_subnormal {ftz : Bool} {c : Nat} (h : c % 2 ^ 31 < 2 ^ 23) :
    mag32 ftz c = if ftz then 0 else c % 2 ^ 31 := by
  rw [mag32, decide_eq_true h, Bool.and_true]

theorem units32_of_subnormal {m : Nat} (h : m < 2 ^ 23) : units32 m = m := if_pos h

/-- A greater magnitude has greater bits: within a binade its fraction grows, and the next binade begins above it. -/
theorem units32_strictMono : StrictMono units32 := by
  refine strictMono_nat_of_lt_succ fun m => ?_
  unfold units32
  by_cases hs : m < 2 ^ 23
  · rw [if_pos hs]
    split
    · exact Nat.lt_succ_self m
    · have hm : m + 1 = 2 ^ 23 := by omega
      rw [hm]
      omega
  · rw [if_neg hs, if_neg (by omega)]
    by_cases hf : m % 2 ^ 23 + 1 < 2 ^ 23
    · have hq : (m + 1) / 2 ^ 23 = m / 2 ^ 23 := by omega
      have hr : (m + 1) % 2 ^ 23 = m % 2 ^ 23 + 1 := by omega
      rw [hq, hr]
      exact Nat.mul_lt_mul_of_pos_right (by omega) (by positivity)
    · have hq : (m + 1) / 2 ^ 23 - 1 = m / 2 ^ 23 - 1 + 1 := by omega
      have hr : (m + 1) % 2 ^ 23 = 0 := by omega
      rw [hq, hr, Nat.add_zero, pow_succ' 2 (m / 2 ^ 23 - 1), ← mul_assoc]
      exact Nat.mul_lt_mul_of_pos_right (by omega) (by positivity)

/-- A strictly growing function of magnitudes that keeps zero keeps the order of signed ones. -/
theorem signed_lt_signed_iff {f : Nat → Nat} (hf : StrictMono f) (h0 : f 0 = 0) (s t : Bool) (m n : Nat) :
    signed s (f m) < signed t (f n) ↔ signed s m < signed t n := by
  have hmn : f m < f n ↔ m < n := hf.lt_iff_lt
  have hnm : f n < f m ↔ n < m := hf.lt_iff_lt
  have hpos : ∀ j, 0 < f j ↔ 0 < j := fun j => by simpa only [h0] using hf.lt_iff_lt (a := 0) (b := j)
  have hm := hpos m
  have hn := hpos n
  cases s <;> cases t <;> simp only [signed, if_true, Bool.false_eq_true, if_false] <;> omega

/-! ## Values -/

/-- Finite values compare as integers in any unit that divides both. -/
theorem Val_lt_fin {e f k : Int} (he : k ≤ e) (hf : k ≤ f) (s t : Bool) (m n : Nat) :
    (Val.fin s m e).lt (.fin t n f) =
      decide (signed s (m * 2 ^ (e - k).toNat) < signed t (n * 2 ^ (f - k).toNat)) := by
  have hscale : ∀ (b : Bool) (j d : Nat), signed b (j * 2 ^ d) = signed b j * 2 ^ d := by
    intro b j d
    cases b <;> simp [signed]
  have hsplit : ∀ g : Int, min e f ≤ g → (g - k).toNat = (g - min e f).toNat + (min e f - k).toNat := by
    intro g hg
    omega
  have hpos : (0 : Int) < 2 ^ (min e f - k).toNat := by positivity
  simp only [Val.lt]
  rw [hsplit e (min_le_left e f), hsplit f (min_le_right e f), pow_add, pow_add, ← mul_assoc, ← mul_assoc,
    hscale s _ (min e f - k).toNat, hscale t _ (min e f - k).toNat]
  exact decide_eq_decide.2 (mul_lt_mul_iff_left₀ hpos).symm

/-- The value of an fp32 code by its fields (R62). -/
theorem fp32_value (ftz : Bool) (c : Nat) :
    Fmt.fp32.value ftz c =
      if 0x7F7FFFFF < c % 2 ^ 31 then (if c % 2 ^ 23 = 0 then .inf (neg32 c) else .nan)
      else if c / 2 ^ 23 % 2 ^ 8 = 0 then .fin (neg32 c) (if ftz then 0 else c % 2 ^ 23) (-149)
      else .fin (neg32 c) (2 ^ 23 + c % 2 ^ 23) (((c / 2 ^ 23 % 2 ^ 8 : Nat) : Int) - 127 - 23) := by
  simp only [Fmt.value, Fmt.fp32, Bool.true_and, beq_iff_eq]
  rfl

theorem fp32_value_of_nan {ftz : Bool} {c : Nat} (h : 0x7F800000 < c % 2 ^ 31) : Fmt.fp32.value ftz c = .nan := by
  rw [fp32_value, if_pos (by omega), if_neg (by omega)]

theorem fp32_value_of_inf {ftz : Bool} {c : Nat} (h : c % 2 ^ 31 = 0x7F800000) :
    Fmt.fp32.value ftz c = .inf (neg32 c) := by
  rw [fp32_value, if_pos (by omega), if_pos (by omega)]

/-- A finite code's value, counted in units of 2^-149. -/
theorem fp32_value_of_finite (ftz : Bool) {c : Nat} (h : c % 2 ^ 31 < 0x7F800000) :
    ∃ m e, Fmt.fp32.value ftz c = .fin (neg32 c) m e ∧ -149 ≤ e ∧
      m * 2 ^ (e - -149).toNat = units32 (mag32 ftz c) := by
  rw [fp32_value, if_neg (by omega)]
  by_cases hs : c % 2 ^ 31 < 2 ^ 23
  · have hex : c / 2 ^ 23 % 2 ^ 8 = 0 := by omega
    have hfr : c % 2 ^ 23 = c % 2 ^ 31 := by omega
    refine ⟨_, _, if_pos hex, le_rfl, ?_⟩
    rw [hfr, mag32_of_subnormal hs, units32_of_subnormal (by split <;> omega)]
    exact Nat.mul_one _
  · have hex : c / 2 ^ 23 % 2 ^ 8 ≠ 0 := by omega
    refine ⟨_, _, if_neg hex, by omega, ?_⟩
    have hfr : c % 2 ^ 31 % 2 ^ 23 = c % 2 ^ 23 := by omega
    have he : ((c / 2 ^ 23 % 2 ^ 8 : Nat) - 127 - 23 - -149 : Int).toNat = c % 2 ^ 31 / 2 ^ 23 - 1 := by omega
    rw [he, mag32_of_normal (Nat.not_lt.1 hs), units32, if_neg hs, hfr]

theorem fp32_value_isNan (ftz : Bool) (c : Nat) : (Fmt.fp32.value ftz c).isNan = isNan32 c := by
  rcases lt_trichotomy (c % 2 ^ 31) 0x7F800000 with h | h | h
  · obtain ⟨m, e, hv, -, -⟩ := fp32_value_of_finite ftz h
    rw [hv, isNan32, decide_eq_false (by omega)]
    rfl
  · rw [fp32_value_of_inf h, isNan32, decide_eq_false (by omega)]
    rfl
  · rw [fp32_value_of_nan h, isNan32, decide_eq_true h]
    rfl

/-- Values of codes that are no NaN stand as their keys do: an infinity lies beyond all finite magnitudes, and these grow
with their bits. -/
theorem fp32_value_lt {ftz : Bool} {x y : Nat} (hx : isNan32 x = false) (hy : isNan32 y = false) :
    (Fmt.fp32.value ftz x).lt (Fmt.fp32.value ftz y) = decide (key32 ftz x < key32 ftz y) := by
  have hx' : x % 2 ^ 31 ≤ 0x7F800000 := Nat.not_lt.1 (of_decide_eq_false hx)
  have hy' : y % 2 ^ 31 ≤ 0x7F800000 := Nat.not_lt.1 (of_decide_eq_false hy)
  have hmx := mag32_le ftz x
  have hmy := mag32_le ftz y
  rw [key32_eq_signed, key32_eq_signed]
  rcases hx'.lt_or_eq with hx | hx <;> rcases hy'.lt_or_eq with hy | hy
  · obtain ⟨m, e, hvx, he, hux⟩ := fp32_value_of_finite ftz hx
    obtain ⟨n, f, hvy, hf, huy⟩ := fp32_value_of_finite ftz hy
    rw [hvx, hvy, Val_lt_fin he hf, hux, huy]
    exact decide_eq_decide.2 (signed_lt_signed_iff units32_strictMono (units32_of_subnormal (by decide)) _ _ _ _)
  · obtain ⟨m, e, hvx, -, -⟩ := fp32_value_of_finite ftz hx
    rw [hvx, fp32_value_of_inf hy, mag32_of_normal (c := y) (by omega), hy]
    cases neg32 x <;> cases neg32 y <;> simp [Val.lt, signed] <;> omega
  · obtain ⟨n, f, hvy, -, -⟩ := fp32_value_of_finite ftz hy
    rw [hvy, fp32_value_of_inf hx, mag32_of_normal (c := x) (by omega), hx]
    cases neg32 x <;> cases neg32 y <;> simp [Val.lt, signed] <;> omega
  · rw [fp32_value_of_inf hx, fp32_value_of_inf hy, mag32_of_normal (c := x) (by omega),
      mag32_of_normal (c := y) (by omega), hx, hy]
    cases neg32 x <;> cases neg32 y <;> rfl

/-! ## Relations -/

/-- A NaN stands below nothing (R63). -/
theorem Val_nan_lt (v : Val) : Val.nan.lt v = false := rfl

/-- Nothing stands below a NaN (R63). -/
theorem Val_lt_nan (v : Val) : v.lt .nan = false := by
  cases v <;> rfl

theorem Val_eq_nan_of_isNan {v : Val} (h : v.isNan = true) : v = .nan := by
  cases v with
  | nan => rfl
  | inf _ => cases h
  | fin _ _ _ => cases h

/-- With a NaN, `ne` alone holds (R63). -/
theorem Val_rel_of_isNan {x y : Val} (h : x.isNan = true ∨ y.isNan = true) (r : Rel) : x.rel r y = (r == .ne) := by
  have heq : x.eq y = false := by
    rcases h with h | h <;> simp [Val.eq, h]
  have hlt : x.lt y = false ∧ y.lt x = false := by
    rcases h with h | h
    · rw [Val_eq_nan_of_isNan h]
      exact ⟨Val_nan_lt y, Val_lt_nan y⟩
    · rw [Val_eq_nan_of_isNan h]
      exact ⟨Val_lt_nan x, Val_nan_lt x⟩
  have hnn : (!x.isNan && !y.isNan) = false := by
    rcases h with h | h <;> simp [h]
  cases r <;> simp [Val.rel, heq, hlt, hnn]

/-- R112's relations, read from the codes. -/
theorem fp32_rel (ftz : Bool) (r : Rel) (x y : Nat) :
    (Fmt.fp32.value ftz x).rel r (Fmt.fp32.value ftz y) = rel32 ftz r x y := by
  have hnx := fp32_value_isNan ftz x
  have hny := fp32_value_isNan ftz y
  unfold rel32
  by_cases hn : (isNan32 x || isNan32 y) = true
  · rw [if_pos hn, Val_rel_of_isNan (by rw [hnx, hny]; exact Bool.or_eq_true_iff.1 hn)]
  · rw [if_neg hn]
    obtain ⟨hx, hy⟩ := Bool.or_eq_false_iff.1 (Bool.not_eq_true _ ▸ hn)
    rw [hx] at hnx
    rw [hy] at hny
    have hxy := fp32_value_lt (ftz := ftz) hx hy
    have hyx := fp32_value_lt (ftz := ftz) hy hx
    have heq : (Fmt.fp32.value ftz x).eq (Fmt.fp32.value ftz y) = decide (key32 ftz x = key32 ftz y) := by
      rw [Val.eq, hnx, hny, hxy, hyx, Bool.eq_iff_iff]
      simp only [Bool.not_false, Bool.true_and, Bool.and_eq_true, Bool.not_eq_true', decide_eq_false_iff_not,
        decide_eq_true_eq]
      omega
    cases r <;>
      simp only [Val.rel, hnx, hny, hxy, hyx, heq, Bool.not_false, Bool.true_and, ← decide_not, not_lt, ne_eq]

/-! ## The instruction -/

theorem exec_cFcmp (x : CmpArgs) (s : State) : exec (.cFcmp x) s = execCFcmp x s := rfl

theorem exec_cFcmp_on {s s1 s2 : State} {x : CmpArgs} {a b : Dword} (hp : (s.str .c).holds x.pred = true)
    (ha : Takes .c x.a s a s1) (hb : Takes .c x.b s1 b s2) :
    exec (.cFcmp x) s = .next ((ordered .c [x.a, x.b] [] (s2.modStr .c fun st => st.setPred x.pd
      (rel32 (s.str .c).pfx.ctl.ftz x.rel (a.toNat % 2 ^ 32) (b.toNat % 2 ^ 32)))).complete .c 1 .go) := by
  rw [exec_cFcmp, execCFcmp, execCmp_ok hp ha hb]
  simp only [fp32Of, fp32_rel]

/-- The fields of an `fcmp` of two registers: the relation is read from the upper half of D, the predicate from its lower. -/
theorem rdCmp_fields {r pd : Nat} (p : Pred) (op a b : Fin 64) (hr : r < 8) (hpd : pd < 8) :
    rdCmp ⟨0, b, a, Fin.ofNat 64 (8 * r + pd), p, op, 0⟩ =
      (Rel.ofCode r).map fun q => ⟨p, q, Fin.ofNat 8 pd, .reg a, .reg b⟩ := by
  have hd : (Fin.ofNat 64 (8 * r + pd)).val = 8 * r + pd := Nat.mod_eq_of_lt (by omega)
  have hrel : (8 * r + pd) / 8 = r := by omega
  have hpred : Fin.ofNat 8 (8 * r + pd) = Fin.ofNat 8 pd := Fin.ext (show (8 * r + pd) % 8 = pd % 8 by omega)
  unfold rdCmp
  rw [if_neg (by simp)]
  simp only [hd, hrel, hpred]
  cases Rel.ofCode r <;> rfl

theorem findStep_fcmp {r pd : Nat} {p : Pred} (a b : Fin 64) (x : Word) (hp : p.ok = true) (hr : r < 8) (hpd : pd < 8) :
    findStep .c none (wordR 0x29 0 p (8 * r + pd) a.val b.val) x =
      (((Rel.ofCode r).filter Rel.fOk).map fun q => Instr.cFcmp ⟨p, q, Fin.ofNat 8 pd, .reg a, .reg b⟩).elim
        (.fault 0x02) (.run none) := by
  have hrd : ∀ w, fld 64 w 2 = Fin.ofNat 64 0x29 → decCP0 w = .of ((rdCmp (FR.ofWord w)).map .cFcmp) := by
    intro w h
    unfold decCP0
    rw [h]
    rfl
  have hwf : ∀ q, (Instr.cFcmp ⟨p, q, Fin.ofNat 8 pd, .reg a, .reg b⟩).wf = q.fOk := by
    intro q
    have hok : CmpArgs.okN .c ⟨p, q, Fin.ofNat 8 pd, .reg a, .reg b⟩ = true := by
      simp [CmpArgs.okN, CmpArgs.ok, hp, Opd.ok, onePort, Opd.isPort]
    exact (congrArg (· && q.fOk) hok).trans (Bool.true_and _)
  have hfin : ∀ n : Fin 64, Fin.ofNat 64 n.val = n := fun n => Fin.ext (Nat.mod_eq_of_lt n.isLt)
  rw [findStep_wordR (rd := fun f => (rdCmp f).map .cFcmp) x hrd (by decide) (by omega) a.isLt b.isLt]
  simp only [hfin, rdCmp_fields p _ a b hr hpd]
  cases Rel.ofCode r with
  | none => rfl
  | some q => cases hq : q.fOk <;> simp only [Option.map_some, Option.filter_some, hwf, hq] <;> rfl

/-- Settles O7: the decoder's clause by the six relations and the two reserved ones, and the effect because fp32 values
stand in the order of their codes' keys. -/
theorem floatCompare : Obligations.FloatCompare := by
  refine ⟨fun p r pd a b x hp hr hpd => ?_, fun s x a b s1 s2 _ _ hp ha hb => exec_cFcmp_on hp ha hb, fun _ => rfl⟩
  rw [findStep_fcmp a b x hp hr hpd]
  match r with
  | 0 | 1 | 2 | 3 | 4 | 5 | 6 | 7 => rfl
  | n + 8 => omega

end Sys2Proof.Proofs
end
